-- ==== Sys2Proof/Word.lean ====
section
/-! DEFINITION. The word types of the Ovfanel V9 (spec/00_scope.md) and nothing more. -/

namespace Sys2Proof

/-- A 32-bit lane register or form word. -/
abbrev Word := BitVec 32
/-- A 64-bit value: a register pair (R3), a register of the views, an instruction address (R27). -/
abbrev DWord := BitVec 64
/-- A byte of memory. -/
abbrev Byte := BitVec 8
/-- An instruction or virtual address, held in 64 bits (R27, R222). -/
abbrev Addr := BitVec 64
/-- One bit per lane of a group (R72). -/
abbrev LaneMask := BitVec 32
/-- A sparse table: strictly rising keys, see `Machine/Table.lean`. -/
abbrev Tbl (α : Type) := List (Nat × α)

end Sys2Proof
end

