-- ==== Sys2Proof/Config.lean ====
section
/-! DEFINITION. What the spec leaves open: free values, opaque constants that nothing can evaluate
(see the assumption log), and the constants the spec fixes for the package. -/

namespace Sys2Proof.Config

/-- Which candidate moves next when `State.schedule` is empty; applied to the fresh counter (log entry 1). -/
opaque arbiter : Nat → Nat
/-- Clocks that pass in one step beyond the first, per step (R2, log entry 2). -/
opaque clocks : Nat → Nat
/-- Clocks of a core that pass in one step, by the fresh counter and core: its clock may be gated (R2, R398, log
entry 2). -/
opaque coreClocks : Nat → Nat → Nat
/-- Value of a core's cycle counter after a later reset, by the fresh counter and core (R2, log entry 3). -/
opaque cycReset : Nat → Nat → BitVec 64
/-- Contents of a lane register outside the working set after a restart (R122, log entry 6). -/
opaque restartReg : Nat → BitVec 32
/-- Which of the two bracketing values `fexp2` returns, by operand (R168, log entry 7). -/
opaque exp2Up : BitVec 32 → Bool
/-- Which of the two bracketing values `flog2` returns, by operand (R168, log entry 7). -/
opaque log2Up : BitVec 32 → Bool
/-- Where in the 2-ulp band `fsin` falls, by operand (R169, log entry 7). -/
opaque sinPick : BitVec 32 → Nat
/-- Where in the 2-ulp band `fcos` falls, by operand (R169, log entry 7). -/
opaque cosPick : BitVec 32 → Nat
/-- Which of the two bracketing values `fredpi` returns, by operand (R170, log entry 7). -/
opaque redpiUp : BitVec 32 → Bool
/-- A byte of host memory that no agent of the model has written: the host may change it at any time, so each read takes
a fresh one, by read number and address (R388, log entry 5). -/
opaque hostByte : Nat → Nat → BitVec 8
/-- A byte of a poisoned sector as its reader finds it, by the fresh counter and address: the error is consumed, and the
spec gives the bytes no value (R248, R381, log entry 19). -/
opaque poisonByte : Nat → Nat → BitVec 8
/-- Which of the values that R259 and R260 allow a load returns for an aligned 8-byte unit, by event and unit: a number of stores back, or
the latest (log entry 73). -/
opaque lateRead : Nat → Nat → Nat
/-- The reply of another package to a multicast flow, by event and package (R319, log entry 17). -/
opaque peerReply : Nat → Nat → Bool
/-- The frame to which another package translates a page of a multicast flow that it takes, by event, package and virtual page (R319,
log entry 17). -/
opaque peerFrame : Nat → Nat → Nat → Nat
/-- A rectangle or table entry that the spec lets the scheduler choose (R330, R334, log entry 18). -/
opaque pick : Nat → Nat
/-- A bank element after a SilentData error in the matrix unit (R215, log entry 8). -/
opaque silentElem : Nat → BitVec 32
/-- Falcon-1024 verification of a signature over a digest under a public key (R379, log entry 9). -/
opaque falconVerify : List (BitVec 8) → List (BitVec 8) → List (BitVec 8) → Bool
/-- A signature the device identity key makes over a digest (R377, log entry 9). -/
opaque falconSign : List (BitVec 8) → List (BitVec 8)
/-- Certificate chain of the device identity key (R377, log entry 9). -/
opaque certificate : List (BitVec 8)
/-- Package power, rail current and die temperatures as the sensors give them (R396, log entry 16). -/
opaque telemetry : Nat → BitVec 64
/-- The choice between old and new value of an aligned unit under a race the spec allows (R212, R264, R288). -/
opaque tornUnit : Nat → Bool
/-- Which lines a patrol scrub finds with a bit to correct, by the fresh counter and line (R248, log entry 21). -/
opaque scrubbed : Nat → Nat → Bool
/-- The firmware's signature verifies, by the fresh counter at the reset (R397, log entry 9). -/
opaque firmwareGood : Nat → Bool
/-- A flow used a link that was lost, by the fresh counter, link and flow (R288, R375, log entry 23). -/
opaque usedLink : Nat → Nat → Nat → Bool
/-- Place of an uncontained report in the error ring, by its number: the spec gives none (R367, log entry 20). -/
opaque errPlace : Nat → Nat
/-- The firmware image's digest, extended into measurement index 0 (R397, log entry 9). -/
opaque firmwareDigest : List (BitVec 8)

/-- A strand that waits at nothing is ready in this clock: its operands' latencies are over and its pipe is granted, by the
fresh counter, team and strand (R82, R84, log entry 66). -/
opaque slotReady : Nat → Nat → Nat → Bool

/-- The operator key set at manufacture (R386, R396, log entry 9). -/
opaque operatorKey : List (BitVec 8)
/-- A requester's certificate, as FINISH shows it, chains to the operator key (R396, log entry 9). -/
opaque chainsTo : List (BitVec 8) → List (BitVec 8) → Bool
/-- The requester's part of FINISH verifies, by the fresh counter (R377, log entry 24). -/
opaque finishVerifies : Nat → List (BitVec 8) → Bool
/-- The channel within its plat, 0 to 23, of a line: the memory controller chooses it (R7, R242, log entry 69). -/
opaque channelOf : Nat → Nat
/-- The place of a line among those of its channel, by which the counter tree covers it: the spec does not give it (R242, R376, log
entry 69). -/
opaque lineSlot : Nat → Nat
/-- A line that HOME 10 pins finds room among the 12 ways of its set that may be pinned, within its world's mask (R245, R382,
log entry 69). -/
opaque pinFits : Nat → Nat → Bool

/-- Lines of an L1: 256 KiB (R8, R244). -/
def l1Lines : Nat := 2048
/-- Cores of the package (R6). -/
def cores : Nat := 240
/-- Bytes of a core's scratchpad (R180). -/
def scratchBytes : Nat := 1572864
/-- Side-log entries of a core (R236). -/
def sideLogEntries : Nat := 256
/-- Entries of a die's merge table and its chain cells (R235). -/
def mergeEntries : Nat := 1024
def chainCells : Nat := 4096
def inlineWaiters : Nat := 64
/-- Places of a node table, a ready pool and a device launch queue (R330, R331, R336). -/
def nodeTable : Nat := 65536
def readyPool : Nat := 1024
def launchQueue : Nat := 256
/-- Initial size of a partition's shadow pool in 64 KiB pages: the spec gives none (log entry 14). -/
def shadowPages : Nat := 65536

end Sys2Proof.Config
end

