-- ==== Sys2Proof/Machine/Shake.lean ====
section
/-! DEFINITION. SHAKE256 with 64-byte output, the hash that spec/19_worlds.md names (R369, R377 to R379). Its definition is
that of FIPS 202, outside the spec (log entry 9). -/

namespace Sys2Proof.Machine

open Sys2Proof

/-- Rotation offsets of the lanes, x fastest. -/
def keccakRot : List Nat :=
  [0, 1, 62, 28, 27, 36, 44, 6, 55, 20, 3, 10, 43, 25, 39, 41, 45, 15, 21, 8, 18, 2, 61, 56, 14]

/-- Round constants. -/
def keccakRc : List DWord :=
  [0x0000000000000001, 0x0000000000008082, 0x800000000000808A, 0x8000000080008000, 0x000000000000808B, 0x0000000080000001,
   0x8000000080008081, 0x8000000000008009, 0x000000000000008A, 0x0000000000000088, 0x0000000080008009, 0x000000008000000A] ++
  [0x000000008000808B, 0x800000000000008B, 0x8000000000008089, 0x8000000000008003, 0x8000000000008002, 0x8000000000000080,
   0x000000000000800A, 0x800000008000000A, 0x8000000080008081, 0x8000000000008080, 0x0000000080000001, 0x8000000080008008]

/-- Lane (x, y) of a state of 25 lanes. -/
def keccakLane (a : List DWord) (x y : Nat) : DWord := a.getD (x % 5 + 5 * (y % 5)) 0#64

/-- A state from its lanes. -/
def keccakOf (f : Nat → Nat → DWord) : List DWord := (List.range 25).map (fun i => f (i % 5) (i / 5))

/-- One round of Keccak-f[1600]. -/
def keccakRound (a : List DWord) (rc : DWord) : List DWord :=
  let c := (List.range 5).map (fun x => (List.range 5).foldl (fun v y => v ^^^ keccakLane a x y) 0#64)
  let d (x : Nat) : DWord := c.getD ((x + 4) % 5) 0#64 ^^^ (c.getD ((x + 1) % 5) 0#64).rotateLeft 1
  let t := keccakOf (fun x y => keccakLane a x y ^^^ d x)
  let b := keccakOf (fun x y =>
    let sx := (x + 3 * y) % 5
    (keccakLane t sx x).rotateLeft (keccakRot.getD (sx + 5 * x) 0))
  let n := keccakOf (fun x y => keccakLane b x y ^^^ (~~~(keccakLane b (x + 1) y) &&& keccakLane b (x + 2) y))
  match n with
  | h :: r => (h ^^^ rc) :: r
  | [] => []

def keccakF (a : List DWord) : List DWord := keccakRc.foldl keccakRound a

/-- The little-endian lane of eight bytes. -/
def laneOfBytes (bs : List Byte) : DWord := bs.reverse.foldl (fun v b => (v <<< 8) ||| b.setWidth 64) 0#64

/-- Absorbs `n` blocks of 136 bytes. -/
def shakeAbsorb : Nat → List DWord → List Byte → List DWord
  | 0, a, _ => a
  | n + 1, a, bs =>
    let a1 := (List.range 25).map (fun i =>
      a.getD i 0#64 ^^^ (if i < 17 then laneOfBytes ((bs.drop (8 * i)).take 8) else 0#64))
    shakeAbsorb n (keccakF a1) (bs.drop 136)

/-- The message padded to whole blocks: 1F after it, and the top bit of the last byte. -/
def shakePad (m : List Byte) : List Byte :=
  let r := 135 - m.length % 136
  if r = 0 then m ++ [0x9F#8] else m ++ [0x1F#8] ++ List.replicate (r - 1) 0#8 ++ [0x80#8]

/-- SHAKE256, first 64 bytes. -/
def shake256 (m : List Byte) : List Byte :=
  let p := shakePad m
  let a := shakeAbsorb (p.length / 136) (List.replicate 25 0#64) p
  (List.range 64).map (fun i => ((keccakLane a (i / 8) (i / 40)) >>> (8 * (i % 8))).setWidth 8)

end Sys2Proof.Machine
end

