-- ==== Sys2Proof/Syntax.lean ====
section
/-! DEFINITION. The instructions and events of the Ovfanel V9: one constructor per row of
spec/opcode_table.json. The encoded instructions carry the fields of their format (spec/03_encoding.md,
R33 to R47); the events carry what names the thing they act on. -/

namespace Sys2Proof

/-- SCOPE and SET, bits [86:82] (Table 3.2). -/
inductive Scope where
  | lane | group | set (n : BitVec 3) | team
  deriving DecidableEq, Repr

/-- The type codes of Table 3.14, in code order. -/
inductive ElemTy where
  | i32 | n32 | i64 | n64 | f32 | f16 | bf16 | i16 | n16 | i8 | n8 | e4m3 | e5m2 | e2m1 | e8m0 | i4
  deriving DecidableEq, Repr

/-- The rounding modes of Table 3.15. -/
inductive Rnd where
  | rne | rz | ru | rd | rdi
  deriving DecidableEq, Repr

/-- ISEL of formats V and I (R37, R40). -/
inductive ISel where
  | none | dst | a | b
  deriving DecidableEq, Repr

/-- WIDTH of format M: 1, 2, 4, 8 or 16 bytes (Table 3.6). -/
inductive Width where
  | b1 | b2 | b4 | b8 | b16
  deriving DecidableEq, Repr

/-- MSCOPE of format M (Table 3.6), narrowest first (R255). -/
inductive MScope where
  | grp | team | core | clu | die | pkg | dom | sys
  deriving DecidableEq, Repr

/-- ORDER of format M (Table 3.6). -/
inductive MOrder where
  | relaxed | acquire | release | acqRel
  deriving DecidableEq, Repr

/-- HINT of format M (Table 3.6). -/
inductive Hint where
  | normal | stream | keep | noL1
  deriving DecidableEq, Repr

/-- MODE of format X (Table 3.7). -/
inductive MmaMode where
  | acc | ow | zo
  deriving DecidableEq, Repr

/-- Bits [95:75] but for the opcode (Table 3.2). -/
structure Common where
  scope : Scope
  w : Bool
  q : Bool
  l : Bool
  pneg : Bool
  pred : BitVec 3
  deriving DecidableEq, Repr

/-- Format V (Table 3.4). -/
structure FmtV where
  dst : BitVec 11
  a : BitVec 11
  b : BitVec 11
  c : BitVec 11
  ea : Bool
  eb : Bool
  ec : Bool
  isel : ISel
  ireg : BitVec 2
  ty : ElemTy
  rnd : Rnd
  sat : Bool
  na : Bool
  nb : Bool
  nc : Bool
  aa : Bool
  ab : Bool
  ac : Bool
  qsel : BitVec 3
  lslot : BitVec 2
  sub : BitVec 5
  deriving DecidableEq, Repr

/-- Format I (Table 3.5). -/
structure FmtI where
  dst : BitVec 11
  a : BitVec 11
  imm : BitVec 32
  ea : Bool
  rnd : Rnd
  sat : Bool
  ty : ElemTy
  isel : ISel
  ireg : BitVec 2
  qsel : BitVec 3
  sub : BitVec 5
  deriving DecidableEq, Repr

/-- Format M (Table 3.6). -/
structure FmtM where
  data : BitVec 11
  addr : BitVec 11
  second : BitVec 11
  offset : BitVec 22
  width : Width
  mscope : MScope
  order : MOrder
  hint : Hint
  ed : Bool
  ea : Bool
  es : Bool
  sub : BitVec 6
  deriving DecidableEq, Repr

/-- Format X (Table 3.7); SHAPE is 0 in every instruction. -/
structure FmtX where
  acc : BitVec 4
  abase : BitVec 11
  ascale : BitVec 11
  bres : BitVec 4
  boff : BitVec 16
  afmt : ElemTy
  mode : MmaMode
  reuse : Bool
  bcast : Bool
  arrive : Bool
  bar : BitVec 4
  deriving DecidableEq, Repr

/-- Format C (Table 3.8). -/
structure FmtC where
  srca : BitVec 11
  tdisp : BitVec 29
  tslot : BitVec 3
  jdisp : BitVec 21
  jslot : BitVec 3
  sub : BitVec 8
  deriving DecidableEq, Repr

/-- Format E (Table 3.9). -/
structure FmtE where
  sdst : BitVec 11
  opa : BitVec 11
  opb : BitVec 11
  opc : BitVec 11
  obj : BitVec 4
  flags : BitVec 27
  deriving DecidableEq, Repr

/-- The operands of `region` (R46): N in [74:64] and four range fields. -/
structure FmtR where
  n : BitVec 11
  r0 : BitVec 16
  r1 : BitVec 16
  r2 : BitVec 16
  r3 : BitVec 16
  deriving DecidableEq, Repr

/-- Format S (Table 3.10). -/
structure FmtS where
  reg : BitVec 11
  csr : BitVec 16
  deriving DecidableEq, Repr

/-- A gate record (Table 19.2): the traverse record's four dwords and the other fields. -/
structure GateRec where
  trav : List DWord
  gate : Nat
  srcc : Nat
  dstc : Nat
  flags : Byte
  reserved : Bool
  deriving DecidableEq, Repr

/-- An authority command as it reaches the security engine (Table 19.5). `header` is bytes 0 to 127 as the
signature covers them; the other fields are the header's fields read out of it. -/
structure AuthCmd where
  header : List Byte
  signature : List Byte
  pubkey : List Byte
  deriving DecidableEq, Repr

/-- Where an SPDM or MCTP exchange arrives: DOE of PCIe function n, the Basder port, or a Frekuide peer (R377). -/
inductive Endpoint where
  | function (n : Nat) | basder | peer (link : Nat)
  deriving DecidableEq, Repr

/-- One constructor per row of spec/opcode_table.json. -/
inductive Instr where
  -- control (05_issue.md, 06_tracts.md, 18_faults.md)
  | nop (c : Common) (f : FmtC)
  | br (c : Common) (f : FmtC)
  | brc (c : Common) (f : FmtC)
  | brx (c : Common) (f : FmtC)
  | call (c : Common) (f : FmtC)
  | ret (c : Common) (f : FmtC)
  | join (c : Common) (f : FmtC)
  | loop (c : Common) (f : FmtC)
  | exit (c : Common) (f : FmtC)
  | tjoin (c : Common) (f : FmtC)
  | region (c : Common) (f : FmtR)
  | yield (c : Common) (f : FmtC)
  | trap (c : Common) (f : FmtC)
  | bkpt (c : Common) (f : FmtC)
  -- registers (07_registers.md) and lane exchange (05_issue.md)
  | mov (c : Common) (f : FmtV)
  | movi (c : Common) (f : FmtI)
  | sel (c : Common) (f : FmtV)
  | kset (c : Common) (f : FmtV)
  | kop (c : Common) (f : FmtV)
  | kmov (c : Common) (f : FmtV)
  | xset (c : Common) (f : FmtV)
  | shfl (c : Common) (f : FmtV)
  | vote (c : Common) (f : FmtV)
  | gred (c : Common) (f : FmtV)
  | gscan (c : Common) (f : FmtV)
  -- integer (09_arithmetic.md)
  | add (c : Common) (f : FmtV)
  | sub (c : Common) (f : FmtV)
  | mul (c : Common) (f : FmtV)
  | mulhi (c : Common) (f : FmtV)
  | mad (c : Common) (f : FmtV)
  | madhi (c : Common) (f : FmtV)
  | min (c : Common) (f : FmtV)
  | max (c : Common) (f : FmtV)
  | abs (c : Common) (f : FmtV)
  | neg (c : Common) (f : FmtV)
  | and (c : Common) (f : FmtV)
  | or (c : Common) (f : FmtV)
  | xor (c : Common) (f : FmtV)
  | not (c : Common) (f : FmtV)
  | shl (c : Common) (f : FmtV)
  | shr (c : Common) (f : FmtV)
  | sar (c : Common) (f : FmtV)
  | rot (c : Common) (f : FmtV)
  | clz (c : Common) (f : FmtV)
  | popc (c : Common) (f : FmtV)
  | brev (c : Common) (f : FmtV)
  | bfx (c : Common) (f : FmtV)
  | bfi (c : Common) (f : FmtV)
  | lea (c : Common) (f : FmtV)
  | addImm (c : Common) (f : FmtI)
  | subImm (c : Common) (f : FmtI)
  | mulImm (c : Common) (f : FmtI)
  | mulhiImm (c : Common) (f : FmtI)
  | madImm (c : Common) (f : FmtI)
  | madhiImm (c : Common) (f : FmtI)
  | minImm (c : Common) (f : FmtI)
  | maxImm (c : Common) (f : FmtI)
  | absImm (c : Common) (f : FmtI)
  | negImm (c : Common) (f : FmtI)
  | andImm (c : Common) (f : FmtI)
  | orImm (c : Common) (f : FmtI)
  | xorImm (c : Common) (f : FmtI)
  | notImm (c : Common) (f : FmtI)
  | shlImm (c : Common) (f : FmtI)
  | shrImm (c : Common) (f : FmtI)
  | sarImm (c : Common) (f : FmtI)
  | rotImm (c : Common) (f : FmtI)
  | clzImm (c : Common) (f : FmtI)
  | popcImm (c : Common) (f : FmtI)
  | brevImm (c : Common) (f : FmtI)
  | bfxImm (c : Common) (f : FmtI)
  | bfiImm (c : Common) (f : FmtI)
  | leaImm (c : Common) (f : FmtI)
  | div (c : Common) (f : FmtV)
  | rem (c : Common) (f : FmtV)
  -- float (09_arithmetic.md)
  | fadd (c : Common) (f : FmtV)
  | fsub (c : Common) (f : FmtV)
  | fmul (c : Common) (f : FmtV)
  | ffma (c : Common) (f : FmtV)
  | fmin (c : Common) (f : FmtV)
  | fmax (c : Common) (f : FmtV)
  | faddImm (c : Common) (f : FmtI)
  | fsubImm (c : Common) (f : FmtI)
  | fmulImm (c : Common) (f : FmtI)
  | ffmaImm (c : Common) (f : FmtI)
  | fminImm (c : Common) (f : FmtI)
  | fmaxImm (c : Common) (f : FmtI)
  | frcp (c : Common) (f : FmtV)
  | frsq (c : Common) (f : FmtV)
  | fsqrt (c : Common) (f : FmtV)
  | fdiv (c : Common) (f : FmtV)
  | fexp2 (c : Common) (f : FmtV)
  | flog2 (c : Common) (f : FmtV)
  | fsin (c : Common) (f : FmtV)
  | fcos (c : Common) (f : FmtV)
  | fredpi (c : Common) (f : FmtV)
  | frint (c : Common) (f : FmtV)
  | fclass (c : Common) (f : FmtV)
  | fscale (c : Common) (f : FmtV)
  | fgetexp (c : Common) (f : FmtV)
  | hadd2 (c : Common) (f : FmtV)
  | hmul2 (c : Common) (f : FmtV)
  | hfma2 (c : Common) (f : FmtV)
  | dot4 (c : Common) (f : FmtV)
  | dot8 (c : Common) (f : FmtV)
  | pack (c : Common) (f : FmtV)
  | unpack (c : Common) (f : FmtV)
  | cvt (c : Common) (f : FmtV)
  | bscale (c : Common) (f : FmtV)
  | bmax (c : Common) (f : FmtV)
  -- memory (13_memory.md, 10_local_memory.md, 14_visibility.md)
  | ld (c : Common) (f : FmtM)
  | st (c : Common) (f : FmtM)
  | atom (c : Common) (f : FmtM)
  | red (c : Common) (f : FmtM)
  | lds (c : Common) (f : FmtM)
  | sts (c : Common) (f : FmtM)
  | atoms (c : Common) (f : FmtM)
  | fence (c : Common) (f : FmtM)
  -- local memory and matrix unit (10_local_memory.md, 11_matrix.md)
  | obres (c : Common) (f : FmtE)
  | obrel (c : Common) (f : FmtE)
  | aalloc (c : Common) (f : FmtE)
  | afree (c : Common) (f : FmtE)
  | mma (c : Common) (f : FmtX)
  | ald (c : Common) (f : FmtE)
  | ast (c : Common) (f : FmtE)
  | aget (c : Common) (f : FmtE)
  | mwait (c : Common) (f : FmtE)
  | mperturb (c : Common) (f : FmtE)
  | matrixOpStart (core : Nat) (op : Nat)
  | operandsConsumed (core : Nat) (op : Nat)
  | matrixOpCompletion (core : Nat) (op : Nat) (mismatch : Bool)
  | broadcastDelivery (node : Nat) (team : Nat)
  -- claims and flows (15_claims.md)
  | claim (c : Common) (f : FmtE)
  | claimWalkEnd (team : Nat) (claim : Nat)
  | flow (c : Common) (f : FmtE)
  | flowCompletion (flow : Nat)
  | cwait (c : Common) (f : FmtE)
  | crel (c : Common) (f : FmtE)
  | cstat (c : Common) (f : FmtE)
  | cbset (c : Common) (f : FmtE)
  | cbtake (c : Common) (f : FmtE)
  | cbgive (c : Common) (f : FmtE)
  -- queues (16_channels.md)
  | qbind (c : Common) (f : FmtE)
  | qunbind (c : Common) (f : FmtE)
  | qstat (c : Common) (f : FmtE)
  | creditRequest (send : Nat)
  | creditGrant (send : Nat)
  | messageArrival (send : Nat)
  -- barrier objects (14_visibility.md)
  | barinit (c : Common) (f : FmtE)
  | barArrive (c : Common) (f : FmtE)
  | barWait (c : Common) (f : FmtE)
  | barTest (c : Common) (f : FmtE)
  | barDrop (c : Common) (f : FmtE)
  -- device-side launch (17_launch.md) and control registers (18_faults.md)
  | nlaunch (c : Common) (f : FmtE)
  | nwait (c : Common) (f : FmtE)
  | nstat (c : Common) (f : FmtE)
  | csrr (c : Common) (f : FmtS)
  | csrw (c : Common) (f : FmtS)
  | tret (c : Common) (f : FmtS)
  -- events of issue, memory and translation
  | registerFill (fill : Nat)
  | strandAging (team : Nat) (group : Nat) (strand : Nat)
  | scopeMismatchDetect (team : Nat)
  | icacheRefetch (core : Nat) (line : Nat)
  | memoryRequest (req : Nat)
  | peerAccessRelay (req : Nat)
  | translationWalk (walk : Nat)
  | s2qAnswerRetry (part : Nat) (id : BitVec 32)
  | s2qAnswerInvalid (part : Nat) (id : BitVec 32)
  | fqAnswerRetry (world : Nat) (id : BitVec 32)
  | fqAnswerInvalid (world : Nat) (id : BitVec 32)
  | s2qTailWrite (part : Nat) (v : DWord)
  | fqtailWrite (world : Nat) (v : DWord)
  | fqbaseWrite (world : Nat) (v : DWord)
  | shootCommand (world : Nat) (stage2 : Bool) (addr : DWord) (pages : DWord)
  | s1shootCommand (world : Nat) (addr : DWord) (pages : DWord)
  | shootdownComplete (id : Nat)
  | pageReset (addr : DWord) (pages : DWord)
  | migration (world : Nat) (gpa : DWord) (frame : DWord)
  -- pre-emption and placement
  | preemptWorld (world : Nat)
  | preemptNode (handle : DWord)
  | teamPreemptStart (team : Nat)
  | teamStateSave (team : Nat)
  | teamPlacement (team : Nat) (core : Nat)
  | teamRestart (team : Nat) (core : Nat)
  | bankWaitDeadlock (core : Nat)
  | timeSliceEnd (part : Nat) (next : Nat)
  -- launch
  | notify (world : Nat) (queue : Nat)
  | queueSlotRotation (part : Nat)
  | launchAccept (world : Nat) (queue : Nat)
  | readyPoolAdmit (part : Nat) (node : Nat)
  | priorityAging (part : Nat) (node : Nat)
  | nodeDispatch (part : Nat) (lead : Nat)
  | dispatchWalkEnd (node : Nat)
  | spillReturn (part : Nat)
  | nodeCommit (node : Nat)
  | nodeEndByTrap (node : Nat)
  | launchEnd (launch : Nat)
  | nodeReplay (node : Nat)
  | launchReplay (launch : Nat)
  -- memory upkeep, partitions, worlds
  | patrolScrub (channel : Nat)
  | multicastReceive (group : Nat) (trav : List DWord) (off : Nat) (bytes : List Byte)
  | partitionRecordWrite (part : Nat) (v : DWord)
  | drmaskWrite (mask : Nat) (dword : Nat) (v : DWord)
  | mcastEntryWrite (entry : Nat) (v : DWord)
  | worldHalt (world : Nat)
  | worldResume (world : Nat)
  | waymaskWrite (world : Nat) (v : DWord)
  | waymaskSweepComplete (world : Nat)
  -- security
  | compartmentCreate (comp : Nat)
  | revokeKey (cmd : AuthCmd)
  | revocationDrainEnd (comp : Nat)
  | installGate (cmd : AuthCmd)
  | closeGate (cmd : AuthCmd)
  | functionLevelReset (fn : Nat)
  | flrDrainEnd (world : Nat)
  | getVersion (ep : Endpoint)
  | getCapabilities (ep : Endpoint)
  | negotiateAlgorithms (ep : Endpoint) (falcon : Bool) (shake : Bool)
  | getDigests (ep : Endpoint)
  | getCertificate (ep : Endpoint) (off : Nat) (len : Nat)
  | challenge (ep : Endpoint) (nonce : List Byte)
  | getMeasurements (ep : Endpoint) (world : Nat) (index : Nat)
  | keyExchange (ep : Endpoint) (share : List Byte)
  | finish (ep : Endpoint) (verify : List Byte)
  | endSession (ep : Endpoint)
  -- management, reset, power, links
  | readErrorLog (seq : Nat)
  | readTelemetry
  | setPackageId (id : BitVec 9)
  | powerOn
  | warmReset
  | pcieConventionalReset
  | standbyEntry (basder : Bool)
  | standbyPowerLoss
  | throttleStepDown
  | throttleStepUp
  | criticalTemperature (die : Nat)
  | linkRetry (link : Nat)
  | laneFailover (link : Nat)
  | linkRekey (link : Nat)
  | pathLost (link : Nat) (pkg : Nat)
  | registerWrite (fn : Nat) (off : Nat) (v : DWord)
  | hostCancellation (world : Nat) (handle : DWord) (whole : Bool)
  | worldCreation (world : Nat) (record : List Byte)
  | pcieConfigurationRequest (fn : Nat)
  deriving DecidableEq, Repr

end Sys2Proof
end

