-- ==== Sys2Proof/Machine/State.lean ====
section
/-! DEFINITION. The state of one Ovfanel V9 package, as plain data, with the memory of its load-store domain.
INVENTORY.md, under State, names the rule of every field. -/

namespace Sys2Proof.Machine

open Sys2Proof

/-- Why the machine stops. -/
inductive Fault where
  /-- The package has halted on a bad firmware signature (R397, step 3): no later step is defined until a reset.
  Raised by an encoded instruction only. Safe. -/
  | packageHalted
  /-- No agent is named as the issuer of the instruction: `exec` was given an encoded instruction with
  `State.cur = Issuer.none`. A step never does so. Safe. -/
  | noIssuer
  deriving DecidableEq, Repr

/-- Why an instruction has no meaning. -/
inductive Refusal where
  /-- The instruction of this mnemonic has no meaning in the model yet. Raised by `exec`. Safe. -/
  | notModelled (mnemonic : String)
  deriving DecidableEq, Repr

/-- The trap kinds of Table 18.2, in code order from 1. -/
inductive TrapKind where
  | illegalOp | illegalOperand | illegalScope | illegalTarget | illegalLine
  | regIndex | emptyRead | scopeMismatch | formWrite | misaligned
  | protection | stableWrite | routeFault | claimRevoked | claimFaulted | keyRevoked
  | loopOverflow | queueUnbound | userTrap | breakpoint | silentData | uncorrectable
  deriving DecidableEq, Repr

/-- The scope field of ecause (Table 18.1). -/
inductive TrapScope where
  | lane | group | set | team
  deriving DecidableEq, Repr

/-- A raised trap (R341). -/
structure TrapRec where
  kind : TrapKind
  eaddr : DWord
  code : BitVec 16
  deferred : Bool
  scope : TrapScope
  deriving DecidableEq, Repr

/-- A dimension of the index space. -/
inductive Dim where
  | x | y | z
  deriving DecidableEq, Repr

/-- The three kinds of value of a form register (R100). -/
inductive FormVal where
  | undef
  | uni (u : Word)
  | aff (b cx cy cz : Word)
  deriving DecidableEq, Repr

/-- The predicate kinds in form (Table 6.1). -/
inductive PredVal where
  | undef
  | uni (b : Bool)
  | range (d : Dim) (t : Nat) (ge : Bool)
  deriving DecidableEq, Repr

/-- An active zero-overhead loop (R91): counter number, count, first and end address, depth of the record stack
when it opened, and the lanes that wait at the end of the body. -/
structure Loop where
  n : Nat
  count : Word
  top : Addr
  fin : Addr
  depth : Nat
  waiting : LaneMask
  deriving DecidableEq, Repr

/-- A divergence record (R74): join target, quads of its strands, lanes parked at the target, and whether the handler of
a trap pushed it (R343). -/
structure DivRec where
  join : Addr
  quads : BitVec 8
  /-- the lanes at its branch: it is their record (R75, log entry 12) -/
  lanes : LaneMask
  parked : LaneMask
  handler : Bool
  deriving DecidableEq, Repr

/-- What holds a strand or a parcel at its instruction other than readiness of registers. -/
inductive Hold where
  | none
  /-- waiting until these registers of its group are full (R18, R82) -/
  | regs (rs : List Nat)
  /-- waiting for a translation walk or a fault answer (R233) -/
  | walk
  /-- waiting in aalloc for a bank, or in obres for a record (R195) -/
  | resource (bank : Bool)
  /-- waiting at a queue, cbtake, engine or node (R78, R355) -/
  | wait
  /-- waiting in `cwait` for the flows issued before it: those with an id below `upto` (R296) -/
  | flows (upto : Nat)
  /-- waiting in `bar.wait` at an object: 0 to 15 the team's, 16 up the cluster's (R271, R272) -/
  | bar (obj : Nat)
  deriving DecidableEq, Repr

/-- A strand (R72). -/
structure Strand where
  quads : BitVec 8
  /-- the group-, set- or team-scope instruction the strand has arrived at (R76), and its scope -/
  arrived : Option Addr
  ascope : Scope
  hold : Hold
  /-- stopped while its group is in handler mode (R343) -/
  stopped : Bool
  /-- a trap held until tret (R343) -/
  held : Option TrapRec
  /-- at the head of its slot (R83) -/
  aged : Bool
  /-- wait count: clocks for which it has stayed ready without issuing (R83) -/
  wait : Nat
  deriving DecidableEq, Repr

/-- What the save engine records after a resume point (R124, R291): the instruction, its kind, the object, and the
slot address or count that a cbtake or cbgive returned. -/
inductive RecKind where
  | aalloc | obres | barinit | cbset | qbind | barWait | cbtake | cbgive
  deriving DecidableEq, Repr

structure RecEntry where
  /-- the lanes that performed it and have not passed a later resume point -/
  lanes : LaneMask
  addr : Addr
  kind : RecKind
  obj : Nat
  slot : Nat
  deriving DecidableEq, Repr

/-- A message in a receive queue (R126, R317). -/
structure Message where
  /-- the model's number of its arrival, by which R119 puts messages back in order -/
  seq : Nat
  words : Tbl Word
  mask : LaneMask
  srcRank : Nat
  srcQueue : Nat
  srcGroup : Nat
  deriving DecidableEq, Repr

/-- Trap registers and handler mode of a group (R341 to R345). -/
structure TrapRegs where
  ecause : Word
  epc : DWord
  eaddr : DWord
  scope : TrapScope
  /-- member groups of a set- or team-scope trap (R344) -/
  members : List Nat
  /-- tret has issued and waits for the other members -/
  done : Bool
  /-- quads of the handler strand and its lanes that do not take part in the handler -/
  quads : BitVec 8
  outside : LaneMask
  /-- loop state set aside (R345) -/
  loops : List Loop
  deriving DecidableEq, Repr

/-- Placement state of a group (R123). -/
structure Placement where
  pc : Addr
  kval : Tbl LaneMask
  kdef : Tbl LaneMask
  loops : List Loop
  form : Tbl FormVal
  /-- the node's entry, where the tract's TARGET check has failed: each group raises it there (R29) -/
  entry : Bool
  /-- the trap that the parcel met there at a check of its targets, with its eaddr: each group raises it (R110) -/
  due : Option (TrapKind × DWord)
  deriving DecidableEq, Repr

/-- A deferred Protection that a group owes (R237): whether its store lies before the group's resume point, so that a restart
does not issue it again (R238), and whether the handler strand issued it in handler mode (R346). -/
structure Owed where
  trap : TrapRec
  kept : Bool
  handler : Bool
  deriving DecidableEq, Repr

/-- What the save engine keeps with a resume point: the group's strands and record stack as they stood when it was passed
(R122). -/
structure Kept where
  addr : Addr
  strands : List (BitVec 8)
  divs : List DivRec
  deriving DecidableEq, Repr

/-- An agent of R255 as it stands when it acts: its core, and the node, team and group that its lanes are of; a parcel, which has no
cluster, is a team of one group. -/
structure Agent where
  core : Nat
  node : Nat
  team : Nat
  group : Nat
  clu : Option Nat
  deriving DecidableEq, Repr

/-- A release (R256): who made it, at what scope, and in which step. -/
structure Head where
  agent : Agent
  scope : MScope
  step : Nat
  deriving DecidableEq, Repr

/-- A store at a home slice that some cores may not see yet (R259, R260): the aligned 8-byte unit with its bytes before the store, as
their compartment read them; the step and every core's clocks at the store; and the cores that see it. -/
structure Late where
  unit : Nat
  old : List Byte
  comp : Nat
  step : Nat
  cycs : List DWord
  aware : List Nat
  deriving DecidableEq, Repr

/-- One group of 32 lanes (R72, R117 to R124). Per-lane tables have the lane as key; `regs` has 32·register + lane,
`xoff` 32·index register + lane. -/
structure Group where
  regs : Tbl Word
  empty : List Nat
  xbase : Tbl Word
  xlimit : Tbl Word
  xoff : Tbl Word
  kval : Tbl LaneMask
  kdef : Tbl LaneMask
  lflags : Tbl (BitVec 6)
  pc : Tbl Addr
  exited : LaneMask
  strands : List Strand
  divs : List DivRec
  loops : List Loop
  ws : List (Nat × Nat)
  resume : Tbl Addr
  /-- what is kept with each resume point that a lane holds (R122) -/
  kept : List Kept
  /-- lanes that a restart has brought back to their resume point and that have passed none since (R124) -/
  returned : LaneMask
  placement : Option Placement
  log : List RecEntry
  replay : List RecEntry
  /-- messages consumed since the latest resume point of the lanes given, by queue (R119) -/
  consumed : List (LaneMask × Nat × Message)
  trap : Option TrapRegs
  waits : Tbl Word
  deferred : Option Owed
  /-- the lanes whose pass of a loop body has ended, and the loops as they stood before the counter was stepped, until one of
  the lanes issues again: a restart at an earlier resume point runs the end of that pass again (R91, R122) -/
  passEnd : Option (LaneMask × List Loop)
  deriving DecidableEq, Repr

/-- A reservation record (Table 10.5). -/
structure Reservation where
  base : Nat
  len : Nat
  fmt : ElemTy
  scaleOff : Nat
  nk : Bool
  bcast : Bool
  deriving DecidableEq, Repr

/-- A bank held by a team: elements by 192·row + column, and the armed perturbation (R193, R221). -/
structure Bank where
  data : Tbl Word
  perturb : Option (Nat × Nat × Word)
  deriving DecidableEq, Repr

/-- Owner of a latched fragment (R205): a set, or the team. -/
inductive LatchOwner where
  | set (n : Nat) | team
  deriving DecidableEq, Repr

/-- A latch slot (R205): words by 16·row + word, scales by row. -/
structure Latch where
  held : Option (Nat × Nat × LatchOwner)
  words : Tbl Word
  scales : Tbl Word
  deriving DecidableEq, Repr

/-- A barrier object (Table 14.8), with arrivals held until it is initialised (R271, R295). -/
structure BarObj where
  init : Bool
  scope : MScope
  grid : Bool
  count : Nat
  pending : Nat
  phase : Word
  heldArrivals : Nat
  /-- the releases of its arrivals (R273) -/
  heads : List Head
  deriving DecidableEq, Repr

/-- Claim states (Table 15.5). -/
inductive ClaimState where
  | free | walking | held | flowing | dormant | revoked | faulted
  deriving DecidableEq, Repr

/-- Claim kinds (Table 15.3). -/
inductive ClaimKind where
  | copy | request | push | multicast | reduce | gate
  deriving DecidableEq, Repr

/-- The status code of a walk or a flow (R293). -/
inductive ClaimStatus where
  | ok | fragmented | full | severed
  deriving DecidableEq, Repr

/-- A traverse record read (Table 15.1): extents as counts, strides signed. -/
structure Trav where
  base : Nat
  esz : Nat
  ext : List Nat
  stride : List Int
  deriving DecidableEq, Repr

/-- Effective attributes of a translation (R226); `size` codes the smaller of the two leaves' pages as SIZE does. -/
structure Attr where
  w : Bool
  x : Bool
  s : Bool
  home : BitVec 2
  comp : Nat
  size : Nat
  deriving DecidableEq, Repr

/-- A claim descriptor read (Table 15.2). -/
structure ClaimDesc where
  kind : ClaimKind
  scope : MScope
  cbuf : Bool
  comp : Nat
  bark : Nat
  bar : Nat
  rop : Nat
  peer : Nat
  route : Nat
  src : Trav
  dst : Trav
  deriving DecidableEq, Repr

/-- A claim descriptor's fields with the addresses of its traverse records (Table 15.2). -/
structure RawDesc where
  kind : ClaimKind
  scope : MScope
  cbuf : Bool
  comp : Nat
  bark : Nat
  bar : Nat
  rop : Nat
  peer : Nat
  route : Nat
  strav : Nat
  dtrav : Nat
  deriving DecidableEq, Repr

/-- An extent: first virtual page, count of pages, host-physical page of the first, attributes, and the addresses from
the first byte of its elements up to the last, `hi` excluded (R278, R239).
`dir` is the operand direction of a node extent: 1 in, 2 out, 3 inout; 0 for a team's claim. -/
structure Extent where
  vpage : Nat
  pages : Nat
  ppage : Nat
  attr : Attr
  lo : Nat
  hi : Nat
  dst : Bool
  dir : Nat
  deriving DecidableEq, Repr

/-- A page that a walk has visited: virtual page, guest-physical page, whether for write, host-physical page, attributes
(R279). -/
structure Seen where
  vpage : Nat
  gpage : Nat
  write : Bool
  ppage : Nat
  attr : Attr
  deriving DecidableEq, Repr

/-- How far a walk has come (R279): the records that it has read, the pieces of elements that it has visited, over the source and
then the destination, and what it has recorded: pages visited, extents, latest first, distinct pages and their guest-physical
pages. -/
structure Walked where
  desc : Option RawDesc
  src : Option Trav
  dst : Option Trav
  done : Nat
  seen : List Seen
  exts : List Extent
  pages : List Nat
  gpages : List Nat
  deriving DecidableEq, Repr

/-- A walk at its beginning. -/
def Walked.start : Walked := { desc := none, src := none, dst := none, done := 0, seen := [], exts := [], pages := [], gpages := [] }

/-- How a walk that its issuer has not taken up yet ended (Table 15.4): `done` carries the status word (R293). -/
inductive WalkOut where
  | none
  | done (word : Nat)
  | trap (k : TrapKind) (eaddr : DWord)
  deriving DecidableEq, Repr

/-- A circular buffer (R289, R298). -/
structure CBuf where
  base : Nat
  size : Nat
  count : Nat
  free : Nat
  inflight : Nat
  filled : Nat
  taken : Nat
  head : Nat
  tail : Nat
  deriving DecidableEq, Repr

/-- One claim (R275, R280). `walk` is the traverse counter with what it records; `walker` the lowest member group and
the address of the `claim` that walks, and `outcome` how its walk ended, until it takes that up. -/
structure Claim where
  state : ClaimState
  status : ClaimStatus
  cause : Nat
  descAddr : Nat
  desc : Option ClaimDesc
  extents : List Extent
  /-- the guest-physical pages that the extents' pages had at the walk, by which a stage-2 shootdown covers them (R281) -/
  gpages : List Nat
  walk : Walked
  walker : Option (Nat × Addr)
  outcome : WalkOut
  reserved : Bool
  flows : Nat
  deferred : Nat
  eaddr : DWord
  buf : Option CBuf
  deriving DecidableEq, Repr

/-- A send-queue binding (R308, R317); `id` tells it from a later one of the same queue. -/
structure Binding where
  id : Nat
  core : Nat
  rq : Nat
  team : Nat
  discards : Nat
  deriving DecidableEq, Repr

/-- A receive queue (R309, R310, R317): messages, credits granted and not arrived, requests waiting, last header. -/
structure RecvQueue where
  msgs : List Message
  granted : Nat
  waiting : List Nat
  last : Option Message
  deriving DecidableEq, Repr

/-- Kinds of access (R232 ACCESS). -/
inductive Access where
  | read | write | fetch | atomic
  deriving DecidableEq, Repr

/-- A side-log entry (R236): one faulting page of one instruction. Lanes carry address and data. -/
structure SideEntry where
  team : Nat
  group : Nat
  addr : Addr
  seq : Nat
  page : Nat
  lanes : List (Nat × Nat × DWord × DWord)
  width : Width
  mscope : MScope
  order : MOrder
  sub : BitVec 6
  reduction : Bool
  /-- the scope of its instruction, which ecause gives (Table 18.1) -/
  scope : TrapScope
  /-- the lanes that have passed a later resume point (R238) -/
  passed : LaneMask
  /-- issued by a handler strand that is still in its handler (R346) -/
  handler : Bool
  ready : Bool
  deriving DecidableEq, Repr

/-- Life of a team (R105, R112, R355). -/
inductive TeamPhase where
  | toPlace | placed | stopping | saved | parked | ended
  deriving DecidableEq, Repr

/-- One team. -/
structure Team where
  id : Nat
  node : Nat
  index : Nat
  tx : Nat
  ty : Nat
  tz : Nat
  cluster : Nat
  rank : Nat
  /-- lead rank of its cluster among the teams of its fan-out (R335) -/
  lead : Nat
  phase : TeamPhase
  core : Nat
  age : Nat
  groups : List Group
  form : Tbl FormVal
  mwin : DWord
  dph : BitVec 5
  scratchBase : Nat
  scratch : Tbl Byte
  obs : Tbl Reservation
  banks : Tbl Bank
  latch0 : Latch
  latch1 : Latch
  bcount : Nat
  /-- a broadcast `mma` that the team has reached: its fields, a member group and its address (R208) -/
  bwait : Option (Common × FmtX × Nat × Addr)
  /-- placed since fan-out: the team has its place in the cluster's stream (R207) -/
  joined : Bool
  claims : Tbl Claim
  bars : Tbl BarObj
  sendq : Tbl Binding
  recvq : Tbl RecvQueue
  sidelog : List SideEntry
  /-- a pre-emption requested and not yet begun (R354) -/
  preempt : Bool
  /-- the node handle an nwait waits for (R339) -/
  nwait : Option Word
  /-- where a parked team stands, and its predicates (R112) -/
  parkedAt : Addr
  parkedPreds : Tbl PredVal
  parkedLoops : List Loop
  deriving DecidableEq, Repr

/-- A parcel in form: a box of teams (R99 to R103). -/
structure Parcel where
  id : Nat
  pc : Addr
  lo : Nat × Nat × Nat
  hi : Nat × Nat × Nat
  form : Tbl FormVal
  preds : Tbl PredVal
  loops : List Loop
  /-- exit masks of the box's teams, by linear team index and group (R113) -/
  exits : List (Nat × List LaneMask)
  flags : BitVec 6
  hold : Hold
  /-- the tract's first issue is still to come, and with it the TARGET check of the node's entry (R29, R99) -/
  entry : Bool
  deriving DecidableEq, Repr

/-- Node states (Table 17.7). -/
inductive NodeState where
  | pending | ready | dispatching | running | committed | ended | cancelled
  deriving DecidableEq, Repr

/-- A node descriptor read (Table 17.3). -/
structure NodeDesc where
  entry : Addr
  handler : Addr
  tx : Nat
  ty : Nat
  tz : Nat
  cx : Nat
  cy : Nat
  regs : Nat
  scratch : Nat
  banks : Nat
  prio : Nat
  comp : Nat
  checked : Bool
  cores : Bool
  bcast : Bool
  sets : List (BitVec 32)
  operands : List (Nat × Nat)
  deriving DecidableEq, Repr

/-- A node entry read (Table 17.2). -/
structure NodeEntry where
  desc : Nat
  param : Nat
  mwin : DWord
  nx : Nat
  ny : Nat
  nz : Nat
  plen : Nat
  preds : List Nat
  deriving DecidableEq, Repr

/-- A cluster of a node that has been placed: lead core of its rectangle (R334); in a `.coresident` node the scratchpad places reserved for its ranks (R332, R180). -/
structure Cluster where
  lead : Nat
  bases : Tbl Nat
  deriving DecidableEq, Repr

/-- State of one DRAM line (R247, R370, R371, R376): version, the key that sealed it, the on-die tag with its dirty
bit, and one poison bit per sector. `pinned` keeps the on-die copy in its way (R245). `single`, `double` and `badMac` are what
is wrong with the stored unit: check fields with one bit or with two bits in error, and a MAC that does not match (R248).
`spent` marks a version that cannot advance (R376). `dram` is what DRAM holds under a dirty copy, kept where the version is
not 0. -/
structure Line where
  version : DWord
  key : Nat
  tag : Option (Nat × Bool)
  poison : BitVec 4
  dram : Option (List Byte)
  pinned : Bool
  single : BitVec 8
  double : BitVec 8
  badMac : Bool
  spent : Bool
  deriving DecidableEq, Repr

/-- A page as it stood when a shadow of it was taken (R360, R362): its bytes, the lines that held them, and the compartment id that a
page of a carve-out carried (R370, R371). -/
structure PageCopy where
  bytes : Tbl Byte
  lines : Tbl Line
  tag : Option Nat
  deriving DecidableEq, Repr

/-- One node of the node table (R330). -/
structure Node where
  id : Nat
  handle : Word
  part : Nat
  world : Nat
  launch : Nat
  graph : Nat
  state : NodeState
  desc : NodeDesc
  ent : NodeEntry
  params : List Byte
  preds : List Word
  prio : Nat
  effPrio : Nat
  readyAt : Nat
  passed : Nat
  device : Bool
  parent : Option Nat
  spilled : Bool
  dispatched : Bool
  /-- its declared operands are being walked (R333) -/
  walking : Bool
  /-- the host has cancelled it; it becomes Cancelled once its work in flight completes -/
  cancelling : Bool
  claims : Tbl Claim
  extents : List Extent
  noExtents : Bool
  /-- it runs in firmware mode (R348): no node of a world does -/
  firmware : Bool
  parcels : List Parcel
  clusters : Tbl Cluster
  cbars : Tbl BarObj
  replays : Nat
  /-- it starts again after a replay of the node or of its launch: its entry is not checked (R29) -/
  replayed : Bool
  escaped : Bool
  noReplay : Bool
  /-- a trap that ends the node, once work in flight completes (R346) -/
  ending : Option (TrapKind × DWord)
  /-- a consumed error (R359) that awaits replay -/
  consumed : Option TrapKind
  /-- the fetch line whose second mismatch was the latest to replay the node (R31) -/
  badLine : Option Addr
  trapKind : Nat
  eaddr : DWord
  /-- node shadows: written bytes by host-physical address, and the pages taken as they stood (R360) -/
  shadow : Tbl Byte
  shadowPages : Tbl PageCopy
  deriving DecidableEq, Repr

/-- A target of a non-replayable launch (R363, Table 18.8). -/
structure Target where
  kind : Nat
  pkg : Nat
  addr : Nat
  len : Nat
  deriving DecidableEq, Repr

/-- One launch (R320, R326, R361 to R367). -/
structure Launch where
  id : Nat
  world : Nat
  part : Nat
  queue : Nat
  tag : Word
  done : Option Nat
  ndev : Nat
  ncommit : Nat
  first : Option (Nat × Nat × DWord)
  refused : Bool
  cancelled : Bool
  poisoned : Bool
  noReplay : Bool
  nonReplayable : Bool
  targets : List Target
  /-- pre-launch copies by page (R362) -/
  shadow : Tbl PageCopy
  replays : Nat
  deriving DecidableEq, Repr

/-- A user-queue control block (Table 17.5). -/
structure UQueue where
  ring : DWord
  ctl : DWord
  ncount : DWord
  taken : DWord
  dropped : DWord
  nodone : DWord
  /-- dwords 6 and 7 as written: the block is refused unless they are zero -/
  resv : DWord × DWord
  /-- count held in the hardware slot while mapped (R328) and when it was mapped -/
  slot : Option (DWord × Nat)
  since : Nat
  /-- unmapped by a function-level reset: notifies are counted in DROPPED (R384) -/
  cut : Bool
  deriving DecidableEq, Repr

/-- A fault record (Table 12.4). -/
structure FaultRec where
  agent : Nat
  core : Nat
  kind : Nat
  access : Nat
  world : Nat
  comp : Nat
  stage : Nat
  level : Nat
  id : BitVec 32
  gpa : Nat
  va : Nat
  deriving DecidableEq, Repr

/-- A fault queue (R232): counters, next record id, outstanding ids with the merge key they answer, records held. -/
structure FaultQueue where
  base : DWord
  head : DWord
  tail : DWord
  ignored : DWord
  nextId : BitVec 32
  outstanding : List (BitVec 32 × Nat)
  held : List (FaultRec × Nat)
  deriving DecidableEq, Repr

/-- Who asked for a walk (R232 AGENT, R235). -/
inductive Requester where
  | strand (team : Nat) (group : Nat) (quads : BitVec 8)
  | parcel (node : Nat) (parcel : Nat)
  | side (seq : Nat)
  | claim (team : Nat) (n : Nat)
  | dispatch (node : Nat) (n : Nat)
  | scheduler (world : Nat) (queue : Nat)
  | completion (launch : Nat)
  | migration
  | faultWriter (world : Nat)
  deriving DecidableEq, Repr

/-- A walk in progress or waiting (R223, R235): the virtual page, the access, and what it waits on. -/
structure Walk where
  id : Nat
  who : Requester
  world : Nat
  comp : Nat
  core : Nat
  va : Nat
  access : Access
  /-- the merge entry it waits on -/
  waitOn : Option Nat
  /-- the compartment that the page must have, where the access is not an agent's without one (R228) -/
  want : Option Nat
  /-- the fault that it met itself: kind of its record, and level of the stage-1 entry that it was reading (R234) -/
  fault : Option (Nat × Nat)
  deriving DecidableEq, Repr

/-- A merge-table entry (R235). -/
structure Merge where
  id : Nat
  die : Nat
  world : Nat
  stage2 : Bool
  page : Nat
  waiters : List Nat
  /-- the record as emitted -/
  record : FaultRec
  deriving DecidableEq, Repr

/-- A cached translation of 64 KiB pages (R230). `denied` marks a page whose record was answered Invalid for a waiter,
so that the waiter raises Protection when it looks again (R234). -/
structure TlbEntry where
  die : Nat
  world : Nat
  vpage : Nat
  ppage : Nat
  gpage : Nat
  attr : Attr
  dirty : Bool
  deriving DecidableEq, Repr

/-- A refused translation handed to one waiter (R234). -/
structure Denied where
  who : Requester
  vpage : Nat
  access : Access
  deriving DecidableEq, Repr

/-- What an access in flight does (R251 to R253). -/
inductive ReqKind where
  | load (signed : Bool)
  | store
  | atom (op : Nat) (f32 : Bool) (uns : Bool) (ret : Bool)
  | red (op : Nat) (f32 : Bool) (uns : Bool)
  deriving DecidableEq, Repr

/-- Where an access performs (Table 13.2, R241, R183): `register` is a world window and `priv` the privileged view (Table 20.1); a
peer is named by its linear team index. -/
inductive Place where
  | home | port | other | host | register | priv | param | scratch | peer (index : Nat)
  deriving DecidableEq, Repr

/-- One lane's access in flight to its point of order, of at most 8 bytes: the halves of a 16-byte access are one each, since only
8 aligned bytes are single-copy atomic (R251). -/
structure Req where
  id : Nat
  team : Nat
  group : Nat
  lane : Nat
  parcel : Option Nat
  node : Nat
  core : Nat
  comp : Nat
  va : Nat
  pa : Nat
  kind : ReqKind
  width : Width
  mscope : MScope
  order : MOrder
  hint : Hint
  home : BitVec 2
  stable : Bool
  /-- served from or written to the node's shadow (R239, R360) -/
  shadow : Bool
  place : Place
  data : DWord
  cmp : DWord
  /-- the register fill that takes the result, and the first word of the lane's value that this access gives -/
  fill : Option Nat
  part : Nat
  instr : Addr
  /-- the number of the execution that it belongs to, and whether it comes from the side log -/
  batch : Nat
  side : Bool
  deriving DecidableEq, Repr

/-- Results of a long-latency producer on their way (R118): per member group the registers and lane values, and the
accesses it still waits for. A value is (group, register, lane, word); for a form register or a send the register field
is the number of the word. -/
structure Fill where
  id : Nat
  team : Nat
  parcel : Option (Nat × Nat)
  /-- a load whose destination is a form register: the instruction holds until it takes the value (R103, R106) -/
  form : Bool
  regs : List (Nat × Nat)
  vals : List (Nat × Nat × Nat × Word)
  waiting : List Nat
  /-- sends that carry the values: group and send (R126) -/
  sends : List (Nat × Nat)
  deriving DecidableEq, Repr

/-- What a matrix-unit operation is (R209). `src` is the team whose reservation an `mma` reads (R207). -/
inductive MatKind where
  | mma (afmt : ElemTy) (mode : MmaMode) (src : Nat) (bres : Nat) (tile : Nat) (bcast : Bool)
  | ald (zero : Bool) (addr : Nat) (pitch : Nat)
  | ast (ty : ElemTy) (sat : Bool) (rnd : Rnd) (addr : Nat) (pitch : Nat) (scale : Nat) (dph : BitVec 5)
  | aget (col : Nat) (count : Nat)
  deriving DecidableEq, Repr

/-- An operation issued to the matrix unit: its member groups with their active lanes, the A fragment and scales read at
issue (R204), and how far it is. The operations of one broadcast share an id (R208). -/
structure MatOp where
  id : Nat
  team : Nat
  groups : List (Nat × LaneMask)
  bank : Nat
  kind : MatKind
  a : Tbl Word
  sa : Tbl Word
  arrive : Option Nat
  latch : Option Nat
  started : Bool
  consumed : Bool
  /-- the scratchpad bytes as read so far (R212): B and its scales, or the rows of `ald` -/
  b : List Byte
  /-- from where `ast` takes its choices of the words that it writes early (R212) -/
  torn : Nat
  res : Option Reservation
  perturb : Option (Nat × Nat × Word)
  fill : Option Nat
  deriving DecidableEq, Repr

/-- A flow in flight (R284, R285). -/
structure Flow where
  id : Nat
  team : Nat
  core : Nat
  claim : Nat
  desc : ClaimDesc
  extents : List Extent
  off : Nat
  len : Nat
  slot : Nat
  cb : Option CBuf
  /-- the address of the claim's descriptor, beside which a multicast has its acknowledgement area (R277) -/
  descAddr : Nat
  /-- the link whose loss ends it Severed (R288, R395) -/
  severed : Option Nat
  /-- member groups that issued it -/
  groups : List Nat
  deriving DecidableEq, Repr

/-- A send in flight (R310): one member's message. -/
inductive SendPhase where
  /-- `filling`: retired, and the words come from a fill -/
  | requested | granted | filling | travelling
  deriving DecidableEq, Repr

structure Send where
  id : Nat
  team : Nat
  group : Nat
  quads : BitVec 8
  queue : Nat
  /-- 0 for a message that W sends, 1 for one that Q sends -/
  ix : Nat
  addr : Addr
  phase : SendPhase
  /-- the cores between which its packet travels: the sender's, and that of the target team (R302) -/
  route : Nat × Nat
  /-- the binding that it goes through, by id -/
  bind : Nat
  dstTeam : Nat
  rq : Nat
  msg : Option Message
  discarded : Bool
  deriving DecidableEq, Repr

/-- An L1 sector (R244): bytes, and the core clock at which it was filled. -/
structure Sector where
  bytes : List Byte
  filled : DWord
  tag : Nat
  deriving DecidableEq, Repr

/-- A fetch line of the instruction cache (R31). `bad` marks one mismatch seen, before the refetch; `node` and `who` name
the fetch that filled it. -/
structure ILine where
  line : BitVec 512
  bad : Bool
  node : Nat
  who : Requester
  deriving DecidableEq, Repr

/-- One core (R8). `carveTag` gives the compartment id of a carve-out page that has been filled (R370). -/
structure Core where
  icache : Tbl ILine
  l1 : Tbl Sector
  matq : List MatOp
  sidelog : List SideEntry
  carve : Tbl Byte
  carveTag : Tbl Nat
  /-- the current strand of each issue slot: team, group, first quads (R82) -/
  greedy : Tbl (Nat × Nat × BitVec 8)
  /-- the parcel that issued last on the form pipe: linear index of its first team, node and parcel (R102) -/
  turn : Option (Nat × Nat × Nat)
  /-- the core sees every store up to this step (R258) -/
  aware : Nat
  deriving DecidableEq, Repr

/-- A node of a channel's counter tree that fails its MAC (R376): its level, 0 for a leaf, its number there, and the lines whose
counters have been written since. -/
structure BadNode where
  channel : Nat
  level : Nat
  index : Nat
  fixed : List Nat
  deriving DecidableEq, Repr

/-- A stable replica of a line's bytes at node start (R246). -/
structure Replica where
  node : Nat
  die : Nat
  line : Nat
  bytes : List Byte
  deriving DecidableEq, Repr

/-- A partition, by the id that its record gives (Table 16.2), with its scheduler's state; `index` is the number of the
record. -/
structure Partition where
  record : DWord
  index : Nat
  nodes : List Node
  launches : List Launch
  gens : Tbl (BitVec 16)
  s2q : FaultQueue
  shfree : Word
  shsize : Word
  /-- the size in force: that of `shsize` when the latest launch was accepted (R348) -/
  shpool : Word
  sdcount : Word
  uccount : Word
  rpcount : Word
  /-- the world whose slice it is, and the clock at which the slice began (R357) -/
  running : Option Nat
  sliceStart : Nat
  deriving DecidableEq, Repr

/-- A world (Table 20.3, Table 20.4, R368 to R378, R384). -/
structure World where
  s1root : DWord
  s2root : DWord
  part : BitVec 4
  running : Bool
  slice : DWord
  waymask : BitVec 24
  sweeping : Option (BitVec 24)
  errring : DWord
  errcount : Nat
  hwbase : DWord
  fq : FaultQueue
  s1shoot : DWord × DWord × DWord
  rstatus : BitVec 2
  flr : Bool
  gates : Tbl GateRec
  /-- measurement registers 3 to 7 of the world, 64 bytes each (R378) -/
  meas : Tbl (List Byte)
  session : Bool
  queues : Tbl UQueue
  msix : Tbl DWord
  deriving DecidableEq, Repr

/-- STATE of a compartment record (Table 19.1). -/
inductive CompState where
  | free | active | revoking | revoked
  deriving DecidableEq, Repr

/-- A compartment record (Table 19.1); `key` is the incarnation of the key in its slot, 0 when erased. -/
structure Compart where
  state : CompState
  lastseq : DWord
  cstatus : BitVec 2
  auth : List Byte
  key : Nat
  deriving DecidableEq, Repr

/-- The command register that a shootdown came from (R231). -/
inductive ShootBy where
  | shoot | s1 (world : Nat)
  deriving DecidableEq, Repr

/-- A shootdown in progress (R231): its range in pages and its command register. -/
structure Shootdown where
  id : Nat
  world : Nat
  stage2 : Bool
  page : Nat
  count : Nat
  by_ : ShootBy
  deriving DecidableEq, Repr

/-- A job of the security engine that waits for flows to drain (R380, R384), or waits its turn (R385). -/
inductive SecJob where
  | revoke (comp : Nat) (seq : DWord) (digest : List Byte)
  | reset (world : Nat)
  /-- a gate that closes once no claim on it is Flowing (R281) -/
  | close (cmd : AuthCmd)
  deriving DecidableEq, Repr

/-- What waits for the security engine, in arrival order (R379, R385): a compartment's creation, an authority command, a
function-level reset of a world. -/
inductive SecReq where
  | create (comp : Nat)
  | auth (cmd : AuthCmd)
  | reset (world : Nat)
  deriving DecidableEq, Repr

/-- On-die storage and DRAM channels that keep a counter of corrected errors (R248, R358). -/
inductive Storage where
  | channel (c : Nat)
  | l2 (slice : Nat)
  | l1 (core : Nat)
  | icache (core : Nat)
  | tlb (die : Nat)
  | registers (core : Nat)
  | buffers (core : Nat)
  | scratchpad (core : Nat)
  | banks (core : Nat)
  | claims (core : Nat)
  | queues (core : Nat)
  | context
  deriving DecidableEq, Repr

/-- Power states (Table 20.6); whether a running package is in P0 or P1 follows from its work. -/
inductive PState where
  | run | s1 | off
  deriving DecidableEq, Repr

/-- A record of LINKLOG or of the Basder error log (R395, R396). -/
structure LogRec where
  seq : Nat
  kind : Nat
  link : Nat
  info : Nat
  deriving DecidableEq, Repr

/-- Answers the package gives to the outside (R326, R377, R396, R397). -/
inductive Output where
  | msix (world : Nat) (vector : Nat)
  | spdm (ep : Endpoint) (code : Nat) (payload : List Byte)
  | errorLog (recs : List LogRec)
  | telemetry (vals : List DWord)
  | config (fn : Nat) (retry : Bool)
  | refusedReq
  /-- the reply of this package to another's multicast flow (R319) -/
  | mcastReply (group : Nat) (ok : Bool)
  /-- a register read from PCIe, and a register access that completes as Unsupported Request (R388) -/
  | register (fn off : Nat) (v : DWord)
  | unsupported (fn off : Nat)
  deriving DecidableEq, Repr

/-- An SPDM exchange with one endpoint (R377): how far the handshake is. -/
inductive SpdmPhase where
  | start | version | capabilities | negotiated | exchanged | session
  deriving DecidableEq, Repr

/-- A multicast group entry (Table 16.6): byte-0 dword and PEERS in force, PEERS as staged, and bytes 8 to 63 as written
(R318). -/
structure Mcast where
  head : DWord
  peers : BitVec 512
  staged : BitVec 512
  resv : BitVec 448
  deriving DecidableEq, Repr

/-- Who issues the instruction that `exec` is given. -/
inductive Issuer where
  | none
  | parcel (node : Nat) (parcel : Nat)
  | strand (team : Nat) (group : Nat) (strand : Nat)
  deriving DecidableEq, Repr

/-- A hardware error, which the silent-error defence meets (R31, R102, R178, R248, R358, R359, R376). -/
inductive Upset where
  /-- a bit of an instruction-cache line, of an L1 sector or of a TLB entry: its parity fails at the next read -/
  | icacheLine (core key : Nat)
  | l1Sector (core sector : Nat)
  | tlbEntry (die world vpage : Nat)
  /-- one bit, or two bits, of check field `field` of a DRAM line; a line whose MAC does not match; a tree node that fails
  its MAC -/
  | lineBit (line field : Nat)
  | lineBits (line field : Nat)
  | lineMac (line : Nat)
  | treeNode (channel level index : Nat)
  /-- two bits of a chunk of an L2 line -/
  | l2Chunk (line chunk : Nat)
  /-- one bit of a storage, corrected; two bits of a word that a node owns -/
  | corrected (st : Storage)
  | owned (node : Nat)
  /-- the two issues of an issuer's next instruction differ -/
  | mismatch (who : Issuer)
  deriving DecidableEq, Repr

/-- One entry of the schedule: an issuer's turn, an event of the table, a cache dropping what it holds (R230, R244, R247:
replacement is timing), a hardware error, a register access from PCIe of any width and place (R388), or the key exchange that
this package makes as requester with the peer behind a Frekuide link, which the peer answers (R377, R397). -/
inductive Turn where
  | issue (who : Issuer)
  | event (i : Instr)
  | dropTlb (die : Nat) (world : Nat) (vpage : Nat)
  | dropL1 (core : Nat) (sector : Nat)
  | evict (line : Nat)
  | upset (u : Upset)
  | hostRead (fn off width : Nat)
  | hostWrite (fn off width : Nat) (v : DWord)
  | peerKeys (link : Nat)
  /-- an operation asked for at the Basder port (R396) -/
  | basder (i : Instr)
  /-- a write or a read of package memory by another package's agent, with its compartment, or by the host (R363) -/
  | outsideWrite (comp : Option Nat) (addr : Nat) (bytes : List Byte)
  | outsideRead (comp : Option Nat) (addr : Nat) (len : Nat)
  /-- a write of host memory by the host -/
  | hostStore (addr : Nat) (bytes : List Byte)
  /-- the next step of the reset sequence (R397) -/
  | resetStep
  deriving DecidableEq, Repr

/-- The whole package. -/
structure State where
  schedule : List Turn
  cur : Issuer
  fresh : Nat
  nextId : Nat
  clock : Nat
  /-- the cycle counters, `%cyc` of each core (R2) -/
  cycs : List DWord
  -- memory of the domain, and host memory the model's agents have written
  mem : Tbl Byte
  lines : Tbl Line
  badNodes : List BadNode
  /-- stores that not every core sees, latest first; by byte the releases in its coherence order; the sc fences; and by team and group
  the scopes of its release fences and the releases whose values it has read (R256 to R262) -/
  late : List Late
  heads : Tbl (List Head)
  fences : List Head
  rels : List (Nat × Nat × MScope)
  reads : List (Nat × Nat × Head)
  hostMem : Tbl (Option Byte)
  replicas : List Replica
  tlb : List TlbEntry
  denied : List Denied
  walks : List Walk
  merges : List Merge
  reqs : List Req
  fills : List Fill
  flows : List Flow
  sends : List Send
  cores : Tbl Core
  teams : List Team
  parts : Tbl Partition
  worlds : Tbl World
  comps : Tbl Compart
  shoots : List Shootdown
  secJobs : List SecJob
  /-- what waits its turn at the security engine (R385) -/
  secQueue : List SecReq
  /-- dwords of multicast entries that the host has written, and that wait for the flows of the claims they revoke: entry,
  dword and value (R281) -/
  mcastJobs : List (Nat × Nat × DWord)
  authResult : DWord
  -- package registers
  pkgid : BitVec 9
  rstage : BitVec 4
  halted : Bool
  pstate : PState
  throttle : BitVec 4
  pwrcap : DWord
  tlimit : Byte
  /-- the die above its critical temperature, for which the package goes to standby (R399) -/
  hotDie : Option Nat
  shoot : DWord × DWord × DWord × DWord
  pgreset : DWord × DWord × DWord
  preemptReg : DWord × DWord
  drmask : Tbl (BitVec 512)
  mcast : Tbl Mcast
  linklog : List LogRec
  linkseq : Nat
  errorlog : List LogRec
  errseq : Nat
  lost : List (Nat × Nat)
  spdm : List (Endpoint × SpdmPhase)
  /-- measurement registers 0 to 2, which the package shares, 64 bytes each (R378) -/
  meas0 : List Byte
  meas1 : List Byte
  meas2 : List Byte
  /-- the model's number of keys made so far, and by key slot, from 1,024 up, the number of the key in it (R369) -/
  keyCount : Nat
  slotKeys : Tbl Nat
  /-- the operator key set at manufacture, in the Basder port's standby store (R386) -/
  operatorKey : List Byte
  /-- counters of corrected errors, and by slice the pin-overflow counters (R248, R358, Table 13.2) -/
  corrected : List (Storage × Nat)
  pinOver : Tbl Nat
  /-- the command mailbox of the privileged view, by offset (Table 20.2) -/
  authBox : Tbl DWord
  outputs : List Output
  deriving DecidableEq, Repr

/-- A measurement register that nothing has extended, and the extension M ← SHAKE256(M ∥ d) (R378). -/
def Meas.zero : List Byte := List.replicate 64 0#8
def extend (m d : List Byte) : List Byte := shake256 (m ++ d)

/-- A world record after reset (Table 20.3, Table 20.4). -/
def World.reset : World :=
  { s1root := 0, s2root := 0, part := 0, running := false, slice := 256, waymask := 0xFFFFFF, sweeping := none,
    errring := 0, errcount := 0, hwbase := 0,
    fq := { base := 0, head := 0, tail := 0, ignored := 0, nextId := 1, outstanding := [], held := [] },
    s1shoot := (0, 0, 0), rstatus := 0, flr := false, gates := [], meas := [], session := false, queues := [],
    msix := [] }

/-- A compartment record after reset (R369, R386). -/
def Compart.reset : Compart := { state := .free, lastseq := 0, cstatus := 0, auth := List.replicate 64 0, key := 0 }

/-- A core after reset (R386). -/
def Core.reset : Core :=
  { icache := [], l1 := [], matq := [], sidelog := [], carve := [], carveTag := [], greedy := [], turn := none, aware := 0 }

/-- A DRAM line after reset (R371, R386). -/
def Line.reset : Line :=
  { version := 0, key := 0, tag := none, poison := 0, dram := none, pinned := false, single := 0, double := 0, badMac := false, spent := false }

/-- Key slots of the links, two directions each, and of the dies' integrity keys (R369, R375): which of the slots from 1,024
up each has is the model's choice (log entry 68). -/
def linkSlots (l : Nat) : List Nat := [1024 + 2 * l, 1025 + 2 * l]
def dieSlot (d : Nat) : Nat := 1120 + d

/-- What a reset makes after `k` keys: the session keys of the fourteen UCIe links, and the integrity keys of the ten dies
(R386, R397). -/
def resetSlots (k : Nat) : Tbl Nat :=
  (List.range 28).map (fun i => (1024 + i, k + 1 + i)) ++ (List.range 10).map (fun d => (dieSlot d, k + 29 + d))

/-- The package right after the reset sequence (R386, R389, R390, R397). The spec gives `%cyc` no reset value (R2, log
entry 3). -/
def State.reset : State :=
  { schedule := [], cur := .none, fresh := 0, nextId := 0, clock := 0,
    cycs := List.replicate Config.cores 0,
    mem := [], lines := [], badNodes := [], late := [], heads := [], fences := [], rels := [], reads := [], hostMem := [], replicas := [], tlb := [], denied := [], walks := [], merges := [],
    reqs := [], fills := [], flows := [], sends := [], cores := [], teams := [], parts := [], worlds := [],
    comps := [], shoots := [], secJobs := [], secQueue := [], mcastJobs := [], authResult := 0,
    pkgid := 0, rstage := 7, halted := false, pstate := .run, throttle := 0, pwrcap := 15000, tlimit := 100,
    hotDie := none, shoot := (0, 0, 0, 0), pgreset := (0, 0, 0), preemptReg := (0, 0), drmask := [],
    mcast := [], linklog := [], linkseq := 0, errorlog := [], errseq := 0, lost := [], spdm := [],
    meas0 := extend Meas.zero Config.firmwareDigest, meas1 := Meas.zero, meas2 := Meas.zero, keyCount := 38, slotKeys := resetSlots 0,
    operatorKey := Config.operatorKey,
    corrected := [], pinOver := [], authBox := [], outputs := [] }

end Sys2Proof.Machine
end

