-- ==== Sys2Proof/Machine/Table.lean ====
section
/-! DEFINITION. Sparse tables `Tbl α`: strictly rising keys. A table with a default value lists no entry equal to
the default, so that equal contents are equal data. -/

namespace Sys2Proof.Tbl

variable {α : Type}

/-- The entry at key `k`, if listed. -/
def find? : Tbl α → Nat → Option α
  | [], _ => none
  | (j, v) :: t, k => if k = j then some v else find? t k

/-- Lists `v` at key `k`, in key order. -/
def put : Tbl α → Nat → α → Tbl α
  | [], k, v => [(k, v)]
  | (j, w) :: t, k, v =>
    if k < j then (k, v) :: (j, w) :: t else if k = j then (k, v) :: t else (j, w) :: put t k v

/-- Removes the entry at key `k`. -/
def del (t : Tbl α) (k : Nat) : Tbl α := t.filter (fun e => decide (e.1 ≠ k))

/-- The value at `k` of a table whose unlisted entries are `d`. -/
def get (d : α) (t : Tbl α) (k : Nat) : α := (find? t k).getD d

/-- Writes `v` at `k`, keeping no entry equal to `d`. -/
def set [DecidableEq α] (d : α) (t : Tbl α) (k : Nat) (v : α) : Tbl α :=
  if v = d then del t k else put t k v

/-- Changes the listed entry at `k`, if there is one. -/
def modify (t : Tbl α) (k : Nat) (f : α → α) : Tbl α :=
  match find? t k with
  | none => t
  | some v => put t k (f v)

/-- Keys strictly rise. -/
def sorted : Tbl α → Bool
  | [] => true
  | [_] => true
  | (i, _) :: (j, w) :: t => decide (i < j) && sorted ((j, w) :: t)

/-- The canonical form of a table with default `d`: keys strictly rise and no entry equals `d`. -/
def wf [DecidableEq α] (d : α) (t : Tbl α) : Bool :=
  sorted t && t.all (fun e => decide (e.2 ≠ d))

/-- The table with value `f i` at each key below `n`, for the default `d`. -/
def ofFn [DecidableEq α] (d : α) (n : Nat) (f : Nat → α) : Tbl α :=
  (List.range n).filterMap (fun i => if f i = d then none else some (i, f i))

/-- The keys in the range [lo, hi) removed. -/
def delRange (t : Tbl α) (lo hi : Nat) : Tbl α := t.filter (fun e => decide (e.1 < lo) || decide (hi ≤ e.1))

/-- The entries whose keys lie in [lo, hi). -/
def slice (t : Tbl α) (lo hi : Nat) : Tbl α := t.filter (fun e => decide (lo ≤ e.1) && decide (e.1 < hi))

end Sys2Proof.Tbl
end

