-- ==== Sys2Proof/Machine/Ops.lean ====
section
/-! DEFINITION. Named operations over lanes, groups, teams and nodes: lane masks, instruction addresses, strands,
divergence records, loops (spec/05_issue.md), and the accessors every family uses. -/

namespace Sys2Proof.Machine

open Sys2Proof

/-! ### Lane masks and addresses -/

/-- The lane numbers of a group. -/
def laneList : List Nat := List.range 32

/-- The lanes of a mask, lowest first. -/
def lanesOf (m : LaneMask) : List Nat := laneList.filter (fun l => m.getLsbD l)

/-- The lowest-numbered lane of a mask. -/
def lowestLane (m : LaneMask) : Option Nat := laneList.find? (fun l => m.getLsbD l)

/-- The mask of the lanes that meet `p`. -/
def maskOf (p : Nat → Bool) : LaneMask :=
  laneList.foldl (fun m l => if p l then m ||| (1#32 <<< l) else m) 0#32

/-- The lanes of a set of quads (R72). -/
def quadLanes (q : BitVec 8) : LaneMask := maskOf (fun l => q.getLsbD (l / 4))

/-- The quads that hold a lane of the mask. -/
def quadsOf (m : LaneMask) : BitVec 8 :=
  (List.range 8).foldl (fun q i => if (m >>> (4 * i)) &&& 0xF#32 = 0#32 then q else q ||| (1#8 <<< i)) 0#8

/-- A virtual address: bits [63:57] ignored (R27, R250). -/
def va57 (a : Addr) : Addr := a &&& 0x01FF_FFFF_FFFF_FFFF#64

/-- Slot of an instruction address (R27). -/
def slotOf (a : Addr) : Nat := (a &&& 0x3F#64).toNat

/-- Line of an instruction address. -/
def lineOf (a : Addr) : Addr := va57 a &&& ~~~0x3F#64

/-- The next instruction in sequence (R27). -/
def nextAddr (a : Addr) : Addr :=
  if slotOf a < 4 then va57 (a + 1) else va57 (lineOf a + 64)

/-- The address of a format C target: `disp` lines from the instruction's line, at `slot` (R44). -/
def targetAddr (a : Addr) (disp : Addr) (slot : Nat) : Addr := va57 (lineOf a + disp * 64) ||| BitVec.ofNat 64 slot

/-- Instruction slots from `a` up to `b` (R91). -/
def slotsBetween (a b : Addr) : Nat :=
  (lineOf b - lineOf a).toNat / 64 * 5 + slotOf b - slotOf a

/-- `a` lies in the body [lo, hi). -/
def inBody (lo hi a : Addr) : Bool := decide (lo.toNat ≤ a.toNat) && decide (a.toNat < hi.toNat)

/-! ### Trap codes -/

/-- Code of a trap kind (Table 18.2). -/
def TrapKind.code : TrapKind → Nat
  | .illegalOp => 1 | .illegalOperand => 2 | .illegalScope => 3 | .illegalTarget => 4 | .illegalLine => 5
  | .regIndex => 6 | .emptyRead => 7 | .scopeMismatch => 8 | .formWrite => 9 | .misaligned => 10
  | .protection => 11 | .stableWrite => 12 | .routeFault => 13 | .claimRevoked => 14 | .claimFaulted => 15
  | .keyRevoked => 16 | .loopOverflow => 17 | .queueUnbound => 18 | .userTrap => 19 | .breakpoint => 20
  | .silentData => 21 | .uncorrectable => 22

/-- SCOPE code of ecause (Table 18.1), narrowest first. -/
def TrapScope.code : TrapScope → Nat
  | .lane => 0 | .group => 1 | .set => 2 | .team => 3

/-- The scope of an instruction as ecause gives it. -/
def trapScopeOf : Scope → TrapScope
  | .lane => .lane | .group => .group | .set _ => .set | .team => .team

/-! ### Lists by position and by identity -/

/-- Element `n` of a list changed by `f`. -/
def modNth {α : Type} (f : α → α) : Nat → List α → List α
  | _, [] => []
  | 0, x :: t => f x :: t
  | n + 1, x :: t => x :: modNth f n t

/-- The pairs of position and element. -/
def indexed {α : Type} (l : List α) : List (Nat × α) := (List.range l.length).zip l

/-! ### State accessors -/

def State.team? (s : State) (t : Nat) : Option Team := s.teams.find? (fun x => decide (x.id = t))

def State.modTeam (s : State) (t : Nat) (f : Team → Team) : State :=
  { s with teams := s.teams.map (fun x => if x.id = t then f x else x) }

def Team.group? (t : Team) (g : Nat) : Option Group := t.groups[g]?

def Team.modGroup (t : Team) (g : Nat) (f : Group → Group) : Team := { t with groups := modNth f g t.groups }

def State.modGroup (s : State) (t g : Nat) (f : Group → Group) : State := s.modTeam t (fun x => x.modGroup g f)

/-- The partition's record in State; a partition that nothing has touched is as after reset. -/
def Partition.reset : Partition :=
  { record := 0, index := 0, nodes := [], launches := [], gens := [],
    s2q := { base := 0, head := 0, tail := 0, ignored := 0, nextId := 1, outstanding := [], held := [] },
    shfree := BitVec.ofNat 32 Config.shadowPages, shsize := BitVec.ofNat 32 Config.shadowPages,
    shpool := BitVec.ofNat 32 Config.shadowPages,
    sdcount := 0, uccount := 0, rpcount := 0, running := none, sliceStart := 0 }

def State.part (s : State) (p : Nat) : Partition := Tbl.get Partition.reset s.parts p
def State.modPart (s : State) (p : Nat) (f : Partition → Partition) : State :=
  { s with parts := Tbl.set Partition.reset s.parts p (f (s.part p)) }

def State.world (s : State) (w : Nat) : World := Tbl.get World.reset s.worlds w
def State.modWorld (s : State) (w : Nat) (f : World → World) : State :=
  { s with worlds := Tbl.set World.reset s.worlds w (f (s.world w)) }

/-- The cycle counter of a core (R2). -/
def State.cyc (s : State) (c : Nat) : DWord := s.cycs.getD c 0#64

def State.core (s : State) (c : Nat) : Core := Tbl.get Core.reset s.cores c
def State.modCore (s : State) (c : Nat) (f : Core → Core) : State :=
  { s with cores := Tbl.set Core.reset s.cores c (f (s.core c)) }

def State.comp (s : State) (c : Nat) : Compart := Tbl.get Compart.reset s.comps c
def State.modComp (s : State) (c : Nat) (f : Compart → Compart) : State :=
  { s with comps := Tbl.set Compart.reset s.comps c (f (s.comp c)) }

/-- Every node of the package. -/
def State.nodes (s : State) : List Node := s.parts.flatMap (fun p => p.2.nodes)

def State.node? (s : State) (n : Nat) : Option Node := s.nodes.find? (fun x => decide (x.id = n))

def State.modNode (s : State) (n : Nat) (f : Node → Node) : State :=
  { s with parts := s.parts.map (fun p =>
      (p.1, { p.2 with nodes := p.2.nodes.map (fun x => if x.id = n then f x else x) })) }

def State.launches (s : State) : List Launch := s.parts.flatMap (fun p => p.2.launches)

def State.launch? (s : State) (l : Nat) : Option Launch := s.launches.find? (fun x => decide (x.id = l))

def State.modLaunch (s : State) (l : Nat) (f : Launch → Launch) : State :=
  { s with parts := s.parts.map (fun p =>
      (p.1, { p.2 with launches := p.2.launches.map (fun x => if x.id = l then f x else x) })) }

def State.nodesOfLaunch (s : State) (l : Nat) : List Node := s.nodes.filter (fun n => decide (n.launch = l))

/-- The row of Table 18.7 that applies to a node with a consumed error: 1 node replay, 2 launch replay, 3 the node ends,
4 the launch is uncontained. -/
def State.replayRow (s : State) (n : Node) : Nat :=
  match s.launch? n.launch with
  | none => 3
  | some l =>
    if n.escaped = false ∧ n.noReplay = false ∧ l.noReplay = false ∧ n.replays < 3 then 1
    else if n.escaped = true ∧ l.nonReplayable = false ∧ l.replays < 2 then 2
    else if n.escaped = false ∧ 3 ≤ n.replays then 3
    else 4

/-- A launch replay is due in the launch of a node. -/
def State.launchDue (s : State) (launch : Nat) : Bool :=
  (s.nodesOfLaunch launch).any (fun m => m.consumed.isSome && decide (s.replayRow m = 2))

/-- The node stops: it has consumed an error, or another node of its launch has for which the launch starts over (R365, R366). -/
def State.stopsNode (s : State) (n : Node) : Bool := n.consumed.isSome || s.launchDue n.launch

/-- Records a target: the launch becomes non-replayable (R363). -/
def State.noteTarget (s : State) (launch kind pkg va len : Nat) : State :=
  s.modLaunch launch (fun l =>
    { l with nonReplayable := true, targets := l.targets ++ [{ kind := kind, pkg := pkg, addr := va, len := len }] })

/-- Where the shadows of a place are kept, by address: host-physical memory, or above it a carve-out (R360, R362). -/
def shadowAddr (place : Place) (pa : Nat) : Nat := if place = .port then 2 ^ 56 + pa else pa

/-- Keys of the pages of a launch's shadow set. -/
def pageKey (place : Place) (pa : Nat) : Nat := shadowAddr place pa / 65536

/-- A read by an agent outside a launch of a page in its shadow set (R363). `own` is the reader's launch. -/
def State.noteRead (s : State) (own : Option Nat) (place : Place) (pa va len : Nat) : State :=
  (s.launches.filter (fun l => decide (some l.id ≠ own) && (Tbl.find? l.shadow (pageKey place pa)).isSome)).foldl
    (fun st l => st.noteTarget l.id 3 0 va len) s

/-- The node that runs a team. -/
def State.nodeOf (s : State) (t : Team) : Option Node := s.node? t.node

/-- Teams of a node. -/
def State.teamsOf (s : State) (n : Nat) : List Team := s.teams.filter (fun t => decide (t.node = n))

/-- A fresh identity. -/
def State.freshId (s : State) : Nat × State := (s.nextId, { s with nextId := s.nextId + 1 })

def Node.parcel? (n : Node) (p : Nat) : Option Parcel := n.parcels.find? (fun x => decide (x.id = p))

def Node.modParcel (n : Node) (p : Nat) (f : Parcel → Parcel) : Node :=
  { n with parcels := n.parcels.map (fun x => if x.id = p then f x else x) }

/-- The lead core of a node: the first core of its first cluster (R99). -/
def Node.leadCore (n : Node) : Nat :=
  match Tbl.find? n.clusters 0 with
  | some c => c.lead
  | none => 0

/-- Two teams stand in one cluster: the same cluster, placed by one fan-out, which its lead rank tells (R335). -/
def Team.clusterMate (t u : Team) : Bool :=
  decide (u.node = t.node) && decide (u.cluster = t.cluster) && decide (u.lead = t.lead)

/-! ### Partition geometry (R304, R7, R6) -/

/-- Field [lo+n-1:lo] of a dword, as a number. -/
def dfield (v : DWord) (lo n : Nat) : Nat := v.toNat / 2 ^ lo % 2 ^ n

def Partition.inUse (p : Partition) : Bool := decide (p.record ≠ 0#64)
def Partition.px (p : Partition) : Nat := dfield p.record 0 4
def Partition.py (p : Partition) : Nat := dfield p.record 4 4
def Partition.width (p : Partition) : Nat := dfield p.record 8 4 + 1
def Partition.height (p : Partition) : Nat := dfield p.record 12 4 + 1
def Partition.carve (p : Partition) : Nat := dfield p.record 48 4
def Partition.spill (p : Partition) : Nat := dfield p.record 52 8
def Partition.peersIx (p : Partition) : Nat := dfield p.record 16 16
def Partition.mcastQuota (p : Partition) : Nat := 16 * dfield p.record 32 8

/-- Plat p = 2·die + half at (PX, PY) (R7). -/
def platX (p : Nat) : Nat := p / 2 % 4 * 2 + p % 2
def platY (p : Nat) : Nat := p / 8

def Partition.hasPlat (p : Partition) (pl : Nat) : Bool :=
  p.inUse && decide (p.px ≤ platX pl) && decide (platX pl < p.px + p.width) &&
  decide (p.py ≤ platY pl) && decide (platY pl < p.py + p.height)

def Partition.plats (p : Partition) : List Nat := (List.range 16).filter p.hasPlat

/-- Die and plat of a core (R6, R7). -/
def dieOfCore (c : Nat) : Nat := c / 30
def platOfCore (c : Nat) : Nat := 2 * (c / 30) + c % 6 / 3

def Partition.hasCore (p : Partition) (c : Nat) : Bool := p.hasPlat (platOfCore c)

/-- The compute die that an agent outside the cores uses: that of the partition's lowest plat (R235). -/
def Partition.agentDie (p : Partition) : Nat := p.plats.headD 0 / 2

/-- The partition a world belongs to (Table 20.3). -/
def World.partId (w : World) : Nat := w.part.toNat

def State.partOfWorld (s : State) (w : Nat) : Partition := s.part (s.world w).partId

/-- The die whose merge table and TLB a requester uses; core 0xFF is an agent outside the cores. -/
def State.dieFor (s : State) (core world : Nat) : Nat :=
  if core = 0xFF then (s.partOfWorld world).agentDie else dieOfCore core

/-- The partition that owns a plat, by id. -/
def State.platOwner (s : State) (pl : Nat) : Option Nat :=
  (List.find? (fun (e : Nat × Partition) => e.2.hasPlat pl) s.parts).map (fun e => e.1)

/-! ### UCIe links (R5, Table 20.7) -/

/-- The links that a packet crosses in die row `y`, from die column `x` to column `z` (R300). -/
def columnLinks (y x z : Nat) : List Nat :=
  (List.range 3).filterMap (fun c => if min x z ≤ c ∧ c < max x z then some (3 * y + c) else none)

/-- The UCIe links on the way from one compute die to another: die columns first, then die rows (R300). -/
def dieLinks (a b : Nat) : List Nat :=
  columnLinks (a / 4) (a % 4) (b % 4) ++ (if a / 4 = b / 4 then [] else [6 + b % 4])

/-- The compute die beside an I/O die in a die row, and the link that joins them: ID0 lies at the west end and ID1 at the east
end (R5). -/
def ioDie (id1 : Bool) (y : Nat) : Nat := 4 * y + (if id1 then 3 else 0)
def ioLink (id1 : Bool) (y : Nat) : Nat := 10 + y + (if id1 then 2 else 0)

/-- The UCIe links on the way between a compute die and an I/O die, in the compute die's row. -/
def ioLinks (a : Nat) (id1 : Bool) : List Nat := dieLinks a (ioDie id1 (a / 4)) ++ [ioLink id1 (a / 4)]

/-- One more corrected error of a storage (R248, R358). -/
def State.countError (s : State) (st : Storage) : State :=
  { s with corrected := if s.corrected.any (fun e => decide (e.1 = st)) then
      s.corrected.map (fun e => if e.1 = st then (e.1, e.2 + 1) else e) else s.corrected ++ [(st, 1)] }

/-- The count of corrected errors of a storage. -/
def State.errorCount (s : State) (st : Storage) : Nat :=
  match s.corrected.find? (fun e => decide (e.1 = st)) with
  | some e => e.2
  | none => 0

/-! ### Strands, records and loops of a group -/

def Group.liveOf (g : Group) (st : Strand) : LaneMask := quadLanes st.quads &&& ~~~g.exited

/-- Lanes parked at a join target (R74). -/
def Group.parkedLanes (g : Group) : LaneMask := g.divs.foldl (fun m d => m ||| d.parked) 0#32

/-- Lanes that wait at the end of a loop body (R75). -/
def Group.waitingLanes (g : Group) : LaneMask := g.loops.foldl (fun m l => m ||| l.waiting) 0#32

/-- Lanes of the handler strand that take no part in the handler (R343). -/
def Group.outsideLanes (g : Group) : LaneMask :=
  match g.trap with
  | none => 0#32
  | some t => t.outside

/-- The lanes of a strand that can issue (R73). -/
def Group.runnable (g : Group) (st : Strand) : LaneMask :=
  g.liveOf st &&& ~~~g.parkedLanes &&& ~~~g.waitingLanes &&& ~~~g.outsideLanes

def Group.pcOf (g : Group) (l : Nat) : Addr := Tbl.get 0#64 g.pc l

def Group.setPcs (g : Group) (m : LaneMask) (a : Addr) : Group :=
  { g with pc := (lanesOf m).foldl (fun t l => Tbl.set 0#64 t l a) g.pc }

/-- The lower of two addresses. -/
def minAddr (a : Option Addr) (b : Addr) : Option Addr :=
  match a with
  | none => some b
  | some x => if b.toNat < x.toNat then some b else some x

/-- The lowest lane address among the lanes of a mask. -/
def Group.lowestAddr (g : Group) (m : LaneMask) : Option Addr :=
  (lanesOf m).foldl (fun a l => minAddr a (g.pcOf l)) none

/-- The instruction a strand issues next (R73); none when it is parked, waits or is stopped. -/
def Group.strandAddr (g : Group) (st : Strand) : Option Addr :=
  if st.stopped then none else g.lowestAddr (g.runnable st)

/-- The lanes of a strand that stand at `a` and can issue. -/
def Group.lanesAt (g : Group) (st : Strand) (a : Addr) : LaneMask :=
  let r := g.runnable st
  maskOf (fun l => r.getLsbD l && decide (g.pcOf l = a))

/-- Strands that count as members: not stopped, with a lane that has not exited (R76, R343). -/
def Group.counted (g : Group) : List Strand :=
  g.strands.filter (fun st => !st.stopped && decide (g.liveOf st ≠ 0#32))

def Group.ended (g : Group) : Bool := decide (g.exited = 0xFFFF_FFFF#32)

def Strand.fresh (q : BitVec 8) : Strand :=
  { quads := q, arrived := none, ascope := .lane, hold := .none, stopped := false, held := none, aged := false, wait := 0 }

def Group.isEmpty (g : Group) (r : Nat) : Bool := g.empty.contains r

/-- The strand has an instruction to issue and waits at none (R82): the registers that it waited for are full. -/
def Group.readyStrand (g : Group) (st : Strand) : Bool :=
  (g.strandAddr st).isSome && decide (st.arrived = none) && (match st.hold with
    | .none => true
    | .regs rs => rs.all (fun r => !g.isEmpty r)
    | _ => false)

/-- The lowest quad of a set of quads, as a one-bit mask. -/
def firstQuad (q : BitVec 8) : Nat := (q &&& -q).toNat

/-- Fuses into one strand the strands whose quads lie in `q`, leaving the others (R75). Strands stay in the order of
their first quad. -/
def Group.fuseQuads (g : Group) (q : BitVec 8) : Group :=
  let inside := g.strands.filter (fun st => !st.stopped && decide (st.quads &&& q ≠ 0#8))
  let outside := g.strands.filter (fun st => st.stopped || decide (st.quads &&& q = 0#8))
  match inside with
  | [] => g
  | _ =>
    let u := inside.foldl (fun m st => m ||| st.quads) 0#8
    { g with strands :=
        (outside.filter (fun st => decide ((st.quads &&& -st.quads).toNat < (u &&& -u).toNat))) ++ [Strand.fresh u] ++
        (outside.filter (fun st => !decide ((st.quads &&& -st.quads).toNat < (u &&& -u).toNat))) }

/-- Fuses every strand that is not stopped. -/
def Group.fuseAll (g : Group) : Group := g.fuseQuads 0xFF#8

/-- Pops every divergence record (R75). -/
def Group.popDivs (g : Group) : Group := { g with divs := [] }

/-- The record of a lane (R75, R90): the innermost one that split it, else the innermost one whose strands hold its quad. -/
def Group.recordOf (g : Group) (l : Nat) : Option DivRec :=
  match g.divs.find? (fun d => d.lanes.getLsbD l) with
  | some d => some d
  | none => g.divs.find? (fun d => d.quads.getLsbD (l / 4))

/-- Parks one lane that has reached a join target (R75): that of the innermost record that split it, or of a record further in
whose strands hold its quad. -/
def parkLane (pc : Addr) (l : Nat) : List DivRec → List DivRec
  | [] => []
  | d :: t =>
    if d.quads.getLsbD (l / 4) && decide (d.join = pc) then { d with parked := d.parked ||| (1#32 <<< l) } :: t
    else if d.lanes.getLsbD l then d :: t
    else d :: parkLane pc l t

/-- Parks the lanes of `m` that have reached a join target. -/
def Group.park (g : Group) (m : LaneMask) : Group :=
  { g with divs := (lanesOf m).foldl (fun ds l => parkLane (g.pcOf l) l ds) g.divs }

/-- The innermost record whose strands are all parked (R75): each lane that it split has exited or is parked at its join target,
and so is each other lane of its strands, or it waits at a record further out or at the end of a loop body. -/
def Group.completeIn (g : Group) : List DivRec → Option DivRec
  | [] => none
  | d :: t =>
    let outer := t.foldl (fun m r => m ||| r.parked) g.waitingLanes
    let away := quadLanes d.quads &&& ~~~d.lanes &&& ~~~g.outsideLanes &&& ~~~outer
    if (d.lanes ||| away) &&& ~~~g.exited &&& ~~~d.parked = 0#32 then some d else g.completeIn t

def Group.completeDiv (g : Group) : Option DivRec := g.completeIn g.divs

/-- Ends the pass of the innermost loop when no lane is left inside its body (R91, R75). The loops are kept as they stood before
the counter was stepped. -/
def Group.loopPass (g : Group) : Option Group :=
  match g.loops with
  | [] => none
  | lp :: rest =>
    let live := ~~~g.exited &&& ~~~g.parkedLanes &&& ~~~lp.waiting &&& ~~~g.outsideLanes
    let inside := (lanesOf live).any (fun l => inBody lp.top lp.fin (g.pcOf l) && !(g.strands.any (fun st =>
      st.stopped && st.quads.getLsbD (l / 4))))
    if lp.waiting = 0#32 ∨ inside = true then none
    else
      let g1 : Group := { (g.popDivs).fuseAll with passEnd := match g.passEnd with
        | some e => some (e.1 ||| lp.waiting, e.2)
        | none => some (lp.waiting, g.loops) }
      let count := lp.count - 1
      if count = 0 then
        match rest with
        | [] => some { g1 with loops := [] }
        | o :: r =>
          some { g1 with loops :=
            (if o.fin = lp.fin then { o with waiting := o.waiting ||| lp.waiting } else o) :: r }
      else some ({ g1 with loops := { lp with count := count, waiting := 0#32 } :: rest }.setPcs lp.waiting lp.top)

/-- Removes strands none of whose lanes is left. -/
def Group.dropEmpty (g : Group) : Group :=
  { g with strands := g.strands.filter (fun st => decide (g.liveOf st ≠ 0#32)) }

/-- After lanes have moved or exited: parks, completes records and ends loop passes until nothing changes. Each round
pops a record, ends a pass or stops, so 16 rounds suffice for 8 records and 3 loops. -/
def Group.settleN : Nat → LaneMask → Group → Group
  | 0, _, g => g
  | n + 1, m, g =>
    let g := g.park (m &&& ~~~g.exited &&& ~~~g.parkedLanes &&& ~~~g.waitingLanes &&& ~~~g.outsideLanes)
    match g.completeDiv with
    | some d =>
      settleN n (m ||| d.parked)
        ({ g with divs := g.divs.erase d }.fuseQuads d.quads)
    | none =>
      match g.loopPass with
      | some g' => settleN n m g'
      | none => g

def Group.settle (g : Group) (moved : LaneMask) : Group := (Group.settleN 16 moved g.dropEmpty)

/-- Lanes of `m`, which stand at `a`, reach `n` without a transfer; at the end of the innermost body they wait there
(R91). -/
def Group.land (g : Group) (m : LaneMask) (a n : Addr) : Group :=
  let g1 := g.setPcs m n
  let g2 := match g1.loops with
    | [] => g1
    | lp :: r =>
      if lp.fin = n ∧ inBody lp.top lp.fin a = true then
        { g1 with loops := { lp with waiting := lp.waiting ||| m } :: r }
      else g1
  g2.settle m

/-- Lanes of `m`, which stand at `a`, go on in sequence. -/
def Group.advance (g : Group) (m : LaneMask) (a : Addr) : Group := g.land m a (nextAddr a)

/-- Active loops after a transfer to `a`: a loop whose body does not hold `a` ends with every loop nested in it (R91).
The list has the innermost loop first. -/
def loopsAfter (a : Addr) : List Loop → List Loop
  | [] => []
  | lp :: r =>
    let r' := loopsAfter a r
    if r'.length = r.length ∧ inBody lp.top lp.fin a = true then lp :: r' else r'

/-- Transfers of control: each lane of the list goes to its address. -/
def Group.transfer (g : Group) (ts : List (Nat × Addr)) : Group :=
  let g1 := { g with pc := ts.foldl (fun (p : Tbl Addr) (e : Nat × Addr) => Tbl.set 0#64 p e.1 e.2) g.pc }
  { g1 with loops := ts.foldl (fun (ls : List Loop) (e : Nat × Addr) => loopsAfter e.2 ls) g1.loops }

/-! ### Resume points (R122 to R124) -/

/-- A record entry as the lanes that have not passed a later resume point keep it. -/
def RecEntry.passed (m : LaneMask) (e : RecEntry) : Option RecEntry :=
  if e.lanes &&& ~~~m = 0#32 then none else some { e with lanes := e.lanes &&& ~~~m }

/-- A lane holds the resume point `a`. -/
def holdsPoint (resume : Tbl Addr) (a : Addr) : Bool := laneList.any (fun l => Tbl.find? resume l == some a)

/-- A pass that has ended is behind the lanes of `m`, once one of them that ended it issues or passes a resume point. -/
def Group.leaveEnd (g : Group) (m : LaneMask) : Group :=
  { g with passEnd := g.passEnd.filter (fun e => decide (e.1 &&& m = 0#32)) }

/-- The loops that a restart finds: as before the end of a pass that runs again (R122). -/
def Group.keptLoops (g : Group) : List Loop :=
  match g.passEnd with
  | some e => e.2
  | none => g.loops

/-- The lanes of `m` pass the resume point `a`: it is each one's own, the strands and the record stack are kept with it, and
what R119, R124 and R291 keep of these lanes since their last point is dropped. -/
def Group.passResume (g : Group) (m : LaneMask) (a : Addr) : Group :=
  if m = 0#32 then g
  else
    let resume := (lanesOf m).foldl (fun t l => Tbl.put t l a) g.resume
    { g.leaveEnd m with
      resume := resume
      kept := { addr := a, strands := g.strands.map (fun st => st.quads), divs := g.divs } ::
        g.kept.filter (fun k => decide (k.addr ≠ a) && holdsPoint resume k.addr)
      returned := g.returned &&& ~~~m
      log := g.log.filterMap (RecEntry.passed m)
      replay := g.replay.filterMap (RecEntry.passed m)
      consumed := g.consumed.filterMap (fun e =>
        if e.1 &&& ~~~m = 0#32 then none else some (e.1 &&& ~~~m, e.2))
      placement :=
        if (lanesOf (~~~g.exited)).all (fun l => (Tbl.find? resume l).isSome) then none else g.placement }

/-- Notes an instruction of R124 or R291 that was performed. -/
def Group.note (g : Group) (e : RecEntry) : Group := { g with log := g.log ++ [e] }

/-- The instructions that R291 records, apart from those of R124. -/
def RecKind.slotted : RecKind → Bool
  | .cbtake | .cbgive => true
  | _ => false

/-- The record entry that a re-executed instruction matches: the first one left of its record for the lanes `m`, if it has
the same address, kind and object (R124, R291). -/
def Group.matching (g : Group) (m : LaneMask) (a : Addr) (k : RecKind) (obj : Nat) : Option RecEntry :=
  match g.replay.find? (fun e => decide (e.lanes &&& m ≠ 0#32) && (e.kind.slotted == k.slotted)) with
  | none => none
  | some e => if e.addr = a ∧ e.kind = k ∧ e.obj = obj then some e else none

/-- The entry `y` is used up for the lanes of `m` whose first entry of its record it is (R124, R291): an equal one further on is
that of a later execution. -/
def useEntry (y : RecEntry) : LaneMask → List RecEntry → List RecEntry
  | _, [] => []
  | m, x :: t =>
    if (x.kind.slotted == y.kind.slotted) = true ∧ x.lanes &&& m ≠ 0#32 then
      (if x = y then (RecEntry.passed m x).toList else [x]) ++ useEntry y (m &&& ~~~x.lanes) t
    else x :: useEntry y m t

/-- The record after an instruction of kind `k` for the lanes `m`: a match uses its entry up, anything else clears the
record that the kind belongs to. -/
def Group.useRecord (g : Group) (m : LaneMask) (k : RecKind) (e : Option RecEntry) : Group :=
  { g with replay := match e with
      | some y => useEntry y m g.replay
      | none => g.replay.filterMap (fun x => if x.kind.slotted == k.slotted then RecEntry.passed m x else some x) }

/-! ### Receive queues and sends that have not retired (R309, R310) -/

def RecvQueue.empty : RecvQueue := { msgs := [], granted := 0, waiting := [], last := none }

def Team.recv (t : Team) (q : Nat) : RecvQueue := Tbl.get RecvQueue.empty t.recvq q

def Team.setRecv (t : Team) (q : Nat) (r : RecvQueue) : Team := { t with recvq := Tbl.set RecvQueue.empty t.recvq q r }

/-- A send that is dropped before it retires returns its grant or leaves the queue's requests (R310). -/
def State.dropSend (s : State) (x : Send) : State :=
  let s1 : State := { s with sends := s.sends.filter (fun y => decide (y.id ≠ x.id)) }
  s1.modTeam x.dstTeam (fun t =>
    let r := t.recv x.rq
    t.setRecv x.rq { r with
      waiting := r.waiting.filter (fun i => decide (i ≠ x.id))
      granted := if x.phase = .granted ∧ x.discarded = false then r.granted - 1 else r.granted })

/-- The sends that `p` gives and that have not retired are dropped. -/
def State.dropSends (s : State) (p : Send → Bool) : State :=
  (s.sends.filter (fun x => p x && (decide (x.phase = .requested) || decide (x.phase = .granted)))).foldl State.dropSend s

/-! ### Registers of a group -/

def Group.reg (g : Group) (r l : Nat) : Word := Tbl.get 0#32 g.regs (32 * r + l)

def Group.setReg (g : Group) (r l : Nat) (w : Word) : Group := { g with regs := Tbl.set 0#32 g.regs (32 * r + l) w }

def Group.markEmpty (g : Group) (rs : List Nat) : Group := { g with empty := rs ++ g.empty }

def Group.markFull (g : Group) (r : Nat) : Group := { g with empty := g.empty.erase r }

/-- Bit of predicate `k` in lane `l`; k7 is true. -/
def Group.pred (g : Group) (k l : Nat) : Bool := decide (k = 7) || (Tbl.get 0#32 g.kval k).getLsbD l

def Group.predDef (g : Group) (k l : Nat) : Bool := decide (k = 7) || (Tbl.get 0#32 g.kdef k).getLsbD l

/-- Writes predicate bits of the lanes of `m`, which become defined (R105). -/
def Group.setPred (g : Group) (k : Nat) (m v : LaneMask) : Group :=
  { g with
    kval := Tbl.set 0#32 g.kval k (((Tbl.get 0#32 g.kval k) &&& ~~~m) ||| (v &&& m))
    kdef := Tbl.set 0#32 g.kdef k ((Tbl.get 0#32 g.kdef k) ||| m) }

/-- Ors sticky flags into a lane's `lflags` (R156). -/
def Group.raise (g : Group) (l : Nat) (f : BitVec 6) : Group :=
  { g with lflags := Tbl.set 0#6 g.lflags l (Tbl.get 0#6 g.lflags l ||| f) }

end Sys2Proof.Machine
end

