-- ==== Sys2Proof/Machine/Flags.lean ====
section
/-! DEFINITION. Number formats, rounding and the sticky flags (spec/08_formats.md; spec/09_arithmetic.md R156, R157).
Every float operation is computed exactly and rounded once. -/

namespace Sys2Proof.Machine

open Sys2Proof

/-! ### Sticky flags (R156) -/

abbrev FlagSet := BitVec 6

def fINEXACT : FlagSet := 1
def fUNDERFLOW : FlagSet := 2
def fOVERFLOW : FlagSet := 4
def fDIVZERO : FlagSet := 8
def fINVALID : FlagSet := 16
def fRANGE : FlagSet := 32

def flagIf (b : Bool) (f : FlagSet) : FlagSet := if b then f else 0

/-! ### Formats (R139 to R141) -/

/-- A float format: fraction bits, bias, whether it has infinities, width. -/
structure FloatFmt where
  mbits : Nat
  bias : Nat
  ebits : Nat
  hasInf : Bool
  deriving DecidableEq, Repr

def fmtF32 : FloatFmt := ⟨23, 127, 8, true⟩
def fmtF16 : FloatFmt := ⟨10, 15, 5, true⟩
def fmtBF16 : FloatFmt := ⟨7, 127, 8, true⟩
def fmtE4M3 : FloatFmt := ⟨3, 7, 4, false⟩
def fmtE5M2 : FloatFmt := ⟨2, 15, 5, true⟩
def fmtE2M1 : FloatFmt := ⟨1, 1, 2, false⟩

/-- The format of a float type. -/
def floatFmt : ElemTy → Option FloatFmt
  | .f32 => some fmtF32
  | .f16 => some fmtF16
  | .bf16 => some fmtBF16
  | .e4m3 => some fmtE4M3
  | .e5m2 => some fmtE5M2
  | .e2m1 => some fmtE2M1
  | _ => none

/-- A decoded float: the finite value is (−1)^neg · m · 2^e. -/
inductive FVal where
  | nan (signalling : Bool)
  | inf (neg : Bool)
  | fin (neg : Bool) (m : Nat) (e : Int)
  deriving DecidableEq, Repr

/-- Decodes a code (R139, R140). -/
def FloatFmt.decode (f : FloatFmt) (c : Nat) : FVal :=
  let m := c % 2 ^ f.mbits
  let ex := c / 2 ^ f.mbits % 2 ^ f.ebits
  let neg := decide (c / 2 ^ (f.mbits + f.ebits) % 2 = 1)
  let top := decide (ex = 2 ^ f.ebits - 1)
  if top && f.hasInf then
    if m = 0 then .inf neg else .nan (decide (m < 2 ^ (f.mbits - 1)))
  else if top && decide (f.mbits = 3) && decide (m = 7) then .nan false
  else if ex = 0 then .fin neg m (1 - (f.bias : Int) - f.mbits)
  else .fin neg (m + 2 ^ f.mbits) ((ex : Int) - f.bias - f.mbits)

/-- Sign bit of the format. -/
def FloatFmt.sign (f : FloatFmt) (neg : Bool) : Nat := if neg then 2 ^ (f.mbits + f.ebits) else 0

/-- Canonical NaN (Table 8.2); e2m1 has none and takes +0 (Table 8.6). -/
def FloatFmt.nanCode (f : FloatFmt) : Nat :=
  if f.hasInf then (2 ^ f.ebits - 1) * 2 ^ f.mbits + 2 ^ (f.mbits - 1)
  else if f.mbits = 3 then 0x7F else 0

def FloatFmt.infCode (f : FloatFmt) (neg : Bool) : Nat := (2 ^ f.ebits - 1) * 2 ^ f.mbits + f.sign neg

/-- Largest finite code (Table 8.2). -/
def FloatFmt.maxCode (f : FloatFmt) (neg : Bool) : Nat :=
  (if f.hasInf then (2 ^ f.ebits - 1) * 2 ^ f.mbits - 1 else if f.mbits = 3 then 0x7E else 7) + f.sign neg

/-! ### Rounding (R146, R150) -/

/-- Bits of a number. -/
def bitLen (m : Nat) : Nat := if m = 0 then 0 else Nat.log2 m + 1

/-- The dither thresholds D[j] = Brev5(j)·8 + 4 (Table 8.7). -/
def ditherD (j : Nat) : Nat :=
  (j % 2 * 16 + j / 2 % 2 * 8 + j / 4 % 2 * 4 + j / 8 % 2 * 2 + j / 16 % 2) * 8 + 4

/-- A rounding: the mode, and for rdi the threshold of the position and phase. -/
structure RndCtx where
  mode : Rnd
  thr : Nat
  deriving DecidableEq, Repr

def RndCtx.of (mode : Rnd) (pos phase : Nat) : RndCtx := ⟨mode, ditherD ((pos + phase) % 32)⟩

/-- Rounds m·2^e (plus less than 2^e when `sticky`) to a multiple of 2^u: the multiple, and whether it is inexact. -/
def roundAt (r : RndCtx) (neg : Bool) (m : Nat) (e : Int) (sticky : Bool) (u : Int) : Nat × Bool :=
  if u ≤ e then (m * 2 ^ (e - u).toNat, sticky)
  else
    let k := (u - e).toNat
    let q := m / 2 ^ k
    let rem := m % 2 ^ k
    let half := 2 ^ (k - 1)
    let inexact := decide (rem ≠ 0) || sticky
    let up :=
      match r.mode with
      | .rne => decide (half < rem) || (decide (rem = half) && (sticky || decide (q % 2 = 1)))
      | .rz => false
      | .ru => !neg && inexact
      | .rd => neg && inexact
      | .rdi => decide (r.thr < rem * 256 / 2 ^ k)
    (if up then q + 1 else q, inexact)

/-- The code of q·2^u, which the format holds. -/
def FloatFmt.pack (f : FloatFmt) (neg : Bool) (q : Nat) (u : Int) : Nat :=
  if q = 0 then f.sign neg
  else
    let l := bitLen q
    let ex := u + l - 1 + f.bias
    if ex ≤ 0 then
      -- subnormal: u is the subnormal spacing or below it
      q * 2 ^ (u - (1 - (f.bias : Int) - f.mbits)).toNat + f.sign neg
    else
      let fr := if l ≤ f.mbits + 1 then q * 2 ^ (f.mbits + 1 - l) else q / 2 ^ (l - f.mbits - 1)
      ex.toNat * 2 ^ f.mbits + (fr - 2 ^ f.mbits) + f.sign neg

/-- q·2^u exceeds the largest finite magnitude. -/
def FloatFmt.above (f : FloatFmt) (q : Nat) (u : Int) : Bool :=
  match f.decode (f.maxCode false) with
  | .fin _ m e =>
    if u ≤ e then decide (m * 2 ^ (e - u).toNat < q) else decide (m < q * 2 ^ (u - e).toNat)
  | _ => false

/-- What a finite overflow gives (Table 8.6). -/
def FloatFmt.overflow (f : FloatFmt) (mode : Rnd) (sat neg : Bool) : Nat :=
  if sat then f.maxCode neg
  else if f.hasInf then
    if (decide (mode = .ru) && neg) || (decide (mode = .rd) && !neg) then f.maxCode neg else f.infCode neg
  else if f.mbits = 3 then f.nanCode
  else f.maxCode neg

/-- Rounds a finite value into a format, with SAT and the flags of R145 to R147. -/
def FloatFmt.round (f : FloatFmt) (r : RndCtx) (sat neg : Bool) (m : Nat) (e : Int) (sticky : Bool) : Nat × FlagSet :=
  if m = 0 ∧ sticky = false then (f.sign neg, 0)
  else
    let lead : Int := e + bitLen m - 1
    let emin : Int := 1 - (f.bias : Int)
    let uFree := lead - f.mbits
    let u := if emin ≤ lead then uFree else emin - f.mbits
    let res := roundAt r neg m e sticky u
    let free := roundAt r neg m e sticky uFree
    let tiny := decide (lead < emin) && !(decide (lead = emin - 1) && decide (bitLen free.1 = f.mbits + 2))
    if f.above res.1 u then
      let truncated := match r.mode with
        | .rz => true
        | .rdi => res.2 && decide (res.1 * 2 ^ (u - e).toNat ≤ m)
        | _ => false
      if truncated then (f.maxCode neg, fINEXACT)
      else (f.overflow r.mode sat neg, fOVERFLOW ||| fINEXACT)
    else (f.pack neg res.1 u, flagIf res.2 fINEXACT ||| flagIf (res.2 && tiny) fUNDERFLOW)

/-- Sat after rounding (R157): an infinity becomes ±max. -/
def FloatFmt.satCode (f : FloatFmt) (sat : Bool) (c : Nat) : Nat :=
  match f.decode c with
  | .inf neg => if sat then f.maxCode neg else c
  | _ => c

/-! ### Exact sums -/

/-- A signed exact value n·2^e. -/
structure Dyad where
  n : Int
  e : Int
  deriving DecidableEq, Repr

def Dyad.zero : Dyad := ⟨0, 0⟩

def Dyad.add (a b : Dyad) : Dyad :=
  let e := min a.e b.e
  ⟨a.n * 2 ^ (a.e - e).toNat + b.n * 2 ^ (b.e - e).toNat, e⟩

def Dyad.mul (a b : Dyad) : Dyad := ⟨a.n * b.n, a.e + b.e⟩

def dyadOf (neg : Bool) (m : Nat) (e : Int) : Dyad := ⟨if neg then -(m : Int) else m, e⟩

/-- a < b. -/
def Dyad.lt (a b : Dyad) : Bool :=
  let e := min a.e b.e
  decide (a.n * 2 ^ (a.e - e).toNat < b.n * 2 ^ (b.e - e).toNat)

def FVal.isNan : FVal → Bool
  | .nan _ => true
  | _ => false

def FVal.isSig : FVal → Bool
  | .nan b => b
  | _ => false

def FVal.neg? : FVal → Bool
  | .nan _ => false
  | .inf n => n
  | .fin n _ _ => n

def FVal.isZero : FVal → Bool
  | .fin _ m _ => decide (m = 0)
  | _ => false

def FVal.isInf : FVal → Bool
  | .inf _ => true
  | _ => false

def FVal.dyad : FVal → Dyad
  | .fin n m e => dyadOf n m e
  | _ => Dyad.zero

/-- Signalling operands set INVALID (R157). -/
def sigFlag (vs : List FVal) : FlagSet := flagIf (vs.any FVal.isSig) fINVALID

/-- Rounds an exact sum; an exact zero takes the sign `zneg`. -/
def FloatFmt.ofDyad (f : FloatFmt) (r : RndCtx) (sat : Bool) (d : Dyad) (zneg : Bool) : Nat × FlagSet :=
  if d.n = 0 then (f.sign zneg, 0) else f.round r sat (decide (d.n < 0)) d.n.natAbs d.e false

/-- a + b (R165, R157). -/
def FloatFmt.addF (f : FloatFmt) (r : RndCtx) (sat : Bool) (a b : FVal) : Nat × FlagSet :=
  let sf := sigFlag [a, b]
  if a.isNan || b.isNan then (f.nanCode, sf)
  else match a, b with
    | .inf x, .inf y => if x = y then (f.satCode sat (f.infCode x), sf) else (f.nanCode, fINVALID)
    | .inf x, _ => (f.satCode sat (f.infCode x), sf)
    | _, .inf y => (f.satCode sat (f.infCode y), sf)
    | _, _ =>
      let zneg := if a.isZero && b.isZero && (a.neg? == b.neg?) then a.neg? else decide (r.mode = .rd)
      f.ofDyad r sat (a.dyad.add b.dyad) zneg

/-- Negation and absolute value of a decoded value. -/
def FVal.flip : FVal → FVal
  | .nan s => .nan s
  | .inf n => .inf (!n)
  | .fin n m e => .fin (!n) m e

def FVal.absV : FVal → FVal
  | .nan s => .nan s
  | .inf _ => .inf false
  | .fin _ m e => .fin false m e

/-- a · b. -/
def FloatFmt.mulF (f : FloatFmt) (r : RndCtx) (sat : Bool) (a b : FVal) : Nat × FlagSet :=
  let sf := sigFlag [a, b]
  if a.isNan || b.isNan then (f.nanCode, sf)
  else
    let s := a.neg? != b.neg?
    if a.isInf || b.isInf then
      if a.isZero || b.isZero then (f.nanCode, fINVALID) else (f.satCode sat (f.infCode s), sf)
    else f.ofDyad r sat (a.dyad.mul b.dyad) s

/-- a · b + c, rounded once (R165). -/
def FloatFmt.fmaF (f : FloatFmt) (r : RndCtx) (sat : Bool) (a b c : FVal) : Nat × FlagSet :=
  let sf := sigFlag [a, b, c]
  let bad := !a.isNan && !b.isNan && (a.isInf || b.isInf) && (a.isZero || b.isZero)
  if bad then (f.nanCode, fINVALID)
  else if a.isNan || b.isNan || c.isNan then (f.nanCode, sf)
  else
    let s := a.neg? != b.neg?
    if a.isInf || b.isInf then
      if c.isInf && (c.neg? != s) then (f.nanCode, fINVALID) else (f.satCode sat (f.infCode s), sf)
    else match c with
      | .inf n => (f.satCode sat (f.infCode n), sf)
      | _ =>
        let p := a.dyad.mul b.dyad
        let zneg := if decide (p.n = 0) && c.isZero && (s == c.neg?) then s else decide (r.mode = .rd)
        f.ofDyad r sat (p.add c.dyad) zneg

/-- minimumNumber and maximumNumber with −0 < +0 (R166); `mx` picks the larger. -/
def FloatFmt.minMaxF (f : FloatFmt) (mx : Bool) (ca cb : Nat) : Nat × FlagSet :=
  let a := f.decode ca
  let b := f.decode cb
  let sf := sigFlag [a, b]
  let lt : Bool := match a, b with
    | .inf n, .inf m => n && !m
    | .inf n, _ => n
    | _, .inf m => !m
    | _, _ => a.dyad.lt b.dyad || (a.isZero && b.isZero && a.neg? && !b.neg?)
  if a.isNan && b.isNan then (f.nanCode, sf)
  else if a.isNan then (cb, sf)
  else if b.isNan then (ca, sf)
  else (if lt != mx then ca else cb, sf)

/-! ### Division and square roots (R167) -/

/-- Integer square root by bits: the largest r with r² ≤ n, for r below 2^k. -/
def isqrtN (n : Nat) : Nat → Nat → Nat
  | 0, r => r
  | k + 1, r => if (r + 2 ^ k) * (r + 2 ^ k) ≤ n then isqrtN n k (r + 2 ^ k) else isqrtN n k r

/-- ma·2^ea / (mb·2^eb) rounded once; 40 quotient bits and a sticky bit suffice for 24-bit operands. -/
def FloatFmt.quotient (f : FloatFmt) (r : RndCtx) (sat neg : Bool) (ma : Nat) (ea : Int) (mb : Nat) (eb : Int) :
    Nat × FlagSet :=
  let k := 64 + bitLen mb
  let n := ma * 2 ^ k
  f.round r sat neg (n / mb) (ea - eb - k) (decide (n % mb ≠ 0))

def FloatFmt.divF (f : FloatFmt) (r : RndCtx) (sat : Bool) (a b : FVal) : Nat × FlagSet :=
  let s := a.neg? != b.neg?
  match a, b with
  | .nan x, y => (f.nanCode, flagIf (x || y.isSig) fINVALID)
  | _, .nan y => (f.nanCode, flagIf y fINVALID)
  | .inf _, .inf _ => (f.nanCode, fINVALID)
  | .inf _, .fin _ _ _ => (f.satCode sat (f.infCode s), 0)
  | .fin _ _ _, .inf _ => (f.sign s, 0)
  | .fin _ ma ea, .fin _ mb eb =>
    if mb = 0 then
      if ma = 0 then (f.nanCode, fINVALID) else (f.satCode sat (f.infCode s), fDIVZERO)
    else f.quotient r sat s ma ea mb eb

/-- √(m·2^e): scaled so that the exponent is even, 64 result bits and a sticky bit. -/
def FloatFmt.sqrtF (f : FloatFmt) (r : RndCtx) (sat : Bool) (a : FVal) : Nat × FlagSet :=
  match a with
  | .nan x => (f.nanCode, flagIf x fINVALID)
  | .inf true => (f.nanCode, fINVALID)
  | .inf false => (f.satCode sat (f.infCode false), 0)
  | .fin n m e =>
    if m = 0 then (f.sign n, 0)
    else if n then (f.nanCode, fINVALID)
    else
      let e2 : Int := if e % 2 = 0 then e else e - 1
      let m2 := if e % 2 = 0 then m else 2 * m
      let big := m2 * 2 ^ 96
      let q := isqrtN big 64 0
      f.round r sat false q (e2 / 2 - 48) (decide (q * q ≠ big))

/-- 1/√(m·2^e). -/
def FloatFmt.rsqrtF (f : FloatFmt) (r : RndCtx) (sat : Bool) (a : FVal) : Nat × FlagSet :=
  match a with
  | .nan x => (f.nanCode, flagIf x fINVALID)
  | .inf true => (f.nanCode, fINVALID)
  | .inf false => (f.sign false, 0)
  | .fin n m e =>
    if m = 0 then (f.satCode sat (f.infCode n), fDIVZERO)
    else if n then (f.nanCode, fINVALID)
    else
      let e2 : Int := if e % 2 = 0 then e else e - 1
      let m2 := if e % 2 = 0 then m else 2 * m
      let x := 2 ^ 160 / m2
      let q := isqrtN x 81 0
      f.round r sat false q (-(e2 / 2) - 80) (decide (q * q * m2 ≠ 2 ^ 160))

/-! ### Conversions (R147, R148) -/

/-- Width in bits of a type (Table 3.14). -/
def tyBits : ElemTy → Nat
  | .i32 | .n32 | .f32 => 32
  | .i64 | .n64 => 64
  | .f16 | .bf16 | .i16 | .n16 => 16
  | .i8 | .n8 | .e4m3 | .e5m2 | .e8m0 => 8
  | .e2m1 | .i4 => 4

/-- Signed integer types. -/
def tySigned : ElemTy → Bool
  | .i32 | .i64 | .i16 | .i8 | .i4 => true
  | _ => false

/-- The integer a w-bit pattern stands for. -/
def intVal (signed : Bool) (w c : Nat) : Int :=
  let c := c % 2 ^ w
  if signed ∧ 2 ^ (w - 1) ≤ c then (c : Int) - 2 ^ w else c

/-- Bounds of an integer type (Table 8.5). -/
def intMin (signed : Bool) (w : Nat) : Int := if signed then -(2 ^ (w - 1) : Nat) else 0
def intMax (signed : Bool) (w : Nat) : Int := if signed then (2 ^ (w - 1) : Nat) - 1 else (2 ^ w : Nat) - 1

/-- The w-bit pattern of an integer, its low bits kept. -/
def intBits (w : Nat) (v : Int) : Nat := (v % (2 ^ w : Nat)).toNat

def clampInt (signed : Bool) (w : Nat) (v : Int) : Int :=
  if v < intMin signed w then intMin signed w else if intMax signed w < v then intMax signed w else v

/-- Float into a float format (Table 8.6). -/
def FloatFmt.convF (f : FloatFmt) (r : RndCtx) (sat : Bool) (v : FVal) : Nat × FlagSet :=
  match v with
  | .nan s => (f.nanCode, flagIf (s || (!f.hasInf && decide (f.mbits = 1))) fINVALID)
  | .inf n =>
    if f.hasInf then (if sat then f.maxCode n else f.infCode n, 0)
    else if sat then (f.maxCode n, flagIf (decide (f.mbits = 1)) 0)
    else if f.mbits = 3 then (f.nanCode, fINVALID)
    else (f.maxCode n, fINVALID)
  | .fin n m e => f.round r sat n m e false

/-- Float to integer: rounded by the mode, clamped always (R148). -/
def floatToInt (r : RndCtx) (signed : Bool) (w : Nat) (v : FVal) : Nat × FlagSet :=
  match v with
  | .nan _ => (0, fINVALID)
  | .inf n => (intBits w (if n then intMin signed w else intMax signed w), fINVALID)
  | .fin n m e =>
    let q := roundAt r n m e false 0
    let i : Int := if n then -(q.1 : Int) else q.1
    let c := clampInt signed w i
    (intBits w c, if c ≠ i then fINVALID else flagIf q.2 fINEXACT)

/-- Integer to float (R148). -/
def FloatFmt.ofInt (f : FloatFmt) (r : RndCtx) (sat : Bool) (i : Int) : Nat × FlagSet :=
  f.round r sat (decide (i < 0)) i.natAbs 0 false

/-- Converts a source pattern between two types (R174), `s4` and `d4` marking n4. -/
def convert (r : RndCtx) (sat : Bool) (src : ElemTy) (dst : ElemTy) (n4 : Bool) (c : Nat) : Nat × FlagSet :=
  let c := c % 2 ^ tyBits src
  let sSigned := tySigned src && !(n4 && decide (src = .i4))
  let dSigned := tySigned dst && !(n4 && decide (dst = .i4))
  match floatFmt src, floatFmt dst with
  | some fs, some fd => fd.convF r sat (fs.decode c)
  | some fs, none => floatToInt r dSigned (tyBits dst) (fs.decode c)
  | none, some fd => fd.ofInt r sat (intVal sSigned (tyBits src) c)
  | none, none =>
    let i := intVal sSigned (tyBits src) c
    (intBits (tyBits dst) (if sat then clampInt dSigned (tyBits dst) i else i), 0)

/-- floor(log2 m·2^e) of a non-zero magnitude. -/
def floorLog2 (m : Nat) (e : Int) : Int := e + bitLen m - 1

/-- The e8m0 code that `cvt.e8m0.f32` writes (R174). -/
def toE8m0 (v : FVal) : Nat × FlagSet :=
  match v with
  | .nan _ | .inf _ => (0xFF, fINVALID)
  | .fin _ m e =>
    if m = 0 then (0, 0)
    else
      let x := floorLog2 m e
      let x := if x < -127 then -127 else if 127 < x then 127 else x
      ((x + 127).toNat, 0)

/-- 2^(E − 127) as f32; 0xFF is the canonical NaN (R142, R174). -/
def fromE8m0 (c : Nat) : Nat :=
  if c % 256 = 255 then fmtF32.nanCode
  else (fmtF32.round ⟨.rne, 0⟩ false false 1 ((c % 256 : Nat) - 127 : Int) false).1

/-- Largest exponent of a scaled element format (R149). -/
def emaxOf : ElemTy → Int
  | .e4m3 => 8
  | .e5m2 => 15
  | _ => 2

/-- The block scale of the largest magnitude m (R149): X + 127 for a finite m. -/
def scaleOf (ty : ElemTy) (v : FVal) : Nat × FlagSet :=
  match v with
  | .nan _ | .inf _ => (0xFF, fINVALID)
  | .fin _ m e =>
    if m = 0 then (127, 0)
    else
      let x := floorLog2 m e - emaxOf ty
      let x := if x < -127 then -127 else if 127 < x then 127 else x
      ((x + 127).toNat, 0)

/-! ### Sums of products (R152, R153) -/

/-- One product of a sum. -/
inductive Prod1 where
  | nan
  | invalid
  | inf (neg : Bool)
  | fin (d : Dyad) (zneg : Bool)
  deriving DecidableEq, Repr

def prodOf (a b : FVal) : Prod1 :=
  if a.isNan || b.isNan then .nan
  else if a.isInf || b.isInf then
    if a.isZero || b.isZero then .invalid else .inf (a.neg? != b.neg?)
  else .fin (a.dyad.mul b.dyad) (a.neg? != b.neg?)

/-- The exact sum of products and a starting value, rounded once (R152). -/
def dotSum (r : RndCtx) (sat : Bool) (c : FVal) (ps : List Prod1) : Nat × FlagSet :=
  let f := fmtF32
  let sf := sigFlag [c]
  let bad := ps.any (fun p => decide (p = .invalid))
  let pInf := ps.any (fun p => decide (p = .inf false)) || decide (c = .inf false)
  let nInf := ps.any (fun p => decide (p = .inf true)) || decide (c = .inf true)
  if bad || (pInf && nInf) then (f.nanCode, fINVALID)
  else if c.isNan || ps.any (fun p => decide (p = .nan)) then (f.nanCode, sf)
  else if pInf then (f.satCode sat (f.infCode false), 0)
  else if nInf then (f.satCode sat (f.infCode true), 0)
  else
    let total := ps.foldl (fun d p => match p with | .fin x _ => d.add x | _ => d) c.dyad
    let allNegZero := c.isZero && c.neg? && ps.all (fun p => match p with
      | .fin d z => decide (d.n = 0) && z
      | _ => false)
    f.ofDyad r sat total (allNegZero || decide (r.mode = .rd))

/-! ### Transcendental functions (R168 to R170) -/

/-- π in units of 2^−480. -/
def piFix : Nat :=
  0x3243f6a8885a308d313198a2e03707344a4093822299f31d0082efa98ec4e6c89452821e638d01377be5466cf34e90c6cc0ac29b7c97c50dd3f84d5b5

/-- ln 2 in units of 2^−160. -/
def ln2Fix : Nat := 0xb17217f7d1cf79abc9e3b39803f2f6af40f34326

/-- 2^(x·2^−160) in units of 2^−160, by its series, for 0 ≤ x < 2^160. -/
def exp2Fix (x : Nat) : Nat :=
  let y := x * ln2Fix / 2 ^ 160
  ((List.range 48).foldl (fun (acc : Nat × Nat) k =>
    let t := acc.1 * y / 2 ^ 160 / (k + 1)
    (t, acc.2 + t)) (2 ^ 160, 2 ^ 160)).2

/-- The bits of log2(m·2^−256) in units of 2^−112, for 1 ≤ m·2^−256 < 2, by repeated squaring. -/
def log2Bits : Nat → Nat → Nat → Nat
  | 0, _, acc => acc
  | n + 1, m, acc =>
    let q := m * m / 2 ^ 256
    if 2 ^ 257 ≤ q then log2Bits n (q / 2) (2 * acc + 1) else log2Bits n q (2 * acc)

/-- The series of sin y·2^−320 in units of 2^−320, |y| below 2^320. -/
def sinSeries (y : Int) : Int :=
  ((List.range 40).foldl (fun (acc : Int × Int) (k : Nat) =>
    let t := -(acc.1 * y / (2 ^ 320 : Int) * y / (2 ^ 320 : Int)) / ((2 * (k : Int) + 2) * (2 * k + 3))
    (t, acc.2 + t)) (y, y)).2

/-- sin of y·2^−320: its magnitude is below |y|, also where the series' second term is less than a unit. -/
def sinFix (y : Int) : Int := if sinSeries y = y then y - y.sign else sinSeries y

/-- cos of y·2^−320. -/
def cosFix (y : Int) : Int :=
  ((List.range 40).foldl (fun (acc : Int × Int) (k : Nat) =>
    let t := -(acc.1 * y / (2 ^ 320 : Int) * y / (2 ^ 320 : Int)) / ((2 * (k : Int) + 1) * (2 * k + 2))
    (t, acc.2 + t)) ((2 ^ 320 : Int), (2 ^ 320 : Int))).2

/-- n = nearest integer to a·2/π and a − n·π/2 in units of 2^−480, for a = ±m·2^e (R170). -/
def reducePi (neg : Bool) (m : Nat) (e : Int) : Int × Int :=
  let a : Int := if 0 ≤ e + 480 then m * 2 ^ (e + 480).toNat else m / 2 ^ (-(e + 480)).toNat
  let a := if neg then -a else a
  let n := (4 * a + piFix) / (2 * piFix)
  (n, a - n * piFix / 2)

/-- The two values of a format around a non-exact magnitude: `up` picks the farther from zero. UNDERFLOW for a tiny
result, INEXACT always. -/
def FloatFmt.bracket (f : FloatFmt) (neg : Bool) (m : Nat) (e : Int) (up : Nat) (down : Nat) : Nat × FlagSet :=
  let lead : Int := e + bitLen m - 1
  let emin : Int := 1 - (f.bias : Int)
  let u := if emin ≤ lead then lead - f.mbits else emin - f.mbits
  let q := if u ≤ e then m * 2 ^ (e - u).toNat else m / 2 ^ (u - e).toNat
  let q := q + up - down
  let tiny := decide (u + bitLen q - 1 < emin)
  (f.pack neg q u, fINEXACT ||| flagIf tiny fUNDERFLOW)

end Sys2Proof.Machine
end

