-- ==== Sys2Proof/WellFormed.lean ====
section
/-! DEFINITION. The checks on an instruction's fields that need no state: step 3 of R56 (IllegalOp) and the scopes an
instruction accepts (IllegalScope), from the field tables of spec/05_issue.md to spec/18_faults.md. -/

namespace Sys2Proof

namespace Wf

/-- A field of the operand space names a lane register or a receive queue register, the sources that may carry an
empty bit (R48). -/
def emptyable (f : BitVec 11) : Bool :=
  decide (f.toNat < 1536) || (decide (1680 ≤ f.toNat) && decide (f.toNat ≤ 1687))

def isFloat : ElemTy → Bool
  | .f32 | .f16 | .bf16 | .e4m3 | .e5m2 | .e2m1 => true
  | _ => false

/-- Types of the integer instructions (Table 9.1). -/
def int4 : List ElemTy := [.i32, .n32, .i64, .n64]
def flt3 : List ElemTy := [.f32, .f16, .bf16]
def packTys : List ElemTy := [.f16, .bf16, .e4m3, .e5m2, .e2m1, .i16, .n16, .i8, .n8, .i4]

/-- What a row of Tables 5.5, 7.1 and 9.1 allows. `mods`: 0 none, 1 source A only, 2 every source. `rnd`: 0, 4 or 5
modes. -/
structure VRow where
  useD : Bool
  useA : Bool
  useB : Bool
  useC : Bool
  tys : List ElemTy
  rnd : Nat
  sat : Bool
  mods : Nat
  isel : List ISel
  ql : Bool × Bool
  deriving DecidableEq, Repr

def rndOk (n : Nat) (r : Rnd) : Bool :=
  match r with
  | .rne => true
  | .rdi => decide (n = 5)
  | _ => decide (4 ≤ n)

/-- The predicate field is 0111: no predicate (R35). -/
def noPred (c : Common) : Bool := !c.pneg && decide (c.pred = 7#3)

/-- The fields of format V against a row: unused fields are zero (R36), empty bits stand on sources that may carry
them (R48), ISEL names a used field (R37), QSEL and LSLOT go with Q and L (R37). -/
def rowV (r : VRow) (c : Common) (f : FmtV) : Bool :=
  (r.useD || decide (f.dst = 0#11)) && (r.useA || decide (f.a = 0#11)) && (r.useB || decide (f.b = 0#11)) &&
  (r.useC || decide (f.c = 0#11)) &&
  (!f.ea || (r.useA && (decide (f.isel = .a) || emptyable f.a))) &&
  (!f.eb || (r.useB && (decide (f.isel = .b) || emptyable f.b))) &&
  (!f.ec || (r.useC && emptyable f.c)) &&
  (decide (f.isel = .none) || r.isel.contains f.isel) && (decide (f.isel ≠ .none) || decide (f.ireg = 0#2)) &&
  r.tys.contains f.ty && rndOk r.rnd f.rnd && (r.sat || !f.sat) &&
  ((!f.na && !f.aa) || (decide (1 ≤ r.mods) && r.useA)) && ((!f.nb && !f.ab) || (decide (r.mods = 2) && r.useB)) &&
  ((!f.nc && !f.ac) || (decide (r.mods = 2) && r.useC)) &&
  (r.ql.1 || !c.q) && (r.ql.2 || !c.l) && (c.q || decide (f.qsel = 0#3)) &&
  decide (f.lslot.toNat < 2) && (c.l || decide (f.lslot = 0#2))

/-- The fields of format I against a row (R40, R41); L is never allowed (R34). -/
def rowI (useA : Bool) (tys : List ElemTy) (rnd : Nat) (sat : Bool) (isel : List ISel) (c : Common) (f : FmtI) : Bool :=
  (useA || decide (f.a = 0#11)) && (!f.ea || (useA && (decide (f.isel = .a) || emptyable f.a))) &&
  (decide (f.isel = .none) || isel.contains f.isel) && (decide (f.isel ≠ .none) || decide (f.ireg = 0#2)) &&
  tys.contains f.ty && rndOk rnd f.rnd && (sat || !f.sat) && !c.l && (c.q || decide (f.qsel = 0#3)) &&
  decide (f.sub = 0#5)

def dA : List ISel := [.dst, .a]
def dAB : List ISel := [.dst, .a, .b]

/-- An arithmetic row (Table 9.1). -/
def vr (useB useC : Bool) (tys : List ElemTy) (rnd : Nat) (sat : Bool) (mods : Nat) : VRow :=
  { useD := true, useA := true, useB := useB, useC := useC, tys := tys, rnd := rnd, sat := sat, mods := mods,
    isel := if useB then dAB else dA, ql := (true, true) }

/-- A register row (Table 7.1) or an exchange row (Table 5.5). -/
def rr (useD useB useC : Bool) (tys : List ElemTy) (mods : Nat) (isel : List ISel) (ql : Bool × Bool) : VRow :=
  { useD := useD, useA := true, useB := useB, useC := useC, tys := tys, rnd := 0, sat := false, mods := mods,
    isel := isel, ql := ql }

def sub0 (f : FmtV) : Bool := decide (f.sub = 0#5)
def sub1 (f : FmtV) : Bool := decide (f.sub.toNat < 2) && (decide (f.sub = 0#5) || decide (f.ty = .i4))

/-- gred and gscan (Table 5.5): .and, .or and .xor refuse f32; only an f32 .add rounds, and not by rdi. -/
def reduceOk (c : Common) (f : FmtV) (scan : Bool) : Bool :=
  rowV { rr true false false [.i32, .n32, .i64, .n64, .f32] 0 dA (true, false) with
          rnd := if f.ty = .f32 ∧ f.sub.toNat % 8 = 0 then 4 else 0 } c f &&
  decide (f.sub.toNat < (if scan then 16 else 8)) && decide (f.sub.toNat % 8 ≤ 5) &&
  (decide (f.ty ≠ .f32) || decide (f.sub.toNat % 8 ≤ 2))

/-- kset (R129, R133). -/
def ksetOk (c : Common) (f : FmtV) : Bool :=
  rowV (rr true true false [.i32, .n32, .i64, .n64, .f32, .f16, .bf16, .i16, .n16] 2 [.a, .b] (false, false)) c f &&
  c.w && decide (f.sub.toNat < 8) && (decide (f.sub.toNat ≠ 6) || isFloat f.ty) &&
  (decide (f.sub.toNat ≠ 7) || !isFloat f.ty)

/-- cvt (R174). -/
def cvtOk (c : Common) (f : FmtV) (tyOf : BitVec 4 → ElemTy) : Bool :=
  let src := tyOf (f.sub.setWidth 4)
  rowV (vr false false [.i32, .n32, .i64, .n64, .f32, .f16, .bf16, .i16, .n16, .i8, .n8, .e4m3, .e5m2, .e2m1, .e8m0, .i4]
    5 true 0) c f &&
  decide (src ≠ f.ty) && (decide (f.ty ≠ .e8m0) || decide (src = .f32)) &&
  (decide (src ≠ .e8m0) || decide (f.ty = .f32)) &&
  (!f.sub.getLsbD 4 || decide (f.ty = .i4) || decide (src = .i4)) &&
  ((decide (f.ty ≠ .e8m0) && decide (src ≠ .e8m0)) || (decide (f.rnd = .rne) && !f.sat))

/-- Type codes, as `cvt` needs them in SUBOP [3:0] (Table 3.14). -/
def codeTy (n : BitVec 4) : ElemTy :=
  match n.toNat with
  | 0 => .i32 | 1 => .n32 | 2 => .i64 | 3 => .n64 | 4 => .f32 | 5 => .f16 | 6 => .bf16 | 7 => .i16
  | 8 => .n16 | 9 => .i8 | 10 => .n8 | 11 => .e4m3 | 12 => .e5m2 | 13 => .e2m1 | 14 => .e8m0 | _ => .i4

/-- bscale (R176): with .one SRCC is zero, and its byte selector too (R36). -/
def bscaleOk (c : Common) (f : FmtV) : Bool :=
  rowV (vr true (!f.sub.getLsbD 4) [.f32] 4 true 1) c f &&
  (!f.sub.getLsbD 4 || (!f.sub.getLsbD 3 && !f.sub.getLsbD 2))

/-- bmax (R176). -/
def bmaxOk (c : Common) (f : FmtV) : Bool :=
  if f.sub = 0#5 then rowV (vr true false [.f32] 0 false 0) c f
  else decide (f.sub = 1#5) && rowV (vr false false [.e4m3, .e5m2, .e2m1] 0 false 0) c f

/-- The empty bits of format M (R48), given which operands are read. -/
def emptyM (f : FmtM) (dataRead secondUsed : Bool) : Bool :=
  (!f.ed || (dataRead && emptyable f.data)) && (!f.ea || emptyable f.addr) && (!f.es || (secondUsed && emptyable f.second)) &&
  (secondUsed || decide (f.second = 0#11))

/-- The operation of an atomic or reduction: `f32` and `uns` bits against operation and width (Tables 10.4, 13.6). -/
def atomOpOk (op : Nat) (f32 uns : Bool) (w : Width) : Bool :=
  (decide (w = .b4) || decide (w = .b8)) && (!f32 || (decide (op ≤ 2) && decide (w = .b4))) &&
  (!uns || (!f32 && (decide (op = 1) || decide (op = 2))))

def narrow (w : Width) : Bool := decide (w = .b1) || decide (w = .b2)

def ldOk (c : Common) (f : FmtM) : Bool :=
  c.w && !c.q && !c.l && emptyM f false false && (decide (f.order = .relaxed) || decide (f.order = .acquire)) &&
  decide (f.sub.toNat % 32 < 2) && (!f.sub.getLsbD 0 || narrow f.width)

def stOk (c : Common) (f : FmtM) : Bool :=
  !c.w && !c.q && !c.l && emptyM f true false && (decide (f.order = .relaxed) || decide (f.order = .release)) &&
  decide (f.sub.toNat % 32 = 0)

def atomOk (c : Common) (f : FmtM) : Bool :=
  !c.q && !c.l && emptyM f true (decide (f.sub.toNat % 8 = 7)) &&
  atomOpOk (f.sub.toNat % 8) (f.sub.getLsbD 4) (f.sub.getLsbD 3) f.width

def redOk (c : Common) (f : FmtM) : Bool :=
  !c.w && !c.q && !c.l && emptyM f true false && (decide (f.order = .relaxed) || decide (f.order = .release)) &&
  decide (f.sub.toNat % 8 ≤ 5) && atomOpOk (f.sub.toNat % 8) (f.sub.getLsbD 4) (f.sub.getLsbD 3) f.width

/-- HINT and MSCOPE of the scratchpad instructions (R185). -/
def scratchOk (f : FmtM) : Bool :=
  decide (f.hint = .normal) &&
  (decide (f.mscope = .grp) || decide (f.mscope = .team) || decide (f.mscope = .core) || decide (f.mscope = .clu))

def ldsOk (c : Common) (f : FmtM) : Bool :=
  c.w && !c.q && !c.l && scratchOk f && emptyM f false false &&
  (decide (f.order = .relaxed) || decide (f.order = .acquire)) &&
  decide (f.sub.toNat < 2) && (!f.sub.getLsbD 0 || narrow f.width)

def stsOk (c : Common) (f : FmtM) : Bool :=
  !c.w && !c.q && !c.l && scratchOk f && emptyM f true false &&
  (decide (f.order = .relaxed) || decide (f.order = .release)) && decide (f.sub = 0#6)

def atomsOk (c : Common) (f : FmtM) : Bool :=
  !c.q && !c.l && scratchOk f && emptyM f true (decide (f.sub.toNat % 16 = 7)) && decide (f.sub.toNat % 16 ≤ 7) &&
  atomOpOk (f.sub.toNat % 16) (f.sub.getLsbD 4) (f.sub.getLsbD 5) f.width

/-- fence (Table 14.7). -/
def fenceOk (c : Common) (f : FmtM) : Bool :=
  !c.w && !c.q && !c.l && decide (f.data = 0#11) && decide (f.addr = 0#11) && decide (f.second = 0#11) &&
  decide (f.offset = 0#22) && decide (f.width = .b1) && decide (f.hint = .normal) && !f.ed && !f.ea && !f.es &&
  decide (f.order ≠ .relaxed) && (decide (f.sub = 0#6) || (decide (f.sub = 1#6) && decide (f.order = .acqRel)))

/-- mma (Tables 3.7, 11.2). -/
def mmaOk (c : Common) (f : FmtX) : Bool :=
  !c.w && !c.q && !c.l && [ElemTy.f16, .bf16, .i8, .e4m3, .e5m2, .e2m1].contains f.afmt &&
  (f.arrive || decide (f.bar = 0#4)) &&
  (decide (f.ascale = 0#11) || (decide (f.afmt ≠ .f16) && decide (f.afmt ≠ .bf16))) &&
  (!f.bcast || decide (f.mode = .acc))

/-- A control instruction (Table 5.3): which of SRCA, target, join target and SUBOP it uses, and whether it takes a
predicate. -/
def ctlOk (srca target join anyPred : Bool) (subOk : BitVec 8 → Bool) (c : Common) (f : FmtC) : Bool :=
  !c.w && !c.q && !c.l && (anyPred || noPred c) && (srca || decide (f.srca = 0#11)) &&
  (target || (decide (f.tdisp = 0#29) && decide (f.tslot = 0#3))) &&
  (join || (decide (f.jdisp = 0#21) && decide (f.jslot = 0#3))) && subOk f.sub

/-- An engine instruction: destination 0 none, 1 optional, 2 required; which operands and OBJ it uses; FLAGS. -/
def engOk (dst : Nat) (a b c3 obj : Bool) (flagsOk : Nat → Bool) (c : Common) (f : FmtE) : Bool :=
  !c.q && !c.l && (if dst = 0 then !c.w else if dst = 2 then c.w else true) && (c.w || decide (f.sdst = 0#11)) &&
  (a || decide (f.opa = 0#11)) && (b || decide (f.opb = 0#11)) && (c3 || decide (f.opc = 0#11)) &&
  (obj || decide (f.obj = 0#4)) && flagsOk f.flags.toNat

/-- Types of a reservation's format or of an `mma` operand (Tables 3.7, 10.5). -/
def tileCode (n : Nat) : Bool := decide (n = 5 ∨ n = 6 ∨ n = 9 ∨ n = 11 ∨ n = 12 ∨ n = 13)

def obresFlags (n : Nat) : Bool := tileCode (n % 16) && decide (n / 16 % 4 < 2) && decide (n < 128)

/-- ast (R218): type, .sat and rounding; f32 copies. -/
def astFlags (n : Nat) : Bool :=
  decide (n % 16 = 4 ∨ n % 16 = 5 ∨ n % 16 = 6 ∨ n % 16 = 11 ∨ n % 16 = 12 ∨ n % 16 = 13) &&
  decide (n / 32 ≤ 4) && (decide (n % 16 ≠ 4) || decide (n / 16 = 0))

/-- barinit (Tables 14.8, 14.9): the scope code by kind of object. -/
def barinitFlags (n : Nat) : Bool :=
  let k := n / 8 % 2; let g := n / 16 % 2; let s := n / 32
  decide (n % 8 = 0) && decide (s < 8) && (decide (g = 0) || decide (k = 1)) &&
  (if g = 1 then decide (s = 5 ∨ s = 6) else if k = 1 then decide (3 ≤ s ∧ s ≤ 6) else decide (1 ≤ s ∧ s ≤ 6))

/-- bar (Table 14.9): the operation of the row, and FLAGS [3]. -/
def barFlags (op n : Nat) : Bool := decide (n % 8 = op) && decide (n < 16)

/-- region (R46, R138). -/
def regionOk (c : Common) (f : FmtR) : Bool :=
  !c.w && !c.q && !c.l && noPred c && decide (f.n.toNat ≤ 4) && (decide (1 ≤ f.n.toNat) || decide (f.r0 = 0#16)) &&
  (decide (2 ≤ f.n.toNat) || decide (f.r1 = 0#16)) && (decide (3 ≤ f.n.toNat) || decide (f.r2 = 0#16)) &&
  (decide (4 ≤ f.n.toNat) || decide (f.r3 = 0#16))

end Wf

open Wf in
/-- Step 3 of R56 on the fields of an instruction; an event has none. -/
def Instr.fieldsOk : Instr → Bool
  | .nop c f => ctlOk false false false true (fun n => decide (n = 0#8)) c f
  | .br c f => ctlOk false true false false (fun n => decide (n = 0#8)) c f
  | .brc c f => ctlOk true true (f.sub.getLsbD 0) false (fun n => decide (n.toNat < 2)) c f
  | .brx c f => ctlOk true false false false (fun n => decide (n = 0#8)) c f
  | .call c f => ctlOk true true false false (fun n => decide (n = 0#8)) c f
  | .ret c f => ctlOk true false false false (fun n => decide (n = 0#8)) c f
  | .join c f => ctlOk false false false false (fun n => decide (n = 0#8)) c f
  | .loop c f => ctlOk true true false false (fun n => decide (n.toNat < 3)) c f
  | .exit c f => ctlOk false false false true (fun n => decide (n = 0#8)) c f
  | .tjoin c f => ctlOk false false false false (fun n => decide (n = 0#8)) c f
  | .region c f => regionOk c f
  | .yield c f => ctlOk false false false false (fun n => decide (n = 0#8)) c f
  | .trap c f => ctlOk true false false true (fun n => decide (n = 0#8)) c f
  | .bkpt c f => ctlOk false false false true (fun n => decide (n = 0#8)) c f
  | .mov c f => rowV (rr true false false [.i32, .i64] 0 dA (true, true)) c f && sub0 f
  | .movi c f => rowI false [.i32, .i64, .n64, .f32] 0 false [.dst] c f
  | .sel c f => rowV (rr true true false [.i32, .i64] 0 dAB (true, true)) c f && decide (f.sub.toNat < 16)
  | .kset c f => ksetOk c f
  | .kop c f =>
    rowV (rr true true false [.i32] 0 [] (false, false)) c f && c.w && !f.ea && !f.eb && decide (f.sub.toNat ≤ 4) && (decide (f.sub.toNat ≠ 4) || decide (f.b = 0#11))
  | .kmov c f =>
    rowV (rr true false false [.i32] 0 (if f.sub.getLsbD 0 then [.dst] else [.a]) (false, false)) c f && c.w && decide (f.sub.toNat < 4) && (!f.ea || !f.sub.getLsbD 0)
  | .xset c f => rowV (rr false true true [.i32] 0 [] (false, false)) c f && !c.w && decide (f.sub.toNat < 4)
  | .shfl c f => rowV (rr true true true [.i32, .i64] 0 dA (true, true)) c f && decide (f.sub.toNat < 4)
  | .vote c f => rowV (rr true false false [.i32] 0 dA (true, false)) c f && decide (f.sub.toNat < 4)
  | .gred c f => reduceOk c f false
  | .gscan c f => reduceOk c f true
  | .add c f => rowV (vr true false int4 0 true 2) c f && sub0 f
  | .sub c f => rowV (vr true false int4 0 true 2) c f && sub0 f
  | .mul c f => rowV (vr true false int4 0 true 2) c f && sub0 f
  | .mulhi c f => rowV (vr true false int4 0 false 2) c f && sub0 f
  | .mad c f => rowV (vr true true int4 0 true 2) c f && sub0 f
  | .madhi c f => rowV (vr true true int4 0 false 2) c f && sub0 f
  | .min c f => rowV (vr true false int4 0 false 2) c f && sub0 f
  | .max c f => rowV (vr true false int4 0 false 2) c f && sub0 f
  | .abs c f => rowV (vr false false [.i32, .i64] 0 true 0) c f && sub0 f
  | .neg c f => rowV (vr false false int4 0 (decide (f.ty = .i32) || decide (f.ty = .i64)) 0) c f && sub0 f
  | .and c f => rowV (vr true false int4 0 false 0) c f && sub0 f
  | .or c f => rowV (vr true false int4 0 false 0) c f && sub0 f
  | .xor c f => rowV (vr true false int4 0 false 0) c f && sub0 f
  | .not c f => rowV (vr false false int4 0 false 0) c f && sub0 f
  | .shl c f => rowV (vr true false int4 0 false 0) c f && sub0 f
  | .shr c f => rowV (vr true false int4 0 false 0) c f && sub0 f
  | .sar c f => rowV (vr true false int4 0 false 0) c f && sub0 f
  | .rot c f => rowV (vr true false int4 0 false 0) c f && sub0 f
  | .clz c f => rowV (vr false false int4 0 false 0) c f && sub0 f
  | .popc c f => rowV (vr false false int4 0 false 0) c f && sub0 f
  | .brev c f => rowV (vr false false int4 0 false 0) c f && sub0 f
  | .bfx c f => rowV (vr true false int4 0 false 0) c f && sub0 f
  | .bfi c f => rowV (vr true true int4 0 false 0) c f && sub0 f
  | .lea c f => rowV (vr true true int4 0 false 0) c f && sub0 f
  | .div c f => rowV (vr true false int4 0 false 2) c f && sub0 f
  | .rem c f => rowV (vr true false int4 0 false 2) c f && sub0 f
  | .addImm c f => rowI true int4 0 true dA c f
  | .subImm c f => rowI true int4 0 true dA c f
  | .mulImm c f => rowI true int4 0 true dA c f
  | .mulhiImm c f => rowI true int4 0 false dA c f
  | .madImm c f => rowI true int4 0 true dA c f
  | .madhiImm c f => rowI true int4 0 false dA c f
  | .minImm c f => rowI true int4 0 false dA c f
  | .maxImm c f => rowI true int4 0 false dA c f
  | .absImm c f => rowI false [.i32, .i64] 0 true [.dst] c f
  | .negImm c f => rowI false int4 0 (decide (f.ty = .i32) || decide (f.ty = .i64)) [.dst] c f
  | .andImm c f => rowI true int4 0 false dA c f
  | .orImm c f => rowI true int4 0 false dA c f
  | .xorImm c f => rowI true int4 0 false dA c f
  | .notImm c f => rowI false int4 0 false [.dst] c f
  | .shlImm c f => rowI true int4 0 false dA c f
  | .shrImm c f => rowI true int4 0 false dA c f
  | .sarImm c f => rowI true int4 0 false dA c f
  | .rotImm c f => rowI true int4 0 false dA c f
  | .clzImm c f => rowI false int4 0 false [.dst] c f
  | .popcImm c f => rowI false int4 0 false [.dst] c f
  | .brevImm c f => rowI false int4 0 false [.dst] c f
  | .bfxImm c f => rowI true int4 0 false dA c f
  | .bfiImm c f => rowI true int4 0 false dA c f
  | .leaImm c f => rowI true int4 0 false dA c f
  | .fadd c f => rowV (vr true false flt3 4 true 2) c f && sub0 f
  | .fsub c f => rowV (vr true false flt3 4 true 2) c f && sub0 f
  | .fmul c f => rowV (vr true false flt3 4 true 2) c f && sub0 f
  | .ffma c f => rowV (vr true true flt3 4 true 2) c f && sub0 f
  | .fmin c f => rowV (vr true false flt3 0 false 2) c f && sub0 f
  | .fmax c f => rowV (vr true false flt3 0 false 2) c f && sub0 f
  | .frcp c f => rowV (vr false false [.f32] 4 true 2) c f && sub0 f
  | .frsq c f => rowV (vr false false [.f32] 4 true 2) c f && sub0 f
  | .fsqrt c f => rowV (vr false false [.f32] 4 true 2) c f && sub0 f
  | .fexp2 c f => rowV (vr false false [.f32] 0 false 2) c f && sub0 f
  | .flog2 c f => rowV (vr false false [.f32] 0 false 2) c f && sub0 f
  | .fsin c f => rowV (vr false false [.f32] 0 false 2) c f && sub0 f
  | .fcos c f => rowV (vr false false [.f32] 0 false 2) c f && sub0 f
  | .fredpi c f => rowV { vr false false [.f32] 0 false 2 with isel := [.a], ql := (false, false) } c f && sub0 f
  | .frint c f => rowV (vr false false flt3 4 false 2) c f && sub0 f
  | .fclass c f => rowV (vr false false flt3 0 false 0) c f && sub0 f
  | .fscale c f => rowV (vr true false [.f32] 4 true 1) c f && sub0 f
  | .fgetexp c f => rowV (vr false false [.f32] 0 false 1) c f && sub0 f
  | .fdiv c f => rowV (vr true false [.f32] 4 true 2) c f && sub0 f
  | .faddImm c f => rowI true flt3 4 true dA c f
  | .fsubImm c f => rowI true flt3 4 true dA c f
  | .fmulImm c f => rowI true flt3 4 true dA c f
  | .ffmaImm c f => rowI true flt3 4 true dA c f
  | .fminImm c f => rowI true flt3 0 false dA c f
  | .fmaxImm c f => rowI true flt3 0 false dA c f
  | .hadd2 c f => rowV (vr true false [.f16, .bf16] 4 true 2) c f && sub0 f
  | .hmul2 c f => rowV (vr true false [.f16, .bf16] 4 true 2) c f && sub0 f
  | .hfma2 c f => rowV (vr true true [.f16, .bf16] 4 true 2) c f && sub0 f
  | .dot4 c f => rowV (vr true true [.i8, .n8, .e4m3, .e5m2] (if isFloat f.ty then 4 else 0) true 0) c f && sub0 f
  | .dot8 c f => rowV (vr true true [.i4, .e2m1] (if isFloat f.ty then 4 else 0) true 0) c f && sub1 f
  | .pack c f => rowV { vr false false packTys 5 true 0 with isel := [.dst] } c f && sub1 f
  | .unpack c f => rowV { vr false false packTys 0 false 0 with isel := [.a], ql := (false, false) } c f && sub1 f
  | .cvt c f => cvtOk c f codeTy
  | .bscale c f => bscaleOk c f
  | .bmax c f => bmaxOk c f
  | .ld c f => ldOk c f
  | .st c f => stOk c f
  | .lds c f => ldsOk c f
  | .sts c f => stsOk c f
  | .atom c f => atomOk c f
  | .red c f => redOk c f
  | .fence c f => fenceOk c f
  | .atoms c f => atomsOk c f
  | .obres c f => engOk 0 true true true true obresFlags c f
  | .obrel c f => engOk 0 false false false true (fun n => decide (n = 0)) c f
  | .aalloc c f => engOk 0 false false false true (fun n => decide (n = 0)) c f
  | .afree c f => engOk 0 false false false true (fun n => decide (n = 0)) c f
  | .mma c f => mmaOk c f
  | .ald c f => engOk 0 (!f.flags.getLsbD 0) (!f.flags.getLsbD 0) false true (fun n => decide (n < 2)) c f
  | .ast c f => engOk 0 true true (decide (11 ≤ f.flags.toNat % 16)) true astFlags c f
  | .mwait c f => engOk 0 false false false true (fun n => decide (n < 2)) c f
  | .mperturb c f => engOk 0 true true true true (fun n => decide (n = 0)) c f
  | .aget c f => engOk 2 true false false true (fun n => decide (n < 64)) c f
  | .claim c f => engOk 1 true false false true (fun n => decide (n < 2)) c f
  | .flow c f => engOk 1 true true false true (fun n => decide (n = 0)) c f
  | .cwait c f => engOk 0 false false false true (fun n => decide (n = 0)) c f
  | .crel c f => engOk 0 false false false true (fun n => decide (n = 0)) c f
  | .cstat c f => engOk 2 false false false true (fun n => decide (n < 2)) c f
  | .cbset c f => engOk 0 true true true true (fun n => decide (n = 0)) c f
  | .cbtake c f => engOk 1 false false false true (fun n => decide (n = 0)) c f
  | .cbgive c f => engOk 0 false false false true (fun n => decide (n = 0)) c f
  | .qbind c f => engOk 0 true false false true (fun n => decide (n = 0)) c f
  | .qunbind c f => engOk 0 false false false true (fun n => decide (n = 0)) c f
  | .qstat c f => engOk 2 false false false true (fun n => decide (n < 3)) c f
  | .barinit c f => engOk 0 true false false true barinitFlags c f
  | .nlaunch c f => engOk 1 true (f.flags.getLsbD 1) false false (fun n => decide (n < 4)) c f
  | .nwait c f => engOk 1 true false false false (fun n => decide (n = 0)) c f
  | .nstat c f => engOk 2 true false false false (fun n => decide (n = 0)) c f
  | .csrr c _ => c.w && !c.q && !c.l
  | .csrw c _ => !c.w && !c.q && !c.l
  | .tret c f => !c.w && !c.q && !c.l && noPred c && decide (f.reg = 0#11) && decide (f.csr = 0#16)
  | .barArrive c f => engOk 0 false false false true (barFlags 0) c f
  | .barWait c f => engOk 0 false false false true (barFlags 1) c f
  | .barTest c f => engOk 2 false false false true (barFlags 2) c f
  | .barDrop c f => engOk 0 false false false true (barFlags 3) c f
  | .matrixOpStart _ _ => true
  | .operandsConsumed _ _ => true
  | .matrixOpCompletion _ _ _ => true
  | .broadcastDelivery _ _ => true
  | .claimWalkEnd _ _ => true
  | .flowCompletion _ => true
  | .creditRequest _ => true
  | .creditGrant _ => true
  | .messageArrival _ => true
  | .registerFill _ => true
  | .strandAging _ _ _ => true
  | .scopeMismatchDetect _ => true
  | .icacheRefetch _ _ => true
  | .memoryRequest _ => true
  | .peerAccessRelay _ => true
  | .translationWalk _ => true
  | .s2qAnswerRetry _ _ => true
  | .s2qAnswerInvalid _ _ => true
  | .fqAnswerRetry _ _ => true
  | .fqAnswerInvalid _ _ => true
  | .s2qTailWrite _ _ => true
  | .fqtailWrite _ _ => true
  | .fqbaseWrite _ _ => true
  | .shootCommand _ _ _ _ => true
  | .s1shootCommand _ _ _ => true
  | .shootdownComplete _ => true
  | .pageReset _ _ => true
  | .migration _ _ _ => true
  | .preemptWorld _ => true
  | .preemptNode _ => true
  | .teamPreemptStart _ => true
  | .teamStateSave _ => true
  | .teamPlacement _ _ => true
  | .teamRestart _ _ => true
  | .bankWaitDeadlock _ => true
  | .timeSliceEnd _ _ => true
  | .notify _ _ => true
  | .queueSlotRotation _ => true
  | .launchAccept _ _ => true
  | .readyPoolAdmit _ _ => true
  | .priorityAging _ _ => true
  | .nodeDispatch _ _ => true
  | .dispatchWalkEnd _ => true
  | .spillReturn _ => true
  | .nodeCommit _ => true
  | .nodeEndByTrap _ => true
  | .launchEnd _ => true
  | .nodeReplay _ => true
  | .launchReplay _ => true
  | .patrolScrub _ => true
  | .multicastReceive _ _ _ _ => true
  | .partitionRecordWrite _ _ => true
  | .drmaskWrite _ _ _ => true
  | .mcastEntryWrite _ _ => true
  | .worldHalt _ => true
  | .worldResume _ => true
  | .waymaskWrite _ _ => true
  | .waymaskSweepComplete _ => true
  | .compartmentCreate _ => true
  | .revokeKey _ => true
  | .revocationDrainEnd _ => true
  | .installGate _ => true
  | .closeGate _ => true
  | .functionLevelReset _ => true
  | .flrDrainEnd _ => true
  | .getVersion _ => true
  | .getCapabilities _ => true
  | .negotiateAlgorithms _ _ _ => true
  | .getDigests _ => true
  | .getCertificate _ _ _ => true
  | .challenge _ _ => true
  | .getMeasurements _ _ _ => true
  | .keyExchange _ _ => true
  | .finish _ _ => true
  | .endSession _ => true
  | .readErrorLog _ => true
  | .readTelemetry => true
  | .setPackageId _ => true
  | .powerOn => true
  | .warmReset => true
  | .pcieConventionalReset => true
  | .standbyEntry _ => true
  | .standbyPowerLoss => true
  | .throttleStepDown => true
  | .throttleStepUp => true
  | .criticalTemperature _ => true
  | .linkRetry _ => true
  | .laneFailover _ => true
  | .linkRekey _ => true
  | .pathLost _ _ => true
  | .registerWrite _ _ _ => true
  | .hostCancellation _ _ _ => true
  | .worldCreation _ _ => true
  | .pcieConfigurationRequest _ => true

/-- The scope of an encoded instruction; an event has none. -/
def Instr.scopeOf : Instr → Option Common
  | .nop c _ => some c
  | .br c _ => some c
  | .brc c _ => some c
  | .brx c _ => some c
  | .call c _ => some c
  | .ret c _ => some c
  | .join c _ => some c
  | .loop c _ => some c
  | .exit c _ => some c
  | .tjoin c _ => some c
  | .region c _ => some c
  | .yield c _ => some c
  | .trap c _ => some c
  | .bkpt c _ => some c
  | .mov c _ => some c
  | .movi c _ => some c
  | .sel c _ => some c
  | .kset c _ => some c
  | .kop c _ => some c
  | .kmov c _ => some c
  | .xset c _ => some c
  | .shfl c _ => some c
  | .vote c _ => some c
  | .gred c _ => some c
  | .gscan c _ => some c
  | .add c _ => some c
  | .sub c _ => some c
  | .mul c _ => some c
  | .mulhi c _ => some c
  | .mad c _ => some c
  | .madhi c _ => some c
  | .min c _ => some c
  | .max c _ => some c
  | .abs c _ => some c
  | .neg c _ => some c
  | .and c _ => some c
  | .or c _ => some c
  | .xor c _ => some c
  | .not c _ => some c
  | .shl c _ => some c
  | .shr c _ => some c
  | .sar c _ => some c
  | .rot c _ => some c
  | .clz c _ => some c
  | .popc c _ => some c
  | .brev c _ => some c
  | .bfx c _ => some c
  | .bfi c _ => some c
  | .lea c _ => some c
  | .div c _ => some c
  | .rem c _ => some c
  | .addImm c _ => some c
  | .subImm c _ => some c
  | .mulImm c _ => some c
  | .mulhiImm c _ => some c
  | .madImm c _ => some c
  | .madhiImm c _ => some c
  | .minImm c _ => some c
  | .maxImm c _ => some c
  | .absImm c _ => some c
  | .negImm c _ => some c
  | .andImm c _ => some c
  | .orImm c _ => some c
  | .xorImm c _ => some c
  | .notImm c _ => some c
  | .shlImm c _ => some c
  | .shrImm c _ => some c
  | .sarImm c _ => some c
  | .rotImm c _ => some c
  | .clzImm c _ => some c
  | .popcImm c _ => some c
  | .brevImm c _ => some c
  | .bfxImm c _ => some c
  | .bfiImm c _ => some c
  | .leaImm c _ => some c
  | .fadd c _ => some c
  | .fsub c _ => some c
  | .fmul c _ => some c
  | .ffma c _ => some c
  | .fmin c _ => some c
  | .fmax c _ => some c
  | .frcp c _ => some c
  | .frsq c _ => some c
  | .fsqrt c _ => some c
  | .fexp2 c _ => some c
  | .flog2 c _ => some c
  | .fsin c _ => some c
  | .fcos c _ => some c
  | .fredpi c _ => some c
  | .frint c _ => some c
  | .fclass c _ => some c
  | .fscale c _ => some c
  | .fgetexp c _ => some c
  | .fdiv c _ => some c
  | .faddImm c _ => some c
  | .fsubImm c _ => some c
  | .fmulImm c _ => some c
  | .ffmaImm c _ => some c
  | .fminImm c _ => some c
  | .fmaxImm c _ => some c
  | .hadd2 c _ => some c
  | .hmul2 c _ => some c
  | .hfma2 c _ => some c
  | .dot4 c _ => some c
  | .dot8 c _ => some c
  | .pack c _ => some c
  | .unpack c _ => some c
  | .cvt c _ => some c
  | .bscale c _ => some c
  | .bmax c _ => some c
  | .ld c _ => some c
  | .st c _ => some c
  | .lds c _ => some c
  | .sts c _ => some c
  | .atom c _ => some c
  | .red c _ => some c
  | .fence c _ => some c
  | .atoms c _ => some c
  | .obres c _ => some c
  | .obrel c _ => some c
  | .aalloc c _ => some c
  | .afree c _ => some c
  | .mma c _ => some c
  | .ald c _ => some c
  | .ast c _ => some c
  | .mwait c _ => some c
  | .mperturb c _ => some c
  | .aget c _ => some c
  | .claim c _ => some c
  | .flow c _ => some c
  | .cwait c _ => some c
  | .crel c _ => some c
  | .cstat c _ => some c
  | .cbset c _ => some c
  | .cbtake c _ => some c
  | .cbgive c _ => some c
  | .qbind c _ => some c
  | .qunbind c _ => some c
  | .qstat c _ => some c
  | .barinit c _ => some c
  | .nlaunch c _ => some c
  | .nwait c _ => some c
  | .nstat c _ => some c
  | .csrr c _ => some c
  | .csrw c _ => some c
  | .tret c _ => some c
  | .barArrive c _ => some c
  | .barWait c _ => some c
  | .barTest c _ => some c
  | .barDrop c _ => some c
  | .matrixOpStart _ _ => none
  | .operandsConsumed _ _ => none
  | .matrixOpCompletion _ _ _ => none
  | .broadcastDelivery _ _ => none
  | .claimWalkEnd _ _ => none
  | .flowCompletion _ => none
  | .creditRequest _ => none
  | .creditGrant _ => none
  | .messageArrival _ => none
  | .registerFill _ => none
  | .strandAging _ _ _ => none
  | .scopeMismatchDetect _ => none
  | .icacheRefetch _ _ => none
  | .memoryRequest _ => none
  | .peerAccessRelay _ => none
  | .translationWalk _ => none
  | .s2qAnswerRetry _ _ => none
  | .s2qAnswerInvalid _ _ => none
  | .fqAnswerRetry _ _ => none
  | .fqAnswerInvalid _ _ => none
  | .s2qTailWrite _ _ => none
  | .fqtailWrite _ _ => none
  | .fqbaseWrite _ _ => none
  | .shootCommand _ _ _ _ => none
  | .s1shootCommand _ _ _ => none
  | .shootdownComplete _ => none
  | .pageReset _ _ => none
  | .migration _ _ _ => none
  | .preemptWorld _ => none
  | .preemptNode _ => none
  | .teamPreemptStart _ => none
  | .teamStateSave _ => none
  | .teamPlacement _ _ => none
  | .teamRestart _ _ => none
  | .bankWaitDeadlock _ => none
  | .timeSliceEnd _ _ => none
  | .notify _ _ => none
  | .queueSlotRotation _ => none
  | .launchAccept _ _ => none
  | .readyPoolAdmit _ _ => none
  | .priorityAging _ _ => none
  | .nodeDispatch _ _ => none
  | .dispatchWalkEnd _ => none
  | .spillReturn _ => none
  | .nodeCommit _ => none
  | .nodeEndByTrap _ => none
  | .launchEnd _ => none
  | .nodeReplay _ => none
  | .launchReplay _ => none
  | .patrolScrub _ => none
  | .multicastReceive _ _ _ _ => none
  | .partitionRecordWrite _ _ => none
  | .drmaskWrite _ _ _ => none
  | .mcastEntryWrite _ _ => none
  | .worldHalt _ => none
  | .worldResume _ => none
  | .waymaskWrite _ _ => none
  | .waymaskSweepComplete _ => none
  | .compartmentCreate _ => none
  | .revokeKey _ => none
  | .revocationDrainEnd _ => none
  | .installGate _ => none
  | .closeGate _ => none
  | .functionLevelReset _ => none
  | .flrDrainEnd _ => none
  | .getVersion _ => none
  | .getCapabilities _ => none
  | .negotiateAlgorithms _ _ _ => none
  | .getDigests _ => none
  | .getCertificate _ _ _ => none
  | .challenge _ _ => none
  | .getMeasurements _ _ _ => none
  | .keyExchange _ _ => none
  | .finish _ _ => none
  | .endSession _ => none
  | .readErrorLog _ => none
  | .readTelemetry => none
  | .setPackageId _ => none
  | .powerOn => none
  | .warmReset => none
  | .pcieConventionalReset => none
  | .standbyEntry _ => none
  | .standbyPowerLoss => none
  | .throttleStepDown => none
  | .throttleStepUp => none
  | .criticalTemperature _ => none
  | .linkRetry _ => none
  | .laneFailover _ => none
  | .linkRekey _ => none
  | .pathLost _ _ => none
  | .registerWrite _ _ _ => none
  | .hostCancellation _ _ _ => none
  | .worldCreation _ _ => none
  | .pcieConfigurationRequest _ => none

/-- The classes of accepted scopes (R80, R128, R155, R190, R194, R216, R249, R270, R292, R314, R337, R350). -/
inductive ScopeClass where
  | laneOnly | teamOnly | groupOnly | wide | setTeam | any
  deriving DecidableEq, Repr

/-- The scopes an instruction accepts. -/
def Instr.scopeClass : Instr → ScopeClass
  | .nop _ _ => .laneOnly
  | .br _ _ => .laneOnly
  | .brc _ _ => .laneOnly
  | .brx _ _ => .laneOnly
  | .call _ _ => .laneOnly
  | .ret _ _ => .laneOnly
  | .join _ _ => .laneOnly
  | .loop _ _ => .laneOnly
  | .exit _ _ => .laneOnly
  | .tjoin _ _ => .teamOnly
  | .region _ _ => .laneOnly
  | .yield _ _ => .teamOnly
  | .trap _ _ => .any
  | .bkpt _ _ => .any
  | .mov _ _ => .any
  | .movi _ _ => .any
  | .sel _ _ => .any
  | .kset _ _ => .any
  | .kop _ _ => .any
  | .kmov _ f => (if f.sub.toNat < 2 then .any else .groupOnly)
  | .xset _ _ => .groupOnly
  | .shfl _ _ => .groupOnly
  | .vote _ _ => .wide
  | .gred _ _ => .wide
  | .gscan _ _ => .wide
  | .add _ _ => .any
  | .sub _ _ => .any
  | .mul _ _ => .any
  | .mulhi _ _ => .any
  | .mad _ _ => .any
  | .madhi _ _ => .any
  | .min _ _ => .any
  | .max _ _ => .any
  | .abs _ _ => .any
  | .neg _ _ => .any
  | .and _ _ => .any
  | .or _ _ => .any
  | .xor _ _ => .any
  | .not _ _ => .any
  | .shl _ _ => .any
  | .shr _ _ => .any
  | .sar _ _ => .any
  | .rot _ _ => .any
  | .clz _ _ => .any
  | .popc _ _ => .any
  | .brev _ _ => .any
  | .bfx _ _ => .any
  | .bfi _ _ => .any
  | .lea _ _ => .any
  | .div _ _ => .any
  | .rem _ _ => .any
  | .addImm _ _ => .any
  | .subImm _ _ => .any
  | .mulImm _ _ => .any
  | .mulhiImm _ _ => .any
  | .madImm _ _ => .any
  | .madhiImm _ _ => .any
  | .minImm _ _ => .any
  | .maxImm _ _ => .any
  | .absImm _ _ => .any
  | .negImm _ _ => .any
  | .andImm _ _ => .any
  | .orImm _ _ => .any
  | .xorImm _ _ => .any
  | .notImm _ _ => .any
  | .shlImm _ _ => .any
  | .shrImm _ _ => .any
  | .sarImm _ _ => .any
  | .rotImm _ _ => .any
  | .clzImm _ _ => .any
  | .popcImm _ _ => .any
  | .brevImm _ _ => .any
  | .bfxImm _ _ => .any
  | .bfiImm _ _ => .any
  | .leaImm _ _ => .any
  | .fadd _ _ => .any
  | .fsub _ _ => .any
  | .fmul _ _ => .any
  | .ffma _ _ => .any
  | .fmin _ _ => .any
  | .fmax _ _ => .any
  | .frcp _ _ => .any
  | .frsq _ _ => .any
  | .fsqrt _ _ => .any
  | .fexp2 _ _ => .any
  | .flog2 _ _ => .any
  | .fsin _ _ => .any
  | .fcos _ _ => .any
  | .fredpi _ _ => .any
  | .frint _ _ => .any
  | .fclass _ _ => .any
  | .fscale _ _ => .any
  | .fgetexp _ _ => .any
  | .fdiv _ _ => .any
  | .faddImm _ _ => .any
  | .fsubImm _ _ => .any
  | .fmulImm _ _ => .any
  | .ffmaImm _ _ => .any
  | .fminImm _ _ => .any
  | .fmaxImm _ _ => .any
  | .hadd2 _ _ => .any
  | .hmul2 _ _ => .any
  | .hfma2 _ _ => .any
  | .dot4 _ _ => .any
  | .dot8 _ _ => .any
  | .pack _ _ => .any
  | .unpack _ _ => .any
  | .cvt _ _ => .any
  | .bscale _ _ => .any
  | .bmax _ _ => .any
  | .ld _ _ => .any
  | .st _ _ => .any
  | .lds _ _ => .any
  | .sts _ _ => .any
  | .atom _ _ => .any
  | .red _ _ => .any
  | .fence _ _ => .any
  | .atoms _ _ => .any
  | .obres _ _ => .setTeam
  | .obrel _ _ => .setTeam
  | .aalloc _ _ => .setTeam
  | .afree _ _ => .setTeam
  | .mma _ _ => .setTeam
  | .ald _ _ => .setTeam
  | .ast _ _ => .setTeam
  | .mwait _ _ => .wide
  | .mperturb _ _ => .setTeam
  | .aget _ _ => .setTeam
  | .claim _ _ => .wide
  | .flow _ _ => .wide
  | .cwait _ _ => .wide
  | .crel _ _ => .wide
  | .cstat _ _ => .wide
  | .cbset _ _ => .wide
  | .cbtake _ _ => .wide
  | .cbgive _ _ => .wide
  | .qbind _ _ => .wide
  | .qunbind _ _ => .wide
  | .qstat _ _ => .wide
  | .barinit _ _ => .setTeam
  | .nlaunch _ _ => .wide
  | .nwait _ _ => .teamOnly
  | .nstat _ _ => .wide
  | .csrr _ _ => .any
  | .csrw _ _ => .any
  | .tret _ _ => .laneOnly
  | .barArrive _ _ => .wide
  | .barWait _ _ => .wide
  | .barTest _ _ => .wide
  | .barDrop _ _ => .wide
  | .matrixOpStart _ _ => .any
  | .operandsConsumed _ _ => .any
  | .matrixOpCompletion _ _ _ => .any
  | .broadcastDelivery _ _ => .any
  | .claimWalkEnd _ _ => .any
  | .flowCompletion _ => .any
  | .creditRequest _ => .any
  | .creditGrant _ => .any
  | .messageArrival _ => .any
  | .registerFill _ => .any
  | .strandAging _ _ _ => .any
  | .scopeMismatchDetect _ => .any
  | .icacheRefetch _ _ => .any
  | .memoryRequest _ => .any
  | .peerAccessRelay _ => .any
  | .translationWalk _ => .any
  | .s2qAnswerRetry _ _ => .any
  | .s2qAnswerInvalid _ _ => .any
  | .fqAnswerRetry _ _ => .any
  | .fqAnswerInvalid _ _ => .any
  | .s2qTailWrite _ _ => .any
  | .fqtailWrite _ _ => .any
  | .fqbaseWrite _ _ => .any
  | .shootCommand _ _ _ _ => .any
  | .s1shootCommand _ _ _ => .any
  | .shootdownComplete _ => .any
  | .pageReset _ _ => .any
  | .migration _ _ _ => .any
  | .preemptWorld _ => .any
  | .preemptNode _ => .any
  | .teamPreemptStart _ => .any
  | .teamStateSave _ => .any
  | .teamPlacement _ _ => .any
  | .teamRestart _ _ => .any
  | .bankWaitDeadlock _ => .any
  | .timeSliceEnd _ _ => .any
  | .notify _ _ => .any
  | .queueSlotRotation _ => .any
  | .launchAccept _ _ => .any
  | .readyPoolAdmit _ _ => .any
  | .priorityAging _ _ => .any
  | .nodeDispatch _ _ => .any
  | .dispatchWalkEnd _ => .any
  | .spillReturn _ => .any
  | .nodeCommit _ => .any
  | .nodeEndByTrap _ => .any
  | .launchEnd _ => .any
  | .nodeReplay _ => .any
  | .launchReplay _ => .any
  | .patrolScrub _ => .any
  | .multicastReceive _ _ _ _ => .any
  | .partitionRecordWrite _ _ => .any
  | .drmaskWrite _ _ _ => .any
  | .mcastEntryWrite _ _ => .any
  | .worldHalt _ => .any
  | .worldResume _ => .any
  | .waymaskWrite _ _ => .any
  | .waymaskSweepComplete _ => .any
  | .compartmentCreate _ => .any
  | .revokeKey _ => .any
  | .revocationDrainEnd _ => .any
  | .installGate _ => .any
  | .closeGate _ => .any
  | .functionLevelReset _ => .any
  | .flrDrainEnd _ => .any
  | .getVersion _ => .any
  | .getCapabilities _ => .any
  | .negotiateAlgorithms _ _ _ => .any
  | .getDigests _ => .any
  | .getCertificate _ _ _ => .any
  | .challenge _ _ => .any
  | .getMeasurements _ _ _ => .any
  | .keyExchange _ _ => .any
  | .finish _ _ => .any
  | .endSession _ => .any
  | .readErrorLog _ => .any
  | .readTelemetry => .any
  | .setPackageId _ => .any
  | .powerOn => .any
  | .warmReset => .any
  | .pcieConventionalReset => .any
  | .standbyEntry _ => .any
  | .standbyPowerLoss => .any
  | .throttleStepDown => .any
  | .throttleStepUp => .any
  | .criticalTemperature _ => .any
  | .linkRetry _ => .any
  | .laneFailover _ => .any
  | .linkRekey _ => .any
  | .pathLost _ _ => .any
  | .registerWrite _ _ _ => .any
  | .hostCancellation _ _ _ => .any
  | .worldCreation _ _ => .any
  | .pcieConfigurationRequest _ => .any

/-- A class accepts a scope. -/
def ScopeClass.accepts : ScopeClass → Scope → Bool
  | .laneOnly, .lane => true
  | .teamOnly, .team => true
  | .groupOnly, .group => true
  | .wide, .group => true
  | .wide, .set _ => true
  | .wide, .team => true
  | .setTeam, .set _ => true
  | .setTeam, .team => true
  | .any, _ => true
  | _, _ => false

/-- The static part of step 4 of R56. -/
def Instr.scopeOk (i : Instr) : Bool :=
  match i.scopeOf with
  | none => true
  | some c => i.scopeClass.accepts c.scope

/-- Step 2 of R56 on the fields: a target slot that the instruction uses is 0 to 4 (R44). -/
def Instr.targetsOk : Instr → Bool
  | .br _ f => decide (f.tslot.toNat < 5)
  | .brc _ f => decide (f.tslot.toNat < 5) && (!f.sub.getLsbD 0 || decide (f.jslot.toNat < 5))
  | .call _ f => decide (f.tslot.toNat < 5)
  | .loop _ f => decide (f.tslot.toNat < 5)
  | _ => true

/-- An instruction that the decoder can answer. -/
def Instr.wf (i : Instr) : Bool := i.targetsOk && i.fieldsOk && i.scopeOk

end Sys2Proof
end

