-- ==== Sys2Proof/Decode.lean ====
section
/-! DEFINITION. The decoder and the encoder of the 96-bit instructions (spec/03_encoding.md). `decode` makes steps 2
and 3 of R56 and the scope check of step 4 that needs no state; what depends on the node (declared sets, the register
allocation, reserved operands) is checked when the instruction is issued (Machine/Operands.lean). -/

namespace Sys2Proof

/-- Why a word is no instruction: the first step of R56 that it fails. -/
inductive DecodeError where
  | illegalTarget | illegalOp | illegalScope
  deriving DecidableEq, Repr

namespace Decode

/-- Field [hi:lo] of a word. -/
abbrev field (w : BitVec 96) (lo n : Nat) : BitVec n := w.extractLsb' lo n
/-- Bit i of a word. -/
abbrev bit (w : BitVec 96) (i : Nat) : Bool := w.getLsbD i

def tyOf (n : BitVec 4) : ElemTy :=
  match n.toNat with
  | 0 => .i32 | 1 => .n32 | 2 => .i64 | 3 => .n64 | 4 => .f32 | 5 => .f16 | 6 => .bf16 | 7 => .i16
  | 8 => .n16 | 9 => .i8 | 10 => .n8 | 11 => .e4m3 | 12 => .e5m2 | 13 => .e2m1 | 14 => .e8m0 | _ => .i4

/-- Rounding codes 101 to 111 are none (R53). -/
def rndOf (n : BitVec 3) : Option Rnd :=
  match n.toNat with
  | 0 => some .rne | 1 => some .rz | 2 => some .ru | 3 => some .rd | 4 => some .rdi | _ => none

def iselOf (n : BitVec 2) : ISel :=
  match n.toNat with
  | 0 => .none | 1 => .dst | 2 => .a | _ => .b

/-- Widths 5 to 15 are none (Table 3.6). -/
def widthOf (n : BitVec 4) : Option Width :=
  match n.toNat with
  | 0 => some .b1 | 1 => some .b2 | 2 => some .b4 | 3 => some .b8 | 4 => some .b16 | _ => none

def mscopeOf (n : BitVec 3) : MScope :=
  match n.toNat with
  | 0 => .grp | 1 => .team | 2 => .core | 3 => .clu | 4 => .die | 5 => .pkg | 6 => .dom | _ => .sys

def orderOf (n : BitVec 2) : MOrder :=
  match n.toNat with
  | 0 => .relaxed | 1 => .acquire | 2 => .release | _ => .acqRel

def hintOf (n : BitVec 2) : Hint :=
  match n.toNat with
  | 0 => .normal | 1 => .stream | 2 => .keep | _ => .noL1

def modeOf (n : BitVec 2) : Option MmaMode :=
  match n.toNat with
  | 0 => some .acc | 1 => some .ow | 2 => some .zo | _ => none

/-- SCOPE and SET; SET non-zero with another scope is none (Table 3.2). -/
def scopeOf (sc : BitVec 2) (set : BitVec 3) : Option Scope :=
  match sc.toNat with
  | 2 => some (.set set)
  | 0 => if set = 0 then some .lane else none
  | 1 => if set = 0 then some .group else none
  | _ => if set = 0 then some .team else none

def commonOf (w : BitVec 96) : Option Common :=
  (scopeOf (field w 85 2) (field w 82 3)).map fun s =>
    { scope := s, w := bit w 81, q := bit w 80, l := bit w 79, pneg := bit w 78, pred := field w 75 3 }

/-- Format V (Table 3.4). -/
def fmtV (w : BitVec 96) : Option FmtV :=
  (rndOf (field w 17 3)).map fun r =>
    { dst := field w 64 11, a := field w 53 11, b := field w 42 11, c := field w 31 11,
      ea := bit w 30, eb := bit w 29, ec := bit w 28, isel := iselOf (field w 26 2), ireg := field w 24 2,
      ty := tyOf (field w 20 4), rnd := r, sat := bit w 16, na := bit w 15, nb := bit w 14, nc := bit w 13,
      aa := bit w 12, ab := bit w 11, ac := bit w 10, qsel := field w 7 3, lslot := field w 5 2, sub := field w 0 5 }

/-- Format I (Table 3.5). -/
def fmtI (w : BitVec 96) : Option FmtI :=
  (rndOf (field w 17 3)).map fun r =>
    { dst := field w 64 11, a := field w 53 11, imm := field w 21 32, ea := bit w 20, rnd := r, sat := bit w 16,
      ty := tyOf (field w 12 4), isel := iselOf (field w 10 2), ireg := field w 8 2, qsel := field w 5 3,
      sub := field w 0 5 }

/-- Format M (Table 3.6). -/
def fmtM (w : BitVec 96) : Option FmtM :=
  (widthOf (field w 16 4)).map fun wd =>
    { data := field w 64 11, addr := field w 53 11, second := field w 42 11, offset := field w 20 22, width := wd,
      mscope := mscopeOf (field w 13 3), order := orderOf (field w 11 2), hint := hintOf (field w 9 2),
      ed := bit w 8, ea := bit w 7, es := bit w 6, sub := field w 0 6 }

/-- Format X (Table 3.7): SHAPE and bits [11:0] are zero. -/
def fmtX (w : BitVec 96) : Option FmtX :=
  if field w 25 4 = 0#4 ∧ field w 0 12 = 0#12 then
    (modeOf (field w 19 2)).map fun m =>
      { acc := field w 71 4, abase := field w 60 11, ascale := field w 49 11, bres := field w 45 4,
        boff := field w 29 16, afmt := tyOf (field w 21 4), mode := m, reuse := bit w 18, bcast := bit w 17,
        arrive := bit w 16, bar := field w 12 4 }
  else none

/-- Format C (Table 3.8). -/
def fmtC (w : BitVec 96) : FmtC :=
  { srca := field w 64 11, tdisp := field w 35 29, tslot := field w 32 3, jdisp := field w 11 21,
    jslot := field w 8 3, sub := field w 0 8 }

/-- Format E (Table 3.9). -/
def fmtE (w : BitVec 96) : FmtE :=
  { sdst := field w 64 11, opa := field w 53 11, opb := field w 42 11, opc := field w 31 11, obj := field w 27 4,
    flags := field w 0 27 }

/-- The fields of `region` (R46). -/
def fmtR (w : BitVec 96) : FmtR :=
  { n := field w 64 11, r0 := field w 0 16, r1 := field w 16 16, r2 := field w 32 16, r3 := field w 48 16 }

/-- Format S (Table 3.10): bits [47:0] are zero. -/
def fmtS (w : BitVec 96) : Option FmtS :=
  if field w 0 48 = 0#48 then some { reg := field w 64 11, csr := field w 48 16 } else none

/-- The instruction of an opcode (Table 3.16); none for an unassigned opcode (R55) or a field that its format does
not define. The four `bar` rows share opcode 0x141 and differ in FLAGS [2:0] (Table 14.9). -/
def raw (w : BitVec 96) : Option Instr :=
  (commonOf w).bind fun c =>
  match (field w 87 9).toNat with
  | 0x000 => some (Instr.nop c (fmtC w))
  | 0x001 => some (Instr.br c (fmtC w))
  | 0x002 => some (Instr.brc c (fmtC w))
  | 0x003 => some (Instr.brx c (fmtC w))
  | 0x004 => some (Instr.call c (fmtC w))
  | 0x005 => some (Instr.ret c (fmtC w))
  | 0x006 => some (Instr.join c (fmtC w))
  | 0x007 => some (Instr.loop c (fmtC w))
  | 0x008 => some (Instr.exit c (fmtC w))
  | 0x009 => some (Instr.tjoin c (fmtC w))
  | 0x00A => some (Instr.region c (fmtR w))
  | 0x00B => some (Instr.yield c (fmtC w))
  | 0x00C => some (Instr.trap c (fmtC w))
  | 0x00D => some (Instr.bkpt c (fmtC w))
  | 0x020 => (fmtV w).map (Instr.mov c)
  | 0x021 => (fmtI w).map (Instr.movi c)
  | 0x022 => (fmtV w).map (Instr.sel c)
  | 0x023 => (fmtV w).map (Instr.kset c)
  | 0x024 => (fmtV w).map (Instr.kop c)
  | 0x025 => (fmtV w).map (Instr.kmov c)
  | 0x026 => (fmtV w).map (Instr.xset c)
  | 0x027 => (fmtV w).map (Instr.shfl c)
  | 0x028 => (fmtV w).map (Instr.vote c)
  | 0x029 => (fmtV w).map (Instr.gred c)
  | 0x02A => (fmtV w).map (Instr.gscan c)
  | 0x040 => (fmtV w).map (Instr.add c)
  | 0x041 => (fmtV w).map (Instr.sub c)
  | 0x042 => (fmtV w).map (Instr.mul c)
  | 0x043 => (fmtV w).map (Instr.mulhi c)
  | 0x044 => (fmtV w).map (Instr.mad c)
  | 0x045 => (fmtV w).map (Instr.madhi c)
  | 0x046 => (fmtV w).map (Instr.min c)
  | 0x047 => (fmtV w).map (Instr.max c)
  | 0x048 => (fmtV w).map (Instr.abs c)
  | 0x049 => (fmtV w).map (Instr.neg c)
  | 0x04A => (fmtV w).map (Instr.and c)
  | 0x04B => (fmtV w).map (Instr.or c)
  | 0x04C => (fmtV w).map (Instr.xor c)
  | 0x04D => (fmtV w).map (Instr.not c)
  | 0x04E => (fmtV w).map (Instr.shl c)
  | 0x04F => (fmtV w).map (Instr.shr c)
  | 0x050 => (fmtV w).map (Instr.sar c)
  | 0x051 => (fmtV w).map (Instr.rot c)
  | 0x052 => (fmtV w).map (Instr.clz c)
  | 0x053 => (fmtV w).map (Instr.popc c)
  | 0x054 => (fmtV w).map (Instr.brev c)
  | 0x055 => (fmtV w).map (Instr.bfx c)
  | 0x056 => (fmtV w).map (Instr.bfi c)
  | 0x057 => (fmtV w).map (Instr.lea c)
  | 0x058 => (fmtV w).map (Instr.div c)
  | 0x059 => (fmtV w).map (Instr.rem c)
  | 0x060 => (fmtI w).map (Instr.addImm c)
  | 0x061 => (fmtI w).map (Instr.subImm c)
  | 0x062 => (fmtI w).map (Instr.mulImm c)
  | 0x063 => (fmtI w).map (Instr.mulhiImm c)
  | 0x064 => (fmtI w).map (Instr.madImm c)
  | 0x065 => (fmtI w).map (Instr.madhiImm c)
  | 0x066 => (fmtI w).map (Instr.minImm c)
  | 0x067 => (fmtI w).map (Instr.maxImm c)
  | 0x068 => (fmtI w).map (Instr.absImm c)
  | 0x069 => (fmtI w).map (Instr.negImm c)
  | 0x06A => (fmtI w).map (Instr.andImm c)
  | 0x06B => (fmtI w).map (Instr.orImm c)
  | 0x06C => (fmtI w).map (Instr.xorImm c)
  | 0x06D => (fmtI w).map (Instr.notImm c)
  | 0x06E => (fmtI w).map (Instr.shlImm c)
  | 0x06F => (fmtI w).map (Instr.shrImm c)
  | 0x070 => (fmtI w).map (Instr.sarImm c)
  | 0x071 => (fmtI w).map (Instr.rotImm c)
  | 0x072 => (fmtI w).map (Instr.clzImm c)
  | 0x073 => (fmtI w).map (Instr.popcImm c)
  | 0x074 => (fmtI w).map (Instr.brevImm c)
  | 0x075 => (fmtI w).map (Instr.bfxImm c)
  | 0x076 => (fmtI w).map (Instr.bfiImm c)
  | 0x077 => (fmtI w).map (Instr.leaImm c)
  | 0x080 => (fmtV w).map (Instr.fadd c)
  | 0x081 => (fmtV w).map (Instr.fsub c)
  | 0x082 => (fmtV w).map (Instr.fmul c)
  | 0x083 => (fmtV w).map (Instr.ffma c)
  | 0x084 => (fmtV w).map (Instr.fmin c)
  | 0x085 => (fmtV w).map (Instr.fmax c)
  | 0x086 => (fmtV w).map (Instr.frcp c)
  | 0x087 => (fmtV w).map (Instr.frsq c)
  | 0x088 => (fmtV w).map (Instr.fsqrt c)
  | 0x089 => (fmtV w).map (Instr.fexp2 c)
  | 0x08A => (fmtV w).map (Instr.flog2 c)
  | 0x08B => (fmtV w).map (Instr.fsin c)
  | 0x08C => (fmtV w).map (Instr.fcos c)
  | 0x08D => (fmtV w).map (Instr.fredpi c)
  | 0x08E => (fmtV w).map (Instr.frint c)
  | 0x08F => (fmtV w).map (Instr.fclass c)
  | 0x090 => (fmtV w).map (Instr.fscale c)
  | 0x091 => (fmtV w).map (Instr.fgetexp c)
  | 0x092 => (fmtV w).map (Instr.fdiv c)
  | 0x0A0 => (fmtI w).map (Instr.faddImm c)
  | 0x0A1 => (fmtI w).map (Instr.fsubImm c)
  | 0x0A2 => (fmtI w).map (Instr.fmulImm c)
  | 0x0A3 => (fmtI w).map (Instr.ffmaImm c)
  | 0x0A4 => (fmtI w).map (Instr.fminImm c)
  | 0x0A5 => (fmtI w).map (Instr.fmaxImm c)
  | 0x0C0 => (fmtV w).map (Instr.hadd2 c)
  | 0x0C1 => (fmtV w).map (Instr.hmul2 c)
  | 0x0C2 => (fmtV w).map (Instr.hfma2 c)
  | 0x0C3 => (fmtV w).map (Instr.dot4 c)
  | 0x0C4 => (fmtV w).map (Instr.dot8 c)
  | 0x0C5 => (fmtV w).map (Instr.pack c)
  | 0x0C6 => (fmtV w).map (Instr.unpack c)
  | 0x0C7 => (fmtV w).map (Instr.cvt c)
  | 0x0C8 => (fmtV w).map (Instr.bscale c)
  | 0x0C9 => (fmtV w).map (Instr.bmax c)
  | 0x0E0 => (fmtM w).map (Instr.ld c)
  | 0x0E1 => (fmtM w).map (Instr.st c)
  | 0x0E2 => (fmtM w).map (Instr.lds c)
  | 0x0E3 => (fmtM w).map (Instr.sts c)
  | 0x0E4 => (fmtM w).map (Instr.atom c)
  | 0x0E5 => (fmtM w).map (Instr.red c)
  | 0x0E6 => (fmtM w).map (Instr.fence c)
  | 0x0E7 => (fmtM w).map (Instr.atoms c)
  | 0x100 => some (Instr.obres c (fmtE w))
  | 0x101 => some (Instr.obrel c (fmtE w))
  | 0x102 => some (Instr.aalloc c (fmtE w))
  | 0x103 => some (Instr.afree c (fmtE w))
  | 0x104 => (fmtX w).map (Instr.mma c)
  | 0x105 => some (Instr.ald c (fmtE w))
  | 0x106 => some (Instr.ast c (fmtE w))
  | 0x107 => some (Instr.mwait c (fmtE w))
  | 0x108 => some (Instr.mperturb c (fmtE w))
  | 0x109 => some (Instr.aget c (fmtE w))
  | 0x120 => some (Instr.claim c (fmtE w))
  | 0x121 => some (Instr.flow c (fmtE w))
  | 0x122 => some (Instr.cwait c (fmtE w))
  | 0x123 => some (Instr.crel c (fmtE w))
  | 0x124 => some (Instr.cstat c (fmtE w))
  | 0x125 => some (Instr.cbset c (fmtE w))
  | 0x126 => some (Instr.cbtake c (fmtE w))
  | 0x127 => some (Instr.cbgive c (fmtE w))
  | 0x128 => some (Instr.qbind c (fmtE w))
  | 0x129 => some (Instr.qunbind c (fmtE w))
  | 0x12A => some (Instr.qstat c (fmtE w))
  | 0x140 => some (Instr.barinit c (fmtE w))
  | 0x142 => some (Instr.nlaunch c (fmtE w))
  | 0x143 => some (Instr.nwait c (fmtE w))
  | 0x144 => some (Instr.nstat c (fmtE w))
  | 0x150 => (fmtS w).map (Instr.csrr c)
  | 0x151 => (fmtS w).map (Instr.csrw c)
  | 0x152 => (fmtS w).map (Instr.tret c)
  | 0x141 =>
    match (field w 0 3).toNat with
    | 0 => some (Instr.barArrive c (fmtE w))
    | 1 => some (Instr.barWait c (fmtE w))
    | 2 => some (Instr.barTest c (fmtE w))
    | 3 => some (Instr.barDrop c (fmtE w))
    | _ => none
  | _ => none

/-- Step 2 of R56: TSLOT of br, brc, call and loop, and JSLOT of a brc.div, at 5 to 7. -/
def badTarget (w : BitVec 96) : Bool :=
  let op := (field w 87 9).toNat
  (decide (op = 1 ∨ op = 2 ∨ op = 4 ∨ op = 7) && decide (5 ≤ (field w 32 3).toNat)) ||
  (decide (op = 2) && bit w 0 && decide (5 ≤ (field w 8 3).toNat))

end Decode

/-- Decodes 96 bits: IllegalTarget, then IllegalOp, then IllegalScope (R56). -/
def decode (w : BitVec 96) : Except DecodeError Instr :=
  if Decode.badTarget w then .error .illegalTarget
  else match Decode.raw w with
    | none => .error .illegalOp
    | some i =>
      if ¬ i.fieldsOk then .error .illegalOp
      else if ¬ i.scopeOk then .error .illegalScope
      else .ok i

namespace Encode

def ty : ElemTy → BitVec 4
  | .i32 => 0 | .n32 => 1 | .i64 => 2 | .n64 => 3 | .f32 => 4 | .f16 => 5 | .bf16 => 6 | .i16 => 7
  | .n16 => 8 | .i8 => 9 | .n8 => 10 | .e4m3 => 11 | .e5m2 => 12 | .e2m1 => 13 | .e8m0 => 14 | .i4 => 15

def rnd : Rnd → BitVec 3
  | .rne => 0 | .rz => 1 | .ru => 2 | .rd => 3 | .rdi => 4

def isel : ISel → BitVec 2
  | .none => 0 | .dst => 1 | .a => 2 | .b => 3

def width : Width → BitVec 4
  | .b1 => 0 | .b2 => 1 | .b4 => 2 | .b8 => 3 | .b16 => 4

def mscope : MScope → BitVec 3
  | .grp => 0 | .team => 1 | .core => 2 | .clu => 3 | .die => 4 | .pkg => 5 | .dom => 6 | .sys => 7

def order : MOrder → BitVec 2
  | .relaxed => 0 | .acquire => 1 | .release => 2 | .acqRel => 3

def hint : Hint → BitVec 2
  | .normal => 0 | .stream => 1 | .keep => 2 | .noL1 => 3

def mode : MmaMode → BitVec 2
  | .acc => 0 | .ow => 1 | .zo => 2

def scope : Scope → BitVec 5
  | .lane => 0b00000 | .group => 0b01000 | .set n => 0b10#2 ++ n | .team => 0b11000

/-- One bit. -/
def b (x : Bool) : BitVec 1 := BitVec.ofBool x

/-- Bits [95:75] (Table 3.2). -/
def common (op : BitVec 9) (c : Common) : BitVec 21 :=
  op ++ scope c.scope ++ b c.w ++ b c.q ++ b c.l ++ b c.pneg ++ c.pred

def v (f : FmtV) : BitVec 75 :=
  f.dst ++ f.a ++ f.b ++ f.c ++ b f.ea ++ b f.eb ++ b f.ec ++ isel f.isel ++ f.ireg ++ ty f.ty ++ rnd f.rnd ++
    b f.sat ++ b f.na ++ b f.nb ++ b f.nc ++ b f.aa ++ b f.ab ++ b f.ac ++ f.qsel ++ f.lslot ++ f.sub

def i (f : FmtI) : BitVec 75 :=
  f.dst ++ f.a ++ f.imm ++ b f.ea ++ rnd f.rnd ++ b f.sat ++ ty f.ty ++ isel f.isel ++ f.ireg ++ f.qsel ++ f.sub

def m (f : FmtM) : BitVec 75 :=
  f.data ++ f.addr ++ f.second ++ f.offset ++ width f.width ++ mscope f.mscope ++ order f.order ++ hint f.hint ++
    b f.ed ++ b f.ea ++ b f.es ++ f.sub

def x (f : FmtX) : BitVec 75 :=
  f.acc ++ f.abase ++ f.ascale ++ f.bres ++ f.boff ++ 0#4 ++ ty f.afmt ++ mode f.mode ++ b f.reuse ++ b f.bcast ++
    b f.arrive ++ f.bar ++ 0#12

def c (f : FmtC) : BitVec 75 := f.srca ++ f.tdisp ++ f.tslot ++ f.jdisp ++ f.jslot ++ f.sub

def e (f : FmtE) : BitVec 75 := f.sdst ++ f.opa ++ f.opb ++ f.opc ++ f.obj ++ f.flags

def r (f : FmtR) : BitVec 75 := f.n ++ f.r3 ++ f.r2 ++ f.r1 ++ f.r0

def s (f : FmtS) : BitVec 75 := f.reg ++ f.csr ++ 0#48

/-- Joins the common fields to a body. -/
def word (op : BitVec 9) (cm : Common) (body : BitVec 75) : BitVec 96 := common op cm ++ body

end Encode

/-- The word of an instruction; none for an event, which has no encoding. -/
def encode : Instr → Option (BitVec 96)
  | .nop c f => some (Encode.word 0x000 c (Encode.c f))
  | .br c f => some (Encode.word 0x001 c (Encode.c f))
  | .brc c f => some (Encode.word 0x002 c (Encode.c f))
  | .brx c f => some (Encode.word 0x003 c (Encode.c f))
  | .call c f => some (Encode.word 0x004 c (Encode.c f))
  | .ret c f => some (Encode.word 0x005 c (Encode.c f))
  | .join c f => some (Encode.word 0x006 c (Encode.c f))
  | .loop c f => some (Encode.word 0x007 c (Encode.c f))
  | .exit c f => some (Encode.word 0x008 c (Encode.c f))
  | .tjoin c f => some (Encode.word 0x009 c (Encode.c f))
  | .region c f => some (Encode.word 0x00A c (Encode.r f))
  | .yield c f => some (Encode.word 0x00B c (Encode.c f))
  | .trap c f => some (Encode.word 0x00C c (Encode.c f))
  | .bkpt c f => some (Encode.word 0x00D c (Encode.c f))
  | .mov c f => some (Encode.word 0x020 c (Encode.v f))
  | .movi c f => some (Encode.word 0x021 c (Encode.i f))
  | .sel c f => some (Encode.word 0x022 c (Encode.v f))
  | .kset c f => some (Encode.word 0x023 c (Encode.v f))
  | .kop c f => some (Encode.word 0x024 c (Encode.v f))
  | .kmov c f => some (Encode.word 0x025 c (Encode.v f))
  | .xset c f => some (Encode.word 0x026 c (Encode.v f))
  | .shfl c f => some (Encode.word 0x027 c (Encode.v f))
  | .vote c f => some (Encode.word 0x028 c (Encode.v f))
  | .gred c f => some (Encode.word 0x029 c (Encode.v f))
  | .gscan c f => some (Encode.word 0x02A c (Encode.v f))
  | .add c f => some (Encode.word 0x040 c (Encode.v f))
  | .sub c f => some (Encode.word 0x041 c (Encode.v f))
  | .mul c f => some (Encode.word 0x042 c (Encode.v f))
  | .mulhi c f => some (Encode.word 0x043 c (Encode.v f))
  | .mad c f => some (Encode.word 0x044 c (Encode.v f))
  | .madhi c f => some (Encode.word 0x045 c (Encode.v f))
  | .min c f => some (Encode.word 0x046 c (Encode.v f))
  | .max c f => some (Encode.word 0x047 c (Encode.v f))
  | .abs c f => some (Encode.word 0x048 c (Encode.v f))
  | .neg c f => some (Encode.word 0x049 c (Encode.v f))
  | .and c f => some (Encode.word 0x04A c (Encode.v f))
  | .or c f => some (Encode.word 0x04B c (Encode.v f))
  | .xor c f => some (Encode.word 0x04C c (Encode.v f))
  | .not c f => some (Encode.word 0x04D c (Encode.v f))
  | .shl c f => some (Encode.word 0x04E c (Encode.v f))
  | .shr c f => some (Encode.word 0x04F c (Encode.v f))
  | .sar c f => some (Encode.word 0x050 c (Encode.v f))
  | .rot c f => some (Encode.word 0x051 c (Encode.v f))
  | .clz c f => some (Encode.word 0x052 c (Encode.v f))
  | .popc c f => some (Encode.word 0x053 c (Encode.v f))
  | .brev c f => some (Encode.word 0x054 c (Encode.v f))
  | .bfx c f => some (Encode.word 0x055 c (Encode.v f))
  | .bfi c f => some (Encode.word 0x056 c (Encode.v f))
  | .lea c f => some (Encode.word 0x057 c (Encode.v f))
  | .div c f => some (Encode.word 0x058 c (Encode.v f))
  | .rem c f => some (Encode.word 0x059 c (Encode.v f))
  | .addImm c f => some (Encode.word 0x060 c (Encode.i f))
  | .subImm c f => some (Encode.word 0x061 c (Encode.i f))
  | .mulImm c f => some (Encode.word 0x062 c (Encode.i f))
  | .mulhiImm c f => some (Encode.word 0x063 c (Encode.i f))
  | .madImm c f => some (Encode.word 0x064 c (Encode.i f))
  | .madhiImm c f => some (Encode.word 0x065 c (Encode.i f))
  | .minImm c f => some (Encode.word 0x066 c (Encode.i f))
  | .maxImm c f => some (Encode.word 0x067 c (Encode.i f))
  | .absImm c f => some (Encode.word 0x068 c (Encode.i f))
  | .negImm c f => some (Encode.word 0x069 c (Encode.i f))
  | .andImm c f => some (Encode.word 0x06A c (Encode.i f))
  | .orImm c f => some (Encode.word 0x06B c (Encode.i f))
  | .xorImm c f => some (Encode.word 0x06C c (Encode.i f))
  | .notImm c f => some (Encode.word 0x06D c (Encode.i f))
  | .shlImm c f => some (Encode.word 0x06E c (Encode.i f))
  | .shrImm c f => some (Encode.word 0x06F c (Encode.i f))
  | .sarImm c f => some (Encode.word 0x070 c (Encode.i f))
  | .rotImm c f => some (Encode.word 0x071 c (Encode.i f))
  | .clzImm c f => some (Encode.word 0x072 c (Encode.i f))
  | .popcImm c f => some (Encode.word 0x073 c (Encode.i f))
  | .brevImm c f => some (Encode.word 0x074 c (Encode.i f))
  | .bfxImm c f => some (Encode.word 0x075 c (Encode.i f))
  | .bfiImm c f => some (Encode.word 0x076 c (Encode.i f))
  | .leaImm c f => some (Encode.word 0x077 c (Encode.i f))
  | .fadd c f => some (Encode.word 0x080 c (Encode.v f))
  | .fsub c f => some (Encode.word 0x081 c (Encode.v f))
  | .fmul c f => some (Encode.word 0x082 c (Encode.v f))
  | .ffma c f => some (Encode.word 0x083 c (Encode.v f))
  | .fmin c f => some (Encode.word 0x084 c (Encode.v f))
  | .fmax c f => some (Encode.word 0x085 c (Encode.v f))
  | .frcp c f => some (Encode.word 0x086 c (Encode.v f))
  | .frsq c f => some (Encode.word 0x087 c (Encode.v f))
  | .fsqrt c f => some (Encode.word 0x088 c (Encode.v f))
  | .fexp2 c f => some (Encode.word 0x089 c (Encode.v f))
  | .flog2 c f => some (Encode.word 0x08A c (Encode.v f))
  | .fsin c f => some (Encode.word 0x08B c (Encode.v f))
  | .fcos c f => some (Encode.word 0x08C c (Encode.v f))
  | .fredpi c f => some (Encode.word 0x08D c (Encode.v f))
  | .frint c f => some (Encode.word 0x08E c (Encode.v f))
  | .fclass c f => some (Encode.word 0x08F c (Encode.v f))
  | .fscale c f => some (Encode.word 0x090 c (Encode.v f))
  | .fgetexp c f => some (Encode.word 0x091 c (Encode.v f))
  | .fdiv c f => some (Encode.word 0x092 c (Encode.v f))
  | .faddImm c f => some (Encode.word 0x0A0 c (Encode.i f))
  | .fsubImm c f => some (Encode.word 0x0A1 c (Encode.i f))
  | .fmulImm c f => some (Encode.word 0x0A2 c (Encode.i f))
  | .ffmaImm c f => some (Encode.word 0x0A3 c (Encode.i f))
  | .fminImm c f => some (Encode.word 0x0A4 c (Encode.i f))
  | .fmaxImm c f => some (Encode.word 0x0A5 c (Encode.i f))
  | .hadd2 c f => some (Encode.word 0x0C0 c (Encode.v f))
  | .hmul2 c f => some (Encode.word 0x0C1 c (Encode.v f))
  | .hfma2 c f => some (Encode.word 0x0C2 c (Encode.v f))
  | .dot4 c f => some (Encode.word 0x0C3 c (Encode.v f))
  | .dot8 c f => some (Encode.word 0x0C4 c (Encode.v f))
  | .pack c f => some (Encode.word 0x0C5 c (Encode.v f))
  | .unpack c f => some (Encode.word 0x0C6 c (Encode.v f))
  | .cvt c f => some (Encode.word 0x0C7 c (Encode.v f))
  | .bscale c f => some (Encode.word 0x0C8 c (Encode.v f))
  | .bmax c f => some (Encode.word 0x0C9 c (Encode.v f))
  | .ld c f => some (Encode.word 0x0E0 c (Encode.m f))
  | .st c f => some (Encode.word 0x0E1 c (Encode.m f))
  | .lds c f => some (Encode.word 0x0E2 c (Encode.m f))
  | .sts c f => some (Encode.word 0x0E3 c (Encode.m f))
  | .atom c f => some (Encode.word 0x0E4 c (Encode.m f))
  | .red c f => some (Encode.word 0x0E5 c (Encode.m f))
  | .fence c f => some (Encode.word 0x0E6 c (Encode.m f))
  | .atoms c f => some (Encode.word 0x0E7 c (Encode.m f))
  | .obres c f => some (Encode.word 0x100 c (Encode.e f))
  | .obrel c f => some (Encode.word 0x101 c (Encode.e f))
  | .aalloc c f => some (Encode.word 0x102 c (Encode.e f))
  | .afree c f => some (Encode.word 0x103 c (Encode.e f))
  | .mma c f => some (Encode.word 0x104 c (Encode.x f))
  | .ald c f => some (Encode.word 0x105 c (Encode.e f))
  | .ast c f => some (Encode.word 0x106 c (Encode.e f))
  | .mwait c f => some (Encode.word 0x107 c (Encode.e f))
  | .mperturb c f => some (Encode.word 0x108 c (Encode.e f))
  | .aget c f => some (Encode.word 0x109 c (Encode.e f))
  | .claim c f => some (Encode.word 0x120 c (Encode.e f))
  | .flow c f => some (Encode.word 0x121 c (Encode.e f))
  | .cwait c f => some (Encode.word 0x122 c (Encode.e f))
  | .crel c f => some (Encode.word 0x123 c (Encode.e f))
  | .cstat c f => some (Encode.word 0x124 c (Encode.e f))
  | .cbset c f => some (Encode.word 0x125 c (Encode.e f))
  | .cbtake c f => some (Encode.word 0x126 c (Encode.e f))
  | .cbgive c f => some (Encode.word 0x127 c (Encode.e f))
  | .qbind c f => some (Encode.word 0x128 c (Encode.e f))
  | .qunbind c f => some (Encode.word 0x129 c (Encode.e f))
  | .qstat c f => some (Encode.word 0x12A c (Encode.e f))
  | .barinit c f => some (Encode.word 0x140 c (Encode.e f))
  | .nlaunch c f => some (Encode.word 0x142 c (Encode.e f))
  | .nwait c f => some (Encode.word 0x143 c (Encode.e f))
  | .nstat c f => some (Encode.word 0x144 c (Encode.e f))
  | .csrr c f => some (Encode.word 0x150 c (Encode.s f))
  | .csrw c f => some (Encode.word 0x151 c (Encode.s f))
  | .tret c f => some (Encode.word 0x152 c (Encode.s f))
  | .barArrive c f => some (Encode.word 0x141 c (Encode.e f))
  | .barWait c f => some (Encode.word 0x141 c (Encode.e f))
  | .barTest c f => some (Encode.word 0x141 c (Encode.e f))
  | .barDrop c f => some (Encode.word 0x141 c (Encode.e f))
  | .matrixOpStart _ _ => none
  | .operandsConsumed _ _ => none
  | .matrixOpCompletion _ _ _ => none
  | .broadcastDelivery _ _ => none
  | .claimWalkEnd _ _ => none
  | .flowCompletion _ => none
  | .creditRequest _ => none
  | .creditGrant _ => none
  | .messageArrival _ => none
  | .registerFill _ => none
  | .strandAging _ _ _ => none
  | .scopeMismatchDetect _ => none
  | .icacheRefetch _ _ => none
  | .memoryRequest _ => none
  | .peerAccessRelay _ => none
  | .translationWalk _ => none
  | .s2qAnswerRetry _ _ => none
  | .s2qAnswerInvalid _ _ => none
  | .fqAnswerRetry _ _ => none
  | .fqAnswerInvalid _ _ => none
  | .s2qTailWrite _ _ => none
  | .fqtailWrite _ _ => none
  | .fqbaseWrite _ _ => none
  | .shootCommand _ _ _ _ => none
  | .s1shootCommand _ _ _ => none
  | .shootdownComplete _ => none
  | .pageReset _ _ => none
  | .migration _ _ _ => none
  | .preemptWorld _ => none
  | .preemptNode _ => none
  | .teamPreemptStart _ => none
  | .teamStateSave _ => none
  | .teamPlacement _ _ => none
  | .teamRestart _ _ => none
  | .bankWaitDeadlock _ => none
  | .timeSliceEnd _ _ => none
  | .notify _ _ => none
  | .queueSlotRotation _ => none
  | .launchAccept _ _ => none
  | .readyPoolAdmit _ _ => none
  | .priorityAging _ _ => none
  | .nodeDispatch _ _ => none
  | .dispatchWalkEnd _ => none
  | .spillReturn _ => none
  | .nodeCommit _ => none
  | .nodeEndByTrap _ => none
  | .launchEnd _ => none
  | .nodeReplay _ => none
  | .launchReplay _ => none
  | .patrolScrub _ => none
  | .multicastReceive _ _ _ _ => none
  | .partitionRecordWrite _ _ => none
  | .drmaskWrite _ _ _ => none
  | .mcastEntryWrite _ _ => none
  | .worldHalt _ => none
  | .worldResume _ => none
  | .waymaskWrite _ _ => none
  | .waymaskSweepComplete _ => none
  | .compartmentCreate _ => none
  | .revokeKey _ => none
  | .revocationDrainEnd _ => none
  | .installGate _ => none
  | .closeGate _ => none
  | .functionLevelReset _ => none
  | .flrDrainEnd _ => none
  | .getVersion _ => none
  | .getCapabilities _ => none
  | .negotiateAlgorithms _ _ _ => none
  | .getDigests _ => none
  | .getCertificate _ _ _ => none
  | .challenge _ _ => none
  | .getMeasurements _ _ _ => none
  | .keyExchange _ _ => none
  | .finish _ _ => none
  | .endSession _ => none
  | .readErrorLog _ => none
  | .readTelemetry => none
  | .setPackageId _ => none
  | .powerOn => none
  | .warmReset => none
  | .pcieConventionalReset => none
  | .standbyEntry _ => none
  | .standbyPowerLoss => none
  | .throttleStepDown => none
  | .throttleStepUp => none
  | .criticalTemperature _ => none
  | .linkRetry _ => none
  | .laneFailover _ => none
  | .linkRekey _ => none
  | .pathLost _ _ => none
  | .registerWrite _ _ _ => none
  | .hostCancellation _ _ _ => none
  | .worldCreation _ _ => none
  | .pcieConfigurationRequest _ => none

/-- The 64 bytes of a fetch line as one number: the line word and five slots (R26). -/
def packLine (lineWord : BitVec 32) (slots : List (BitVec 96)) : BitVec 512 :=
  let slot (k : Nat) : BitVec 512 := ((slots.getD k 0).setWidth 512) <<< (32 + 96 * k)
  lineWord.setWidth 512 ||| slot 0 ||| slot 1 ||| slot 2 ||| slot 3 ||| slot 4

/-- Slot s of a fetch line, s from 0 to 4 (R26). -/
def lineSlot (line : BitVec 512) (s : Nat) : BitVec 96 := line.extractLsb' (32 + 96 * s) 96

/-- Even parity of the 60 line bits of group n (R28). -/
def lineParityBit (line : BitVec 512) (n : Nat) : Bool :=
  (List.range 60).foldl (fun acc j => acc ^^ line.getLsbD (32 + 60 * n + j)) false

/-- The PARITY byte a line must carry (R28). -/
def lineParity (line : BitVec 512) : BitVec 8 :=
  (List.range 8).foldl (fun acc n => if lineParityBit line n then acc ||| (1#8 <<< n) else acc) 0#8

/-- The stored PARITY byte agrees with the line (R28, R31). -/
def lineParityOk (line : BitVec 512) : Bool := decide (line.extractLsb' 24 8 = lineParity line)

/-- TARGET bit of slot s (R28). -/
def lineTarget (line : BitVec 512) (s : Nat) : Bool := line.getLsbD s

/-- Bits [23:9] of the line word are zero (R28). -/
def lineReservedOk (line : BitVec 512) : Bool := decide (line.extractLsb' 9 15 = 0#15)

/-- The instruction the decoder reads from an instruction whose low `nbits` bits are `w` and whose other bits are
zero; none where the decoder refuses, and where more than 96 bits are asked for. -/
def decodeTableWord (nbits w : Nat) : Option Instr :=
  if nbits ≤ 96 then
    match decode (BitVec.ofNat 96 (w % 2 ^ nbits)) with
    | .ok i => some i
    | .error _ => none
  else none

end Sys2Proof
end

