-- ==== Sys2Proof/Machine/Memory.lean ====
section
/-! DEFINITION. Physical memory: bytes by host-physical address, the state of a DRAM line (spec/13_memory.md R247,
R248; spec/19_worlds.md R370, R371), and the core's L1 (R244). -/

namespace Sys2Proof.Machine

open Sys2Proof

/-- The little-endian value of a list of bytes (R3). -/
def bytesToNat : List Byte → Nat
  | [] => 0
  | b :: t => b.toNat + 256 * bytesToNat t

/-- The `n` low bytes of a value, lowest first (R3). -/
def natToBytes : Nat → Nat → List Byte
  | 0, _ => []
  | n + 1, v => BitVec.ofNat 8 v :: natToBytes n (v / 256)

/-- The memory list is in its one canonical form: addresses strictly rise and no listed byte is zero. -/
def Memory.wf (m : Tbl Byte) : Bool := Tbl.wf 0#8 m

/-- The byte at host-physical address `a`; an unlisted byte is zero (R386, R371). -/
def State.byte (s : State) (a : Nat) : Byte := Tbl.get 0#8 s.mem a

def State.bytes (s : State) (a n : Nat) : List Byte := (List.range n).map (fun i => s.byte (a + i))

/-- Places bytes from address `a` up. -/
def putBytes (m : Tbl Byte) (a : Nat) : List Byte → Tbl Byte
  | [] => m
  | b :: t => putBytes (Tbl.set 0#8 m a b) (a + 1) t

def State.line (s : State) (a : Nat) : Line := Tbl.get Line.reset s.lines (a / 128)

def State.setLine (s : State) (a : Nat) (l : Line) : State :=
  { s with lines := Tbl.set Line.reset s.lines (a / 128) l }

/-- The package a host-physical address names, and its local part (R222). -/
def pkgOf (a : Nat) : Nat := a / 2 ^ 42 % 512
def localOf (a : Nat) : Nat := a % 2 ^ 42

/-- The plat that owns a DRAM address (Table 13.1). -/
def platOf (a : Nat) : Nat := localOf a / 0x2A00000000

def isDram (a : Nat) : Bool := decide (localOf a < 0x2A000000000)

/-- Bit of the sector of `a` in a line's poison. -/
def sectorBit (a : Nat) : BitVec 4 := 1#4 <<< (a / 32 % 4)

/-- The slices of a set of plats, in ascending slice id: slice i of a die sits with the core of that number; its half
follows the columns (R242, R7). -/
def slicesOf (ps : List Nat) : List Nat := (List.range 240).filter (fun c => ps.contains (platOfCore c))

/-- R242's H of a local address in a partition. -/
def homeHash (p : Partition) (a : Nat) : Nat :=
  let pl := a / 0x2A00000000
  let j := p.plats.idxOf pl
  let l := (j * 0x2A00000000 + (a - pl * 0x2A00000000)) / 128
  l ^^^ (l / 2 ^ 11) ^^^ (l / 2 ^ 22) ^^^ (l / 2 ^ 33)

/-- The home slice of a local address (R242). -/
def homeSlice (p : Partition) (a : Nat) : Nat :=
  let sl := slicesOf p.plats
  sl.getD (homeHash p a % (15 * p.plats.length)) 0

/-- The home slice of a host-physical address, in the partition that owns its plat. -/
def State.sliceAt (s : State) (a : Nat) : Nat := homeSlice (s.part ((s.platOwner (platOf a)).getD 0)) (localOf a)

/-- The global number of the channel that holds a line: plat p owns channels 24·p to 24·p + 23, and the memory controller
chooses among them (R7, R242). -/
def channelAt (a : Nat) : Nat := 24 * platOf a + Config.channelOf (a / 128) % 24

/-- The sectors that hold the chunks of check fields (Table 13.5). -/
def chunkSectors (d : BitVec 8) : BitVec 4 :=
  (List.range 8).foldl (fun m i => if d.getLsbD i then m ||| (1#4 <<< (i / 2)) else m) 0#4

/-- A key that no reader has: what is sealed through an erased slot stays sealed (R381). -/
def noKey : Nat := 2 ^ 64

/-- The key that seals a compartment's lines. -/
def State.sealKey (s : State) (c : Nat) : Nat := if (s.comp c).key = 0 then noKey else (s.comp c).key

/-- The MAC of a line read from DRAM under `key` does not match: the line was sealed under another key (R371), the slot is erased, so
that nothing is unsealed (R381), or its unit was altered. A field with two bits in error leaves the MAC unchecked (Table 13.5). An
agent without a compartment id has no key, and seals under key 0 (log entry 10). -/
def Line.macFails (l : Line) (key : Option Nat) : Bool :=
  decide (l.version ≠ 0#64) && ((match key with
    | some k => decide (k = 0) || (decide (l.key ≠ 0) && decide (l.key ≠ k))
    | none => false) || (decide (l.double = 0#8) && l.badMac))

/-- The poison of a line as DRAM gives it under `key` (Table 13.5); a line of version 0 is not read (R371). -/
def Line.stored (l : Line) (key : Option Nat) : BitVec 4 :=
  if l.version = 0#64 then l.poison
  else if l.macFails key then 0xF#4
  else l.poison ||| chunkSectors l.double

/-- A node of the counter tree covers a line: a leaf holds the versions of 16 lines of its channel, and an inner node has 16 children
(R376). -/
def BadNode.covers (b : BadNode) (line : Nat) : Bool :=
  decide (b.channel = channelAt (128 * line)) && decide (Config.lineSlot line / 16 ^ (b.level + 1) = b.index) && !b.fixed.contains line

/-- The version of the line at `a` is in a tree node that fails its MAC: every line of such a node is poisoned (R376). -/
def State.nodeBad (s : State) (a : Nat) : Bool := decide (pkgOf a = s.pkgid.toNat) && s.badNodes.any (fun b => b.covers (a / 128))

/-- The counters of a range of lines have been written anew. -/
def State.fixNodes (s : State) (a n : Nat) : State :=
  { s with badNodes := s.badNodes.map (fun b =>
      { b with fixed := ((List.range n).map (fun i => a / 128 + i)).filter b.covers ++ b.fixed }) }

/-- What DRAM gives of the line at `a` fails a MAC: its own, or that of a tree node (Table 13.5, R376). -/
def State.unitFails (s : State) (l : Line) (key : Option Nat) (a : Nat) : Bool := s.nodeBad a || l.macFails key

/-- The poison of the line at `a` as DRAM gives it under `key`. -/
def State.storedPoison (s : State) (l : Line) (key : Option Nat) (a : Nat) : BitVec 4 := if s.nodeBad a then 0xF#4 else l.stored key

/-- The line at `a` as compartment `c` finds it at the home slice: the on-die copy, or what DRAM gives. -/
def State.fetched (s : State) (l : Line) (c a : Nat) : Line :=
  match l.tag with
  | some _ => l
  | none => { l with tag := some (c, false), poison := s.storedPoison l (some (s.comp c).key) a }

/-- The id of the on-die copy that an access of compartment `c` meets is another's (R370). -/
def State.tagClash (s : State) (c a : Nat) : Bool :=
  match (s.line a).tag with
  | some (t, _) => decide (t ≠ c) && decide (pkgOf a = s.pkgid.toNat)
  | none => false

/-- Core and place in its carve-out of a pinned page (R227). -/
def carveCore (pa : Nat) : Nat := pa / 2 ^ 21 % 256
def carveOff (pa : Nat) : Nat := pa % 2 ^ 21

/-- The pinned carve-out page that an access of compartment `c` meets was filled by another compartment (R370). -/
def State.carveClash (s : State) (c pa : Nat) : Bool :=
  match Tbl.find? (s.core (carveCore pa)).carveTag (carveOff pa / 65536) with
  | some t => decide (t ≠ c)
  | none => false

/-- A write of compartment `c` to a pinned page, which then carries its id (R370). An access was checked against the tag at
its issue; a page that another compartment has filled since is cleared first (log entry 70). -/
def State.writeCarve (s : State) (c pa : Nat) (bs : List Byte) : State :=
  let p := carveOff pa / 65536
  s.modCore (carveCore pa) (fun k =>
    let old := if s.carveClash c pa then Tbl.delRange k.carve (65536 * p) (65536 * p + 65536) else k.carve
    { k with carve := putBytes old (carveOff pa) bs, carveTag := Tbl.put k.carveTag p c })

/-- Lines touched by `n` bytes at `a`. -/
def linesOf (a n : Nat) : List Nat := (List.range ((a + n - 1) / 128 - a / 128 + 1)).map (fun i => a / 128 * 128 + 128 * i)

/-- Sectors touched by `n` bytes at `a`. -/
def sectorsOf (a n : Nat) : List Nat := (List.range ((a + n - 1) / 32 - a / 32 + 1)).map (fun i => a / 32 * 32 + 32 * i)

/-- A record of the Basder error log (R395, R396): the kinds above 4 are the model's names for what the spec logs there:
5 counter exhaustion (R376), 6 integrity failure (R248), 7 critical temperature (R399), 8 uncontained error (R367),
9 a bad firmware signature (R397). -/
def State.logError (s : State) (kind link info : Nat) : State :=
  { s with errorlog := s.errorlog ++ [{ seq := s.errseq, kind := kind, link := link, info := info }], errseq := s.errseq + 1 }

/-- The line leaves the home slice: a dirty line is written back, which advances its version and writes a whole fresh unit under
the current key of its compartment (R247, R248); a version that would wrap stays, and the line is poisoned until a page
reset (R376). -/
def State.evictLine (s : State) (a : Nat) : State :=
  let l := s.line a
  match l.tag with
  | none => s
  | some (c, dirty) =>
    if dirty = false then s.setLine a { l with tag := none, pinned := false }
    else if l.version = 0xFFFF_FFFF_FFFF_FFFF#64 then
      (s.setLine a { l with tag := none, dram := none, pinned := false, poison := 0xF#4, spent := true }).logError 5 0 a
    else (s.fixNodes a 1).setLine a
      { l with version := l.version + 1, key := s.sealKey c, tag := none, dram := none, pinned := false, single := 0, double := 0,
               badMac := false }

/-- The page's HOME lets the access's lines stay in the home slice, and so does the way mask of the compartment's world
(R245, R383). -/
def State.allocates (s : State) (c : Nat) (home : BitVec 2) : Bool :=
  decide (home ≠ 3#2) && decide ((s.world (c / 16)).waymask ≠ 0#24)

/-- A line read from DRAM under `key`: its corrections are counted, and a MAC that fails is logged (Table 13.5). -/
def State.noteLine (s : State) (l : Line) (key : Option Nat) (a : Nat) : State :=
  if l.tag.isSome then s
  else if s.unitFails l key a then s.logError 6 0 a
  else if l.version = 0#64 then s
  else ((List.range 8).filter (fun i => l.single.getLsbD i)).foldl (fun st _ => st.countError (.channel (channelAt a))) s

/-- A page of HOME 10 keeps its lines in their ways while there is room; one that finds none is counted (R245, Table 13.2). -/
def State.pinLine (s : State) (home : BitVec 2) (a : Nat) : State :=
  if home ≠ 2#2 ∨ (s.line a).pinned = true then s
  else if Config.pinFits s.fresh (a / 128) then s.setLine a { s.line a with pinned := true }
  else { s with pinOver := Tbl.set 0 s.pinOver (s.sliceAt a) (Tbl.get 0 s.pinOver (s.sliceAt a) + 1) }

/-- Brings one line of an access of compartment `c` on die. An access in flight that finds another compartment's copy there
meets the line as it is once that copy has left, under R371; a lane's access was checked against the copy at its issue
(R370). -/
def State.fetchOne (s : State) (c : Nat) (home : BitVec 2) (a : Nat) : State :=
  let st := if s.tagClash c a then s.evictLine a else s
  let l := st.line a
  let st1 := (st.noteLine l (some (st.comp c).key) a).setLine a (st.fetched l c a)
  if l.tag.isNone && s.allocates c home then st1.pinLine home a else st1

/-- Brings the lines of an access of compartment `c` on die. -/
def State.fetchLines (s : State) (c a n : Nat) (home : BitVec 2 := 0#2) : State :=
  if pkgOf a = s.pkgid.toNat then (linesOf a n).foldl (fun st x => st.fetchOne c home x) s else s

/-- After an access that may not allocate, the lines that no copy of stood on die leave again: a write has then written the
whole line (R245, R383). `s0` is the state before the access. -/
def State.passLines (s s0 : State) (c a n : Nat) (home : BitVec 2) : State :=
  if s0.allocates c home then s
  else (linesOf a n).foldl (fun st x => if (s0.line x).tag.isSome then st else st.evictLine x) s

/-- A sector of the bytes is poisoned (R248). -/
def State.poisoned (s : State) (a n : Nat) : Bool :=
  (sectorsOf a n).any (fun x => decide ((s.line x).poison &&& sectorBit x ≠ 0#4))

/-- A byte as a reader at the home slice finds it: that of a poisoned sector is a free value (log entry 19). -/
def State.seenByte (s : State) (a : Nat) : Byte :=
  if (s.line a).poison &&& sectorBit a ≠ 0#4 then Config.poisonByte s.fresh a else s.byte a

/-- A read of `n` bytes by compartment `c` at the home slice, in a page of the HOME given: the bytes, poison, and the machine
after the fetch. -/
def State.readMem (s : State) (c a n : Nat) (home : BitVec 2 := 0#2) : List Byte × Bool × State :=
  let s1 := s.fetchLines c a n home
  ((List.range n).map (fun i => s1.seenByte (a + i)), s1.poisoned a n, s1.passLines s c a n home)

/-- A sector of a line that compartment `c` writes: the copy is dirty, DRAM's bytes are kept aside until it is written back, and
a sector covered in full loses its poison (R248, R371), but not that of a line whose version is at its end (R376). -/
def State.dirtySector (s : State) (c a n : Nat) (x : Nat) : State :=
  let l := s.line x
  let l1 := if pkgOf a = s.pkgid.toNat then
      { l with
        tag := some (c, true)
        dram := if (match l.tag with
            | some (_, d) => d
            | none => false) || decide (l.version = 0#64) then l.dram else some (s.bytes (x / 128 * 128) 128) }
    else l
  s.setLine x (if a ≤ x ∧ x + 32 ≤ a + n ∧ l.spent = false then { l1 with poison := l1.poison &&& ~~~(sectorBit x) } else l1)

/-- A write of bytes by compartment `c` at the home slice, in a page of the HOME given. -/
def State.writeMem (s : State) (c a : Nat) (bs : List Byte) (home : BitVec 2 := 0#2) : State :=
  let n := bs.length
  if n = 0 then s else
  let s1 := (sectorsOf a n).foldl (fun st x => st.dirtySector c a n x) (s.fetchLines c a n home)
  ({ s1 with mem := putBytes s1.mem a bs } : State).passLines s c a n home

/-- A read by an agent without a compartment id: table walks, the scheduler, the fault-queue writer, the host
(log entry 10). `State.noteSys` is what it counts and logs. -/
def State.readSys (s : State) (a n : Nat) : List Byte × Bool :=
  (s.bytes a n, (sectorsOf a n).any (fun x =>
    let l := s.line x
    decide ((if l.tag.isSome then l.poison else s.storedPoison l none x) &&& sectorBit x ≠ 0#4)))

/-- The corrections and MAC failures of such a read (Table 13.5). -/
def State.noteSys (s : State) (a n : Nat) : State :=
  if pkgOf a = s.pkgid.toNat then (linesOf a n).foldl (fun st x => st.noteLine (st.line x) none x) s else s

/-- A sector of a line that such an agent writes: a unit that no on-die copy holds is read, and written anew with what it then has
of poison (R248); one of version 0 is sealed under key 0 (log entry 10). A sector covered in full loses its poison. -/
def State.sysSector (s : State) (a n : Nat) (x : Nat) : State :=
  let l := s.line x
  let l1 := match l.tag with
    | some _ => l
    | none =>
      { l with version := if l.version = 0#64 then 1#64 else l.version, key := if l.version = 0#64 then 0 else l.key,
               poison := s.storedPoison l none x, single := 0, double := 0, badMac := false }
  ((if l.tag.isSome then s else s.fixNodes x 1).setLine x
    (if a ≤ x ∧ x + 32 ≤ a + n ∧ l.spent = false then { l1 with poison := l1.poison &&& ~~~(sectorBit x) } else l1))

/-- A write by an agent without a compartment id (log entry 10). -/
def State.writeSys (s : State) (a : Nat) (bs : List Byte) : State :=
  let n := bs.length
  if n = 0 then s else
  let s := (sectorsOf a n).foldl (fun st x => st.sysSector a n x) (s.noteSys a n)
  { s with mem := putBytes s.mem a bs }

/-- Host bus address of a host-window address (Table 20.1, Table 20.3). -/
def State.hostAddr (s : State) (world pa : Nat) : Nat := (s.world world).hwbase.toNat + (localOf pa - 0x3C000000000)

/-- A write of such an agent at the place that a stage-2 leaf gives: a page of a carve-out, host memory, or memory (R226, R232). -/
def State.writeAt (s : State) (world : Nat) (home : BitVec 2) (a : Nat) (bs : List Byte) : State :=
  if home = 1#2 then s.modCore (carveCore a) (fun c => { c with carve := putBytes c.carve (carveOff a) bs })
  else if pkgOf a = s.pkgid.toNat ∧ 0x3C000000000 ≤ localOf a ∧ localOf a < 0x3E000000000 then
    { s with hostMem := (indexed bs).foldl (fun t e => Tbl.put t (s.hostAddr world a + e.1) (some e.2)) s.hostMem }
  else s.writeSys a bs

/-! ### The L1 (R244) -/

/-- A sector of the L1 that may serve a load: filled at most 4,096 clocks ago. -/
def Core.freshSector (c : Core) (now : DWord) (a : Nat) : Option Sector :=
  match Tbl.find? c.l1 (a / 32) with
  | none => none
  | some x => if (now - x.filled).toNat ≤ 4096 then some x else none

/-- Updates the bytes that the L1 holds (R244, stores). -/
def Core.l1Update (c : Core) (a : Nat) (bs : List Byte) : Core :=
  { c with l1 := (indexed bs).foldl (fun t e =>
      Tbl.modify t ((a + e.1) / 32) (fun x => { x with bytes := modNth (fun _ => e.2) ((a + e.1) % 32) x.bytes })) c.l1 }

/-- The lines of which the L1 holds a sector. -/
def Core.l1LineList (c : Core) : List Nat :=
  c.l1.foldr (fun e ls => if ls.head? = some (e.1 / 4) then ls else e.1 / 4 :: ls) []

/-- Room for a line in the L1, which holds 2,048: another line leaves, and which is timing (R8, R244). -/
def Core.l1Room (c : Core) (fresh line : Nat) : Core :=
  let ls := c.l1LineList
  if ls.length < Config.l1Lines ∨ ls.contains line = true then c
  else
    let v := ls.getD (Config.pick fresh % ls.length) 0
    { c with l1 := Tbl.delRange c.l1 (4 * v) (4 * v + 4) }

/-- Fills the sectors of an access from memory, but for a poisoned one. -/
def Core.l1Fill (c : Core) (s : State) (now : DWord) (comp a n : Nat) : Core :=
  (sectorsOf a n).foldl (fun k x =>
    if (s.line x).poison &&& sectorBit x ≠ 0#4 then k
    else
      let k1 := k.l1Room s.fresh (x / 128)
      { k1 with l1 := Tbl.put k1.l1 (x / 32) { bytes := s.bytes x 32, filled := now, tag := comp } }) c

/-- What a near `atom` brings into the L1: the line, if no fresh sector of it is there, else the sectors of the access
(R244, R252). -/
def Core.l1FillNear (c : Core) (s : State) (now : DWord) (comp a n : Nat) : Core :=
  if (List.range 4).any (fun i => (c.freshSector now (a / 128 * 128 + 32 * i)).isSome) then c.l1Fill s now comp a n
  else c.l1Fill s now comp (a / 128 * 128) 128

/-- The bytes of an access as the L1 holds them. -/
def Core.l1Bytes (c : Core) (a n : Nat) : List Byte :=
  (List.range n).map (fun i =>
    match Tbl.find? c.l1 ((a + i) / 32) with
    | none => 0#8
    | some x => x.bytes.getD ((a + i) % 32) 0#8)

/-- Every line of the core's L1 is invalidated (R244, wider acquires). -/
def State.emptyL1 (s : State) (core : Nat) : State := s.modCore core (fun c => { c with l1 := [] })

/-- An acquire at `.clu` or wider that synchronises in any case: the L1 is emptied, and the core sees every store (R244, R258). -/
def State.dropL1 (s : State) (core : Nat) : State := s.modCore core (fun c => { c with l1 := [], aware := s.fresh })

/-- A range of bytes is invalidated in the L1 of the cores that `p` gives. -/
def State.dropL1RangeOf (s : State) (p : Nat → Bool) (a n : Nat) : State :=
  { s with cores := s.cores.map (fun e =>
      if p e.1 then (e.1, { e.2 with l1 := Tbl.delRange e.2.l1 (a / 32) ((a + n + 31) / 32) }) else e) }

/-- The home slice invalidates a range of bytes in every L1 (R244, engines and migration). -/
def State.dropL1Range (s : State) (a n : Nat) : State := s.dropL1RangeOf (fun _ => true) a n

/-- The core's agents are in a scope as measured from a team (R255). A group's own scope holds no other agent of a core, and the
agents outside the cores keep no L1. -/
def State.coreInScope (s : State) (t : Team) (core : Nat) : MScope → Bool
  | .grp => false
  | .team | .core => decide (core = t.core)
  | .clu => decide (core = t.core) || s.teams.any (fun u => t.clusterMate u && decide (u.phase = .placed) && decide (u.core = core))
  | .die => decide (dieOfCore core = dieOfCore t.core)
  | .pkg | .dom | .sys => true

/-- A scope that reaches beyond one core (R244, R255). -/
def scopeWide : MScope → Bool
  | .grp | .team | .core => false
  | _ => true

def acquires : MOrder → Bool
  | .acquire | .acqRel => true
  | _ => false

def releases : MOrder → Bool
  | .release | .acqRel => true
  | _ => false

/-- Bytes of a width (Table 3.6). -/
def widthBytes : Width → Nat
  | .b1 => 1 | .b2 => 2 | .b4 => 4 | .b8 => 8 | .b16 => 16

def Req.bytes (r : Req) : Nat := widthBytes r.width

end Sys2Proof.Machine
end

