-- ==== Sys2Proof/Machine/Order.lean ====
section
/-! DEFINITION. Which stores a core sees (spec/14_visibility.md R255 to R262). A store is current at its home slice at once; a load of a
core that no happens-before edge ties to it may still return the value before it, for less than 4,096 clocks (R244, R259, R260). A core
comes to see it through its own accesses to the unit, or by an acquire that synchronises with a later release. -/

namespace Sys2Proof.Machine

open Sys2Proof

/-! ### Agents and scopes (R255, R256) -/

/-- The lanes of a group of a team. -/
def Team.agent (t : Team) (g : Nat) : Agent :=
  { core := t.core, node := t.node, team := t.id, group := g, clu := some (32 * t.cluster + t.lead) }

/-- An engine that acts for a team counts as that team, and as no group of it. -/
def Team.engine (t : Team) (core : Nat) : Agent := { t.agent 65536 with core := core }

/-- The agent that an access acts for. -/
def State.agentOf (s : State) (r : Req) : Agent :=
  match r.parcel, s.team? r.team with
  | none, some t => { t.agent r.group with core := r.core }
  | none, none => { core := r.core, node := r.node, team := r.team, group := r.group, clu := none }
  | some p, _ => { core := r.core, node := r.node, team := p, group := 0, clu := none }

/-- `x` is in a scope of `y`, for agents of the package. -/
def Agent.inScope (x y : Agent) : MScope → Bool
  | .grp => decide (x.node = y.node) && decide (x.team = y.team) && decide (x.group = y.group)
  | .team => decide (x.node = y.node) && decide (x.team = y.team)
  | .core => decide (x.core = y.core)
  | .clu => decide (x.node = y.node) && (decide (x.team = y.team) || (x.clu.isSome && decide (x.clu = y.clu)))
  | .die => decide (dieOfCore x.core = dieOfCore y.core)
  | .pkg | .dom | .sys => true

/-- A release and an acquire of scope `m` by `a`: each includes the other's agent (R256, R262). -/
def Head.meets (h : Head) (a : Agent) (m : MScope) : Bool := a.inScope h.agent h.scope && h.agent.inScope a m

/-- A release after which some store that a core may not see was made tells nothing. -/
def State.keeps (s : State) (h : Head) : Bool :=
  match s.late.getLast? with
  | some l => decide (l.step ≤ h.step)
  | none => false

/-- Adds releases to a list that keeps the latest of each agent and scope. -/
def State.mergeHeads (s : State) (new old : List Head) : List Head :=
  (new.filter s.keeps).foldl (fun hs h => h :: hs.filter (fun x => decide (x.agent ≠ h.agent) || decide (x.scope ≠ h.scope)))
    (old.filter s.keeps)

/-- The core sees every store up to a step. -/
def State.learn (s : State) (core step : Nat) : State :=
  s.modCore core (fun c => { c with aware := max c.aware step })

/-- An acquire of scope `m` by `a` that has read the values of the releases given: it synchronises with those that it meets, and what
happens before them happens before what follows it (R256, R258). -/
def State.sync (s : State) (a : Agent) (m : MScope) (hs : List Head) : State :=
  match hs.filter (fun h => h.meets a m) with
  | [] => s
  | ks => s.learn a.core (ks.foldl (fun n h => max n h.step) 0)

/-- The releases in the coherence order of the bytes given. -/
def State.headsAt (s : State) (a n : Nat) : List Head := (List.range n).flatMap (fun i => Tbl.get [] s.heads (a + i))

/-! ### Stores that a core does not see (R259, R260) -/

/-- The aligned 8-byte units of a range. -/
def unitsOf (a n : Nat) : List Nat := (List.range ((a + n + 7) / 8 - a / 8)).map (fun i => 8 * (a / 8 + i))

/-- The store is less than 4,096 clocks old, by a core's clock (R244). -/
def State.young (s : State) (core : Nat) (l : Late) : Bool := decide ((s.cyc core - l.cycs.getD core 0).toNat < 4096)

/-- A core sees a store. -/
def State.sees (s : State) (core : Nat) (l : Late) : Bool := decide (l.step ≤ (s.core core).aware) || l.aware.contains core

/-- The stores whose value before them a load of a core may return for a unit: none that the core sees, and none before one that it
sees. -/
def State.older (s : State) (core comp unit : Nat) : List Late :=
  (s.late.filter (fun l => decide (l.unit = unit))).takeWhile (fun l =>
    decide (l.comp = comp) && s.young core l && !s.sees core l)

/-- The store before which a load returns a unit's value; none for its latest value. -/
def State.oldUnit (s : State) (core comp unit : Nat) : Option Late :=
  match s.older core comp unit with
  | [] => none
  | ls => ls[Config.lateRead s.fresh unit % (ls.length + 1)]?

/-- The bytes that a load returns where `bs` are the latest. -/
def State.lateBytes (s : State) (core comp a : Nat) (bs : List Byte) : List Byte :=
  (indexed bs).map (fun e => match s.oldUnit core comp ((a + e.1) / 8 * 8) with
    | some l => l.old.getD ((a + e.1) % 8) e.2
    | none => e.2)

/-- A core sees the stores that `p` gives. -/
def State.nowSees (s : State) (core : Nat) (p : Late → Bool) : State :=
  { s with late := s.late.map (fun l => if p l && !l.aware.contains core then { l with aware := core :: l.aware } else l) }

/-- A store of compartment `c` is about to be made at a home slice, in a page that the L1s may hold: the units that it changes, which the
cores given see at once. -/
def State.noteStore (s : State) (cores : List Nat) (c a n : Nat) (home : BitVec 2) : State :=
  if n = 0 ∨ (home ≠ 0#2 ∧ home ≠ 2#2) then s
  else
    let us := unitsOf a n
    let rd := s.readMem c (a / 8 * 8) (8 * us.length) home
    let core := cores.headD 0
    { s with late := (if rd.2.1 then [] else us.map (fun u =>
        { unit := u, old := (rd.1.drop (u - a / 8 * 8)).take 8, comp := c, step := s.fresh, cycs := s.cycs, aware := cores })) ++
      s.late.filter (s.young core) }

/-- The releases that a write of the bytes carries. -/
def State.putHeads (s : State) (hs : List Head) (a n : Nat) : State :=
  if hs = [] then s
  else { s with heads := (List.range n).foldl (fun t i => Tbl.set [] t (a + i) (s.mergeHeads hs (Tbl.get [] t (a + i)))) s.heads }

/-- No core reads an older value of a range of bytes any more. -/
def State.forgetLate (s : State) (a n : Nat) : State :=
  { s with late := s.late.filter (fun l => decide (l.unit + 8 ≤ a) || decide (a + n ≤ l.unit)) }

/-! ### Accesses and fences -/

/-- The scopes of the release fences before an access of a group (R256). -/
def State.relsOf (s : State) (r : Req) : List MScope :=
  if r.parcel.isSome then []
  else (s.rels.filter (fun e => decide (e.1 = r.team) && decide (e.2.1 = r.group))).map (fun e => e.2.2)

/-- The releases whose values a group has read. -/
def State.readsOf (s : State) (t g : Nat) : List Head :=
  (s.reads.filter (fun e => decide (e.1 = t) && decide (e.2.1 = g))).map (fun e => e.2.2)

/-- A group has read the values of the releases given. -/
def State.addReads (s : State) (t g : Nat) (hs : List Head) : State :=
  { s with reads := (s.mergeHeads hs (s.readsOf t g)).map (fun h => (t, g, h)) ++
      s.reads.filter (fun e => (decide (e.1 ≠ t) || decide (e.2.1 ≠ g)) && s.keeps e.2.2) }

/-- A group has issued a release fence; what the groups of teams that are gone issued is dropped. -/
def State.addRel (s : State) (t g : Nat) (m : MScope) : State :=
  { s with rels := (t, g, m) :: s.rels.filter (fun e => decide (e ≠ (t, g, m)) && (s.team? e.1).isSome) }

/-- A read takes the releases in its location's coherence order (R256). An acquire synchronises with those that it meets; the value of
another place than a home slice, which may be another agent's version, counts as a release that it meets (log entry 73). -/
def State.noteReads (s : State) (r : Req) : State :=
  let a := s.agentOf r
  let hs : List Head :=
    if r.place = .param then []
    else if r.place = .home ∧ r.shadow = false then s.headsAt r.pa r.bytes
    else [{ agent := a, scope := .sys, step := s.fresh }]
  let s1 := if acquires r.order then s.sync a r.mscope hs else s
  if r.parcel.isSome then s1 else s1.addReads r.team r.group hs

/-- A write at a home slice is about to be made for a lane (R256). -/
def State.noteWrite (s : State) (r : Req) : State :=
  let ms := (if releases r.order then [r.mscope] else []) ++ s.relsOf r
  (s.noteStore [r.core] r.comp r.pa r.bytes r.home).putHeads
    (ms.map (fun m => { agent := s.agentOf r, scope := m, step := s.fresh })) r.pa r.bytes

/-- A fence of one group (R256, R262, R268). -/
def State.fenceOf (s : State) (t : Team) (g : Nat) (order : MOrder) (m : MScope) (sc : Bool) : State :=
  let a := t.agent g
  let s1 := if acquires order then s.sync a m (s.readsOf t.id g) else s
  let s2 := if sc then { s1.sync a m s1.fences with fences := s1.mergeHeads [{ agent := a, scope := m, step := s.fresh }] s1.fences } else s1
  if releases order then s2.addRel t.id g m else s2

end Sys2Proof.Machine
end

