-- ==== Sys2Proof/Machine/Translate.lean ====
section
/-! DEFINITION. Address translation (spec/12_translation.md): the two-stage walk, the attributes of an access, the
cached translations, fault records, fault queues and merge tables. -/

namespace Sys2Proof.Machine

open Sys2Proof

/-! ### Page-table entries (R224, R225) -/

/-- The kinds of fault record (Table 12.4). -/
def kNotPresent : Nat := 1
def kWrite : Nat := 2
def kExecute : Nat := 3
def kMalformed : Nat := 4
def kStage2InWalk : Nat := 5
def kWalkAbort : Nat := 6

/-- A page-table entry as read. -/
inductive Pte where
  | notPresent
  | malformed
  | pointer (next : Nat)
  | leaf (size : Nat) (frame : Nat) (w x st : Bool) (home : BitVec 2) (comp : Nat) (d : Bool)
  deriving DecidableEq, Repr

/-- log2 of a leaf's page size. -/
def leafBits (size : Nat) : Nat := if size = 0 then 16 else if size = 1 then 21 else 30

/-- Reads an entry of `level` (Tables 12.1 to 12.3). `s2`: stage 2. -/
def readPte (s2 : Bool) (level : Nat) (e : DWord) : Pte :=
  if e.getLsbD 0 = false then .notPresent
  else
    let size := dfield e 6 2
    if size = 3 then
      let next := dfield e 8 44 * 256
      if dfield e 52 12 ≠ 0 ∨ dfield e 1 5 ≠ 0 ∨ level = 0 ∨ (s2 ∧ e.getLsbD 51) ∨ (2 ≤ level ∧ next % 4096 ≠ 0) then
        .malformed
      else .pointer next
    else
      let home : BitVec 2 := e.extractLsb' 4 2
      let frame := dfield e 16 36 * 65536
      let comp := dfield e 56 4
      let okLevel := (level = 0 ∧ size = 0) ∨ (level = 1 ∧ size = 1) ∨ (level = 2 ∧ size = 2)
      if dfield e 60 4 ≠ 0 ∨ dfield e 52 4 ≠ 0 ∨ ¬ okLevel ∨ frame % 2 ^ leafBits size ≠ 0 then .malformed
      else if s2 ∧ (comp ≠ 0 ∨ e.getLsbD 51) then .malformed
      else if ¬ s2 ∧ (home = 1#2 ∨ home = 2#2) then .malformed
      else .leaf size frame (e.getLsbD 1) (e.getLsbD 2) (e.getLsbD 3) home comp (e.getLsbD 9)

/-- Pages of a core's carve-out: as the record of the partition that owns its plat gives (Table 16.2). -/
def State.carveOf (s : State) (core : Nat) : Nat :=
  match s.platOwner (platOfCore core) with
  | some p => (s.part p).carve
  | none => 0

/-- The frame of a HOME = 01 leaf names a page of a core's carve-out (R227). -/
def State.carveOk (s : State) (size frame : Nat) : Bool :=
  decide (size = 0) && decide (pkgOf frame = s.pkgid.toNat) && decide (frame / 2 ^ 29 % 2 ^ 13 = 0) &&
  decide (frame / 2 ^ 21 % 256 < Config.cores) && decide (frame / 2 ^ 16 % 32 < s.carveOf (frame / 2 ^ 21 % 256))

/-- Reads the 8-byte entry at a host-physical address, and its poison. -/
def State.readEntry (s : State) (a : Nat) : DWord × Bool :=
  let r := s.readSys a 8
  (BitVec.ofNat 64 (bytesToNat r.1), r.2)

/-- Outcome of a stage-2 walk: the leaf with its entry address, a fault with its kind and level, or poison read. -/
inductive S2Res where
  | leaf (entry : Nat) (page : Nat) (w x st : Bool) (home : BitVec 2) (size : Nat)
  | fault (kind level : Nat)
  | poison
  deriving DecidableEq, Repr

/-- Index bits of stage 2 at a level (Table 12.1). -/
def s2Index (level gpa : Nat) : Nat :=
  if level = 3 then gpa / 2 ^ 39 % 2 ^ 13
  else if level = 2 then gpa / 2 ^ 30 % 512
  else if level = 1 then gpa / 2 ^ 21 % 512
  else gpa / 2 ^ 16 % 32

/-- Walks stage 2 from a table; `fuel` is the level plus one. `page` is the 64 KiB host-physical page of `gpa`. -/
def State.s2Walk (s : State) (gpa : Nat) : Nat → Nat → S2Res
  | 0, _ => .fault kMalformed 0
  | level + 1, table =>
    let ea := table + 8 * s2Index level gpa
    let r := s.readEntry ea
    if r.2 then .poison else
    match readPte true level r.1 with
    | .notPresent => .fault kNotPresent level
    | .malformed => .fault kMalformed level
    | .pointer next => s.s2Walk gpa level next
    | .leaf size frame w x st home _ _ =>
      if home = 1#2 ∧ s.carveOk size frame = false then .fault kMalformed level
      else .leaf ea ((frame + gpa % 2 ^ leafBits size) / 65536) w x st home size

def State.stage2 (s : State) (world gpa : Nat) : S2Res :=
  s.s2Walk gpa 4 (s.world world).s2root.toNat

/-- A host-physical address from a 64 KiB page and the offset of an address. -/
def inPage (page a : Nat) : Nat := page * 65536 + a % 65536

/-- Outcome of a stage-1 walk. `used`: stage-2 leaf entries that translated the tables. -/
inductive S1Res where
  | leaf (entry : Nat) (gpage : Nat) (w x st : Bool) (home : BitVec 2) (comp : Nat) (size : Nat) (used : List Nat)
  | fault (kind level : Nat)
  | inWalk (kind level gpa level1 : Nat)
  | poison
  deriving DecidableEq, Repr

/-- Index bits of stage 1 at a level (Table 12.1). -/
def s1Index (level va : Nat) : Nat :=
  if level = 0 then va / 2 ^ 16 % 32 else va / 2 ^ (12 + 9 * level) % 512

/-- Walks stage 1 from a guest-physical table (R223). An entry is read at its frame in memory whatever HOME its page has and though it
lies in the host window: DESIGN CHOICE (log entry 76). -/
def State.s1Walk (s : State) (world va : Nat) : Nat → Nat → List Nat → S1Res
  | 0, _, _ => .fault kMalformed 0
  | level + 1, table, used =>
    let eg := table + 8 * s1Index level va
    match s.stage2 world eg with
    | .poison => .poison
    | .fault _ l2 => .inWalk kStage2InWalk l2 eg level
    | .leaf e2 page _ _ _ _ _ =>
      let ea := inPage page eg
      let r := s.readEntry ea
      if r.2 then .poison else
      match readPte false level r.1 with
      | .notPresent => .fault kNotPresent level
      | .malformed => .fault kMalformed level
      | .pointer next => s.s1Walk world va level next (e2 :: used)
      | .leaf size frame w x st home comp _ =>
        .leaf ea ((frame + va % 2 ^ leafBits size) / 65536) w x st home comp size (e2 :: used)

/-- The entries that a walk of stage 2 reads, and those that a whole walk reads (R223). -/
def State.s2Path (s : State) (gpa : Nat) : Nat → Nat → List Nat
  | 0, _ => []
  | level + 1, table =>
    let ea := table + 8 * s2Index level gpa
    ea :: (match readPte true level (s.readEntry ea).1 with
      | .pointer next => s.s2Path gpa level next
      | _ => [])

def State.s1Path (s : State) (world va : Nat) : Nat → Nat → List Nat
  | 0, _ => []
  | level + 1, table =>
    let eg := table + 8 * s1Index level va
    s.s2Path eg 4 (s.world world).s2root.toNat ++ (match s.stage2 world eg with
      | .leaf _ page _ _ _ _ _ =>
        let ea := inPage page eg
        ea :: (match readPte false level (s.readEntry ea).1 with
          | .pointer next => s.s1Path world va level next
          | .leaf size frame _ _ _ _ _ _ =>
            s.s2Path (inPage ((frame + va % 2 ^ leafBits size) / 65536) va) 4 (s.world world).s2root.toNat
          | _ => [])
      | _ => [])

/-- A walk reads its entries: their corrections count (R248), and those in a page of the shadow set of a launch other than `own` make
it non-replayable (R363). -/
def State.noteWalk (s : State) (own : Option Nat) (w : Walk) : State :=
  (s.s1Path w.world w.va 5 (s.world w.world).s1root.toNat).foldl (fun st ea => (st.noteSys ea 8).noteRead own .home ea (w.va % 2 ^ 57) 8) s

/-- ORs bits into the second byte of an entry: A is bit 8, D bit 9 (R229). -/
def State.orEntry (s : State) (ea : Nat) (d : Bool) : State :=
  let old := s.byte (ea + 1)
  s.writeSys (ea + 1) [old ||| (if d then 3#8 else 1#8)]

/-- Outcome of a whole walk (R223 to R229). -/
inductive WalkRes where
  | done (s : State) (e : TlbEntry)
  | fault (stage2 : Bool) (page : Nat) (rec : FaultRec) (level1 : Nat)
  /-- the page has another compartment than the access needs: Protection, without a record (R228) -/
  | refused
  | poison
  deriving DecidableEq, Repr

/-- ACCESS codes of Table 12.4. -/
def Access.code : Access → Nat
  | .read => 0 | .write => 1 | .fetch => 2 | .atomic => 3

def Access.writes : Access → Bool
  | .write | .atomic => true
  | _ => false

/-- AGENT codes of Table 12.4. -/
def Requester.agent : Requester → Nat
  | .strand .. | .parcel .. | .side .. => 0
  | .claim .. => 2
  | .dispatch .. | .scheduler .. | .completion .. => 3
  | .migration => 5
  | .faultWriter .. => 6

/-- The walk of one access: both stages, the permission of R228, and A and D. -/
def State.walkFor (s : State) (w : Walk) : WalkRes :=
  let base : FaultRec :=
    { agent := w.who.agent, core := w.core, kind := 0, access := w.access.code, world := w.world, comp := w.comp,
      stage := 1, level := 0, id := 0, gpa := 0, va := w.va % 2 ^ 57 }
  match s.s1Walk w.world w.va 5 (s.world w.world).s1root.toNat [] with
  | .poison => .poison
  | .fault k l => .fault false (w.va / 65536) { base with kind := k, level := l } 0
  | .inWalk k l2 eg l1 =>
    .fault true (eg / 65536) { base with kind := k, access := 4, stage := 2, level := l2, gpa := eg } l1
  | .leaf e1 gpage w1 x1 st1 h1 comp size1 used =>
    let level1 := if size1 = 0 then 0 else if size1 = 1 then 1 else 2
    if w.want.isSome ∧ w.want ≠ some comp then .refused
    else if w.access.writes ∧ ¬ w1 then .fault false (w.va / 65536) { base with kind := kWrite, level := level1 } 0
    else if w.access = .fetch ∧ ¬ x1 then .fault false (w.va / 65536) { base with kind := kExecute, level := level1 } 0
    else
      let gpa := inPage gpage w.va
      match s.stage2 w.world gpa with
      | .poison => .poison
      | .fault k l => .fault true gpage { base with kind := k, stage := 2, level := l, gpa := gpa } 0
      | .leaf e2 page w2 x2 st2 h2 size2 =>
        let level2 := if size2 = 0 then 0 else if size2 = 1 then 1 else 2
        if w.access.writes ∧ ¬ w2 then
          .fault true gpage { base with kind := kWrite, stage := 2, level := level2, gpa := gpa } 0
        else if w.access = .fetch ∧ ¬ x2 then
          .fault true gpage { base with kind := kExecute, stage := 2, level := level2, gpa := gpa } 0
        else
          let d := w.access.writes
          let s1 := used.foldl (fun st e => st.orEntry e false) s
          let s2 := (s1.orEntry e1 d).orEntry e2 d
          .done s2
            { die := s.dieFor w.core w.world, world := w.world, vpage := w.va / 65536, ppage := page, gpage := gpage,
              attr := { w := w1 && w2, x := x1 && x2, s := st1 && st2,
                        home := if h1 = 3#2 ∧ h2 = 0#2 then 3#2 else h2, comp := comp, size := min size1 size2 },
              dirty := d }

/-! ### Fault queues (R232) -/

def FaultQueue.idBusy (q : FaultQueue) (i : BitVec 32) : Bool :=
  decide (i = 0#32) || q.outstanding.any (fun e => decide (e.1 = i))

/-- The next free record id: 0 and outstanding ids are skipped. -/
def FaultQueue.pickId (q : FaultQueue) : Nat → BitVec 32 → BitVec 32
  | 0, i => i
  | n + 1, i => if q.idBusy i then q.pickId n (i + 1) else i

/-- The 32 bytes of a record (Table 12.4). -/
def FaultRec.toBytes (r : FaultRec) : List Byte :=
  natToBytes 8 (r.va % 2 ^ 57) ++ natToBytes 8 r.gpa ++
  natToBytes 8 (r.id.toNat + r.level % 16 * 2 ^ 32 + r.stage % 4 * 2 ^ 36 + r.comp % 16 * 2 ^ 38 +
    r.world % 64 * 2 ^ 42 + r.access % 256 * 2 ^ 48 + r.kind % 256 * 2 ^ 56) ++
  natToBytes 8 (r.core % 256 * 2 ^ 48 + r.agent % 256 * 2 ^ 56)

/-- Whose queue: the world's stage-1 queue or its partition's stage-2 queue. -/
def State.queueOf (s : State) (stage2 : Bool) (world : Nat) : FaultQueue :=
  if stage2 then (s.partOfWorld world).s2q else (s.world world).fq

def State.setQueue (s : State) (stage2 : Bool) (world : Nat) (q : FaultQueue) : State :=
  if stage2 then s.modPart (s.world world).partId (fun p => { p with s2q := q })
  else s.modWorld world (fun w => { w with fq := q })

/-- Host-physical place of the next record; the stage-1 place goes through stage 2. -/
def State.recordPlace (s : State) (stage2 : Bool) (world : Nat) : S2Res :=
  let q := s.queueOf stage2 world
  let a := q.base.toNat + 32 * (q.head.toNat % 4096)
  if stage2 then .leaf 0 (a / 65536) true false false 0#2 0
  else match s.stage2 world a with
    | .leaf e p w x st h z => if w then .leaf e p w x st h z else .fault kWrite (if z = 0 then 0 else if z = 1 then 1 else 2)
    | r => r

/-- A record for merge entry `m` is written, or held when the queue is full or its place does not translate (R232). -/
def State.emitRaw (s : State) (stage2 : Bool) (r : FaultRec) (m : Nat) : State :=
  let q := s.queueOf stage2 r.world
  let hold := s.setQueue stage2 r.world { q with held := q.held ++ [(r, m)] }
  if (q.head - q.tail).toNat = 4096 ∨ q.held ≠ [] then hold
  else match s.recordPlace stage2 r.world with
    | .leaf e page _ _ _ home _ =>
      let id := q.pickId (q.outstanding.length + 2) q.nextId
      let a := inPage page (q.base.toNat + 32 * (q.head.toNat % 4096))
      let s1 := s.setQueue stage2 r.world
        { q with head := q.head + 1, nextId := if id = 0xFFFFFFFF#32 then 1#32 else id + 1,
                 outstanding := q.outstanding ++ [(id, m)] }
      let s2 := if stage2 then s1 else s1.orEntry e true
      s2.writeAt r.world home a ({ r with id := id } : FaultRec).toBytes
    | _ => hold

/-- The merge entry of a key, if one stands (R235). -/
def State.mergeFor (s : State) (die world : Nat) (stage2 : Bool) (page : Nat) : Option Merge :=
  s.merges.find? (fun m => decide (m.die = die) && decide (m.world = world) && (m.stage2 == stage2) && decide (m.page = page))

def State.chainUsed (s : State) (die : Nat) : Nat :=
  (s.merges.filter (fun m => decide (m.die = die))).foldl (fun n m => n + (m.waiters.length - Config.inlineWaiters)) 0

/-- A walk waits on a merge entry, with the fault that it met itself (R234), or on none. -/
def State.setWait (s : State) (walk : Nat) (m : Option Nat) (f : Option (Nat × Nat)) : State :=
  { s with walks := s.walks.map (fun w => if w.id = walk then { w with waitOn := m, fault := f } else w) }

/-- A faulted walk joins or allocates its merge entry; the first one emits the record, by `emit`. With the table or the chain
pool full it is held without a record and walks again later (R235). -/
def State.mergeBy (s : State) (emit : State → FaultRec → Nat → State) (w : Walk) (stage2 : Bool) (page : Nat) (r : FaultRec)
    (level1 : Nat) : State :=
  let die := s.dieFor w.core w.world
  match s.mergeFor die w.world stage2 page with
  | some m =>
    if m.waiters.length ≥ Config.inlineWaiters ∧ s.chainUsed die ≥ Config.chainCells then s
    else
      let s1 : State := { s with merges := s.merges.map (fun (x : Merge) =>
        if x.id = m.id then { x with waiters := x.waiters ++ [w.id] } else x) }
      s1.setWait w.id (some m.id) (some (r.kind, level1))
  | none =>
    if (s.merges.filter (fun m => decide (m.die = die))).length ≥ Config.mergeEntries then s
    else
      let (id, s1) := s.freshId
      let s2 : State := { s1 with merges := s1.merges ++
        [{ id := id, die := die, world := w.world, stage2 := stage2, page := page, waiters := [w.id], record := r }] }
      emit (s2.setWait w.id (some id) (some (r.kind, level1))) r id

/-- The walk of the fault-queue writer for a stage-1 place that does not translate (R232). -/
def State.writerFault (s : State) (world : Nat) : State :=
  let q := (s.world world).fq
  if q.held = [] ∨ (q.head - q.tail).toNat = 4096 then s
  else if s.walks.any (fun w => decide (w.who = .faultWriter world)) then s
  else match s.recordPlace false world with
    | .fault k l =>
      let (id, s1) := s.freshId
      let a := q.base.toNat + 32 * (q.head.toNat % 4096)
      let w : Walk := { id := id, who := .faultWriter world, world := world, comp := 0, core := 0xFF, va := 0,
                        access := .write, waitOn := none, want := none, fault := none }
      ({ s1 with walks := s1.walks ++ [w] } : State).mergeBy (fun st r m => st.emitRaw true r m) w true (a / 65536)
        { agent := 6, core := 0xFF, kind := k, access := 1, world := world, comp := 0, stage := 2, level := l, id := 0,
          gpa := a, va := 0 } 0
    | _ => s

/-- Emits a record for merge entry `m`. A stage-1 record whose place does not translate is held, and the fault-queue writer
reports the place (R232). -/
def State.emitOnly (s : State) (stage2 : Bool) (r : FaultRec) (m : Nat) : State :=
  let s1 := s.emitRaw stage2 r m
  if stage2 then s1 else s1.writerFault r.world

/-- A faulted walk joins its merge entry, or allocates it and emits the record (R235). -/
def State.mergeFault (s : State) (w : Walk) (stage2 : Bool) (page : Nat) (r : FaultRec) (level1 : Nat) : State :=
  s.mergeBy (fun st x m => st.emitOnly stage2 x m) w stage2 page r level1

/-- Writes held records while places are free. Each round writes one. -/
def State.drainHeld (stage2 : Bool) (world : Nat) : Nat → State → State
  | 0, s => s
  | n + 1, s =>
    let q := s.queueOf stage2 world
    match q.held with
    | [] => s
    | (r, m) :: t =>
      let s1 := (s.setQueue stage2 world { q with held := [] }).emitRaw stage2 r m
      let q1 := s1.queueOf stage2 world
      if q1.held = [] then State.drainHeld stage2 world n (s1.setQueue stage2 world { q1 with held := t })
      else (s.setQueue stage2 world q)

/-- Held records are tried again, and the fault-queue writer reports a place that does not translate; while its own record
stands, a stage-1 record stays held (R232). -/
def State.retryHeld (s : State) (stage2 : Bool) (world : Nat) : State :=
  if stage2 = false ∧ s.walks.any (fun w => decide (w.who = .faultWriter world)) = true then s
  else
    let s := State.drainHeld stage2 world (s.queueOf stage2 world).held.length s
    if stage2 then s else s.writerFault world

/-! ### Looking up an access -/

/-- What an access finds. -/
inductive Look where
  | ok (hpa : Nat) (attr : Attr) (ext : Option Nat)
  | miss
  | trap (k : TrapKind)
  deriving DecidableEq, Repr

/-- The extent of a node that holds an access wholly (R239). -/
def Node.extentOf (n : Node) (va bytes : Nat) : Option Extent :=
  n.extents.find? (fun e => decide (e.lo ≤ va) && decide (va + bytes ≤ e.hi))

def State.tlbFind (s : State) (die world vpage : Nat) : Option TlbEntry :=
  s.tlb.find? (fun e => decide (e.die = die) && decide (e.world = world) && decide (e.vpage = vpage))

/-- The compartment of a page must be that of the requester (R228); a node never writes a stable page. -/
def attrTrap (a : Attr) (comp : Nat) (acc : Access) : Option TrapKind :=
  if a.comp ≠ comp then some .protection
  else if acc.writes ∧ a.s then some .stableWrite
  else none

/-- Step 4 of R251: the reserved parts of the local map, and plats of another partition (R241, R243). The windows are
served under `Place.register` and `Place.host`. A pinned page of a core outside the partition is out of reach as well (R305);
what another package holds above its DRAM is not served from here. The privileged view is open in firmware mode only
(Table 20.1). -/
def State.reach (s : State) (part : Nat) (world : Nat) (home : BitVec 2) (hpa : Nat) (firmware : Bool := false) : Option TrapKind :=
  if home = 1#2 then (if (s.part part).hasCore (carveCore hpa) then none else some .routeFault)
  else
    let l := localOf hpa
    if pkgOf hpa ≠ s.pkgid.toNat then
      if isDram hpa = false then some .protection
      else if (Tbl.get 0#512 s.drmask (s.part part).peersIx).getLsbD (pkgOf hpa) then none else some .routeFault
    else if isDram hpa then
      if (s.part part).hasPlat (platOf hpa) then none else some .routeFault
    else if 0x3C000000000 ≤ l ∧ l < 0x3E000000000 then none
    else if 0x3F000000000 ≤ l ∧ l < 0x3F004000000 then
      if (l - 0x3F000000000) / 0x100000 = world then none else some .protection
    else if 0x3F004000000 ≤ l ∧ l < 0x3F008000000 ∧ firmware = true then none
    else some .protection

/-- The parameter page (R324). -/
def paramPage : Nat := 0x1FFFFFFFFFF

/-- One access of a node's lane or parcel to the bytes at `va` (R239, R226 to R228, R234). A fetch is not looked up in the extent
table: DESIGN CHOICE (log entry 76). -/
def State.lookNode (s : State) (n : Node) (core : Nat) (who : Requester) (va bytes : Nat) (acc : Access) : Look :=
  if va / 65536 = paramPage then .trap .protection
  else match (if acc = .fetch then none else n.extentOf va bytes) with
  | some e =>
    if acc.writes ∧ e.dir = 1 then .trap .protection
    else .ok (inPage (e.ppage + (va / 65536 - e.vpage)) va) e.attr (some e.dir)
  | none =>
    if s.denied.any (fun d => decide (d.who = who) && decide (d.vpage = va / 65536)) then .trap .protection
    else match s.tlbFind (s.dieFor core n.world) n.world (va / 65536) with
      | none => .miss
      | some t =>
        if t.attr.comp ≠ n.desc.comp then .trap .protection
        else if (acc.writes ∧ (¬ t.attr.w ∨ ¬ t.dirty)) ∨ (acc = .fetch ∧ ¬ t.attr.x) then .miss
        else match attrTrap t.attr n.desc.comp acc with
          | some k => .trap k
          | none => .ok (inPage t.ppage va) t.attr none

/-- Asks for a walk, unless the requester already has one for the page; `want` is the compartment that the page must have, if
it must have one. -/
def State.askWalkFor (s : State) (want : Option Nat) (who : Requester) (world comp core va : Nat) (acc : Access) : State :=
  if s.walks.any (fun w => decide (w.who = who) && decide (w.va / 65536 = va / 65536) && decide (w.access = acc)) then s
  else
    let (id, s1) := s.freshId
    { s1 with walks := s1.walks ++
      [{ id := id, who := who, world := world, comp := comp, core := core, va := va, access := acc, waitOn := none, want := want, fault := none }] }

/-- Asks for a walk for an access of a compartment's own pages (R228). -/
def State.askWalk (s : State) (who : Requester) (world comp core va : Nat) (acc : Access) : State :=
  s.askWalkFor (some comp) who world comp core va acc

/-- Forgets the walks and refusals of a requester. -/
def State.dropWalks (s : State) (p : Requester → Bool) : State :=
  let ids := (s.walks.filter (fun w => p w.who)).map (fun w => w.id)
  { s with
    walks := s.walks.filter (fun w => !p w.who)
    denied := s.denied.filter (fun d => !p d.who)
    merges := s.merges.map (fun m => { m with waiters := m.waiters.filter (fun i => !ids.contains i) }) }

end Sys2Proof.Machine
end

