-- ==== Sys2Proof/Machine/Tract.lean ====
section
/-! DEFINITION. Tracts, parcels and form registers (spec/06_tracts.md): values in form, the box of a parcel, fan-out,
and the re-forming of parked teams. -/

namespace Sys2Proof.Machine

open Sys2Proof

/-! ### The grid of a node -/

/-- Global compartment id of a node (R368). -/
def Node.gcomp (n : Node) : Nat := 16 * n.world + n.desc.comp

/-- Teams of the grid in each dimension (R99). -/
def Node.gridX (n : Node) : Nat := (n.ent.nx + n.desc.tx - 1) / n.desc.tx
def Node.gridY (n : Node) : Nat := (n.ent.ny + n.desc.ty - 1) / n.desc.ty
def Node.gridZ (n : Node) : Nat := (n.ent.nz + n.desc.tz - 1) / n.desc.tz

/-- Linear team index, x fastest (R102). -/
def Node.teamIndex (n : Node) (x y z : Nat) : Nat := x + n.gridX * (y + n.gridY * z)

/-- Lanes of a team, and its groups. -/
def Node.teamLanes (n : Node) : Nat := n.desc.tx * n.desc.ty * n.desc.tz
def Node.groupCount (n : Node) : Nat := (n.teamLanes + 31) / 32

/-- The item of a lane (R105), as (ix, iy, iz). -/
def Node.item (n : Node) (x y z g l : Nat) : Nat × Nat × Nat :=
  let k := 32 * g + l
  (x * n.desc.tx + k % n.desc.tx, y * n.desc.ty + k / n.desc.tx % n.desc.ty, z * n.desc.tz + k / (n.desc.tx * n.desc.ty))

def Node.inGrid (n : Node) (i : Nat × Nat × Nat) : Bool :=
  decide (i.1 < n.ent.nx) && decide (i.2.1 < n.ent.ny) && decide (i.2.2 < n.ent.nz)

/-- The item of a lane of a team. -/
def Team.item (t : Team) (n : Node) (g l : Nat) : Nat × Nat × Nat := n.item t.tx t.ty t.tz g l

/-! ### Values in form (R100, R101) -/

def dimOf (d : Dim) (i : Nat × Nat × Nat) : Nat :=
  match d with
  | .x => i.1 | .y => i.2.1 | .z => i.2.2

/-- The value of a form register at an item; none when it is undefined (R100). -/
def FormVal.at_ (v : FormVal) (i : Nat × Nat × Nat) : Option Word :=
  match v with
  | .undef => none
  | .uni u => some u
  | .aff b cx cy cz =>
    some (b + cx * BitVec.ofNat 32 i.1 + cy * BitVec.ofNat 32 i.2.1 + cz * BitVec.ofNat 32 i.2.2)

/-- An affine value with every coefficient zero is uniform (R100). -/
def FormVal.norm (v : FormVal) : FormVal :=
  match v with
  | .aff b cx cy cz => if cx = 0 ∧ cy = 0 ∧ cz = 0 then .uni b else v
  | _ => v

def formGet (f : Tbl FormVal) (r : Nat) : FormVal := Tbl.get .undef f r
def formSet (f : Tbl FormVal) (r : Nat) (v : FormVal) : Tbl FormVal := Tbl.set .undef f r v.norm

def predGet (p : Tbl PredVal) (k : Nat) : PredVal := if k = 7 then .uni true else Tbl.get .undef p k
def predSet (p : Tbl PredVal) (k : Nat) (v : PredVal) : Tbl PredVal := Tbl.set .undef p k v

/-- A predicate's bit at an item (Table 6.1). -/
def PredVal.at_ (v : PredVal) (i : Nat × Nat × Nat) : Option Bool :=
  match v with
  | .undef => none
  | .uni b => some b
  | .range d t ge => some (if ge then decide (t ≤ dimOf d i) else decide (dimOf d i < t))

/-- Bounds of a parcel in items, [lo, hi), cut to the grid. -/
def Parcel.bounds (p : Parcel) (n : Node) (d : Dim) : Nat × Nat :=
  match d with
  | .x => (p.lo.1 * n.desc.tx, p.hi.1 * n.desc.tx)
  | .y => (p.lo.2.1 * n.desc.ty, p.hi.2.1 * n.desc.ty)
  | .z => (p.lo.2.2 * n.desc.tz, p.hi.2.2 * n.desc.tz)

/-- A predicate that holds one value over the whole parcel (R101). -/
def Parcel.uniPred (p : Parcel) (n : Node) (k : Nat) : Option Bool :=
  match predGet p.preds k with
  | .undef => none
  | .uni b => some b
  | .range d t ge =>
    let b := p.bounds n d
    if t ≤ b.1 then some ge else if b.2 ≤ t then some (!ge) else none

/-! ### Sequence and loops in form (R109) -/

/-- Where a parcel goes after the instruction at `a`, ending loop passes on the way (R91). -/
def formNext (a : Addr) (n : Addr) : List Loop → List Loop × Addr
  | [] => ([], n)
  | lp :: r =>
    if lp.fin = n ∧ inBody lp.top lp.fin a then
      if lp.count = 1#32 then formNext a n r else ({ lp with count := lp.count - 1 } :: r, lp.top)
    else (lp :: r, n)

def Parcel.advance (p : Parcel) : Parcel :=
  let r := formNext p.pc (nextAddr p.pc) p.loops
  { p with pc := r.2, loops := r.1, hold := .none, entry := false }

def Parcel.goto (p : Parcel) (a : Addr) : Parcel :=
  { p with pc := a, loops := loopsAfter a p.loops, hold := .none, entry := false }

/-! ### Fan-out (R105) -/

/-- Team coordinates of a box, in ascending linear order. -/
def boxTeams (lo hi : Nat × Nat × Nat) : List (Nat × Nat × Nat) :=
  (List.range (hi.2.2 - lo.2.2)).flatMap (fun z =>
    (List.range (hi.2.1 - lo.2.1)).flatMap (fun y =>
      (List.range (hi.1 - lo.1)).map (fun x => (lo.1 + x, lo.2.1 + y, lo.2.2 + z))))

/-- Exit mask kept for a group of a team (R113). -/
def Parcel.exitMask (p : Parcel) (idx g : Nat) : LaneMask :=
  match p.exits.find? (fun e => decide (e.1 = idx)) with
  | none => 0#32
  | some e => e.2.getD g 0#32

/-- A group as fan-out makes it (R105, R117). -/
def Parcel.makeGroup (p : Parcel) (n : Node) (x y z g : Nat) : Group :=
  let out := p.exitMask (n.teamIndex x y z) g |||
    maskOf (fun l => decide (n.teamLanes ≤ 32 * g + l) || !n.inGrid (n.item x y z g l))
  let ks := List.range 7
  let bit := fun k l => (predGet p.preds k).at_ (n.item x y z g l)
  let kval : Tbl LaneMask := ks.foldl (fun t k => Tbl.set 0#32 t k (maskOf (fun l => bit k l == some true))) []
  let kdef : Tbl LaneMask := ks.foldl (fun t k => Tbl.set 0#32 t k (maskOf (fun l => (bit k l).isSome))) []
  let loops := p.loops.map (fun lp => { lp with waiting := 0#32 })
  { regs := [], empty := [], xbase := [], xlimit := [], xoff := [], kval := kval, kdef := kdef,
    lflags := laneList.foldl (fun t l => Tbl.set 0#6 t l p.flags) [],
    pc := laneList.foldl (fun t l => Tbl.set 0#64 t l p.pc) [],
    exited := out, strands := if out = 0xFFFF_FFFF#32 then [] else [Strand.fresh 0xFF#8], divs := [], loops := loops,
    ws := [], resume := [], kept := [], returned := 0#32,
    placement := some { pc := p.pc, kval := kval, kdef := kdef, loops := loops, form := p.form, entry := p.entry, due := none },
    log := [], replay := [], consumed := [], trap := none, waits := [], deferred := none, passEnd := none }

/-- An empty A-latch slot. -/
def Latch.free : Latch := { held := none, words := [], scales := [] }

/-- A team as fan-out makes it. -/
def Parcel.makeTeam (p : Parcel) (n : Node) (id : Nat) (c : Nat × Nat × Nat) : Team :=
  let gs := (List.range n.groupCount).map (fun g => p.makeGroup n c.1 c.2.1 c.2.2 g)
  { id := id, node := n.id, index := n.teamIndex c.1 c.2.1 c.2.2, tx := c.1, ty := c.2.1, tz := c.2.2,
    cluster := n.teamIndex c.1 c.2.1 c.2.2 / (n.desc.cx * n.desc.cy),
    rank := n.teamIndex c.1 c.2.1 c.2.2 % (n.desc.cx * n.desc.cy), lead := 0, phase := if gs.all (fun g => g.ended) then .ended else .toPlace, core := 0, age := 0,
    groups := gs, form := p.form, mwin := n.ent.mwin, dph := 0, scratchBase := 0, scratch := [], obs := [], banks := [],
    latch0 := Latch.free, latch1 := Latch.free, bcount := 0, bwait := none, joined := false, claims := [], bars := [], sendq := [], recvq := [],
    sidelog := [], preempt := false, nwait := none, parkedAt := p.pc, parkedPreds := [], parkedLoops := [] }

/-- Adds the teams of a box to the machine. -/
def State.addTeams (s : State) (ts : List (Nat → Team)) : State :=
  { s with nextId := s.nextId + ts.length
           teams := s.teams ++ (indexed ts).map (fun e => e.2 (s.nextId + e.1)) }

/-- The lead rank of a cluster: the lowest rank that holds a team among the teams of a fan-out (R335). -/
def leadAmong (ts : List Team) (cluster : Nat) : Nat :=
  match (ts.filter (fun t => decide (t.cluster = cluster) && decide (t.phase ≠ .ended))).map (fun t => t.rank) with
  | [] => 0
  | a :: r => r.foldl min a

/-- The refusals handed to a parcel, for each group of the teams it becomes, so that each raises the trap (R110). -/
def State.passDenied (s : State) (n : Node) (p : Parcel) (teams : List Nat) : List Denied :=
  (s.denied.filter (fun d => decide (d.who = .parcel n.id p.id))).flatMap (fun d =>
    teams.flatMap (fun t => (List.range n.groupCount).map (fun g => { d with who := .strand t g 0xFF#8 })))

/-- The team's groups owe the trap that their parcel met at its instruction (R110). -/
def Team.owe (t : Team) (due : Option (TrapKind × DWord)) : Team :=
  { t with groups := t.groups.map (fun g => { g with placement := g.placement.map (fun p => { p with due := due }) }) }

/-- The parcel becomes teams that wait for placement, at its instruction (R105, R110). `badEntry`: the check of the node's
entry has failed there (R29); `due`: the check of a branch target has. -/
def State.fanOut (s : State) (n : Node) (p : Parcel) (badEntry : Bool := false) (due : Option (TrapKind × DWord) := none) : State :=
  let p : Parcel := { p with entry := badEntry }
  let s1 := s.modNode n.id (fun x => { x with parcels := x.parcels.filter (fun q => decide (q.id ≠ p.id)) })
  let s2 := s1.dropWalks (fun w => match w with
    | .parcel x y => decide (x = n.id) && decide (y = p.id)
    | _ => false)
  let made := (boxTeams p.lo p.hi).map (fun c => p.makeTeam n 0 c)
  ({ s2 with denied := s2.denied ++ s.passDenied n p ((List.range made.length).map (fun i => s2.nextId + i)) } : State).addTeams
    (made.map (fun t id => ({ t with id := id, lead := leadAmong made t.cluster } : Team).owe due))

/-! ### Re-forming at tjoin (R112, R113) -/

/-- A predicate of a team as it is kept when the team parks (R112). -/
def Team.parkPred (t : Team) (k : Nat) : PredVal :=
  let lanes := t.groups.flatMap (fun g => (lanesOf (~~~g.exited)).map (fun l =>
    if g.predDef k l then some (g.pred k l) else none))
  match lanes with
  | [] => .undef
  | b :: _ => match b with
    | none => .undef
    | some v => if lanes.all (fun x => x == some v) then .uni v else .undef

/-- Loops compare by counter, count and body (R113). -/
def loopKey (ls : List Loop) : List (Nat × Word × Addr × Addr) := ls.map (fun l => (l.n, l.count, l.top, l.fin))

/-- Loop state in the order of the counters. -/
def Team.loopsAgree (t : Team) : Bool :=
  match (t.groups.filter (fun g => !g.ended)).map (fun g => loopKey g.loops) with
  | [] => true
  | a :: r => r.all (fun b => b == a)

/-- A group's remains in a parked team: its exit mask. -/
def Group.parkRemains (g : Group) : Group :=
  { regs := [], empty := [], xbase := [], xlimit := [], xoff := [], kval := [], kdef := [], lflags := [], pc := [],
    exited := g.exited, strands := [], divs := [], loops := [], ws := [], resume := [], kept := [], returned := 0#32,
    placement := none, log := [], replay := [], consumed := [], trap := none, waits := [], deferred := none, passEnd := none }

/-- Two parked teams hold equal states (R113). -/
def sameParked (a b : Team) : Bool :=
  decide (a.parkedAt = b.parkedAt) && decide (a.form = b.form) && decide (a.parkedPreds = b.parkedPreds) &&
  decide (loopKey a.parkedLoops = loopKey b.parkedLoops)

/-- A box of parked teams: corners and the state of one of them. -/
structure Box where
  lo : Nat × Nat × Nat
  hi : Nat × Nat × Nat
  rep : Team
  deriving DecidableEq, Repr

/-- Step 1 of R113 over the parked teams in linear order. -/
def rowBoxes : List Team → List Box
  | [] => []
  | t :: r =>
    match rowBoxes r with
    | b :: bs =>
      if b.lo = (t.tx + 1, t.ty, t.tz) ∧ sameParked t b.rep then
        { b with lo := (t.tx, t.ty, t.tz), rep := t } :: bs
      else { lo := (t.tx, t.ty, t.tz), hi := (t.tx + 1, t.ty + 1, t.tz + 1), rep := t } :: b :: bs
    | [] => [{ lo := (t.tx, t.ty, t.tz), hi := (t.tx + 1, t.ty + 1, t.tz + 1), rep := t }]

/-- Box `b` lies next above `a` in y. -/
def mergesY (a b : Box) : Bool :=
  decide (a.lo.1 = b.lo.1) && decide (a.hi.1 = b.hi.1) && decide (a.lo.2.2 = b.lo.2.2) && decide (a.hi.2.2 = b.hi.2.2) &&
  decide (a.hi.2.1 = b.lo.2.1) && sameParked a.rep b.rep

def mergesZ (a b : Box) : Bool :=
  decide (a.lo.1 = b.lo.1) && decide (a.hi.1 = b.hi.1) && decide (a.lo.2.1 = b.lo.2.1) && decide (a.hi.2.1 = b.hi.2.1) &&
  decide (a.hi.2.2 = b.lo.2.2) && sameParked a.rep b.rep

/-- Adds a box to a list of merged boxes: it joins the box below it, if one merges. -/
def addBox (m : Box → Box → Bool) (bs : List Box) (b : Box) : List Box :=
  match bs.find? (fun a => m a b) with
  | none => bs ++ [b]
  | some a => bs.map (fun x => if x = a then { a with hi := b.hi } else x)

/-- Steps 2 and 3 of R113: boxes in linear order of their first team merge upward. -/
def mergeBoxes (m : Box → Box → Bool) (bs : List Box) : List Box := bs.foldl (addBox m) []

/-- Nothing of the node runs except parked teams. -/
def State.allParked (s : State) (n : Node) : Bool :=
  decide (n.parcels = []) && (s.teamsOf n.id).all (fun t => decide (t.phase = .parked) || decide (t.phase = .ended))

/-- Teams in linear order. -/
def insertTeam (t : Team) : List Team → List Team
  | [] => [t]
  | u :: r => if t.index ≤ u.index then t :: u :: r else u :: insertTeam t r

def sortTeams (ts : List Team) : List Team := ts.foldl (fun l t => insertTeam t l) []

/-- The parcel that a box becomes (R113). -/
def Box.toParcel (b : Box) (id : Nat) (ts : List Team) : Parcel :=
  let p : Parcel :=
    { id := id, pc := b.rep.parkedAt, lo := b.lo, hi := b.hi, form := b.rep.form, preds := b.rep.parkedPreds,
      loops := b.rep.parkedLoops,
      exits := (ts.filter (fun t => decide (b.lo.1 ≤ t.tx ∧ t.tx < b.hi.1 ∧ b.lo.2.1 ≤ t.ty ∧ t.ty < b.hi.2.1 ∧
        b.lo.2.2 ≤ t.tz ∧ t.tz < b.hi.2.2))).map (fun t => (t.index, t.groups.map (fun g => g.exited))),
      flags := 0#6, hold := .none, entry := false }
  p.advance

/-- RE_FORMING: when every team of the node that has not wholly exited has parked, the boxes become parcels; the start
of each acts as an acquire at package scope (R113, R114). Cluster and grid objects are discarded (R274), and the ranks of
teams that have ended are vacant from here on (R334). -/
def State.reForm (s : State) (node : Nat) : State :=
  match s.node? node with
  | none => s
  | some n =>
    let parked := (s.teamsOf node).filter (fun t => decide (t.phase = .parked))
    if s.allParked n = false ∨ parked = [] then s
    else
      let ts := sortTeams parked
      let boxes := mergeBoxes mergesZ (mergeBoxes mergesY (rowBoxes ts))
      let ps := (indexed boxes).map (fun e => e.2.toParcel (s.nextId + e.1) ts)
      let s1 : State := { s with nextId := s.nextId + boxes.length
                                 teams := (s.teams.filter (fun t => !(decide (t.node = node) && decide (t.phase = .parked)))).map
                                   (fun t => if t.node = node then { t with joined := false } else t) }
      (s1.modNode node (fun x =>
        { x with parcels := x.parcels ++ ps, cbars := []
                 clusters := if x.desc.cores then x.clusters else x.clusters.take 1 })).dropL1 n.leadCore

end Sys2Proof.Machine
end

