-- ==== Sys2Proof/Machine/Fetch.lean ====
section
/-! DEFINITION. Instruction fetch: the fetch line, its checks (R26 to R31), and the TARGET bit of a transfer (R29). -/

namespace Sys2Proof.Machine

open Sys2Proof

/-- Key of a fetch line in a core's instruction cache: world, compartment and line address. -/
def lineKey (n : Node) (a : Addr) : Nat := n.gcomp * 2 ^ 57 + (lineOf a).toNat

/-- What the fetch of a line finds. -/
inductive FetchRes where
  | line (l : BitVec 512) (s : State)
  | wait (s : State)
  | trap (k : TrapKind)
  | consumed (s : State)
  deriving DecidableEq, Repr

/-- The line as a filled line of the cache: `bad` when a parity bit mismatches (R31). -/
def fillLine (bs : List Byte) (node : Nat) (who : Requester) : ILine :=
  let l := BitVec.ofNat 512 (bytesToNat bs)
  { line := l, bad := !lineParityOk l, node := node, who := who }

/-! ### Stable replicas (R246) -/

/-- The die of a core's slices differs from that of the line's home slice. -/
def State.farHome (s : State) (core pa : Nat) : Bool := decide (s.sliceAt pa / 30 ≠ dieOfCore core)

/-- The replica that serves a node's relaxed load or fetch of a stable page on the reader's die, if it may have one: that which
stands, or one made now. Another package's line has none: no cache of this one holds it (R243). -/
def State.replicaFor (s : State) (n : Node) (core pa : Nat) : Option (Replica × State) :=
  if s.farHome core pa = false ∨ pkgOf pa ≠ s.pkgid.toNat ∨ s.poisoned (pa / 128 * 128) 128 = true then none
  else
    let die := dieOfCore core
    match s.replicas.find? (fun x => decide (x.node = n.id) && decide (x.die = die) && decide (x.line = pa / 128)) with
    | some x => some (x, s)
    | none =>
      let x : Replica := { node := n.id, die := die, line := pa / 128, bytes := s.bytes (pa / 128 * 128) 128 }
      some (x, { s with replicas := s.replicas ++ [x] })

/-- The value that each aligned 8-byte unit has in a read that a replica may serve. -/
def Replica.mix (x : Replica) (fresh pa : Nat) (home : List Byte) : List Byte :=
  (indexed home).map (fun e =>
    if Config.tornUnit (2 ^ 64 * fresh + (pa + e.1) / 8) then x.bytes.getD ((pa + e.1) % 128) 0#8 else e.2)

/-! ### Lines -/

/-- The line that a fetch reads at `hpa`: at the home slice, or on a stable page from a replica (R246). -/
def State.readCode (s : State) (n : Node) (core : Nat) (attr : Attr) (hpa va : Nat) : List Byte × Bool × State :=
  let r := (s.noteRead (some n.launch) .home hpa va 64).readMem n.gcomp hpa 64 attr.home
  match (if attr.s then r.2.2.replicaFor n core hpa else none) with
  | some x => (x.1.mix s.fresh hpa r.1, r.2.1, x.2)
  | none => r

/-- A node consumes an error (R359): counted, and the node awaits its replay. -/
def State.consume (s : State) (node : Nat) (k : TrapKind) : State :=
  match s.node? node with
  | none => s
  | some n =>
    if n.consumed.isSome then s
    else
      let s1 := s.modNode node (fun x => { x with consumed := some k })
      s1.modPart n.part (fun p =>
        if k = .silentData then { p with sdcount := p.sdcount + 1 } else { p with uccount := p.uccount + 1 })

/-- Fetches the line of `a` for a node's strand or parcel on a core: from the instruction cache, or by translation and
a read at the home slice (R222, R31). -/
def State.fetchLine (s : State) (n : Node) (core : Nat) (who : Requester) (a : Addr) : FetchRes :=
  match Tbl.find? (s.core core).icache (lineKey n a) with
  | some l => if l.bad then .wait s else .line l.line s
  | none =>
    match s.lookNode n core who (lineOf a).toNat 64 .fetch with
    | .trap k => .trap k
    | .miss => .wait (s.askWalk who n.world n.desc.comp core (lineOf a).toNat .fetch)
    | .ok hpa attr _ =>
      match s.reach n.part n.world attr.home hpa with
      | some k => .trap k
      | none =>
        if attr.home = 1#2 then .trap .protection
        else if isDram hpa = false then .trap .protection
        else if s.tagClash n.gcomp hpa then .trap .protection
        else
          let r := s.readCode n core attr hpa (lineOf a).toNat
          if r.2.1 then .consumed (r.2.2.consume n.id .uncorrectable)
          else
            let l := fillLine r.1 n.id who
            let s1 := r.2.2.modCore core (fun c => { c with icache := Tbl.put c.icache (lineKey n a) l })
            if l.bad then .wait s1 else .line l.line s1

/-- What a TARGET check finds (R29). -/
inductive TargetRes where
  | ok (s : State)
  | illegal
  | wait (s : State)
  | trap (k : TrapKind)
  deriving DecidableEq, Repr

/-- The TARGET check of one transfer. -/
def State.checkTarget (s : State) (n : Node) (core : Nat) (who : Requester) (a : Addr) : TargetRes :=
  if 5 ≤ slotOf a then .illegal
  else match s.fetchLine n core who a with
    | .line l s1 => if lineTarget l (slotOf a) then .ok s1 else .illegal
    | .wait s1 => .wait s1
    | .trap k => .trap k
    | .consumed s1 => .wait s1

end Sys2Proof.Machine
end

