-- ==== Sys2Proof/Machine/Issue.lean ====
section
/-! DEFINITION. Issue of an encoded instruction: scopes and the rendezvous (spec/05_issue.md), taking a trap and
returning from a handler (spec/18_faults.md R341 to R347, R353), and the result that every meaning gives. -/

namespace Sys2Proof.Machine

open Sys2Proof

/-- The outcome of a step of the machine. -/
abbrev Out := Host.Outcome State Fault Refusal

/-! ### Ending a node by trap (R346) -/

/-- The node ends by trap: its issue stops, and NODE_END_BY_TRAP discards it once its work in flight completes. -/
def State.endByTrap (s : State) (node : Nat) (k : TrapKind) (eaddr : DWord) : State :=
  s.modNode node (fun n => if n.ending.isSome then n else { n with ending := some (k, eaddr) })

/-! ### Taking a trap (R341 to R345) -/

/-- epc of a trap at `a` (Table 18.2). -/
def trapEpc (k : TrapKind) (a : Addr) : Addr :=
  match k with
  | .userTrap | .breakpoint => nextAddr a
  | _ => a

/-- ecause (Table 18.1). -/
def ecauseOf (k : TrapKind) (code : BitVec 16) (deferred : Bool) (sc : TrapScope) : Word :=
  BitVec.ofNat 32 (code.toNat * 65536 + sc.code * 512 + (if deferred then 256 else 0) + k.code)

/-- What a trap hits in one group: the quads of the trapping strand, and the lanes for which it was raised. -/
structure Hit where
  g : Nat
  quads : BitVec 8
  lanes : LaneMask
  deriving DecidableEq, Repr

/-- One group enters handler mode (R343, R345): the registers are written, its other strands stop, its loops are set
aside, and the handler strand's lanes go to HANDLER, which is a resume point (R347). -/
def Group.enterHandler (g : Group) (h : Hit) (r : TrapRec) (members : List Nat) (a handler : Addr) : Group :=
  let tr : TrapRegs :=
    { ecause := ecauseOf r.kind r.code r.deferred r.scope, epc := trapEpc r.kind a, eaddr := r.eaddr, scope := r.scope,
      members := members, done := false, quads := h.quads, outside := quadLanes h.quads &&& ~~~h.lanes,
      loops := g.loops }
  let g1 : Group := { g with
    trap := some tr
    loops := []
    strands := g.strands.map (fun st =>
      if st.quads = h.quads then { st with arrived := none, hold := .none, aged := false, wait := 0 }
      else { st with stopped := true, arrived := none }) }
  (g1.setPcs h.lanes handler).passResume h.lanes handler

/-- Changes the side-log entries of a group. -/
def State.modGroupSide (s : State) (t g : Nat) (f : SideEntry → SideEntry) : State :=
  { s with cores := s.cores.map (fun e => (e.1, { e.2 with sidelog := e.2.sidelog.map (fun x =>
      if x.team = t ∧ x.group = g then f x else x) })) }

/-- The lanes of `m` have passed a resume point that lies after the group's side-log entries (R238). -/
def State.passSide (s : State) (t g : Nat) (m : LaneMask) : State :=
  s.modGroupSide t g (fun x => { x with passed := x.passed ||| m })

/-- A strand waits for the line or the page of its handler. -/
def State.holdHandler (s : State) (t g : Nat) (q : BitVec 8) : State :=
  s.modGroup t g (fun gr => { gr with strands := gr.strands.map (fun st =>
    if st.quads &&& q ≠ 0#8 ∧ st.stopped = false then { st with hold := .walk, aged := false, wait := 0 } else st) })

/-- What a trap at the groups given comes to (R343, R346): with no handler, or by a group in handler mode, the node ends. The TARGET
check of HANDLER is that of R29. While its line or its page is not at hand nothing but the wait is done, and the trap stays due:
`prep` and `enter` take their effect with it. -/
def State.meetHandler (s : State) (t : Team) (n : Node) (hits : List Hit) (k : TrapKind) (eaddr : DWord) (prep enter : State → State) :
    State :=
  if n.desc.handler = 0#64 ∨ (hits.any (fun h => match t.groups[h.g]? with
      | some g => g.trap.isSome
      | none => false)) = true then (prep s).endByTrap n.id k eaddr
  else
    let h0 := hits.headD { g := 0, quads := 0, lanes := 0 }
    match s.checkTarget n t.core (.strand t.id h0.g h0.quads) n.desc.handler with
    | .wait s1 => hits.foldl (fun st h => st.holdHandler t.id h.g h.quads) s1
    | .illegal => (prep s).endByTrap n.id .illegalTarget n.desc.handler
    | .trap j => (prep s).endByTrap n.id j n.desc.handler
    | .ok s1 => enter ((prep s1).dropSends (fun x => decide (x.team = t.id) && hits.any (fun h => decide (h.g = x.group))))

/-- A trap is raised for the groups hit (R343, R344). The sends of those groups that have not retired return their grants: their
instructions issue again after `tret` (R310). -/
def State.takeTrap (s : State) (t : Team) (n : Node) (hits : List Hit) (r : TrapRec) (a : Addr) (prep : State → State) : State :=
  s.meetHandler t n hits r.kind r.eaddr prep (fun s1 =>
    hits.foldl (fun st h => (st.modGroup t.id h.g (fun g =>
      g.enterHandler h r (hits.map (fun x => x.g)) a n.desc.handler)).passSide t.id h.g h.lanes) s1)

/-! ### Return from a handler (R353, R345) -/

/-- One group leaves handler mode: its stopped strands resume and the loop state set aside is restored. -/
def Group.leaveHandler (g : Group) : Group :=
  match g.trap with
  | none => g
  | some tr =>
    { g with
      trap := none
      loops := tr.loops
      strands := g.strands.map (fun st => { st with stopped := false, arrived := none }) }

/-- The handler strand's lanes go to epc, which is a resume point (R347), and the group leaves handler mode. Lanes whose epc
is the end of the innermost body wait there for its other lanes, and the loop runs its remaining passes (R345, R75). -/
def Group.returnFrom (g : Group) : Group :=
  match g.trap with
  | none => g
  | some tr =>
    let m := quadLanes tr.quads &&& ~~~tr.outside &&& ~~~g.exited
    let outer := (g.divs.filter (fun d => !d.handler)).map (fun d => { d with parked := d.parked &&& ~~~m })
    let g1 := (({ g with divs := outer }.fuseQuads tr.quads).leaveHandler).setPcs m (va57 tr.epc)
    let g2 := match g1.loops with
      | [] => g1
      | lp :: r => if lp.fin = va57 tr.epc then { g1 with loops := { lp with waiting := lp.waiting ||| m } :: r } else g1
    (g2.passResume m (va57 tr.epc)).settle m

/-- Every member has issued tret, or has no handler lane left (R344, R353). -/
def Team.allReturned (t : Team) (tr : TrapRegs) : Bool :=
  tr.members.all (fun m => match t.groups[m]? with
    | none => true
    | some g => match g.trap with
      | none => true
      | some x => x.done || decide (quadLanes x.quads &&& ~~~x.outside &&& ~~~g.exited = 0))

/-- Group `g` has issued tret, or its handler strand has exited: the members of the trap resume in one clock when each
of them has (R344). -/
def State.tryReturn (s : State) (t g : Nat) : State :=
  let s1 := s.modGroup t g (fun x => { x with trap := x.trap.map (fun r => { r with done := true }) })
  match s1.team? t with
  | none => s1
  | some tm =>
    match (tm.groups[g]?).bind (fun x => x.trap) with
    | none => s1
    | some tr =>
      if tm.allReturned tr then tr.members.foldl (fun st m =>
        let lanes := match ((st.team? t).bind (fun x => x.groups[m]?)).bind (fun x => x.trap) with
          | some r => quadLanes r.quads &&& ~~~r.outside
          | none => 0#32
        ((st.modGroup t m Group.returnFrom).passSide t m lanes).modGroupSide t m (fun x => { x with handler := false })) s1
      else s1

/-! ### Issue contexts -/

/-- One member group of an instruction: its position (R77), its lanes at the instruction, the lanes that execute, and
the quads of its issuing strand. -/
structure Member where
  g : Nat
  pos : Nat
  at_ : LaneMask
  act : LaneMask
  quads : BitVec 8
  deriving DecidableEq, Repr

/-- An instruction about to issue. `count` is the number of member positions. -/
structure Ctx where
  team : Team
  node : Node
  addr : Addr
  scope : TrapScope
  wide : Bool
  count : Nat
  members : List Member
  deriving DecidableEq, Repr

/-- What an instruction does when its members have met. -/
inductive Res where
  /-- not ready (R82): nothing is done but the bookkeeping in the state given -/
  | stall (h : Hold) (s : State)
  /-- a precise trap: kind, eaddr, code -/
  | trap (k : TrapKind) (eaddr : DWord) (code : BitVec 16)
  /-- a precise trap after the bookkeeping in the state given -/
  | trapIn (s : State) (k : TrapKind) (eaddr : DWord)
  /-- done; the lanes at the instruction go on in sequence -/
  | retire (s : State)
  /-- done; the lanes have been moved -/
  | moved (s : State)
  deriving DecidableEq, Repr

/-- What an instruction does in form (R103). -/
inductive FormRes where
  | cut
  /-- the check of a target has failed for the parcel: it fans out, and each group raises the trap (R110) -/
  | illegal (k : TrapKind) (eaddr : DWord)
  | stall (s : State)
  | done (s : State)
  deriving DecidableEq, Repr

/-- The member groups of a scope (R76), each with its position (R77). -/
def memberGroups (n : Node) (t : Team) (sc : Scope) (g : Nat) : List Nat :=
  match sc with
  | .lane | .group => [g]
  | .team => List.range t.groups.length
  | .set k => (List.range t.groups.length).filter (fun i => (n.desc.sets.getD k.toNat 0#32).getLsbD i)

/-- IllegalScope that depends on the team: an undeclared set or one without the issuing group (R33, R77), or a scope
that the handler does not allow (R343, R344). -/
def badScope (n : Node) (t : Team) (gr : Group) (sc : Scope) (g : Nat) : Bool :=
  (match sc with
    | .set k => !(n.desc.sets.getD k.toNat 0#32).getLsbD g || decide (n.desc.sets.getD k.toNat 0#32 = 0#32)
    | _ => false) ||
  (match gr.trap with
    | none => false
    | some tr => decide (1 < (trapScopeOf sc).code) && decide (tr.scope.code < (trapScopeOf sc).code)) ||
  decide (t.groups.length ≤ g)

/-- Members in a handler entered by a set- or team-scope trap (R344). -/
def handlerMembers (gr : Group) (ms : List Nat) : List Nat :=
  match gr.trap with
  | none => ms
  | some tr => if 1 < tr.scope.code then ms.filter (fun m => tr.members.contains m) else ms

/-- Lanes whose guard is true, and whether a guard bit read is undefined (R35, R105). -/
def Group.guardMask (g : Group) (c : Common) (m : LaneMask) : LaneMask :=
  maskOf (fun l => m.getLsbD l && (g.pred c.pred.toNat l != c.pneg))

def Group.guardUndef (g : Group) (c : Common) (m : LaneMask) : Bool :=
  (lanesOf m).any (fun l => !g.predDef c.pred.toNat l)

/-- The group owes a deferred trap, which replaces its next issue (R237): in handler mode only one that the handler's own store
brought. -/
def Group.owesNow (g : Group) : Bool :=
  match g.deferred with
  | none => false
  | some o => g.trap.isNone || o.handler

/-- Group `g` is ready for the wide instruction at `a`: every counted strand has arrived there (R76). -/
def Group.allArrived (g : Group) (a : Addr) : Bool := !g.owesNow && g.counted.all (fun st => decide (st.arrived = some a))

/-- A member of a rendezvous at `a`. -/
def Group.member (gr : Group) (c : Common) (a : Addr) (g pos : Nat) : Member :=
  let q := gr.counted.foldl (fun m st => m ||| st.quads) 0#8
  let at_ := gr.counted.foldl (fun m st =>
    m ||| (quadLanes st.quads &&& ~~~gr.exited &&& ~~~gr.outsideLanes &&& maskOf (fun l => decide (gr.pcOf l = a)))) 0#32
  { g := g, pos := pos, at_ := at_, act := gr.guardMask c at_, quads := q }

/-- Marks a strand's arrival (R76). -/
def State.arrive (s : State) (t g k : Nat) (a : Addr) (sc : Scope) : State :=
  s.modGroup t g (fun gr => { gr with strands := modNth (fun st => { st with arrived := some a, ascope := sc, wait := 0 }) k gr.strands })

/-- Notes what a strand waits for (R82); it is not ready, and leaves the head of its slot (R83). -/
def State.holdStrands (s : State) (c : Ctx) (h : Hold) : State :=
  c.members.foldl (fun st m => st.modGroup c.team.id m.g (fun gr =>
    { gr with strands := gr.strands.map (fun x => if x.quads &&& m.quads ≠ 0#8 then { x with hold := h, aged := false, wait := 0 } else x) })) s

/-- The strands of a member that has issued: fused at a wider scope, which pops the records (R75), with their waits
cleared. -/
def Group.issued (gr : Group) (m : Member) (fuse pop : Bool) : Group :=
  let g1 := if fuse then (gr.leaveEnd m.at_).fuseAll else gr.leaveEnd m.at_
  let g2 := if pop then g1.popDivs else g1
  { g2 with strands := g2.strands.map (fun st =>
      if st.quads &&& m.quads ≠ 0#8 ∧ st.stopped = false then
        { st with arrived := none, hold := .none, aged := false, wait := 0 } else st) }

def State.markIssued (s : State) (c : Ctx) (fuse pop : Bool) : State :=
  c.members.foldl (fun st m => st.modGroup c.team.id m.g (fun gr => gr.issued m fuse pop)) s

/-- How an instruction issues: `fuse` re-fuses like a group-scope instruction though lane scope is encoded, `pop` pops
the records there, `commit` marks a resume point after it (R122), `always` is a broadcast `mma`. -/
structure Mode where
  fuse : Bool := false
  pop : Bool := true
  commit : Bool := false
  /-- it has its effect with no active lane too: a broadcast `mma` (R76) -/
  always : Bool := false
  deriving DecidableEq, Repr

/-- Lanes go on in sequence; a commit instruction marks its resume point for the lanes that were active (R122). -/
def Group.goOn (gr : Group) (m : Member) (a : Addr) (commit : Bool) : Group :=
  let g1 := gr.advance m.at_ a
  if commit ∧ m.act ≠ 0#32 then
    (lanesOf m.act).foldl (fun g l => g.passResume (1#32 <<< l) (g.pcOf l)) g1
  else g1

def State.goOn (s : State) (c : Ctx) (commit : Bool) : State :=
  c.members.foldl (fun st m =>
    let s1 := st.modGroup c.team.id m.g (fun gr => gr.goOn m c.addr commit)
    if commit then s1.passSide c.team.id m.g m.act else s1) s

/-- The walks and refused translations of the strands of a context are forgotten. -/
def State.dropCtxWalks (s : State) (c : Ctx) : State :=
  s.dropWalks (fun w => match w with
    | .strand t g q => decide (t = c.team.id) && c.members.any (fun m => decide (m.g = g) && decide (m.quads &&& q ≠ 0#8))
    | _ => false)

/-- The quads of a member that a trap hits: at a wider scope those of every strand of its group. -/
def Ctx.hitQuads (c : Ctx) (m : Member) : BitVec 8 :=
  if c.wide then
    match c.team.groups[m.g]? with
    | some gr => gr.counted.foldl (fun q st => q ||| st.quads) 0#8
    | none => m.quads
  else m.quads

/-- Raises a trap for the lanes of an issued context. What the access has found out about its pages stays until HANDLER is
reached (R234). -/
def State.trapCtx (s : State) (c : Ctx) (r : TrapRec) (lanes : Member → LaneMask) : State :=
  s.takeTrap ((s.team? c.team.id).getD c.team) c.node (c.members.map (fun m => Hit.mk m.g (c.hitQuads m) (lanes m))) r c.addr
    (fun s1 => (s1.dropCtxWalks c).markIssued c c.wide c.wide)

/-- Lanes an execution trap is raised for: the active lanes of a member, or its lanes at the instruction where a
member has none. -/
def hitLanes (m : Member) : LaneMask := if m.act = 0#32 then m.at_ else m.act

/-- The context by which lanes pass the resume point of a commit instruction: those that were active (R122), or of a broadcast
`mma` without an active row all that stand there, since it never issues twice (R208, log entry 49). -/
def Ctx.passing (c : Ctx) (md : Mode) : Ctx :=
  if md.always && c.members.all (fun m => decide (m.act = 0#32)) then
    { c with members := c.members.map (fun m => { m with act := m.at_ }) }
  else c

/-- Runs the body of an instruction whose members have met. With no active lane it has no effect and reads nothing, but for
a broadcast `mma` (R76, R35). -/
def runCtx (md : Mode) (body : Ctx → State → Res) (c : Ctx) (s : State) : State :=
  let pop := (c.wide && !md.fuse) || (md.fuse && md.pop)
  if !md.always && c.members.all (fun m => decide (m.act = 0#32)) then
    (s.markIssued c c.wide pop).goOn c false
  else match body c s with
    | .stall h s1 => s1.holdStrands c h
    | .trap k e code => s.trapCtx c { kind := k, eaddr := e, code := code, deferred := false, scope := c.scope } hitLanes
    | .trapIn s1 k e => s1.trapCtx c { kind := k, eaddr := e, code := 0, deferred := false, scope := c.scope } hitLanes
    | .retire s1 => (s1.markIssued c c.wide pop).goOn (c.passing md) md.commit
    | .moved s1 => s1

/-- A strand that stands at an instruction: its team, node, group, address, and the lanes there, with those whose guard is
true. -/
structure Stand where
  team : Team
  node : Node
  gr : Group
  st : Strand
  addr : Addr
  at_ : LaneMask
  act : LaneMask
  deriving DecidableEq, Repr

/-- Where strand `k` of group `g` of team `t` stands, when it may issue: its team is placed and its node goes on. -/
def State.stand (s : State) (c : Common) (t g k : Nat) : Option Stand :=
  match s.team? t with
  | none => none
  | some tm =>
  match s.node? tm.node, tm.groups[g]? with
  | some n, some gr =>
    match gr.strands[k]? with
    | none => none
    | some st =>
    match gr.strandAddr st with
    | none => none
    | some a =>
      if tm.phase ≠ .placed ∨ n.ending.isSome ∨ n.consumed.isSome then none
      else
        let at_ := gr.lanesAt st a
        some { team := tm, node := n, gr := gr, st := st, addr := a, at_ := at_, act := gr.guardMask c at_ }
  | _, _ => none

/-- The strand as the only member of its instruction. -/
def Stand.own (d : Stand) (c : Common) (g : Nat) : Ctx :=
  { team := d.team, node := d.node, addr := d.addr, scope := trapScopeOf c.scope, wide := false, count := 1,
    members := [{ g := g, pos := 0, at_ := d.at_, act := d.act, quads := d.st.quads }] }

/-- The rendezvous of a wider scope (R76, R77, R79): the strand has arrived, and when every member has, the instruction's
members. -/
def State.meet (s : State) (c : Common) (t g k : Nat) (d : Stand) : Option Ctx × State :=
  let s1 := s.arrive t g k d.addr c.scope
  let tm := (s1.team? t).getD d.team
  let ms := memberGroups d.node d.team c.scope g
  let inTrap := handlerMembers d.gr ms
  let live := (indexed ms).filter (fun e => inTrap.contains e.2 &&
    (match tm.groups[e.2]? with | some x => !x.ended | none => false))
  if live.all (fun e => match tm.groups[e.2]? with | some x => x.allArrived d.addr | none => true) then
    (some { team := tm, node := d.node, addr := d.addr, scope := trapScopeOf c.scope, wide := true, count := ms.length,
            members := live.map (fun e => match tm.groups[e.2]? with
              | some x => x.member c d.addr e.2 e.1
              | none => { g := e.2, pos := e.1, at_ := 0, act := 0, quads := 0 }) }, s1)
  else (none, s1)

/-- Issue by strand `k` of group `g` of team `t`. `static` gives a decode trap of steps 4 and 5 of R56 that the fields and
the node decide, `undef` a read of an undefined predicate or form register by the lanes given (R101, R105). -/
def issueStrand (c : Common) (md : Mode) (static : Node → Option TrapKind) (undef : Team → Node → Group → Nat → LaneMask → Bool)
    (body : Ctx → State → Res) (s : State) (t g k : Nat) : State :=
  match s.stand c t g k with
  | none => s
  | some d =>
    let decodeTrap (kd : TrapKind) : State :=
      s.trapCtx (d.own c g) { kind := kd, eaddr := 0, code := 0, deferred := false, scope := trapScopeOf c.scope }
        (fun m => m.at_)
    if badScope d.node d.team d.gr c.scope g then decodeTrap .illegalScope
    else match static d.node with
      | some kd => decodeTrap kd
      | none =>
        if d.gr.guardUndef c d.at_ ∨ undef d.team d.node d.gr g d.act = true then decodeTrap .illegalOperand
        else if md.fuse = false ∧ c.scope = .lane then runCtx md body (d.own c g) s
        else match s.meet c t g k d with
          | (none, s1) => s1
          | (some x, s1) => runCtx md body x s1

/-- The guard of a parcel, when it is uniform (R103). -/
def Parcel.guard (p : Parcel) (n : Node) (c : Common) : Option Bool :=
  (p.uniPred n c.pred.toNat).map (fun b => b != c.pneg)

/-- Issue of an instruction for the parcel `p` of node `n`: it executes in form, or the parcel fans out at it (R103,
R105, R110). With a guard that is uniform false it is a no-op for the parcel (R103), but for a broadcast `mma`, which takes
part in its delivery all the same (R76). -/
def issueParcel (c : Common) (md : Mode) (static : Node → Option TrapKind) (form : Node → Parcel → State → FormRes) (s : State)
    (n p : Nat) : State :=
  match s.node? n with
  | none => s
  | some nd =>
    match nd.parcel? p with
    | none => s
    | some pc =>
      if nd.ending.isSome ∨ nd.consumed.isSome then s
      else
        let badSet := match c.scope with
          | .set k => decide (nd.desc.sets.getD k.toNat 0#32 = 0#32)
          | _ => false
        if badSet || (static nd).isSome then s.fanOut nd pc
        else match pc.guard nd c with
          | none => s.fanOut nd pc
          | some false =>
            if md.always then s.fanOut nd pc else s.modNode n (fun x => x.modParcel p Parcel.advance)
          | some true =>
            match form nd pc s with
            | .cut => s.fanOut nd pc
            | .illegal k e => s.fanOut nd pc false (some (k, e))
            | .stall s1 => s1
            | .done s1 => s1

/-- Issue of an encoded instruction for the issuer `State.cur`. -/
def issue (c : Common) (md : Mode) (static : Node → Option TrapKind)
    (undef : Team → Node → Group → Nat → LaneMask → Bool) (body : Ctx → State → Res)
    (form : Node → Parcel → State → FormRes) (s : State) : Out :=
  if s.halted then .fault .packageHalted
  else match s.cur with
    | .none => .fault .noIssuer
    | .strand t g k => .next (issueStrand c md static undef body s t g k)
    | .parcel n p => .next (issueParcel c md static form s n p)

/-- An instruction that never stays in form (Table 6.2). -/
def neverForm : Node → Parcel → State → FormRes := fun _ _ _ => .cut

/-- No read of an undefined value besides the guard. -/
def noUndef : Team → Node → Group → Nat → LaneMask → Bool := fun _ _ _ _ _ => false

/-- No decode trap that depends on the node. -/
def noStatic : Node → Option TrapKind := fun _ => none

/-- A trap that the fetch or decode of the instruction at a strand's address raises (R56, steps 1 to 3, and the scopes
of step 4): raised at that strand's group alone (R57). -/
def State.decodeTrap (s : State) (t g k : Nat) (kd : TrapKind) (sc : TrapScope) (eaddr : DWord) : State :=
  match s.team? t with
  | none => s
  | some tm =>
  match s.node? tm.node, tm.groups[g]? with
  | some n, some gr =>
    match gr.strands[k]? with
    | none => s
    | some st =>
    match gr.strandAddr st with
    | none => s
    | some a =>
      s.trapCtx
        { team := tm, node := n, addr := a, scope := sc, wide := false, count := 1,
          members := [{ g := g, pos := 0, at_ := gr.lanesAt st a, act := gr.lanesAt st a, quads := st.quads }] }
        { kind := kd, eaddr := eaddr, code := 0, deferred := false, scope := sc } (fun m => m.at_)
  | _, _ => s

end Sys2Proof.Machine
end

