-- ==== Sys2Proof/Machine/Queues.lean ====
section
/-! DEFINITION. Message queues as the instructions see them (spec/16_channels.md R308 to R313; spec/07_registers.md
R119, R126): credits, sends and consuming reads. -/

namespace Sys2Proof.Machine

open Sys2Proof

def Binding.free : Binding := { id := 0, core := 0xFF, rq := 0, team := 0, discards := 0 }

/-- Every access that a group has issued has been performed, side-logged entries included (R254, R237). -/
def State.groupQuiet (s : State) (t g : Nat) : Bool :=
  !(s.reqs.any (fun r => decide (r.team = t) && decide (r.group = g) && decide (r.parcel = none))) &&
  !(s.cores.any (fun c => c.2.sidelog.any (fun e => decide (e.team = t) && decide (e.group = g))))

def Ctx.quiet (c : Ctx) (s : State) : Bool := c.members.all (fun m => s.groupQuiet c.team.id m.g)

/-- The send that a member has asked for at this instruction, if it has. -/
def State.sendFor (s : State) (t : Nat) (m : Member) (q ix : Nat) (a : Addr) : Option Send :=
  s.sends.find? (fun x => decide (x.team = t) && decide (x.group = m.g) && decide (x.queue = q) && decide (x.ix = ix) &&
    decide (x.addr = a) && decide (x.quads &&& m.quads ≠ 0#8) && decide (x.phase ≠ .travelling) &&
    decide (x.phase ≠ .filling))

/-- The cores between which a packet of team `t` to team `d` travels. -/
def State.sendRoute (s : State) (t d : Nat) : Nat × Nat :=
  (((s.team? t).map (fun x => x.core)).getD 0xFF, ((s.team? d).map (fun x => x.core)).getD 0xFF)

/-- Asks for one credit for each member that has none yet (R310). -/
def State.askCredits (s : State) (c : Ctx) (q ix : Nat) (b : Binding) : State :=
  c.members.foldl (fun st m =>
    match st.sendFor c.team.id m q ix c.addr with
    | some _ => st
    | none =>
      let (id, s1) := st.freshId
      { s1 with sends := s1.sends ++
        [{ id := id, team := c.team.id, group := m.g, quads := m.quads, queue := q, ix := ix, addr := c.addr,
           phase := .requested, route := st.sendRoute c.team.id b.team, bind := b.id, dstTeam := b.team, rq := b.rq, msg := none, discarded := false }] }) s

/-- Every member holds its grant. -/
def State.credited (s : State) (c : Ctx) (q ix : Nat) : Bool :=
  c.members.all (fun m => match s.sendFor c.team.id m q ix c.addr with
    | some x => decide (x.phase = .granted)
    | none => false)

/-- The header mask of a member's message (R126). -/
def Ctx.headerMask (c : Ctx) (m : Member) : LaneMask :=
  if c.scope = .lane then m.act
  else match c.team.groups[m.g]? with
    | some g => ~~~g.exited
    | none => m.act

/-- A message is discarded and counted in the binding that it went through, while that stands (R313). -/
def State.discardSend (s : State) (x : Send) : State :=
  ({ s with sends := s.sends.filter (fun y => decide (y.id ≠ x.id)) } : State).modTeam x.team (fun t =>
    { t with sendq := Tbl.modify t.sendq x.queue (fun b =>
        if b.id = x.bind then { b with discards := b.discards + 1 } else b) })

/-- A send retires with its message: it stands after the sends that retired before it. One whose target had ended or parked is
discarded (R313). -/
def State.retireSend (s : State) (x : Send) (ph : SendPhase) (msg : Message) : State :=
  if x.discarded then s.discardSend x
  else { s with sends := s.sends.filter (fun y => decide (y.id ≠ x.id)) ++
      [{ x with phase := ph, msg := some msg, route := s.sendRoute x.team x.dstTeam }] }

/-- The members' granted sends retire, and their messages travel; `vals` gives the word of a lane (R126, R310). A lane
of the header mask that is not active sends zero. -/
def State.sendAll (s : State) (c : Ctx) (q ix : Nat) (vals : Member → Nat → Word) : State :=
  c.members.foldl (fun st m =>
    match st.sendFor c.team.id m q ix c.addr with
    | none => st
    | some x =>
      let words : Tbl Word := (lanesOf m.act).foldl (fun t l => Tbl.set 0#32 t l (vals m l)) []
      let msg : Message :=
        { seq := 0, words := words, mask := c.headerMask m, srcRank := c.team.rank, srcQueue := q, srcGroup := m.g }
      st.retireSend x .travelling msg) s

/-- The words a member's position reads from receive queue `q`: its own message, in slot order (R311). -/
def Team.messageAt (t : Team) (q pos : Nat) : Option Message := (t.recv q).msgs[pos]?

/-- Each member consumes one message of queue `q`; an acquire at `.clu` (R311, R312). The save engine keeps it until a
later resume point (R119). -/
def State.consumeMsgs (s : State) (c : Ctx) (q : Nat) : State :=
  let s1 := (indexed c.members).foldl (fun st e =>
    match c.team.messageAt q e.1 with
    | none => st
    | some msg => st.modGroup c.team.id e.2.g (fun g => { g with consumed := g.consumed ++ [(hitLanes e.2, q, msg)] })) s
  let n := c.members.length
  let s2 := s1.modTeam c.team.id (fun t =>
    let r := t.recv q
    t.setRecv q { r with msgs := r.msgs.drop n, last := match r.msgs[n - 1]? with | some x => some x | none => r.last })
  s2.dropL1 c.team.core

end Sys2Proof.Machine
end

