-- ==== Sys2Proof/Machine/Operands.lean ====
section
/-! DEFINITION. Operands: the operand field space (spec/03_encoding.md R49 to R51), indirect operands (R39, R120), and
the one engine of the vector instructions: reading sources, delivering a result (spec/07_registers.md R118 to R127), and
the same instruction in form (spec/06_tracts.md R103). -/

namespace Sys2Proof.Machine

open Sys2Proof

/-! ### The operand space -/

/-- What a field names (Table 3.11). -/
inductive Opnd where
  | lane (r : Nat)
  | const (e : Nat)
  | form (f : Nat)
  | spec (n : Nat)
  | queue (q : Nat)
  | reserved
  deriving DecidableEq, Repr

def opndOf (f : BitVec 11) : Opnd :=
  let n := f.toNat
  if n < 1536 then .lane n
  else if n < 1600 then .const (n - 1536)
  else if n < 1664 then .form (n - 1600)
  else if 1680 ≤ n ∧ n ≤ 1687 then .queue (n - 1680)
  else if n < 1690 then .spec (n - 1664)
  else .reserved

/-- FP32 patterns of entries 32 to 63 (Table 3.13). -/
def constFloats : List Nat :=
  [0x3F000000, 0x3F800000, 0x3FC00000, 0x40000000, 0x40400000, 0x40800000, 0x41000000, 0x3E800000,
   0x3E000000, 0x3D800000, 0xBF000000, 0xBF800000, 0xC0000000, 0x437F0000, 0x43E00000, 0x477FE000,
   0x3EAAAAAB, 0x3E4CCCCD, 0x3E2AAAAB, 0x3E124925, 0x3DE38E39, 0x3DCCCCCD, 0x3DAAAAAB, 0x3B808081,
   0x3B124925, 0x40490FDB, 0x3EA2F983, 0x3F22F983, 0x3F317218, 0x3FB8AA3B, 0x3FB504F3, 0x3F3504F3]

/-- The 32-bit pattern of an entry of Table 3.13. -/
def constPattern (e : Nat) : Nat :=
  if e < 16 then e
  else if e < 24 then 2 ^ 32 - (e - 15)
  else if e < 32 then 16 * 2 ^ (e - 24)
  else constFloats.getD (e - 32) 0

/-- An entry as an operation of a type receives it (R51). An e8m0 source, which R51 names neither among the integers nor among
its float types, receives the low 8 bits as an integer operation does: DESIGN CHOICE (log entry 65). -/
def constVal (e : Nat) (ty : ElemTy) : Nat :=
  match floatFmt ty with
  | some f =>
    if ty = .f32 then constPattern e
    else (f.convF ⟨.rne, 0⟩ (!decide (ty = .f16) && !decide (ty = .bf16)) (fmtF32.decode (constPattern e))).1
  | none =>
    if e < 32 then intBits (tyBits ty) (intVal true 32 (constPattern e)) else constPattern e % 2 ^ tyBits ty

/-- IMM as an operation of a type receives it (R41). The conversion of an f16 or bf16 IMM sets no sticky flag: DESIGN CHOICE
(log entry 65). -/
def immVal (imm : BitVec 32) (ty : ElemTy) : Nat :=
  match ty with
  | .f32 => imm.toNat
  | .f16 => (fmtF16.convF ⟨.rne, 0⟩ false (fmtF32.decode imm.toNat)).1
  | .bf16 => (fmtBF16.convF ⟨.rne, 0⟩ false (fmtF32.decode imm.toNat)).1
  | _ => if tySigned ty then intBits (tyBits ty) (intVal true 32 imm.toNat) else imm.toNat % 2 ^ tyBits ty

/-- One source of a vector instruction. `words` is how many registers it spans; `range` marks a register range (R175);
`lit` an immediate; `neg`, `abs`, `packed` the modifiers of R38 and R172; `pk` makes the
source the bit of a predicate, complemented with `neg`. -/
structure Src where
  field : BitVec 11
  e : Bool := false
  ind : Bool := false
  words : Nat := 1
  ty : ElemTy := .i32
  range : Bool := false
  lit : Option Nat := none
  neg : Bool := false
  abs : Bool := false
  packed : Bool := false
  pk : Option Nat := none
  /-- an odd register is illegal, though one word is read: the type of the instruction has 64 bits (R129) -/
  even : Bool := false
  deriving DecidableEq, Repr

/-- ABS, then NEG, on one element (R38). -/
def modElem (ty : ElemTy) (neg abs : Bool) (v : Nat) : Nat :=
  let w := tyBits ty
  match floatFmt ty with
  | some _ =>
    let m := v % 2 ^ (w - 1)
    let s := v / 2 ^ (w - 1) % 2
    let s := if abs then 0 else s
    let s := if neg then 1 - s else s
    m + s * 2 ^ (w - 1)
  | none =>
    let v := if abs then intBits w (intVal true w v).natAbs else v
    if neg then intBits w (-(v : Int)) else v

def Src.modify (x : Src) (v : Nat) : Nat :=
  if x.neg = false ∧ x.abs = false then v
  else if x.packed then modElem x.ty x.neg x.abs (v % 65536) + 65536 * modElem x.ty x.neg x.abs (v / 65536 % 65536)
  else modElem x.ty x.neg x.abs (v % 2 ^ tyBits x.ty)

/-- A lane register range is inside the allocation and aligned (R49, R129, R175). -/
def laneOk (regs r words : Nat) : Bool := decide (r % words = 0) && decide (r + words ≤ regs)

/-- A source field is legal (R49, R50); an indirect one always names a lane register (R39). -/
def Src.ok (x : Src) (regs : Nat) : Bool :=
  x.lit.isSome || x.ind || x.pk.isSome ||
  (match opndOf x.field with
    | .lane r => laneOk regs r x.words && (!x.even || decide (r % 2 = 0))
    | .const _ => !x.range
    | .form f => !x.range && decide (f % x.words = 0) && (!x.even || decide (f % 2 = 0))
    | .spec _ => !x.range
    | .queue _ => !x.range
    | .reserved => false)

/-- A source names an undefined form register (R100), or a predicate that is undefined in one of the lanes (R105). -/
def Src.undef (x : Src) (f : Tbl FormVal) (gr : Group) (m : LaneMask) : Bool :=
  match x.pk with
  | some k => (lanesOf m).any (fun l => !gr.predDef k l)
  | none =>
    x.lit.isNone && !x.ind &&
    (match opndOf x.field with
      | .form r => (List.range x.words).any (fun i => decide (formGet f (r + i) = .undef))
      | _ => false)

/-- Value of a special operand in a lane (Table 3.12), but for %cyc. -/
def specVal (t : Team) (n : Node) (g l : Nat) (k : Nat) : Nat :=
  let i := t.item n g l
  match k with
  | 0 => i.1 | 1 => i.2.1 | 2 => i.2.2
  | 3 => l | 4 => l / 4 | 5 => g
  | 6 => t.tx | 7 => t.ty | 8 => t.tz
  | 9 => t.core | 10 => t.rank | 11 => n.handle.toNat
  | 12 => n.ent.nx | 13 => n.ent.ny | 14 => n.ent.nz
  | 24 => t.dph.toNat
  | 25 => t.lead
  | _ => 0

/-- Joins words, low first. -/
def joinWords : List Word → Nat
  | [] => 0
  | w :: r => w.toNat + 2 ^ 32 * joinWords r

/-- The effective register of an indirect operand in a lane (R39, R120). -/
def Group.effReg (g : Group) (ireg : Nat) (l d : Nat) : Nat :=
  (Tbl.get 0#32 g.xbase ireg).toNat + (Tbl.get 0#32 g.xoff (32 * ireg + l)).toNat + d

/-- RegIndex for one lane (R39, R120). -/
def Group.badIndex (g : Group) (regs ireg l d words : Nat) : Bool :=
  let r := g.effReg ireg l d
  decide ((Tbl.get 0#32 g.xbase ireg).toNat + (Tbl.get 0#32 g.xlimit ireg).toNat ≤ r) || decide (regs ≤ r) ||
  (decide (words = 2) && decide (r % 2 = 1))

/-- The registers that a field names in a lane. -/
def Group.regsOf (g : Group) (field : BitVec 11) (ind : Bool) (ireg l words : Nat) : List Nat :=
  if ind then (List.range words).map (fun i => g.effReg ireg l field.toNat + i)
  else match opndOf field with
    | .lane r => (List.range words).map (fun i => r + i)
    | _ => []

/-- Value of a source in a lane before its modifiers. `%cyc` in a field without a type, the data of an 8- or 16-byte store, gives all 64
bits (R50), and an `.a64` pair whose odd form register is affine is read at the lane's item (R250): DESIGN CHOICE (log entry 76). -/
def Src.raw (x : Src) (s : State) (t : Team) (n : Node) (gr : Group) (g pos ireg l : Nat) : Nat :=
  match x.pk, x.lit with
  | some k, _ => if gr.pred k l != x.neg then 1 else 0
  | none, some v => v
  | none, none =>
    if x.ind then joinWords ((gr.regsOf x.field true ireg l x.words).map (fun r => gr.reg r l))
    else match opndOf x.field with
      | .lane r => joinWords ((List.range x.words).map (fun i => gr.reg (r + i) l))
      | .const e => constVal e x.ty
      | .form f =>
        joinWords ((List.range x.words).map (fun i => ((formGet t.form (f + i)).at_ (t.item n g l)).getD 0#32))
      | .spec k =>
        if k = 15 then (s.cyc t.core).toNat % 2 ^ (32 * min x.words 2) else specVal t n g l k % 2 ^ 32
      | .queue q => match t.messageAt q pos with
        | some m => (Tbl.get 0#32 m.words l).toNat
        | none => 0
      | .reserved => 0

def Src.value (x : Src) (s : State) (t : Team) (n : Node) (gr : Group) (g pos ireg l : Nat) : Nat :=
  if x.pk.isSome then x.raw s t n gr g pos ireg l else x.modify (x.raw s t n gr g pos ireg l)

/-- Receive queues that the sources name. -/
def srcQueues (xs : List Src) : List Nat :=
  (xs.filterMap (fun x => if x.lit.isSome || x.ind || x.pk.isSome then none else match opndOf x.field with
    | .queue q => some q
    | _ => none)).eraseDups

/-! ### Vector instructions -/

/-- What a lane's function may read besides its operands: the lane, and the dither phase (R150, R151). -/
structure LaneEnv where
  lane : Nat
  phase : Nat
  deriving DecidableEq, Repr

/-- How a result stays affine (Table 6.2). -/
inductive AffRule where
  | none | add | sub | neg | mul | mad | shl | lea | mov | sel
  deriving DecidableEq, Repr

/-- A vector instruction: destination, sources, and the function of a lane. -/
structure VOp where
  c : Common
  dst : BitVec 11
  dInd : Bool := false
  dWords : Nat := 1
  dRange : Bool := false
  ireg : Nat := 0
  qsel : Nat := 0
  lslot : Nat := 0
  srcs : List Src
  long : Bool := false
  noForm : Bool := false
  advPhase : Bool := false
  /-- the DST field is a register field that R49 judges with W clear too -/
  dChk : Bool := false
  aff : AffRule := .none
  fn : LaneEnv → List Nat → Nat × FlagSet
  /-- an instruction whose lanes see each other's operands: all values give all results -/
  cross : Option (Ctx → List (Member × Nat × List Nat) → List (Member × Nat × Nat × FlagSet)) := none

/-- A destination field is legal (R49): a register field is judged though W is clear. A form destination is judged at issue
(R106). -/
def VOp.dstOk (o : VOp) (regs : Nat) : Bool :=
  if o.dInd || !(o.c.w || o.dChk) then true
  else match opndOf o.dst with
    | .lane r => laneOk regs r o.dWords
    | .form f => !o.dRange && decide (f % o.dWords = 0)
    | .queue _ => !o.dRange
    | _ => false

def VOp.static (o : VOp) (n : Node) : Option TrapKind :=
  if o.dstOk n.desc.regs && o.srcs.all (fun x => x.ok n.desc.regs) then none else some .illegalOperand

def VOp.undef (o : VOp) (t : Team) (gr : Group) (m : LaneMask) : Bool :=
  decide (m ≠ 0#32) && o.srcs.any (fun x => x.undef t.form gr m)

/-- A form destination. -/
def VOp.formDst (o : VOp) : Option Nat :=
  if o.c.w && !o.dInd then match opndOf o.dst with
    | .form f => some f
    | _ => none
  else none

/-- A send register as the W destination (R126). -/
def VOp.sendDst (o : VOp) : Option Nat :=
  if o.c.w && !o.dInd then match opndOf o.dst with
    | .queue q => some q
    | _ => none
  else none

/-! ### In form -/

/-- The kind of a source in form (R103). -/
inductive Kind where
  | uni (v : Nat)
  | aff (b cx cy cz : Word)
  deriving DecidableEq, Repr

def Src.kind (x : Src) (file : Tbl FormVal) (up : Nat → Option Bool) (n : Node) (cyc : DWord) : Option Kind :=
  match x.pk, x.lit with
  | some k, _ => (up k).map (fun b => .uni (if b != x.neg then 1 else 0))
  | none, some v => some (.uni (x.modify v))
  | none, none =>
    if x.ind then none
    else match opndOf x.field with
      | .const e => some (.uni (x.modify (constVal e x.ty)))
      | .form f =>
        if x.words = 2 then
          match formGet file f, formGet file (f + 1) with
          | .uni a, .uni b => some (.uni (x.modify (joinWords [a, b])))
          | _, _ => none
        else match formGet file f with
          | .uni a => some (.uni (x.modify a.toNat))
          | .aff b cx cy cz =>
            if x.abs then none
            else if x.neg then some (.aff (-b) (-cx) (-cy) (-cz)) else some (.aff b cx cy cz)
          | .undef => none
      | .spec k =>
        let aff (cx cy cz : Word) : Option Kind :=
          if x.words = 2 ∨ x.abs then none
          else if x.neg then some (.aff 0 (-cx) (-cy) (-cz)) else some (.aff 0 cx cy cz)
        match k with
        | 0 => aff 1 0 0
        | 1 => aff 0 1 0
        | 2 => aff 0 0 1
        | 11 => some (.uni (x.modify n.handle.toNat))
        | 12 => some (.uni (x.modify n.ent.nx))
        | 13 => some (.uni (x.modify n.ent.ny))
        | 14 => some (.uni (x.modify n.ent.nz))
        | 15 => some (.uni (x.modify (cyc.toNat % 2 ^ (32 * min x.words 2))))
        | _ => none
      | _ => none

/-- The four fields of a kind taken as affine. -/
def Kind.fields : Kind → Word × Word × Word × Word
  | .uni v => (BitVec.ofNat 32 v, 0, 0, 0)
  | .aff b cx cy cz => (b, cx, cy, cz)

def Kind.isUni : Kind → Bool
  | .uni _ => true
  | _ => false

def Kind.uniVal : Kind → Nat
  | .uni v => v
  | _ => 0

def affAdd (a b : Kind) : FormVal :=
  let x := a.fields
  let y := b.fields
  .aff (x.1 + y.1) (x.2.1 + y.2.1) (x.2.2.1 + y.2.2.1) (x.2.2.2 + y.2.2.2)

def affSub (a b : Kind) : FormVal :=
  let x := a.fields
  let y := b.fields
  .aff (x.1 - y.1) (x.2.1 - y.2.1) (x.2.2.1 - y.2.2.1) (x.2.2.2 - y.2.2.2)

def affMul (a : Kind) (u : Word) : Kind :=
  let x := a.fields
  .aff (x.1 * u) (x.2.1 * u) (x.2.2.1 * u) (x.2.2.2 * u)

def affShl (a : Kind) (k : Nat) : Kind :=
  let x := a.fields
  let sh (w : Word) : Word := if 32 ≤ k then 0 else w <<< k
  .aff (sh x.1) (sh x.2.1) (sh x.2.2.1) (sh x.2.2.2)

/-- The affine result of a rule, when the rule keeps one (Table 6.2). -/
def affResult (r : AffRule) (ks : List Kind) : Option FormVal :=
  match r, ks with
  | .add, [a, b] => some (affAdd a b)
  | .sub, [a, b] => some (affSub a b)
  | .neg, [a] => some (affSub (.uni 0) a)
  | .mul, [a, b] =>
    if a.isUni then some (affAdd (affMul b (BitVec.ofNat 32 a.uniVal)) (.uni 0))
    else if b.isUni then some (affAdd (affMul a (BitVec.ofNat 32 b.uniVal)) (.uni 0)) else none
  | .mad, [a, b, c] =>
    if a.isUni then some (affAdd (affMul b (BitVec.ofNat 32 a.uniVal)) c)
    else if b.isUni then some (affAdd (affMul a (BitVec.ofNat 32 b.uniVal)) c) else none
  | .shl, [a, b] => if b.isUni then some (affAdd (affShl a b.uniVal) (.uni 0)) else none
  | .lea, [a, b, c] => if c.isUni then some (affAdd a (affShl b c.uniVal)) else none
  | .mov, [a] => some (affAdd a (.uni 0))
  | .sel, [.uni p, a, b] => some (affAdd (if p = 0 then b else a) (.uni 0))
  | _, _ => none

/-- The kinds of all sources, when each has one. -/
def kindsOf (xs : List Src) (file : Tbl FormVal) (up : Nat → Option Bool) (n : Node) (cyc : DWord) : Option (List Kind) :=
  match xs with
  | [] => some []
  | x :: r => match x.kind file up n cyc, kindsOf r file up n cyc with
    | some k, some ks => some (k :: ks)
    | _, _ => none

/-- `add` and `sub` keep an affine result only with every ABS zero (Table 6.2). -/
def VOp.absBars (o : VOp) : Bool :=
  (decide (o.aff = .add) || decide (o.aff = .sub)) && o.srcs.any (fun x => x.abs)

/-- The result in form: one value per destination register and the flags; none when the instruction forces a cut. -/
def VOp.inForm (o : VOp) (file : Tbl FormVal) (up : Nat → Option Bool) (n : Node) (cyc : DWord) :
    Option (List FormVal × FlagSet) :=
  if o.noForm then none
  else match kindsOf o.srcs file up n cyc with
    | none => none
    | some ks =>
      if ks.all Kind.isUni then
        let r := o.fn ⟨0, 0⟩ (ks.map Kind.uniVal)
        some ((List.range o.dWords).map (fun i => .uni (BitVec.ofNat 32 (r.1 / 2 ^ (32 * i)))), r.2)
      else if o.dWords = 1 ∧ o.absBars = false then (affResult o.aff ks).map (fun v => ([v], 0))
      else none

/-- Writes results to consecutive form registers. -/
def formPut (file : Tbl FormVal) (f : Nat) (vs : List FormVal) : Tbl FormVal :=
  (indexed vs).foldl (fun t e => formSet t (f + e.1) e.2) file

/-- A vector instruction met by a parcel (R103). An indirect DST names a lane register whatever W is (R39). -/
def VOp.form (o : VOp) (n : Node) (p : Parcel) (s : State) : FormRes :=
  if o.c.q || o.c.l || o.dInd || (o.c.w && o.formDst.isNone) then .cut
  else match o.inForm p.form (p.uniPred n) n (s.cyc n.leadCore) with
    | none => .cut
    | some r =>
      .done (s.modNode n.id (fun x => x.modParcel p.id (fun y =>
        ({ y with form := match o.formDst with
                    | some f => formPut y.form f r.1
                    | none => y.form
                  flags := y.flags ||| r.2 } : Parcel).advance)))

/-! ### On a core -/

/-- Every active lane of every member. -/
def Ctx.activeLanes (c : Ctx) : List (Member × Nat) := c.members.flatMap (fun m => (lanesOf m.act).map (fun l => (m, l)))

/-- The group of a member. -/
def Ctx.group (c : Ctx) (m : Member) : Group :=
  match c.team.groups[m.g]? with
  | some g => g
  | none => { regs := [], empty := [], xbase := [], xlimit := [], xoff := [], kval := [], kdef := [], lflags := [], pc := [],
              exited := 0xFFFFFFFF#32, strands := [], divs := [], loops := [], ws := [], resume := [], kept := [],
              returned := 0#32, placement := none, log := [], replay := [], consumed := [], trap := none, waits := [],
              deferred := none, passEnd := none }

/-- RegIndex (R39). -/
def VOp.regIndex (o : VOp) (c : Ctx) : Bool :=
  c.activeLanes.any (fun e =>
    (o.dInd && (c.group e.1).badIndex c.node.desc.regs o.ireg e.2 o.dst.toNat o.dWords) ||
    o.srcs.any (fun x => x.ind && (c.group e.1).badIndex c.node.desc.regs o.ireg e.2 x.field.toNat x.words))

/-- A source register of an active lane is empty (R18). -/
def Src.isEmpty (x : Src) (c : Ctx) (ireg : Nat) : Bool :=
  x.lit.isNone && x.pk.isNone && c.activeLanes.any (fun e =>
    ((c.group e.1).regsOf x.field x.ind ireg e.2 x.words).any (fun r => (c.group e.1).isEmpty r))

/-- A receive register lacks a message for some member (R311). -/
def Src.noMessage (x : Src) (c : Ctx) : Bool :=
  x.lit.isNone && !x.ind && x.pk.isNone &&
  (match opndOf x.field with
    | .queue q => decide ((c.team.recv q).msgs.length < c.members.length)
    | _ => false)

/-- EmptyRead (R18, R48). -/
def VOp.emptyRead (o : VOp) (c : Ctx) : Bool :=
  o.srcs.any (fun x => x.e && (x.isEmpty c o.ireg || x.noMessage c))

/-- A source blocks its reader (R18, R119). -/
def VOp.blocked (o : VOp) (c : Ctx) : Bool :=
  o.srcs.any (fun x => x.isEmpty c o.ireg || x.noMessage c)

/-- A destination register is still empty (R118). -/
def VOp.dstEmpty (o : VOp) (c : Ctx) : Bool :=
  o.c.w && c.activeLanes.any (fun e =>
    ((c.group e.1).regsOf o.dst o.dInd o.ireg e.2 o.dWords).any (fun r => (c.group e.1).isEmpty r))

/-- What a strand waits for at the instruction (R18, R82, R118, R119): a message, or its registers. -/
def VOp.pending (o : VOp) (c : Ctx) : Hold :=
  if o.srcs.any (fun x => x.noMessage c) then .wait
  else .regs ((c.activeLanes.flatMap (fun e =>
    o.srcs.flatMap (fun x => if x.lit.isNone && x.pk.isNone then (c.group e.1).regsOf x.field x.ind o.ireg e.2 x.words else []) ++
    (if o.c.w then (c.group e.1).regsOf o.dst o.dInd o.ireg e.2 o.dWords else []))).eraseDups)

/-- The sends of the instruction: queue and which (R126). -/
def VOp.sends (o : VOp) : List (Nat × Nat) :=
  (match o.sendDst with | some q => [(q, 0)] | none => []) ++ (if o.c.q then [(o.qsel, 1)] else [])

/-- A predicate whose bits agree over the team (R103, R106). -/
def Team.uniPred (t : Team) (k : Nat) : Option Bool :=
  if k = 7 then some true else match t.parkPred k with
    | .uni b => some b
    | _ => none

/-- FormWrite: a form destination that R106 does not allow. -/
def VOp.formWrite (o : VOp) (c : Ctx) (s : State) : Bool :=
  match o.formDst with
  | none => false
  | some _ =>
    decide (o.c.scope ≠ .team) || o.c.pneg || decide (o.c.pred ≠ 7#3) || o.c.q || o.c.l ||
    (o.inForm c.team.form c.team.uniPred c.node (s.cyc c.team.core)).isNone

/-- A matrix operation in flight still reads an A-latch slot of the team (R125, R206). -/
def State.latchBusy (s : State) (c : Ctx) (slot : Nat) : Bool :=
  (s.core c.team.core).matq.any (fun o => decide (o.team = c.team.id) && decide (o.latch = some slot) && !o.consumed)

/-- The results of the instruction: member, lane, value and flags. -/
def VOp.results (o : VOp) (c : Ctx) (s : State) : List (Member × Nat × Nat × FlagSet) :=
  let vals := c.activeLanes.map (fun e =>
    (e.1, e.2, o.srcs.map (fun x => x.value s c.team c.node (c.group e.1) e.1.g (c.members.idxOf e.1) o.ireg e.2)))
  match o.cross with
  | some g => g c vals
  | none => vals.map (fun v =>
      let r := o.fn ⟨v.2.1, c.team.dph.toNat⟩ v.2.2
      (v.1, v.2.1, r.1, r.2))

/-- Ors the flags of the results into the lanes' lflags (R156). -/
def raiseAll (t : Nat) (rs : List (Member × Nat × Nat × FlagSet)) (s : State) : State :=
  rs.foldl (fun st r => if r.2.2.2 = 0 then st else st.modGroup t r.1.g (fun g => g.raise r.2.1 r.2.2.2)) s

/-- Word `i` of a result. -/
def wordAt (v i : Nat) : Word := BitVec.ofNat 32 (v / 2 ^ (32 * i))

/-- Writes the results to their registers at once. -/
def VOp.writeNow (o : VOp) (c : Ctx) (rs : List (Member × Nat × Nat × FlagSet)) (s : State) : State :=
  rs.foldl (fun st r => st.modGroup c.team.id r.1.g (fun g =>
    (indexed ((c.group r.1).regsOf o.dst o.dInd o.ireg r.2.1 o.dWords)).foldl (fun g e =>
      g.setReg e.2 r.2.1 (wordAt r.2.2.1 e.1)) g)) s

/-- Marks the destinations empty and leaves the results on their way (R118). -/
def State.addFill (s : State) (team : Nat) (regs : List (Nat × Nat)) (vals : List (Nat × Nat × Nat × Word))
    (waiting : List Nat) : Nat × State :=
  let (id, s1) := s.freshId
  let s2 : State := { s1 with fills := s1.fills ++
    [{ id := id, team := team, parcel := none, form := false, regs := regs.eraseDups, vals := vals, waiting := waiting,
       sends := [] }] }
  (id, regs.eraseDups.foldl (fun st e => st.modGroup team e.1 (fun g => g.markEmpty [e.2])) s2)

def VOp.writeLater (o : VOp) (c : Ctx) (rs : List (Member × Nat × Nat × FlagSet)) (s : State) : State :=
  let regs := rs.flatMap (fun r => ((c.group r.1).regsOf o.dst o.dInd o.ireg r.2.1 o.dWords).map (fun x => (r.1.g, x)))
  let vals := rs.flatMap (fun r => (indexed ((c.group r.1).regsOf o.dst o.dInd o.ireg r.2.1 o.dWords)).map (fun e =>
    (r.1.g, e.2, r.2.1, wordAt r.2.2.1 e.1)))
  if regs = [] then s else (s.addFill c.team.id regs vals []).2

/-- The word a member's lane sends. -/
def sendWord (rs : List (Member × Nat × Nat × FlagSet)) (m : Member) (l : Nat) : Word :=
  match rs.find? (fun r => decide (r.1 = m) && decide (r.2.1 = l)) with
  | some r => wordAt r.2.2.1 0
  | none => 0#32

def Team.latch (t : Team) (slot : Nat) : Latch := if slot = 0 then t.latch0 else t.latch1
def Team.setLatch (t : Team) (slot : Nat) (x : Latch) : Team :=
  if slot = 0 then { t with latch0 := x } else { t with latch1 := x }

/-- Deposits results into an A-latch slot (R127). -/
def VOp.deposit (o : VOp) (c : Ctx) (rs : List (Member × Nat × Nat × FlagSet)) (s : State) : State :=
  s.modTeam c.team.id (fun t =>
    let x := t.latch o.lslot
    let w := o.dst.toNat % 16
    let words := rs.foldl (fun tb r =>
      (List.range (min o.dWords 2)).foldl (fun tb i =>
        Tbl.set 0#32 tb (16 * (32 * (r.1.g % 4) + r.2.1) + (w + i) % 16) (wordAt r.2.2.1 i)) tb) x.words
    t.setLatch o.lslot { x with words := words })

/-- The effect of a vector instruction with the results given: flags raised (R156); the destination written, at once or
later (R118), or in form (R106); sends made (R126); an A-latch slot filled (R127); messages consumed (R119); the dither
phase advanced (R151). -/
def VOp.delivered (o : VOp) (c : Ctx) (rs : List (Member × Nat × Nat × FlagSet)) (s : State) : State :=
  let qs := srcQueues o.srcs
  let s1 := raiseAll c.team.id rs s
  let s2 :=
    match o.formDst, o.inForm c.team.form c.team.uniPred c.node (s.cyc c.team.core) with
    | some f, some r => s1.modTeam c.team.id (fun t => { t with form := formPut t.form f r.1 })
    | _, _ =>
      if o.c.w && o.sendDst.isNone then
        if o.long || decide (qs ≠ []) then o.writeLater c rs s1 else o.writeNow c rs s1
      else s1
  let s3 := o.sends.foldl (fun st q => st.sendAll c q.1 q.2 (sendWord rs)) s2
  let s4 := if o.c.l then o.deposit c rs s3 else s3
  let s5 := qs.foldl (fun st q => st.consumeMsgs c q) s4
  if o.advPhase then s5.modTeam c.team.id (fun t => { t with dph := t.dph + 1 }) else s5

/-- A vector instruction whose members have met (R118, R119, R125 to R127). With an empty E source and another register still
empty, EmptyRead is raised at once: DESIGN CHOICE (log entry 65). -/
def VOp.body (o : VOp) (c : Ctx) (s : State) : Res :=
  if o.regIndex c then .trap .regIndex 0 0
  else if o.emptyRead c then .trap .emptyRead 0 0
  else if o.formWrite c s then .trap .formWrite 0 0
  else if o.sends.any (fun q => (Tbl.find? c.team.sendq q.1).isNone) then .trap .queueUnbound 0 0
  else if o.blocked c || o.dstEmpty c then .stall (o.pending c) s
  else if o.c.l && s.latchBusy c o.lslot then .stall .wait s
  else if !(o.sends.all (fun q => s.credited c q.1 q.2)) || (decide (o.sends ≠ []) && !c.quiet s) then
    .stall .wait (o.sends.foldl (fun st q => match Tbl.find? c.team.sendq q.1 with
      | some b => st.askCredits c q.1 q.2 b
      | none => st) s)
  else .retire (o.delivered c (o.results c s) s)

/-- A vector instruction: one that sends is a commit instruction (R122). -/
def VOp.exec (o : VOp) (s : State) : Out :=
  issue o.c { commit := decide (o.sends ≠ []) } o.static (fun t _ gr _ m => o.undef t gr m) o.body o.form s

/-! ### Forms of the vector formats -/

/-- A source of format V: A, B or C. -/
def srcA (f : FmtV) (words : Nat) (ty : ElemTy) : Src :=
  { field := f.a, e := f.ea, ind := decide (f.isel = .a), words := words, ty := ty, neg := f.na, abs := f.aa }
def srcB (f : FmtV) (words : Nat) (ty : ElemTy) : Src :=
  { field := f.b, e := f.eb, ind := decide (f.isel = .b), words := words, ty := ty, neg := f.nb, abs := f.ab }
def srcC (f : FmtV) (words : Nat) (ty : ElemTy) : Src :=
  { field := f.c, e := f.ec, ind := false, words := words, ty := ty, neg := f.nc, abs := f.ac }

/-- Registers of an operand of a type. -/
def tyWords (ty : ElemTy) : Nat := if tyBits ty = 64 then 2 else 1

/-- An instruction of format V with the sources and function given. -/
def vop (c : Common) (f : FmtV) (dWords : Nat) (srcs : List Src) (aff : AffRule)
    (fn : LaneEnv → List Nat → Nat × FlagSet) : VOp :=
  { c := c, dst := f.dst, dInd := decide (f.isel = .dst), dWords := dWords, ireg := f.ireg.toNat, qsel := f.qsel.toNat,
    lslot := f.lslot.toNat, srcs := srcs, aff := aff, fn := fn, dChk := true }

/-- The sources and function of an instruction of format V whose DST field holds no operand. -/
def pvop (c : Common) (f : FmtV) (srcs : List Src) (fn : LaneEnv → List Nat → Nat × FlagSet) : VOp :=
  { vop { c with w := false } f 1 srcs .none fn with dChk := false }

/-- Sources of format I (R41). -/
def srcIA (f : FmtI) (words : Nat) (ty : ElemTy) : Src :=
  { field := f.a, e := f.ea, ind := decide (f.isel = .a), words := words, ty := ty }
def srcImm (f : FmtI) (ty : ElemTy) : Src := { field := 0, lit := some (immVal f.imm ty), ty := ty }
/-- The old destination as source C (R41). -/
def srcOld (f : FmtI) (words : Nat) (ty : ElemTy) : Src :=
  { field := f.dst, ind := decide (f.isel = .dst), words := words, ty := ty }

/-- An instruction of format I. -/
def iop (c : Common) (f : FmtI) (dWords : Nat) (srcs : List Src) (aff : AffRule)
    (fn : LaneEnv → List Nat → Nat × FlagSet) : VOp :=
  { c := c, dst := f.dst, dInd := decide (f.isel = .dst), dWords := dWords, ireg := f.ireg.toNat, qsel := f.qsel.toNat,
    lslot := 0, srcs := srcs, aff := aff, fn := fn, dChk := true }

end Sys2Proof.Machine
end

