-- ==== Sys2Proof/Machine/Float.lean ====
section
/-! DEFINITION. The float, packed and conversion instructions (spec/09_arithmetic.md R165 to R176, R41). -/

namespace Sys2Proof.Machine

open Sys2Proof

/-- The format of a float type of these instructions. -/
def fmtOf (ty : ElemTy) : FloatFmt := (floatFmt ty).getD fmtF32

/-- A 32-bit register's element 0 decoded at the type (R155). -/
def FloatFmt.elem (f : FloatFmt) (v : Nat) : FVal := f.decode (v % 2 ^ (f.mbits + f.ebits + 1))

/-- A rounding without dither. -/
def rndPlain (r : Rnd) : RndCtx := ⟨r, 0⟩

/-! ### Lane functions -/

def faddFn (ty : ElemTy) (r : Rnd) (sat : Bool) : LaneEnv → List Nat → Nat × FlagSet
  | _, [a, b] => (fmtOf ty).addF (rndPlain r) sat ((fmtOf ty).elem a) ((fmtOf ty).elem b)
  | _, _ => (0, 0)

def fsubFn (ty : ElemTy) (r : Rnd) (sat : Bool) : LaneEnv → List Nat → Nat × FlagSet
  | _, [a, b] => (fmtOf ty).addF (rndPlain r) sat ((fmtOf ty).elem a) ((fmtOf ty).elem b).flip
  | _, _ => (0, 0)

def fmulFn (ty : ElemTy) (r : Rnd) (sat : Bool) : LaneEnv → List Nat → Nat × FlagSet
  | _, [a, b] => (fmtOf ty).mulF (rndPlain r) sat ((fmtOf ty).elem a) ((fmtOf ty).elem b)
  | _, _ => (0, 0)

def ffmaFn (ty : ElemTy) (r : Rnd) (sat : Bool) : LaneEnv → List Nat → Nat × FlagSet
  | _, [a, b, c] => (fmtOf ty).fmaF (rndPlain r) sat ((fmtOf ty).elem a) ((fmtOf ty).elem b) ((fmtOf ty).elem c)
  | _, _ => (0, 0)

def fminFn (ty : ElemTy) (mx : Bool) : LaneEnv → List Nat → Nat × FlagSet
  | _, [a, b] =>
    let f := fmtOf ty
    let w := 2 ^ (f.mbits + f.ebits + 1)
    f.minMaxF mx (a % w) (b % w)
  | _, _ => (0, 0)

def f32Fn1 (g : FVal → Nat × FlagSet) : LaneEnv → List Nat → Nat × FlagSet
  | _, [a] => g (fmtF32.decode (a % 2 ^ 32))
  | _, _ => (0, 0)

def fdivFn (r : Rnd) (sat : Bool) : LaneEnv → List Nat → Nat × FlagSet
  | _, [a, b] => fmtF32.divF (rndPlain r) sat (fmtF32.decode (a % 2 ^ 32)) (fmtF32.decode (b % 2 ^ 32))
  | _, _ => (0, 0)

/-- fexp2 (R168). The bracketing value is a free choice by operand (log entry 7). -/
def exp2F (code : Nat) : Nat × FlagSet :=
  let f := fmtF32
  match f.decode code with
  | .nan s => (f.nanCode, flagIf s fINVALID)
  | .inf n => (if n then 0 else f.infCode false, 0)
  | .fin n m e =>
    let pick := if Config.exp2Up (BitVec.ofNat 32 code) then 1 else 0
    if m = 0 then (0x3F800000, 0)
    else
      -- floor of the operand and its fraction in units of 2^−160
      let fix : Int := dyadOf n m 0 |>.n
      let fix : Int := if 0 ≤ e + 160 then fix * 2 ^ (e + 160).toNat else fix / (2 ^ (-(e + 160)).toNat : Nat)
      let i := fix / (2 ^ 160 : Nat)
      let fr := (fix % (2 ^ 160 : Nat)).toNat
      if 128 ≤ i then (f.infCode false, fOVERFLOW ||| fINEXACT)
      else if i < -150 then f.bracket false 1 (-1000) pick 0
      else if fr = 0 ∧ 0 ≤ e + 160 then
        if -149 ≤ i then (f.round (rndPlain .rne) false false 1 i false).1 |> (fun c => (c, 0))
        else f.bracket false 1 i pick 0
      else f.bracket false (exp2Fix fr) (i - 160) pick 0

/-- flog2 (R168). -/
def log2F (code : Nat) : Nat × FlagSet :=
  let f := fmtF32
  match f.decode code with
  | .nan s => (f.nanCode, flagIf s fINVALID)
  | .inf true => (f.nanCode, fINVALID)
  | .inf false => (f.infCode false, 0)
  | .fin n m e =>
    if m = 0 then (f.infCode true, fDIVZERO)
    else if n then (f.nanCode, fINVALID)
    else
      let l := bitLen m - 1
      let ex : Int := e + l
      if m = 2 ^ l then f.ofInt (rndPlain .rne) false ex
      else
        let pick := if Config.log2Up (BitVec.ofNat 32 code) then 1 else 0
        let v : Int := ex * (2 ^ 112 : Nat) + log2Bits 112 (m * 2 ^ (256 - l)) 0
        if 0 ≤ v then f.bracket false v.toNat (-112) pick 0 else f.bracket true ((-v).toNat - 1) (-112) pick 0

/-- sin or cos of ±m·2^e, |a| below 2^20, in units of 2^−320 (R169). -/
def sinCosFix (cos neg : Bool) (m : Nat) (e : Int) : Int :=
  let p := reducePi neg m e
  let y : Int := if p.1 = 0 then (if neg then -1 else 1) * ((m : Int) * 2 ^ (e + 320).toNat) else p.2 / (2 ^ 160 : Nat)
  let q := (p.1 % 4).toNat
  let q := if cos then (q + 1) % 4 else q
  match q with
  | 0 => sinFix y
  | 1 => cosFix y
  | 2 => -(sinFix y)
  | _ => -(cosFix y)

/-- fsin and fcos (R169): one of the four values within 2 ulp, a free choice by operand (log entry 7). -/
def sinCosF (cos : Bool) (code : Nat) : Nat × FlagSet :=
  let f := fmtF32
  match f.decode code with
  | .nan s => (f.nanCode, flagIf s fINVALID)
  | .inf _ => (f.nanCode, fINVALID)
  | .fin n m e =>
    if m = 0 then (if cos then 0x3F800000 else f.sign n, 0)
    else if 20 ≤ floorLog2 m e then (f.nanCode, fRANGE)
    else
      let v := sinCosFix cos n m e
      let pick := (if cos then Config.cosPick (BitVec.ofNat 32 code) else Config.sinPick (BitVec.ofNat 32 code)) % 4
      f.bracket (decide (v < 0)) v.natAbs (-320) pick 1

/-- fredpi (R170): y in the low word, the quadrant in the high word. -/
def redpiF (code : Nat) : Nat × FlagSet :=
  let f := fmtF32
  match f.decode code with
  | .nan s => (f.nanCode, flagIf s fINVALID)
  | .inf _ => (f.nanCode, fINVALID)
  | .fin n m e =>
    let p := reducePi n m e
    if p.1 = 0 then (code % 2 ^ 32, 0)
    else
      let pick := if Config.redpiUp (BitVec.ofNat 32 code) then 1 else 0
      let r := f.bracket (decide (p.2 < 0)) p.2.natAbs (-480) pick 0
      (r.1 + 2 ^ 32 * (p.1 % 4).toNat, r.2)

def f32Code (g : Nat → Nat × FlagSet) : LaneEnv → List Nat → Nat × FlagSet
  | _, [a] => g (a % 2 ^ 32)
  | _, _ => (0, 0)

/-- frint (R171). -/
def frintFn (ty : ElemTy) (r : Rnd) : LaneEnv → List Nat → Nat × FlagSet
  | _, [a] =>
    let f := fmtOf ty
    match f.elem a with
    | .nan s => (f.nanCode, flagIf s fINVALID)
    | .inf n => (f.infCode n, 0)
    | .fin n m e =>
      let q := roundAt (rndPlain r) n m e false 0
      if 0 ≤ e then (f.pack n m e, 0) else (f.pack n q.1 0, flagIf q.2 fINEXACT)
  | _, _ => (0, 0)

/-- fclass (R171). -/
def fclassFn (ty : ElemTy) : LaneEnv → List Nat → Nat × FlagSet
  | _, [a] =>
    let f := fmtOf ty
    (match f.elem a with
      | .nan s => if s then 256 else 512
      | .inf n => if n then 1 else 128
      | .fin n m _ =>
        if m = 0 then (if n then 8 else 16)
        else if m < 2 ^ f.mbits then (if n then 4 else 32)
        else (if n then 2 else 64), 0)
  | _, _ => (0, 0)

/-- a · 2^k rounded once; zero and infinity return themselves (R171, R176). -/
def scaleF (r : Rnd) (sat : Bool) (v : FVal) (k : Int) : Nat × FlagSet :=
  match v with
  | .nan s => (fmtF32.nanCode, flagIf s fINVALID)
  | .inf n => (fmtF32.satCode sat (fmtF32.infCode n), 0)
  | .fin n m e => if m = 0 then (fmtF32.sign n, 0) else fmtF32.round (rndPlain r) sat n m (e + k) false

/-- A scaling exponent beyond which every finite operand overflows or vanishes alike. -/
def limitScale (k : Int) : Int := if k < -1024 then -1024 else if 1024 < k then 1024 else k

def fscaleFn (r : Rnd) (sat : Bool) : LaneEnv → List Nat → Nat × FlagSet
  | _, [a, b] => scaleF r sat (fmtF32.decode (a % 2 ^ 32)) (limitScale (intVal true 32 b))
  | _, _ => (0, 0)

/-- fgetexp (R171). -/
def getexpF (v : FVal) : Nat × FlagSet :=
  match v with
  | .nan _ => (0x80000000, fINVALID)
  | .inf _ => (0x7FFFFFFF, 0)
  | .fin _ m e => if m = 0 then (0x80000000, 0) else (intBits 32 (floorLog2 m e), 0)

/-- A scalar function on both 16-bit elements (R172). -/
def pairFn (g : LaneEnv → List Nat → Nat × FlagSet) : LaneEnv → List Nat → Nat × FlagSet := fun e xs =>
  let lo := g e (xs.map (fun v => v % 65536))
  let hi := g e (xs.map (fun v => v / 65536 % 65536))
  (lo.1 + 65536 * hi.1, lo.2 ||| hi.2)

/-- Element i of n-bit elements (R144). -/
def elemAt (bits v i : Nat) : Nat := v / 2 ^ (bits * i) % 2 ^ bits

/-- dot4 and dot8 (R173, R152). -/
def dotFn (ty : ElemTy) (n4 : Bool) (count : Nat) (r : Rnd) (sat : Bool) : LaneEnv → List Nat → Nat × FlagSet
  | _, [a, b, c] =>
    let bits := tyBits ty
    match floatFmt ty with
    | some f =>
      dotSum (rndPlain r) sat (fmtF32.decode (c % 2 ^ 32))
        ((List.range count).map (fun i => prodOf (f.decode (elemAt bits a i)) (f.decode (elemAt bits b i))))
    | none =>
      let sg := tySigned ty && !n4
      let s := (List.range count).foldl (fun (t : Int) (i : Nat) =>
        t + intVal sg bits (elemAt bits a i) * intVal sg bits (elemAt bits b i)) (intVal sg 32 c)
      (intBits 32 (if sat then clampInt sg 32 s else s), 0)
  | _, _ => (0, 0)

/-- Elements of a register at a packed type (R175). -/
def packCount (ty : ElemTy) : Nat := 32 / tyBits ty

/-- pack: n words of f32 into n elements (R175); under rdi the block position is n·lane + i. -/
def packFn (ty : ElemTy) (n4 : Bool) (r : Rnd) (sat : Bool) : LaneEnv → List Nat → Nat × FlagSet
  | env, [a] =>
    let n := packCount ty
    (List.range n).foldl (fun acc i =>
      let x := convert (RndCtx.of r (n * env.lane + i) env.phase) sat .f32 ty n4 (a / 2 ^ (32 * i) % 2 ^ 32)
      (acc.1 + x.1 * 2 ^ (tyBits ty * i), acc.2 ||| x.2)) (0, 0)
  | _, _ => (0, 0)

/-- unpack: n elements into n words of f32 (R175). -/
def unpackFn (ty : ElemTy) (n4 : Bool) : LaneEnv → List Nat → Nat × FlagSet
  | _, [a] =>
    let n := packCount ty
    (List.range n).foldl (fun acc i =>
      let x := convert (rndPlain .rne) false ty .f32 n4 (elemAt (tyBits ty) a i)
      (acc.1 + x.1 * 2 ^ (32 * i), acc.2 ||| x.2)) (0, 0)
  | _, _ => (0, 0)

/-- cvt (R174). -/
def cvtFn (src dst : ElemTy) (n4 : Bool) (r : Rnd) (sat : Bool) : LaneEnv → List Nat → Nat × FlagSet
  | env, [a] =>
    if dst = .e8m0 then toE8m0 (fmtF32.decode (a % 2 ^ 32))
    else if src = .e8m0 then (fromE8m0 a, 0)
    else convert (RndCtx.of r env.lane env.phase) sat src dst n4 a
  | _, _ => (0, 0)

/-- bscale (R176). -/
def bscaleFn (sub : BitVec 5) (r : Rnd) (sat : Bool) : LaneEnv → List Nat → Nat × FlagSet
  | _, a :: b :: rest =>
    let sb := elemAt 8 b (sub.toNat % 4)
    let sc := match rest with
      | [] => 127
      | c :: _ => elemAt 8 c (sub.toNat / 4 % 4)
    let v := fmtF32.decode (a % 2 ^ 32)
    if sb = 255 ∨ sc = 255 then (fmtF32.nanCode, flagIf v.isSig fINVALID)
    else scaleF r sat v ((sb : Int) - 127 + ((sc : Int) - 127))
  | _, _ => (0, 0)

/-- bmax.abs: the larger magnitude; a NaN passes (R176). -/
def bmaxAbsFn : LaneEnv → List Nat → Nat × FlagSet
  | _, [a, b] =>
    let x := fmtF32.decode (a % 2 ^ 32)
    let y := fmtF32.decode (b % 2 ^ 32)
    if x.isNan || y.isNan then (fmtF32.nanCode, sigFlag [x, y])
    else (max (a % 2 ^ 31) (b % 2 ^ 31), 0)
  | _, _ => (0, 0)

/-- bmax.scale: the scale code of |a| (R176, R149). -/
def bmaxScaleFn (ty : ElemTy) : LaneEnv → List Nat → Nat × FlagSet
  | _, [a] => scaleOf ty (fmtF32.decode (a % 2 ^ 32))
  | _, _ => (0, 0)

/-! ### Forms -/

def fopA (c : Common) (f : FmtV) (fn : LaneEnv → List Nat → Nat × FlagSet) : VOp := vop c f 1 [srcA f 1 f.ty] .none fn
def fopAB (c : Common) (f : FmtV) (fn : LaneEnv → List Nat → Nat × FlagSet) : VOp :=
  vop c f 1 [srcA f 1 f.ty, srcB f 1 f.ty] .none fn
def fopABC (c : Common) (f : FmtV) (fn : LaneEnv → List Nat → Nat × FlagSet) : VOp :=
  vop c f 1 [srcA f 1 f.ty, srcB f 1 f.ty, srcC f 1 f.ty] .none fn
def fopAI (c : Common) (f : FmtI) (fn : LaneEnv → List Nat → Nat × FlagSet) : VOp :=
  iop c f 1 [srcIA f 1 f.ty, srcImm f f.ty] .none fn
def fopAIC (c : Common) (f : FmtI) (fn : LaneEnv → List Nat → Nat × FlagSet) : VOp :=
  iop c f 1 [srcIA f 1 f.ty, srcImm f f.ty, srcOld f 1 f.ty] .none fn

/-- An SFU instruction: a long-latency producer (R118). -/
def VOp.sfu (o : VOp) : VOp := { o with long := true }

/-- Sources whose modifiers act on both 16-bit elements (R172). -/
def VOp.packed (o : VOp) : VOp := { o with srcs := o.srcs.map (fun x => { x with packed := true }) }

/-! ### Meanings -/

/-- `fadd` (R165). -/
def execFadd (c : Common) (f : FmtV) (s : State) : Out := (fopAB c f (faddFn f.ty f.rnd f.sat)).exec s
/-- `fsub` (R165). -/
def execFsub (c : Common) (f : FmtV) (s : State) : Out := (fopAB c f (fsubFn f.ty f.rnd f.sat)).exec s
/-- `fmul` (R165). -/
def execFmul (c : Common) (f : FmtV) (s : State) : Out := (fopAB c f (fmulFn f.ty f.rnd f.sat)).exec s
/-- `ffma`: a·b + c rounded once (R165). -/
def execFfma (c : Common) (f : FmtV) (s : State) : Out := (fopABC c f (ffmaFn f.ty f.rnd f.sat)).exec s
/-- `fmin` (R166). -/
def execFmin (c : Common) (f : FmtV) (s : State) : Out := (fopAB c f (fminFn f.ty false)).exec s
/-- `fmax` (R166). -/
def execFmax (c : Common) (f : FmtV) (s : State) : Out := (fopAB c f (fminFn f.ty true)).exec s
/-- Immediate form of `fadd` (R41). -/
def execFaddImm (c : Common) (f : FmtI) (s : State) : Out := (fopAI c f (faddFn f.ty f.rnd f.sat)).exec s
/-- Immediate form of `fsub` (R41). -/
def execFsubImm (c : Common) (f : FmtI) (s : State) : Out := (fopAI c f (fsubFn f.ty f.rnd f.sat)).exec s
/-- Immediate form of `fmul` (R41). -/
def execFmulImm (c : Common) (f : FmtI) (s : State) : Out := (fopAI c f (fmulFn f.ty f.rnd f.sat)).exec s
/-- Immediate form of `ffma`: C is the old destination (R41). -/
def execFfmaImm (c : Common) (f : FmtI) (s : State) : Out := (fopAIC c f (ffmaFn f.ty f.rnd f.sat)).exec s
/-- Immediate form of `fmin` (R41). -/
def execFminImm (c : Common) (f : FmtI) (s : State) : Out := (fopAI c f (fminFn f.ty false)).exec s
/-- Immediate form of `fmax` (R41). -/
def execFmaxImm (c : Common) (f : FmtI) (s : State) : Out := (fopAI c f (fminFn f.ty true)).exec s

/-- `frcp`: 1/a (R167). -/
def execFrcp (c : Common) (f : FmtV) (s : State) : Out :=
  (fopA c f (f32Fn1 (fun a => fmtF32.divF (rndPlain f.rnd) f.sat (.fin false 1 0) a))).sfu.exec s
/-- `frsq`: 1/√a (R167). -/
def execFrsq (c : Common) (f : FmtV) (s : State) : Out :=
  (fopA c f (f32Fn1 (fmtF32.rsqrtF (rndPlain f.rnd) f.sat))).sfu.exec s
/-- `fsqrt`: √a (R167). -/
def execFsqrt (c : Common) (f : FmtV) (s : State) : Out :=
  (fopA c f (f32Fn1 (fmtF32.sqrtF (rndPlain f.rnd) f.sat))).sfu.exec s
/-- `fdiv`: a/b (R167). -/
def execFdiv (c : Common) (f : FmtV) (s : State) : Out := (fopAB c f (fdivFn f.rnd f.sat)).sfu.exec s
/-- `fexp2` (R168). -/
def execFexp2 (c : Common) (f : FmtV) (s : State) : Out := (fopA c f (f32Code exp2F)).sfu.exec s
/-- `flog2` (R168). -/
def execFlog2 (c : Common) (f : FmtV) (s : State) : Out := (fopA c f (f32Code log2F)).sfu.exec s
/-- `fsin` (R169). -/
def execFsin (c : Common) (f : FmtV) (s : State) : Out := (fopA c f (f32Code (sinCosF false))).sfu.exec s
/-- `fcos` (R169). -/
def execFcos (c : Common) (f : FmtV) (s : State) : Out := (fopA c f (f32Code (sinCosF true))).sfu.exec s
/-- `fredpi`: the reduced value and the quadrant (R170). -/
def execFredpi (c : Common) (f : FmtV) (s : State) : Out :=
  ({ fopA c f (f32Code redpiF) with dWords := 2, long := true } : VOp).exec s
/-- `frint` (R171). -/
def execFrint (c : Common) (f : FmtV) (s : State) : Out := (fopA c f (frintFn f.ty f.rnd)).exec s
/-- `fclass` (R171). -/
def execFclass (c : Common) (f : FmtV) (s : State) : Out := (fopA c f (fclassFn f.ty)).exec s
/-- `fscale`: a · 2^n (R171). -/
def execFscale (c : Common) (f : FmtV) (s : State) : Out :=
  (vop c f 1 [srcA f 1 .f32, srcB f 1 .i32] .none (fscaleFn f.rnd f.sat)).exec s
/-- `fgetexp` (R171). -/
def execFgetexp (c : Common) (f : FmtV) (s : State) : Out := (fopA c f (f32Fn1 getexpF)).exec s

/-- `hadd2` (R172). -/
def execHadd2 (c : Common) (f : FmtV) (s : State) : Out := (fopAB c f (pairFn (faddFn f.ty f.rnd f.sat))).packed.exec s
/-- `hmul2` (R172). -/
def execHmul2 (c : Common) (f : FmtV) (s : State) : Out := (fopAB c f (pairFn (fmulFn f.ty f.rnd f.sat))).packed.exec s
/-- `hfma2` (R172). -/
def execHfma2 (c : Common) (f : FmtV) (s : State) : Out := (fopABC c f (pairFn (ffmaFn f.ty f.rnd f.sat))).packed.exec s

/-- The type of C and of the result of dot4 and dot8 (R173). -/
def dotAcc (ty : ElemTy) (n4 : Bool) : ElemTy :=
  if (floatFmt ty).isSome then .f32 else if tySigned ty && !n4 then .i32 else .n32

/-- `dot4` (R173). -/
def execDot4 (c : Common) (f : FmtV) (s : State) : Out :=
  (vop c f 1 [srcA f 1 f.ty, srcB f 1 f.ty, srcC f 1 (dotAcc f.ty false)] .none
    (dotFn f.ty false 4 f.rnd f.sat)).exec s
/-- `dot8` (R173); SUBOP bit 0 names n4. -/
def execDot8 (c : Common) (f : FmtV) (s : State) : Out :=
  (vop c f 1 [srcA f 1 f.ty, srcB f 1 f.ty, srcC f 1 (dotAcc f.ty (f.sub.getLsbD 0))] .none
    (dotFn f.ty (f.sub.getLsbD 0) 8 f.rnd f.sat)).exec s

/-- `pack` (R175): a register range into one register; with rdi it advances the dither phase (R151). -/
def execPack (c : Common) (f : FmtV) (s : State) : Out :=
  ({ vop c f 1 [{ srcA f (packCount f.ty) .f32 with range := true }] .none
      (packFn f.ty (f.sub.getLsbD 0) f.rnd f.sat) with
      noForm := decide (f.rnd = .rdi), advPhase := decide (f.rnd = .rdi) } : VOp).exec s
/-- `unpack` (R175): one register into a register range. -/
def execUnpack (c : Common) (f : FmtV) (s : State) : Out :=
  ({ vop c f (packCount f.ty) [srcA f 1 f.ty] .none (unpackFn f.ty (f.sub.getLsbD 0)) with dRange := true } : VOp).exec s
/-- `cvt` (R174): SUBOP names the source type. -/
def execCvt (c : Common) (f : FmtV) (s : State) : Out :=
  let src := Wf.codeTy (f.sub.extractLsb' 0 4)
  ({ vop c f (tyWords f.ty) [srcA f (tyWords src) src] .none (cvtFn src f.ty (f.sub.getLsbD 4) f.rnd f.sat) with
      noForm := decide (f.rnd = .rdi) } : VOp).exec s
/-- `bscale` (R176). -/
def execBscale (c : Common) (f : FmtV) (s : State) : Out :=
  (vop c f 1 (if f.sub.getLsbD 4 then [srcA f 1 .f32, srcB f 1 .n32] else [srcA f 1 .f32, srcB f 1 .n32, srcC f 1 .n32]) .none
    (bscaleFn f.sub f.rnd f.sat)).exec s
/-- `bmax` (R176). -/
def execBmax (c : Common) (f : FmtV) (s : State) : Out :=
  (if f.sub.getLsbD 0 then vop c f 1 [srcA f 1 .f32] .none (bmaxScaleFn f.ty)
   else vop c f 1 [srcA f 1 .f32, srcB f 1 .f32] .none bmaxAbsFn).exec s

end Sys2Proof.Machine
end

