-- ==== Sys2Proof/Machine/Integer.lean ====
section
/-! DEFINITION. The integer instructions and their immediate forms (spec/09_arithmetic.md R159 to R164, R41). -/

namespace Sys2Proof.Machine

open Sys2Proof

/-- The integer that a pattern of the type stands for (R143). -/
def tyInt (ty : ElemTy) (v : Nat) : Int := intVal (tySigned ty) (tyBits ty) v

/-- A result reduced to the width of its type, or clamped with SAT (R159). -/
def tyReduce (ty : ElemTy) (sat : Bool) (t : Int) : Nat :=
  intBits (tyBits ty) (if sat then clampInt (tySigned ty) (tyBits ty) t else t)

/-- A function of two integers at a type. -/
def intFn2 (ty : ElemTy) (sat : Bool) (f : Int → Int → Int) : LaneEnv → List Nat → Nat × FlagSet
  | _, [a, b] => (tyReduce ty sat (f (tyInt ty a) (tyInt ty b)), 0)
  | _, _ => (0, 0)

/-- A function of three integers at a type. -/
def intFn3 (ty : ElemTy) (sat : Bool) (f : Int → Int → Int → Int) : LaneEnv → List Nat → Nat × FlagSet
  | _, [a, b, c] => (tyReduce ty sat (f (tyInt ty a) (tyInt ty b) (tyInt ty c)), 0)
  | _, _ => (0, 0)

/-- A function of one integer at a type. -/
def intFn1 (ty : ElemTy) (sat : Bool) (f : Int → Int) : LaneEnv → List Nat → Nat × FlagSet
  | _, [a] => (tyReduce ty sat (f (tyInt ty a)), 0)
  | _, _ => (0, 0)

/-- A function of patterns of one, two or three operands. -/
def bitFn1 (ty : ElemTy) (f : Nat → Nat → Nat) : LaneEnv → List Nat → Nat × FlagSet
  | _, [a] => (f (tyBits ty) (a % 2 ^ tyBits ty) % 2 ^ tyBits ty, 0)
  | _, _ => (0, 0)
def bitFn2 (ty : ElemTy) (f : Nat → Nat → Nat → Nat) : LaneEnv → List Nat → Nat × FlagSet
  | _, [a, b] => (f (tyBits ty) (a % 2 ^ tyBits ty) b % 2 ^ tyBits ty, 0)
  | _, _ => (0, 0)
def bitFn3 (ty : ElemTy) (f : Nat → Nat → Nat → Nat → Nat) : LaneEnv → List Nat → Nat × FlagSet
  | _, [a, b, c] => (f (tyBits ty) (a % 2 ^ tyBits ty) b c % 2 ^ tyBits ty, 0)
  | _, _ => (0, 0)

/-! ### The operations on patterns (R161 to R163); w is the width -/

def bAnd (_w a b : Nat) : Nat := a &&& b
def bOr (_w a b : Nat) : Nat := a ||| b
def bXor (_w a b : Nat) : Nat := a ^^^ b
def bNot (w a : Nat) : Nat := 2 ^ w - 1 - a % 2 ^ w
/-- shl, shr, sar, rot with the shift amount taken as n32 (R161). -/
def bShl (w a b : Nat) : Nat := let n := b % 2 ^ 32; if w ≤ n then 0 else a * 2 ^ n
def bShr (w a b : Nat) : Nat := let n := b % 2 ^ 32; if w ≤ n then 0 else a / 2 ^ n
def bSar (w a b : Nat) : Nat :=
  let n := b % 2 ^ 32
  let neg := decide (2 ^ (w - 1) ≤ a % 2 ^ w)
  if w ≤ n then (if neg then 2 ^ w - 1 else 0)
  else a / 2 ^ n + (if neg then 2 ^ w - 2 ^ (w - n) else 0)
def bRot (w a b : Nat) : Nat :=
  let n := b % 2 ^ 32 % w
  a * 2 ^ n % 2 ^ w + a / 2 ^ (w - n)
/-- clz, popc, brev (R162). -/
def bClz (w a : Nat) : Nat := w - bitLen (a % 2 ^ w)
def bPopc (w a : Nat) : Nat := (List.range w).foldl (fun n i => n + a / 2 ^ i % 2) 0
def bBrev (w a : Nat) : Nat := (List.range w).foldl (fun n i => n + a / 2 ^ i % 2 * 2 ^ (w - 1 - i)) 0
/-- bfx: the field of B's control word (R162). -/
def bBfx (signed : Bool) (w a b : Nat) : Nat :=
  let pos := b % 256
  let len := min (b / 256 % 256) w
  let ext := intVal signed w a
  let field := (ext / (2 ^ pos : Nat)) % (2 ^ len : Nat)
  if len = 0 then 0 else intBits w (intVal signed len field.toNat)
/-- bfi: bits of a inserted into c (R162). -/
def bBfi (w a b c : Nat) : Nat :=
  let pos := b % 256
  let len := min (b / 256 % 256) w
  (List.range w).foldl (fun n i =>
    n + (if pos ≤ i ∧ i < pos + len then a / 2 ^ (i - pos) % 2 else c / 2 ^ i % 2) * 2 ^ i) 0
/-- lea: a + (b << n) (R163). -/
def bLea (w a b c : Nat) : Nat := let n := c % 2 ^ 32; a + (if w ≤ n then 0 else b % 2 ^ w * 2 ^ n)

/-- Division truncates toward zero; the remainder has the sign of the dividend (R164, Table 9.2). -/
def divFn (ty : ElemTy) (rem : Bool) : LaneEnv → List Nat → Nat × FlagSet
  | _, [a, b] =>
    let x := tyInt ty a
    let y := tyInt ty b
    if y = 0 then (if rem then a % 2 ^ tyBits ty else 2 ^ tyBits ty - 1, fDIVZERO)
    else (intBits (tyBits ty) (if rem then x.tmod y else x.tdiv y), 0)
  | _, _ => (0, 0)

/-! ### Forms -/

/-- Words of an operand at the type of the instruction. -/
abbrev vw (f : FmtV) : Nat := tyWords f.ty
abbrev iw (f : FmtI) : Nat := tyWords f.ty

/-- The affine rule of a 32-bit type without saturation (Table 6.2). -/
def affIf (ty : ElemTy) (sat : Bool) (r : AffRule) : AffRule :=
  if (ty = .i32 ∨ ty = .n32) ∧ sat = false then r else .none

def vopA (c : Common) (f : FmtV) (aff : AffRule) (fn : LaneEnv → List Nat → Nat × FlagSet) : VOp :=
  vop c f (vw f) [srcA f (vw f) f.ty] (affIf f.ty f.sat aff) fn
def vopAB (c : Common) (f : FmtV) (aff : AffRule) (fn : LaneEnv → List Nat → Nat × FlagSet) : VOp :=
  vop c f (vw f) [srcA f (vw f) f.ty, srcB f (vw f) f.ty] (affIf f.ty f.sat aff) fn
/-- B is a single 32-bit register taken as n32. -/
def vopAn (c : Common) (f : FmtV) (aff : AffRule) (fn : LaneEnv → List Nat → Nat × FlagSet) : VOp :=
  vop c f (vw f) [srcA f (vw f) f.ty, srcB f 1 .n32] (affIf f.ty f.sat aff) fn
def vopABC (c : Common) (f : FmtV) (aff : AffRule) (fn : LaneEnv → List Nat → Nat × FlagSet) : VOp :=
  vop c f (vw f) [srcA f (vw f) f.ty, srcB f (vw f) f.ty, srcC f (vw f) f.ty] (affIf f.ty f.sat aff) fn
def vopAnC (c : Common) (f : FmtV) (fn : LaneEnv → List Nat → Nat × FlagSet) : VOp :=
  vop c f (vw f) [srcA f (vw f) f.ty, srcB f 1 .n32, srcC f (vw f) f.ty] .none fn
def vopABn (c : Common) (f : FmtV) (aff : AffRule) (fn : LaneEnv → List Nat → Nat × FlagSet) : VOp :=
  vop c f (vw f) [srcA f (vw f) f.ty, srcB f (vw f) f.ty, srcC f 1 .n32] (affIf f.ty f.sat aff) fn

def iopI (c : Common) (f : FmtI) (aff : AffRule) (fn : LaneEnv → List Nat → Nat × FlagSet) : VOp :=
  iop c f (iw f) [srcImm f f.ty] (affIf f.ty f.sat aff) fn
def iopAI (c : Common) (f : FmtI) (aff : AffRule) (fn : LaneEnv → List Nat → Nat × FlagSet) : VOp :=
  iop c f (iw f) [srcIA f (iw f) f.ty, srcImm f f.ty] (affIf f.ty f.sat aff) fn
def iopAn (c : Common) (f : FmtI) (aff : AffRule) (fn : LaneEnv → List Nat → Nat × FlagSet) : VOp :=
  iop c f (iw f) [srcIA f (iw f) f.ty, srcImm f .n32] (affIf f.ty f.sat aff) fn
def iopAIC (c : Common) (f : FmtI) (aff : AffRule) (fn : LaneEnv → List Nat → Nat × FlagSet) : VOp :=
  iop c f (iw f) [srcIA f (iw f) f.ty, srcImm f f.ty, srcOld f (iw f) f.ty] (affIf f.ty f.sat aff) fn
def iopAnC (c : Common) (f : FmtI) (fn : LaneEnv → List Nat → Nat × FlagSet) : VOp :=
  iop c f (iw f) [srcIA f (iw f) f.ty, srcImm f .n32, srcOld f (iw f) f.ty] .none fn
def iopAIn (c : Common) (f : FmtI) (aff : AffRule) (fn : LaneEnv → List Nat → Nat × FlagSet) : VOp :=
  iop c f (iw f) [srcIA f (iw f) f.ty, srcImm f f.ty, srcOld f 1 .n32] (affIf f.ty f.sat aff) fn

/-! ### Meanings -/

/-- `add`: a + b (R159). -/
def execAdd (c : Common) (f : FmtV) (s : State) : Out := (vopAB c f .add (intFn2 f.ty f.sat (fun a b => a + b))).exec s

/-- `sub`: a − b (R159). -/
def execSub (c : Common) (f : FmtV) (s : State) : Out := (vopAB c f .sub (intFn2 f.ty f.sat (fun a b => a - b))).exec s

/-- `mul`: a · b (R159). -/
def execMul (c : Common) (f : FmtV) (s : State) : Out := (vopAB c f .mul (intFn2 f.ty f.sat (fun a b => a * b))).exec s

/-- `mulhi`: floor(a · b / 2^w) (R159). -/
def execMulhi (c : Common) (f : FmtV) (s : State) : Out := (vopAB c f .none (intFn2 f.ty false (fun a b => a * b / (2 ^ tyBits f.ty : Nat)))).exec s

/-- `mad`: a · b + c (R159). -/
def execMad (c : Common) (f : FmtV) (s : State) : Out := (vopABC c f .mad (intFn3 f.ty f.sat (fun a b x => a * b + x))).exec s

/-- `madhi`: floor(a · b / 2^w) + c (R159). -/
def execMadhi (c : Common) (f : FmtV) (s : State) : Out := (vopABC c f .none (intFn3 f.ty false (fun a b x => a * b / (2 ^ tyBits f.ty : Nat) + x))).exec s

/-- `min`: the smaller operand (R160). -/
def execMin (c : Common) (f : FmtV) (s : State) : Out := (vopAB c f .none (intFn2 f.ty false (fun a b => min a b))).exec s

/-- `max`: the larger operand (R160). -/
def execMax (c : Common) (f : FmtV) (s : State) : Out := (vopAB c f .none (intFn2 f.ty false (fun a b => max a b))).exec s

/-- `abs`: |a| (R160). -/
def execAbs (c : Common) (f : FmtV) (s : State) : Out := (vopA c f .none (intFn1 f.ty f.sat (fun a => a.natAbs))).exec s

/-- `neg`: −a (R160). -/
def execNeg (c : Common) (f : FmtV) (s : State) : Out := (vopA c f .neg (intFn1 f.ty f.sat (fun a => -a))).exec s

/-- `and`: bitwise and (R161). -/
def execAnd (c : Common) (f : FmtV) (s : State) : Out := (vopAB c f .none (bitFn2 f.ty bAnd)).exec s

/-- `or`: bitwise or (R161). -/
def execOr (c : Common) (f : FmtV) (s : State) : Out := (vopAB c f .none (bitFn2 f.ty bOr)).exec s

/-- `xor`: bitwise exclusive or (R161). -/
def execXor (c : Common) (f : FmtV) (s : State) : Out := (vopAB c f .none (bitFn2 f.ty bXor)).exec s

/-- `not`: bitwise complement (R161). -/
def execNot (c : Common) (f : FmtV) (s : State) : Out := (vopA c f .none (bitFn1 f.ty bNot)).exec s

/-- `shl`: shift left (R161). -/
def execShl (c : Common) (f : FmtV) (s : State) : Out := (vopAn c f .shl (bitFn2 f.ty bShl)).exec s

/-- `shr`: logical shift right (R161). -/
def execShr (c : Common) (f : FmtV) (s : State) : Out := (vopAn c f .none (bitFn2 f.ty bShr)).exec s

/-- `sar`: arithmetic shift right (R161). -/
def execSar (c : Common) (f : FmtV) (s : State) : Out := (vopAn c f .none (bitFn2 f.ty bSar)).exec s

/-- `rot`: rotation left (R161). -/
def execRot (c : Common) (f : FmtV) (s : State) : Out := (vopAn c f .none (bitFn2 f.ty bRot)).exec s

/-- `clz`: leading zeros (R162). -/
def execClz (c : Common) (f : FmtV) (s : State) : Out := (vopA c f .none (bitFn1 f.ty bClz)).exec s

/-- `popc`: ones (R162). -/
def execPopc (c : Common) (f : FmtV) (s : State) : Out := (vopA c f .none (bitFn1 f.ty bPopc)).exec s

/-- `brev`: bits reversed (R162). -/
def execBrev (c : Common) (f : FmtV) (s : State) : Out := (vopA c f .none (bitFn1 f.ty bBrev)).exec s

/-- `bfx`: bit field extracted (R162). -/
def execBfx (c : Common) (f : FmtV) (s : State) : Out := (vopAn c f .none (bitFn2 f.ty (bBfx (tySigned f.ty)))).exec s

/-- `bfi`: bit field inserted (R162). -/
def execBfi (c : Common) (f : FmtV) (s : State) : Out := (vopAnC c f (bitFn3 f.ty bBfi)).exec s

/-- `lea`: a + (b << c) (R163). -/
def execLea (c : Common) (f : FmtV) (s : State) : Out := (vopABn c f .lea (bitFn3 f.ty bLea)).exec s

/-- Immediate form of `add` (R41): a + b (R159). -/
def execAddImm (c : Common) (f : FmtI) (s : State) : Out := (iopAI c f .add (intFn2 f.ty f.sat (fun a b => a + b))).exec s

/-- Immediate form of `sub` (R41): a − b (R159). -/
def execSubImm (c : Common) (f : FmtI) (s : State) : Out := (iopAI c f .sub (intFn2 f.ty f.sat (fun a b => a - b))).exec s

/-- Immediate form of `mul` (R41): a · b (R159). -/
def execMulImm (c : Common) (f : FmtI) (s : State) : Out := (iopAI c f .mul (intFn2 f.ty f.sat (fun a b => a * b))).exec s

/-- Immediate form of `mulhi` (R41): floor(a · b / 2^w) (R159). -/
def execMulhiImm (c : Common) (f : FmtI) (s : State) : Out := (iopAI c f .none (intFn2 f.ty false (fun a b => a * b / (2 ^ tyBits f.ty : Nat)))).exec s

/-- Immediate form of `mad` (R41): a · b + c (R159). -/
def execMadImm (c : Common) (f : FmtI) (s : State) : Out := (iopAIC c f .mad (intFn3 f.ty f.sat (fun a b x => a * b + x))).exec s

/-- Immediate form of `madhi` (R41): floor(a · b / 2^w) + c (R159). -/
def execMadhiImm (c : Common) (f : FmtI) (s : State) : Out := (iopAIC c f .none (intFn3 f.ty false (fun a b x => a * b / (2 ^ tyBits f.ty : Nat) + x))).exec s

/-- Immediate form of `min` (R41): the smaller operand (R160). -/
def execMinImm (c : Common) (f : FmtI) (s : State) : Out := (iopAI c f .none (intFn2 f.ty false (fun a b => min a b))).exec s

/-- Immediate form of `max` (R41): the larger operand (R160). -/
def execMaxImm (c : Common) (f : FmtI) (s : State) : Out := (iopAI c f .none (intFn2 f.ty false (fun a b => max a b))).exec s

/-- Immediate form of `abs` (R41): |a| (R160). -/
def execAbsImm (c : Common) (f : FmtI) (s : State) : Out := (iopI c f .none (intFn1 f.ty f.sat (fun a => a.natAbs))).exec s

/-- Immediate form of `neg` (R41): −a (R160). -/
def execNegImm (c : Common) (f : FmtI) (s : State) : Out := (iopI c f .neg (intFn1 f.ty f.sat (fun a => -a))).exec s

/-- Immediate form of `and` (R41): bitwise and (R161). -/
def execAndImm (c : Common) (f : FmtI) (s : State) : Out := (iopAI c f .none (bitFn2 f.ty bAnd)).exec s

/-- Immediate form of `or` (R41): bitwise or (R161). -/
def execOrImm (c : Common) (f : FmtI) (s : State) : Out := (iopAI c f .none (bitFn2 f.ty bOr)).exec s

/-- Immediate form of `xor` (R41): bitwise exclusive or (R161). -/
def execXorImm (c : Common) (f : FmtI) (s : State) : Out := (iopAI c f .none (bitFn2 f.ty bXor)).exec s

/-- Immediate form of `not` (R41): bitwise complement (R161). -/
def execNotImm (c : Common) (f : FmtI) (s : State) : Out := (iopI c f .none (bitFn1 f.ty bNot)).exec s

/-- Immediate form of `shl` (R41): shift left (R161). -/
def execShlImm (c : Common) (f : FmtI) (s : State) : Out := (iopAn c f .shl (bitFn2 f.ty bShl)).exec s

/-- Immediate form of `shr` (R41): logical shift right (R161). -/
def execShrImm (c : Common) (f : FmtI) (s : State) : Out := (iopAn c f .none (bitFn2 f.ty bShr)).exec s

/-- Immediate form of `sar` (R41): arithmetic shift right (R161). -/
def execSarImm (c : Common) (f : FmtI) (s : State) : Out := (iopAn c f .none (bitFn2 f.ty bSar)).exec s

/-- Immediate form of `rot` (R41): rotation left (R161). -/
def execRotImm (c : Common) (f : FmtI) (s : State) : Out := (iopAn c f .none (bitFn2 f.ty bRot)).exec s

/-- Immediate form of `clz` (R41): leading zeros (R162). -/
def execClzImm (c : Common) (f : FmtI) (s : State) : Out := (iopI c f .none (bitFn1 f.ty bClz)).exec s

/-- Immediate form of `popc` (R41): ones (R162). -/
def execPopcImm (c : Common) (f : FmtI) (s : State) : Out := (iopI c f .none (bitFn1 f.ty bPopc)).exec s

/-- Immediate form of `brev` (R41): bits reversed (R162). -/
def execBrevImm (c : Common) (f : FmtI) (s : State) : Out := (iopI c f .none (bitFn1 f.ty bBrev)).exec s

/-- Immediate form of `bfx` (R41): bit field extracted (R162). -/
def execBfxImm (c : Common) (f : FmtI) (s : State) : Out := (iopAn c f .none (bitFn2 f.ty (bBfx (tySigned f.ty)))).exec s

/-- Immediate form of `bfi` (R41): bit field inserted (R162). -/
def execBfiImm (c : Common) (f : FmtI) (s : State) : Out := (iopAnC c f (bitFn3 f.ty bBfi)).exec s

/-- Immediate form of `lea` (R41): a + (b << c) (R163). -/
def execLeaImm (c : Common) (f : FmtI) (s : State) : Out := (iopAIn c f .lea (bitFn3 f.ty bLea)).exec s

/-- `div`, a long-latency producer (R164, R118). -/
def execDiv (c : Common) (f : FmtV) (s : State) : Out :=
  ({ vopAB c f .none (divFn f.ty false) with long := true } : VOp).exec s

/-- `rem`, a long-latency producer (R164, R118). -/
def execRem (c : Common) (f : FmtV) (s : State) : Out :=
  ({ vopAB c f .none (divFn f.ty true) with long := true } : VOp).exec s

end Sys2Proof.Machine
end

