-- ==== Sys2Proof/Machine/Registers.lean ====
section
/-! DEFINITION. The register instructions (spec/07_registers.md R128 to R137, with R104 in form) and the lane exchange
instructions vote, gred and gscan (spec/05_issue.md R95 to R98). -/

namespace Sys2Proof.Machine

open Sys2Proof

/-! ### Moves (R130 to R132) -/

def moveFn : LaneEnv → List Nat → Nat × FlagSet
  | _, [a] => (a, 0)
  | _, _ => (0, 0)

def selFn : LaneEnv → List Nat → Nat × FlagSet
  | _, [k, a, b] => (if k = 0 then b else a, 0)
  | _, _ => (0, 0)

/-- The selecting predicate of `sel`, with SUBOP [3] as its complement. -/
def srcSel (f : FmtV) : Src := { field := 0, pk := some (f.sub.toNat % 8), neg := f.sub.getLsbD 3 }

/-- The 64-bit or 32-bit value of `movi` (R131). -/
def moviVal (f : FmtI) : Nat :=
  match f.ty with
  | .i64 => intBits 64 (intVal true 32 f.imm.toNat)
  | _ => f.imm.toNat

/-! ### Predicates (R133 to R135) -/

/-- An instruction whose result is a predicate: its sources as those of a vector instruction without a destination
(`op.c.w` is false), the k field, and its result in form. -/
structure KOp where
  op : VOp
  k : Nat
  rule : Node → Parcel → DWord → Option (PredVal × FlagSet)

def KOp.static (o : KOp) (n : Node) : Option TrapKind :=
  if 6 < o.k ∨ o.op.srcs.any (fun x => match x.pk with | some k => decide (7 < k) | none => false) = true then
    some .illegalOperand
  else o.op.static n

/-- What an instruction checks before it reads its sources (R39, R18, R48, R119). -/
def VOp.gate (o : VOp) (c : Ctx) (s : State) : Option Res :=
  if o.regIndex c then some (.trap .regIndex 0 0)
  else if o.emptyRead c then some (.trap .emptyRead 0 0)
  else if o.blocked c then some (.stall (o.pending c) s)
  else none

/-- A member's result bits. -/
def resultMask (rs : List (Member × Nat × Nat × FlagSet)) (m : Member) : LaneMask :=
  maskOf (fun l => rs.any (fun r => decide (r.1 = m) && decide (r.2.1 = l) && decide (r.2.2.1 ≠ 0)))

def KOp.body (o : KOp) (c : Ctx) (s : State) : Res :=
  match o.op.gate c s with
  | some r => r
  | none =>
    let rs := o.op.results c s
    let s1 := raiseAll c.team.id rs s
    let s2 := c.members.foldl (fun st m =>
      st.modGroup c.team.id m.g (fun g => g.setPred o.k m.act (resultMask rs m))) s1
    .retire ((srcQueues o.op.srcs).foldl (fun st q => st.consumeMsgs c q) s2)

def KOp.form (o : KOp) (n : Node) (p : Parcel) (s : State) : FormRes :=
  match o.rule n p (s.cyc n.leadCore) with
  | none => .cut
  | some r =>
    .done (s.modNode n.id (fun x => x.modParcel p.id (fun y =>
      ({ y with preds := predSet y.preds o.k r.1, flags := y.flags ||| r.2 } : Parcel).advance)))

def KOp.exec (o : KOp) (s : State) : Out :=
  issue o.op.c {} o.static (fun t _ gr _ m => o.op.undef t gr m) o.body o.form s

/-- The same fields without a register destination. -/
def Common.noW (c : Common) : Common := { c with w := false }

/-- a < b and a = b of two decoded values that are not NaN; −0 equals +0. -/
def fvalLt : FVal → FVal → Bool
  | .inf n, .inf m => n && !m
  | .inf n, _ => n
  | _, .inf m => !m
  | a, b => a.dyad.lt b.dyad

def fvalEq (a b : FVal) : Bool := !a.isNan && !b.isNan && !fvalLt a b && !fvalLt b a

/-- A condition of `kset` on ordered operands. -/
def condOf (cond : Nat) (lt eq : Bool) : Bool :=
  match cond with
  | 0 => eq
  | 1 => !eq
  | 2 => lt
  | 3 => lt || eq
  | 4 => !(lt || eq)
  | _ => !lt

/-- The compare of one lane (R133). -/
def ksetFn (ty : ElemTy) (cond : Nat) : LaneEnv → List Nat → Nat × FlagSet
  | _, [a, b] =>
    match floatFmt ty with
    | some _ =>
      let x := (fmtOf ty).elem a
      let y := (fmtOf ty).elem b
      let un := x.isNan || y.isNan
      let r := if cond = 6 then un else if un then decide (cond = 1) else condOf cond (fvalLt x y) (fvalEq x y)
      (if r then 1 else 0, sigFlag [x, y])
    | none =>
      let x := tyInt ty (a % 2 ^ tyBits ty)
      let y := tyInt ty (b % 2 ^ tyBits ty)
      let r := if cond = 7 then decide (a &&& b &&& (2 ^ tyBits ty - 1) ≠ 0) else condOf cond (decide (x < y)) (decide (x = y))
      (if r then 1 else 0, 0)
  | _, _ => (0, 0)

/-- The dimension of the one non-zero coefficient, and that coefficient. -/
def onlyCoef (cx cy cz : Word) : Option (Dim × Word) :=
  if cx ≠ 0 ∧ cy = 0 ∧ cz = 0 then some (.x, cx)
  else if cx = 0 ∧ cy ≠ 0 ∧ cz = 0 then some (.y, cy)
  else if cx = 0 ∧ cy = 0 ∧ cz ≠ 0 then some (.z, cz)
  else none

/-- Ceiling of x / c for c > 0. -/
def ceilDiv (x c : Int) : Int := -((-x) / c)

/-- R104: `a cond u` for an affine a over the parcel's range; `cond` is 2 to 5 (lt, le, gt, ge). -/
def affCompare (ty : ElemTy) (cond : Nat) (b cx cy cz : Word) (u : Nat) (n : Node) (p : Parcel) : Option PredVal :=
  match onlyCoef cx cy cz with
  | none => none
  | some (d, cw) =>
    let lo : Int := (p.bounds n d).1
    let hi : Int := (p.bounds n d).2
    let sg := tySigned ty
    let c := intVal sg 32 cw.toNat
    let e0 := intVal sg 32 b.toNat + c * lo
    let e1 := intVal sg 32 b.toNat + c * (hi - 1)
    let uv := intVal sg 32 u
    if e0 < intMin sg 32 ∨ intMax sg 32 < e0 ∨ e1 < intMin sg 32 ∨ intMax sg 32 < e1 then none
    else
      let ge := decide (cond = 4) || decide (cond = 5)
      let v := if cond = 5 ∨ cond = 2 then uv else uv + 1
      let t := if 0 < c then lo + ceilDiv (v - e0) c else lo + (e0 - v) / (-c) + 1
      let t := min (max t lo) hi
      some (.range d t.toNat (if 0 < c then ge else !ge))

/-- The condition with its operands exchanged. -/
def swapCond (cond : Nat) : Nat := if cond = 2 then 4 else if cond = 4 then 2 else if cond = 3 then 5 else 3

/-- `kset` in form (Table 6.2, R104). -/
def ksetForm (o : VOp) (ty : ElemTy) (cond : Nat) (n : Node) (p : Parcel) (cyc : DWord) : Option (PredVal × FlagSet) :=
  match kindsOf o.srcs p.form (p.uniPred n) n cyc with
  | some [.uni a, .uni b] => let r := ksetFn ty cond ⟨0, 0⟩ [a, b]; some (.uni (decide (r.1 ≠ 0)), r.2)
  | some [.aff b cx cy cz, .uni u] =>
    if (ty = .i32 ∨ ty = .n32) ∧ 2 ≤ cond ∧ cond ≤ 5 then (affCompare ty cond b cx cy cz u n p).map (fun v => (v, 0)) else none
  | some [.uni u, .aff b cx cy cz] =>
    if (ty = .i32 ∨ ty = .n32) ∧ 2 ≤ cond ∧ cond ≤ 5 then
      (affCompare ty (swapCond cond) b cx cy cz u n p).map (fun v => (v, 0))
    else none
  | _ => none

/-- `kop` of two bits (R134). -/
def kopBit (op : Nat) (a b : Bool) : Bool :=
  match op with
  | 0 => a && b
  | 1 => a || b
  | 2 => a != b
  | 3 => a && !b
  | _ => !a

def kopFn (op : Nat) : LaneEnv → List Nat → Nat × FlagSet
  | _, [a] => (if kopBit op (decide (a ≠ 0)) false then 1 else 0, 0)
  | _, [a, b] => (if kopBit op (decide (a ≠ 0)) (decide (b ≠ 0)) then 1 else 0, 0)
  | _, _ => (0, 0)

/-- `kop` in form (Table 6.2). -/
def kopForm (op a b : Nat) (n : Node) (p : Parcel) : Option PredVal :=
  if op = 4 then
    match p.uniPred n a, predGet p.preds a with
    | some x, _ => some (.uni (!x))
    | none, .range d t ge => some (.range d t (!ge))
    | _, _ => none
  else match p.uniPred n a, p.uniPred n b with
    | some x, some y => some (.uni (kopBit op x y))
    | _, _ =>
      match predGet p.preds a, predGet p.preds b with
      | .range d t ge, .range d' t' ge' =>
        if d = d' ∧ ge = ge' ∧ op ≤ 1 then some (.range d (if (op = 0) = (ge = true) then max t t' else min t t') ge) else none
      | _, _ => none

/-- A predicate as a source. -/
def srcK (field : BitVec 11) : Src := { field := 0, pk := some field.toNat }

/-- The value that the lowest-numbered active lane reads (R135, R136). -/
def firstVal (vals : List (Member × Nat × List Nat)) (i : Nat) : Nat :=
  match vals with
  | [] => 0
  | v :: _ => v.2.2.getD i 0

/-! ### Exchange between lanes (R137, R96 to R98) -/

/-- The source lane of `shfl`; none outside 0 to 31 (R137). -/
def shflLane (mode l b : Nat) : Option Nat :=
  let b := b % 2 ^ 32
  match mode with
  | 0 => some (b % 32)
  | 1 => if b ≤ l then some (l - b) else none
  | 2 => if l + b < 32 then some (l + b) else none
  | _ => some (l ^^^ b % 32)

/-- The value list of lane `j` of member `m`, when it is active. -/
def laneVals (vals : List (Member × Nat × List Nat)) (m : Member) (j : Nat) : Option (List Nat) :=
  (vals.find? (fun v => decide (v.1 = m) && decide (v.2.1 = j))).map (fun v => v.2.2)

def shflCross (mode : Nat) (_ : Ctx) (vals : List (Member × Nat × List Nat)) : List (Member × Nat × Nat × FlagSet) :=
  vals.map (fun v =>
    let own := v.2.2.getD 0 0
    let r := match shflLane mode v.2.1 (v.2.2.getD 1 0) with
      | none => own
      | some j => if (v.2.2.getD 2 0).testBit j then ((laneVals vals v.1 j).map (fun x => x.getD 0 0)).getD own else own
    (v.1, v.2.1, r, 0))

/-- The ballot of a member: its active lanes whose source is true. -/
def ballotOf (vals : List (Member × Nat × List Nat)) (m : Member) : LaneMask :=
  maskOf (fun l => vals.any (fun v => decide (v.1 = m) && decide (v.2.1 = l) && decide (v.2.2.getD 0 0 ≠ 0)))

def voteCross (op : Nat) (c : Ctx) (vals : List (Member × Nat × List Nat)) : List (Member × Nat × Nat × FlagSet) :=
  let one (b : Bool) : Nat := if b then 1 else 0
  let x := firstVal vals 0
  vals.map (fun v =>
    let r := match op with
      | 0 => one (vals.any (fun e => decide (e.2.2.getD 0 0 ≠ 0)))
      | 1 => one (vals.all (fun e => decide (e.2.2.getD 0 0 ≠ 0)))
      | 3 => one (vals.all (fun e => decide (e.2.2.getD 0 0 = x)))
      | _ =>
        if c.scope = .group then (ballotOf vals v.1).toNat
        else match c.members.find? (fun m => decide (m.pos = v.2.1)) with
          | some m => (ballotOf vals m).toNat
          | none => 0
    (v.1, v.2.1, r, 0))

/-- Combine of R97; `op` as in Table 5.5. -/
def combine (op : Nat) (ty : ElemTy) (r : Rnd) (a b : Nat) : Nat × FlagSet :=
  let w := tyBits ty
  if ty = .f32 then
    match op with
    | 0 => fmtF32.addF (rndPlain r) false (fmtF32.decode (a % 2 ^ 32)) (fmtF32.decode (b % 2 ^ 32))
    | _ => fmtF32.minMaxF (decide (op = 2)) (a % 2 ^ 32) (b % 2 ^ 32)
  else
    let lt := decide (tyInt ty (a % 2 ^ w) < tyInt ty (b % 2 ^ w))
    match op with
    | 0 => ((a + b) % 2 ^ w, 0)
    | 1 => (if lt then a else b, 0)
    | 2 => (if lt then b else a, 0)
    | 3 => (a &&& b, 0)
    | 4 => (a ||| b, 0)
    | _ => (a ^^^ b, 0)

/-- One level of Tree: positions 2i and 2i + 1 combine into i (R97). -/
def treeLevel (f : Nat → Nat → Nat × FlagSet) : List (Option Nat) → List (Option Nat) × FlagSet
  | [] => ([], 0)
  | [x] => ([x], 0)
  | x :: y :: t =>
    let r := treeLevel f t
    match x, y with
    | some a, some b => (some (f a b).1 :: r.1, (f a b).2 ||| r.2)
    | some a, none => (some a :: r.1, r.2)
    | none, z => (z :: r.1, r.2)

/-- Tree of R97: levels until one position is left. -/
def treeN (f : Nat → Nat → Nat × FlagSet) : Nat → List (Option Nat) → Option Nat × FlagSet
  | 0, xs => ((xs.headD none), 0)
  | n + 1, xs =>
    match xs with
    | [] => (none, 0)
    | [x] => (x, 0)
    | _ => let l := treeLevel f xs; let r := treeN f n l.1; (r.1, l.2 ||| r.2)

/-- The partial result of member position `pos` (R97). -/
def gredPart (f : Nat → Nat → Nat × FlagSet) (c : Ctx) (vals : List (Member × Nat × List Nat)) (pos : Nat) :
    Option Nat × FlagSet :=
  match c.members.find? (fun m => decide (m.pos = pos)) with
  | none => (none, 0)
  | some m => treeN f 6 (laneList.map (fun l => (laneVals vals m l).map (fun v => v.getD 0 0)))

def gredCross (op : Nat) (ty : ElemTy) (r : Rnd) (c : Ctx) (vals : List (Member × Nat × List Nat)) :
    List (Member × Nat × Nat × FlagSet) :=
  let f := combine op ty r
  let parts := (List.range c.count).map (gredPart f c vals)
  let tot := treeN f (c.count + 1) (parts.map (fun p => p.1))
  let flags := parts.foldl (fun a p => a ||| p.2) tot.2
  vals.map (fun v => (v.1, v.2.1, tot.1.getD 0, flags))

/-- The identity of an operation at a type (R17, R98). -/
def identOf (op : Nat) (ty : ElemTy) : Nat :=
  match op with
  | 1 => if ty = .f32 then 0x7F800000 else intBits (tyBits ty) (intMax (tySigned ty) (tyBits ty))
  | 2 => if ty = .f32 then 0xFF800000 else intBits (tyBits ty) (intMin (tySigned ty) (tyBits ty))
  | 3 => 2 ^ tyBits ty - 1
  | _ => 0

/-- The prefix of R98 over the active lanes in element order. -/
def scanList (f : Nat → Nat → Nat × FlagSet) (excl : Bool) (ident : Nat) :
    Option Nat → List (Member × Nat × List Nat) → List (Member × Nat × Nat) × FlagSet
  | _, [] => ([], 0)
  | acc, v :: t =>
    let x := v.2.2.getD 0 0
    let nx := match acc with
      | none => (x, 0)
      | some a => f a x
    let r := scanList f excl ident (some nx.1) t
    ((v.1, v.2.1, if excl then acc.getD ident else nx.1) :: r.1, nx.2 ||| r.2)

def gscanCross (op : Nat) (excl : Bool) (ty : ElemTy) (r : Rnd) (_ : Ctx) (vals : List (Member × Nat × List Nat)) :
    List (Member × Nat × Nat × FlagSet) :=
  let res := scanList (combine op ty r) excl (identOf op ty) none vals
  res.1.map (fun v => (v.1, v.2.1, v.2.2, res.2))

/-! ### Meanings -/

/-- The vector instruction of `mov` (R130). -/
def movOp (c : Common) (f : FmtV) : VOp := vop c f (tyWords f.ty) [srcA f (tyWords f.ty) f.ty] .mov moveFn

/-- `mov` (R130). -/
def execMov (c : Common) (f : FmtV) (s : State) : Out := (movOp c f).exec s

/-- `movi` (R131). -/
def execMovi (c : Common) (f : FmtI) (s : State) : Out :=
  (iop c f (tyWords f.ty) [{ field := 0, lit := some (moviVal f), ty := f.ty }] .mov moveFn).exec s

/-- `sel` (R132). -/
def execSel (c : Common) (f : FmtV) (s : State) : Out :=
  (vop c f (tyWords f.ty) [srcSel f, srcA f (tyWords f.ty) f.ty, srcB f (tyWords f.ty) f.ty] .sel selFn).exec s

/-- The sources of `kset`. -/
def ksetOp (c : Common) (f : FmtV) : VOp :=
  pvop c f [srcA f (tyWords f.ty) f.ty, srcB f (tyWords f.ty) f.ty] (ksetFn f.ty f.sub.toNat)

/-- `kset` (R133, R104). -/
def execKset (c : Common) (f : FmtV) (s : State) : Out :=
  ({ op := ksetOp c f, k := f.dst.toNat, rule := ksetForm (ksetOp c f) f.ty f.sub.toNat } : KOp).exec s

/-- `kop` (R134): .not reads kA only. -/
def execKop (c : Common) (f : FmtV) (s : State) : Out :=
  ({ op := pvop c f (if f.sub.toNat = 4 then [srcK f.a] else [srcK f.a, srcK f.b]) (kopFn f.sub.toNat)
     k := f.dst.toNat
     rule := fun n p _ => (kopForm f.sub.toNat f.a.toNat f.b.toNat n p).map (fun v => (v, 0)) } : KOp).exec s

/-- kD[l] ← A[l] ≠ 0, or bit l of the value of the lowest active lane with .mask (R135). -/
def kmovToK (c : Common) (f : FmtV) : KOp :=
  let base := pvop c f [srcA f 1 .i32] (fun _ xs => (if xs.headD 0 = 0 then 0 else 1, 0))
  if f.sub.toNat = 0 then
    { op := base, k := f.dst.toNat,
      rule := fun n p cyc => match kindsOf base.srcs p.form (p.uniPred n) n cyc with
        | some [.uni a] => some (.uni (decide (a ≠ 0)), 0)
        | _ => none }
  else
    { op := { base with cross := some (fun _ vals =>
                vals.map (fun v => (v.1, v.2.1, if (firstVal vals 0).testBit v.2.1 then 1 else 0, 0))) },
      k := f.dst.toNat, rule := fun _ _ _ => none }

/-- d[l] ← kA[l], or the mask of kA over the active lanes with .mask (R135). -/
def kmovFromK (c : Common) (f : FmtV) : VOp :=
  let base := vop c f 1 [srcK f.a] .none (fun _ xs => (xs.headD 0, 0))
  if f.sub.toNat = 1 then base
  else { base with
    noForm := true
    cross := some (fun _ vals => vals.map (fun v => (v.1, v.2.1, (ballotOf vals v.1).toNat, 0))) }

/-- `kmov` (R135). A k number above 7 raises IllegalOperand (R129). -/
def execKmov (c : Common) (f : FmtV) (s : State) : Out :=
  if f.sub.getLsbD 0 = false then (kmovToK c f).exec s
  else
    let o := kmovFromK c f
    issue c { commit := decide (o.sends ≠ []) } (fun n => if 7 < f.a.toNat then some .illegalOperand else o.static n)
      (fun t _ gr _ m => o.undef t gr m) o.body o.form s

/-- `xset` (R136). The check of base and limit comes before the traps of execution, EmptyRead of the offset among them, once the two
can be read (R56). -/
def execXset (c : Common) (f : FmtV) (s : State) : Out :=
  let o := pvop c f [srcA f 1 .n32, srcB f 1 .n32, srcC f 1 .n32] (fun _ _ => (0, 0))
  let x := f.sub.toNat % 4
  issue c {} o.static (fun t _ gr _ m => o.undef t gr m)
    (fun c s =>
      let vals := c.activeLanes.map (fun e =>
        (e.1, e.2, o.srcs.map (fun y => y.value s c.team c.node (c.group e.1) e.1.g (c.members.idxOf e.1) o.ireg e.2)))
      let base := firstVal vals 0
      let limit := firstVal vals 1
      if c.node.desc.regs < base + limit ∧ (({ o with srcs := o.srcs.take 2 } : VOp).gate c s).isNone = true then .trap .illegalOperand 0 0
      else match o.gate c s with
        | some r => r
        | none =>
          let s1 := c.members.foldl (fun st m => st.modGroup c.team.id m.g (fun g =>
            { g with xbase := Tbl.set 0#32 g.xbase x (BitVec.ofNat 32 base)
                     xlimit := Tbl.set 0#32 g.xlimit x (BitVec.ofNat 32 limit) })) s
          let s2 := vals.foldl (fun st v => st.modGroup c.team.id v.1.g (fun g =>
            { g with xoff := Tbl.set 0#32 g.xoff (32 * x + v.2.1) (BitVec.ofNat 32 (v.2.2.getD 2 0)) })) s1
          .retire ((srcQueues o.srcs).foldl (fun st q => st.consumeMsgs c q) s2))
    neverForm s

/-- `shfl` (R137): with a 64-bit type every register field must be even (R129), though SRCB and SRCC are read as one word. -/
def execShfl (c : Common) (f : FmtV) (s : State) : Out :=
  ({ vop c f (tyWords f.ty) [srcA f (tyWords f.ty) f.ty, { srcB f 1 .n32 with even := decide (tyWords f.ty = 2) },
      { srcC f 1 .n32 with even := decide (tyWords f.ty = 2) }] .none moveFn with
      noForm := true, cross := some (shflCross f.sub.toNat) } : VOp).exec s

/-- `vote` (R96). -/
def execVote (c : Common) (f : FmtV) (s : State) : Out :=
  ({ vop c f 1 [srcA f 1 .i32] .none moveFn with noForm := true, cross := some (voteCross f.sub.toNat) } : VOp).exec s

/-- `gred` (R97). -/
def execGred (c : Common) (f : FmtV) (s : State) : Out :=
  ({ vop c f (tyWords f.ty) [srcA f (tyWords f.ty) f.ty] .none moveFn with
      noForm := true, long := true, cross := some (gredCross (f.sub.toNat % 8) f.ty f.rnd) } : VOp).exec s

/-- `gscan` (R98). -/
def execGscan (c : Common) (f : FmtV) (s : State) : Out :=
  ({ vop c f (tyWords f.ty) [srcA f (tyWords f.ty) f.ty] .none moveFn with
      noForm := true, long := true,
      cross := some (gscanCross (f.sub.toNat % 8) (f.sub.getLsbD 3) f.ty f.rnd) } : VOp).exec s

end Sys2Proof.Machine
end

