-- ==== Sys2Proof/Machine/Teams.lean ====
section
/-! DEFINITION. What happens to a whole team: its work in flight, its end and what it gives up (spec/05_issue.md R93,
spec/06_tracts.md R112), and the start of a pre-emption (spec/18_faults.md R355). -/

namespace Sys2Proof.Machine

open Sys2Proof

/-- Work of the team is in flight: accesses, side-logged entries, fills, flows and matrix operations (R93, R355). -/
def State.teamBusy (s : State) (t : Nat) : Bool :=
  s.reqs.any (fun r => decide (r.team = t) && decide (r.parcel = none)) || s.flows.any (fun f => decide (f.team = t)) ||
  s.fills.any (fun f => decide (f.team = t) && decide (f.parcel = none)) ||
  s.cores.any (fun c => c.2.matq.any (fun o => decide (o.team = t)) || c.2.sidelog.any (fun e => decide (e.team = t)))

/-- The node of a team meets `p`. -/
def State.nodeIs (s : State) (p : Node → Bool) (t : Team) : Bool :=
  match s.node? t.node with
  | some n => p n
  | none => false

/-- The target of the PREEMPT register (R354): a world below 64, else a handle. -/
def State.preemptTarget (s : State) (t : Team) : Bool :=
  let v := s.preemptReg.1.toNat
  s.nodeIs (fun n => if v < 64 then decide (n.world = v) else decide (n.handle.toNat = v)) t

/-- The command of PREEMPT is done once no team of its target still runs under it: each has been saved, or has ended, parked
or been discarded (R354, R392). -/
def State.finishPreempt (s : State) : State :=
  if s.preemptReg.2 = 1#64 ∧ s.teams.any (fun t => s.preemptTarget t && (t.preempt || decide (t.phase = .stopping))) = false then
    { s with preemptReg := (s.preemptReg.1, 2#64) }
  else s

/-- The sends to a team whose receive queues are discarded: a request is granted at once, and every message to it is
discarded and counted in the binding (R313). -/
def State.orphanSends (s : State) (t : Nat) : State :=
  let retired (x : Send) : Bool := decide (x.phase = .travelling) || decide (x.phase = .filling)
  let gone := s.sends.filter (fun x => decide (x.dstTeam = t) && retired x)
  gone.foldl State.discardSend { s with sends := s.sends.map (fun x =>
    if x.dstTeam = t ∧ retired x = false then { x with phase := .granted, discarded := true } else x) }

/-- What a team gives up when it ends or parks (R112, R309). -/
def Team.release (t : Team) : Team :=
  { t with
    banks := [], obs := [], scratch := [], scratchBase := 0, sendq := [], recvq := [], claims := [], bars := [],
    latch0 := Latch.free, latch1 := Latch.free, nwait := none, bwait := none,
    preempt := false }

/-- The walks that a team's claims, strands and side-log entries asked for are dropped. -/
def State.dropTeamWalks (s : State) (t : Nat) : State :=
  s.dropWalks (fun w => match w with
    | .strand x _ _ => decide (x = t)
    | .claim x _ => decide (x = t)
    | _ => false)

/-- The team gives up its resources and takes the phase given. -/
def State.closeTeam (s : State) (t : Nat) (ph : TeamPhase) : State :=
  ((((s.dropSends (fun x => decide (x.team = t))).dropTeamWalks t).modTeam t (fun x => { x.release with phase := ph })).orphanSends t).finishPreempt

/-- A team whose groups have all ended ends once its work in flight is done (R93), and the node re-forms when only
parked teams are left (R113). -/
def State.tryEnd (s : State) (t : Nat) : State :=
  match s.team? t with
  | none => s
  | some tm =>
    if tm.phase = .placed ∧ tm.groups.all Group.ended = true ∧ s.teamBusy t = false then
      (s.closeTeam t .ended).reForm tm.node
    else s

/-! ### Register fills (R118, R209) -/

/-- Removes a fill. -/
def State.dropFill (s : State) (i : Nat) : State := { s with fills := s.fills.filter (fun f => decide (f.id ≠ i)) }

/-- The register that the first word of a result goes to; 0 when the words are kept by number. -/
def Fill.baseReg (f : Fill) (g : Nat) : Nat :=
  match (f.regs.filter (fun e => decide (e.1 = g))).map (fun e => e.2) with
  | [] => 0
  | a :: t => t.foldl min a

/-- The two sends go through one binding (R311). -/
def Send.sameQueue (x y : Send) : Bool :=
  decide (y.team = x.team) && decide (y.queue = x.queue) && decide (y.dstTeam = x.dstTeam) && decide (y.rq = x.rq)

/-- The messages of a binding that are injected behind a send once that is: those that retired after it, up to the next one that
has no words yet (R302, R311). -/
def sendsBehind (x : Send) (l : List Send) : List Send :=
  ((l.dropWhile (fun y => decide (y.id ≠ x.id))).drop 1 |>.filter x.sameQueue).takeWhile (fun y => decide (y.phase = .travelling))

/-- The words that a fill holds for a send's group become its message, which is injected now and travels, with the messages of
its binding that waited behind it (R126, R302). -/
def State.fillSend (s : State) (f : Fill) (x : Nat × Nat) : State :=
  let words : Tbl Word := (f.vals.filter (fun v => decide (v.1 = x.1) && decide (v.2.1 = f.baseReg x.1))).foldl
    (fun t v => Tbl.set 0#32 t v.2.2.1 v.2.2.2) []
  match s.sends.find? (fun y => decide (y.id = x.2)) with
  | none => s
  | some y =>
    let now := { y with phase := .travelling, msg := y.msg.map (fun m => { m with words := words }) } :: sendsBehind y s.sends
    { s with sends := s.sends.filter (fun z => !now.any (fun w => decide (w.id = z.id))) ++
        now.map (fun w => { w with route := s.sendRoute w.team w.dstTeam }) }

/-- The results of a long-latency producer reach their registers, which become full. -/
def State.applyFill (s : State) (f : Fill) : State :=
  let s1 := f.vals.foldl (fun st v =>
    if f.regs.contains (v.1, v.2.1) then st.modGroup f.team v.1 (fun g => g.setReg v.2.1 v.2.2.1 v.2.2.2) else st) (s.dropFill f.id)
  let s2 := f.regs.foldl (fun st e => st.modGroup f.team e.1 (fun g => g.markFull e.2)) s1
  (f.sends.foldl (fun st x => st.fillSend f x) s2).tryEnd f.team

/-- The team parks at a `tjoin` that it reached at `a` (R112). The rule keeps no lane addresses: lanes that divergence had
masked at other addresses go on after the `tjoin` with the others, DESIGN CHOICE (log entry 65). -/
def State.parkTeam (s : State) (t : Nat) (a : Addr) : State :=
  match s.team? t with
  | none => s
  | some tm =>
    let preds : Tbl PredVal := (List.range 7).foldl (fun p k => predSet p k (tm.parkPred k)) []
    let loops := match tm.groups.find? (fun g => !g.ended) with
      | some g => g.loops.map (fun l => { l with waiting := 0#32 })
      | none => []
    let s1 := s.closeTeam t .parked
    (s1.modTeam t (fun x =>
      { x with parkedAt := a, parkedPreds := preds, parkedLoops := loops, groups := x.groups.map Group.parkRemains })).reForm
        tm.node

/-- Step 1 of R355: issue stops, partial rendezvous and waits are discarded, a send that has not retired returns its
grant, and a held access leaves its merge list. -/
def State.startPreempt (s : State) (t : Nat) : State :=
  let s0 := (s.dropSends (fun x => decide (x.team = t))).dropTeamWalks t
  let form := (s0.fills.filter (fun f => decide (f.team = t) && f.form && decide (f.parcel = none))).map (fun f => f.id)
  let s1 : State := { s0 with
    fills := s0.fills.filter (fun f => !form.contains f.id)
    reqs := s0.reqs.filter (fun r => match r.fill with
      | some i => !form.contains i
      | none => true) }
  s1.modTeam t (fun x =>
    { x with
      phase := .stopping
      bwait := none
      groups := x.groups.map (fun g =>
        { g with strands := g.strands.map (fun st => { st with arrived := none, hold := .none, aged := false, wait := 0, held := none }) }) })

end Sys2Proof.Machine
end

