-- ==== Sys2Proof/Machine/Control.lean ====
section
/-! DEFINITION. The control instructions (spec/05_issue.md R86 to R94; spec/06_tracts.md R107 to R112; spec/07_registers.md
R138) and the system instructions trap, bkpt, yield, csrr, csrw and tret (spec/18_faults.md R348 to R353). -/

namespace Sys2Proof.Machine

open Sys2Proof

/-! ### Transfers on a core -/

/-- The address that the issuer of the instruction stands at. -/
def State.curAddr (s : State) : Addr :=
  match s.cur with
  | .none => 0
  | .strand t g k =>
    match (s.team? t).bind (fun x => x.group? g) with
    | none => 0
    | some gr => ((gr.strands[k]?).bind gr.strandAddr).getD 0
  | .parcel n p => (((s.node? n).bind (fun x => x.parcel? p)).map (fun x => x.pc)).getD 0

/-- What a list of TARGET checks finds: the lowest failing target, or what the first fetch that does not answer does. -/
inductive TargetsRes where
  | ok (s : State)
  | illegal (a : Addr)
  | wait (s : State)
  | trap (k : TrapKind) (a : Addr)
  deriving DecidableEq, Repr

/-- The TARGET checks of a transfer to several targets (R29, R87, R88). Of several failing ones eaddr gets the lowest, as R88
says of `brx`; for `br`, `brc` and `call` that is DESIGN CHOICE (log entry 65). -/
def State.checkTargets (n : Node) (core : Nat) (who : Requester) : List Addr → Option Addr → State → TargetsRes
  | [], bad, s => match bad with
    | none => .ok s
    | some a => .illegal a
  | a :: t, bad, s =>
    match s.checkTarget n core who a with
    | .ok s1 => State.checkTargets n core who t bad s1
    | .illegal => State.checkTargets n core who t (minAddr bad a) s
    | .wait s1 => .wait s1
    | .trap k => .trap k a

/-- Runs `k` once every target of the list has passed its check, else stalls or traps (R29). -/
def Ctx.withTargets (c : Ctx) (m : Member) (ts : List Addr) (s : State) (k : State → Res) : Res :=
  match s.checkTargets c.node c.team.core (.strand c.team.id m.g m.quads) ts none with
  | .ok s1 => k s1
  | .illegal a => .trap .illegalTarget a 0
  | .wait s1 => .stall .walk s1
  | .trap kd a => .trap kd a 0

/-- Lanes of a member that stand at `a` branch as listed, and its other lanes at `a` go on (R87). -/
def Group.branch (gr : Group) (m : Member) (a : Addr) (ts : List (Nat × Addr)) : Group :=
  let taken := maskOf (fun l => ts.any (fun e => decide (e.1 = l)))
  ((gr.transfer ts).advance (m.at_ &&& ~~~taken) a).settle taken

/-- A lane-scope transfer, once it has issued. -/
def State.branch (s : State) (c : Ctx) (m : Member) (ts : List (Nat × Addr)) : State :=
  (s.markIssued c false false).modGroup c.team.id m.g (fun g => g.branch m c.addr ts)

/-- Inserts a strand in the order of first quads. -/
def insertStrand (x : Strand) : List Strand → List Strand
  | [] => [x]
  | y :: t => if (x.quads &&& -x.quads).toNat < (y.quads &&& -y.quads).toNat then x :: y :: t else y :: insertStrand x t

/-- The quads of `q` that meet `p`. -/
def quadsWhere (q : BitVec 8) (p : Nat → Bool) : BitVec 8 :=
  (List.range 8).foldl (fun r i => if q.getLsbD i && p i then r ||| (1#8 <<< i) else r) 0#8

/-- The lanes of quad `i` in a mask. -/
def quadPart (m : LaneMask) (i : Nat) : LaneMask := m &&& (0xF#32 <<< (4 * i))

/-- The split of a divergent branch, and its record (R74). A quad without an active lane goes with the quads whose
lanes disagree. -/
def Group.split (gr : Group) (m : Member) (taken : LaneMask) (join : Addr) : Group :=
  let allT := quadsWhere m.quads (fun i =>
    decide (quadPart m.at_ i ≠ 0#32) && decide (quadPart taken i = quadPart m.at_ i))
  let allF := quadsWhere m.quads (fun i =>
    decide (quadPart m.at_ i ≠ 0#32) && decide (quadPart taken i = 0#32))
  let mixed := m.quads &&& ~~~allT &&& ~~~allF
  let others := gr.strands.filter (fun st => decide (st.quads ≠ m.quads))
  { gr with
    strands := ([allT, allF, mixed].filter (fun q => decide (q ≠ 0#8))).foldl (fun l q => insertStrand (Strand.fresh q) l) others
    divs := { join := join, quads := m.quads, lanes := m.at_, parked := 0#32, handler := gr.trap.isSome } :: gr.divs }

/-! ### Targets and sources of format C -/

def fmtTarget (f : FmtC) (a : Addr) : Addr := targetAddr a (f.tdisp.signExtend 64) f.tslot.toNat
def fmtJoin (f : FmtC) (a : Addr) : Addr := targetAddr a (f.jdisp.signExtend 64) f.jslot.toNat

/-- A register pair of `brx`, `call` and `ret` (R86). -/
def pairSrc (f : FmtC) : Src := { field := f.srca, words := 2, ty := .n64 }

/-- SRCA of `brx`, `call` and `ret` is an even lane or form register. -/
def pairOk (f : FmtC) (n : Node) : Bool :=
  match opndOf f.srca with
  | .lane r => laneOk n.desc.regs r 2
  | .form r => decide (r % 2 = 0)
  | _ => false

/-- A 32-bit SRCA: lane register, form register or inline constant (R86, R350). -/
def wordOk (f : FmtC) (n : Node) : Bool :=
  match opndOf f.srca with
  | .lane r => laneOk n.desc.regs r 1
  | .form _ | .const _ => true
  | _ => false

/-- A source read as a vector instruction without a destination reads it. -/
def readOp (c : Common) (x : Src) : VOp := { c := Common.noW c, dst := 0, srcs := [x], fn := fun _ _ => (0, 0) }

/-- The value of a source in a lane. -/
def Ctx.read (c : Ctx) (s : State) (x : Src) (m : Member) (l : Nat) : Nat :=
  x.value s c.team c.node (c.group m) m.g (c.members.idxOf m) 0 l

/-- The value of a source at the lowest-numbered active lane of the lowest-numbered member that has one: the spec names the
lowest-numbered member only, DESIGN CHOICE where it has no active lane (log entry 65). -/
def Ctx.readFirst (c : Ctx) (s : State) (x : Src) : Nat :=
  match c.activeLanes with
  | [] => 0
  | e :: _ => c.read s x e.1 e.2

/-! ### In form -/

/-- The parcel's checks of its targets (R29, R110). -/
def withFormTargets (n : Node) (p : Parcel) (ts : List Addr) (s : State) (k : State → FormRes) : FormRes :=
  match s.checkTargets n n.leadCore (.parcel n.id p.id) ts none with
  | .ok s1 => k s1
  | .wait s1 => .stall (s1.modNode n.id (fun x => x.modParcel p.id (fun q => { q with hold := .walk })))
  | .illegal a => .illegal .illegalTarget a
  | .trap k a => .illegal k a

def State.setParcel (s : State) (n : Node) (p : Parcel) (f : Parcel → Parcel) : State :=
  s.modNode n.id (fun x => x.modParcel p.id f)

/-- The parcel goes on in sequence. -/
def formAdvance (n : Node) (p : Parcel) (s : State) : FormRes := .done (s.setParcel n p Parcel.advance)

def formGoto (a : Addr) (n : Node) (p : Parcel) (s : State) : FormRes :=
  withFormTargets n p [a] s (fun s1 => .done (s1.setParcel n p (fun x => x.goto a)))

/-- The cut of R107 at threshold `t` of dimension `d`: the low part takes the branch when `lowTakes`. The boundary teams, where there
are any, fan out at the branch. -/
def State.branchCut (s : State) (n : Node) (p : Parcel) (d : Dim) (t : Nat) (lowTakes : Bool) (a : Addr) : State :=
  let sd := match d with
    | .x => n.desc.tx
    | .y => n.desc.ty
    | .z => n.desc.tz
  let bt := t / sd
  let bt' := if t % sd = 0 then bt else bt + 1
  let at_ (c : Nat × Nat × Nat) : Nat := match d with
    | .x => c.1
    | .y => c.2.1
    | .z => c.2.2
  let put (c : Nat × Nat × Nat) (v : Nat) : Nat × Nat × Nat := match d with
    | .x => (v, c.2.1, c.2.2)
    | .y => (c.1, v, c.2.2)
    | .z => (c.1, c.2.1, v)
  let go (q : Parcel) (takes : Bool) : Parcel := if takes then q.goto a else q.advance
  let s1 := if bt = bt' then s.modNode n.id (fun x => { x with parcels := x.parcels.filter (fun q => decide (q.id ≠ p.id)) })
    else s.fanOut n { p with lo := put p.lo bt, hi := put p.hi (bt + 1) }
  let low : Parcel := go { p with id := s1.nextId, hi := put p.hi bt } lowTakes
  let high : Parcel := go { p with id := s1.nextId + 1, lo := put p.lo bt' } (!lowTakes)
  let parts := (if at_ p.lo < bt then [low] else []) ++ (if bt' < at_ p.hi then [high] else [])
  ({ s1 with nextId := s1.nextId + 2 } : State).modNode n.id (fun x => { x with parcels := x.parcels ++ parts })

/-- A parcel's source of kind uniform. -/
def formUni (x : Src) (n : Node) (p : Parcel) (s : State) : Option Nat :=
  match x.kind p.form (p.uniPred n) n (s.cyc n.leadCore) with
  | some (.uni v) => some v
  | _ => none

/-! ### nop, branches and calls (R86 to R90, R94) -/

/-- `nop` (R94, R32): its predicate has no effect. -/
def execNop (c : Common) (_ : FmtC) (s : State) : Out :=
  issue { c with pred := 7#3, pneg := false } {} noStatic noUndef (fun _ s => .retire s) formAdvance s

/-- `br` (R87). -/
def execBr (c : Common) (f : FmtC) (s : State) : Out :=
  issue c {} noStatic noUndef
    (fun x s => match x.members with
      | [] => .retire s
      | m :: _ => x.withTargets m [fmtTarget f x.addr] s (fun s1 =>
          .moved (s1.branch x m ((lanesOf m.act).map (fun l => (l, fmtTarget f x.addr))))))
    (fun n p s => formGoto (fmtTarget f p.pc) n p s) s

/-- The lanes of a member for which the condition of a `brc` holds. -/
def Group.condMask (g : Group) (f : FmtC) (m : LaneMask) : LaneMask :=
  maskOf (fun l => m.getLsbD l && (g.pred (f.srca.toNat % 8) l != f.srca.getLsbD 3))

/-- The trap that the group's parcel met at this instruction, while the group stands where it was placed (R110). -/
def Group.owes (g : Group) (a : Addr) : Option (TrapKind × DWord) :=
  match g.placement with
  | some p => if p.pc = a ∧ (lanesOf (~~~g.exited)).all (fun l => (Tbl.find? g.resume l).isNone) = true then p.due else none
  | none => none

/-- `brc` on a core (R87, R74): the targets are checked before any lane moves. A group whose parcel met a bad target in form raises
that trap, whether or not a lane of it takes the branch (R110). -/
def brcBody (f : FmtC) (x : Ctx) (s : State) : Res :=
  match x.members with
  | [] => .retire s
  | m :: _ =>
    match (x.group m).owes x.addr with
    | some e => .trap e.1 e.2 0
    | none =>
    let taken := (x.group m).condMask f m.act
    let t := fmtTarget f x.addr
    let j := fmtJoin f x.addr
    let div := f.sub.getLsbD 0
    x.withTargets m ((if taken = 0#32 then [] else [t]) ++ (if div then [j] else [])) s (fun s1 =>
      let ts := (lanesOf taken).map (fun l => (l, t))
      if div = true ∧ taken ≠ 0#32 ∧ taken ≠ m.act ∧ (x.group m).divs.length < 8 then
        .moved ((s1.markIssued x false false).modGroup x.team.id m.g (fun g =>
          (g.split m taken j).branch m x.addr ts))
      else .moved (s1.branch x m ts))

/-- `brc` in form (R107 to R109). -/
def brcForm (f : FmtC) (n : Node) (p : Parcel) (s : State) : FormRes :=
  let k := f.srca.toNat % 8
  let neg := f.srca.getLsbD 3
  let t := fmtTarget f p.pc
  let js := if f.sub.getLsbD 0 then [fmtJoin f p.pc] else []
  match p.uniPred n k, predGet p.preds k with
  | some b, _ =>
    if b != neg then withFormTargets n p (t :: js) s (fun s1 => .done (s1.setParcel n p (fun x => x.goto t)))
    else withFormTargets n p js s (fun s1 => formAdvance n p s1)
  | none, .range d th ge => withFormTargets n p (t :: js) s (fun s1 => .done (s1.branchCut n p d th (ge == neg) t))
  | none, _ => .cut

/-- `brc` and `brc.div` (R87, R74). SRCA [10:4] is zero, else IllegalOperand (Table 5.3). -/
def execBrc (c : Common) (f : FmtC) (s : State) : Out :=
  issue c {} (fun _ => if f.srca.toNat < 16 then none else some .illegalOperand)
    (fun _ _ gr _ m => (lanesOf m).any (fun l => !gr.predDef (f.srca.toNat % 8) l))
    (brcBody f) (brcForm f) s

/-- A branch to the address that each active lane's pair holds (R88). -/
def brxBody (c : Common) (f : FmtC) (x : Ctx) (s : State) : Res :=
  match x.members with
  | [] => .retire s
  | m :: _ =>
    match (readOp c (pairSrc f)).gate x s with
    | some r => r
    | none =>
      let ts := (lanesOf m.act).map (fun l => (l, va57 (BitVec.ofNat 64 (x.read s (pairSrc f) m l))))
      x.withTargets m ((ts.map (fun e => e.2)).eraseDups) s (fun s1 => .moved (s1.branch x m ts))

def brxForm (f : FmtC) (n : Node) (p : Parcel) (s : State) : FormRes :=
  match formUni (pairSrc f) n p s with
  | none => .cut
  | some v => formGoto (va57 (BitVec.ofNat 64 v)) n p s

/-- `brx` (R88). -/
def execBrx (c : Common) (f : FmtC) (s : State) : Out :=
  issue c {} (fun n => if pairOk f n then none else some .illegalOperand)
    (fun t _ gr _ m => (pairSrc f).undef t.form gr m) (brxBody c f) (brxForm f) s

/-- `ret` acts as `brx` (R89). -/
def execRet (c : Common) (f : FmtC) (s : State) : Out :=
  issue c {} (fun n => if pairOk f n then none else some .illegalOperand)
    (fun t _ gr _ m => (pairSrc f).undef t.form gr m) (brxBody c f) (brxForm f) s

/-- `call` (R89): TARGET of the next instruction and of the target; then the link pair, and the branch. A form pair
after fan-out is a write that R106 does not allow. -/
def execCall (c : Common) (f : FmtC) (s : State) : Out :=
  issue c {} (fun n => if pairOk f n then none else some .illegalOperand) noUndef
    (fun x s => match x.members with
      | [] => .retire s
      | m :: _ =>
        let nx := nextAddr x.addr
        let t := fmtTarget f x.addr
        x.withTargets m [nx, t] s (fun s1 =>
          match opndOf f.srca with
          | .lane r =>
            if (x.group m).isEmpty r || (x.group m).isEmpty (r + 1) then .stall (.regs [r, r + 1]) s1
            else
              let s2 := s1.modGroup x.team.id m.g (fun g => (lanesOf m.act).foldl (fun g l =>
                (g.setReg r l (nx.setWidth 32)).setReg (r + 1) l ((nx >>> 32).setWidth 32)) g)
              .moved (s2.branch x m ((lanesOf m.act).map (fun l => (l, t))))
          | _ => .trap .formWrite 0 0))
    (fun n p s => match opndOf f.srca with
      | .form r =>
        let nx := nextAddr p.pc
        let t := fmtTarget f p.pc
        withFormTargets n p [nx, t] s (fun s1 => .done (s1.setParcel n p (fun y =>
          ({ y with form := formPut y.form r [.uni (nx.setWidth 32), .uni ((nx >>> 32).setWidth 32)] } : Parcel).goto t)))
      | _ => .cut) s

/-- `join` (R90): each active lane to the join target of its record, which is that of its own split where it has one; a lane without a
record goes on. -/
def execJoin (c : Common) (_ : FmtC) (s : State) : Out :=
  issue c {} noStatic noUndef
    (fun x s => match x.members with
      | [] => .retire s
      | m :: _ =>
        let ts := (lanesOf m.act).filterMap (fun l => ((x.group m).recordOf l).map (fun d => (l, d.join)))
        if ts = [] then .retire s else .moved (s.branch x m ts))
    formAdvance s

/-! ### loop (R91) -/

/-- The count source of `loop`. -/
def countSrc (f : FmtC) : Src := { field := f.srca, ty := .n32 }

/-- LoopOverflow (R91): the length, the counter, the depth, the nesting. -/
def loopOverflow (loops : List Loop) (n : Nat) (top fin : Addr) : Bool :=
  decide (256 < slotsBetween top fin) || loops.any (fun l => decide (l.n = n)) || decide (3 ≤ loops.length) ||
  loops.any (fun l => decide (top.toNat < l.top.toNat) || decide (l.fin.toNat < fin.toNat))

/-- `loop` (R91). An end at or before the loop's own address is IllegalOp. A body without instructions ends at once. -/
def execLoop (c : Common) (f : FmtC) (s : State) : Out :=
  issue c { fuse := true }
    (fun n => if (fmtTarget f s.curAddr).toNat ≤ s.curAddr.toNat then some .illegalOp
      else if wordOk f n then none else some .illegalOperand)
    (fun t _ gr _ m => (countSrc f).undef t.form gr m)
    (fun x s => match x.members with
      | [] => .retire s
      | m :: _ =>
        let top := nextAddr x.addr
        let fin := fmtTarget f x.addr
        let n := f.sub.toNat % 4
        if loopOverflow (x.group m).loops n top fin then .trap .loopOverflow 0 0
        else match (readOp c (countSrc f)).gate x s with
        | some r => r
        | none =>
          x.withTargets m [fin] s (fun s1 =>
            let count := BitVec.ofNat 32 (x.readFirst s (countSrc f))
            let s2 := s1.markIssued x true true
            if count = 0#32 ∨ top = fin then
              .moved (s2.modGroup x.team.id m.g (fun g => g.land m.at_ x.addr fin))
            else .moved (s2.modGroup x.team.id m.g (fun g =>
              ({ g with loops := { n := n, count := count, top := top, fin := fin, depth := g.divs.length, waiting := 0#32 }
                                  :: g.loops } : Group).land m.at_ x.addr top))))
    (fun n p s =>
      let top := nextAddr p.pc
      let fin := fmtTarget f p.pc
      let k := f.sub.toNat % 4
      match opndOf f.srca, formUni (countSrc f) n p s with
      | .spec _, _ => .cut
      | _, none => .cut
      | _, some v =>
        if loopOverflow p.loops k top fin then .cut
        else withFormTargets n p [fin] s (fun s1 =>
          .done (s1.setParcel n p (fun y =>
            if v % 2 ^ 32 = 0 ∨ top = fin then
              let r := formNext y.pc fin y.loops
              { y with pc := r.2, loops := r.1, hold := .none, entry := false }
            else
              { y with
                pc := top, hold := .none, entry := false
                loops := { n := k, count := BitVec.ofNat 32 v, top := top, fin := fin, depth := 0, waiting := 0#32 } :: y.loops })))) s

/-! ### exit (R93) -/

/-- The exiting lanes leave their strands; a record's parked lanes and a loop's waiting lanes count without them. -/
def Group.exitLanes (g : Group) (m : LaneMask) : Group := { g with exited := g.exited ||| m }

/-- The handler strand of a group has no lane left (R353). -/
def Group.handlerGone (g : Group) : Bool :=
  match g.trap with
  | none => false
  | some tr => decide (quadLanes tr.quads &&& ~~~tr.outside &&& ~~~g.exited = 0#32)

/-- `exit` (R93): the active lanes end; a handler strand that ends leaves handler mode (R353). -/
def execExit (c : Common) (_ : FmtC) (s : State) : Out :=
  issue c {} noStatic noUndef
    (fun x s => match x.members with
      | [] => .retire s
      | m :: _ =>
        let s1 := (s.markIssued x false false).modGroup x.team.id m.g (fun g =>
          ((g.exitLanes m.act).advance (m.at_ &&& ~~~m.act) x.addr).settle 0#32)
        let s2 := match (s1.team? x.team.id).bind (fun t => t.group? m.g) with
          | none => s1
          | some g => if g.handlerGone then s1.tryReturn x.team.id m.g else s1
        .moved (s2.tryEnd x.team.id))
    (fun n p s =>
      let s1 := s.modNode n.id (fun x => { x with parcels := x.parcels.filter (fun q => decide (q.id ≠ p.id)) })
      .done (s1.reForm n.id)) s

/-! ### tjoin and region -/

/-- `tjoin` (R112, R113). As a release at package scope it waits until the team's work is done (R114, R93). -/
def execTjoin (c : Common) (_ : FmtC) (s : State) : Out :=
  issue c {} noStatic noUndef
    (fun x s =>
      if !x.team.loopsAgree then .trap .scopeMismatch 0 0
      else if s.teamBusy x.team.id then .stall .wait s
      else .moved ((s.markIssued x true true).parkTeam x.team.id x.addr))
    (fun n p s =>
      let s1 := s.modNode n.id (fun x => { x with parcels := x.parcels.filter (fun q => decide (q.id ≠ p.id)) })
      let s2 := s1.addTeams ((boxTeams p.lo p.hi).map (fun c id =>
        let t := p.makeTeam n id c
        if t.phase = .ended then t
        else { t with phase := .parked, parkedPreds := p.preds, parkedLoops := p.loops, groups := t.groups.map Group.parkRemains }))
      .done (s2.reForm n.id)) s

/-- The ranges of a `region`: first register and count (R46). -/
def regionRanges (f : FmtR) : List (Nat × Nat) :=
  ([f.r0, f.r1, f.r2, f.r3].take f.n.toNat).map (fun r => (r.toNat / 32, r.toNat % 32 + 1))

/-- Two ranges share no register. -/
def rangesApart (a b : Nat × Nat) : Bool := decide (a.1 + a.2 ≤ b.1) || decide (b.1 + b.2 ≤ a.1)

def rangesDisjoint : List (Nat × Nat) → Bool
  | [] => true
  | a :: t => t.all (rangesApart a) && rangesDisjoint t

/-- The operand checks of R46. -/
def regionOperandsOk (f : FmtR) (n : Node) : Bool :=
  (regionRanges f).all (fun r => decide (r.1 + r.2 ≤ n.desc.regs)) && rangesDisjoint (regionRanges f) &&
  decide ((regionRanges f).foldl (fun k r => k + r.2) 0 ≤ 64)

/-- The group passes the resume point of a `region` at `a`. Lanes that a restart has brought back to it pass the same
point once more, and what R124 and R291 recorded of them after it stands. -/
def Group.passRegion (g : Group) (m : LaneMask) (a : Addr) : Group :=
  let back := maskOf (fun l => m.getLsbD l && g.returned.getLsbD l && Tbl.find? g.resume l == some a)
  { g.passResume m a with replay := g.replay.filterMap (RecEntry.passed (m &&& ~~~back)) }

/-- `region` (R138): sets the working set, marks its own address as the resume point, pops no record. -/
def execRegion (c : Common) (f : FmtR) (s : State) : Out :=
  issue c { fuse := true, pop := false } (fun n => if regionOperandsOk f n then none else some .illegalOperand) noUndef
    (fun x s => match x.members with
      | [] => .retire s
      | m :: _ =>
        let s1 := ((s.markIssued x true false).modGroup x.team.id m.g (fun g =>
          ({ g with ws := (regionRanges f) } : Group).passRegion m.at_ x.addr)).passSide x.team.id m.g m.at_
        .moved (s1.goOn x false))
    formAdvance s

/-! ### trap and bkpt (R351) -/

/-- `trap` (R351): CODE is bits [15:0] of its source. -/
def execTrap (c : Common) (f : FmtC) (s : State) : Out :=
  issue c {} (fun n => if wordOk f n then none else some .illegalOperand)
    (fun t _ gr _ m => decide (m ≠ 0#32) && (countSrc f).undef t.form gr m)
    (fun x s => match (readOp c (countSrc f)).gate x s with
      | some r => r
      | none => .trap .userTrap 0 (BitVec.ofNat 16 (x.readFirst s (countSrc f))))
    neverForm s

/-- `bkpt` (R351). -/
def execBkpt (c : Common) (_ : FmtC) (s : State) : Out :=
  issue c {} noStatic noUndef (fun _ _ => .trap .breakpoint 0 0) neverForm s

/-! ### csrr and csrw (R348, R349) -/

/-- Registers that a control register takes. -/
def csrWords (n : Nat) : Nat := if n = 2 ∨ n = 3 ∨ n = 5 then 2 else 1

def csrAssigned (n : Nat) : Bool :=
  (decide (1 ≤ n) && decide (n ≤ 7)) || (decide (0x8000 ≤ n) && decide (n ≤ 0x8004))

/-- The value of a control register for a lane (Table 18.3). -/
def csrValue (s : State) (t : Team) (n : Node) (gr : Group) (l num : Nat) : Nat :=
  let p := s.part n.part
  match num with
  | 1 => match gr.trap with
    | some r => r.ecause.toNat
    | none => 0
  | 2 => match gr.trap with
    | some r => r.epc.toNat
    | none => 0
  | 3 => match gr.trap with
    | some r => r.eaddr.toNat
    | none => 0
  | 4 => (Tbl.get 0#6 gr.lflags l).toNat
  | 5 => t.mwin.toNat
  | 6 => if gr.trap.isSome then 1 else 0
  | 7 => n.replays % 256 + 256 * (match s.launch? n.launch with
    | some x => x.replays % 256
    | none => 0)
  | 0x8000 => p.shfree.toNat
  | 0x8001 => p.shsize.toNat
  | 0x8002 => p.sdcount.toNat
  | 0x8003 => p.uccount.toNat
  | 0x8004 => p.rpcount.toNat
  | _ => 0

/-- The read as a vector instruction without sources. -/
def csrrOp (c : Common) (f : FmtS) (s : State) : VOp :=
  { c := c, dst := f.reg, dWords := csrWords f.csr.toNat, srcs := [], noForm := true, fn := fun _ _ => (0, 0),
    cross := some (fun x vals => vals.map (fun v =>
      (v.1, v.2.1, csrValue s x.team x.node (x.group v.1) v.2.1 f.csr.toNat, 0))) }

/-- A privileged control register is out of reach: the node does not run in firmware mode, as no node of a world does (R348). -/
def csrShut (n : Node) (num : BitVec 16) : Bool := decide (0x8000 ≤ num.toNat) && !n.firmware

/-- `csrr` (R349), which is no commit instruction, though it may send (log entry 11). -/
def execCsrr (c : Common) (f : FmtS) (s : State) : Out :=
  let o := csrrOp c f s
  issue c {}
    (fun n => if csrAssigned f.csr.toNat then o.static n else some .illegalOperand) noUndef
    (fun x s => if csrShut x.node f.csr then .trap .protection (f.csr.setWidth 64) 0 else o.body x s)
    neverForm s

/-- Where `csrw` may not write, before its operand is read (Table 18.3). `shfree` has no write: in firmware mode that is the
fault, and outside it the number alone is (R348). -/
def csrwStatic (c : Common) (f : FmtS) (firmware : Bool) : Option TrapKind :=
  match f.csr.toNat with
  | 2 | 4 => none
  | 5 => if c.scope = .team then none else some .illegalScope
  | 0x8000 => if firmware then some .illegalOperand else none
  | n => if 0x8000 ≤ n ∧ csrAssigned n = true then none else some .illegalOperand

/-- A write of a privileged register in firmware mode: the pool's size, which launches accepted later have, and the counters, which
any value clears (Table 18.3). -/
def Partition.csrWrite (p : Partition) (num : Nat) (v : Word) : Partition :=
  match num with
  | 0x8001 => { p with shsize := v }
  | 0x8002 => { p with sdcount := 0 }
  | 0x8003 => { p with uccount := 0 }
  | 0x8004 => { p with rpcount := 0 }
  | _ => p

/-- The source of `csrw`. -/
def csrwSrc (f : FmtS) : Src :=
  { field := f.reg, words := csrWords f.csr.toNat, ty := if csrWords f.csr.toNat = 2 then .n64 else .n32 }

/-- The write of a control register (R349). -/
def csrwBody (c : Common) (f : FmtS) (x : Ctx) (s : State) : Res :=
  let o := readOp c (csrwSrc f)
  if csrShut x.node f.csr then .trap .protection (f.csr.setWidth 64) 0
  else match o.gate x s with
  | some r => r
  | none =>
    let consumed (st : State) : State := (srcQueues o.srcs).foldl (fun st q => st.consumeMsgs x q) st
    match f.csr.toNat with
    | 2 =>
      let vals := x.members.filterMap (fun m => (lowestLane m.act).map (fun l => (m, BitVec.ofNat 64 (x.read s (csrwSrc f) m l))))
      if vals.any (fun v => decide (5 ≤ slotOf v.2)) then .trap .illegalOperand 0 0
      else .retire (consumed (vals.foldl (fun st v => st.modGroup x.team.id v.1.g (fun g =>
        { g with trap := g.trap.map (fun r => { r with epc := v.2 }) })) s))
    | 4 =>
      .retire (consumed (x.activeLanes.foldl (fun st e => st.modGroup x.team.id e.1.g (fun g =>
        { g with lflags := Tbl.set 0#6 g.lflags e.2 (BitVec.ofNat 6 (x.read s (csrwSrc f) e.1 e.2)) })) s))
    | 0x8001 | 0x8002 | 0x8003 | 0x8004 =>
      let v := BitVec.ofNat 32 (x.readFirst s (csrwSrc f))
      .retire (consumed (s.modPart x.node.part (fun p => p.csrWrite f.csr.toNat v)))
    | _ =>
      let v := BitVec.ofNat 64 (x.readFirst s (csrwSrc f))
      if v &&& 0xFE00_0000_0000_FFFF#64 ≠ 0#64 then .trap .illegalOperand 0 0
      else .retire (consumed (s.modTeam x.team.id (fun t => { t with mwin := v })))

/-- `csrw` (R349). -/
def execCsrw (c : Common) (f : FmtS) (s : State) : Out :=
  issue c {}
    (fun n => match csrwStatic c f n.firmware with
      | some k => some k
      | none => if (csrwSrc f).ok n.desc.regs then none else some .illegalOperand)
    (fun t _ gr _ m => (decide (f.csr.toNat = 2) && gr.trap.isNone) ||
      (decide (m ≠ 0#32) && (csrwSrc f).undef t.form gr m))
    (csrwBody c f) neverForm s

/-! ### tret (R353) -/

/-- `tret` (R353): outside handler mode IllegalOp; the members of a wide trap resume together (R344). -/
def execTret (c : Common) (_ : FmtS) (s : State) : Out :=
  issue c {} noStatic noUndef
    (fun x s => match x.members with
      | [] => .retire s
      | m :: _ =>
        match (x.group m).trap with
        | none => .trap .illegalOp 0 0
        | some _ =>
          let s1 := s.tryReturn x.team.id m.g
          match (s1.team? x.team.id).bind (fun t => t.group? m.g) with
          | some g => if g.trap.isSome then .stall .wait s1 else .moved s1
          | none => .moved s1)
    neverForm s

end Sys2Proof.Machine
end

