-- ==== Sys2Proof/Machine/Access.lean ====
section
/-! DEFINITION. The memory and scratchpad instructions up to the point where their accesses are on their way
(spec/13_memory.md R249 to R254; spec/10_local_memory.md R182 to R187; spec/12_translation.md R236, R237, R239) and
`fence` (spec/14_visibility.md R268). MEMORY_REQUEST and PEER_ACCESS_RELAY perform the accesses. -/

namespace Sys2Proof.Machine

open Sys2Proof

/-! ### Operands of format M -/

/-- A memory instruction. `ret` writes DATA, `reads` reads it; `loc` is the scratchpad; `logs` may retire into the side
log (R236); `commit` is a commit instruction (R122). -/
structure MOp where
  c : Common
  f : FmtM
  kind : ReqKind
  acc : Access
  ret : Bool
  reads : Bool
  cas : Bool
  a64 : Bool
  loc : Bool
  logs : Bool
  commit : Bool

def MOp.bytes (o : MOp) : Nat := widthBytes o.f.width
def MOp.words (o : MOp) : Nat := if o.bytes ≤ 4 then 1 else o.bytes / 4

/-- An inline constant as WIDTH bytes (R42). -/
def constBytes (e bytes : Nat) : Nat :=
  if e < 32 then intBits (8 * bytes) (intVal true 32 (constPattern e)) else constPattern e % 2 ^ (8 * bytes)

/-- A data or compare source. -/
def MOp.dataSrc (o : MOp) (field : BitVec 11) (e : Bool) : Src :=
  { field := field, e := e, words := o.words, ty := .n32,
    lit := match opndOf field with
      | .const k => some (constBytes k o.bytes)
      | _ => none }

def MOp.addrSrc (o : MOp) : Src :=
  { field := o.f.addr, e := o.f.ea, words := if o.a64 then 2 else 1, ty := if o.a64 then .n64 else .n32 }

/-- The registers of the instruction as a vector instruction has them. -/
def MOp.regs (o : MOp) : VOp :=
  { c := { o.c with w := o.ret }, dst := o.f.data, dWords := o.words, noForm := true, long := true,
    srcs := o.addrSrc :: ((if o.reads then [o.dataSrc o.f.data o.f.ed] else []) ++
      (if o.cas then [o.dataSrc o.f.second o.f.es] else [])),
    fn := fun _ _ => (0, 0) }

/-- ADDR is a form or lane register (R42). -/
def MOp.static (o : MOp) (n : Node) : Option TrapKind :=
  match opndOf o.f.addr with
  | .lane _ | .form _ => o.regs.static n
  | _ => some .illegalOperand

/-! ### Accesses -/

/-- One lane's access: address, data and compare value. -/
structure Acc where
  m : Member
  l : Nat
  va : Nat
  data : Nat
  cmp : Nat
  deriving DecidableEq, Repr

/-- The address of a lane (R250, R182). -/
def MOp.address (o : MOp) (mwin : DWord) (a : Nat) : Nat :=
  let off := intVal true 22 o.f.offset.toNat
  if o.loc then intBits 32 ((a : Int) + off)
  else intBits 64 ((if o.a64 then (a : Int) else (mwin.toNat + a % 2 ^ 32 : Nat)) + off)

/-- The accesses of the active lanes, in ascending lane order, then member order (R251, R186). -/
def MOp.accs (o : MOp) (c : Ctx) (s : State) : List Acc :=
  laneList.flatMap (fun l => (c.members.filter (fun m => m.act.getLsbD l)).map (fun m =>
    { m := m, l := l
      va := o.address c.team.mwin (c.read s o.addrSrc m l)
      data := if o.reads then c.read s (o.dataSrc o.f.data false) m l else 0
      cmp := if o.cas then c.read s (o.dataSrc o.f.second false) m l else 0 }))

/-- The lowest address of a list. -/
def lowestVa (l : List Nat) : Nat :=
  match l with
  | [] => 0
  | a :: t => t.foldl min a

/-- The trap of a step: that of the lowest failing address (R251). -/
def lowestTrap (l : List (Nat × TrapKind)) : Option (Nat × TrapKind) :=
  match l with
  | [] => none
  | a :: t => some (t.foldl (fun x y => if y.1 < x.1 then y else x) a)

/-- Steps 1 and 2 of R251; the first step of R182. -/
def MOp.firstChecks (o : MOp) (as : List Acc) : Option (Nat × TrapKind) :=
  let bad := (as.filter (fun a => decide (a.va % o.bytes ≠ 0))).map (fun a => a.va)
  let high := (as.filter (fun a => decide (2 ^ 57 ≤ a.va))).map (fun a => a.va)
  if bad ≠ [] then some (lowestVa bad, .misaligned)
  else if o.loc = false ∧ high ≠ [] then some (lowestVa high, .protection)
  else none

/-- Where a lane's access goes once step 3 has passed. -/
structure Found where
  hpa : Nat
  attr : Attr
  dir : Option Nat
  param : Bool
  deriving DecidableEq, Repr

inductive FoundRes where
  | ok (f : Found)
  | miss
  | trap (k : TrapKind)
  deriving DecidableEq, Repr

/-- The on-die copies that the access meets carry another compartment's id (R370). -/
def State.copyClash (s : State) (n : Node) (core : Nat) (a : Attr) (hpa : Nat) : Bool :=
  if a.home = 1#2 then s.carveClash n.gcomp hpa
  else isDram hpa &&
  (s.tagClash n.gcomp hpa ||
    (match Tbl.find? (s.core core).l1 (hpa / 32) with
      | some x => decide (x.tag ≠ n.gcomp)
      | none => false))

/-- Step 3 of R251 for one address: the parameter page (R324), extents and translation, and the tag of R370. -/
def State.resolve (s : State) (n : Node) (core : Nat) (who : Requester) (acc : Access) (va bytes : Nat) : FoundRes :=
  if va / 65536 = paramPage then
    if acc = .read then .ok ⟨va, ⟨false, false, false, 0, n.desc.comp, 0⟩, none, true⟩ else .trap .protection
  else match s.lookNode n core who va bytes acc with
    | .trap k => .trap k
    | .miss => .miss
    | .ok hpa attr dir =>
      if s.copyClash n core attr hpa then .trap .protection else .ok ⟨hpa, attr, dir, false⟩

/-- Where an access performs (Table 13.2, R243, R241). -/
def State.placeOf (s : State) (f : Found) : Place :=
  let l := localOf f.hpa
  if f.param then .param
  else if f.attr.home = 1#2 then .port
  else if pkgOf f.hpa ≠ s.pkgid.toNat then .other
  else if isDram f.hpa then .home
  else if l < 0x3E000000000 then .host
  else if l < 0x3F004000000 then .register
  else .priv

/-- Step 4 of R251, with the register rule of R388. -/
def State.step4 (s : State) (n : Node) (bytes : Nat) (f : Found) : Option TrapKind :=
  if f.param then none
  else match s.reach n.part n.world f.attr.home f.hpa n.firmware with
    | some k => some k
    | none => if (s.placeOf f = .register ∨ s.placeOf f = .priv) ∧ bytes ≠ 8 then some .protection else none

/-- The requester of a member's accesses. -/
def Ctx.who (c : Ctx) (m : Member) : Requester := .strand c.team.id m.g m.quads

/-- A pending side-log entry of the group overlaps the access (R237). -/
def State.sideOverlap (s : State) (c : Ctx) (bytes : Nat) (a : Acc) : Bool :=
  (s.core c.team.core).sidelog.any (fun e => decide (e.team = c.team.id) && decide (e.group = a.m.g) &&
    e.lanes.any (fun x => decide (x.2.1 < a.va + bytes) && decide (a.va < x.2.1 + widthBytes e.width)))

/-- An acquire of the group is on its way: no later access passes it (R257). -/
def State.acquirePending (s : State) (c : Ctx) : Bool :=
  s.reqs.any (fun r => decide (r.team = c.team.id) && decide (r.parcel = none) && acquires r.order && !r.side &&
    c.members.any (fun m => decide (m.g = r.group)))

/-- The side of a wide value. -/
def lowWord64 (v : Nat) : DWord := BitVec.ofNat 64 v
def highWord64 (v : Nat) : DWord := BitVec.ofNat 64 (v / 2 ^ 64)

/-- The halves of an access: 16 bytes go as two of 8 (R251). -/
def accParts (bytes : Nat) : List Nat := if bytes = 16 then [0, 1] else [0]

/-- The width of a half. -/
def partWidth (w : Width) : Width := if w = .b16 then .b8 else w

/-- The requests of one access. -/
def MOp.requests (o : MOp) (s : State) (c : Ctx) (a : Acc) (f : Found) : List Req :=
  (accParts o.bytes).map (fun p =>
    { id := 0, team := c.team.id, group := a.m.g, lane := a.l, parcel := none, node := c.node.id, core := c.team.core,
      comp := c.node.gcomp, va := a.va + 8 * p, pa := f.hpa + 8 * p, kind := o.kind, width := partWidth o.f.width,
      mscope := o.f.mscope, order := o.f.order, hint := o.f.hint, home := f.attr.home, stable := f.attr.s,
      shadow := f.dir == some 2 || f.dir == some 3, place := s.placeOf f, data := BitVec.ofNat 64 (a.data / 2 ^ (64 * p)),
      cmp := lowWord64 a.cmp, fill := none, part := 2 * p, instr := c.addr, batch := 0, side := false })

/-- Puts the requests of an instruction on their way; with `ret` their results go into a fill, which the destination
registers wait for (R118). -/
def State.sendReqs (s : State) (o : MOp) (c : Ctx) (form : Bool) (rs : List Req) : State :=
  let fid := s.nextId
  let rs' := (indexed rs).map (fun e => { e.2 with id := fid + 1 + e.1, batch := fid, fill := if o.ret then some fid else none })
  let s1 : State := { s with nextId := fid + 1 + rs.length, reqs := s.reqs ++ rs' }
  if o.ret then
    let regs := if form then [] else (c.activeLanes.flatMap (fun e =>
      ((c.group e.1).regsOf o.f.data false 0 e.2 o.words).map (fun r => (e.1.g, r)))).eraseDups
    let sends := match o.regs.sendDst with
      | some q => c.members.filterMap (fun m => (s.sendFor c.team.id m q 0 c.addr).map (fun x => (m.g, x.id)))
      | none => []
    let fill : Fill :=
      { id := fid, team := c.team.id, parcel := none, form := form, regs := regs, vals := [],
        waiting := rs'.map (fun r => r.id), sends := sends }
    let s2 : State := { s1 with fills := s1.fills ++ [fill] }
    let s3 := regs.foldl (fun st e => st.modGroup c.team.id e.1 (fun g => g.markEmpty [e.2])) s2
    match o.regs.sendDst with
    | none => s3
    | some q =>
      c.members.foldl (fun st m => match st.sendFor c.team.id m q 0 c.addr with
        | none => st
        | some x =>
          let msg : Message :=
            { seq := 0, words := [], mask := c.headerMask m, srcRank := c.team.rank, srcQueue := q, srcGroup := m.g }
          st.retireSend x .filling msg) s3
  else s1

/-- The values of the sources have been taken: consumed messages leave their queues (R119). -/
def MOp.consume (o : MOp) (c : Ctx) (s : State) : State :=
  (srcQueues o.regs.srcs).foldl (fun st q => st.consumeMsgs c q) s

/-! ### Global accesses -/

/-- The access writes. -/
def ReqKind.writes : ReqKind → Bool
  | .load _ => false
  | _ => true

/-- The write marks for the accesses of a node that translate outside its output extents (R361). -/
def State.noteEscape (s : State) (n : Node) (rs : List Req) : State :=
  if rs.any (fun r => r.kind.writes && !r.shadow) then
    s.modNode n.id (fun x => { x with escaped := true })
  else s

/-- The walk of a requester for a page that has met a fault and waits for its answer. -/
def State.faulted (s : State) (who : Requester) (page : Nat) : Bool :=
  s.walks.any (fun w => decide (w.who = who) && decide (w.va / 65536 = page) && w.waitOn.isSome)

/-- The pages of the missing lanes, by member. -/
def missPages (ms : List Acc) : List (Member × Nat) := (ms.map (fun a => (a.m, a.va / 65536))).eraseDups

/-- An entry of the side log for one faulting page of one member (R236); its walk becomes the entry's. -/
def State.logPage (s : State) (o : MOp) (c : Ctx) (ms : List Acc) (p : Member × Nat) : State :=
  let (seq, s1) := s.freshId
  let e : SideEntry :=
    { team := c.team.id, group := p.1.g, addr := c.addr, seq := seq, page := p.2,
      lanes := (ms.filter (fun a => decide (a.m = p.1) && decide (a.va / 65536 = p.2))).map (fun a =>
        (a.l, a.va, lowWord64 a.data, highWord64 a.data)),
      width := o.f.width, mscope := o.f.mscope, order := o.f.order, sub := o.f.sub,
      reduction := decide (o.kind ≠ .store), scope := trapScopeOf o.c.scope, passed := 0, handler := (c.group p.1).trap.isSome, ready := false }
  let s2 := s1.modCore c.team.core (fun k => { k with sidelog := k.sidelog ++ [e] })
  { s2 with walks := s2.walks.map (fun w =>
      if w.who = c.who p.1 ∧ w.va / 65536 = p.2 then { w with who := .side seq } else w) }

/-- A `ld` with a form destination after fan-out (R106, Table 6.2): team scope, PRED 0111, uniform address, at most a
pair. -/
def MOp.formDstOk (o : MOp) (c : Ctx) : Bool :=
  decide (o.c.scope = .team) && decide (o.c.pred = 7#3) && !o.c.pneg && decide (o.words ≤ 2) && decide (o.acc = .read) &&
  !o.loc &&
  (match o.addrSrc.kind c.team.form c.team.uniPred c.node 0#64 with
    | some (.uni _) => true
    | _ => false)

/-- The fill of a form load of the team that is on its way or has landed. -/
def State.formFill (s : State) (t : Nat) : Option Fill :=
  s.fills.find? (fun f => decide (f.team = t) && f.form && decide (f.parcel = none))

/-- The form values of a landed fill: one per word. -/
def Fill.formVals (f : Fill) (words : Nat) : List FormVal :=
  (List.range words).map (fun i =>
    .uni ((f.vals.find? (fun v => decide (v.2.1 = i))).elim 0#32 (fun v => v.2.2.2)))

/-- The form destination is one that R106 does not allow. -/
def MOp.badForm (o : MOp) (c : Ctx) : Bool := o.regs.formDst.isSome && !o.formDstOk c

/-- Steps 3 and 4 of R251 over the accesses: a walk that has not met a fault is awaited first, so that eaddr is the
lowest address of all that fail. A trap of the access itself comes before FormWrite, so that a load that traps in form
traps alike in each group (R110). Then the accesses and side-log entries go on their way. -/
def MOp.perform (o : MOp) (c : Ctx) (form : Bool) (as : List Acc) (s : State) : Res :=
  let rs := as.map (fun a => (a, s.resolve c.node c.team.core (c.who a.m) o.acc a.va o.bytes))
  let traps := rs.filterMap (fun r => match r.2 with
    | .trap k => some (r.1.va, k)
    | _ => none)
  let found := rs.filterMap (fun r => match r.2 with
    | .ok f => some (r.1, f)
    | _ => none)
  let miss := (rs.filter (fun r => decide (r.2 = .miss))).map (fun r => r.1)
  let pages := missPages miss
  let vaOf (p : Member × Nat) : Nat :=
    ((miss.find? (fun a => decide (a.m = p.1) && decide (a.va / 65536 = p.2))).map (fun a => a.va)).getD (p.2 * 65536)
  let ask := pages.foldl (fun (st : State) (p : Member × Nat) =>
    st.askWalk (c.who p.1) c.node.world c.node.desc.comp c.team.core (vaOf p) o.acc) s
  let traps4 := found.filterMap (fun r => (s.step4 c.node o.bytes r.2).map (fun k => (r.1.va, k)))
  if pages.any (fun p => !s.faulted (c.who p.1) p.2) then .stall .walk ask
  else match lowestTrap traps with
  | some t => .trap t.2 (BitVec.ofNat 64 t.1) 0
  | none =>
    if pages ≠ [] ∧ (o.logs = false ∨
        Config.sideLogEntries < (s.core c.team.core).sidelog.length + pages.length) then .stall .walk s
    else match lowestTrap traps4 with
    | some t => .trap t.2 (BitVec.ofNat 64 t.1) 0
    | none =>
      if o.badForm c then .trap .formWrite 0 0
      else
      let reqs := found.flatMap (fun r => o.requests s c r.1 r.2)
      let s1 := pages.foldl (fun st p => st.logPage o c miss p) s
      let s2 := (s1.dropCtxWalks c).sendReqs o c form reqs
      let s3 := o.consume c (s2.noteEscape c.node reqs)
      if form then .stall .wait s3 else .retire s3

/-! ### Scratchpad accesses (R182, R183) -/

/-- Linear index of the team of a rank in a team's cluster. -/
def Node.rankIndex (n : Node) (t : Team) (rank : Nat) : Nat := t.cluster * (n.desc.cx * n.desc.cy) + rank

/-- The rank is present in the cluster: a team of it has been placed (R334, R335). -/
def State.hasRank (s : State) (n : Node) (t : Team) (rank : Nat) : Bool :=
  decide (rank < n.desc.cx * n.desc.cy) &&
  s.teams.any (fun u => decide (u.node = n.id) && t.clusterMate u && decide (u.rank = rank) && u.joined)

/-- The fields and bounds of Table 10.1: where the access goes and its offset, none where it raises Protection. -/
def State.scratchPlace (s : State) (n : Node) (t : Team) (bytes va : Nat) : Option (Place × Nat) :=
  if va < 2 ^ 31 then
    if va + bytes ≤ n.desc.scratch then some (.scratch, va) else none
  else
    let rank := va / 2 ^ 24 % 16
    let off := va % 2 ^ 24
    if va / 2 ^ 28 % 8 ≠ 0 ∨ s.hasRank n t rank = false ∨ n.desc.scratch < off + bytes then none
    else some (.peer (n.rankIndex t rank), off)

/-- What the relay finds of a peer team (R183). -/
inductive PeerRes where
  | placed (t : Team)
  | waits
  | gone
  deriving DecidableEq, Repr

/-- The state of the peer of a linear index (R183). -/
def State.peer (s : State) (node idx : Nat) : PeerRes :=
  match s.teams.find? (fun t => decide (t.node = node) && decide (t.index = idx)) with
  | none => .gone
  | some t => match t.phase with
    | .placed => .placed t
    | .ended | .parked => .gone
    | _ => .waits

/-- The accesses of a scratchpad instruction: with a pre-empted peer the group waits for the relay (R183). -/
def MOp.performLoc (o : MOp) (c : Ctx) (as : List Acc) (s : State) : Res :=
  let rs := as.map (fun a => (a, s.scratchPlace c.node c.team o.bytes a.va))
  let bad := (rs.filter (fun r => r.2.isNone)).map (fun r => r.1.va)
  let ok := rs.filterMap (fun r => r.2.map (fun p => (r.1, p)))
  if bad ≠ [] then .trap .protection (BitVec.ofNat 64 (lowestVa bad)) 0
  else if o.badForm c then .trap .formWrite 0 0
  else if ok.any (fun r => match r.2.1 with
      | .peer i => decide (s.peer c.node.id i = .waits)
      | _ => false) then .stall .wait s
  else
    let reqs : List Req := ok.flatMap (fun r =>
      (o.requests s c r.1 ⟨r.2.2, ⟨true, false, false, 0, c.node.desc.comp, 0⟩, none, false⟩).map (fun q => { q with place := r.2.1 }))
    .retire (o.consume c (s.sendReqs o c false reqs))

/-! ### The instruction on a core -/

/-- A memory instruction whose members have met (R118, R119, R122, R126, R251, R254). -/
def MOp.body (o : MOp) (c : Ctx) (s : State) : Res :=
  let v := o.regs
  match v.gate c s with
  | some r => r
  | none =>
  if v.sends.any (fun q => (Tbl.find? c.team.sendq q.1).isNone) then .trap .queueUnbound 0 0
  else if v.dstEmpty c then .stall (v.pending c) s
  else match if o.badForm c then none else v.formDst, s.formFill c.team.id with
  | some d, some fl =>
    if fl.waiting ≠ [] then .stall .wait s
    else .retire (((s.dropFill fl.id).modTeam c.team.id (fun t =>
      { t with form := formPut t.form d (fl.formVals o.words) })))
  | fd, _ =>
    if !(v.sends.all (fun q => s.credited c q.1 q.2)) || (decide (v.sends ≠ []) && !c.quiet s) then
      .stall .wait (v.sends.foldl (fun st q => match Tbl.find? c.team.sendq q.1 with
        | some b => st.askCredits c q.1 q.2 b
        | none => st) s)
    else
      let all := o.accs c s
      let as := if fd.isSome then all.take 1 else all
      match o.firstChecks as with
      | some t => .trap t.2 (BitVec.ofNat 64 t.1) 0
      | none =>
        if as.any (s.sideOverlap c o.bytes) || s.acquirePending c || (releases o.f.order && !c.quiet s) then .stall .wait s
        else if o.loc then o.performLoc c as s else o.perform c fd.isSome as s

/-! ### `ld` in form (R103, R250) -/

/-- The fill of a parcel's load. -/
def State.parcelFill (s : State) (node p : Nat) : Option Fill :=
  s.fills.find? (fun f => decide (f.parcel = some (node, p)))

/-- The access of a parcel at `va`, once it is allowed. -/
def State.parcelLoad (s : State) (o : MOp) (n : Node) (p : Parcel) (va : Nat) (f : Found) : State :=
  let fid := s.nextId
  let r : Req :=
    { id := fid + 1, team := 0, group := 0, lane := 0, parcel := some p.id, node := n.id, core := n.leadCore,
      comp := n.gcomp, va := va, pa := f.hpa, kind := o.kind, width := o.f.width, mscope := o.f.mscope,
      order := o.f.order, hint := o.f.hint, home := f.attr.home, stable := f.attr.s,
      shadow := f.dir == some 2 || f.dir == some 3, place := s.placeOf f, data := 0, cmp := 0,
      fill := some fid, part := 0, instr := p.pc, batch := fid, side := false }
  let fl : Fill :=
    { id := fid, team := 0, parcel := some (n.id, p.id), form := true, regs := [], vals := [], waiting := [fid + 1],
      sends := [] }
  { s with nextId := fid + 2, reqs := s.reqs ++ [r], fills := s.fills ++ [fl] }

/-- A load of uniform address whose destination is a form register or an even pair stays in form (Table 6.2); an access
that traps cuts, so that the teams raise the trap (R110). -/
def MOp.inForm (o : MOp) (n : Node) (p : Parcel) (s : State) : FormRes :=
  match o.regs.formDst, formUni o.addrSrc n p s with
  | some d, some a =>
    if 2 < o.words then .cut
    else match s.parcelFill n.id p.id with
    | some fl =>
      if fl.waiting ≠ [] then .stall s
      else .done ((s.dropFill fl.id).setParcel n p (fun y =>
        ({ y with form := formPut y.form d (fl.formVals o.words) } : Parcel).advance))
    | none =>
      let va := o.address n.ent.mwin a
      if va % o.bytes ≠ 0 ∨ 2 ^ 57 ≤ va then .cut
      else
        let who := Requester.parcel n.id p.id
        match s.resolve n n.leadCore who .read va o.bytes with
        | .trap _ => .cut
        | .miss => .stall (s.askWalk who n.world n.desc.comp n.leadCore va .read)
        | .ok f => match s.step4 n o.bytes f with
          | some _ => .cut
          | none => .stall ((s.dropWalks (fun w => decide (w = who))).parcelLoad o n p va f)
  | _, _ => .cut

/-- A memory instruction: one that sends its result is a commit instruction (R122, R126). -/
def MOp.exec (o : MOp) (form : Node → Parcel → State → FormRes) (s : State) : Out :=
  issue o.c { commit := o.commit || decide (o.regs.sends ≠ []) } o.static (fun t _ gr _ m => o.regs.undef t gr m) o.body form s

/-! ### ld, st, atom, red (R249 to R253) -/

/-- `ld` (R251). SUBOP [5] is .a64, [0] sign extension (Table 13.6). -/
def execLd (c : Common) (f : FmtM) (s : State) : Out :=
  let o : MOp :=
    { c := c, f := f, kind := .load (f.sub.getLsbD 0), acc := .read, ret := true, reads := false, cas := false,
      a64 := f.sub.getLsbD 5, loc := false, logs := false, commit := false }
  o.exec o.inForm s

/-- `st` (R251): a commit instruction when it releases; a relaxed one may retire into the side log. -/
def execSt (c : Common) (f : FmtM) (s : State) : Out :=
  let o : MOp :=
    { c := c, f := f, kind := .store, acc := .write, ret := false, reads := true, cas := false,
      a64 := f.sub.getLsbD 5, loc := false, logs := !releases f.order, commit := releases f.order }
  o.exec neverForm s

/-- `atom` (R252). -/
def execAtom (c : Common) (f : FmtM) (s : State) : Out :=
  let op := f.sub.toNat % 8
  let o : MOp :=
    { c := c, f := f, kind := .atom op (f.sub.getLsbD 4) (f.sub.getLsbD 3) c.w, acc := .atomic, ret := c.w, reads := true,
      cas := decide (op = 7), a64 := f.sub.getLsbD 5, loc := false, logs := false, commit := true }
  o.exec neverForm s

/-- `red` (R253): at the home slice at every scope; any order may retire into the side log. -/
def execRed (c : Common) (f : FmtM) (s : State) : Out :=
  let o : MOp :=
    { c := c, f := f, kind := .red (f.sub.toNat % 8) (f.sub.getLsbD 4) (f.sub.getLsbD 3), acc := .atomic, ret := false,
      reads := true, cas := false, a64 := f.sub.getLsbD 5, loc := false, logs := true, commit := true }
  o.exec neverForm s

/-! ### lds, sts, atoms (R185 to R187) -/

/-- `lds` (R186). -/
def execLds (c : Common) (f : FmtM) (s : State) : Out :=
  let o : MOp :=
    { c := c, f := f, kind := .load (f.sub.getLsbD 0), acc := .read, ret := true, reads := false, cas := false,
      a64 := false, loc := true, logs := false, commit := false }
  o.exec neverForm s

/-- `sts` (R186): a commit instruction when it releases. -/
def execSts (c : Common) (f : FmtM) (s : State) : Out :=
  let o : MOp :=
    { c := c, f := f, kind := .store, acc := .write, ret := false, reads := true, cas := false,
      a64 := false, loc := true, logs := false, commit := releases f.order }
  o.exec neverForm s

/-- `atoms` (R187): SUBOP [5] unsigned, [4] f32, [3:0] the operation (Table 10.4). -/
def execAtoms (c : Common) (f : FmtM) (s : State) : Out :=
  let op := f.sub.toNat % 16
  let o : MOp :=
    { c := c, f := f, kind := .atom op (f.sub.getLsbD 4) (f.sub.getLsbD 5) c.w, acc := .atomic, ret := c.w, reads := true,
      cas := decide (op = 7), a64 := false, loc := true, logs := false, commit := true }
  o.exec neverForm s

/-! ### fence (R267, R268) -/

/-- A read of a member group has not returned; an `atom` that returns nothing is a read too (R257). -/
def State.readsOut (s : State) (c : Ctx) : Bool :=
  s.reqs.any (fun r => decide (r.team = c.team.id) && decide (r.parcel = none) && (r.fill.isSome || (match r.kind with
      | .atom .. => true
      | _ => false)) &&
    c.members.any (fun m => decide (m.g = r.group)))

/-- The members' side-logged entries have all performed (R237). -/
def Ctx.sideQuiet (c : Ctx) (s : State) : Bool :=
  !(s.cores.any (fun k => k.2.sidelog.any (fun e => decide (e.team = c.team.id) && c.members.any (fun m => decide (m.g = e.group))))) &&
  !(s.reqs.any (fun r => r.side && decide (r.team = c.team.id) && c.members.any (fun m => decide (m.g = r.group))))

/-- `fence` (R268): it waits for every side-logged entry (R237); the release part waits for every earlier access, the acquire part
for every earlier read and, at `.clu` or wider, empties the L1. The sc order is that of the machine's steps (R262). It acts for the
members that have an active lane. -/
def execFence (c : Common) (f : FmtM) (s : State) : Out :=
  issue c {} noStatic noUndef
    (fun x s =>
      if !x.sideQuiet s || (releases f.order && !x.quiet s) then .stall .wait s
      else if acquires f.order && s.readsOut x then .stall .wait s
      else .retire ((x.members.filter (fun m => decide (m.act ≠ 0#32))).foldl
        (fun st m => st.fenceOf x.team m.g f.order f.mscope (f.sub.getLsbD 0))
        (if acquires f.order && scopeWide f.mscope then s.emptyL1 x.team.core else s)))
    neverForm s

end Sys2Proof.Machine
end

