-- ==== Sys2Proof/Machine/Barriers.lean ====
section
/-! DEFINITION. The engine instructions' common part (spec/03_encoding.md R45), the record of R124 and R291 as they use
it, and barrier objects with `barinit` and `bar` (spec/14_visibility.md R269 to R274). -/

namespace Sys2Proof.Machine

open Sys2Proof

/-! ### Format E -/

/-- What an engine instruction does with its operands: `done` gives the word for each lane of the destination. -/
inductive EngRes where
  | stall (h : Hold) (s : State)
  | trap (k : TrapKind) (eaddr : DWord)
  | trapIn (s : State) (k : TrapKind) (eaddr : DWord)
  | done (s : State) (val : Member → Nat → Nat)

/-- IllegalOperand, which comes before the traps of execution (R56): its eaddr. -/
def EngRes.badOperand : EngRes → Option DWord
  | .trap .illegalOperand e => some e
  | _ => none

/-- An engine instruction: its destination as that of a vector instruction, and what it does with the values that its
operands have at the first active lane. -/
structure EOp where
  v : VOp
  extra : Node → Option TrapKind := fun _ => none
  commit : Bool := false
  run : Ctx → List Nat → State → EngRes

/-- An operand read as n32. -/
def engSrc (field : BitVec 11) : Src := { field := field, ty := .n32 }

/-- The registers of a format E instruction. -/
def engRegs (c : Common) (f : FmtE) (srcs : List Src) : VOp :=
  { c := c, dst := f.sdst, srcs := srcs, noForm := true, fn := fun _ _ => (0, 0) }

/-- The object an instruction names. -/
def objOf (f : FmtE) : Nat := f.obj.toNat

/-- The results of every active lane. -/
def engResults (c : Ctx) (val : Member → Nat → Nat) : List (Member × Nat × Nat × FlagSet) :=
  c.activeLanes.map (fun e => (e.1, e.2, val e.1 e.2, 0))

/-- Delivers results to the destination of an instruction: registers or sends (R118, R126). -/
def VOp.deliver (o : VOp) (c : Ctx) (rs : List (Member × Nat × Nat × FlagSet)) (s : State) : State :=
  let s1 := if o.c.w && o.sendDst.isNone then
      if o.long || decide (srcQueues o.srcs ≠ []) then o.writeLater c rs s else o.writeNow c rs s
    else s
  o.sends.foldl (fun st q => st.sendAll c q.1 q.2 (sendWord rs)) s1

/-- An engine instruction whose members have met: an operand value that is illegal comes before FormWrite and QueueUnbound
(R56). -/
def EOp.body (o : EOp) (c : Ctx) (s : State) : Res :=
  match o.v.gate c s with
  | some r => r
  | none =>
  let r := o.run c (o.v.srcs.map (c.readFirst s)) s
  match r.badOperand with
  | some e => .trap .illegalOperand e 0
  | none =>
  if o.v.formWrite c s then .trap .formWrite 0 0
  else if o.v.sends.any (fun q => (Tbl.find? c.team.sendq q.1).isNone) then .trap .queueUnbound 0 0
  else if o.v.dstEmpty c then .stall (o.v.pending c) s
  else match r with
    | .stall h s1 => .stall h s1
    | .trap k e => .trap k e 0
    | .trapIn s1 k e => .trapIn s1 k e
    | .done s1 val =>
      if !(o.v.sends.all (fun q => s.credited c q.1 q.2)) || (decide (o.v.sends ≠ []) && !c.quiet s) then
        .stall .wait (o.v.sends.foldl (fun st q => match Tbl.find? c.team.sendq q.1 with
          | some b => st.askCredits c q.1 q.2 b
          | none => st) s)
      else
        let s2 := o.v.deliver c (engResults c val) s1
        .retire ((srcQueues o.v.srcs).foldl (fun st q => st.consumeMsgs c q) s2)

/-- An engine instruction: it never stays in form. -/
def EOp.exec (o : EOp) (s : State) : Out :=
  issue o.v.c { commit := o.commit || decide (o.v.sends ≠ []) }
    (fun n => match o.extra n with
      | some k => some k
      | none => o.v.static n) (fun t _ gr _ m => o.v.undef t gr m) o.body neverForm s

/-! ### The record of performed instructions (R124, R291) -/

/-- Every member's record matches the instruction: the entries. -/
def Ctx.recorded (c : Ctx) (k : RecKind) (obj : Nat) : Option (List (Member × RecEntry)) :=
  let l := c.members.filterMap (fun m => ((c.group m).matching (hitLanes m) c.addr k obj).map (fun e => (m, e)))
  if l.length = c.members.length ∧ l ≠ [] then some l else none

/-- The slot or count that the record returns. -/
def recordSlot (l : List (Member × RecEntry)) : Nat :=
  match l with
  | [] => 0
  | e :: _ => e.2.slot

/-- The instruction is done: a match uses its entries up, anything else clears the record; it is noted again. -/
def State.noteDone (s : State) (c : Ctx) (k : RecKind) (obj slot : Nat) (hit : Option (List (Member × RecEntry))) : State :=
  c.members.foldl (fun st m => st.modGroup c.team.id m.g (fun g =>
    match hit.bind (fun l => (l.find? (fun e => decide (e.1 = m))).map (fun e => e.2)) with
    | some e => (g.useRecord (hitLanes m) k (some e)).note { e with lanes := hitLanes m }
    | none => (g.useRecord (hitLanes m) k none).note { lanes := hitLanes m, addr := c.addr, kind := k, obj := obj, slot := slot })) s

/-- No destination word. -/
def noVal : Member → Nat → Nat := fun _ _ => 0

/-! ### Barrier objects (R269 to R272) -/

def BarObj.free : BarObj :=
  { init := false, scope := .grp, grid := false, count := 0, pending := 0, phase := 0, heldArrivals := 0,
    heads := [] }

/-- One arrival (R272). -/
def BarObj.arrive (b : BarObj) : BarObj :=
  if b.pending ≤ 1 then { b with pending := b.count, phase := b.phase + 1 } else { b with pending := b.pending - 1 }

/-- One drop (R272). -/
def BarObj.drop (b : BarObj) : BarObj := ({ b with count := b.count - 1 } : BarObj).arrive

/-- A phase that a wait count has not consumed is complete (R272). -/
def phaseReady (phase w : Word) : Bool := decide (phase - w ≠ 0#32) && decide ((phase - w).toNat < 2 ^ 31)

/-- Keys of a node's cluster objects: 0 to 7 the grid objects, then 8 for each lead rank of each cluster (R269). -/
def clusterKey (t : Team) (k : Nat) : Nat := 8 + 8 * (32 * t.cluster + t.lead) + k

/-- The object that cb `k` names in a team: its cluster's, or the grid object once one is initialised. -/
def Node.barKey (n : Node) (t : Team) (k : Nat) : Nat :=
  if (Tbl.get BarObj.free n.cbars (clusterKey t k)).init = false ∧ (Tbl.get BarObj.free n.cbars k).init = true then k
  else clusterKey t k

/-- An object by its number: 0 to 15 team objects, 16 up cluster objects. -/
def barGet (n : Node) (t : Team) (obj : Nat) : BarObj :=
  if obj < 16 then Tbl.get BarObj.free t.bars obj else Tbl.get BarObj.free n.cbars (n.barKey t (obj - 16))

def State.barSet (s : State) (n : Node) (t : Team) (obj : Nat) (b : BarObj) : State :=
  if obj < 16 then s.modTeam t.id (fun x => { x with bars := Tbl.set BarObj.free x.bars obj b })
  else s.modNode n.id (fun x => { x with cbars := Tbl.set BarObj.free x.cbars (n.barKey t (obj - 16)) b })

/-- An arrival of an engine or matrix operation of team `t` (R213, R286, R295), with the releases that it makes. One on an uninitialised
cluster object is held at the object's home. -/
def State.arriveFor (s : State) (team obj : Nat) (hs : List Head) : State :=
  match s.team? team with
  | none => s
  | some t =>
    match s.node? t.node with
    | none => s
    | some n =>
      let b := barGet n t obj
      let heads := s.mergeHeads hs b.heads
      if b.init then s.barSet n t obj { b.arrive with heads := heads }
      else if obj < 16 then s
      else s.barSet n t obj { b with heldArrivals := b.heldArrivals + 1, heads := heads }

/-- The object number that FLAGS [3] and OBJ name. -/
def barObj (f : FmtE) : Nat := if f.flags.getLsbD 3 then 16 + objOf f else objOf f

/-- OBJ above 7 names no cluster object (R270). -/
def barObjOk (f : FmtE) : Option TrapKind := if f.flags.getLsbD 3 ∧ 7 < objOf f then some .illegalOperand else none

/-- The trap or wait for an object that is not initialised (R271). -/
def uninit (obj : Nat) (s : State) : EngRes := if obj < 16 then .trap .illegalOperand 0 else .stall .wait s

/-- An arrival is a release: it waits for the group's earlier accesses (R273, R237). -/
def barRelease (c : Common) (f : FmtE) (drop : Bool) : EOp :=
  { v := engRegs c f [], extra := fun _ => barObjOk f, commit := true,
    run := fun x _ s =>
      let o := barObj f
      let b := barGet x.node x.team o
      if b.init = false then uninit o s
      else if drop = true ∧ b.count = 1 then .trap .illegalOperand 0
      else if x.quiet s = false then .stall .wait s
      else .done (s.barSet x.node x.team o
        { (if drop then b.drop else b.arrive) with
          heads := s.mergeHeads (x.members.map (fun m => { agent := x.team.agent m.g, scope := b.scope, step := s.fresh })) b.heads })
        noVal }

/-- `bar.arrive` (R272). -/
def execBarArrive (c : Common) (f : FmtE) (s : State) : Out := (barRelease c f false).exec s

/-- `bar.drop` (R272). -/
def execBarDrop (c : Common) (f : FmtE) (s : State) : Out := (barRelease c f true).exec s

/-- The wait count of a group for an object. -/
def Group.waitCount (g : Group) (obj : Nat) : Word := Tbl.get 0#32 g.waits obj

/-- `bar.wait` (R272): an acquire at the object's scope, which synchronises with the arrivals that it meets (R273, R23); one that
returned after the resume point returns at once (R274). -/
def execBarWait (c : Common) (f : FmtE) (s : State) : Out :=
  EOp.exec
    { v := engRegs c f [], extra := fun _ => barObjOk f,
      run := fun x _ s =>
        let o := barObj f
        let b := barGet x.node x.team o
        let acq (st : State) : State := x.members.foldl (fun u m => u.sync (x.team.agent m.g) b.scope b.heads)
          (if scopeWide b.scope then st.emptyL1 x.team.core else st)
        match x.recorded .barWait o with
        | some l => .done (acq (s.noteDone x .barWait o 0 (some l))) noVal
        | none =>
          if b.init = false then uninit o s
          else if x.members.all (fun m => phaseReady b.phase ((x.group m).waitCount o)) then
            let s1 := x.members.foldl (fun st m => st.modGroup x.team.id m.g (fun g =>
              { g with waits := Tbl.set 0#32 g.waits o (g.waitCount o + 1) })) s
            .done (acq (s1.noteDone x .barWait o 0 none)) noVal
          else .stall (.bar o) s } s

/-- `bar.test` (R272): W is that of the lowest-numbered member; it never holds (R271). -/
def execBarTest (c : Common) (f : FmtE) (s : State) : Out :=
  EOp.exec
    { v := engRegs c f [], extra := fun _ => barObjOk f,
      run := fun x _ s =>
        let o := barObj f
        let b := barGet x.node x.team o
        if b.init = false ∧ o < 16 then .trap .illegalOperand 0
        else
          let w := match x.members with
            | [] => 0#32
            | m :: _ => (x.group m).waitCount o
          .done s (fun _ _ => if b.init then (b.phase - w).toNat else 0) } s

/-- A strand of the team waits on a team object. -/
def Team.waitsOn (t : Team) (obj : Nat) : Bool :=
  t.groups.any (fun g => g.strands.any (fun st => decide (st.hold = .bar obj)))

/-- A flow or `mma` still names the team object as its arrival target (R271). -/
def State.arrivalPending (s : State) (t : Team) (k : Nat) : Bool :=
  s.flows.any (fun x => decide (x.team = t.id) && decide (x.desc.bark = 1) && decide (x.desc.bar = k)) ||
  (s.core t.core).matq.any (fun o => decide (o.team = t.id) && decide (o.arrive = some k))

/-- Arrivals held for an object, applied in turn. -/
def BarObj.applyHeld (b : BarObj) : Nat → BarObj
  | 0 => b
  | n + 1 => b.arrive.applyHeld n

/-- Clears the wait counts for an object in the teams that `p` gives. -/
def State.clearWaits (s : State) (p : Team → Bool) (obj : Nat) : State :=
  { s with teams := s.teams.map (fun t => if p t then
      { t with groups := t.groups.map (fun g => { g with waits := Tbl.del g.waits obj }) } else t) }

/-- The keys of the uninitialised objects of number `k` whose held arrivals a grid object takes over. -/
def gridHeld (n : Node) (k : Nat) : List (Nat × BarObj) :=
  n.cbars.filter (fun e => decide (8 ≤ e.1) && decide (e.1 % 8 = k) && !e.2.init)

/-- Initialises an object (R271). -/
def State.initBar (s : State) (x : Ctx) (f : FmtE) (count : Nat) : State :=
  let o := barObj f
  let k := objOf f
  let b : BarObj :=
    { init := true, scope := Decode.mscopeOf (BitVec.ofNat 3 (f.flags.toNat / 32)), grid := f.flags.getLsbD 4, count := count,
      pending := count, phase := 0, heldArrivals := 0, heads := [] }
  if f.flags.getLsbD 4 then
    let held := (gridHeld x.node k).foldl (fun n e => n + e.2.heldArrivals) 0
    let b1 : BarObj := { b.applyHeld held with heads := (gridHeld x.node k).flatMap (fun e => e.2.heads) }
    (s.modNode x.node.id (fun n =>
      { n with cbars := Tbl.set BarObj.free ((gridHeld n k).foldl (fun t e => Tbl.del t e.1) n.cbars) k b1 })).clearWaits
        (fun t => decide (t.node = x.node.id)) o
  else if f.flags.getLsbD 3 then
    let old := Tbl.get BarObj.free x.node.cbars (clusterKey x.team k)
    let b1 : BarObj := { b.applyHeld old.heldArrivals with heads := old.heads }
    (s.modNode x.node.id (fun n =>
      { n with cbars := Tbl.set BarObj.free n.cbars (clusterKey x.team k) b1 })).clearWaits
        (fun t => x.team.clusterMate t) o
  else (s.modTeam x.team.id (fun t => { t with bars := Tbl.set BarObj.free t.bars o b })).clearWaits
        (fun t => decide (t.id = x.team.id)) o

/-- `barinit` (R271). -/
def execBarinit (c : Common) (f : FmtE) (s : State) : Out :=
  EOp.exec
    { v := engRegs c f [engSrc f.opa], extra := fun _ => barObjOk f,
      run := fun x vs s =>
        let o := barObj f
        let count := vs.headD 0
        let cl := f.flags.getLsbD 3
        let grid := f.flags.getLsbD 4
        match x.recorded .barinit o with
        | some l => .done (s.noteDone x .barinit o 0 (some l)) noVal
        | none =>
          if count = 0 ∨ 65535 < count then .trap .illegalOperand 0
          else if grid = true ∧ (x.team.tx ≠ 0 ∨ x.team.ty ≠ 0 ∨ x.team.tz ≠ 0 ∨ x.node.desc.cores = false) then
            .trap .illegalOperand 0
          else if cl = true ∧ x.team.rank ≠ x.team.lead then .trap .illegalOperand 0
          else if cl = true ∧ (barGet x.node x.team o).init = true then .trap .illegalOperand 0
          else if cl = false ∧ x.team.waitsOn o = true then .trap .illegalOperand 0
          else if cl = false ∧ s.arrivalPending x.team o = true then .stall .wait s
          else .done ((s.initBar x f count).noteDone x .barinit o 0 none) noVal } s

end Sys2Proof.Machine
end

