-- ==== Sys2Proof/Machine/Store.lean ====
section
/-! DEFINITION. Reads and writes at a point of order (spec/13_memory.md R245; spec/18_faults.md R360 to R363): node
shadows, launch shadows, targets of a non-replayable launch, the host window and the pinned carve-outs. -/

namespace Sys2Proof.Machine

open Sys2Proof

def State.carveBytes (s : State) (pa n : Nat) : List Byte :=
  (List.range n).map (fun i => Tbl.get 0#8 (s.core (carveCore pa)).carve (carveOff pa + i))

/-- Bytes of host memory: what the model's agents wrote, or a fresh free value (log entry 5). -/
def State.hostBytes (s : State) (h n : Nat) : List Byte :=
  (List.range n).map (fun i => match Tbl.get none s.hostMem (h + i) with
    | some b => b
    | none => Config.hostByte s.fresh (h + i))

/-- Key in a page's copy of the byte at `pa`. -/
def copyKey (place : Place) (pa : Nat) : Nat := if place = .port then carveOff pa else pa

/-- A copied byte that compartment `c` may not have: its sector was poisoned, or its line or page was another compartment's (R248,
R370, R371). -/
def State.copyBad (s : State) (c : Nat) (p : PageCopy) (place : Place) (pa : Nat) : Bool :=
  if place = .port then (match p.tag with
    | some t => decide (t ≠ c)
    | none => false)
  else
    let l := Tbl.get Line.reset p.lines (pa / 128)
    let poison := match l.tag with
      | some (t, dirty) => if t = c then l.poison else if dirty then 0xF#4 else l.stored (some (s.comp c).key)
      | none => l.stored (some (s.comp c).key)
    decide (poison &&& sectorBit pa ≠ 0#4)

/-- A byte of the node's own version of an output page, with its poison, where `cur` stands at `pa` now: what the node wrote, else the
page as it stood when the shadow was taken. Host memory has no such copy, since the host may change it at any time. -/
def State.shadowByte (s : State) (n : Node) (comp : Nat) (place : Place) (pa : Nat) (cur : Byte × Bool) : Byte × Bool :=
  match Tbl.find? n.shadow (shadowAddr place pa) with
  | some b => (b, false)
  | none => match Tbl.find? n.shadowPages (pageKey place pa) with
    | some p =>
      if place = .host then cur
      else if s.copyBad comp p place pa then (Config.poisonByte s.fresh pa, true)
      else (Tbl.get 0#8 p.bytes (copyKey place pa), false)
    | none => cur

/-- A read of `n` bytes at a place: the bytes, poison, and the machine after it. A register window is not read here. -/
def State.readPlace (s : State) (n : Node) (comp : Nat) (place : Place) (pa va len : Nat) (home : BitVec 2 := 0#2) :
    List Byte × Bool × State :=
  let s0 := s.noteRead (some n.launch) place pa va len
  match place with
  | .home => s0.readMem comp pa len home
  | .port =>
    if s.carveClash comp pa then ((List.range len).map (fun i => Config.poisonByte s.fresh (pa + i)), true, s0)
    else (s.carveBytes pa len, false, s0)
  | .other => (s.bytes pa len, false, s0)
  | .host => (s.hostBytes (s.hostAddr n.world pa) len, false, { s0 with fresh := s0.fresh + 1 })
  | .param =>
    ((List.range len).map (fun i => let o := va % 65536 + i
        if o < n.ent.plen then n.params.getD o 0#8 else 0#8), false, s)
  | _ => (List.replicate len 0#8, false, s)

/-- A read of `n` bytes at a point of order for a node, of its own version in an output page (R239, R360). -/
def State.readLoc (s : State) (n : Node) (comp : Nat) (place : Place) (shadow : Bool) (pa va len : Nat)
    (home : BitVec 2 := 0#2) : List Byte × Bool × State :=
  let r := s.readPlace n comp place pa va len home
  if shadow then
    let bs := (indexed r.1).map (fun e => r.2.2.shadowByte n comp place (pa + e.1) (e.2, r.2.1))
    (bs.map (fun b => b.1), bs.any (fun b => b.2), r.2.2)
  else r

/-- The lines of a page as they stand: those of a tree node that fails are poisoned. -/
def State.pageLines (s : State) (pa : Nat) : Tbl Line :=
  let first := pa / 65536 * 512
  let bad := if s.badNodes = [] then [] else ((List.range 512).map (fun i => first + i)).filter (fun x => s.nodeBad (128 * x))
  bad.foldl (fun t x =>
    let l := Tbl.get Line.reset s.lines x
    if l.tag.isSome then t else Tbl.set Line.reset t x { l with poison := 0xF#4 }) (Tbl.slice s.lines first (first + 512))

/-- The page as it stands, for a shadow (R360, R362). -/
def State.pageCopy (s : State) (place : Place) (pa : Nat) : PageCopy :=
  let page := pa / 65536 * 65536
  if place = .port then
    let lo := carveOff page
    { bytes := Tbl.slice (s.core (carveCore pa)).carve lo (lo + 65536), lines := [],
      tag := Tbl.find? (s.core (carveCore pa)).carveTag (lo / 65536) }
  else if place = .host then { bytes := [], lines := [], tag := none }
  else { bytes := Tbl.slice s.mem page (page + 65536), lines := if place = .home then s.pageLines pa else [], tag := none }

/-- A line that goes back to what it held (R366): a new unit under the key that its bytes had, but for a line of version 0, which all
read as zeros. -/
def State.restoredLine (s : State) (old cur : Line) : Line :=
  let dirty := match old.tag with
    | some (_, d) => d
    | none => false
  let owner := match old.tag with
    | some (c, true) => s.sealKey c
    | _ => if old.version = 0#64 then 0 else old.key
  let poison := if old.tag.isSome then old.poison else old.stored none
  let next : Line := { Line.reset with version := cur.version + 1, key := owner, poison := poison }
  if old.version = 0#64 ∧ cur.version = 0#64 ∧ dirty = false then { Line.reset with poison := poison }
  else if cur.version = 0xFFFF_FFFF_FFFF_FFFF#64 then { next with version := cur.version, poison := 0xF#4, spent := true }
  else next

/-- A page goes back to its copy (R366). -/
def State.restorePage (s : State) (key : Nat) (copy : PageCopy) : State :=
  if key < 2 ^ 40 then
    let a := key * 65536
    let ls := ((Tbl.slice s.lines (512 * key) (512 * key + 512)) ++ copy.lines).map (fun e => e.1)
    (({ s with
      mem := copy.bytes.foldl (fun m e => Tbl.set 0#8 m e.1 e.2) (Tbl.delRange s.mem a (a + 65536))
      lines := ls.eraseDups.foldl (fun t x =>
        Tbl.set Line.reset t x (s.restoredLine (Tbl.get Line.reset copy.lines x) (Tbl.get Line.reset s.lines x))) s.lines } :
      State).dropL1Range a 65536).forgetLate a 65536
  else
    let pa := (key - 2 ^ 40) * 65536
    s.modCore (carveCore pa) (fun c =>
      let lo := carveOff pa
      { c with
        carve := copy.bytes.foldl (fun m e => Tbl.set 0#8 m e.1 e.2) (Tbl.delRange c.carve lo (lo + 65536))
        carveTag := match copy.tag with
          | some t => Tbl.put c.carveTag (lo / 65536) t
          | none => Tbl.del c.carveTag (lo / 65536) })

/-- What was compartment `c`'s, or sealed under its key `k`, leaves a copy (R380, R381). -/
def PageCopy.forget (p : PageCopy) (c k : Nat) : PageCopy :=
  let gone (l : Line) : Bool := (match l.tag with
    | some (t, _) => decide (t = c)
    | none => decide (k ≠ 0) && decide (l.key = k))
  let bad := (p.lines.filter (fun e => gone e.2)).map (fun e => e.1)
  { bytes := if p.tag = some c then [] else p.bytes.filter (fun b => !bad.contains (b.1 / 128))
    lines := p.lines.map (fun e => if gone e.2 then
      (e.1, { e.2 with tag := none, version := if e.2.version = 0#64 then 1#64 else e.2.version, key := noKey, poison := 0xF#4 }) else e)
    tag := if p.tag = some c then none else p.tag }

/-- Every copy forgets a compartment. -/
def State.forgetCopies (s : State) (c k : Nat) : State :=
  let old (t : Tbl PageCopy) : Tbl PageCopy := t.map (fun e => (e.1, e.2.forget c k))
  { s with parts := s.parts.map (fun p => (p.1, { p.2 with
      nodes := p.2.nodes.map (fun n => { n with shadowPages := old n.shadowPages })
      launches := p.2.launches.map (fun l => { l with shadow := old l.shadow }) })) }

/-- Takes a page of the partition's shadow pool; none when it is empty. -/
def State.takeShadow (s : State) (part : Nat) : Option State :=
  if (s.part part).shfree = 0#32 then none
  else some (s.modPart part (fun p => { p with shfree := p.shfree - 1 }))

/-- The pool has run out: shadowing stops for the rest of the launch (R363). -/
def State.poolOut (s : State) (n : Node) : State :=
  (s.modLaunch n.launch (fun l => { l with noReplay := true, nonReplayable := true })).modNode n.id (fun x =>
    { x with noReplay := true })

/-- Takes the launch shadow of a page at the launch's first write to it (R362). -/
def State.launchShadow (s : State) (n : Node) (place : Place) (pa : Nat) : State :=
  match s.launch? n.launch with
  | none => s
  | some l =>
    if l.noReplay || (Tbl.find? l.shadow (pageKey place pa)).isSome then s
    else match s.takeShadow n.part with
      | none => s.poolOut n
      | some s1 => s1.modLaunch l.id (fun x => { x with shadow := Tbl.put x.shadow (pageKey place pa) (s.pageCopy place pa) })

/-- The pages that `len` bytes touch. -/
def pagesOf (a len : Nat) : List Nat := (List.range ((a + len - 1) / 65536 - a / 65536 + 1)).map (fun i => (a / 65536 + i) * 65536)

/-- Bytes reach a place: memory, a carve-out, another package or host memory. A register window is not written here. -/
def State.putPlace (s : State) (n : Node) (comp : Nat) (place : Place) (pa : Nat) (bs : List Byte) (home : BitVec 2 := 0#2) : State :=
  match place with
  | .home => s.writeMem comp pa bs home
  | .port => s.writeCarve comp pa bs
  | .other => { s with mem := putBytes s.mem pa bs }
  | .host => { s with hostMem := (indexed bs).foldl (fun t e => Tbl.put t (s.hostAddr n.world pa + e.1) (some e.2)) s.hostMem }
  | _ => s

/-- The target that a write of a launch agent to a place is (R363). -/
def State.notePlace (s : State) (n : Node) (place : Place) (pa va len : Nat) : State :=
  match place with
  | .other => s.noteTarget n.launch 1 (pkgOf pa) va len
  | .host => s.noteTarget n.launch 0 0 va len
  | _ => s

/-- A write of bytes at a point of order for a node outside its shadows, in its launch's name (R362, R363). -/
def State.writePlace (s : State) (n : Node) (comp : Nat) (place : Place) (pa va : Nat) (bs : List Byte) (home : BitVec 2 := 0#2) :
    State :=
  match place with
  | .home | .port => (s.launchShadow n place pa).putPlace n comp place pa bs home
  | _ => (s.putPlace n comp place pa bs home).notePlace n place pa va bs.length

/-- A write to the node's own version of an output page (R360). -/
def State.writeShadow (s : State) (n : Node) (comp : Nat) (place : Place) (pa va : Nat) (bs : List Byte) (home : BitVec 2 := 0#2) :
    State :=
  let k := shadowAddr place pa
  let taken := (Tbl.find? n.shadowPages (pageKey place pa)).isSome
  let stopped := match s.launch? n.launch with
    | some l => l.noReplay
    | none => false
  let put (st : State) (new : Bool) : State := st.modNode n.id (fun x =>
    { x with
      shadow := (indexed bs).foldl (fun t e => Tbl.put t (k + e.1) e.2) x.shadow
      shadowPages := if new then Tbl.put x.shadowPages (pageKey place pa) (s.pageCopy place pa) else x.shadowPages })
  if taken then put s false
  else if stopped then s.writePlace n comp place pa va bs home
  else match s.takeShadow n.part with
    | none => (s.poolOut n).writePlace n comp place pa va bs home
    | some s1 => put s1 true

/-- A write of bytes at a point of order for a node, in its launch's name. -/
def State.writeLoc (s : State) (n : Node) (comp : Nat) (place : Place) (shadow : Bool) (pa va : Nat) (bs : List Byte)
    (home : BitVec 2 := 0#2) : State :=
  if shadow then s.writeShadow n comp place pa va bs home else s.writePlace n comp place pa va bs home

/-- A Frekuide link carries: its two directions have session keys, and no path over it is lost (R375). -/
def State.peerKeyed (s : State) : Bool :=
  s.spdm.any (fun e => match e.1 with
    | .peer l => decide (e.2 = .session) && !(s.lost.any (fun x => decide (x.1 = l)))
    | _ => false)

/-- The new value of a read-modify-write (R187, R252). -/
def atomNew (op : Nat) (f32 uns : Bool) (bytes old data cmp : Nat) : Nat :=
  let w := 8 * bytes
  let d := data % 2 ^ w
  if f32 then
    match op with
    | 0 => (fmtF32.addF ⟨.rne, 0⟩ false (fmtF32.decode old) (fmtF32.decode d)).1
    | 1 => (fmtF32.minMaxF false old d).1
    | _ => (fmtF32.minMaxF true old d).1
  else match op with
    | 0 => (old + d) % 2 ^ w
    | 1 => if intVal (!uns) w d < intVal (!uns) w old then d else old
    | 2 => if intVal (!uns) w old < intVal (!uns) w d then d else old
    | 3 => old &&& d
    | 4 => old ||| d
    | 5 => old ^^^ d
    | 6 => d
    | _ => if old = cmp % 2 ^ w then d else old

end Sys2Proof.Machine
end

