-- ==== Sys2Proof/Machine/Claims.lean ====
section
/-! DEFINITION. Claims (spec/15_claims.md): traverse records, claim descriptors, the walk, the claim states and their
revocation, circular buffers, and the claim instructions but for `flow`. -/

namespace Sys2Proof.Machine

open Sys2Proof

/-! ### Traverse records (R276) -/

/-- The dwords of a little-endian record. -/
def dwordsOf (bs : List Byte) : List DWord :=
  (List.range (bs.length / 8)).map (fun i => BitVec.ofNat 64 (bytesToNat ((bs.drop (8 * i)).take 8)))

/-- The offsets of a traverse's elements in stream order, dimension 0 fastest. -/
def elemOffsets : List Nat → List Int → List Int
  | e :: es, st :: ss => (elemOffsets es ss).flatMap (fun o => (List.range e).map (fun (i : Nat) => o + (i : Int) * st))
  | _, _ => [0]

/-- The virtual addresses of the elements in stream order. -/
def Trav.elems (t : Trav) : List Nat := (elemOffsets t.ext t.stride).map (fun o => ((t.base : Int) + o).toNat)

/-- Stream length in bytes. -/
def Trav.len (t : Trav) : Nat := t.ext.foldl (fun n e => n * e) t.esz

/-- Offset of element number `k`. -/
def elemOffset : List Nat → List Int → Nat → Int
  | e :: es, st :: ss, k => ((k % e : Nat) : Int) * st + elemOffset es ss (k / e)
  | _, _, _ => 0

/-- Virtual address of the byte at stream offset `o`. -/
def Trav.byteVa (t : Trav) (o : Nat) : Nat := ((t.base : Int) + elemOffset t.ext t.stride (o / t.esz)).toNat + o % t.esz

/-- Extremes of the element offsets. -/
def spanLow (t : Trav) : Int := (t.ext.zip t.stride).foldl (fun n e => n + min 0 (((e.1 : Int) - 1) * e.2)) 0
def spanHigh (t : Trav) : Int := (t.ext.zip t.stride).foldl (fun n e => n + max 0 (((e.1 : Int) - 1) * e.2)) 0

/-- Reads a traverse record (Table 15.1); none when it is malformed. -/
def parseTrav (ds : List DWord) : Option Trav :=
  let d (i : Nat) := ds.getD i 0#64
  let nd := dfield (d 0) 60 2 + 1
  let esz := 2 ^ dfield (d 0) 57 3
  let base := dfield (d 0) 0 57
  let ext (i : Nat) := dfield (d 1) (16 * i) 16
  let stride (i : Nat) := dfield (d (2 + i / 2)) (32 * (i % 2)) 32
  let unused := (List.range 4).any (fun i => decide (nd ≤ i) && (decide (ext i ≠ 0) || decide (stride i ≠ 0)))
  let t : Trav :=
    { base := base, esz := esz, ext := (List.range nd).map (fun i => ext i + 1),
      stride := (List.range nd).map (fun i => intVal true 32 (stride i)) }
  if dfield (d 0) 62 2 ≠ 0 ∨ 4 < dfield (d 0) 57 3 ∨ base % esz ≠ 0 ∨ unused = true ∨ (base : Int) + spanLow t < 0 ∨
      (2 ^ 57 : Int) < base + spanHigh t + esz then none
  else some t

/-! ### Claim descriptors (R277) -/

def claimKindOf (n : Nat) : Option ClaimKind :=
  match n with
  | 0 => some .copy | 1 => some .request | 2 => some .push | 3 => some .multicast | 4 => some .reduce | 5 => some .gate
  | _ => none

/-- Reads a claim descriptor (Table 15.2); none when it is malformed. -/
def parseDesc (ds : List DWord) : Option RawDesc :=
  let d (i : Nat) := ds.getD i 0#64
  let d0 := d 0
  match claimKindOf (dfield d0 0 4) with
  | none => none
  | some k =>
    let cbuf := d0.getLsbD 7
    let routed := decide (k = .multicast) || decide (k = .gate)
    let peered := decide (k = .request) || decide (k = .push)
    let bark := dfield d0 16 2
    let bar := dfield d0 12 4
    let rop := dfield d0 24 4
    let strav := dfield (d 1) 0 57
    let dtrav := dfield (d 2) 0 57
    if (ds.drop 3).any (fun x => decide (x ≠ 0#64)) = true ∨ dfield (d 2) 57 7 ≠ 0 ∨ dfield (d 1) 57 7 ≠ 0 ∨
        dtrav % 32 ≠ 0 ∨ (cbuf = true ∧ dtrav ≠ 0) ∨ strav % 32 ≠ 0 ∨ (routed = false ∧ dfield d0 48 16 ≠ 0) ∨
        dfield d0 41 7 ≠ 0 ∨ (peered = false ∧ dfield d0 32 9 ≠ 0) ∨ dfield d0 28 4 ≠ 0 ∨ 3 < rop ∨
        (k ≠ .reduce ∧ rop ≠ 0) ∨ dfield d0 18 6 ≠ 0 ∨ bark = 3 ∨ (bark = 2 ∧ 7 < bar) ∨ (bark = 0 ∧ bar ≠ 0) ∨
        (cbuf = true ∧ k ≠ .copy ∧ k ≠ .request) ∨ (k = .request ∧ cbuf = false) ∨ dfield d0 4 3 = 0 then none
    else some
      { kind := k, scope := Decode.mscopeOf (BitVec.ofNat 3 (dfield d0 4 3)), cbuf := cbuf, comp := dfield d0 8 4,
        bark := bark, bar := bar, rop := rop, peer := dfield d0 32 9, route := dfield d0 48 16, strav := strav, dtrav := dtrav }

/-! ### Visiting pages (R278, R279) -/

/-- Where a walk stands: it has come so far, it waits for a page, it ends in a trap or at a limit, or it has read poison. -/
inductive WalkAt where
  | go (a : Walked)
  | wait (a : Walked) (va : Nat) (write : Bool) (want : Option Nat)
  /-- the claim is left Free (IllegalOperand) or Faulted -/
  | trap (k : TrapKind) (eaddr : Nat)
  | limit (st : ClaimStatus)
  | poison
  deriving DecidableEq, Repr

/-- A walk goes on from where it stands. -/
def walkOn (r : State × WalkAt) (f : State → Walked → State × WalkAt) : State × WalkAt :=
  match r.2 with
  | .go a => f r.1 a
  | x => (r.1, x)

/-- The agent of a walk: its node, core and name. -/
structure Walker where
  n : Node
  core : Nat
  who : Requester
  deriving DecidableEq, Repr

/-- One page of a walk, which must have the compartment `want`, where it must have one (R228): from the pages visited, or from the
cached translations. -/
def State.visit (s : State) (w : Walker) (seen : List Seen) (va : Nat) (write : Bool) (want : Option Nat) :
    Option (List Seen × Seen) × Option TrapKind :=
  match seen.find? (fun e => decide (e.vpage = va / 65536) && (e.write == write)) with
  | some e => (some (seen, e), none)
  | none =>
    if va / 65536 = paramPage then (none, some .protection)
    else if s.denied.any (fun d => decide (d.who = w.who) && decide (d.vpage = va / 65536)) then (none, some .protection)
    else match s.tlbFind (s.dieFor w.core w.n.world) w.n.world (va / 65536) with
      | none => (none, none)
      | some t =>
        if want.isSome ∧ want ≠ some t.attr.comp then (none, some .protection)
        else if write ∧ (¬ t.attr.w ∨ ¬ t.dirty) then (none, none)
        else
          let e : Seen := { vpage := va / 65536, gpage := t.gpage, write := write, ppage := t.ppage, attr := t.attr }
          (some (e :: seen, e), none)

/-- Adds the bytes from `lo` up to `hi`, in a visited page, to the extents (R278): they continue the latest run, at
either end or inside it, or begin one. -/
def addPage (e : Seen) (dst : Bool) (lo hi : Nat) : List Extent → List Extent
  | [] => [{ vpage := e.vpage, pages := 1, ppage := e.ppage, attr := e.attr, lo := lo, hi := hi, dst := dst, dir := 0 }]
  | y :: r =>
    let x : Extent := { y with lo := min y.lo lo, hi := max y.hi hi }
    if x.dst = dst ∧ x.attr = e.attr ∧ (x.ppage : Int) - x.vpage = (e.ppage : Int) - e.vpage ∧
        x.vpage ≤ e.vpage + 1 ∧ e.vpage ≤ x.vpage + x.pages then
      if e.vpage + 1 = x.vpage then { x with vpage := e.vpage, ppage := e.ppage, pages := x.pages + 1 } :: r
      else if e.vpage = x.vpage + x.pages then { x with pages := x.pages + 1 } :: r
      else x :: r
    else { vpage := e.vpage, pages := 1, ppage := e.ppage, attr := e.attr, lo := lo, hi := hi, dst := dst, dir := 0 } :: y :: r

/-- The bytes of an element in one page: the first address, the address past the last, and the element's own. -/
structure Piece where
  lo : Nat
  hi : Nat
  elem : Nat
  deriving DecidableEq, Repr

/-- What a walk checks of a page and of an element, in the order of R278: the compartment that the page must have, or a failure of
the gate's record; the element's bounds (R373); the page's package, attributes and route; and a failure of the claim's group. The
failures that are the descriptor's carry its address. -/
structure WalkCheck where
  want : Option Nat
  gate : Option (TrapKind × Nat)
  elem : Nat → Bool
  page : Nat → Attr → Option TrapKind
  group : Option (TrapKind × Nat)

/-- The failure of a piece of an element whose page has been visited, and its address. -/
def WalkCheck.fails (chk : WalkCheck) (e : Seen) (p : Piece) : Option (TrapKind × Nat) :=
  if chk.gate.isSome then chk.gate
  else if chk.elem p.elem = false then some (.protection, p.elem)
  else match chk.page (inPage e.ppage p.lo) e.attr with
    | some k => some (k, p.lo)
    | none => chk.group

/-- A page that has been visited is recorded (R278). -/
def Walked.add (a : Walked) (seen : List Seen) (e : Seen) (dst : Bool) (p : Piece) : Walked :=
  let old := a.pages.contains e.vpage
  { a with
    done := a.done + 1, seen := seen, exts := addPage e dst p.lo p.hi a.exts
    pages := if old then a.pages else e.vpage :: a.pages
    gpages := if old then a.gpages else e.gpage :: a.gpages }

/-- A walk visits the bytes of an element in one page and checks them. -/
def State.walkPage (s : State) (w : Walker) (chk : Bool → WalkCheck) (at_ : WalkAt) (q : Bool × Piece) : WalkAt :=
  match at_ with
  | .go a =>
    match s.visit w a.seen q.2.lo q.1 (chk q.1).want with
    | (_, some k) => .trap k q.2.lo
    | (none, none) => .wait a q.2.lo q.1 (chk q.1).want
    | (some r, none) =>
      match (chk q.1).fails r.2 q.2 with
      | some x => .trap x.1 x.2
      | none =>
        let b := a.add r.1 r.2 q.1 q.2
        if 256 < b.exts.length then .limit .fragmented
        else if 65536 < b.pages.length then .limit .full
        else .go b
  | x => x

/-- The bytes of the elements, in stream order, cut at page edges. -/
def Trav.pieces (t : Trav) : List Piece :=
  t.elems.flatMap (fun a =>
    let edge := (a + t.esz - 1) / 65536 * 65536
    if a / 65536 = (a + t.esz - 1) / 65536 then [⟨a, a + t.esz, a⟩] else [⟨a, edge, a⟩, ⟨edge, a + t.esz, a⟩])

/-- The walk visits the pieces that its counter has not passed. -/
def State.walkPieces (s : State) (w : Walker) (chk : Bool → WalkCheck) (ps : List (Bool × Piece)) (a : Walked) : WalkAt :=
  (ps.drop a.done).foldl (s.walkPage w chk) (.go a)

/-- Where an address performs for an engine. -/
def State.enginePlace (s : State) (attr : Attr) (hpa : Nat) : Place := s.placeOf ⟨hpa, attr, none, false⟩

/-- The checks of a page against its package, compartment and route (R278, R243): `pkg` is the package it must be in. -/
def State.pageCheck (s : State) (n : Node) (comp : Nat) (dst : Bool) (pkg : Option Nat) (hpa : Nat) (attr : Attr) :
    Option TrapKind :=
  let p := if attr.home = 1#2 then s.pkgid.toNat else pkgOf hpa
  if attr.comp ≠ comp then some .protection
  else if pkg.isSome ∧ pkg ≠ some p then some .protection
  else if dst = true ∧ attr.s = true then some .stableWrite
  else match s.reach n.part n.world attr.home hpa with
    | some k => some k
    | none => if s.enginePlace attr hpa = .register then some .protection else none

/-- A page that the claim walker or the flow engine itself reads or writes. The pinned carve-out is reached by loads, stores, atomics
and reductions only (R180): Protection, DESIGN CHOICE (log entry 65), since the spec names no outcome. -/
def State.engineCheck (s : State) (n : Node) (comp : Nat) (dst : Bool) (pkg : Option Nat) (hpa : Nat) (attr : Attr) :
    Option TrapKind :=
  match s.pageCheck n comp dst pkg hpa attr with
  | some k => some k
  | none => if attr.home = 1#2 then some .protection else none

/-- A walk reads a record of `len` bytes that lies in one page, and `take` says what it gives. -/
def State.readRecord (s : State) (w : Walker) (va len : Nat) (take : List DWord → Walked → WalkAt) (a : Walked) : State × WalkAt :=
  match s.visit w a.seen va false (some w.n.desc.comp) with
  | (_, some k) => (s, .trap k va)
  | (none, none) => (s, .wait a va false (some w.n.desc.comp))
  | (some r, none) =>
    let hpa := inPage r.2.ppage va
    match s.engineCheck w.n w.n.desc.comp false none hpa r.2.attr with
    | some k => (s, .trap k va)
    | none =>
      if (isDram hpa && s.tagClash w.n.gcomp hpa) = true then (s, .trap .protection va)
      else
        let b := s.readLoc w.n w.n.gcomp (s.enginePlace r.2.attr hpa) false hpa va len r.2.attr.home
        (b.2.2, if b.2.1 then .poison else take (dwordsOf b.1) { a with seen := r.1 })

/-- Reads the traverse record at `va`, unless the walk has it: `put` keeps it. -/
def State.readTrav (s : State) (w : Walker) (va : Nat) (got : Option Trav) (put : Trav → Walked → Walked) (a : Walked) :
    State × WalkAt :=
  if got.isSome then (s, .go a)
  else s.readRecord w va 32 (fun ds a => match parseTrav ds with
    | none => .trap .illegalOperand va
    | some t => .go (put t a)) a

/-! ### The walk of a claim (R278, R279, R373) -/

/-- The multicast entry of a group (R318). -/
def Mcast.reset : Mcast := { head := 0, peers := 0, staged := 0, resv := 0 }
def State.mcastEntry (s : State) (g : Nat) : Mcast := Tbl.get Mcast.reset s.mcast g
def Mcast.valid (m : Mcast) : Bool := m.head.getLsbD 0 && decide (m.peers ≠ 0#512)
def Mcast.owner (m : Mcast) : Nat := dfield m.head 8 4

/-- A node's partition may reach a package (R305). -/
def State.mayReach (s : State) (n : Node) (pkg : Nat) : Bool :=
  decide (pkg = s.pkgid.toNat) || (Tbl.get 0#512 s.drmask (s.part n.part).peersIx).getLsbD pkg

/-- The packages of a multicast group. -/
def State.mcastPeers (s : State) (group : Nat) : List Nat := (List.range 512).filter (fun p => (s.mcastEntry group).peers.getLsbD p)

/-- The group of a multicast claim exists, and every package of it is one that the partition may reach (R278, R305). -/
def State.groupOk (s : State) (n : Node) (group : Nat) : Bool :=
  decide (group < 4096) && (s.mcastEntry group).valid && decide ((s.mcastEntry group).owner = n.part) &&
    (s.mcastPeers group).all (s.mayReach n)

def GateRec.valid (g : GateRec) : Bool := g.flags.getLsbD 2
def GateRec.oneShot (g : GateRec) : Bool := g.flags.getLsbD 1
def GateRec.boundsDst (g : GateRec) : Bool := g.flags.getLsbD 0

/-- The gate record of a gate claim, when its checks on the record pass (R373). -/
def State.gateOf (s : State) (n : Node) (d : RawDesc) : Option GateRec :=
  match Tbl.find? (s.world n.world).gates d.route with
  | none => none
  | some g => if GateRec.valid g && (decide (n.desc.comp = g.srcc) || decide (n.desc.comp = g.dstc)) then some g else none

/-- An element lies within an element of the gate's traverse (R373). -/
def gateBounds (g : GateRec) (esz a : Nat) : Bool :=
  match parseTrav g.trav with
  | none => false
  | some b => b.elems.any (fun x => decide (x ≤ a) && decide (a + esz ≤ x + b.esz))

/-- The local package, which a source or destination of most kinds must be in (Table 15.3). -/
def State.ownPkg (s : State) : Option Nat := some s.pkgid.toNat

/-- The checks of a claim's pages, by traverse: source, or destination and acknowledgement area. The pages of a gate claim and the
acknowledgement area of a multicast, for which Table 15.3 names no package, must be in this one: DESIGN CHOICE (log entry 76). -/
def State.claimCheck (s : State) (w : Walker) (addr : Nat) (d : RawDesc) (esz : Nat) (dst : Bool) : WalkCheck :=
  let gate := if d.kind = .gate then s.gateOf w.n d else none
  let comp := match gate with
    | some g => if dst then g.dstc else g.srcc
    | none => w.n.desc.comp
  let lost := decide (d.kind = .gate) && gate.isNone
  let pkg := match d.kind, dst with
    | .request, false => some d.peer
    | .push, true => some d.peer
    | .reduce, true => none
    | _, _ => s.ownPkg
  { want := if lost then none else some comp
    gate := if lost then some (.protection, addr) else none
    elem := fun a => match gate with
      | some g => GateRec.boundsDst g != dst || gateBounds g esz a
      | none => true
    page := s.engineCheck w.n comp dst pkg
    group := if d.kind = .multicast ∧ s.groupOk w.n d.route = false then some (.routeFault, addr) else none }

/-- What a claim's walk visits: the source, then the destination, or for a multicast its acknowledgement area (R277). -/
def claimPieces (addr : Nat) (d : RawDesc) (src : Trav) (dst : Option Trav) : List (Bool × Piece) :=
  let ps : List Piece := match d.kind, dst with
    | .multicast, _ => [⟨addr + 64, addr + 65, addr + 64⟩, ⟨addr + 135, addr + 136, addr + 64⟩]
    | _, some t => t.pieces
    | _, none => []
  src.pieces.map (fun p => (false, p)) ++ ps.map (fun p => (true, p))

/-- Reads the descriptor at `addr`, unless the walk has it; `hasBuf` when the claim has a circular buffer. -/
def State.readDesc (s : State) (w : Walker) (addr : Nat) (hasBuf : Bool) (a : Walked) : State × WalkAt :=
  if a.desc.isSome then (s, .go a)
  else s.readRecord w addr 64 (fun ds a => match parseDesc ds with
    | none => .trap .illegalOperand addr
    | some d =>
      if d.cbuf = true ∧ hasBuf = false then .trap .illegalOperand addr
      else if d.kind ≠ .gate ∧ d.comp ≠ w.n.desc.comp then .trap .protection addr
      else .go { a with desc := some d }) a

/-- Walks the elements, once the records are read, each page with the checks of `State.claimCheck` (log entry 76). -/
def State.walkElems (s : State) (w : Walker) (addr : Nat) (a : Walked) : WalkAt :=
  match a.desc, a.src with
  | some d, some src =>
    if a.dst.any (fun t => decide (src.esz ≠ t.esz) || (decide (d.kind = .reduce) && decide (src.esz ≠ 4))) = true then
      .trap .illegalOperand addr
    else s.walkPieces w (s.claimCheck w addr d src.esz) (claimPieces addr d src a.dst) a
  | _, _ => .go a

/-- The walk of a team's claim with its descriptor at `addr`, from where it stands (R278): the descriptor, the traverse records, and
the pages of every element. -/
def State.walkClaim (s : State) (w : Walker) (addr : Nat) (hasBuf : Bool) (a : Walked) : State × WalkAt :=
  walkOn (s.readDesc w addr hasBuf a) fun s a =>
    match a.desc with
    | none => (s, .go a)
    | some d =>
      walkOn (s.readTrav w d.strav a.src (fun t a => { a with src := some t }) a) fun s a =>
        walkOn (if d.cbuf then (s, .go a) else s.readTrav w d.dtrav a.dst (fun t a => { a with dst := some t }) a) fun s a =>
          (s, s.walkElems w addr a)

/-- The descriptor of a claim whose walk has ended. -/
def Walked.claimDesc (a : Walked) : Option ClaimDesc :=
  match a.desc, a.src with
  | some d, some src => some
      { kind := d.kind, scope := d.scope, cbuf := d.cbuf, comp := d.comp, bark := d.bark, bar := d.bar, rop := d.rop,
        peer := d.peer, route := d.route, src := src, dst := a.dst.getD { base := 0, esz := src.esz, ext := [], stride := [] } }
  | _, _ => none

/-! ### Claims of a team -/

def Claim.free : Claim :=
  { state := .free, status := .ok, cause := 0, descAddr := 0, desc := none, extents := [], gpages := [], walk := .start, walker := none,
    outcome := .none, reserved := false, flows := 0, deferred := 0, eaddr := 0, buf := none }

def Team.claim (t : Team) (c : Nat) : Claim := Tbl.get Claim.free t.claims c

def State.modClaim (s : State) (t c : Nat) (f : Claim → Claim) : State :=
  s.modTeam t (fun x => { x with claims := Tbl.set Claim.free x.claims c (f (x.claim c)) })

/-- Claim `c` is a node claim (R275): operand `c` is declared. -/
def Node.isClaim (n : Node) (c : Nat) : Bool := decide ((n.desc.operands.getD c (0, 0)).2 ≠ 0)

/-- The claim that a number names. -/
def claimOf (n : Node) (t : Team) (c : Nat) : Claim := if n.isClaim c then Tbl.get Claim.free n.claims c else t.claim c

def ClaimState.code : ClaimState → Nat
  | .free => 0 | .walking => 1 | .held => 2 | .flowing => 3 | .dormant => 4 | .revoked => 5 | .faulted => 6

def ClaimStatus.code : ClaimStatus → Nat
  | .ok => 0 | .fragmented => 1 | .full => 2 | .severed => 3

/-- The effect of `crel` (R296): the buffer's configuration and counters stay. -/
def Claim.release (c : Claim) : Claim := { Claim.free with buf := c.buf, status := c.status }

/-- A `crel` (Table 15.6). The `claim` of a walk that it abandons, or whose end is not taken up yet, still completes: with the status
word of the walk's end, or Ok and no extent, DESIGN CHOICE (log entry 71). -/
def Claim.letGo (c : Claim) : Claim :=
  { c.release with
    walker := c.walker
    outcome := if c.walker.isSome ∧ c.outcome = .none then .done 0 else c.outcome }

/-- The walk of a team's claim comes to an end, or asks for the next page (CLAIM_WALK_END, R279). -/
def State.stepClaimWalk (s : State) (t : Team) (n : Node) (c : Nat) : State :=
  let cl := t.claim c
  let w : Walker := { n := n, core := t.core, who := .claim t.id c }
  let drop (st : State) : State := st.dropWalks (fun r => decide (r = .claim t.id c))
  let r := s.walkClaim w cl.descAddr cl.buf.isSome cl.walk
  match r.2 with
  | .wait a va wr want =>
    (r.1.modClaim t.id c (fun x => { x with walk := a })).askWalkFor want (.claim t.id c) n.world n.desc.comp t.core va
      (if wr then .write else .read)
  | .poison => r.1.consume n.id .uncorrectable
  | .trap k e =>
    let ea := BitVec.ofNat 64 e
    drop (r.1.modClaim t.id c (fun x =>
      { x.release with
        state := if k = .illegalOperand then .free else .faulted, eaddr := ea, descAddr := x.descAddr,
        walker := x.walker, outcome := .trap k ea }))
  | .limit st =>
    drop (r.1.modClaim t.id c (fun x => { x.release with status := st, walker := x.walker, outcome := .done st.code }))
  | .go a =>
    drop (r.1.modClaim t.id c (fun x =>
      { x with state := .held, status := .ok, cause := 0, desc := a.claimDesc, extents := a.exts.reverse, gpages := a.gpages,
               walk := .start, reserved := true, outcome := .done (16 * a.exts.length) }))

/-- CLAIM_WALK_END (R279, Table 15.4). -/
def execClaimWalkEnd (team claim : Nat) (s : State) : Out :=
  match s.team? team with
  | none => .next s
  | some t => match s.node? t.node with
    | none => .next s
    | some n =>
      if (t.claim claim).state = .walking ∧ s.stopsNode n = false ∧ n.ending = none ∧ t.phase = .placed then
        .next (s.stepClaimWalk t n claim)
      else .next s

/-! ### Revocation (R281) -/

/-- A claim as a cause leaves it: a Flowing one defers it. -/
def Claim.revoke (c : Claim) (cause : Nat) : Claim :=
  match c.state with
  | .held | .dormant =>
    { c with state := .revoked, cause := cause, extents := [], gpages := [], desc := c.desc, reserved := false, walk := .start }
  | .flowing => { c with deferred := if c.deferred = 0 then cause else c.deferred }
  | _ => c

/-- Revokes the team claims and node claims that `p` gives; a node claim's extents are dropped (R240). -/
def State.revokeClaims (s : State) (p : Node → Claim → Bool) (cause : Nat) : State :=
  let s1 : State := { s with teams := s.teams.map (fun t => match s.node? t.node with
    | none => t
    | some n => { t with claims := t.claims.map (fun e => (e.1, if p n e.2 then e.2.revoke cause else e.2)) }) }
  s.nodes.foldl (fun st n =>
    let hit : List (Nat × Claim) := n.claims.filter (fun e => p n e.2 && decide (e.2.state = .held ∨ e.2.state = .dormant))
    if hit = [] then st
    else st.modNode n.id (fun x =>
      { x with
        claims := x.claims.map (fun e => (e.1, if p n e.2 then e.2.revoke cause else e.2))
        extents := x.extents.filter (fun e => !(hit.any (fun h => h.2.extents.contains e))) })) s1

/-! ### The claim instructions (R292 to R299) -/

/-- A claim instruction that a node claim refuses (R275). -/
def claimOp (f : FmtE) (n : Node) : Option TrapKind := if n.isClaim (objOf f) then some .illegalOperand else none

/-- The virtual address that an engine operand gives, with OFFSET 0 (R250, R294). -/
def engAddr (f : FmtE) (t : Team) (v : Nat) : Nat := if f.flags.getLsbD 0 then v else (t.mwin.toNat + v) % 2 ^ 64

/-- The address operand: a pair with `.a64`. -/
def engAddrSrc (f : FmtE) : Src :=
  if f.flags.getLsbD 0 then { field := f.opa, words := 2, ty := .n64 } else engSrc f.opa

/-- `claim` (R294): its first issue begins the walk, and the strand is not ready until CLAIM_WALK_END has ended it. -/
def execClaim (c : Common) (f : FmtE) (s : State) : Out :=
  EOp.exec
    { v := engRegs c f [engAddrSrc f], extra := claimOp f,
      run := fun x vs s =>
        let o := objOf f
        let cl := x.team.claim o
        let me := ((x.members.head?.map (fun m => m.g)).getD 0, x.addr)
        if cl.walker = some me then
          match cl.outcome with
          | .none => .stall .walk s
          | .trap k e => .trapIn (s.modClaim x.team.id o (fun y => { y with walker := none, outcome := .none })) k e
          | .done word => .done (s.modClaim x.team.id o (fun y => { y with walker := none, outcome := .none })) (fun _ _ => word)
        else if cl.walker.isSome ∨ cl.state = .walking ∨ cl.state = .flowing then .stall .wait s
        else
          let va := engAddr f x.team (vs.headD 0)
          if va % 64 ≠ 0 then .trap .misaligned (BitVec.ofNat 64 va)
          else if 2 ^ 57 ≤ va then .trap .protection (BitVec.ofNat 64 va)
          else .stall .walk (s.modClaim x.team.id o (fun y =>
            { y.release with state := .walking, status := .ok, descAddr := va, walker := some me })) } s

/-- Flows in flight on a team's claim. -/
def State.flowsOn (s : State) (t c : Nat) : List Flow := s.flows.filter (fun x => decide (x.team = t) && decide (x.claim = c))

/-- An acquire at a claim's scope: wide scopes empty the L1 (R244, R286). -/
def Claim.acquire (cl : Claim) (core : Nat) (s : State) : State :=
  match cl.desc with
  | some d => if scopeWide d.scope then s.dropL1 core else s
  | none => s

/-- The id below which flows were issued before a `cwait` reached its instruction. -/
def Ctx.flowMark (x : Ctx) (s : State) : Nat :=
  match x.members with
  | [] => s.nextId
  | m :: _ => match (x.group m).strands.findSome? (fun st =>
      if st.quads &&& m.quads ≠ 0#8 then (match st.hold with
        | .flows u => some u
        | _ => none) else none) with
    | some u => u
    | none => s.nextId

/-- `cwait` (R296). -/
def execCwait (c : Common) (f : FmtE) (s : State) : Out :=
  EOp.exec
    { v := engRegs c f [],
      run := fun x _ s =>
        let u := x.flowMark s
        if x.node.isClaim (objOf f) = false ∧ (s.flowsOn x.team.id (objOf f)).any (fun w => decide (w.id < u)) = true then
          .stall (.flows u) s
        else .done ((claimOf x.node x.team (objOf f)).acquire x.team.core s) noVal } s

/-- `crel` (R296). -/
def execCrel (c : Common) (f : FmtE) (s : State) : Out :=
  EOp.exec
    { v := engRegs c f [], extra := claimOp f,
      run := fun x _ s =>
        let o := objOf f
        let cl := x.team.claim o
        if cl.state = .free then .done s noVal
        else if s.flowsOn x.team.id o ≠ [] then .stall .wait s
        else .done ((s.modClaim x.team.id o Claim.letGo).dropWalks (fun r => decide (r = .claim x.team.id o))) noVal } s

/-- The word of `cstat` (R297). -/
def cstatWord (cl : Claim) (cb : Bool) : Nat :=
  if cb then match cl.buf with
    | none => 0
    | some b => b.free + 2 ^ 8 * b.filled + 2 ^ 16 * b.inflight + 2 ^ 24 * b.taken
  else cl.state.code + 2 ^ 4 * cl.status.code + 2 ^ 8 * cl.cause + 2 ^ 16 * cl.flows

/-- `cstat` (R297). -/
def execCstat (c : Common) (f : FmtE) (s : State) : Out :=
  EOp.exec
    { v := engRegs c f [],
      run := fun x _ s => .done s (fun _ _ => cstatWord (claimOf x.node x.team (objOf f)) (f.flags.getLsbD 0)) } s

/-- `cbset` (R298). -/
def execCbset (c : Common) (f : FmtE) (s : State) : Out :=
  EOp.exec
    { v := engRegs c f [engSrc f.opa, engSrc f.opb, engSrc f.opc], extra := claimOp f,
      run := fun x vs s =>
        let o := objOf f
        let cl := x.team.claim o
        let base := vs.getD 0 0
        let size := vs.getD 1 0
        let count := vs.getD 2 0
        match x.recorded .cbset o with
        | some l => .done (s.noteDone x .cbset o 0 (some l)) noVal
        | none =>
          if (cl.state ≠ .free ∧ cl.state ≠ .revoked ∧ cl.state ≠ .faulted) ∨ base % 32 ≠ 0 ∨ size % 32 ≠ 0 ∨ size = 0 ∨
              1048576 < size ∨ 64 < count ∨ x.node.desc.scratch < base + size * count then .trap .illegalOperand 0
          else
            let b : CBuf :=
              { base := base, size := size, count := count, free := count, inflight := 0, filled := 0, taken := 0,
                head := 0, tail := 0 }
            let nb := if count = 0 then none else some b
            .done ((s.modClaim x.team.id o (fun y => { y with buf := nb })).noteDone x .cbset o 0 none) noVal } s

/-- `cbtake` (R299, R291): acquires at the claim's scope. -/
def execCbtake (c : Common) (f : FmtE) (s : State) : Out :=
  EOp.exec
    { v := engRegs c f [], extra := claimOp f,
      run := fun x _ s =>
        let o := objOf f
        let cl := x.team.claim o
        match x.recorded .cbtake o with
        | some l => .done (cl.acquire x.team.core (s.noteDone x .cbtake o 0 (some l))) (fun _ _ => recordSlot l)
        | none =>
          match cl.buf with
          | none => .trap .illegalOperand 0
          | some b =>
            if b.filled = 0 then .stall .wait s
            else
              let a := b.base + b.tail * b.size
              let b1 : CBuf := { b with filled := b.filled - 1, taken := b.taken + 1, tail := (b.tail + 1) % b.count }
              let s1 := s.modClaim x.team.id o (fun y => { y with buf := some b1 })
              .done (cl.acquire x.team.core (s1.noteDone x .cbtake o a none)) (fun _ _ => a) } s

/-- `cbgive` (R299, R291): returns the oldest taken slot. -/
def execCbgive (c : Common) (f : FmtE) (s : State) : Out :=
  EOp.exec
    { v := engRegs c f [], extra := claimOp f,
      run := fun x _ s =>
        let o := objOf f
        match x.recorded .cbgive o with
        | some l => .done (s.noteDone x .cbgive o 0 (some l)) noVal
        | none =>
          match (x.team.claim o).buf with
          | none => .trap .illegalOperand 0
          | some b =>
            if b.taken = 0 then .trap .illegalOperand 0
            else
              let a := b.base + (b.tail + b.count - b.taken) % b.count * b.size
              let b1 : CBuf := { b with taken := b.taken - 1, free := b.free + 1 }
              .done ((s.modClaim x.team.id o (fun y => { y with buf := some b1 })).noteDone x .cbgive o a none) noVal } s

end Sys2Proof.Machine
end

