-- ==== Sys2Proof/Machine/Matrix.lean ====
section
/-! DEFINITION. The operand buffer, the accumulator banks, the matrix unit and the broadcast bus
(spec/10_local_memory.md R188 to R196; spec/11_matrix.md R197 to R221). -/

namespace Sys2Proof.Machine

open Sys2Proof

/-! ### Reservations and banks (R188 to R195) -/

/-- Teams that hold a place on a core. -/
def State.teamsOn (s : State) (core : Nat) : List Team :=
  s.teams.filter (fun t => decide (t.core = core) && (decide (t.phase = .placed) || decide (t.phase = .stopping)))

def State.banksUsed (s : State) (core : Nat) : Nat := (s.teamsOn core).foldl (fun n t => n + t.banks.length) 0
def State.obsUsed (s : State) (core : Nat) : Nat := (s.teamsOn core).foldl (fun n t => n + t.obs.length) 0

/-- A strand of the team waits in `aalloc` (or in `obres`). -/
def Team.waitsRes (t : Team) (bank : Bool) : Bool :=
  t.groups.any (fun g => g.strands.any (fun st => decide (st.hold = .resource bank)))

/-- An older team of the core waits for a resource of the kind (R195). -/
def State.olderWaits (s : State) (t : Team) (bank : Bool) : Bool :=
  (s.teamsOn t.core).any (fun u => decide (u.age < t.age) && u.waitsRes bank)

/-- Every bank of the core is held, or every record. -/
def State.allHeld (s : State) (core : Nat) (bank : Bool) : Bool :=
  decide (16 ≤ if bank then s.banksUsed core else s.obsUsed core)

/-- The operations of a team on a bank. -/
def State.bankOps (s : State) (t : Team) (bank : Nat) : List MatOp :=
  (s.core t.core).matq.filter (fun o => decide (o.team = t.id) && decide (o.bank = bank))

/-- `aalloc` (R194): the bank is cleared to +0. -/
def execAalloc (c : Common) (f : FmtE) (s : State) : Out :=
  EOp.exec
    { v := engRegs c f [], extra := fun n => if objOf f < n.desc.banks then none else some .illegalOperand,
      run := fun x _ s =>
        let o := objOf f
        match x.recorded .aalloc o with
        | some l => .done (s.noteDone x .aalloc o 0 (some l)) noVal
        | none =>
          if (Tbl.find? x.team.banks o).isSome then .trap .illegalOperand 0
          else if 16 ≤ s.banksUsed x.team.core ∨ s.olderWaits x.team true = true then .stall (.resource true) s
          else .done ((s.modTeam x.team.id (fun t => { t with banks := Tbl.put t.banks o { data := [], perturb := none } })).noteDone
            x .aalloc o 0 none) noVal } s

/-- `afree` (R194). -/
def execAfree (c : Common) (f : FmtE) (s : State) : Out :=
  EOp.exec
    { v := engRegs c f [],
      run := fun x _ s =>
        if (Tbl.find? x.team.banks (objOf f)).isNone then .trap .illegalOperand 0
        else if s.bankOps x.team (objOf f) ≠ [] then .stall .wait s
        else .done (s.modTeam x.team.id (fun t => { t with banks := Tbl.del t.banks (objOf f) })) noVal } s

/-- The limits of Table 10.5 and R191. -/
def obresOk (n : Node) (t : Team) (r : Reservation) : Bool :=
  decide (r.base % 65536 = 0) && decide (r.len % 128 = 0) && decide (128 ≤ r.len) &&
  decide (r.base + r.len ≤ n.desc.scratch) && decide (r.scaleOff % 32 = 0) && decide (r.scaleOff < r.len) &&
  t.obs.all (fun e => decide (e.2.base + e.2.len ≤ r.base) || decide (r.base + r.len ≤ e.2.base)) &&
  (!r.bcast || (n.desc.bcast && decide (t.rank = t.lead)))

/-- `obres` (R190, R191). -/
def execObres (c : Common) (f : FmtE) (s : State) : Out :=
  EOp.exec
    { v := engRegs c f [engSrc f.opa, engSrc f.opb, engSrc f.opc],
      run := fun x vs s =>
        let o := objOf f
        let r : Reservation :=
          { base := vs.getD 0 0, len := vs.getD 1 0, fmt := Decode.tyOf (f.flags.setWidth 4), scaleOff := vs.getD 2 0,
            nk := f.flags.getLsbD 4, bcast := f.flags.getLsbD 6 }
        match x.recorded .obres o with
        | some l => .done (s.noteDone x .obres o 0 (some l)) noVal
        | none =>
          if (Tbl.find? x.team.obs o).isSome ∨ obresOk x.node x.team r = false then .trap .illegalOperand 0
          else if 16 ≤ s.obsUsed x.team.core ∨ s.olderWaits x.team false = true then .stall (.resource false) s
          else .done ((s.modTeam x.team.id (fun t => { t with obs := Tbl.put t.obs o r })).noteDone x .obres o 0 none) noVal } s

/-- An `mma` that reads the reservation `ob` of the team has not consumed its operands (R192). -/
def State.obBusy (s : State) (t : Nat) (ob : Nat) : Bool :=
  s.cores.any (fun c => c.2.matq.any (fun o => !o.consumed && (match o.kind with
    | .mma _ _ src b _ _ => decide (src = t) && decide (b = ob)
    | _ => false)))

/-- `obrel` (R192). -/
def execObrel (c : Common) (f : FmtE) (s : State) : Out :=
  EOp.exec
    { v := engRegs c f [],
      run := fun x _ s =>
        if (Tbl.find? x.team.obs (objOf f)).isNone then .trap .illegalOperand 0
        else if s.obBusy x.team.id (objOf f) then .stall .wait s
        else .done (s.modTeam x.team.id (fun t => { t with obs := Tbl.del t.obs (objOf f) })) noVal } s

/-! ### Members, formats and elements (R197 to R200) -/

/-- The members of R197: four groups with four values of %grp mod 4. -/
def quadMembers (n : Node) (sc : Scope) : Bool :=
  let gs := match sc with
    | .set k => (List.range n.groupCount).filter (fun i => (n.desc.sets.getD k.toNat 0#32).getLsbD i)
    | _ => List.range n.groupCount
  decide (gs.length = 4) && decide ((gs.map (fun g => g % 4)).Nodup)

/-- K per tile, K-blocks, and whether scales apply (Table 11.1). -/
def tileK (afmt : ElemTy) : Nat := match afmt with
  | .e2m1 => 128
  | .f16 | .bf16 => 32
  | _ => 64
def tileBlocks (afmt : ElemTy) : Nat := tileK afmt / 32
def hasScales (afmt : ElemTy) : Bool := match afmt with
  | .f16 | .bf16 => false
  | _ => true

/-- The B formats that an A format accepts (Table 11.1). -/
def pairs (afmt bfmt : ElemTy) : Bool := match afmt with
  | .e4m3 | .e5m2 => decide (bfmt = .e4m3) || decide (bfmt = .e5m2)
  | _ => decide (bfmt = afmt)

/-- Bytes of scales of a tile. -/
def scaleBytes (afmt : ElemTy) : Nat := if hasScales afmt then 192 * tileBlocks afmt else 0

/-- Every byte that the `mma` reads lies below the reservation's length (R200). -/
def tileFits (afmt : ElemTy) (r : Reservation) (tile : Nat) : Bool :=
  decide (12288 * (tile + 1) ≤ r.len) &&
  (!hasScales afmt || decide (r.scaleOff + scaleBytes afmt * (tile + 1) ≤ r.len))

/-- An element of a matrix operand: i8 elements are plain integers (R198). -/
def matElem (ty : ElemTy) (code : Nat) : FVal :=
  match floatFmt ty with
  | some f => f.elem code
  | none => let v := intVal true 8 code
            .fin (decide (v < 0)) v.natAbs 0

/-- Byte of a list, zero beyond its end. -/
def byteAt (bs : List Byte) (i : Nat) : Nat := (bs.getD i 0#8).toNat

/-- Element `i` of packed bytes (R199, R200). -/
def elemIn (ty : ElemTy) (bs : Nat → Nat) (i : Nat) : Nat :=
  match tyBits ty with
  | 4 => bs (i / 2) / 16 ^ (i % 2) % 16
  | 8 => bs i
  | _ => bs (2 * i) + 256 * bs (2 * i + 1)

/-- Byte `j` of a row's A fragment (R199). -/
def aByte (a : Tbl Word) (row j : Nat) : Nat := (Tbl.get 0#32 a (16 * row + j / 4)).toNat / 256 ^ (j % 4) % 256

/-- A exact sum as a value; an exact zero is +0 (R153). -/
def Dyad.toVal (d : Dyad) : FVal := .fin (decide (d.n < 0)) d.n.natAbs d.e

/-- One block sum, scaled (R153, R154). -/
def blockSum (ps : List Prod1) (sa sb : Nat) : FVal :=
  let pInf := ps.any (fun p => decide (p = .inf false))
  let nInf := ps.any (fun p => decide (p = .inf true))
  if sa = 255 ∨ sb = 255 ∨ ps.any (fun p => decide (p = .nan) || decide (p = .invalid)) = true ∨ (pInf ∧ nInf) then .nan false
  else if pInf then .inf false
  else if nInf then .inf true
  else
    let t := ps.foldl (fun d p => match p with | .fin x _ => d.add x | _ => d) Dyad.zero
    Dyad.toVal ⟨t.n, t.e + ((sa : Int) - 127) + ((sb : Int) - 127)⟩

/-- RNE32(C + S) (R203). -/
def addRne (c : Nat) (v : FVal) : Nat := (fmtF32.addF ⟨.rne, 0⟩ false (fmtF32.decode c) v).1

/-- One element of an `mma`: `cv` is the starting value (R203). -/
def mmaElem (afmt : ElemTy) (r : Reservation) (o : MatOp) (row n cv : Nat) : Nat :=
  let k := tileK afmt
  let bs := byteAt o.b
  (List.range (tileBlocks afmt)).foldl (fun cv b =>
    let ps := (List.range 32).map (fun j =>
      let kk := 32 * b + j
      let i := if r.nk then n * k + kk else kk * 192 + n
      prodOf (matElem afmt (elemIn afmt (aByte o.a row) kk)) (matElem r.fmt (elemIn r.fmt bs i)))
    let sa := if hasScales afmt then (Tbl.get 0#32 o.sa row).toNat / 256 ^ b % 256 else 127
    let sb := if hasScales afmt then bs (12288 + 192 * b + n) else 127
    addRne cv (blockSum ps sa sb)) cv

/-- A row is active: its lane is, in the member whose group has its place (R197). -/
def MatOp.rowActive (o : MatOp) (row : Nat) : Bool :=
  o.groups.any (fun e => decide (e.1 % 4 = row / 32) && e.2.getLsbD (row % 32))

/-- The bank after an `mma` (R203). -/
def mmaBank (o : MatOp) (afmt : ElemTy) (mode : MmaMode) (r : Reservation) (old : Tbl Word) : Tbl Word :=
  Tbl.ofFn 0#32 (128 * 192) (fun i =>
    let v := Tbl.get 0#32 old i
    if o.rowActive (i / 192) then
      BitVec.ofNat 32 (mmaElem afmt r o (i / 192) (i % 192) (if mode = .acc then v.toNat else 0))
    else if mode = .zo then 0#32 else v)

/-- The perturbation makes the adders disagree (R221). -/
def perturbs (o : MatOp) (bank : Tbl Word) : Bool :=
  match o.perturb with
  | none => false
  | some (row, col, v) =>
    let cv := (Tbl.get 0#32 bank (192 * row + col)).toNat
    match fmtF32.decode cv with
    | .fin _ _ _ => o.rowActive row && decide (v.toNat % 2 ^ 31 ≠ 0) && decide (addRne cv (fmtF32.decode v.toNat) ≠ cv)
    | _ => false

/-! ### mma (R201 to R208) -/

/-- The decode traps of Table 11.2, in the order of R56. -/
def mmaStatic (c : Common) (f : FmtX) (n : Node) : Option TrapKind :=
  if quadMembers n c.scope = false then some .illegalScope
  else
    let aOk := match opndOf f.abase with
      | .lane r => decide (r % 4 = 0) && decide (r + 16 ≤ n.desc.regs)
      | _ => false
    let sOk := match opndOf f.ascale with
      | .lane r => decide (r < n.desc.regs)
      | _ => false
    if aOk && sOk && decide (f.boff.toNat % 384 = 0) && (!f.bcast || n.desc.bcast) && decide (f.acc.toNat < n.desc.banks) then
      none
    else some .illegalOperand

def latchOwner (sc : Scope) : LatchOwner :=
  match sc with
  | .set k => .set k.toNat
  | _ => .team

/-- The lead-rank team of a team's cluster (R207). -/
def State.leadTeam (s : State) (n : Node) (t : Team) : Option Team :=
  s.teams.find? (fun u => decide (u.node = n.id) && t.clusterMate u && decide (u.rank = t.lead))

/-- The groups of the members of R197. -/
def rowGroups (n : Node) (sc : Scope) : List Nat :=
  match sc with
  | .set k => (List.range n.groupCount).filter (fun i => (n.desc.sets.getD k.toNat 0#32).getLsbD i)
  | _ => List.range n.groupCount

/-- The fragment and scales as the registers of the members hold them (R199). -/
def Team.fragment (t : Team) (gs : List Nat) (abase ascale : Nat) : Tbl Word × Tbl Word :=
  let gOf (row : Nat) : Option Group := (gs.find? (fun g => decide (g % 4 = row / 32))).bind (fun g => t.groups[g]?)
  (Tbl.ofFn 0#32 2048 (fun i => match gOf (i / 16) with
      | some g => g.reg (abase + i % 16) (i / 16 % 32)
      | none => 0#32),
   Tbl.ofFn 0#32 128 (fun row => match gOf row with
      | some g => g.reg ascale (row % 32)
      | none => 0#32))

/-- A fragment as its words lie in a latch slot, and back: register ABASE + i in word (ABASE + i) mod 16 (R205). -/
def toLatch (abase : Nat) (a : Tbl Word) : Tbl Word :=
  Tbl.ofFn 0#32 2048 (fun i => Tbl.get 0#32 a (16 * (i / 16) + (i % 16 + 16 - abase % 16) % 16))
def ofLatch (abase : Nat) (w : Tbl Word) : Tbl Word :=
  Tbl.ofFn 0#32 2048 (fun i => Tbl.get 0#32 w (16 * (i / 16) + (abase + i % 16) % 16))

/-- Latch slot of an `mma`. -/
def slotOfA (abase : Nat) : Nat := abase / 16 % 2

/-- Operations that have issued and not started (R209). -/
def Core.queued (c : Core) : Nat := (c.matq.filter (fun o => !o.started)).length

/-- What a delivery gives to the `mma`s that it issues (R208): their id, the source team, its reservation and its tile. -/
structure Delivery where
  id : Nat
  src : Nat
  res : Option Reservation
  tile : Nat
  deriving DecidableEq, Repr

/-- The row of Table 11.2 on the tile: B's format pairs with A's, and every byte lies below the reservation's length. -/
def tileOk (afmt : ElemTy) (r : Reservation) (tile : Nat) : Bool := pairs afmt r.fmt && tileFits afmt r tile

/-- The issue checks of Table 11.2: the reservation read, when this team reads B. A team that takes part in a delivery checks its
A format against the source's tile, which it knows when all issue (R198, R208). -/
def mmaCheck (x : Ctx) (f : FmtX) (go : Option Delivery) : Option (Option Reservation) :=
  let t := x.team
  let reads := !f.bcast || decide (t.rank = t.lead)
  let res := Tbl.find? t.obs f.bres.toNat
  if (Tbl.find? t.banks f.acc.toNat).isNone then none
  else if reads = true ∧ (match res with
      | none => false
      | some r => tileOk f.afmt r (f.boff.toNat / 384) && (!f.bcast || r.bcast)) = false then none
  else if reads = false ∧ (match go with
      | some d => match d.res with
        | some r => tileOk f.afmt r d.tile
        | none => true
      | none => true) = false then none
  else if f.arrive = true ∧ (barGet x.node t f.bar.toNat).init = false then none
  else some (if reads then res else none)

/-- No row of the instruction is active (R76). -/
def Ctx.noRow (x : Ctx) : Bool := x.members.all (fun m => decide (m.act = 0#32))

/-- Puts an `mma` into the matrix unit of its core and leaves the latch as Table 11.3 gives; with no active row it reads no
operand and leaves the latch as it is (R76). -/
def mmaIssue (c : Common) (f : FmtX) (x : Ctx) (d : Delivery) (s : State) : State :=
  let t := x.team
  let ab := f.abase.toNat
  let slot := slotOfA ab
  let key := (ab, f.ascale.toNat, latchOwner c.scope)
  let l := t.latch slot
  let hit := decide (l.held = some key)
  let frag := if hit then (ofLatch ab l.words, l.scales) else t.fragment (rowGroups x.node c.scope) ab f.ascale.toNat
  let l' : Latch :=
    if x.noRow then l
    else if hit then (if f.reuse then l else { l with held := none })
    else if f.reuse then { held := some key, words := toLatch ab frag.1, scales := frag.2 } else l
  let o : MatOp :=
    { id := d.id, team := t.id, groups := x.members.map (fun m => (m.g, m.act)), bank := f.acc.toNat,
      kind := .mma f.afmt f.mode d.src f.bres.toNat d.tile f.bcast, a := frag.1, sa := frag.2,
      arrive := if f.arrive then some f.bar.toNat else none, latch := if hit && !x.noRow then some slot else none, started := false,
      consumed := false, b := [], torn := 0, res := d.res, perturb := none, fill := none }
  (s.modTeam t.id (fun y => y.setLatch slot l')).modCore t.core (fun k => { k with matq := k.matq ++ [o] })

/-- An A register or the scale register that the `mma` reads is empty (R204). -/
def mmaEmpty (c : Common) (f : FmtX) (x : Ctx) : Bool :=
  let ab := f.abase.toNat
  if x.noRow then false
  else if (x.team.latch (slotOfA ab)).held = some (ab, f.ascale.toNat, latchOwner c.scope) then false
  else x.members.any (fun m => (List.range 16).any (fun i => (x.group m).isEmpty (ab + i)) ||
    (hasScales f.afmt && (x.group m).isEmpty f.ascale.toNat))

/-- `mma` on a core. A broadcast `mma` waits for its delivery, which issues it (R208). A team has one broadcast `mma` that waits
for delivery: of two that sets of it have reached, the later, DESIGN CHOICE (log entry 65). -/
def mmaBody (c : Common) (f : FmtX) (go : Option Delivery) (x : Ctx) (s : State) : Res :=
  match mmaCheck x f go with
  | none => .trap .illegalOperand 0 0
  | some res =>
    if mmaEmpty c f x then .stall (.regs ((List.range 16).map (fun i => f.abase.toNat + i) ++ (if hasScales f.afmt then [f.ascale.toNat] else []))) s
    else match f.bcast, go with
      | true, none =>
        .stall .wait (s.modTeam x.team.id (fun t =>
          { t with bwait := x.members.head?.map (fun m => (c, f, m.g, x.addr)) }))
      | true, some d =>
        .retire ((mmaIssue c f x d s).modTeam x.team.id (fun t => { t with bcount := t.bcount + 1, bwait := none }))
      | false, _ =>
        if 4 ≤ (s.core x.team.core).queued then .stall .wait s
        else
          let (id, s1) := s.freshId
          .retire (mmaIssue c f x { id := id, src := x.team.id, res := res, tile := f.boff.toNat / 384 } s1)

/-- How an `mma` issues: a commit instruction in accumulate mode (R203), and under broadcast it takes part with no active row
too (R76). -/
def mmaMode (f : FmtX) : Mode := { commit := decide (f.mode = .acc), always := f.bcast }

/-- `mma` (R203). -/
def execMma (c : Common) (f : FmtX) (s : State) : Out :=
  issue c (mmaMode f) (mmaStatic c f) noUndef (mmaBody c f none) neverForm s

/-! ### ald, ast, aget, mwait, mperturb (R216 to R221) -/

/-- Alignment, then limits, of a data address and pitch (R217): the failing check. -/
def rowsCheck (n : Node) (addr pitch width : Nat) : Option TrapKind :=
  if addr % 32 ≠ 0 ∨ pitch % 32 ≠ 0 then some .misaligned
  else if pitch < width ∨ 2 ^ 31 ≤ addr ∨ n.desc.scratch < addr + 127 * pitch + width then some .protection
  else none

/-- Puts an operation without A operand into the matrix unit. -/
def State.issueMat (s : State) (x : Ctx) (bank : Nat) (kind : MatKind) (id : Nat) (fill : Option Nat) : State :=
  s.modCore x.team.core (fun k => { k with matq := k.matq ++
    [{ id := id, team := x.team.id, groups := x.members.map (fun m => (m.g, m.act)), bank := bank, kind := kind, a := [],
       sa := [], arrive := none, latch := none, started := false, consumed := false, b := [], torn := 0, res := none,
       perturb := none, fill := fill }] })

/-- The checks that the five instructions share: OBJ is held (R216). -/
def bankHeld (t : Team) (f : FmtE) : Bool := (Tbl.find? t.banks (objOf f)).isSome

/-- `ald` (R217). eaddr of its traps is the data address: the section names none, DESIGN CHOICE (log entry 65). -/
def execAld (c : Common) (f : FmtE) (s : State) : Out :=
  EOp.exec
    { v := engRegs c f (if f.flags.getLsbD 0 then [] else [engSrc f.opa, engSrc f.opb]),
      run := fun x vs s =>
        let addr := vs.getD 0 0
        let pitch := vs.getD 1 0
        let zero := f.flags.getLsbD 0
        if bankHeld x.team f = false then .trap .illegalOperand 0
        else match (if zero then none else rowsCheck x.node addr pitch 768) with
          | some k => .trap k (BitVec.ofNat 64 addr)
          | none =>
            if 4 ≤ (s.core x.team.core).queued then .stall .wait s
            else
              let (id, s1) := s.freshId
              .done (s1.issueMat x (objOf f) (.ald zero addr pitch) id none) noVal } s

/-- Bytes of a row that `ast` writes (R218). -/
def astWidth (ty : ElemTy) : Nat := 192 * tyBits ty / 8

/-- A target whose elements carry block scales (R218). -/
def blockTarget (ty : ElemTy) : Bool := match ty with
  | .e4m3 | .e5m2 | .e2m1 => true
  | _ => false

/-- `ast` (R218): under rdi it takes the dither phase at issue and advances it. eaddr of its traps is the data address, or the scale
address for the scale bytes: DESIGN CHOICE (log entry 65). -/
def execAst (c : Common) (f : FmtE) (s : State) : Out :=
  let ty := Decode.tyOf (f.flags.setWidth 4)
  let rnd := (Decode.rndOf (BitVec.ofNat 3 (f.flags.toNat / 32))).getD .rne
  EOp.exec
    { v := engRegs c f ([engSrc f.opa, engSrc f.opb] ++ (if blockTarget ty then [engSrc f.opc] else [])),
      run := fun x vs s =>
        let addr := vs.getD 0 0
        let pitch := vs.getD 1 0
        let scale := vs.getD 2 0
        if bankHeld x.team f = false then .trap .illegalOperand 0
        else match rowsCheck x.node addr pitch (astWidth ty) with
          | some k => .trap k (BitVec.ofNat 64 addr)
          | none =>
            if blockTarget ty = true ∧ (2 ^ 31 ≤ scale ∨ x.node.desc.scratch ≤ scale + 1021) then
              .trap .protection (BitVec.ofNat 64 scale)
            else if 4 ≤ (s.core x.team.core).queued then .stall .wait s
            else
              let (id, s1) := s.freshId
              let s2 := s1.issueMat x (objOf f) (.ast ty (f.flags.getLsbD 4) rnd addr pitch scale x.team.dph) id none
              .done (if rnd = .rdi then s2.modTeam x.team.id (fun t => { t with dph := t.dph + 1 }) else s2) noVal } s

/-- First destination and count of `aget`. -/
def agetDst (f : FmtE) : Option Nat := match opndOf f.sdst with
  | .lane r => some r
  | _ => none
def agetCount (f : FmtE) : Nat := f.flags.toNat % 64 + 1

/-- `aget` (R219): a long-latency producer. -/
def execAget (c : Common) (f : FmtE) (s : State) : Out :=
  EOp.exec
    { v := { engRegs c f [engSrc f.opa] with c := Common.noW c, dst := 0 },
      extra := fun n =>
        if quadMembers n c.scope = false then some .illegalScope
        else match agetDst f with
          | some r => if r + agetCount f ≤ n.desc.regs then none else some .illegalOperand
          | none => some .illegalOperand,
      run := fun x vs s =>
        let col := vs.getD 0 0
        let n := agetCount f
        let r0 := (agetDst f).getD 0
        if bankHeld x.team f = false ∨ 192 < col + n then .trap .illegalOperand 0
        else if x.members.any (fun m => decide (m.act ≠ 0#32) && (List.range n).any (fun i => (x.group m).isEmpty (r0 + i))) then
          .stall (.regs ((List.range n).map (fun i => r0 + i))) s
        else if 4 ≤ (s.core x.team.core).queued then .stall .wait s
        else
          let regs := (x.members.filter (fun m => decide (m.act ≠ 0#32))).flatMap (fun m =>
            (List.range n).map (fun i => (m.g, r0 + i)))
          let (id, s1) := s.freshId
          let r := s1.addFill x.team.id regs [] [id]
          .done (r.2.issueMat x (objOf f) (.aget col n) id (some r.1)) noVal } s

/-- `mwait` (R220). -/
def execMwait (c : Common) (f : FmtE) (s : State) : Out :=
  EOp.exec
    { v := engRegs c f [],
      run := fun x _ s =>
        if bankHeld x.team f = false then .trap .illegalOperand 0
        else if (s.bankOps x.team (objOf f)).any (fun o =>
            (f.flags.getLsbD 0 || !o.consumed) &&
            o.groups.any (fun e => x.members.any (fun m => decide (m.g = e.1)))) then .stall .wait s
        else .done s noVal } s

/-- `mperturb` (R221): it waits for the operations on the bank (R210). -/
def execMperturb (c : Common) (f : FmtE) (s : State) : Out :=
  EOp.exec
    { v := engRegs c f [engSrc f.opa, engSrc f.opb, engSrc f.opc],
      run := fun x vs s =>
        let row := vs.getD 0 0
        let col := vs.getD 1 0
        if bankHeld x.team f = false ∨ 128 ≤ row ∨ 192 ≤ col then .trap .illegalOperand 0
        else if s.bankOps x.team (objOf f) ≠ [] then .stall .wait s
        else .done (s.modTeam x.team.id (fun t => { t with banks := Tbl.modify t.banks (objOf f) (fun b =>
          { b with perturb := some (row, col, BitVec.ofNat 32 (vs.getD 2 0)) }) })) noVal } s

/-! ### Events of the matrix unit (R209 to R213) -/

def MatKind.isAst : MatKind → Bool
  | .ast .. => true
  | _ => false

/-- Two operations share a member group. -/
def MatOp.shares (a b : MatOp) : Bool := a.groups.any (fun e => b.groups.any (fun d => decide (d.1 = e.1)))

/-- The operations ahead of one in the queue. -/
def opsBefore (id : Nat) : List MatOp → List MatOp
  | [] => []
  | o :: t => if o.id = id then [] else o :: opsBefore id t

/-- The scratchpad port has performed what the members issued before the operation (R204): their own accesses, peer
stores, and earlier `ald` and `ast`. -/
def State.portReady (s : State) (o : MatOp) : Bool :=
  !(s.reqs.any (fun r => decide (r.team = o.team) && decide (r.parcel = none) && decide (r.id < o.id) &&
    o.groups.any (fun e => decide (e.1 = r.group)) && (match r.place with
      | .scratch | .peer _ => true
      | _ => false)))

/-- `o` waits for an operation that a member issued before it: one on its bank that has not started (R211), an `ast`, whose writes
must be performed, and for the reads of an `mma` an `ald` that has not started to read (R204). -/
def MatOp.after (o p : MatOp) : Bool :=
  decide (p.team = o.team) && p.shares o &&
  ((decide (p.bank = o.bank) && !p.started) || (match p.kind, o.kind with
    | .ast .., _ => true
    | .ald .., .mma .. => !p.started
    | _, _ => false))

/-- The matrix unit is free and the scoreboard allows the operation to start (R209 to R211). -/
def State.canStart (s : State) (core : Nat) (o : MatOp) : Bool :=
  let q := (s.core core).matq
  !o.started && q.all (fun p => !p.started || p.consumed) && s.portReady o &&
  (opsBefore o.id q).all (fun p => !o.after p)

/-- The scratchpad bytes that an operation reads (R200, R217). -/
def State.portBytes (s : State) (o : MatOp) : List Byte :=
  match o.kind, o.res with
  | .mma afmt _ src _ tile _, some r =>
    match s.team? src with
    | none => []
    | some t =>
      (List.range 12288).map (fun i => Tbl.get 0#8 t.scratch (r.base + 12288 * tile + i)) ++
      (List.range (scaleBytes afmt)).map (fun i => Tbl.get 0#8 t.scratch (r.base + r.scaleOff + scaleBytes afmt * tile + i))
  | .ald zero addr pitch, _ =>
    if zero then []
    else match s.team? o.team with
      | none => []
      | some t => (List.range (128 * 768)).map (fun i => Tbl.get 0#8 t.scratch (addr + i / 768 * pitch + i % 768))
  | _, _ => []

/-- Changes the operations of an id on every core. -/
def State.modOps (s : State) (id : Nat) (f : MatOp → MatOp) : State :=
  { s with cores := s.cores.map (fun c => (c.1, { c.2 with matq := c.2.matq.map (fun o => if o.id = id then f o else o) })) }

/-- A started operation stands after those started before it and ahead of the others. -/
def Core.startOrder (c : Core) : Core := { c with matq := c.matq.filter (fun o => o.started) ++ c.matq.filter (fun o => !o.started) }

/-- The operation starts: it begins to read its bytes, and an `mma` takes the armed perturbation (R221). -/
def State.startOp (s : State) (core : Nat) (o : MatOp) : State :=
  let isMma := match o.kind with
    | .mma .. => true
    | _ => false
  let p := if isMma then ((s.team? o.team).bind (fun t => Tbl.find? t.banks o.bank)).bind (fun b => b.perturb) else none
  let s1 := if isMma then s.modTeam o.team (fun t =>
      { t with banks := Tbl.modify t.banks o.bank (fun b => { b with perturb := none }) }) else s
  s1.modCore core (fun c => ({ c with matq := c.matq.map (fun q =>
    if q.id = o.id then { q with started := true, b := s.portBytes o, perturb := p } else q) } : Core).startOrder)

/-- MATRIX_OP_START (R209). A broadcast `mma` starts with its delivery. -/
def execMatrixOpStart (core op : Nat) (s : State) : Out :=
  match (s.core core).matq.find? (fun o => decide (o.id = op)) with
  | none => .next s
  | some o => if s.canStart core o then .next (s.startOp core o) else .next s

/-- Each aligned word is the old or the new one (R212): `n` numbers the choices. -/
def tornWords (n : Nat) : List Byte → List Byte → List Byte
  | a0 :: a1 :: a2 :: a3 :: ar, b0 :: b1 :: b2 :: b3 :: br =>
    (if Config.tornUnit n then [b0, b1, b2, b3] else [a0, a1, a2, a3]) ++ tornWords (n + 1) ar br
  | _, b => b

/-- The team whose allocation an operation in its window reads. -/
def MatOp.readsOf (o : MatOp) : Option Nat :=
  if o.started = false ∨ o.consumed = true then none
  else match o.kind with
    | .mma _ _ src _ _ _ => some src
    | .ald .. => some o.team
    | _ => none

/-- The operations that read a team's allocation in their window find each of its words as it was or as it is now (R212). -/
def State.tearReads (s : State) (t : Nat) : State :=
  if s.cores.any (fun c => c.2.matq.any (fun o => decide (o.readsOf = some t))) then
    { s with
      fresh := s.fresh + 1
      cores := s.cores.map (fun c => (c.1, { c.2 with matq := c.2.matq.map (fun o =>
        if o.readsOf = some t then { o with b := tornWords (2 ^ 20 * s.fresh) o.b (s.portBytes o) } else o) })) }
  else s

/-- Bytes are written to a team's allocation, at its port. -/
def State.scratchPut (s : State) (t a : Nat) (bs : List Byte) : State :=
  (s.modTeam t (fun x => { x with scratch := putBytes x.scratch a bs })).tearReads t

/-- A block of 32 columns as `ast` converts it (R149): the scale and the elements, with the flags. -/
def astBlock (ty : ElemTy) (rnd : Rnd) (phase : Nat) (xs : List Nat) : Nat × List Nat × FlagSet :=
  let vs := xs.map fmtF32.decode
  let f := fmtOf ty
  if vs.any (fun v => v.isNan || v.isInf) then (0xFF, xs.map (fun _ => if ty = .e2m1 then 0 else f.nanCode), fINVALID)
  else
    let m := xs.foldl (fun m x => max m (x % 2 ^ 31)) 0
    let sc := (scaleOf ty (fmtF32.decode m)).1
    let x : Int := if m = 0 then 0 else (sc : Int) - 127
    (sc, (indexed vs).map (fun e => match e.2 with
      | .fin neg q ex => (f.round (RndCtx.of rnd e.1 phase) true neg q (ex - x) false).1
      | _ => 0), 0)

/-- Packs elements into bytes, the first lowest (R144). -/
def packElems (bits : Nat) (es : List Nat) : List Byte :=
  natToBytes (es.length * bits / 8) ((indexed es).foldl (fun n e => n + e.2 * 2 ^ (bits * e.1)) 0)

/-- One row that `ast` writes: its bytes, its six scale bytes, and the flags (R218). -/
def astRow (ty : ElemTy) (sat : Bool) (rnd : Rnd) (phase : Nat) (bank : Tbl Word) (row : Nat) :
    List Byte × List Byte × FlagSet :=
  let xs := (List.range 192).map (fun n => (Tbl.get 0#32 bank (192 * row + n)).toNat)
  if ty = .f32 then (packElems 32 xs, [], 0)
  else if blockTarget ty then
    let bl := (List.range 6).map (fun j => astBlock ty rnd phase ((xs.drop (32 * j)).take 32))
    (packElems (tyBits ty) (bl.flatMap (fun b => b.2.1)), bl.map (fun b => BitVec.ofNat 8 b.1),
      bl.foldl (fun fl b => fl ||| b.2.2) 0)
  else
    let rs := (indexed xs).map (fun e => convert (RndCtx.of rnd (e.1 % 32) phase) sat .f32 ty false e.2)
    (packElems (tyBits ty) (rs.map (fun r => r.1)), [], rs.foldl (fun fl r => fl ||| r.2) 0)

/-- The writes of `ast` to the allocation of its team, as addresses with bytes, and its flags. -/
def astWrites (bank : Tbl Word) (ty : ElemTy) (sat : Bool) (rnd : Rnd) (addr pitch scale : Nat) (dph : BitVec 5) :
    List (Nat × List Byte) × FlagSet :=
  (List.range 128).foldl (fun (p : List (Nat × List Byte) × FlagSet) row =>
    let r := astRow ty sat rnd dph.toNat bank row
    (p.1 ++ [(addr + row * pitch, r.1), (scale + 8 * row, r.2.1)], p.2 ||| r.2.2)) ([], 0)

/-- The words of the writes that `ast` performs early, or those that it leaves for its completion: a reader between finds each
word old or new (R212). -/
def putWords (torn : Nat) (early : Bool) (ws : List (Nat × List Byte)) (m : Tbl Byte) : Tbl Byte :=
  ws.foldl (fun m w => (indexed w.2).foldl (fun m e =>
    if Config.tornUnit (torn + (w.1 + e.1) / 4) == early then Tbl.set 0#8 m (w.1 + e.1) e.2 else m) m) m

/-- A bank with unpredictable contents (R215). -/
def silentBank (fresh : Nat) : Tbl Word := Tbl.ofFn 0#32 (128 * 192) (fun i => Config.silentElem (128 * 192 * fresh + i))

/-- The bank of a team. -/
def Team.bankData (t : Team) (b : Nat) : Tbl Word :=
  match Tbl.find? t.banks b with
  | some x => x.data
  | none => []

def State.setBank (s : State) (team bank : Nat) (d : Tbl Word) : State :=
  s.modTeam team (fun t => { t with banks := Tbl.modify t.banks bank (fun b => { b with data := d }) })

/-- No operation that started before it on its bank is left: an `ast` reads the bank as they leave it (R211). -/
def State.bankSettled (s : State) (core : Nat) (o : MatOp) : Bool :=
  (opsBefore o.id (s.core core).matq).all (fun p => decide (p.team ≠ o.team) || decide (p.bank ≠ o.bank))

/-- OPERANDS_CONSUMED (R209, R212): after it the operation reads nothing more; `ast` has read its bank, and some of its words are
written. -/
def execOperandsConsumed (core op : Nat) (s : State) : Out :=
  match (s.core core).matq.find? (fun o => decide (o.id = op)) with
  | none => .next s
  | some o =>
    if o.started = false ∨ o.consumed = true ∨ (MatKind.isAst o.kind && !s.bankSettled core o) = true then .next s
    else
      let base := 2 ^ 24 * s.fresh
      let s1 := ({ s with fresh := s.fresh + 1 } : State).modOps op (fun q => { q with consumed := true, torn := base })
      match o.kind, s.team? o.team with
      | .ast ty sat rnd addr pitch scale dph, some t =>
        let w := astWrites (t.bankData o.bank) ty sat rnd addr pitch scale dph
        .next ((s1.modTeam o.team (fun x => { x with scratch := putWords base true w.1 x.scratch })).tearReads o.team)
      | _, _ => .next s1

/-- The effect of an operation at its completion; `mismatch` is a disagreement of the checks of R215. -/
def State.completeOp (s : State) (o : MatOp) (mismatch : Bool) : State :=
  match s.team? o.team with
  | none => s
  | some t =>
    let old := t.bankData o.bank
    match o.kind with
    | .mma afmt mode _ _ _ _ =>
      match o.res with
      | none => s
      | some r =>
        let d := mmaBank o afmt mode r old
        let s1 :=
          if mismatch || perturbs o d then
            (({ s with fresh := s.fresh + 1 } : State).setBank o.team o.bank (silentBank s.fresh)).consume t.node .silentData
          else s.setBank o.team o.bank d
        match o.arrive with
        | some b => s1.arriveFor o.team b []
        | none => s1
    | .ald zero _ _ =>
      s.setBank o.team o.bank (if zero then [] else Tbl.ofFn 0#32 (128 * 192) (fun i =>
        BitVec.ofNat 32 (bytesToNat ((o.b.drop (4 * i)).take 4))))
    | .ast ty sat rnd addr pitch scale dph =>
      let w := astWrites old ty sat rnd addr pitch scale dph
      let inv := w.2 &&& fINVALID
      let s1 := (s.modTeam o.team (fun x => { x with scratch := putWords o.torn false w.1 x.scratch })).tearReads o.team
      if inv = 0 then s1
      else o.groups.foldl (fun st e => st.modGroup o.team e.1 (fun g =>
        (lanesOf e.2).foldl (fun g l => g.raise l inv) g)) s1
    | .aget col n =>
      let vals := o.groups.flatMap (fun e => (lanesOf e.2).flatMap (fun l => (List.range n).map (fun i =>
        (e.1, i, l, Tbl.get 0#32 old (192 * (32 * (e.1 % 4) + l) + col + i)))))
      match s.fills.find? (fun fl => decide (some fl.id = o.fill)) with
      | none => s
      | some fl => s.applyFill { fl with
          vals := vals.map (fun v => (v.1, (fl.regs.foldl (fun m r => min m r.2) 2048) + v.2.1, v.2.2)) }

/-- Every operation of the id can complete: it has consumed its operands, and no operation that started before it on its
bank is left (R211). -/
def State.canComplete (s : State) (id : Nat) : Bool :=
  s.cores.all (fun c => c.2.matq.all (fun o => decide (o.id ≠ id) ||
    (o.consumed && (opsBefore id c.2.matq).all (fun p => decide (p.team ≠ o.team) || decide (p.bank ≠ o.bank)))))

/-- MATRIX_OP_COMPLETION (R209, R213, R215): the operations of one broadcast complete in one clock (R208). -/
def execMatrixOpCompletion (core op : Nat) (mismatch : Bool) (s : State) : Out :=
  let ops := s.cores.flatMap (fun c => (c.2.matq.filter (fun o => decide (o.id = op))).map (fun o => (c.1, o)))
  if ops = [] ∨ s.canComplete op = false then .next s
  else
    let s1 : State := { s with cores := s.cores.map (fun c =>
      (c.1, { c.2 with matq := c.2.matq.filter (fun o => decide (o.id ≠ op)) })) }
    let s2 := ops.foldl (fun st e => st.completeOp e.2 (mismatch && decide (e.1 = core))) s1
    .next (ops.foldl (fun st e => st.tryEnd e.2.team) s2)

/-! ### The broadcast bus (R207, R208) -/

/-- The teams of the stream of the cluster in which `team` stands. -/
def State.stream (s : State) (team : Nat) : List Team :=
  match s.team? team with
  | some t => s.teams.filter (fun u => t.clusterMate u && u.joined)
  | none => []

/-- The broadcast `mma` of one team issues, or traps on its checks. -/
def State.goBroadcast (s : State) (t : Team) (d : Delivery) : State :=
  match t.bwait with
  | none => s
  | some (c, f, g, a) =>
    match (t.groups[g]?).bind (fun gr => (indexed gr.strands).find? (fun e => decide (e.2.arrived = some a) && !e.2.stopped)) with
    | none => s
    | some e =>
      issueStrand c (mmaMode f) (mmaStatic c f) noUndef (mmaBody c f (some d)) s t.id g e.1

/-- A participant's matrix unit can start the operation. -/
def State.unitFree (s : State) (t : Team) : Bool :=
  (s.core t.core).matq.all (fun p => p.started && p.consumed)

/-- The team has issued its broadcast `mma` of this delivery. -/
def State.advanced (s : State) (t : Team) : Bool :=
  match s.team? t.id with
  | some u => decide (u.bcount = t.bcount + 1)
  | none => false

/-- BROADCAST_DELIVERY to the cluster of a team (R208): when every team of the stream has reached its broadcast `mma` and every unit can start it,
all issue and start in one clock. A team that does not pass its checks traps alone, and the others stay waiting. -/
def execBroadcastDelivery (node team : Nat) (s : State) : Out :=
  let ts := s.stream team
  match s.node? node, ts with
  | some n, t0 :: _ =>
    match s.leadTeam n t0 with
    | none => .next s
    | some lead =>
      let ready := ts.all (fun t => decide (t.phase = .placed) && t.bwait.isSome && s.unitFree t)
      let res := lead.bwait.bind (fun w => Tbl.find? lead.obs w.2.1.bres.toNat)
      let tile := (lead.bwait.map (fun w => w.2.1.boff.toNat / 384)).getD 0
      if ready = false then .next s
      else
        let (id, s1) := s.freshId
        let d : Delivery := { id := id, src := lead.id, res := res, tile := tile }
        let s2 := ts.foldl (fun st t => st.goBroadcast t d) s1
        if ts.all s2.advanced then
          if ts.all (fun t => (s2.core t.core).matq.all (fun o => decide (o.id ≠ id) || s2.canStart t.core o)) then
            .next (ts.foldl (fun st t => match (st.core t.core).matq.find? (fun o => decide (o.id = id)) with
              | some o => st.startOp t.core o
              | none => st) s2)
          else .next s
        else .next (ts.foldl (fun st t => if s2.advanced t then st
          else (st.goBroadcast t d).modTeam t.id (fun x => { x with bwait := none })) s)
  | _, _ => .next s

end Sys2Proof.Machine
end

