-- ==== Sys2Proof/Machine/Flows.lean ====
section
/-! DEFINITION. Flows (spec/15_claims.md R282 to R290; spec/14_visibility.md R264) and what a package does with an
incoming multicast flow (spec/16_channels.md R319). -/

namespace Sys2Proof.Machine

open Sys2Proof

/-! ### Ranges of a stream -/

/-- A run of bytes of a stream: consecutive virtual addresses in one page. -/
structure Run where
  va : Nat
  len : Nat
  deriving DecidableEq, Repr

/-- Puts an address before the runs of the addresses after it. -/
def addRun (a : Nat) (rs : List Run) : List Run :=
  match rs with
  | [] => [⟨a, 1⟩]
  | r :: t => if a + 1 = r.va ∧ a / 65536 = r.va / 65536 then ⟨a, r.len + 1⟩ :: t else ⟨a, 1⟩ :: r :: t

/-- The runs of the stream bytes [off, off + len). -/
def Trav.runs (t : Trav) (off len : Nat) : List Run :=
  ((List.range len).map (fun i => t.byteVa (off + i))).foldr addRun []

/-- A run with its translation, as the claim holds it. -/
structure Placed where
  va : Nat
  len : Nat
  hpa : Nat
  attr : Attr
  deriving DecidableEq, Repr

/-- The translation of a run by a claim's extents. -/
def placeRun (es : List Extent) (dst : Bool) (r : Run) : Option Placed :=
  (es.find? (fun e => (e.dst == dst) && decide (e.vpage ≤ r.va / 65536) && decide (r.va / 65536 < e.vpage + e.pages))).map
    (fun e => { va := r.va, len := r.len, hpa := inPage (e.ppage + (r.va / 65536 - e.vpage)) r.va, attr := e.attr })

def placeRuns (es : List Extent) (dst : Bool) (rs : List Run) : List Placed := rs.filterMap (placeRun es dst)

/-- A run lies in an extent whose accesses go to the node's shadow (R239, R360). -/
def Node.shadowed (n : Node) (va len : Nat) : Bool :=
  match n.extentOf va len with
  | some e => decide (e.dir = 2) || decide (e.dir = 3)
  | none => false

/-! ### Reads and writes of the engine -/

/-- Reads the bytes of runs in stream order: bytes, poison, and the machine after. -/
def State.readRuns (s : State) (n : Node) (rs : List Placed) : List Byte × Bool × State :=
  rs.foldl (fun a r =>
    let b := a.2.2.readLoc n (16 * n.world + r.attr.comp) (a.2.2.enginePlace r.attr r.hpa) (n.shadowed r.va r.len) r.hpa r.va r.len r.attr.home
    (a.1 ++ b.1, a.2.1 || b.2.1, b.2.2)) ([], false, s)

/-- Writes one run. A write to another package was recorded as a target at issue. -/
def State.writeRun (s : State) (n : Node) (r : Placed) (bs : List Byte) : State :=
  let p := s.enginePlace r.attr r.hpa
  if p = .other ∧ n.shadowed r.va r.len = false then { s with mem := putBytes s.mem r.hpa bs }
  else match s.node? n.id with
    | some n' => s.writeLoc n' (16 * n.world + r.attr.comp) p (n.shadowed r.va r.len) r.hpa r.va bs r.attr.home
    | none => s

/-- The bytes that a severed flow leaves in a run: each aligned 8-byte unit is old or new (R288). -/
def tornBytes (fresh a : Nat) (old new : List Byte) : List Byte :=
  (indexed (old.zip new)).map (fun e =>
    if Config.tornUnit (2 ^ 64 * fresh + (a + e.1) / 8) then e.2.2 else e.2.1)

/-- Writes the bytes of runs in stream order; `torn` for a severed flow. -/
def State.writeRuns (s : State) (n : Node) (torn : Bool) (rs : List Placed) (bs : List Byte) : State :=
  (rs.foldl (fun (a : State × List Byte) r =>
    let new := a.2.take r.len
    let put := if torn then tornBytes s.fresh r.hpa (a.1.readRuns n [r]).1 new else new
    (a.1.writeRun n r put, a.2.drop r.len)) (s, bs)).1

/-- The operation of a reduce flow as `red` codes it (Table 15.2, R253): code, and whether f32. -/
def ropOf (rop : Nat) : Nat × Bool :=
  match rop with
  | 0 => (0, true)
  | 1 => (0, false)
  | 2 => (2, true)
  | _ => (1, true)

/-- One element of a reduce flow: the destination's four bytes combined with `src` (R284). -/
def State.reduceElem (s : State) (n : Node) (torn : Bool) (rop : Nat) (rs : List Placed) (src : List Byte) : State :=
  let old := s.readRuns n rs
  let v := atomNew (ropOf rop).1 (ropOf rop).2 false 4 (bytesToNat old.1) (bytesToNat src) 0
  old.2.2.writeRuns n torn rs (natToBytes 4 v)

/-- A reduce flow over the elements of its range, in stream order. -/
def State.reduceElems (s : State) (n : Node) (f : Flow) (bs : List Byte) : State :=
  (List.range (f.len / 4)).foldl (fun st k =>
    st.reduceElem n f.severed.isSome f.desc.rop (placeRuns f.extents true (f.desc.dst.runs (f.off + 4 * k) 4))
      ((bs.drop (4 * k)).take 4)) s

/-! ### Ownership of destination lines (R264) -/

/-- The destination of a flow in memory: none for a buffer or a multicast. -/
def Flow.dstRuns (f : Flow) : List Placed :=
  if f.desc.cbuf || decide (f.desc.kind = .multicast) then [] else placeRuns f.extents true (f.desc.dst.runs f.off f.len)

/-- The acknowledgement area of a multicast (R277). -/
def Flow.ackRuns (f : Flow) : List Placed :=
  if f.desc.kind = .multicast then
    placeRuns f.extents true (((List.range 72).map (fun i => f.descAddr + 64 + i)).foldr addRun [])
  else []

/-- Every range of memory that a flow reads or writes. -/
def Flow.runs (f : Flow) : List Placed := placeRuns f.extents false (f.desc.src.runs f.off f.len) ++ f.dstRuns ++ f.ackRuns

/-- The replicas of a range of bytes are dropped. -/
def State.dropReplicaRange (s : State) (a n : Nat) : State :=
  { s with replicas := s.replicas.filter (fun r => decide (128 * r.line + 128 ≤ a) || decide (a + n ≤ 128 * r.line)) }

/-- Every L1 and replica copy of the destination lines is invalidated (R264). -/
def State.ownLines (s : State) (rs : List Placed) : State :=
  rs.foldl (fun st r => (st.dropL1Range (r.hpa / 128 * 128) ((r.hpa + r.len + 127) / 128 * 128 - r.hpa / 128 * 128)).dropReplicaRange
    r.hpa r.len) s

/-! ### flow (R284, R285, R295) -/

/-- The operand limits of R284. -/
def flowOk (d : ClaimDesc) (b : Option CBuf) (off len : Nat) : Bool :=
  decide (off % d.src.esz = 0) && decide (len % d.src.esz = 0) && decide (1 ≤ len) && decide (len ≤ 1048576) &&
  decide (off + len ≤ d.src.len) && (d.cbuf || decide (off + len ≤ d.dst.len)) &&
  (!d.cbuf || (match b with
    | some x => decide (len ≤ x.size)
    | none => false)) &&
  (decide (d.kind ≠ .request) || (decide (len % 32 = 0) && decide (len ≤ 256)))

/-- The targets that a flow records at its issue (R287, R363): a gate flow, and the ranges of a push, multicast or reduce
flow outside the launch's shadow set, which holds pages of this package only. -/
def State.flowTargets (s : State) (n : Node) (d : ClaimDesc) (f : Flow) : State :=
  match d.kind with
  | .gate => f.dstRuns.foldl (fun st r => st.noteTarget n.launch 2 0 r.va r.len) s
  | .push | .reduce =>
    (f.dstRuns.filter (fun r => decide (s.enginePlace r.attr r.hpa = .other))).foldl (fun st r =>
      st.noteTarget n.launch 1 (pkgOf r.hpa) r.va r.len) s
  | .multicast =>
    (s.mcastPeers d.route).foldl (fun st p =>
      st.noteTarget n.launch 1 p (d.dst.byteVa f.off) f.len) s
  | _ => s

/-- The issue of a flow, in one step (R285): the slot taken, the claim Flowing, the flow with its engine. A destination outside the
node's extents, as the packages of a multicast are, makes the node escape (R361). -/
def State.issueFlow (s : State) (x : Ctx) (o : Nat) (cl : Claim) (d : ClaimDesc) (off len : Nat) : State :=
  let (id, s1) := s.freshId
  let slot := match cl.buf with
    | some b => b.head
    | none => 0
  let f : Flow :=
    { id := id, team := x.team.id, core := x.team.core, claim := o, desc := d, extents := cl.extents, off := off, len := len,
      slot := slot, cb := if d.cbuf then cl.buf else none, descAddr := cl.descAddr, severed := none, groups := x.members.map (fun m => m.g) }
  let buf := if d.cbuf then cl.buf.map (fun (b : CBuf) =>
      { b with free := b.free - 1, inflight := b.inflight + 1, head := (b.head + 1) % b.count }) else cl.buf
  let s2 : State := { s1 with flows := s1.flows ++ [f] }
  let s3 := s2.modClaim x.team.id o (fun y =>
    { y with state := .flowing, status := .ok, flows := y.flows + 1, reserved := true, buf := buf })
  let s4 := (s3.ownLines f.dstRuns).flowTargets x.node d f
  if d.kind = .multicast ∨ f.dstRuns.any (fun r => !x.node.shadowed r.va r.len) = true then s4.modNode x.node.id (fun n => { n with escaped := true }) else s4

/-- `flow` (R295): a commit instruction. One that meets a deferred revocation waits for the flows in flight, and then finds
the claim Revoked (R282). It raises no Protection (R16): an engine that meets another compartment's copy reads and writes the line
under R371 (log entry 65). -/
def execFlow (c : Common) (f : FmtE) (s : State) : Out :=
  EOp.exec
    { v := engRegs c f [engSrc f.opa, engSrc f.opb], extra := claimOp f, commit := true,
      run := fun x vs s =>
        let o := objOf f
        let cl := x.team.claim o
        let ea := BitVec.ofNat 64 cl.descAddr
        match cl.state with
        | .free => .trap .illegalOperand 0
        | .walking => .stall .wait s
        | .revoked => .trap .claimRevoked ea
        | .faulted => .trap .claimFaulted ea
        | .held | .flowing | .dormant =>
          match cl.desc with
          | none => .trap .illegalOperand 0
          | some d =>
            let off := vs.getD 0 0
            let len := vs.getD 1 0
            let full := match cl.buf with
              | some b => d.cbuf && decide (b.free = 0)
              | none => false
            if flowOk d cl.buf off len = false then .trap .illegalOperand 0
            else if d.bark = 1 ∧ (barGet x.node x.team d.bar).init = false then .trap .illegalOperand 0
            else if 64 ≤ cl.flows ∨ full = true ∨ cl.deferred ≠ 0 then .stall .wait s
            else
              let slot := match cl.buf with
                | some b => if d.cbuf then b.head else 0
                | none => 0
              .done (s.issueFlow x o cl d off len) (fun _ _ => slot * 65536) } s

/-! ### Multicast at a receiver (R319) -/

/-- Translates one run of an incoming multicast for writing, through the receiving world's stages (R319). It is no access of a
node, so a stable page takes it (R228, R246). The rule speaks of home slices only: a page that lies in a carve-out, in host memory,
in a register window or in another package fails, DESIGN CHOICE (log entry 76). -/
def State.receiveRun (s : State) (world comp : Nat) (r : Run) : Option (State × Placed) :=
  let w : Walk :=
    { id := 0, who := .migration, world := world, comp := comp, core := 0xFF, va := r.va, access := .write, waitOn := none,
      want := some comp, fault := none }
  match s.walkFor w with
  | .done s1 e =>
    let hpa := inPage e.ppage r.va
    if (s1.reach (s1.world world).partId world e.attr.home hpa).isSome ∨ s1.enginePlace e.attr hpa ≠ .home ∨
        s1.tagClash (16 * world + comp) hpa = true then none
    else some (s1, { va := r.va, len := r.len, hpa := hpa, attr := e.attr })
  | _ => none

/-- Every run of an incoming multicast, translated; none when one fails. -/
def State.receiveRuns (world comp : Nat) : List Run → State → Option (State × List Placed)
  | [], s => some (s, [])
  | r :: t, s => match s.receiveRun world comp r with
    | none => none
    | some (s1, p) => match State.receiveRuns world comp t s1 with
      | none => none
      | some (s2, ps) => some (s2, p :: ps)

/-- Performs the writes of an incoming multicast at the home slices. -/
def State.receiveWrite (s : State) (gcomp : Nat) (ps : List Placed) (bs : List Byte) : State :=
  (ps.foldl (fun (a : State × List Byte) r =>
    ((a.1.writeMem gcomp r.hpa (a.2.take r.len) r.attr.home).ownLines [r], a.2.drop r.len)) (s, bs)).1

/-- An incoming multicast: the machine after the writes, or none for a negative reply, which changes nothing. RXWORLD and
RXCOMP are those of this package's entry. -/
def State.receive (s : State) (group : Nat) (t : Trav) (off : Nat) (bs : List Byte) : Option State :=
  let e := s.mcastEntry group
  let world := dfield e.head 16 6
  let comp := dfield e.head 24 4
  if e.valid = false ∨ (s.comp (16 * world + comp)).state ≠ .active ∨ t.len < off + bs.length then none
  else match State.receiveRuns world comp (t.runs off bs.length) s with
    | none => none
    | some (s1, ps) => some (s1.receiveWrite (16 * world + comp) ps bs)

/-- MULTICAST_RECEIVE (R319): another package's flow to a group arrives here, and this package replies. -/
def execMulticastReceive (group : Nat) (trav : List DWord) (off : Nat) (bytes : List Byte) (s : State) : Out :=
  match (parseTrav trav).bind (fun t => s.receive group t off bytes) with
  | some s1 => .next { s1 with outputs := s1.outputs ++ [.mcastReply group true] }
  | none => .next { s with outputs := s.outputs ++ [.mcastReply group false] }

/-- A package that no surviving path reaches. -/
def State.pkgLost (s : State) (p : Nat) : Bool := s.lost.any (fun e => decide (e.2 = p))

/-- Another package takes a multicast flow: it writes the bytes in frames of its own (R319). -/
def State.peerWrite (s : State) (f : Flow) (bs : List Byte) (p : Nat) : State :=
  ((f.desc.dst.runs f.off f.len).foldl (fun (a : State × List Byte) r =>
    let frame := p * 2 ^ 26 + Config.peerFrame s.fresh p (r.va / 65536) % 0x2A000000
    ({ a.1 with mem := putBytes a.1.mem (inPage frame r.va) (a.2.take r.len) }, a.2.drop r.len)) (s, bs)).1

/-- The replies of a multicast flow: peers that replied negative, among them those that the partition may not reach (R305), whether one
arose from a lost path, and the machine after the writes of the others, this package's own receipt among them. -/
def State.mcastReplies (s : State) (n : Node) (f : Flow) (bs : List Byte) : List Nat × Bool × State :=
  let ps := s.mcastPeers f.desc.route
  let own := if ps.contains s.pkgid.toNat then s.receive f.desc.route f.desc.dst f.off bs else some s
  let neg := ps.filter (fun p =>
    if p = s.pkgid.toNat then own.isNone else s.pkgLost p || f.severed.isSome || !s.mayReach n p || !Config.peerReply s.fresh p)
  (neg, ps.any (fun p => decide (p ≠ s.pkgid.toNat) && (s.pkgLost p || f.severed.isSome)),
    (ps.filter (fun p => decide (p ≠ s.pkgid.toNat) && !neg.contains p)).foldl (fun st p => st.peerWrite f bs p) (own.getD s))

/-- The acknowledgement area (Table 16.7). -/
def ackBytes (total : Nat) (neg : List Nat) (lost : Bool) : List Byte :=
  natToBytes 4 (total - neg.length) ++ natToBytes 2 neg.length ++ [if lost then 1#8 else 0#8, 0#8] ++
  natToBytes 64 (neg.foldl (fun m p => m + 2 ^ p) 0)

/-- A multicast flow at its completion: the sending, the receipt at this package, the acknowledgement. The result says
whether no receiver was reached. -/
def State.multicast (s : State) (n : Node) (f : Flow) (bs : List Byte) : State × Bool :=
  let ps := s.mcastPeers f.desc.route
  let r := s.mcastReplies n f bs
  let unreached := ps.filter (fun p => decide (p ≠ s.pkgid.toNat) && (s.pkgLost p || f.severed.isSome))
  (r.2.2.writeRuns n false f.ackRuns (ackBytes ps.length r.1 r.2.1), decide (ps ≠ []) && decide (unreached.length = ps.length))

/-! ### FLOW_COMPLETION (R264, R286, R288) -/

/-- The other packages that a flow goes to or from. -/
def State.flowPeers (s : State) (f : Flow) : List Nat :=
  (match f.desc.kind with
    | .request | .push => [f.desc.peer]
    | .multicast => s.mcastPeers f.desc.route
    | .reduce => (f.dstRuns.filter (fun (r : Placed) => decide (r.attr.home ≠ 1#2))).map (fun (r : Placed) => pkgOf r.hpa)
    | .copy | .gate => []).filter (fun p => decide (p ≠ s.pkgid.toNat))

/-- A flow to or from another package crosses a link that has its keys (R375), or finds every path lost (R288). -/
def State.flowKeyed (s : State) (f : Flow) : Bool :=
  s.peerKeyed || f.severed.isSome || (s.flowPeers f).all s.pkgLost

/-- The number that gives an access its place in the program order of its lanes: an access from the side log keeps that of its
instruction (R237, R264). -/
def Req.stamp (r : Req) : Nat := if r.side then r.batch else r.id

/-- What must be over before a flow reads and writes: the earlier accesses of the issuing lanes, side-logged ones
included (R264); for a slot, the team's earlier scratchpad accesses (R289); the claim's earlier flows (R286). -/
def State.flowReady (s : State) (f : Flow) : Bool :=
  !(s.reqs.any (fun r => decide (r.parcel = none) && decide (r.team = f.team) && decide (r.stamp < f.id) &&
    (f.groups.contains r.group || (f.cb.isSome && (match r.place with
      | .scratch | .peer _ => true
      | _ => false))))) &&
  !((s.core f.core).sidelog.any (fun e => decide (e.team = f.team) && decide (e.seq < f.id) && f.groups.contains e.group)) &&
  !(s.flows.any (fun g => decide (g.team = f.team) && decide (g.claim = f.claim) && decide (g.id < f.id))) && s.flowKeyed f

/-- The slot of a flow's buffer receives its bytes. -/
def State.fillSlot (s : State) (f : Flow) (b : CBuf) (bs : List Byte) : State :=
  let a := b.base + f.slot * b.size
  let old := match s.team? f.team with
    | some t => (List.range bs.length).map (fun i => Tbl.get 0#8 t.scratch (a + i))
    | none => []
  s.scratchPut f.team a (if f.severed.isSome then tornBytes s.fresh a old bs else bs)

/-- Moves the bytes of a flow: the machine after, and whether the flow ends Severed. -/
def State.moveFlow (s : State) (n : Node) (f : Flow) : State × Bool :=
  let src := s.readRuns n (placeRuns f.extents false (f.desc.src.runs f.off f.len))
  let s1 := if src.2.1 then src.2.2.consume n.id .uncorrectable else src.2.2
  match f.cb with
  | some b => (s1.fillSlot f b src.1, f.severed.isSome)
  | none =>
    match f.desc.kind with
    | .multicast => s1.multicast n f src.1
    | .reduce => (s1.reduceElems n f src.1, f.severed.isSome)
    | _ => (s1.writeRuns n f.severed.isSome f.dstRuns src.1, f.severed.isSome)

/-- A Flowing claim after one of its flows has completed (Table 15.6, R288). -/
def Claim.flowDone (c : Claim) (severed cb : Bool) : Claim :=
  let buf := if cb then c.buf.map (fun (b : CBuf) => { b with inflight := b.inflight - 1, filled := b.filled + 1 }) else c.buf
  let deferred := if severed ∧ c.deferred = 0 then 5 else c.deferred
  let c1 : Claim :=
    { c with status := if severed then .severed else .ok, flows := c.flows - 1, buf := buf, deferred := deferred }
  if c.flows ≤ 1 then
    if deferred = 0 then { c1 with state := .held }
    else { c1 with state := .revoked, cause := deferred, deferred := 0, extents := [], gpages := [], reserved := false }
  else c1

/-- A claim that names a gate of a world. -/
def Claim.onGate (cl : Claim) (gate : Nat) : Bool :=
  match cl.desc with
  | some d => decide (d.kind = .gate) && decide (d.route = gate)
  | none => false

/-- A one-shot gate closes when its first flow completes (R373). -/
def State.closeOneShot (s : State) (world : Nat) (d : ClaimDesc) : State :=
  match d.kind, Tbl.find? (s.world world).gates d.route with
  | .gate, some g =>
    if GateRec.valid g && GateRec.oneShot g then
      (s.modWorld world (fun w => { w with gates := Tbl.put w.gates d.route { g with flags := g.flags &&& 0xFB#8 } })).revokeClaims
        (fun m c => decide (m.world = world) && c.onGate d.route) 4
    else s
  | _, _ => s

/-- The last `n` elements of a list. -/
def keepLast {α : Type} (n : Nat) (l : List α) : List α := (l.reverse.take n).reverse

/-- A link event (R395): written to LINKLOG, a ring of 4,096 records, and to the Basder error log. -/
def State.logLink (s : State) (kind link info : Nat) : State :=
  let r : LogRec := { seq := s.linkseq, kind := kind, link := link, info := info }
  ({ s with linklog := keepLast 4096 (s.linklog ++ [r]), linkseq := s.linkseq + 1 } : State).logError kind link info

/-- A flow goes to or from a package: a request or push names it, a reduce flow writes to it. -/
def Flow.reaches (f : Flow) (pkg : Nat) : Bool :=
  match f.desc.kind with
  | .request | .push => decide (f.desc.peer = pkg)
  | .reduce => f.dstRuns.any (fun r => decide (r.attr.home ≠ 1#2) && decide (pkgOf r.hpa = pkg))
  | _ => false

/-- The UCIe links that the packets of a run cross, between die `d` and the dies of its lines' home slices, both ways (R242,
R300). -/
def State.runLinks (s : State) (d : Nat) (r : Placed) : List Nat :=
  if pkgOf r.hpa = s.pkgid.toNat ∧ isDram r.hpa = true then
    (((linesOf r.hpa r.len).map (fun a => s.sliceAt a / 30)).eraseDups).flatMap (fun e => dieLinks d e ++ dieLinks e d)
  else []

/-- The links that a flow's packets cross in any case: those between the dies of the package. -/
def State.crosses (s : State) (f : Flow) (link : Nat) : Bool :=
  f.runs.any (fun r => (s.runLinks (dieOfCore f.core) r).contains link)

/-- The links that a flow's packets may take besides: towards either I/O die for host memory or another package (R5, Table 20.7),
and any Frekuide link for another package (R393). -/
def State.mayCross (s : State) (f : Flow) (link : Nat) : Bool :=
  let d := dieOfCore f.core
  let away := decide (s.flowPeers f ≠ [])
  (away && decide (16 ≤ link)) ||
  ((away || f.runs.any (fun r => decide (s.enginePlace r.attr r.hpa = .host))) && (ioLinks d false ++ ioLinks d true).contains link)

/-- A lost path cuts a flow (R288): that to a package which the flow goes to or from, or one over a UCIe link of this package, whose
routes are fixed (R300). -/
def State.cuts (s : State) (f : Flow) (link pkg : Nat) : Bool :=
  if pkg = s.pkgid.toNat then s.crosses f link || (s.mayCross f link && Config.usedLink s.fresh link f.id) else f.reaches pkg

/-- A flow that a lost path cuts. -/
def Flow.cutBy (f : Flow) (s : State) : Flow :=
  if f.severed.isSome then f else { f with severed := (s.lost.reverse.find? (fun e => s.cuts f e.1 e.2)).map (fun e => e.1) }

/-- The link over which a multicast reached no receiver: that of the latest path lost to a package of its group. -/
def State.lostLink (s : State) (f : Flow) : Nat :=
  match s.lost.reverse.find? (fun e => (s.flowPeers f).contains e.2) with
  | some e => e.1
  | none => 16

/-- The release of a flow's completion reaches the cores in the claim's scope, whose L1 keeps no older byte of the destination;
others may go on with what they hold (R23, R255, R286). -/
def State.releaseLines (s : State) (t : Team) (f : Flow) : State :=
  f.dstRuns.foldl (fun st r => (st.dropL1RangeOf (fun c => s.coreInScope t c f.desc.scope) (r.hpa / 128 * 128)
    ((r.hpa + r.len + 127) / 128 * 128 - r.hpa / 128 * 128)).dropReplicaRange r.hpa r.len) s

/-- The stores of a flow at home slices are about to be made (R263, R264): its own core sees them at once. -/
def State.noteFlow (s : State) (n : Node) (f : Flow) : State :=
  (f.dstRuns.filter (fun r => decide (s.enginePlace r.attr r.hpa = .home) && !n.shadowed r.va r.len)).foldl (fun st r =>
    st.noteStore [f.core] (16 * n.world + r.attr.comp) r.hpa r.len r.attr.home) s

/-- The completion event of a flow, in the order of R286, with what follows it. -/
def State.completeFlow (s : State) (t : Team) (n : Node) (g : Flow) : State :=
  let f := g.cutBy s
  let m := (s.noteFlow n f).moveFlow n f
  let s1 : State := { m.1 with flows := m.1.flows.filter (fun g => decide (g.id ≠ f.id)) }
  let s2 := (s1.releaseLines t f).modClaim f.team f.claim (fun c => c.flowDone m.2 f.cb.isSome)
  let hs : List Head := [{ agent := t.engine f.core, scope := f.desc.scope, step := s.fresh }]
  let s3 := if f.desc.bark = 1 then s2.arriveFor f.team f.desc.bar hs
    else if f.desc.bark = 2 then s2.arriveFor f.team (16 + f.desc.bar) hs else s2
  let s4 := s3.closeOneShot n.world f.desc
  let s5 := if m.2 then s4.logLink 4 (f.severed.getD (s4.lostLink f)) f.desc.peer else s4
  s5.tryEnd f.team

/-- FLOW_COMPLETION (R286). -/
def execFlowCompletion (flow : Nat) (s : State) : Out :=
  match s.flows.find? (fun f => decide (f.id = flow)) with
  | none => .next s
  | some f =>
    match s.team? f.team with
    | none => .next { s with flows := s.flows.filter (fun g => decide (g.id ≠ flow)) }
    | some t => match s.node? t.node with
      | none => .next { s with flows := s.flows.filter (fun g => decide (g.id ≠ flow)) }
      | some n => if s.flowReady f then .next (s.completeFlow t n f) else .next s

end Sys2Proof.Machine
end

