-- ==== Sys2Proof/Machine/Channels.lean ====
section
/-! DEFINITION. Message queues (spec/16_channels.md R308 to R317): `qbind`, `qunbind`, `qstat`, and the events by which
credits and messages travel. -/

namespace Sys2Proof.Machine

open Sys2Proof

/-! ### qbind, qunbind, qstat (R314 to R317) -/

/-- OBJ above 7 names no queue (R314). -/
def queueOp (f : FmtE) : Option TrapKind := if 7 < objOf f then some .illegalOperand else none

/-- Sends of a team through a queue that have issued and not retired (R316). -/
def State.openSends (s : State) (t q : Nat) : Bool :=
  s.sends.any (fun x => decide (x.team = t) && decide (x.queue = q) &&
    (decide (x.phase = .requested) || decide (x.phase = .granted)))

/-- The target of a target word (Table 16.5): the team, or the trap. -/
def State.bindTarget (s : State) (n : Node) (t : Team) (w : Nat) : Team ⊕ TrapKind :=
  let core := w % 256
  if w / 2 ^ 11 % 2 ^ 21 ≠ 0 ∨ 240 ≤ core then .inr .illegalOperand
  else if (s.part n.part).hasCore core = false then .inr .routeFault
  else match s.teams.find? (fun u => decide (u.node = n.id) && t.clusterMate u && decide (u.core = core) &&
      (decide (u.phase = .placed) || decide (u.phase = .stopping))) with
    | some u => .inl u
    | none => .inr .illegalOperand

/-- `qbind` (R315). -/
def execQbind (c : Common) (f : FmtE) (s : State) : Out :=
  EOp.exec
    { v := engRegs c f [engSrc f.opa], extra := fun _ => queueOp f,
      run := fun x vs s =>
        let q := objOf f
        let w := vs.headD 0
        match x.recorded .qbind q with
        | some l => .done (s.noteDone x .qbind q 0 (some l)) noVal
        | none =>
          match s.bindTarget x.node x.team w with
          | .inr k => .trap k 0
          | .inl u =>
            if (Tbl.find? x.team.sendq q).isSome ∧ s.openSends x.team.id q = true then .stall .wait s
            else
              let (id, s1) := s.freshId
              let b : Binding := { id := id, core := w % 256, rq := w / 256 % 8, team := u.id, discards := 0 }
              .done ((s1.modTeam x.team.id (fun t => { t with sendq := Tbl.put t.sendq q b })).noteDone x .qbind q 0 none) noVal } s

/-- `qunbind` (R316). -/
def execQunbind (c : Common) (f : FmtE) (s : State) : Out :=
  EOp.exec
    { v := engRegs c f [], extra := fun _ => queueOp f,
      run := fun x _ s =>
        let q := objOf f
        if (Tbl.find? x.team.sendq q).isNone then .done s noVal
        else if s.openSends x.team.id q then .stall .wait s
        else .done (s.modTeam x.team.id (fun t => { t with sendq := Tbl.del t.sendq q })) noVal } s

/-- The word of `qstat.send` (R317). Its target core stays the one that `qbind` named, though the target team may have restarted on
another: DESIGN CHOICE (log entry 76). -/
def sendWordOf (b : Option Binding) : Nat :=
  match b with
  | none => 0
  | some b => 1 + 2 ^ 8 * b.core + 2 ^ 16 * b.rq + 2 ^ 24 * (b.discards % 256)

/-- The word of `qstat.recv`; each field is cut to its width. -/
def recvWordOf (r : RecvQueue) : Nat :=
  r.msgs.length % 32 + 2 ^ 8 * (r.granted % 32) + 2 ^ 16 * (r.waiting.length % 32)

/-- The pair of `qstat.last`. -/
def lastWordOf (r : RecvQueue) : Nat :=
  match r.last with
  | none => 0
  | some m => m.mask.toNat + 2 ^ 32 * (m.srcRank % 16 + 2 ^ 4 * (m.srcQueue % 8) + 2 ^ 8 * (m.srcGroup % 32))

/-- `qstat` (R317). -/
def execQstat (c : Common) (f : FmtE) (s : State) : Out :=
  let form := f.flags.toNat % 4
  EOp.exec
    { v := { engRegs c f [] with dWords := if form = 2 then 2 else 1 }, extra := fun _ => queueOp f,
      run := fun x _ s =>
        let q := objOf f
        .done s (fun _ _ =>
          if form = 0 then sendWordOf (Tbl.find? x.team.sendq q)
          else if form = 1 then recvWordOf (x.team.recv q)
          else lastWordOf (x.team.recv q)) } s

/-! ### Credits and messages (R310, R311, R313) -/

/-- The receive queues of the team are discarded (R309, R313). -/
def Team.recvGone (t : Team) : Bool := decide (t.phase = .ended) || decide (t.phase = .parked)

/-- Changes a send. -/
def State.modSend (s : State) (i : Nat) (f : Send → Send) : State :=
  { s with sends := s.sends.map (fun x => if x.id = i then f x else x) }

/-- The sends that stand before `x`. -/
def sendsBefore (x : Send) (l : List Send) : List Send := l.takeWhile (fun y => decide (y.id ≠ x.id))

/-- A credit request that one core sent to the same core before is still on its way: requests of one channel between two ports
arrive in order (R302). -/
def State.earlierRequest (s : State) (x : Send) : Bool :=
  (sendsBefore x s.sends).any (fun y => decide (y.phase = .requested) && decide (y.route = x.route) &&
    (match s.team? y.dstTeam with
      | some t => !(t.recv y.rq).waiting.contains y.id
      | none => true))

/-- CREDIT_REQUEST: the request reaches the receive queue, or the home of a discarded one, which grants at once (R313). -/
def execCreditRequest (send : Nat) (s : State) : Out :=
  match s.sends.find? (fun x => decide (x.id = send)) with
  | none => .next s
  | some x =>
    if x.phase ≠ .requested ∨ s.earlierRequest x = true then .next s
    else match s.team? x.dstTeam with
      | none => .next (s.modSend send (fun y => { y with phase := .granted, discarded := true }))
      | some t =>
        if t.recvGone then .next (s.modSend send (fun y => { y with phase := .granted, discarded := true }))
        else if (t.recv x.rq).waiting.contains send then .next s
        else .next (s.modTeam t.id (fun t => t.setRecv x.rq { t.recv x.rq with waiting := (t.recv x.rq).waiting ++ [send] }))

/-- CREDIT_GRANT: the queue grants the first request that waits, while a slot has no message or grant (R310). -/
def execCreditGrant (send : Nat) (s : State) : Out :=
  match s.sends.find? (fun x => decide (x.id = send)) with
  | none => .next s
  | some x =>
    match s.team? x.dstTeam with
    | none => .next s
    | some t =>
      let r := t.recv x.rq
      if x.phase = .requested ∧ r.waiting.head? = some send ∧ r.msgs.length + r.granted < 16 then
        .next ((s.modTeam t.id (fun t => t.setRecv x.rq { r with waiting := r.waiting.drop 1, granted := r.granted + 1 })).modSend
          send (fun y => { y with phase := .granted }))
      else .next s

/-- A message that has retired is injected once no earlier one of its binding waits for its words (R311). -/
def injected (x : Send) (l : List Send) : Bool :=
  decide (x.phase = .travelling) && !(sendsBefore x l).any (fun y => x.sameQueue y && decide (y.phase = .filling))

/-- An earlier message is still on its way: one that the same core injected before towards the same core (R302), or one of the same
binding (R311). -/
def earlierSend (x : Send) (l : List Send) : Bool :=
  (sendsBefore x l).any (fun y => (injected y l && decide (y.route = x.route)) ||
    (x.sameQueue y && (decide (y.phase = .travelling) || decide (y.phase = .filling))))

/-- MESSAGE_ARRIVAL: the message takes the slot that its credit reserved (R310, R311). -/
def execMessageArrival (send : Nat) (s : State) : Out :=
  match s.sends.find? (fun x => decide (x.id = send)) with
  | none => .next s
  | some x =>
    match x.phase, x.msg with
    | .travelling, some m =>
      if earlierSend x s.sends then .next s
      else
        let (seq, s0) := s.freshId
        let s1 : State := { s0 with sends := s0.sends.filter (fun y => decide (y.id ≠ send)) }
        .next (s1.modTeam x.dstTeam (fun t =>
          let r := t.recv x.rq
          t.setRecv x.rq { r with msgs := r.msgs ++ [{ m with seq := seq }], granted := r.granted - 1 }))
    | _, _ => .next s

end Sys2Proof.Machine
end

