-- ==== Sys2Proof/Machine/Placement.lean ====
section
/-! DEFINITION. Where teams run: room on a core (spec/01_machine.md R9, spec/10_local_memory.md R180, R193), rectangles
(spec/17_launch.md R323, R332, R334, R335), placement after fan-out, and pre-emption with its save and restart
(spec/18_faults.md R354 to R356; spec/07_registers.md R122 to R124). -/

namespace Sys2Proof.Machine

open Sys2Proof

/-! ### Room on a core -/

/-- What a team, or a reservation for one, takes of its core: scratchpad place and bytes, groups, registers a lane, banks. -/
structure Slot where
  base : Nat
  len : Nat
  groups : Nat
  regs : Nat
  banks : Nat
  deriving DecidableEq, Repr

/-- Core of a rank on a rectangle (R334). -/
def Node.coreAt (n : Node) (lead rank : Nat) : Nat := lead + rank / n.desc.cx * 6 + rank % n.desc.cx

/-- Lead core of the rectangle on which a rank has the core `c`. -/
def Node.leadOf (n : Node) (c rank : Nat) : Nat := c - (rank / n.desc.cx * 6 + rank % n.desc.cx)

def Node.ranks (n : Node) : Nat := n.desc.cx * n.desc.cy

/-- Teams and clusters of a node's grid. -/
def Node.teamCount (n : Node) : Nat := n.gridX * n.gridY * n.gridZ
def Node.clusterCount (n : Node) : Nat := (n.teamCount + n.ranks - 1) / n.ranks

def Team.onCore (t : Team) : Bool := decide (t.phase = .placed) || decide (t.phase = .stopping)

/-- A `.coresident` node's reservation stands (R332): from its dispatch, but for the time in which the scheduler has
pre-empted all its teams. -/
def State.reserves (s : State) (n : Node) : Bool :=
  n.desc.cores && n.dispatched &&
  (decide (n.parcels ≠ []) || !((s.teamsOf n.id).any (fun t => decide (t.phase = .saved))) ||
    (s.teamsOf n.id).any Team.onCore)

/-- The slots that `.coresident` nodes hold in reserve on a core: ranks without a team there. -/
def State.reservedOn (s : State) (core : Nat) : List Slot :=
  (s.nodes.filter s.reserves).flatMap (fun n =>
    n.clusters.flatMap (fun e => (List.range n.ranks).filterMap (fun r =>
      let i := e.1 * n.ranks + r
      if n.coreAt e.2.lead r = core ∧ i < n.teamCount ∧ (s.teamsOf n.id).any (fun t => decide (t.index = i) && t.onCore) = false then
        some { base := Tbl.get 0 e.2.bases r, len := n.desc.scratch, groups := n.groupCount, regs := n.desc.regs, banks := n.desc.banks }
      else none)))

/-- Everything that takes room on a core. -/
def State.slotsOn (s : State) (core : Nat) : List Slot :=
  ((s.teamsOn core).filterMap (fun t => (s.node? t.node).map (fun n =>
    { base := t.scratchBase, len := n.desc.scratch, groups := t.groups.length, regs := n.desc.regs, banks := t.banks.length }))) ++
  s.reservedOn core

/-- Scratchpad bytes for allocations (R180). -/
def Partition.allocTop (p : Partition) : Nat := Config.scratchBytes - 65536 * p.carve

/-- A free place for `len` bytes (R180). The rule asks for a free range, on a 65,536-byte boundary from that size up. That the
lowest is taken, and that a smaller one starts on a 128-byte boundary, is DESIGN CHOICE (log entry 65). -/
def freePlace (top len : Nat) (sl : List Slot) : Option Nat :=
  if len = 0 then some 0
  else
    let step := if 65536 ≤ len then 65536 else 128
    let used := sl.filter (fun x => decide (x.len ≠ 0))
    let cands := 0 :: used.map (fun x => (x.base + x.len + step - 1) / step * step)
    let ok := cands.filter (fun b => decide (b + len ≤ top) &&
      used.all (fun x => decide (b + len ≤ x.base) || decide (x.base + x.len ≤ b)))
    match ok with
    | [] => none
    | b :: t => some (t.foldl min b)

/-- Room for one team of a node beside the slots given, which needs `banks` banks: the place of its allocation (R9). -/
def roomFor (p : Partition) (n : Node) (banks : Nat) (sl : List Slot) : Option Nat :=
  if sl.foldl (fun k x => k + x.groups) n.groupCount ≤ 48 ∧
      sl.foldl (fun k x => k + x.groups * x.regs * 128) (n.groupCount * n.desc.regs * 128) ≤ 1572864 ∧
      sl.foldl (fun k x => k + x.banks) banks ≤ 16 then
    freePlace p.allocTop n.desc.scratch sl
  else none

/-! ### Rectangles -/

/-- The cores of a rectangle in rank order; none when it leaves its die or the partition. -/
def Partition.rect (p : Partition) (n : Node) (lead : Nat) : Option (List Nat) :=
  if lead < Config.cores ∧ lead % 6 + n.desc.cx ≤ 6 ∧ lead % 30 / 6 + n.desc.cy ≤ 5 then
    let cs := (List.range n.ranks).map (n.coreAt lead)
    if cs.all p.hasCore then some cs else none
  else none

/-- A rectangle of the partition has room for a team on each of its cores of the ranks given. -/
def State.rectRoom (s : State) (n : Node) (lead : Nat) (ranks : List Nat) : Bool :=
  match (s.part n.part).rect n lead with
  | none => false
  | some _ => ranks.all (fun r => (roomFor (s.part n.part) n n.desc.banks (s.slotsOn (n.coreAt lead r))).isSome)

/-- The ranks of a cluster that the grid gives a team. -/
def Node.liveRanks (n : Node) (k : Nat) : List Nat :=
  (List.range n.ranks).filter (fun r => decide (k * n.ranks + r < n.teamCount))

/-- Chooses disjoint rectangles for `k` more clusters among the lead cores given. -/
def packRects (n : Node) (ok : Nat → Bool) : List Nat → Nat → List Nat → Option (List Nat)
  | _, 0, _ => some []
  | [], _ + 1, _ => none
  | c :: t, k + 1, used =>
    let cs := (List.range n.ranks).map (n.coreAt c)
    if ok c && cs.all (fun x => !used.contains x) then
      match packRects n ok t k (cs ++ used) with
      | some l => some (c :: l)
      | none => packRects n ok t (k + 1) used
    else packRects n ok t (k + 1) used

/-- The cores of a cluster's rectangle. -/
def Node.coresOf (n : Node) (lead : Nat) : List Nat := (List.range n.ranks).map (n.coreAt lead)

/-- Lead cores for every cluster of a `.coresident` node with cluster `at_` on `lead`, all at once on disjoint rectangles
(R332). The ranks that the grid leaves vacant in the last cluster need no room. -/
def State.allRects (s : State) (n : Node) (at_ lead : Nat) : Option (List Nat) :=
  let ok (c : Nat) : Bool := s.rectRoom n c (List.range n.ranks)
  let all := List.range Config.cores
  let last := n.clusterCount - 1
  if s.rectRoom n lead (n.liveRanks at_) = false then none
  else if at_ = last ∨ n.liveRanks last = List.range n.ranks then
    (packRects n ok all last (n.coresOf lead)).map (fun l => l.take at_ ++ [lead] ++ l.drop at_)
  else all.findSome? (fun c =>
    if s.rectRoom n c (n.liveRanks last) && (n.coresOf c).all (fun x => !(n.coresOf lead).contains x) then
      (packRects n ok all (last - 1) (n.coresOf c ++ n.coresOf lead)).map (fun l => l.take at_ ++ [lead] ++ l.drop at_ ++ [c])
    else none)

/-- The node can place its first cluster with its lead core at `lead` now, or all its clusters when it is `.coresident`
(R332). -/
def State.canLead (s : State) (n : Node) (lead : Nat) : Bool :=
  if n.desc.cores then (s.allRects n 0 lead).isSome else s.rectRoom n lead (n.liveRanks 0)

def State.canPlace (s : State) (n : Node) : Bool := (List.range Config.cores).any (s.canLead n)

/-- A cluster on a rectangle, with places reserved for its ranks. -/
def State.reserveCluster (s : State) (n : Node) (lead : Nat) : Cluster :=
  { lead := lead
    bases := (List.range n.ranks).foldl (fun t r =>
      match roomFor (s.part n.part) n n.desc.banks (s.slotsOn (n.coreAt lead r)) with
      | some b => Tbl.set 0 t r b
      | none => t) [] }

/-- The clusters of a node whose dispatch chooses `lead` (R332, R334). -/
def State.clustersAt (s : State) (n : Node) (at_ lead : Nat) : Tbl Cluster :=
  if n.desc.cores then
    match s.allRects n at_ lead with
    | some ls => (indexed ls).map (fun e => (e.1, s.reserveCluster n e.2))
    | none => []
  else [(at_, { lead := lead, bases := [] })]

/-- The node fits its partition (R323): disjoint rectangles of one shape in a die's part of a partition number at most
columns over CX times rows over CY. -/
def State.fits (s : State) (part : Nat) (d : NodeDesc) (teams : Nat) : Bool :=
  let p := s.part part
  let groups := d.tx * d.ty * d.tz / 32
  let rects := ((List.range 8).map (fun die =>
    3 * (p.plats.filter (fun x => decide (x / 2 = die))).length / d.cx * (5 / d.cy))).foldl (fun a b => a + b) 0
  decide (groups ≤ 48) && decide (groups * d.regs * 128 ≤ 1572864) && decide (d.scratch ≤ p.allocTop) && decide (1 ≤ rects) &&
  (!d.cores || decide ((teams + d.cx * d.cy - 1) / (d.cx * d.cy) ≤ rects))

/-! ### What may run (R357, R390, R399) -/

/-- A world may have work started now: it runs, and its partition's slice is its own. -/
def State.worldOn (s : State) (w : Nat) : Bool :=
  let p := s.partOfWorld w
  (s.world w).running && !(s.world w).flr && (decide (p.running = none) || decide (p.running = some w)) &&
  s.hotDie.isNone && !s.halted && decide (s.rstage = 7#4)

/-- Work of another world of the partition still holds cores: the switch has not completed (R357). -/
def State.othersOn (s : State) (n : Node) : Bool :=
  s.teams.any (fun t => t.onCore && (match s.node? t.node with
    | some m => decide (m.part = n.part) && decide (m.world ≠ n.world)
    | none => false))

/-- A parcel of a node may issue: its node goes on and its world runs, once the slice of another has ended (R99, R357), and its
partition holds the lead core (R304). -/
def State.parcelRuns (s : State) (n : Node) : Bool :=
  n.ending.isNone && !s.stopsNode n && s.worldOn n.world && !s.othersOn n && (s.part n.part).hasCore n.leadCore

/-- No team is placed and no parcel runs in the package: its core clocks are gated (Table 20.6, R398). A pre-empted parcel does not
run (R116). -/
def State.idle (s : State) : Bool :=
  !(s.teams.any Team.onCore) && !(s.nodes.any (fun n => decide (n.parcels ≠ []) && s.parcelRuns n))

/-- A node may have its teams placed, restarted or dispatched. -/
def State.mayStart (s : State) (n : Node) : Bool :=
  s.worldOn n.world && !s.othersOn n && decide (n.ending = none) && !s.stopsNode n &&
  decide ((s.comp n.gcomp).state = .active)

/-! ### Placement after fan-out (R105, R334, R335) -/

/-- Teams of a cluster of a node. -/
def State.clusterTeams (s : State) (n k : Nat) : List Team := (s.teamsOf n).filter (fun t => decide (t.cluster = k))

/-- The cluster's rectangle is fixed: a team of it is placed, or the node's reservation stands (R332, R356). -/
def State.fixedRect (s : State) (n : Node) (k : Nat) : Option Cluster :=
  if (s.clusterTeams n.id k).any Team.onCore || (n.desc.cores && s.reserves n) then Tbl.find? n.clusters k else none

/-- A rectangle of the partition that a cluster may take: the one it has, or any while none of its teams is placed. -/
def State.rectFor (s : State) (n : Node) (k lead : Nat) : Bool :=
  ((s.part n.part).rect n lead).isSome &&
  (match s.fixedRect n k with
    | some c => decide (c.lead = lead)
    | none => true)

/-- A rectangle on which a fan-out may place a cluster: cluster 0 stays on the one chosen at dispatch (R334). -/
def State.fanRect (s : State) (n : Node) (k lead : Nat) : Bool :=
  s.rectFor n k lead && (decide (k ≠ 0) || (match Tbl.find? n.clusters 0 with
    | some c => decide (c.lead = lead)
    | none => true))

/-- The scratchpad place for a team on a core: the one reserved for it, or a free one. -/
def State.placeFor (s : State) (n : Node) (t : Team) (core banks : Nat) : Option Nat :=
  if n.desc.cores && s.reserves n then (Tbl.find? n.clusters t.cluster).map (fun c => Tbl.get 0 c.bases t.rank)
  else roomFor (s.part n.part) n banks (s.slotsOn core)

/-- Places one team: it takes its room, and its age counts from here (R82). What the start of its parcel acquired (R114,
R244, R266) holds for its core too, whose L1 is emptied (log entry 67). -/
def State.placeTeam (s : State) (t : Team) (core base : Nat) : State :=
  let (age, s1) := s.freshId
  (s1.modTeam t.id (fun x =>
    { x with phase := .placed, core := core, age := age, scratchBase := base, scratch := [], joined := true })).dropL1 core

/-- Places teams one after the other; none when one has no room. -/
def State.placeAll (n : Node) (lead : Nat) : List Team → State → Option State
  | [], s => some s
  | t :: r, s =>
    match s.placeFor n t (n.coreAt lead t.rank) n.desc.banks with
    | none => none
    | some b => State.placeAll n lead r (s.placeTeam t (n.coreAt lead t.rank) b)

/-- Places the waiting teams of the cluster of `t`, those of its fan-out, together, on the rectangle of `lead`. -/
def State.placeCluster (s : State) (n : Node) (t : Team) (lead : Nat) : Option State :=
  let new := sortTeams (s.teams.filter (fun u => t.clusterMate u && decide (u.phase = .toPlace)))
  let bases := match Tbl.find? n.clusters t.cluster with
    | some c => c.bases
    | none => []
  (State.placeAll n lead new s).map (fun s1 => s1.modNode n.id (fun x =>
    { x with clusters := Tbl.put x.clusters t.cluster { lead := lead, bases := bases } }))

/-- TEAM_PLACEMENT: the cluster of `team` is placed so that `team` gets `core`, lower clusters first (R105, R334). -/
def execTeamPlacement (team core : Nat) (s : State) : Out :=
  match s.team? team with
  | none => .next s
  | some t => match s.node? t.node with
    | none => .next s
    | some n =>
      let lead := n.leadOf core t.rank
      let first := (s.teamsOf n.id).all (fun u => decide (u.phase ≠ .toPlace) || decide (t.cluster ≤ u.cluster))
      if t.phase = .toPlace ∧ first = true ∧ s.mayStart n = true ∧ n.coreAt lead t.rank = core ∧ s.fanRect n t.cluster lead = true then
        match s.placeCluster n t lead with
        | some s1 => .next s1
        | none => .next s
      else .next s

/-! ### The causes of pre-emption (R354) -/

/-- The teams that are pre-empted with a team: all placed ones of a `.coresident` node. -/
def State.preemptSet (s : State) (n : Node) (t : Team) : List Team :=
  if n.desc.cores then (s.teamsOf n.id).filter (fun u => decide (u.phase = .placed)) else [t]

/-- Requests pre-emption of the placed teams that `p` gives. -/
def State.requestPreempt (s : State) (p : Team → Bool) : State :=
  { s with teams := s.teams.map (fun t => if t.phase = .placed ∧ p t = true then { t with preempt := true } else t) }

/-- A node of the ready pool (R331): a Ready one, or one that replays and awaits its dispatch (R365). -/
def Node.pooled (n : Node) : Bool := decide (n.state = .ready) || (decide (n.state = .running) && !n.dispatched)

/-- The first cause of R354: a Ready node of the partition cannot place its teams, and the team is the youngest of those
with a strictly lower effective priority. -/
def State.outranked (s : State) (n : Node) (t : Team) : Bool :=
  s.nodes.any (fun m => decide (m.part = n.part) && m.pooled && s.mayStart m && decide (n.effPrio < m.effPrio) && !s.canPlace m &&
    s.teams.all (fun u => !(decide (u.phase = .placed) &&
      s.nodeIs (fun x => decide (x.part = m.part) && decide (x.effPrio < m.effPrio)) u) || decide (u.age ≤ t.age)))

/-- Starts the pre-emption of a team, with those that go with it. -/
def State.preemptWith (s : State) (n : Node) (t : Team) : State :=
  (s.preemptSet n t).foldl (fun st u => st.startPreempt u.id) s

/-- TEAM_PREEMPT_START (R355, step 1). -/
def execTeamPreemptStart (team : Nat) (s : State) : Out :=
  match s.team? team with
  | none => .next s
  | some t => match s.node? t.node with
    | none => .next s
    | some n =>
      if t.phase = .placed ∧ (t.preempt || t.nwait.isSome || s.outranked n t) = true then
        .next (s.preemptWith n t)
      else .next s

/-- The instruction at an address, as the team's core has it in its instruction cache. -/
def State.cachedAt (s : State) (t : Team) (n : Node) (a : Addr) : Option Instr :=
  match Tbl.find? (s.core t.core).icache (lineKey n a) with
  | none => none
  | some l => match decode (lineSlot l.line (slotOf a)) with
    | .ok i => some i
    | .error _ => none

/-- Every member that group `g` meets in an instruction of scope `sc` stands at it. -/
def Team.meets (t : Team) (n : Node) (gr : Group) (sc : Scope) (g : Nat) (a : Addr) : Bool :=
  (handlerMembers gr (memberGroups n t sc g)).all (fun m => match t.groups[m]? with
    | some x => x.ended || x.counted.all (fun st => decide (x.strandAddr st = some a))
    | none => true)

/-- An `obrel`, `afree` or `tjoin` of the team whose members have met is in progress, or the team's end, with every strand at
an `exit` (R195). -/
def State.givingBack (s : State) (t : Team) (n : Node) : Bool :=
  (indexed t.groups).any (fun e => e.2.strands.any (fun st => match e.2.strandAddr st with
    | none => false
    | some a => match s.cachedAt t n a with
      | some (.obrel c _) | some (.afree c _) | some (.tjoin c _) => t.meets n e.2 c.scope e.1 a
      | _ => false)) ||
  t.groups.all (fun g => g.ended || g.counted.all (fun st => match g.strandAddr st with
    | some a => (match s.cachedAt t n a with
      | some (.exit _ _) => true
      | _ => false)
    | none => false))

/-- The youngest of a list of teams. -/
def youngest : List Team → Option Team
  | [] => none
  | t :: r => some (r.foldl (fun a u => if a.age < u.age then u else a) t)

/-- The team waits for a bank or a record, and none of that kind is free: a free one goes to its oldest waiter (R195). -/
def State.stuck (s : State) (t : Team) : Bool :=
  decide (t.phase = .placed) && [true, false].any (fun b => t.waitsRes b && s.allHeld t.core b)

/-- The team that R195 pre-empts on a core: the youngest of those that hold a record or a bank, when each of them waits for
one and none is free or given back. -/
def State.deadlocked (s : State) (core : Nat) : Option Team :=
  let ts := s.teamsOn core
  let holders := ts.filter (fun t => decide (t.banks ≠ []) || decide (t.obs ≠ []))
  if holders.all s.stuck && !(ts.any (fun t => s.nodeIs (s.givingBack t) t)) then youngest holders else none

/-- BANK_WAIT_DEADLOCK (R195). -/
def execBankWaitDeadlock (core : Nat) (s : State) : Out :=
  match s.deadlocked core with
  | some t => match s.node? t.node with
    | some n => .next (s.preemptWith n t)
    | none => .next s
  | none => .next s

/-- A cause of pre-emption stands for a team, or for one that is pre-empted with it (R354). -/
def State.preemptCause (s : State) (n : Node) (t : Team) : Bool :=
  (s.preemptSet n t).any (fun u => u.preempt || u.nwait.isSome || s.outranked n u || (match s.deadlocked u.core with
    | some d => decide (d.id = u.id)
    | none => false))

/-- `yield.t` (R352): where a cause of pre-emption stands, the team is pre-empted there, with those that go with it. -/
def execYield (c : Common) (_ : FmtC) (s : State) : Out :=
  issue c {} noStatic noUndef
    (fun x s => if s.preemptCause x.node x.team then .moved ((s.markIssued x true true).preemptWith x.node x.team) else .retire s)
    neverForm s

/-! ### The save (R355) -/

/-- Puts a message back among those of a queue, in arrival order (R119). -/
def insertMsg (m : Message) : List Message → List Message
  | [] => [m]
  | x :: t => if m.seq < x.seq then m :: x :: t else x :: insertMsg m t

/-- A claim of a team that is saved (Table 15.6, R283): a walk is abandoned. -/
def Claim.saved (c : Claim) : Claim :=
  match c.state with
  | .walking => { c.release with walker := none, outcome := .none }
  | .held | .flowing => { c with state := .dormant, reserved := false, walker := none, outcome := .none }
  | _ => { c with walker := none, outcome := .none }

/-- A group as it is saved: the record of R124 keeps what a first restart has not yet matched. A trap not yet entered is
discarded (R347), but for a deferred Protection whose store lies before the resume point and will not issue again
(R238, log entry 40). -/
def Group.saved (g : Group) : Group :=
  { g with
    log := g.log ++ g.replay, replay := [], empty := [], consumed := []
    deferred := match g.deferred with
      | some o => if o.kept then some o else none
      | none => none }

/-- The team as it is saved (Table 18.5). -/
def Team.saved (t : Team) (side : List SideEntry) : Team :=
  let back := t.groups.flatMap (fun g => g.consumed.map (fun e => e.2))
  { t with
    phase := .saved
    preempt := false
    groups := t.groups.map Group.saved
    recvq := back.foldl (fun q e => Tbl.set RecvQueue.empty q e.1 { (Tbl.get RecvQueue.empty q e.1) with
      msgs := insertMsg e.2 (Tbl.get RecvQueue.empty q e.1).msgs }) t.recvq
    banks := t.banks.map (fun e => (e.1, { e.2 with perturb := none }))
    claims := t.claims.map (fun e => (e.1, e.2.saved))
    sidelog := side }

/-- Node claims become Dormant when a team of the node is pre-empted, and stay so (R240, Table 15.6); their route tokens are
given up (R303). -/
def State.dormantNode (s : State) (node : Nat) : State :=
  s.modNode node (fun n => { n with claims := n.claims.map (fun e =>
    (e.1, if e.2.state = .held then { e.2 with state := .dormant, reserved := false } else e.2)) })

/-- What a save keeps of a side-log entry (R238): the lanes for which it lies before the resume point, and those that have
exited, which issue nothing again. -/
def SideEntry.saved (t : Team) (e : SideEntry) : Option SideEntry :=
  let out := match t.groups[e.group]? with
    | some g => g.exited
    | none => 0#32
  match e.lanes.filter (fun l => (e.passed ||| out).getLsbD l.1) with
  | [] => none
  | ls => some { e with lanes := ls, ready := false }

/-- Steps 3 and 4 of R355. -/
def State.saveTeam (s : State) (t : Team) : State :=
  let side := (s.core t.core).sidelog.filter (fun e => decide (e.team = t.id))
  let s1 := s.dropWalks (fun w => match w with
    | .side q => side.any (fun e => decide (e.seq = q))
    | _ => false)
  let s2 := s1.modCore t.core (fun c => { c with sidelog := c.sidelog.filter (fun e => decide (e.team ≠ t.id)) })
  let keep := side.filterMap (SideEntry.saved t)
  ((s2.modTeam t.id (fun x => x.saved keep)).dormantNode t.node).finishPreempt

/-- Work of the team is in flight that its save waits for (R355, step 2): side-logged entries are not. -/
def State.savePending (s : State) (t : Nat) : Bool :=
  s.reqs.any (fun r => decide (r.team = t) && decide (r.parcel = none)) || s.flows.any (fun f => decide (f.team = t)) ||
  s.fills.any (fun f => decide (f.team = t) && decide (f.parcel = none)) ||
  s.cores.any (fun c => c.2.matq.any (fun o => decide (o.team = t)))

/-- TEAM_STATE_SAVE. -/
def execTeamStateSave (team : Nat) (s : State) : Out :=
  match s.team? team with
  | none => .next s
  | some t => if t.phase = .stopping ∧ s.savePending team = false then .next (s.saveTeam t) else .next s

/-! ### Restart (R122, R123, R356) -/

/-- The address at which a lane restarts: its latest resume point, else the group's placement point. -/
def Group.restartPc (g : Group) (l : Nat) : Addr :=
  match Tbl.find? g.resume l with
  | some a => a
  | none => match g.placement with
    | some p => p.pc
    | none => g.pcOf l

/-- The lane is still at its placement point (R123). -/
def Group.atPlacement (g : Group) (l : Nat) : Bool := (Tbl.find? g.resume l).isNone

/-- The lanes of the group that have not exited and do not belong to strands that a handler has stopped. -/
def Group.restartLanes (g : Group) : List Nat :=
  match g.trap with
  | none => lanesOf (~~~g.exited)
  | some tr => lanesOf (quadLanes tr.quads &&& ~~~tr.outside &&& ~~~g.exited)

/-- What is kept with the one resume point that every lane of the group that has not exited holds; none when they hold
different ones (R122). -/
def Group.keptPoint (g : Group) : Option Kept :=
  let ls := lanesOf (~~~g.exited)
  match ls.map (fun l => Tbl.find? g.resume l) with
  | [] => none
  | a :: t =>
    if t.all (fun b => b == a) then
      match a with
      | some p => g.kept.find? (fun k => decide (k.addr = p))
      | none => some { addr := g.restartPc (ls.headD 0), strands := [0xFF#8], divs := [] }
    else none

/-- The strands of a group at restart (R122): those kept with the one resume point, else one strand. In handler mode the
handler strand stands alone and the quads left stay stopped (R343). -/
def Group.restartStrands (g : Group) : List Strand :=
  match g.trap with
  | some tr =>
    let rest := 0xFF#8 &&& ~~~tr.quads
    [Strand.fresh tr.quads] ++ (if rest = 0#8 then [] else [{ Strand.fresh rest with stopped := true }])
  | none =>
    match g.keptPoint with
    | some k => k.strands.map Strand.fresh
    | none => [Strand.fresh 0xFF#8]

/-- The record stack at restart: kept with the one resume point, and empty otherwise (R122). Its lanes run again from
there. -/
def Group.restartDivs (g : Group) : List DivRec :=
  match g.keptPoint with
  | some k => k.divs.map (fun d => { d with parked := 0#32 })
  | none => []

/-- A register at restart: the working set as saved, zero for a lane at its placement point, else unpredictable (R122,
log entry 6). `k` numbers the free values. -/
def Group.restartReg (g : Group) (k r l : Nat) : Word :=
  if g.atPlacement l then 0#32
  else if g.ws.any (fun w => decide (w.1 ≤ r) && decide (r < w.1 + w.2)) then g.reg r l
  else Config.restartReg (32 * (1536 * k + r) + l)

/-- Predicates of the lanes at their placement point go back to what fan-out made of them. -/
def restorePreds (now then_ : Tbl LaneMask) (m : LaneMask) : Tbl LaneMask :=
  (List.range 7).foldl (fun t k =>
    Tbl.set 0#32 t k ((Tbl.get 0#32 now k &&& ~~~m) ||| (Tbl.get 0#32 then_ k &&& m))) now

/-- A group at restart. The loop state set aside in handler mode has no lane that waits at a body's end (R345). -/
def Group.restart (g : Group) (regs k : Nat) : Group :=
  if g.ended then g
  else
    let live := ~~~g.exited
    let at_ := maskOf (fun l => live.getLsbD l && g.atPlacement l)
    let all := decide (at_ = live)
    let pcs := laneList.foldl (fun t l => Tbl.set 0#64 t l (g.restartPc l)) g.pc
    let base : List Loop := match g.placement with
      | some p => if all then p.loops else g.keptLoops
      | none => g.keptLoops
    let loops := (g.restartLanes.foldl (fun ls l => loopsAfter (g.restartPc l) ls) base).map (fun lp => { lp with waiting := 0#32 })
    let g' : Group := { g with
      regs := Tbl.ofFn 0#32 (32 * regs) (fun i => g.restartReg k (i / 32) (i % 32))
      empty := []
      ws := if all then [] else g.ws
      xbase := if all then [] else g.xbase
      xlimit := if all then [] else g.xlimit
      xoff := g.xoff.filter (fun e => !at_.getLsbD (e.1 % 32))
      kval := match g.placement with
        | some p => restorePreds g.kval p.kval at_
        | none => g.kval
      kdef := match g.placement with
        | some p => restorePreds g.kdef p.kdef at_
        | none => g.kdef
      pc := pcs
      strands := g.restartStrands
      divs := g.restartDivs
      loops := loops
      passEnd := none
      trap := g.trap.map (fun tr => { tr with loops := tr.loops.map (fun lp => { lp with waiting := 0#32 }) })
      returned := live
      log := []
      replay := g.log }
    g'.dropEmpty

/-- The form file at restart: as fan-out made it while a group has lanes at their placement point (R123). -/
def Team.restartForm (t : Team) : Tbl FormVal :=
  match t.groups.findSome? (fun g => if !g.ended && (lanesOf (~~~g.exited)).any g.atPlacement then
      g.placement.map (fun p => p.form) else none) with
  | some f => f
  | none => t.form

/-- The node that the team's `nwait` waits for is final, or gone (R339). -/
def State.nwaitDone (s : State) (n : Node) (t : Team) : Bool :=
  match t.nwait with
  | none => true
  | some h => match s.nodes.find? (fun m => decide (m.part = n.part) && decide (m.handle = h)) with
    | none => true
    | some m => decide (m.state = .committed) || decide (m.state = .ended) || decide (m.state = .cancelled)

/-- An older team of a core waits for a resource that a saved team needs there (R195). -/
def State.olderNeeds (s : State) (t : Team) (core : Nat) : Bool :=
  s.olderWaits { t with core := core } true && decide (t.banks ≠ []) || s.olderWaits { t with core := core } false && decide (t.obs ≠ [])

/-- Room for a saved team's records and banks (R196), for which no older team waits (R195), and for its entries in the core's side
log (R236, R238). -/
def State.restoreRoom (s : State) (t : Team) (core : Nat) : Bool :=
  !s.olderNeeds t core &&
  decide (s.banksUsed core + t.banks.length ≤ 16) && decide (s.obsUsed core + t.obs.length ≤ 16) &&
  decide ((s.core core).sidelog.length + t.sidelog.length ≤ Config.sideLogEntries)

/-- The team takes its core again, with the state of Table 18.5, as an acquire at `.pkg`. -/
def State.restoreTeam (s : State) (n : Node) (t : Team) (core base : Nat) : State :=
  let k := s.fresh * 64
  let s1 : State := { s with fresh := s.fresh + 1 }
  let s2 := s1.modTeam t.id (fun x =>
    { x with
      phase := .placed, core := core, scratchBase := base, nwait := none, sidelog := [], form := x.restartForm
      groups := (indexed x.groups).map (fun e => e.2.restart n.desc.regs (k + e.1)) })
  let s3 := (s2.modCore core (fun c => { c with sidelog := c.sidelog ++ t.sidelog })).dropL1 core
  t.sidelog.foldl (fun st e =>
    st.askWalk (.side e.seq) n.world n.desc.comp core ((e.lanes.headD (0, e.page * 65536, 0, 0)).2.1)
      (if e.reduction then .atomic else .write)) s3

/-- The rectangles once the team's cluster stands on `lead`: a `.coresident` node takes all of them again (R332). -/
def State.rectsAgain (s : State) (n : Node) (t : Team) (lead : Nat) : Option State :=
  if n.desc.cores && !s.reserves n then
    (s.allRects n t.cluster lead).map (fun ls => s.modNode n.id (fun x => { x with clusters := (indexed ls).map (fun e =>
      (e.1, s.reserveCluster n e.2)) }))
  else some (s.modNode n.id (fun x => { x with clusters := match Tbl.find? x.clusters t.cluster with
    | some c => Tbl.put x.clusters t.cluster { c with lead := lead }
    | none => Tbl.put x.clusters t.cluster { lead := lead, bases := [] } }))

/-- TEAM_RESTART (R356). -/
def execTeamRestart (team core : Nat) (s : State) : Out :=
  match s.team? team with
  | none => .next s
  | some t => match s.node? t.node with
    | none => .next s
    | some n =>
      let lead := n.leadOf core t.rank
      if t.phase = .saved ∧ s.mayStart n = true ∧ s.nwaitDone n t = true ∧ n.coreAt lead t.rank = core ∧
          s.rectFor n t.cluster lead = true ∧ s.restoreRoom t core = true then
        match s.rectsAgain n t lead with
        | none => .next s
        | some s1 => match s1.node? n.id with
          | none => .next s
          | some n1 =>
            let place := if n1.desc.cores then (Tbl.find? n1.clusters t.cluster).map (fun c => Tbl.get 0 c.bases t.rank)
              else roomFor (s.part n.part) n t.banks.length (s.slotsOn core)
            match place with
            | none => .next s
            | some b => .next (s1.restoreTeam n1 t core b)
      else .next s

/-! ### Requests (R354, R357, R389, R396) -/

/-- The parcels of the nodes that `p` gives are pre-empted, each between two instructions, and resume: each on the lead core it
had, or on that of another rectangle with room, as the scheduler chooses while no team of cluster 0 holds the first
(R116, R356). -/
def State.moveParcels (s : State) (p : Node → Bool) : State :=
  (s.nodes.filter (fun n => p n && decide (n.parcels ≠ []) && !n.desc.cores)).foldl (fun st n =>
    let lead := Config.pick (65536 * st.fresh + n.id) % Config.cores
    if (st.clusterTeams n.id 0).any Team.onCore = false ∧ st.rectRoom n lead (n.liveRanks 0) = true then
      (st.modNode n.id (fun x => { x with clusters := Tbl.put x.clusters 0 { lead := lead, bases := [] } })).dropL1 lead
    else st) s

/-- A PREEMPT command for the nodes that `p` gives: it runs until their teams are saved, and their parcels are pre-empted
between instructions. -/
def State.startPreemptCmd (s : State) (v : DWord) (p : Node → Bool) : State :=
  let any := s.teams.any (fun t => t.onCore && s.nodeIs p t)
  ((({ s with preemptReg := (v, if any then 1#64 else 2#64) } : State).requestPreempt (s.nodeIs p)).moveParcels p)

/-- PREEMPT_WORLD: a write that finds the register busy is refused (R392). -/
def execPreemptWorld (world : Nat) (s : State) : Out :=
  if s.preemptReg.2 = 1#64 then .next s
  else if 64 ≤ world then .next { s with preemptReg := (BitVec.ofNat 64 world, 3#64) }
  else .next (s.startPreemptCmd (BitVec.ofNat 64 world) (fun n => decide (n.world = world)))

/-- PREEMPT_NODE (R389): a value from 64 to 65,535, or a handle that names no current entry, is refused. -/
def execPreemptNode (handle : DWord) (s : State) : Out :=
  let v := handle.toNat
  if s.preemptReg.2 = 1#64 then .next s
  else if v < 65536 ∨ s.nodes.any (fun n => decide (n.handle.toNat = v)) = false then
    .next { s with preemptReg := (handle, 3#64) }
  else .next (s.startPreemptCmd handle (fun n => decide (n.handle.toNat = v)))

/-- WORLD_HALT (R354, R396). -/
def execWorldHalt (world : Nat) (s : State) : Out :=
  .next ((s.modWorld world (fun w => { w with running := false })).requestPreempt (s.nodeIs (fun n => decide (n.world = world))))

/-- WORLD_RESUME (R390): ignored for a partition not in use. -/
def execWorldResume (world : Nat) (s : State) : Out :=
  if (s.partOfWorld world).inUse then
    .next ((s.modWorld world (fun w => { w with running := true })).moveParcels (fun n => decide (n.world = world)))
  else .next s

/-- The world has a Ready node, a pre-empted team or a pre-empted parcel (R357, R116). -/
def State.worldHasWork (s : State) (w : Nat) : Bool :=
  s.nodes.any (fun n => decide (n.world = w) && (n.pooled || decide (n.parcels ≠ []))) ||
  s.teams.any (fun t => decide (t.phase = .saved) && s.nodeIs (fun n => decide (n.world = w)) t)

/-- TIME_SLICE_END (R357): the slice of the running world is over, or it is halted, and `next` has work. Its parcels resume (R116). -/
def execTimeSliceEnd (part next : Nat) (s : State) : Out :=
  let p := s.part part
  let sliceOver := match p.running with
    | none => true
    | some w => !(s.world w).running || decide (p.sliceStart + (s.world w).slice.toNat * 65536 ≤ s.clock)
  if sliceOver = true ∧ p.running ≠ some next ∧ (s.world next).partId = part ∧ (s.world next).running = true ∧ s.worldHasWork next = true then
    .next (((s.modPart part (fun x => { x with running := some next, sliceStart := s.clock })).requestPreempt
      (s.nodeIs (fun n => decide (n.part = part) && decide (n.world ≠ next)))).moveParcels
        (fun n => decide (n.part = part) && decide (n.world = next)))
  else .next s

end Sys2Proof.Machine
end

