-- ==== Sys2Proof/Machine/Launch.lean ====
section
/-! DEFINITION. Launches and nodes (spec/17_launch.md): the records, acceptance, the node table and the ready pool,
dispatch, commit and end, device-side launch, and the replay of nodes and launches (spec/18_faults.md R360 to R367). -/

namespace Sys2Proof.Machine

open Sys2Proof

/-! ### Records (R320 to R322) -/

/-- A launch record read (Table 17.1). -/
structure LaunchRec where
  done : Nat
  tag : Word
  nnodes : Nat
  graph : Nat
  deriving DecidableEq, Repr

/-- The fields of a launch record, read before they are checked (R325). -/
def rawLaunch (ds : List DWord) : LaunchRec :=
  let d (i : Nat) := ds.getD i 0#64
  { done := dfield (d 2) 0 57, tag := BitVec.ofNat 32 (dfield (d 1) 32 32), nnodes := dfield (d 1) 0 13, graph := dfield (d 0) 0 57 }

/-- NNODES is a number of nodes that a record may have. -/
def LaunchRec.counts (r : LaunchRec) : Bool := decide (0 < r.nnodes) && decide (r.nnodes ≤ 4096)

/-- Reads a launch record; none when it is refused. -/
def parseLaunch (ds : List DWord) : Option LaunchRec :=
  let d (i : Nat) := ds.getD i 0#64
  let r := rawLaunch ds
  if (ds.drop 3).any (fun x => decide (x ≠ 0#64)) = true ∨ dfield (d 2) 57 7 ≠ 0 ∨ r.done % 32 ≠ 0 ∨
      dfield (d 1) 13 19 ≠ 0 ∨ r.counts = false ∨ dfield (d 0) 57 7 ≠ 0 ∨ r.graph % 64 ≠ 0 then none
  else some r

/-- DONE of a record, when it is a usable place (R326). -/
def doneOf (ds : List DWord) : Option Nat :=
  let a := dfield (ds.getD 2 0#64) 0 57
  if a % 32 = 0 then some a else none

/-- The fields of a node entry (Table 17.2), read before they are checked. -/
def rawEntry (ds : List DWord) : NodeEntry :=
  let d (k : Nat) := ds.getD k 0#64
  { desc := dfield (d 0) 0 57, param := dfield (d 1) 0 57, mwin := BitVec.ofNat 64 (dfield (d 2) 0 57),
    nx := dfield (d 3) 0 31, ny := dfield (d 3) 32 31, nz := dfield (d 4) 0 31, plen := dfield (d 4) 32 13,
    preds := ((List.range 4).map (fun k => dfield (d 5) (16 * k) 16)).filter (fun p => decide (p ≠ 0xFFFF)) }

/-- Reads a node entry (Table 17.2) of graph index `i`; none when it is malformed. -/
def parseEntry (i : Nat) (ds : List DWord) : Option NodeEntry :=
  let d (k : Nat) := ds.getD k 0#64
  let e := rawEntry ds
  if d 6 ≠ 0#64 ∨ d 7 ≠ 0#64 ∨ e.preds.any (fun p => decide (i ≤ p)) = true ∨ ¬ e.preds.Nodup ∨ dfield (d 4) 45 19 ≠ 0 ∨
      4096 < e.plen ∨ e.plen % 4 ≠ 0 ∨ (d 4).getLsbD 31 = true ∨ (d 3).getLsbD 63 = true ∨ (d 3).getLsbD 31 = true ∨
      e.nx = 0 ∨ e.ny = 0 ∨ e.nz = 0 ∨ 2 ^ 40 < e.nx * e.ny * e.nz ∨ dfield (d 2) 57 7 ≠ 0 ∨ dfield (d 2) 0 16 ≠ 0 ∨
      dfield (d 1) 57 7 ≠ 0 ∨ (e.plen ≠ 0 ∧ e.param % 64 ≠ 0) ∨ dfield (d 0) 57 7 ≠ 0 ∨ e.desc % 128 ≠ 0 then none
  else some e

/-- Reads a node descriptor (Table 17.3); none when it is malformed. -/
def parseNodeDesc (ds : List DWord) : Option NodeDesc :=
  let d (k : Nat) := ds.getD k 0#64
  let d2 := d 2
  let d3 := d 3
  let tx := dfield d2 0 11
  let ty := dfield d2 11 11
  let tz := dfield d2 22 11
  let cx := dfield d2 33 3
  let cy := dfield d2 36 3
  let lanes := tx * ty * tz
  let sets := (List.range 8).map (fun k => BitVec.ofNat 32 (dfield (d (4 + k / 2)) (32 * (k % 2)) 32))
  let ops := (List.range 8).map (fun k => (dfield (d (8 + k)) 0 57, dfield (d (8 + k)) 57 2))
  let badSet (m : BitVec 32) : Bool := decide (8 < (lanesOf m).length) || decide (2 ^ (lanes / 32) ≤ m.toNat)
  if (List.range 8).any (fun k => decide (dfield (d (8 + k)) 59 5 ≠ 0)) = true ∨
      ops.any (fun o => decide (o.1 % 32 ≠ 0) || (decide (o.2 = 0) && decide (o.1 ≠ 0))) = true ∨ sets.any badSet = true ∨
      dfield d3 43 21 ≠ 0 ∨ d3.getLsbD 35 = true ∨ dfield d3 29 3 ≠ 0 ∨ dfield d3 22 2 ≠ 0 ∨ dfield d3 5 3 ≠ 0 ∨
      16 < dfield d3 24 5 ∨ 12288 < dfield d3 8 14 ∨ dfield d3 0 5 = 0 ∨ 24 < dfield d3 0 5 ∨ dfield d2 39 25 ≠ 0 ∨
      cx = 0 ∨ 6 < cx ∨ cy = 0 ∨ 5 < cy ∨ 12 < cx * cy ∨ tx = 0 ∨ 1024 < tx ∨ ty = 0 ∨ 1024 < ty ∨ tz = 0 ∨ 1024 < tz ∨
      lanes % 32 ≠ 0 ∨ 1024 < lanes ∨ dfield (d 1) 57 7 ≠ 0 ∨ dfield (d 0) 57 7 ≠ 0 ∨ 5 ≤ dfield (d 1) 0 6 ∨ 5 ≤ dfield (d 0) 0 6 then
    none
  else some
    { entry := BitVec.ofNat 64 (dfield (d 0) 0 57), handler := BitVec.ofNat 64 (dfield (d 1) 0 57), tx := tx, ty := ty, tz := tz,
      cx := cx, cy := cy, regs := 64 * dfield d3 0 5, scratch := 128 * dfield d3 8 14, banks := dfield d3 24 5,
      prio := dfield d3 32 3, comp := dfield d3 36 4, checked := d3.getLsbD 40, cores := d3.getLsbD 41, bcast := d3.getLsbD 42,
      sets := sets, operands := ops }

/-- Teams of a grid. -/
def gridTeams (d : NodeDesc) (e : NodeEntry) : Nat :=
  ((e.nx + d.tx - 1) / d.tx) * ((e.ny + d.ty - 1) / d.ty) * ((e.nz + d.tz - 1) / d.tz)

/-! ### Reads and writes of the queue scheduler (R325, R326) -/

/-- The page of an access by an agent outside the cores that has no compartment id (log entry 10). -/
def State.agentPage (s : State) (who : Requester) (world va : Nat) (acc : Access) : Look :=
  if s.denied.any (fun d => decide (d.who = who) && decide (d.vpage = va / 65536)) then .trap .protection
  else match s.tlbFind (s.dieFor 0xFF world) world (va / 65536) with
    | none => .miss
    | some t =>
      if acc.writes ∧ (¬ t.attr.w ∨ ¬ t.dirty) then .miss
      else if acc.writes ∧ t.attr.s then .trap .stableWrite
      else
        let hpa := inPage t.ppage va
        match s.reach (s.world world).partId world t.attr.home hpa with
        | some k => .trap k
        | none => if s.enginePlace t.attr hpa = .register then .trap .protection else .ok hpa t.attr none

/-- What a read by the scheduler gives. -/
inductive AgentRead where
  | ok (bs : List Byte) (s : State)
  | wait (va : Nat)
  /-- a fault answered Invalid -/
  | invalid (va : Nat)
  /-- the bytes cannot be had: poison, or a place out of reach -/
  | bad
  deriving DecidableEq, Repr

/-- The bytes at a place for an agent without compartment id, and their poison. -/
def State.agentBytes (s : State) (world : Nat) (attr : Attr) (hpa n : Nat) : List Byte × Bool :=
  match s.enginePlace attr hpa with
  | .home => s.readSys hpa n
  | .port => (s.carveBytes hpa n, false)
  | .other => (s.bytes hpa n, false)
  | .host => (s.hostBytes (s.hostAddr world hpa) n, false)
  | _ => (List.replicate n 0#8, false)

/-- A page's faults answered Invalid for a requester. -/
def State.isDenied (s : State) (who : Requester) (va : Nat) : Bool :=
  s.denied.any (fun d => decide (d.who = who) && decide (d.vpage = va / 65536))

/-- Reads runs of bytes through a world's translation. -/
def State.agentRuns (who : Requester) (world : Nat) : List Run → List Byte → State → AgentRead
  | [], acc, s => .ok acc s
  | r :: t, acc, s =>
    match s.agentPage who world r.va .read with
    | .miss => .wait r.va
    | .trap _ => if s.isDenied who r.va then .invalid r.va else .bad
    | .ok hpa attr _ =>
      let b := s.agentBytes world attr hpa r.len
      if b.2 then .bad
      else State.agentRuns who world t (acc ++ b.1) (((if s.enginePlace attr hpa = .home then s.noteSys hpa r.len else s).noteRead none
        (s.enginePlace attr hpa) hpa r.va r.len))

/-- The runs of `n` bytes at `va`. -/
def flatRuns (va n : Nat) : List Run := ((List.range n).map (fun i => va + i)).foldr addRun []

def State.agentRead (s : State) (who : Requester) (world va n : Nat) : AgentRead := State.agentRuns who world (flatRuns va n) [] s

/-- A write by an agent without compartment id. -/
def State.agentWrite (s : State) (world : Nat) (attr : Attr) (hpa : Nat) (bs : List Byte) : State :=
  match s.enginePlace attr hpa with
  | .home => s.writeSys hpa bs
  | .port => s.modCore (carveCore hpa) (fun c => { c with carve := putBytes c.carve (carveOff hpa) bs })
  | .other => { s with mem := putBytes s.mem hpa bs }
  | .host =>
    let h := s.hostAddr world hpa
    { s with hostMem := (indexed bs).foldl (fun t e => Tbl.put t (h + e.1) (some e.2)) s.hostMem }
  | _ => s

/-! ### Acceptance (R325) -/

/-- A node read for acceptance. -/
structure NewNode where
  ent : NodeEntry
  desc : NodeDesc
  params : List Byte
  deriving DecidableEq, Repr

/-- What step 2 of R325 reads of a node: its entry, its descriptor, its parameters. -/
structure RawNode where
  ent : List DWord
  desc : List DWord
  params : List Byte
  deriving DecidableEq, Repr

/-- How reading a node, or all nodes, of a record ends. -/
inductive NodeRead where
  | ok (l : List RawNode) (s : State)
  | wait (va : Nat)
  | refuse (i : Nat) (kind : Nat) (eaddr : Nat)
  deriving DecidableEq, Repr

/-- The checks of a node on its compartment and its partition (R323, R369, R375). -/
def State.nodeAllowed (s : State) (world : Nat) (d : NodeDesc) (e : NodeEntry) : Bool :=
  decide ((s.comp (16 * world + d.comp)).state = .active) && (s.world world).session &&
  s.fits (s.world world).partId d (gridTeams d e)

/-- Reads one node: its entry, its descriptor, its parameters. -/
def State.readNode (s : State) (who : Requester) (world graph i : Nat) : NodeRead :=
  match s.agentRead who world (graph + 64 * i) 64 with
  | .wait va => .wait va
  | .invalid va => .refuse i 11 va
  | .bad => .refuse i 0 0
  | .ok eb s1 =>
    let e := rawEntry (dwordsOf eb)
    match s1.agentRead who world e.desc 128 with
    | .wait va => .wait va
    | .invalid va => .refuse i 11 va
    | .bad => .refuse i 0 0
    | .ok db s2 =>
      match s2.agentRead who world e.param e.plen with
      | .wait va => .wait va
      | .invalid va => .refuse i 11 va
      | .bad => .refuse i 0 0
      | .ok ps s3 => .ok [{ ent := dwordsOf eb, desc := dwordsOf db, params := ps }] s3

/-- Reads the nodes of a record from index `i` on. -/
def State.readNodes (who : Requester) (world graph : Nat) : Nat → Nat → List RawNode → State → NodeRead
  | 0, _, acc, s => .ok acc s
  | n + 1, i, acc, s =>
    match s.readNode who world graph i with
    | .ok l s1 => State.readNodes who world graph n (i + 1) (acc ++ l) s1
    | r => r

/-- Step 3 of R325 for the node of graph index `i`; none when it is malformed or does not fit. -/
def State.checkNode (s : State) (world i : Nat) (r : RawNode) : Option NewNode :=
  match parseEntry i r.ent, parseNodeDesc r.desc with
  | some e, some d => if s.nodeAllowed world d e then some { ent := e, desc := d, params := r.params } else none
  | _, _ => none

/-- The nodes of a record, when every one passes its checks; else the index of the first that does not. -/
def State.checkNodes (s : State) (world : Nat) : Nat → List RawNode → Nat ⊕ List NewNode
  | _, [] => .inr []
  | i, r :: t =>
    match s.checkNode world i r with
    | none => .inl i
    | some x =>
      match State.checkNodes s world (i + 1) t with
      | .inl j => .inl j
      | .inr l => .inr (x :: l)

/-- The entry indices of a partition's node table in use. -/
def Partition.usedIndices (p : Partition) : List Nat := p.nodes.map (fun n => n.handle.toNat % 65536)

/-- A handle for a new entry: any free index (R330, log entry 18), the generation after its last. -/
def Partition.newHandle (p : Partition) (fresh : Nat) : Word × Partition :=
  let used := p.usedIndices
  let free := (List.range Config.nodeTable).filter (fun i => !used.contains i)
  let i := free.getD (Config.pick fresh % free.length) 0
  let g := Tbl.get 0#16 p.gens i
  let g' := if g = 0xFFFF#16 then 1#16 else g + 1
  (BitVec.ofNat 32 (g'.toNat * 65536 + i), { p with gens := Tbl.set 0#16 p.gens i g' })

/-- A node as acceptance or `nlaunch` makes it. -/
def freshNode (id : Nat) (h : Word) (part world launch graph prio : Nat) (x : NewNode) (preds : List Word)
    (parent : Option Nat) : Node :=
  { id := id, handle := h, part := part, world := world, launch := launch, graph := graph, state := .pending, desc := x.desc,
    ent := x.ent, params := x.params, preds := preds, prio := prio, effPrio := prio, readyAt := 0, passed := 0,
    device := parent.isSome, parent := parent, spilled := false, dispatched := false, walking := false, cancelling := false,
    claims := [], extents := [], noExtents := false, firmware := false, parcels := [], clusters := [], cbars := [], replays := 0, replayed := false,
    escaped := false, noReplay := false, ending := none, consumed := none, badLine := none, trapKind := 0, eaddr := 0, shadow := [],
    shadowPages := [] }

/-- Adds a node to a partition's table. -/
def State.addNode (s : State) (part : Nat) (mk : Nat → Word → Node) : State × Word :=
  let (id, s1) := s.freshId
  let h := (s1.part part).newHandle s1.fresh
  let s2 : State := { s1 with fresh := s1.fresh + 1 }
  (s2.modPart part (fun _ => { h.2 with nodes := h.2.nodes ++ [mk id h.1] }), h.1)

/-- Adds the nodes of a record, in graph order; `hs` has the handles given so far. -/
def State.addNodes (part world launch priomax : Nat) : List NewNode → List Word → State → State
  | [], _, s => s
  | x :: t, hs, s =>
    let r := s.addNode part (fun id h => freshNode id h part world launch hs.length (min x.desc.prio priomax) x
      (x.ent.preds.map (fun p => hs.getD p 0#32)) none)
    State.addNodes part world launch priomax t (hs ++ [r.2]) r.1

/-- Fields of a queue's control block (Table 17.5). -/
def UQueue.log2n (q : UQueue) : Nat := dfield q.ctl 0 5
def UQueue.priomax (q : UQueue) : Nat := dfield q.ctl 12 3
def UQueue.vector (q : UQueue) : Nat := dfield q.ctl 16 16

/-- A control block that is not refused. -/
def UQueue.valid (q : UQueue) (world : Nat) : Bool :=
  decide (q.ring.toNat < 2 ^ 57) && decide (q.ring.toNat % 64 = 0) && decide (dfield q.ctl 32 32 = 0) && !q.ctl.getLsbD 15 &&
  !q.ctl.getLsbD 11 && decide (4 ≤ q.log2n) && decide (q.log2n ≤ 16) && decide (dfield q.ctl 5 6 = world) &&
  (decide (q.vector < 2048) || decide (q.vector = 0xFFFF)) && decide (q.resv = (0#64, 0#64))

/-- A queue's notify count: in its slot while it is mapped (R328). -/
def UQueue.count (q : UQueue) : DWord :=
  match q.slot with
  | some c => c.1
  | none => q.ncount

def UQueue.free : UQueue :=
  { ring := 0, ctl := 0, ncount := 0, taken := 0, dropped := 0, nodone := 0, resv := (0, 0), slot := none, since := 0, cut := false }

def State.uqueue (s : State) (w q : Nat) : UQueue := Tbl.get UQueue.free (s.world w).queues q

def State.modQueue (s : State) (w q : Nat) (f : UQueue → UQueue) : State :=
  s.modWorld w (fun x => { x with queues := Tbl.set UQueue.free x.queues q (f (Tbl.get UQueue.free x.queues q)) })

/-- A launch with no node yet. -/
def freshLaunch (id world part queue : Nat) (tag : Word) (done : Option Nat) : Launch :=
  { id := id, world := world, part := part, queue := queue, tag := tag, done := done, ndev := 0, ncommit := 0, first := none,
    refused := false, cancelled := false, poisoned := false, noReplay := false, nonReplayable := false, targets := [],
    shadow := [], replays := 0 }

/-- TAKEN advances (R327), and the acceptance's walks are forgotten. -/
def State.taken (s : State) (world queue : Nat) : State :=
  (s.dropWalks (fun r => decide (r = .scheduler world queue))).modQueue world queue (fun q => { q with taken := q.taken + 1 })

/-- A refused launch holds no table entries and runs no node (R325). -/
def State.refuseLaunch (s : State) (world queue : Nat) (tag : Word) (done : Option Nat) (i kind eaddr : Nat) : State :=
  let (id, s1) := s.freshId
  (s1.modPart (s.world world).partId (fun p =>
    { p with launches := p.launches ++
      [{ freshLaunch id world (s.world world).partId queue tag done with
          refused := true, first := some (i, kind, BitVec.ofNat 64 eaddr) }] })).taken world queue

/-- The pool of shadow pages as a launch accepted now finds it: `shsize` takes effect (R348, Table 18.3). Pages in use stay so. -/
def Partition.resizePool (p : Partition) : Partition :=
  { p with shfree := BitVec.ofNat 32 (p.shfree.toNat + p.shsize.toNat - p.shpool.toNat), shpool := p.shsize }

/-- The record that a queue's TAKEN names is read, checked and accepted or refused (R325). A record whose NNODES is no number of
nodes is refused before its nodes would be read. -/
def State.acceptRecord (s : State) (world queue : Nat) (q : UQueue) : State :=
  let who := Requester.scheduler world queue
  let part := (s.world world).partId
  let ask (va : Nat) : State := s.askWalkFor none who world 0 0xFF va .read
  match s.agentRead who world (q.ring.toNat + 64 * (q.taken.toNat % 2 ^ q.log2n)) 64 with
  | .wait va => ask va
  | .invalid va => s.refuseLaunch world queue 0 none 0xFFFF 11 va
  | .bad => s.refuseLaunch world queue 0 none 0xFFFF 0 0
  | .ok bs s1 =>
    let ds := dwordsOf bs
    let r := rawLaunch ds
    if r.counts = false then s1.refuseLaunch world queue r.tag (doneOf ds) 0xFFFF 0 0
    else if Config.nodeTable < (s.part part).nodes.length + r.nnodes then s
    else match State.readNodes who world r.graph r.nnodes 0 [] s1 with
      | .wait va => ask va
      | .refuse i kind ea => s1.refuseLaunch world queue r.tag (doneOf ds) i kind ea
      | .ok rs s2 =>
        if (parseLaunch ds).isNone then s2.refuseLaunch world queue r.tag (doneOf ds) 0xFFFF 0 0
        else match s2.checkNodes world 0 rs with
          | .inl i => s2.refuseLaunch world queue r.tag (doneOf ds) i 0 0
          | .inr ns =>
            let (id, s3) := s2.freshId
            let s4 := s3.modPart part (fun p =>
              { p.resizePool with launches := p.launches ++ [freshLaunch id world part queue r.tag (some r.done)] })
            (State.addNodes part world id q.priomax ns [] s4).taken world queue

/-- The package is past its reset sequence and has not halted (R397). -/
def State.up (s : State) : Bool := !s.halted && decide (s.rstage = 7#4)

/-- LAUNCH_ACCEPT (R325): of a mapped queue whose count exceeds TAKEN. -/
def execLaunchAccept (world queue : Nat) (s : State) : Out :=
  let q := s.uqueue world queue
  match q.slot with
  | some c =>
    if s.up = true ∧ q.taken.toNat < c.1.toNat ∧ q.valid world = true ∧ (s.partOfWorld world).inUse = true ∧ (s.world world).flr = false then
      .next (s.acceptRecord world queue q)
    else .next s
  | none => .next s

/-! ### Notifies and slots (R328, R329) -/

/-- A notify: exactly 1, in the slot or in NCOUNT; after a function-level reset in DROPPED (R384). -/
def State.notify (s : State) (world queue : Nat) : State :=
  s.modQueue world queue (fun q =>
    if (s.world world).flr || q.cut then { q with dropped := q.dropped + 1 }
    else match q.slot with
      | some c => { q with slot := some (c.1 + 1, c.2) }
      | none => { q with ncount := q.ncount + 1 })

/-- NOTIFY. -/
def execNotify (world queue : Nat) (s : State) : Out :=
  if world < 64 ∧ queue < 256 then .next (s.notify world queue) else .next s

/-- The queues of a partition's worlds, as world and number. -/
def State.partQueues (s : State) (part : Nat) : List (Nat × Nat × UQueue) :=
  s.worlds.flatMap (fun w => if w.2.partId = part then w.2.queues.map (fun q => (w.1, q.1, q.2)) else [])

/-- A queue whose count exceeds TAKEN (R329). -/
def UQueue.isWaiting (q : UQueue) : Bool := decide (q.taken.toNat < q.count.toNat)

/-- The element with the least key, the first of equals. -/
def leastBy {α : Type} (key : α → Nat) : List α → Option α
  | [] => none
  | a :: t => some (t.foldl (fun x y => if key y < key x then y else x) a)

/-- Maps a queue: NCOUNT is loaded into the slot. -/
def State.mapQueue (s : State) (w q : Nat) : State :=
  s.modQueue w q (fun x => { x with slot := some (x.ncount, s.clock), since := s.clock })

/-- Unmaps a queue: the slot's count is copied into NCOUNT. -/
def State.unmapQueue (s : State) (w q : Nat) : State :=
  s.modQueue w q (fun x => { x with ncount := x.count, slot := none, since := s.clock })

/-- QUEUE_SLOT_ROTATION (R329): a free slot goes to the queue that has waited longest; with none free, one rotation each
2^20 clocks. -/
def execQueueSlotRotation (part : Nat) (s : State) : Out :=
  let qs := s.partQueues part
  let mapped := qs.filter (fun e => e.2.2.slot.isSome)
  let wants := qs.filter (fun e => e.2.2.slot.isNone && e.2.2.isWaiting && !(s.world e.1).flr && !e.2.2.cut)
  match leastBy (fun (e : Nat × Nat × UQueue) => e.2.2.since) wants with
  | none => .next s
  | some w =>
    if mapped.length < 64 then .next (s.mapQueue w.1 w.2.1)
    else if s.clock < mapped.foldl (fun m e => max m e.2.2.since) 0 + 2 ^ 20 then .next s
    else
      let idle := mapped.filter (fun e => !e.2.2.isWaiting)
      match leastBy (fun (e : Nat × Nat × UQueue) => e.2.2.since) (if idle = [] then mapped else idle) with
      | none => .next s
      | some v => .next ((s.unmapQueue v.1 v.2.1).mapQueue w.1 w.2.1)

/-! ### The ready pool (R330 to R332, R336) -/

def Node.final (n : Node) : Bool := decide (n.state = .committed) || decide (n.state = .ended) || decide (n.state = .cancelled)

/-- A node of the partition by its handle. -/
def State.byHandle (s : State) (part : Nat) (h : Word) : Option Node := (s.part part).nodes.find? (fun n => decide (n.handle = h))

/-- Every predecessor of a Pending node has committed; one whose entry is gone imposes no wait. -/
def State.predsDone (s : State) (n : Node) : Bool :=
  n.preds.all (fun h => match s.byHandle n.part h with
    | none => true
    | some m => decide (m.state = .committed))

/-- A Pending node that may enter the pool but for its place. -/
def State.admissible (s : State) (n : Node) : Bool := decide (n.state = .pending) && !n.spilled && s.predsDone n

def Partition.poolSize (p : Partition) : Nat := (p.nodes.filter Node.pooled).length

/-- READY_POOL_ADMIT (R331): nodes added by `nlaunch` enter ahead of the others. -/
def execReadyPoolAdmit (part node : Nat) (s : State) : Out :=
  match s.node? node with
  | none => .next s
  | some n =>
    let ahead := (s.part part).nodes.any (fun m => m.device && s.admissible m)
    if n.part = part ∧ s.admissible n = true ∧ (s.part part).poolSize < Config.readyPool ∧ (n.device || !ahead) = true then
      .next (s.modNode node (fun x => { x with state := .ready, readyAt := s.clock, effPrio := x.prio }))
    else .next s

/-- PRIORITY_AGING (R332). -/
def execPriorityAging (part node : Nat) (s : State) : Out :=
  match s.node? node with
  | none => .next s
  | some n =>
    if n.part = part ∧ n.state = .ready ∧ n.effPrio < 7 ∧ n.readyAt + 2 ^ 20 * (n.effPrio - n.prio + 1) ≤ s.clock then
      .next (s.modNode node (fun x => { x with effPrio := x.effPrio + 1 }))
    else .next s

/-- The records in a partition's device launch queue, and those it has spilled (R336). -/
def Partition.devQueue (p : Partition) : List Node := p.nodes.filter (fun n => n.device && decide (n.state = .pending) && !n.spilled)
def Partition.spilledNodes (p : Partition) : List Node := p.nodes.filter (fun n => n.device && decide (n.state = .pending) && n.spilled)

/-- SPILL_RETURN (R336): the oldest spilled record returns. -/
def execSpillReturn (part : Nat) (s : State) : Out :=
  let p := s.part part
  match p.spilledNodes with
  | [] => .next s
  | n :: _ => if p.devQueue.length < Config.launchQueue then .next (s.modNode n.id (fun x => { x with spilled := false })) else .next s

/-! ### Dispatch (R332 to R334) -/

/-- The pool's order (R332): replays at the head, then effective priority, time Ready, index. -/
def poolBefore (a b : Node) : Bool :=
  let head (n : Node) : Nat := if n.state = .running then 0 else 1
  if head a ≠ head b then decide (head a < head b)
  else if a.effPrio ≠ b.effPrio then decide (b.effPrio < a.effPrio)
  else if a.readyAt ≠ b.readyAt then decide (a.readyAt < b.readyAt)
  else decide (a.handle.toNat % 65536 ≤ b.handle.toNat % 65536)

def insertPool (n : Node) : List Node → List Node
  | [] => [n]
  | m :: t => if poolBefore n m then n :: m :: t else m :: insertPool n t

def sortPool (l : List Node) : List Node := l.foldl (fun a n => insertPool n a) []

/-- The pool of a partition as dispatch looks at it: a node passed over 16 times stands alone. -/
def State.dispatchOrder (s : State) (part : Nat) : List Node :=
  let l := sortPool ((s.part part).nodes.filter (fun n => n.pooled && s.mayStart n))
  match l.find? (fun n => decide (16 ≤ n.passed)) with
  | some n => [n]
  | none => l

/-- The nodes of an order ahead of one. -/
def nodesBefore (id : Nat) : List Node → List Node
  | [] => []
  | n :: t => if n.id = id then [] else n :: nodesBefore id t

/-- The dispatch of a node on the rectangle of `lead`. A parent whose child is dispatched counts as escaped (R361). -/
def State.dispatch (s : State) (n : Node) (lead : Nat) : State :=
  let s1 := s.modNode n.id (fun x =>
    { x with
      state := if x.state = .running then .running else .dispatching
      dispatched := true, walking := true, clusters := s.clustersAt n 0 lead, claims := [], extents := [], passed := 0 })
  let s2 := match n.parent with
    | some p => s1.modNode p (fun x => { x with escaped := true })
    | none => s1
  if (s2.part n.part).running = none then
    s2.modPart n.part (fun p => { p with running := some n.world, sliceStart := s.clock })
  else s2

/-- NODE_DISPATCH: the first node of the order that can place its first cluster now, on a rectangle the scheduler
chooses (R332, R334). -/
def execNodeDispatch (part lead : Nat) (s : State) : Out :=
  let l := s.dispatchOrder part
  match l.find? s.canPlace with
  | none => .next s
  | some n =>
    if s.canLead n lead then
      .next ((nodesBefore n.id l).foldl (fun st m => st.modNode m.id (fun x => { x with passed := x.passed + 1 })) (s.dispatch n lead))
    else .next s

/-! ### The end of a node (R326, R346, R360) -/

/-- Removes everything a node holds but its table entry: teams, parcels, saved states, claims, accesses, side-log
entries, objects, replicas and shadows (R346, R365). -/
def State.discardNode (s : State) (node : Nat) : State :=
  match s.node? node with
  | none => s
  | some n =>
    let ts := (s.teamsOf node).map (fun t => t.id)
    let mine (t : Nat) : Bool := ts.contains t
    let seqs := s.cores.flatMap (fun c => (c.2.sidelog.filter (fun e => mine e.team)).map (fun e => e.seq))
    let s1 := s.dropWalks (fun w => match w with
      | .strand t _ _ => mine t
      | .claim t _ => mine t
      | .parcel x _ => decide (x = node)
      | .dispatch x _ => decide (x = node)
      | .side q => seqs.contains q
      | _ => false)
    let s2 : State :=
      { s1 with
        reqs := s1.reqs.filter (fun r => decide (r.node ≠ node))
        fills := s1.fills.filter (fun f => match f.parcel with
          | some p => decide (p.1 ≠ node)
          | none => !mine f.team)
        flows := s1.flows.filter (fun f => !mine f.team)
        sends := s1.sends.filter (fun x => !mine x.team && !mine x.dstTeam)
        teams := s1.teams.filter (fun t => !mine t.id)
        replicas := s1.replicas.filter (fun r => decide (r.node ≠ node))
        cores := s1.cores.map (fun c => (c.1, { c.2 with
          matq := c.2.matq.filter (fun o => !mine o.team), sidelog := c.2.sidelog.filter (fun e => !mine e.team) })) }
    ((s2.modNode node (fun x =>
      { x with parcels := [], claims := [], extents := [], clusters := [], cbars := [], shadow := [], shadowPages := [],
               walking := false })).modPart n.part (fun p =>
        { p with shfree := p.shfree + BitVec.ofNat 32 n.shadowPages.length })).finishPreempt

/-- The flows, matrix operations and accesses of a node in flight have completed (R346, R365). -/
def State.drained (s : State) (node : Nat) : Bool :=
  let ts := (s.teamsOf node).map (fun t => t.id)
  !(s.flows.any (fun f => ts.contains f.team)) &&
  !(s.cores.any (fun c => c.2.matq.any (fun o => ts.contains o.team && o.started))) &&
  !(s.reqs.any (fun r => decide (r.node = node) && (match r.place with
    | .scratch | .peer _ => false
    | _ => r.kind.writes)))

/-- Nodes of a table with an Ended or Cancelled predecessor become Cancelled; a node stands after its predecessors. -/
def cancelPass : List Node → List Node → List Node
  | acc, [] => acc
  | acc, n :: t =>
    let dead := n.preds.any (fun h => acc.any (fun m => decide (m.handle = h) && (decide (m.state = .ended) || decide (m.state = .cancelled))))
    let n' := if dead && (decide (n.state = .pending) || decide (n.state = .ready)) then { n with state := .cancelled } else n
    cancelPass (acc ++ [n']) t

def State.cancelSuccessors (s : State) (part : Nat) : State := s.modPart part (fun p => { p with nodes := cancelPass [] p.nodes })

/-- FIRST of a node: its graph index, or 0xFFFF for a device-launched one (Table 17.4). -/
def Node.firstIx (n : Node) : Nat := if n.device then 0xFFFF else n.graph

/-- The node is discarded and takes state Ended with a kind and eaddr (R326, R346). -/
def State.endNode (s : State) (n : Node) (k : TrapKind) (eaddr : DWord) : State :=
  let s1 := (s.discardNode n.id).modNode n.id (fun x =>
    { x with state := .ended, trapKind := k.code, eaddr := eaddr, ending := none, consumed := none })
  let s2 := s1.modLaunch n.launch (fun l =>
    { l with first := match l.first with
        | some f => some f
        | none => some (n.firstIx, k.code, eaddr) })
  s2.cancelSuccessors n.part

/-- The node becomes Cancelled by the host. -/
def State.cancelNode (s : State) (n : Node) : State :=
  ((s.discardNode n.id).modNode n.id (fun x =>
    { x with state := .cancelled, ending := none, consumed := none, cancelling := false })).cancelSuccessors n.part

/-- NODE_END_BY_TRAP (R346), and the end of a node that the host has cancelled. -/
def execNodeEndByTrap (node : Nat) (s : State) : Out :=
  match s.node? node with
  | none => .next s
  | some n =>
    match n.ending with
    | none => .next s
    | some e =>
      if s.drained node = false ∨ (e.1 = .keyRevoked ∧ n.cancelling = false) then .next s
      else if n.cancelling then .next (s.cancelNode n)
      else .next (s.endNode n e.1 e.2)

/-- HOST_CANCELLATION (Table 17.7): a node, or every node of its launch. One that runs stops, and becomes Cancelled once
its work in flight completes. -/
def execHostCancellation (world : Nat) (handle : DWord) (whole : Bool) (s : State) : Out :=
  match s.nodes.find? (fun n => decide (n.world = world) && decide (n.handle.toNat = handle.toNat)) with
  | none => .next s
  | some n =>
    let ns := s.nodes.filter (fun m => decide (m.id = n.id) || (whole && decide (m.launch = n.launch)))
    let live := ns.filter (fun m => !m.final)
    if live = [] then .next s
    else
      let s1 := live.foldl (fun st m =>
        if m.state = .pending ∨ m.state = .ready then st.cancelNode m
        else st.modNode m.id (fun x => { x with ending := some (.keyRevoked, 0#64), cancelling := true })) s
      .next (s1.modLaunch n.launch (fun l => { l with cancelled := true }))

/-! ### The walk of a node's operands (R333) -/

/-- The walk of one operand, from where it stands: its traverse record, and the pages of every element. -/
def State.walkOperand (s : State) (n : Node) (k : Nat) : State × WalkAt :=
  let o := n.desc.operands.getD k (0, 0)
  let w : Walker := { n := n, core := 0xFF, who := .dispatch n.id k }
  let a := (Tbl.get Claim.free n.claims k).walk
  let dst := decide (o.2 ≠ 1)
  let chk (_ : Bool) : WalkCheck :=
    { want := some n.desc.comp, gate := none, elem := fun _ => true, page := s.pageCheck n n.desc.comp dst s.ownPkg, group := none }
  walkOn (s.readTrav w o.1 a.src (fun t a => { a with src := some t }) a) fun s a =>
    (s, match a.src with
      | some t => s.walkPieces w chk (t.pieces.map (fun p => (dst, p))) a
      | none => .go a)

/-- Sets a node claim. -/
def State.setNodeClaim (s : State) (node k : Nat) (f : Claim → Claim) : State :=
  s.modNode node (fun x => { x with claims := Tbl.set Claim.free x.claims k (f (Tbl.get Claim.free x.claims k)) })

/-- The walk of operand `k` taken as far as it goes. -/
def State.stepOperand (s : State) (n : Node) (k : Nat) : State :=
  let dir := (n.desc.operands.getD k (0, 0)).2
  let who := Requester.dispatch n.id k
  let r := s.walkOperand n k
  let s0 := r.1.dropWalks (fun r => decide (r = who))
  match r.2 with
  | .wait a va wr want =>
    (r.1.setNodeClaim n.id k (fun c => { c with state := .walking, walk := a })).askWalkFor want who n.world n.desc.comp 0xFF va
      (if wr then .write else .read)
  | .poison => r.1.consume n.id .uncorrectable
  | .trap _ va =>
    (s0.endNode n .claimFaulted (BitVec.ofNat 64 va)).setNodeClaim n.id k (fun _ =>
      { Claim.free with state := .faulted, eaddr := BitVec.ofNat 64 va, outcome := .done 0 })
  | .limit st =>
    (s0.setNodeClaim n.id k (fun _ => { Claim.free with status := st, outcome := .done 0 })).modNode n.id (fun x => { x with noExtents := true })
  | .go a =>
    let es := a.exts.reverse.map (fun e => { e with dir := dir })
    (s0.setNodeClaim n.id k (fun _ => { Claim.free with state := .held, extents := es, gpages := a.gpages, reserved := true, outcome := .done 0 })).modNode
      n.id (fun x => { x with extents := x.extents ++ es })

/-- The first operand whose walk has not ended. -/
def Node.nextOperand (n : Node) : Option Nat :=
  (List.range 8).find? (fun k => n.isClaim k && decide ((Tbl.get Claim.free n.claims k).outcome = .none))

/-- Words of the parameter copy, zero from PLEN on (R324). -/
def Node.paramWord (n : Node) (i : Nat) : Word :=
  BitVec.ofNat 32 (bytesToNat ((List.range 4).map (fun b =>
    if 4 * i + b < n.ent.plen then n.params.getD (4 * i + b) 0#8 else 0#8)))

/-- The node's tract (R99). -/
def Node.tract (n : Node) (id : Nat) : Parcel :=
  { id := id, pc := n.desc.entry, lo := (0, 0, 0), hi := (n.gridX, n.gridY, n.gridZ)
    form := (List.range 16).foldl (fun f i => formSet f i (.uni (n.paramWord i))) []
    preds := [], loops := [], exits := [], flags := 0#6, hold := .none, entry := !n.replayed }

/-- The tract starts, as an acquire at `.pkg` or wider (R244, R266, R338). -/
def State.startTract (s : State) (n : Node) : State :=
  let (id, s1) := s.freshId
  (s1.modNode n.id (fun x => { x with state := .running, walking := false, parcels := [n.tract id] })).dropL1 n.leadCore

/-- DISPATCH_WALK_END (R333): one operand's walk at a time, and the tract once all have ended. -/
def execDispatchWalkEnd (node : Nat) (s : State) : Out :=
  match s.node? node with
  | none => .next s
  | some n =>
    if n.walking = true ∧ s.mayStart n = true then
      match n.nextOperand with
      | some k => .next (s.stepOperand n k)
      | none => .next (s.startTract n)
    else .next s

/-! ### Commit (R360, R362) -/

/-- The place that a page of shadows stands for (R360). -/
def State.shadowPlace (s : State) (key : Nat) : Place :=
  if 2 ^ 40 ≤ key then .port
  else s.placeOf ⟨65536 * key, { w := true, x := false, s := false, home := 0, comp := 0, size := 0 }, none, false⟩

/-- The extent that declares a page of shadows. -/
def Node.shadowExtent (n : Node) (key : Nat) : Option Extent :=
  n.extents.find? (fun e =>
    let k := if e.attr.home = 1#2 then 2 ^ 40 + e.ppage else e.ppage
    decide (k ≤ key) && decide (key < k + e.pages))

/-- A byte goes before the runs of the bytes after it; no run crosses a page. -/
def addShadow (e : Nat × Byte) (rs : List (Nat × List Byte)) : List (Nat × List Byte) :=
  match rs with
  | [] => [(e.1, [e.2])]
  | r :: t => if e.1 + 1 = r.1 ∧ e.1 / 65536 = r.1 / 65536 then (e.1, e.2 :: r.2) :: t else (e.1, [e.2]) :: r :: t

/-- The node's work is done (R360). -/
def State.committable (s : State) (n : Node) : Bool :=
  decide (n.state = .running) && n.dispatched && !n.walking && decide (n.parcels = []) && decide (n.ending = none) &&
  !s.stopsNode n && (s.teamsOf n.id).all (fun t => decide (t.phase = .ended) && !s.teamBusy t.id) &&
  !(s.reqs.any (fun r => decide (r.node = n.id))) && decide ((s.comp n.gcomp).state = .active) &&
  (s.peerKeyed || n.shadowPages.all (fun p => decide (s.shadowPlace p.1 ≠ .other)))

/-- The launch keeps the pre-launch copy of a committed page; a page whose copy it has goes back to the pool. -/
def State.keepCopy (s : State) (n : Node) (page : Nat) : State :=
  let back (st : State) : State := st.modPart n.part (fun p => { p with shfree := p.shfree + 1 })
  match s.launch? n.launch with
  | none => back s
  | some l =>
    if l.noReplay || (Tbl.find? l.shadow page).isSome then back s
    else s.modLaunch l.id (fun x =>
      { x with shadow := Tbl.put x.shadow page (s.pageCopy (s.shadowPlace page) (page * 65536 % 2 ^ 56)) })

/-- A page of shadows is about to become current: every L1 lets go of it and the launch keeps its copy (R362). A page that lies
elsewhere is written then, which is a target with the range written (R363). -/
def State.commitPage (s : State) (n : Node) (page : Nat) : State :=
  let pa := page * 65536 % 2 ^ 56
  let written := (n.shadow.filter (fun e => decide (e.1 / 65536 = page))).map (fun e => e.1)
  let lo := written.headD (page * 65536)
  let hi := written.getLastD (page * 65536) + 1
  let va := match n.shadowExtent page with
    | some e => (e.vpage + (page - (if e.attr.home = 1#2 then 2 ^ 40 + e.ppage else e.ppage))) * 65536
    | none => 0
  match s.shadowPlace page with
  | .home => (s.keepCopy n page).dropL1Range pa 65536
  | .port => s.keepCopy n page
  | p => (s.modPart n.part (fun q => { q with shfree := q.shfree + 1 })).notePlace n p (page * 65536) (va + lo % 65536) (hi - lo)

/-- The shadows of a node become current. -/
def State.commitShadows (s : State) (n : Node) : State :=
  let s1 := n.shadowPages.foldl (fun st p => st.commitPage n p.1) s
  (n.shadow.foldr addShadow []).foldl (fun st r =>
    st.putPlace n n.gcomp (s.shadowPlace (r.1 / 65536)) (r.1 % 2 ^ 56) r.2
      (match n.shadowExtent (r.1 / 65536) with
        | some e => e.attr.home
        | none => 0#2)) s1

/-- NODE_COMMIT (R360): a release at `.sys`. -/
def execNodeCommit (node : Nat) (s : State) : Out :=
  match s.node? node with
  | none => .next s
  | some n =>
    if s.committable n then
      let s1 := (s.commitShadows n).modNode node (fun x => { x with shadow := [], shadowPages := [] })
      .next (((s1.discardNode node).modNode node (fun x => { x with state := .committed })).modLaunch n.launch (fun l =>
        { l with ncommit := l.ncommit + 1 }))
    else .next s

/-! ### The end of a launch (R326) -/

/-- STATUS of a completion record (Table 17.4). -/
def State.launchStatus (s : State) (l : Launch) : Nat :=
  if l.refused then 3 else if l.poisoned then 5 else if l.cancelled then 4
  else if (s.nodesOfLaunch l.id).all (fun n => decide (n.state = .committed)) then 1 else 2

/-- The completion record (Table 17.4). -/
def State.completion (s : State) (l : Launch) : List Byte :=
  let f := l.first.getD (0xFFFF, 0, 0#64)
  natToBytes 8 (s.launchStatus l + (if l.noReplay then 65536 else 0) + 2 ^ 32 * l.tag.toNat) ++
  natToBytes 8 (l.ncommit + 2 ^ 32 * l.ndev) ++ natToBytes 8 (f.1 + 65536 * f.2.1) ++ natToBytes 8 (f.2.2.toNat % 2 ^ 57)

/-- The launch ends: the message, and its table entries and copies freed. `written`: the record was. -/
def State.closeLaunch (s : State) (l : Launch) (written : Bool) : State :=
  let q := s.uqueue l.world l.queue
  let s1 := if written then s else s.modQueue l.world l.queue (fun x => { x with nodone := x.nodone + 1 })
  let s2 : State := if q.vector = 0xFFFF then s1 else { s1 with outputs := s1.outputs ++ [.msix l.world q.vector] }
  (s2.dropWalks (fun r => decide (r = .completion l.id))).modPart l.part (fun p =>
    { p with
      nodes := p.nodes.filter (fun n => decide (n.launch ≠ l.id))
      launches := p.launches.filter (fun x => decide (x.id ≠ l.id))
      shfree := p.shfree + BitVec.ofNat 32 l.shadow.length })

/-- LAUNCH_END (R326): a release at `.sys`; a fault on the completion write holds it. -/
def execLaunchEnd (launch : Nat) (s : State) : Out :=
  match s.launch? launch with
  | none => .next s
  | some l =>
    if (s.nodesOfLaunch launch).all Node.final = false ∨ s.up = false then .next s
    else match l.done with
      | none => .next (s.closeLaunch l false)
      | some va =>
        match s.agentPage (.completion launch) l.world va .write with
        | .miss => .next (s.askWalkFor none (.completion launch) l.world 0 0xFF va .write)
        | .trap _ => .next (s.closeLaunch l false)
        | .ok hpa attr _ => .next ((s.agentWrite l.world attr hpa (s.completion l)).closeLaunch l true)

/-! ### Replay (R364 to R367) -/

/-- Children of a node that are Pending or Ready are discarded (R338, R365). -/
def State.dropChildren (s : State) (n : Node) : State :=
  let gone (m : Node) : Bool := decide (m.parent = some n.id) && (decide (m.state = .pending) || decide (m.state = .ready))
  let k := ((s.part n.part).nodes.filter gone).length
  (s.modPart n.part (fun p => { p with nodes := p.nodes.filter (fun m => !gone m) })).modLaunch n.launch (fun l =>
    { l with ndev := l.ndev - k })

def State.countReplay (s : State) (part : Nat) : State := s.modPart part (fun p => { p with rpcount := p.rpcount + 1 })

/-- R365. A node that was still Pending waits on for its predecessors. -/
def State.replayNode (s : State) (n : Node) : State :=
  (((s.discardNode n.id).dropChildren n).modNode n.id (fun x =>
    { x with state := if n.state = .pending then .pending else .running, dispatched := false, replays := x.replays + 1, replayed := true, consumed := none, passed := 0,
             escaped := false, noExtents := false })).countReplay n.part

/-- The entries of an uncontained report (Table 18.8). -/
def Target.toBytes (t : Target) : List Byte :=
  natToBytes 8 (t.addr % 2 ^ 57 + 2 ^ 61 * (t.kind % 8)) ++ natToBytes 8 (t.pkg % 512 + 2 ^ 32 * (t.len % 2 ^ 32))

/-- The report of R367. -/
def reportBytes (l : Launch) (n : Node) (k : TrapKind) : List Byte :=
  let ts := l.targets.take 64
  natToBytes 8 (ts.length + (if 64 < l.targets.length then 128 else 0) + (if l.noReplay then 256 else 0)) ++
  natToBytes 8 k.code ++ natToBytes 8 (n.handle.toNat + 2 ^ 32 * l.tag.toNat) ++ natToBytes 8 (n.eaddr.toNat % 2 ^ 57) ++
  ts.flatMap Target.toBytes

/-- The report goes to the world's error ring, and to the Basder error log (R367, Table 20.3; log entry 20). -/
def State.report (s : State) (l : Launch) (n : Node) (k : TrapKind) : State :=
  let w := s.world l.world
  let s1 := if w.errring = 0#64 then s
    else (s.writeSys (w.errring.toNat + Config.errPlace w.errcount) (reportBytes l n k)).modWorld l.world (fun x =>
      { x with errcount := x.errcount + 1 })
  s1.logError 8 0 l.tag.toNat

/-- Row 4 of Table 18.7. -/
def State.uncontained (s : State) (n : Node) (k : TrapKind) : State :=
  match s.launch? n.launch with
  | none => s.endNode n k 0
  | some l => ((s.endNode n k 0).report l n k).modLaunch l.id (fun x => { x with poisoned := true })

/-- NODE_REPLAY: the rows 1, 3 and 4 of Table 18.7, once the node's work in flight has completed. -/
def execNodeReplay (node : Nat) (s : State) : Out :=
  match s.node? node with
  | none => .next s
  | some n =>
    match n.consumed with
    | none => .next s
    | some k =>
      if s.drained node = false ∨ n.ending.isSome = true ∨ s.launchDue n.launch = true then .next s
      else match s.replayRow n with
        | 1 => .next (s.replayNode n)
        | 3 => .next (s.endNode n k 0)
        | _ => .next (s.uncontained n k)

/-- A node of the launch record returns to Pending with its parameter copy and handle (R366). -/
def Node.again (n : Node) : Node :=
  { n with state := .pending, effPrio := n.prio, passed := 0, dispatched := false, walking := false, noExtents := false,
           replayed := true, escaped := false, noReplay := false, ending := none, consumed := none, trapKind := 0, eaddr := 0 }

/-- The node has ended, or is about to, by KeyRevoked or by the host: it is never replayed (R342). -/
def Node.stays (n : Node) : Bool :=
  (decide (n.state = .ended) && decide (n.trapKind = TrapKind.keyRevoked.code)) ||
  (match n.ending with
    | some (k, _) => decide (k = .keyRevoked)
    | none => false)

/-- A node of the launch record at its replay. -/
def Node.atReplay (n : Node) : Node := if n.stays then { n with consumed := none } else n.again

/-- R366. -/
def State.replayLaunch (s : State) (l : Launch) : State :=
  let s1 := (s.nodesOfLaunch l.id).foldl (fun st n => st.discardNode n.id) s
  let s2 := l.shadow.foldl (fun st e => st.restorePage e.1 e.2) s1
  let s3 := s2.modPart l.part (fun p =>
    { p with
      nodes := (p.nodes.filter (fun n => !(decide (n.launch = l.id) && n.device))).map (fun n => if n.launch = l.id then n.atReplay else n)
      shfree := p.shfree + BitVec.ofNat 32 l.shadow.length })
  let first := (s3.nodesOfLaunch l.id).findSome? (fun n =>
    if n.state = .ended then some (n.firstIx, n.trapKind, n.eaddr) else none)
  ((s3.modLaunch l.id (fun x => { x with ndev := 0, ncommit := 0, first := first, shadow := [], targets := [], replays := x.replays + 1 })).countReplay
    l.part).cancelSuccessors l.part

/-- LAUNCH_REPLAY (R364, R366): every node of the launch has stopped issuing; once their work in flight has completed, the launch
starts over. A store in flight that makes it non-replayable leaves the error to its own node (R363), and the others go on. -/
def execLaunchReplay (launch : Nat) (s : State) : Out :=
  match s.launch? launch with
  | none => .next s
  | some l =>
    if s.launchDue launch = true ∧ (s.nodesOfLaunch launch).all (fun n => s.drained n.id) = true then .next (s.replayLaunch l)
    else .next s

/-! ### nlaunch, nwait, nstat (R337 to R340) -/

/-- A read by the lowest member of an engine instruction, run by run. -/
inductive CtxRead where
  | ok (bs : List Byte) (s : State)
  | wait (s : State)
  | trap (k : TrapKind) (eaddr : Nat)
  deriving DecidableEq, Repr

def Ctx.readRuns (x : Ctx) (m : Member) : List Run → List Byte → State → CtxRead
  | [], acc, s => .ok acc s
  | r :: t, acc, s =>
    match s.resolve x.node x.team.core (x.who m) .read r.va r.len with
    | .trap k => .trap k r.va
    | .miss => .wait (s.askWalk (x.who m) x.node.world x.node.desc.comp x.team.core r.va .read)
    | .ok f =>
      match s.step4 x.node 64 f with
      | some k => .trap k r.va
      | none =>
        let b := s.readLoc x.node x.node.gcomp (s.placeOf f) (x.node.shadowed r.va r.len) f.hpa r.va r.len f.attr.home
        if b.2.1 then .wait (b.2.2.consume x.node.id .uncorrectable)
        else Ctx.readRuns x m t (acc ++ b.1) b.2.2

/-- Reads `n` bytes at `va` for the issuing lanes. -/
def Ctx.readVa (x : Ctx) (s : State) (va n : Nat) : CtxRead :=
  match x.members with
  | [] => .wait s
  | m :: _ => if 2 ^ 57 < va + n then .trap .protection va else Ctx.readRuns x m (flatRuns va n) [] s

/-- The entry, descriptor and parameters that `nlaunch` reads, and then their checks (R338). A child in a world whose session has
ended is refused as a record would be (R375): IllegalOperand, DESIGN CHOICE (log entry 72). -/
def Ctx.readChild (x : Ctx) (s : State) (va : Nat) : EngRes ⊕ (NewNode × State) :=
  if va % 64 ≠ 0 then .inl (.trap .illegalOperand 0)
  else match x.readVa s va 64 with
  | .wait s1 => .inl (.stall .walk s1)
  | .trap k e => .inl (.trap k (BitVec.ofNat 64 e))
  | .ok eb s1 =>
    let raw := rawEntry (dwordsOf eb)
    match x.readVa s1 raw.desc 128 with
    | .wait s2 => .inl (.stall .walk s2)
    | .trap k a => .inl (.trap k (BitVec.ofNat 64 a))
    | .ok db s2 =>
      match x.readVa s2 raw.param raw.plen with
      | .wait s3 => .inl (.stall .walk s3)
      | .trap k a => .inl (.trap k (BitVec.ofNat 64 a))
      | .ok ps s3 =>
        match parseEntry 0xFFFF (dwordsOf eb), parseNodeDesc (dwordsOf db) with
        | some e, some d =>
          if e.preds ≠ [] ∨ s3.fits x.node.part d (gridTeams d e) = false ∨ (s3.world x.node.world).session = false then
            .inl (.trap .illegalOperand 0)
          else if d.comp ≠ x.node.desc.comp then .inl (.trap .protection 0)
          else .inr ({ ent := e, desc := d, params := ps }, s3)
        | _, _ => .inl (.trap .illegalOperand 0)

/-- R336: the queue and the spill region are full, or the node table is. -/
def Partition.launchFull (p : Partition) : Bool :=
  decide (Config.nodeTable ≤ p.nodes.length) ||
  (decide (Config.launchQueue ≤ p.devQueue.length) && decide (128 * p.spill ≤ p.spilledNodes.length))

/-- The oldest record of a full queue moves to the spill region (R336). -/
def State.spillOldest (s : State) (part : Nat) : State :=
  if Config.launchQueue ≤ (s.part part).devQueue.length then
    match (s.part part).devQueue with
    | [] => s
    | n :: _ => s.modNode n.id (fun x => { x with spilled := true })
  else s

/-- Appends a child (R336, R338): its handle and the machine. -/
def State.addChild (s : State) (n : Node) (x : NewNode) (after : Option Node) : State × Word :=
  let s1 := s.spillOldest n.part
  let priomax := match s.launch? n.launch with
    | some l => (s.uqueue l.world l.queue).priomax
    | none => 7
  let dead : Bool := match after with
    | some m => decide (m.state = .ended) || decide (m.state = .cancelled)
    | none => false
  let preds := match after with
    | some m => [m.handle]
    | none => []
  let r := s1.addNode n.part (fun id h =>
    { freshNode id h n.part n.world n.launch 0 (min x.desc.prio priomax) x preds (some n.id) with
      state := if dead = true then .cancelled else .pending })
  (r.1.modLaunch n.launch (fun l => { l with ndev := l.ndev + 1 }), r.2)

/-- `nlaunch` (R338): a commit instruction. -/
def execNlaunch (c : Common) (f : FmtE) (s : State) : Out :=
  let after := f.flags.getLsbD 1
  EOp.exec
    { v := engRegs c f (engAddrSrc f :: (if after then [engSrc f.opb] else [])), commit := true,
      run := fun x vs s =>
        let va := engAddr f x.team (vs.getD 0 0)
        match x.readChild s va with
        | .inl r => r
        | .inr (child, s1) =>
          let h := BitVec.ofNat 32 (vs.getD 1 0)
          let pred := if after then (s.byHandle x.node.part h).filter (fun m => decide (m.launch = x.node.launch)) else none
          if after = true ∧ (pred.isNone = true ∨ h = x.node.handle) then .trap .illegalOperand 0
          else if x.quiet s = false then .stall .wait s
          else if (s1.part x.node.part).launchFull then .done s1 noVal
          else
            let r := s1.addChild x.node child pred
            .done r.1 (fun _ _ => r.2.toNat) } s

/-- Codes of Table 17.7. -/
def NodeState.code : NodeState → Nat
  | .pending => 0 | .ready => 1 | .dispatching => 2 | .running => 3 | .committed => 4 | .ended => 5 | .cancelled => 6

/-- The status word of R340; state 7 for a handle that names no current entry. -/
def State.nodeStatus (s : State) (part : Nat) (h : Word) : Nat :=
  match s.byHandle part h with
  | none => 7
  | some n =>
    let l := s.launch? n.launch
    let nore := match l with
      | some x => x.noReplay
      | none => false
    n.state.code + (if n.replayed then 16 else 0) + (if n.noExtents then 32 else 0) + (if nore then 64 else 0) +
      (if n.state = .ended then 256 * n.trapKind else 0)

/-- `nwait` (R339): an acquire at `.pkg` once the node is final; else the team is pre-empted until then. -/
def execNwait (c : Common) (f : FmtE) (s : State) : Out :=
  EOp.exec
    { v := engRegs c f [engSrc f.opa],
      run := fun x vs s =>
        let h := BitVec.ofNat 32 (vs.headD 0)
        let st := s.nodeStatus x.node.part h
        if h = x.node.handle then .trap .illegalOperand 0
        else if 4 ≤ st % 8 then .done (s.dropL1 x.team.core) (fun _ _ => st)
        else
          let s1 := s.modTeam x.team.id (fun t => { t with nwait := some h })
          .stall .none ((s1.preemptSet x.node x.team).foldl (fun a u => a.startPreempt u.id) s1) } s

/-- `nstat` (R340). -/
def execNstat (c : Common) (f : FmtE) (s : State) : Out :=
  EOp.exec
    { v := engRegs c f [engSrc f.opa],
      run := fun x vs s => .done s (fun _ _ => s.nodeStatus x.node.part (BitVec.ofNat 32 (vs.headD 0))) } s

end Sys2Proof.Machine
end

