-- ==== Sys2Proof/Machine/Answers.lean ====
section
/-! DEFINITION. Answers to fault records and the fault-queue registers (spec/12_translation.md R232 to R237), translation
shootdowns (R231), page reset (spec/19_worlds.md R371) and migration (spec/14_visibility.md R265). -/

namespace Sys2Proof.Machine

open Sys2Proof

/-! ### The side log (R237) -/

/-- The side-log entry of a number. -/
def State.sideEntry? (s : State) (seq : Nat) : Option SideEntry :=
  (s.cores.flatMap (fun c => c.2.sidelog)).find? (fun e => decide (e.seq = seq))

def State.modSide (s : State) (seq : Nat) (f : SideEntry → SideEntry) : State :=
  { s with cores := s.cores.map (fun c => (c.1, { c.2 with sidelog := c.2.sidelog.map (fun e => if e.seq = seq then f e else e) })) }

def State.removeSide (s : State) (seq : Nat) : State :=
  { s with cores := s.cores.map (fun c => (c.1, { c.2 with sidelog := c.2.sidelog.filter (fun e => decide (e.seq ≠ seq)) })) }

/-- What a group owes after one more entry is discarded: eaddr is the lowest failing address (R237). -/
def Owed.join (a b : Owed) : Owed :=
  { trap := if b.trap.eaddr.toNat < a.trap.eaddr.toNat then b.trap else a.trap, kept := a.kept || b.kept, handler := a.handler || b.handler }

/-- An entry is discarded, and its group will be suspended with a deferred trap before the next instruction that it
issues (R237). The trap outlasts a save if every lane of the entry that has not exited had passed a later resume point (R238). -/
def State.dropSide (s : State) (seq : Nat) (k : TrapKind) : State :=
  match s.sideEntry? seq with
  | none => s
  | some e =>
    let owed (g : Group) : Owed :=
      { trap := { kind := k, eaddr := BitVec.ofNat 64 (lowestVa (e.lanes.map (fun l => l.2.1))), code := 0, deferred := true, scope := e.scope }
        kept := e.lanes.all (fun l => (e.passed ||| g.exited).getLsbD l.1)
        handler := e.handler }
    ((s.removeSide seq).modGroup e.team e.group (fun g =>
      { g with deferred := match g.deferred with
          | some o => some (o.join (owed g))
          | none => some (owed g) })).tryEnd e.team

/-! ### Answers (R233, R234) -/

/-- A waiter whose record is answered Invalid receives Protection: the refusal waits for the requester to look again; a
side-log entry is discarded. -/
def State.refuseWaiter (s : State) (w : Walk) : State :=
  let s1 : State := { s with walks := s.walks.filter (fun x => decide (x.id ≠ w.id)) }
  match w.who with
  | .side seq => s1.dropSide seq .protection
  | .faultWriter _ => s
  | .migration => s1
  | _ => { s1 with denied := s1.denied ++ [{ who := w.who, vpage := w.va / 65536, access := w.access }] }

/-- A waiter that met a Stage2InWalk fault, at the stage-1 entry of a level, is answered Invalid: a WalkAbort record goes to the
stage-1 queue (R234). -/
def State.abortWalk (s : State) (w : Walk) (level : Nat) : State :=
  (s.setWait w.id none none).mergeFault { w with waitOn := none, fault := none } false (w.va / 65536)
    { agent := w.who.agent, core := w.core, kind := kWalkAbort, access := w.access.code, world := w.world, comp := w.comp,
      stage := 1, level := level, id := 0, gpa := 0, va := w.va % 2 ^ 57 } 0

/-- A waiter of a record answered Retry walks again; the fault-queue writer tries its write again. -/
def State.retryWaiter (s : State) (w : Walk) : State :=
  match w.who with
  | .faultWriter world =>
    ({ s with walks := s.walks.filter (fun x => decide (x.id ≠ w.id)) } : State).retryHeld false world
  | _ => s.setWait w.id none none

/-- The answer acts on every waiter of a merge entry, on each as the fault that it met itself directs (R234), and frees the entry
(R235). -/
def State.resolveMerge (s : State) (id : Nat) (invalid : Bool) : State :=
  match s.merges.find? (fun m => decide (m.id = id)) with
  | none => s
  | some m =>
    let s1 : State := { s with merges := s.merges.filter (fun x => decide (x.id ≠ id)) }
    m.waiters.foldl (fun st i => match st.walks.find? (fun w => decide (w.id = i)) with
      | none => st
      | some w =>
        if invalid = false then st.retryWaiter w
        else match w.fault with
          | some (k, level) => if k = kStage2InWalk then st.abortWalk w level else st.refuseWaiter w
          | none => st.refuseWaiter w) s1

/-- The merge entry whose record an id names, if the id is outstanding. -/
def FaultQueue.answered (q : FaultQueue) (id : BitVec 32) : Option Nat :=
  (q.outstanding.find? (fun e => decide (e.1 = id))).map (fun e => e.2)

/-- The queue after an answer: an id that is not outstanding is counted in IGNORED (R233). -/
def FaultQueue.take (q : FaultQueue) (id : BitVec 32) : FaultQueue :=
  match q.answered id with
  | none => { q with ignored := q.ignored + 1 }
  | some _ => { q with outstanding := q.outstanding.filter (fun e => decide (e.1 ≠ id)) }

/-- An answer to the stage-1 queue of a world. -/
def State.fqAnswer (s : State) (world : Nat) (id : BitVec 32) (invalid : Bool) : State :=
  let q := (s.world world).fq
  let s1 := s.modWorld world (fun w => { w with fq := q.take id })
  match q.answered id with
  | none => s1
  | some m => s1.resolveMerge m invalid

/-- An answer to the stage-2 queue of a partition. -/
def State.s2qAnswer (s : State) (part : Nat) (id : BitVec 32) (invalid : Bool) : State :=
  let q := (s.part part).s2q
  let s1 := s.modPart part (fun p => { p with s2q := q.take id })
  match q.answered id with
  | none => s1
  | some m => s1.resolveMerge m invalid

/-! ### The queue registers (R232, Table 20.2, Table 20.4) -/

/-- A write of FQTAIL: a value above FQHEAD is ignored. -/
def State.fqtail (s : State) (world : Nat) (v : DWord) : State :=
  let q := (s.world world).fq
  if q.head.toNat < v.toNat then s
  else (s.modWorld world (fun w => { w with fq := { q with tail := v } })).retryHeld false world

/-- Held stage-2 records of a partition are written while places are free: through any world of the partition. -/
def State.retryPart (s : State) (part : Nat) : State :=
  match (s.part part).s2q.held with
  | [] => s
  | (r, _) :: _ => s.retryHeld true r.world

/-- A write of TAIL of a stage-2 queue: a value above HEAD is ignored. -/
def State.s2qTail (s : State) (part : Nat) (v : DWord) : State :=
  let q := (s.part part).s2q
  if q.head.toNat < v.toNat then s
  else (s.modPart part (fun p => { p with s2q := { q with tail := v } })).retryPart part

/-- A write of FQBASE: held records are tried at the new place (R232). -/
def State.fqbase (s : State) (world : Nat) (v : DWord) : State :=
  if v.toNat % 131072 ≠ 0 then s
  else
    let s1 := s.dropWalks (fun w => decide (w = .faultWriter world))
    (s1.modWorld world (fun w => { w with fq := { w.fq with base := v } })).retryHeld false world

/-- A write of BASE of a stage-2 queue. -/
def State.s2qBase (s : State) (part : Nat) (v : DWord) : State :=
  if v.toNat % 131072 ≠ 0 then s
  else (s.modPart part (fun p => { p with s2q := { p.s2q with base := v } })).retryPart part

/-- FQTAIL_WRITE (R232). -/
def execFqtailWrite (world : Nat) (v : DWord) (s : State) : Out := .next (s.fqtail world v)

/-- S2Q_TAIL_WRITE (R232). -/
def execS2qTailWrite (part : Nat) (v : DWord) (s : State) : Out := .next (s.s2qTail part v)

/-- FQBASE_WRITE (R232). -/
def execFqbaseWrite (world : Nat) (v : DWord) (s : State) : Out := .next (s.fqbase world v)

/-! ### Shootdowns (R231, R281) -/

/-- A page lies in a shootdown's range. -/
def Shootdown.inRange (d : Shootdown) (page : Nat) : Bool := decide (d.page ≤ page) && decide (page < d.page + d.count)

/-- A claim is held over a page in the range. -/
def Shootdown.coversClaim (d : Shootdown) (n : Node) (c : Claim) : Bool :=
  decide (n.world = d.world) &&
  (if d.stage2 then c.gpages.any d.inRange
   else c.extents.any (fun e => decide (e.vpage < d.page + d.count) && decide (d.page < e.vpage + e.pages)))

/-- A walk of the world has visited a page in the range, and begins again from the beginning (R279). -/
def Shootdown.restart (d : Shootdown) (c : Claim) : Claim :=
  if c.state = .walking ∧ c.walk.seen.any (fun e => d.inRange (if d.stage2 then e.gpage else e.vpage)) = true then
    { c with walk := .start } else c

/-- The translations of the range leave the TLBs, and what was read through them leaves the caches; walks begin again, and
the side-log entries of the range will walk again before they perform. -/
def State.shootPurge (s : State) (d : Shootdown) : State :=
  let ofWorld (t : Nat) : Bool := match (s.team? t).bind (fun x => s.node? x.node) with
    | some n => decide (n.world = d.world)
    | none => false
  let s1 : State := { s with
    tlb := s.tlb.filter (fun e => !(decide (e.world = d.world) && d.inRange (if d.stage2 then e.gpage else e.vpage)))
    replicas := s.replicas.filter (fun r => match s.node? r.node with
      | some n => decide (n.world ≠ d.world)
      | none => false)
    cores := s.cores.map (fun c => (c.1, { c.2 with
      icache := c.2.icache.filter (fun e => decide (e.1 / 2 ^ 57 / 16 ≠ d.world))
      l1 := c.2.l1.filter (fun e => decide (e.2.tag / 16 ≠ d.world))
      sidelog := c.2.sidelog.map (fun e =>
        if ofWorld e.team = true ∧ (d.stage2 || d.inRange e.page) = true then { e with ready := false } else e) }))
    teams := s.teams.map (fun t => if ofWorld t.id then { t with claims := t.claims.map (fun e => (e.1, d.restart e.2)) } else t) }
  let s2 := s1.nodes.foldl (fun st n =>
    if n.world = d.world then st.modNode n.id (fun x => { x with claims := x.claims.map (fun e => (e.1, d.restart e.2)) }) else st) s1
  (s.cores.flatMap (fun c => (c.2.sidelog.filter (fun e => ofWorld e.team && (d.stage2 || d.inRange e.page))).map (fun e => (c.1, e)))).foldl
    (fun st e => match (st.team? e.2.team).bind (fun t => st.node? t.node) with
      | some n => st.askWalk (.side e.2.seq) n.world n.desc.comp e.1 (e.2.page * 65536) (if e.2.reduction then .atomic else .write)
      | none => st) s2

/-- A shootdown begins: covered claims are revoked with cause 1, a Flowing one once its flows have completed. -/
def State.startShoot (s : State) (world : Nat) (stage2 : Bool) (page count : Nat) (by_ : ShootBy) : State :=
  let (id, s1) := s.freshId
  let d : Shootdown := { id := id, world := world, stage2 := stage2, page := page, count := count, by_ := by_ }
  let s2 : State := { s1 with shoots := s1.shoots ++ [d] }
  (s2.shootPurge d).revokeClaims d.coversClaim 1

/-- An access in flight that was issued before the shootdown and may use a translation of its range. -/
def State.shootReq (s : State) (d : Shootdown) (r : Req) : Bool :=
  decide (r.id < d.id) &&
  (match s.node? r.node with
    | some n => decide (n.world = d.world)
    | none => false) &&
  (match r.place with
    | .scratch | .peer _ | .param => false
    | _ => d.stage2 || d.inRange (r.va / 65536))

/-- Nothing covered is left in flight. -/
def State.shootDrained (s : State) (d : Shootdown) : Bool :=
  !(s.reqs.any (s.shootReq d)) &&
  !(s.teams.any (fun t => match s.node? t.node with
    | some n => t.claims.any (fun e => decide (e.2.state = .flowing) && d.coversClaim n e.2)
    | none => false))

/-- A shootdown completes: the status of its command register reads 2. -/
def State.endShoot (s : State) (d : Shootdown) : State :=
  let s1 := (s.shootPurge d).revokeClaims d.coversClaim 1
  let s2 : State := { s1 with shoots := s1.shoots.filter (fun x => decide (x.id ≠ d.id)) }
  match d.by_ with
  | .shoot => { s2 with shoot := (s2.shoot.1, s2.shoot.2.1, s2.shoot.2.2.1, 2#64) }
  | .s1 w => s2.modWorld w (fun x => { x with s1shoot := (x.s1shoot.1, x.s1shoot.2.1, 2#64) })

/-- A stage-1 shootdown of a world through its window; refused while one runs (R392). -/
def State.s1shoot (s : State) (world : Nat) (addr pages : DWord) : State :=
  if (s.world world).s1shoot.2.2 = 1#64 then s
  else (s.modWorld world (fun w => { w with s1shoot := (addr, pages, 1#64) })).startShoot world false (addr.toNat / 65536)
    pages.toNat (.s1 world)

/-- SHOOT_COMMAND (R231, R392). -/
def execShootCommand (world : Nat) (stage2 : Bool) (addr pages : DWord) (s : State) : Out :=
  if s.shoot.2.2.2 = 1#64 then .next s
  else
    let w := world % 64
    .next (({ s with shoot := (BitVec.ofNat 64 (w + if stage2 then 256 else 0), addr, pages, 1#64) } : State).startShoot w
      stage2 (addr.toNat / 65536) pages.toNat .shoot)

/-- S1SHOOT_COMMAND (R231, R392). -/
def execS1shootCommand (world : Nat) (addr pages : DWord) (s : State) : Out := .next (s.s1shoot world addr pages)

/-- SHOOTDOWN_COMPLETE (R231). -/
def execShootdownComplete (id : Nat) (s : State) : Out :=
  match s.shoots.find? (fun d => decide (d.id = id)) with
  | none => .next s
  | some d => if s.shootDrained d then .next (s.endShoot d) else .next s

/-! ### Page reset (R371) -/

/-- The lines of a range of pages return to version 0, and every copy is dropped. -/
def State.resetPages (s : State) (a n : Nat) : State :=
  let s1 : State := { s with mem := Tbl.delRange s.mem a (a + n), lines := Tbl.delRange s.lines (a / 128) ((a + n) / 128) }
  (((s1.fixNodes a (n / 128)).dropL1Range a n).dropReplicaRange a n).forgetLate a n

/-- PAGE_RESET (R371, Table 20.2): this package's DRAM only. -/
def execPageReset (addr pages : DWord) (s : State) : Out :=
  let a := addr.toNat / 65536 * 65536
  let s1 := if pkgOf a = s.pkgid.toNat ∧ isDram a = true then
      s.resetPages a (min (65536 * pages.toNat) (0x2A000000000 - localOf a)) else s
  .next { s1 with pgreset := (addr, pages, 2#64) }

/-! ### Migration (R265) -/

/-- Pages that move from `old` to `new`, `n` of them: in memory, or in a core's carve-out (R227). -/
structure Move where
  port : Bool
  old : Nat
  new : Nat
  n : Nat
  deriving DecidableEq, Repr

/-- A page after the move. -/
def Move.page (m : Move) (p : Nat) : Nat := if m.old ≤ p ∧ p < m.old + m.n then p - m.old + m.new else p

/-- An address after the move. -/
def Move.addr (m : Move) (a : Nat) : Nat := inPage (m.page (a / 65536)) a

/-- The move as the shadows' keys show it. -/
def Move.keys (m : Move) : Move := if m.port then { m with old := 2 ^ 40 + m.old, new := 2 ^ 40 + m.new } else m

/-- A listed table with its keys renamed. -/
def reKey {α : Type} (t : Tbl α) (f : Nat → Nat) : Tbl α := t.foldl (fun u e => Tbl.put u (f e.1) e.2) []

/-- The keys of a page's copy after the move: addresses, or places in the carve-out. -/
def Move.inner (m : Move) (a : Nat) : Nat :=
  if m.port then a - carveOff (65536 * m.old) + carveOff (65536 * m.new) else m.addr a

/-- The lines of the new frame: the copy of a dirty line is dirty, over what DRAM holds there; any other is DRAM's own. -/
def movedLine (o n : Line) (below : List Byte) : Line :=
  match o.tag with
  | some (_, true) =>
    { o with version := n.version, key := n.key, dram := if n.dram.isSome ∨ n.version = 0#64 then n.dram else some below }
  | _ => { o with version := if o.version.toNat < n.version.toNat then n.version else o.version, dram := none }

/-- The bytes and lines of the pages are copied to the new frame. -/
def State.copyFrame (s : State) (m : Move) : State :=
  if m.port then
    let src := Tbl.slice (s.core (carveCore (65536 * m.old))).carve (carveOff (65536 * m.old)) (carveOff (65536 * m.old) + 65536)
    let tag := Tbl.find? (s.core (carveCore (65536 * m.old))).carveTag (carveOff (65536 * m.old) / 65536)
    s.modCore (carveCore (65536 * m.new)) (fun c =>
      let lo := carveOff (65536 * m.new)
      { c with
        carve := src.foldl (fun t e => Tbl.set 0#8 t (m.inner e.1) e.2) (Tbl.delRange c.carve lo (lo + 65536))
        carveTag := match tag with
          | some k => Tbl.put c.carveTag (lo / 65536) k
          | none => Tbl.del c.carveTag (lo / 65536) })
  else
    let mem := (Tbl.slice s.mem (m.old * 65536) ((m.old + m.n) * 65536)).foldl (fun t e => Tbl.set 0#8 t (m.addr e.1) e.2)
      (Tbl.delRange s.mem (m.new * 65536) ((m.new + m.n) * 65536))
    let at_ (l : Nat) : Nat := l - 512 * m.old + 512 * m.new
    let was := Tbl.slice s.lines (512 * m.new) (512 * (m.new + m.n))
    let l1 := was.foldl (fun t e => Tbl.set Line.reset t e.1 { Line.reset with version := e.2.version }) s.lines
    let l2 := (Tbl.slice s.lines (512 * m.old) (512 * (m.old + m.n))).foldl (fun t e =>
      Tbl.set Line.reset t (at_ e.1) (movedLine e.2 (Tbl.get Line.reset s.lines (at_ e.1)) (s.bytes (128 * at_ e.1) 128))) l1
    let bad := if s.badNodes = [] then [] else ((List.range (512 * m.n)).map (fun i => 512 * m.old + i)).filter (fun x =>
      (Tbl.get Line.reset s.lines x).tag.isNone && s.nodeBad (128 * x))
    let l3 := bad.foldl (fun t x => Tbl.set Line.reset t (at_ x) { Tbl.get Line.reset t (at_ x) with poison := 0xF#4 }) l2
    let heads := (Tbl.slice s.heads (m.old * 65536) ((m.old + m.n) * 65536)).foldl (fun t e => Tbl.put t (m.addr e.1) e.2)
      (Tbl.delRange s.heads (m.new * 65536) ((m.new + m.n) * 65536))
    let late := (s.forgetLate (m.new * 65536) (m.n * 65536)).late.map (fun l => { l with unit := m.addr l.unit })
    ({ s with mem := mem, lines := l3, heads := heads, late := late } : State).fixNodes (65536 * m.new) (512 * m.n)

/-- Shadows and accesses in flight that name the old frame name the new one. -/
def State.moveNames (s : State) (world : Nat) (m : Move) : State :=
  let k := m.keys
  let copies (t : Tbl PageCopy) : Tbl PageCopy :=
    reKey (t.map (fun e => (e.1, if k.page e.1 = e.1 then e.2 else
      { e.2 with bytes := reKey e.2.bytes m.inner, lines := reKey e.2.lines (fun x => m.addr (128 * x) / 128) }))) k.page
  let s1 := s.nodes.foldl (fun st n => if n.world = world then
      st.modNode n.id (fun x => { x with shadow := reKey x.shadow k.addr, shadowPages := copies x.shadowPages }) else st) s
  let s2 := s1.launches.foldl (fun st l => if l.world = world then
      st.modLaunch l.id (fun x => { x with shadow := copies x.shadow }) else st) s1
  { s2 with reqs := s2.reqs.map (fun r => match s2.node? r.node with
      | some n => if n.world = world ∧ r.place = (if m.port then .port else .home) then { r with pa := m.addr r.pa } else r
      | none => r) }

/-- The pages can move: whole frames of this package's DRAM, or a page of one carve-out to a page of another (R227). -/
def State.canMove (s : State) (m : Move) : Bool :=
  decide (m.new ≠ m.old) && decide (m.new % m.n = 0) &&
  (if m.port then s.carveOk 0 (65536 * m.new)
   else
    let own (p : Nat) : Bool := isDram (65536 * p) && decide (pkgOf (65536 * p) = s.pkgid.toNat)
    own m.old && own m.new && own (m.new + m.n - 1))

/-- MIGRATION (R265): the engine moves the page of a guest-physical address, whatever its leaf's size, to another frame. While a
covered claim is Flowing it waits, and the claim's revocation is deferred. Its last step is a shootdown. -/
def execMigration (world : Nat) (gpa frame : DWord) (s : State) : Out :=
  match s.stage2 world gpa.toNat with
  | .leaf e page _ _ _ home size =>
    let n := 2 ^ leafBits size / 65536
    let first := gpa.toNat / 65536 / n * n
    let m : Move := { port := decide (home = 1#2), old := page - (gpa.toNat / 65536 - first), new := frame.toNat / 65536, n := n }
    if s.canMove m = false then .next s
    else
      let d : Shootdown := { id := s.nextId, world := world, stage2 := true, page := first, count := n, by_ := .shoot }
      let s1 := s.revokeClaims d.coversClaim 1
      if s1.teams.any (fun t => match s1.node? t.node with
          | some n => t.claims.any (fun c => decide (c.2.state = .flowing) && d.coversClaim n c.2)
          | none => false) then .next s1
      else
        let s2 := ((s1.dropL1Range (65536 * m.old) (65536 * n)).copyFrame m).moveNames world m
        let w := (s2.readEntry e).1
        let w' : DWord := (w &&& 0xFFF000000000FFFF#64) ||| BitVec.ofNat 64 (m.new * 65536)
        .next ((s2.writeSys e (natToBytes 8 w'.toNat)).shootPurge d)
  | _ => .next s

end Sys2Proof.Machine
end

