-- ==== Sys2Proof/Machine/Perform.lean ====
section
/-! DEFINITION. Accesses at their point of order (spec/13_memory.md R244 to R254; spec/10_local_memory.md R183, R184),
the world window as an access finds it (spec/20_host_domain.md R391), side-logged accesses (spec/12_translation.md R237),
TRANSLATION_WALK and REGISTER_FILL. -/

namespace Sys2Proof.Machine

open Sys2Proof

/-! ### The world window (R391, Table 20.4) -/

/-- A read of a register of a world's window; an unassigned offset reads 0 (R388). -/
def State.windowRead (s : State) (world off : Nat) : DWord :=
  let w := s.world world
  if 0x80000 ≤ off ∧ off < 0x88000 then Tbl.get 0#64 w.msix ((off - 0x80000) / 8)
  else match off with
    | 0x1000 => w.fq.base
    | 0x1008 => w.fq.head
    | 0x1010 => w.fq.tail
    | 0x1020 => w.s1shoot.1
    | 0x1028 => w.s1shoot.2.1
    | 0x1030 => w.s1shoot.2.2
    | 0x1038 => w.fq.ignored
    | 0x1040 => w.rstatus.setWidth 64
    | _ => 0

/-- A write of a register of a world's window. S1SHOOT starts with the write of its page count (R392). -/
def State.windowWrite (s : State) (world off : Nat) (v : DWord) : State :=
  if off < 0x800 then s.notify world (off / 8)
  else if 0x80000 ≤ off ∧ off < 0x88000 then
    s.modWorld world (fun w => { w with msix := Tbl.set 0#64 w.msix ((off - 0x80000) / 8) v })
  else match off with
    | 0x1000 => s.fqbase world v
    | 0x1010 => s.fqtail world v
    | 0x1018 => s.fqAnswer world (v.setWidth 32) (v.getLsbD 32)
    | 0x1020 => s.modWorld world (fun w => { w with s1shoot := (v, w.s1shoot.2.1, w.s1shoot.2.2) })
    | 0x1028 => s.s1shoot world (s.world world).s1shoot.1 v
    | _ => s

/-- Offset of a local address in its world window (Table 20.1). -/
def windowOff (pa : Nat) : Nat := (localOf pa - 0x3F000000000) % 0x100000

/-! ### Values -/

def Req.value (r : Req) : Nat := r.data.toNat

/-- The value that an access writes over `old` (R186, R187, R251, R252); none for a load. -/
def Req.newValue (r : Req) (old : Nat) : Option Nat :=
  match r.kind with
  | .load _ => none
  | .store => some r.value
  | .atom op f u _ | .red op f u => some (atomNew op f u r.bytes old r.value r.cmp.toNat)

/-- An access reads before it writes. -/
def ReqKind.reads : ReqKind → Bool
  | .store => false
  | _ => true

/-- The 32-bit words that a result fills (R144, R251): sign-extended with SUBOP [0], else zero-extended. -/
def Req.words (r : Req) (v : Nat) : List Word :=
  let x := match r.kind with
    | .load true => intBits 32 (intVal true (8 * r.bytes) v)
    | _ => v
  if r.bytes ≤ 4 then [BitVec.ofNat 32 x]
  else (List.range (r.bytes / 4)).map (fun i => BitVec.ofNat 32 (v / 2 ^ (32 * i)))

/-- One access by a read and a write of its place: the value read, poison, and the machine after. -/
def Req.perform (r : Req) (read : State → List Byte × Bool × State) (write : State → List Byte → State) (s : State) :
    Nat × Bool × State :=
  let rd := if ReqKind.reads r.kind then read s else ([], false, s)
  let old := bytesToNat rd.1
  match r.newValue old with
  | none => (old, rd.2.1, rd.2.2)
  | some v => (old, rd.2.1, write rd.2.2 (natToBytes r.bytes v))

/-! ### The home slice and the L1 (R244, R245, R246, R259) -/

/-- The L1 may hold the line (R244): HOME 00 or 10, and no shadow. -/
def Req.cacheable (r : Req) : Bool := (decide (r.home = 0#2) || decide (r.home = 2#2)) && !r.shadow

/-- The L1's sector of the access, when it may serve it: fresh, and filled by the same compartment. -/
def State.l1Hit (s : State) (r : Req) : Bool :=
  match (s.core r.core).freshSector (s.cyc r.core) r.pa with
  | some x => decide (x.tag = r.comp)
  | none => false

/-- A load at the home slice: the sector in the L1 is filled, or with HINT 11 replaced where the L1 holds it (R244,
R259). Of stores that the core does not see yet, a load that is no acquire may return the value before them (R260), and then leaves no
copy in the L1. -/
def State.loadHome (s : State) (n : Node) (r : Req) : List Byte × Bool × State :=
  let rd := s.readLoc n r.comp .home r.shadow r.pa r.va r.bytes r.home
  match (if r.stable && !acquires r.order then rd.2.2.replicaFor n r.core r.pa else none) with
  | some x => (x.1.mix s.fresh r.pa rd.1, rd.2.1, x.2)
  | none =>
    if Req.cacheable r && !rd.2.1 && !acquires r.order &&
        (unitsOf r.pa r.bytes).any (fun u => (s.oldUnit r.core r.comp u).isSome) then
      (s.lateBytes r.core r.comp r.pa rd.1, false,
        (rd.2.2.modCore r.core (fun c => { c with l1 := Tbl.del c.l1 (r.pa / 32) })).nowSees r.core (fun l =>
          (unitsOf r.pa r.bytes).contains l.unit && (match s.oldUnit r.core r.comp l.unit with
            | some x => decide (l.step < x.step)
            | none => true)))
    else
      let s1 := rd.2.2.nowSees r.core (fun l => decide (l.unit / 32 = r.pa / 32))
      let held := (Tbl.find? (s1.core r.core).l1 (r.pa / 32)).isSome
      if Req.cacheable r && !rd.2.1 && (decide (r.hint ≠ .noL1) || held) then
        (rd.1, rd.2.1, s1.modCore r.core (fun c => c.l1Fill s1 (s1.cyc r.core) r.comp r.pa r.bytes))
      else (rd.1, rd.2.1, s1)

/-- The L1 that an access at a scope no wider than the core may use. -/
def Req.nearScope (r : Req) : Bool :=
  match r.kind with
  | .load _ => !acquires r.order || !scopeWide r.mscope
  | .atom .. => !scopeWide r.mscope
  | _ => false

/-- The read part at the home slice or in the L1. -/
def State.readHome (s : State) (n : Node) (r : Req) : List Byte × Bool × State :=
  if Req.cacheable r && Req.nearScope r && s.l1Hit r then
    ((s.core r.core).l1Bytes r.pa r.bytes, false, s.noteRead (some n.launch) .home r.pa r.va r.bytes)
  else match r.kind with
    | .load _ => s.loadHome n r
    | .atom .. =>
      let rd := s.readLoc n r.comp .home r.shadow r.pa r.va r.bytes r.home
      if Req.cacheable r && Req.nearScope r && !rd.2.1 then
        (rd.1, rd.2.1, (rd.2.2.nowSees r.core (fun l => decide (l.unit / 128 = r.pa / 128))).modCore r.core (fun c =>
          c.l1FillNear rd.2.2 (rd.2.2.cyc r.core) r.comp r.pa r.bytes))
      else rd
    | _ => s.readLoc n r.comp .home r.shadow r.pa r.va r.bytes r.home

/-- The write part: at the home slice, with the bytes that the issuing core's L1 holds. -/
def State.writeHome (s : State) (n : Node) (r : Req) (bs : List Byte) : State :=
  let n' := (s.node? n.id).getD n
  let s1 := (if r.shadow then s else s.noteWrite r).writeLoc n' r.comp .home r.shadow r.pa r.va bs r.home
  if Req.cacheable r then s1.modCore r.core (fun c => c.l1Update r.pa bs) else s1

/-- Bytes of a team's allocation. -/
def State.scratchBytes (s : State) (t a n : Nat) : List Byte :=
  match s.team? t with
  | none => List.replicate n 0#8
  | some x => (List.range n).map (fun i => Tbl.get 0#8 x.scratch (a + i))

/-- An access at its place (Table 13.2, R184, R388): the value read, poison, and the machine after. -/
def State.performPlace (s : State) (n : Node) (r : Req) : Nat × Bool × State :=
  match r.place with
  | .home => r.perform (fun st => st.readHome n r) (fun st bs => st.writeHome n r bs) s
  | .register =>
    r.perform (fun st => (natToBytes 8 (st.windowRead n.world (windowOff r.pa)).toNat, false, st))
      (fun st bs => st.windowWrite n.world (windowOff r.pa) (BitVec.ofNat 64 (bytesToNat bs))) s
  | .scratch => r.perform (fun st => (st.scratchBytes r.team r.pa r.bytes, false, st)) (fun st bs => st.scratchPut r.team r.pa bs) s
  | .peer i =>
    match s.peer n.id i with
    | .placed t => r.perform (fun st => (st.scratchBytes t.id r.pa r.bytes, false, st)) (fun st bs => st.scratchPut t.id r.pa bs) s
    | _ => (0, false, s)
  | p =>
    r.perform (fun st => st.readLoc n r.comp p r.shadow r.pa r.va r.bytes)
      (fun st bs => st.writeLoc ((st.node? n.id).getD n) r.comp p r.shadow r.pa r.va bs) s

/-- An access at its place; an acquire at `.clu` or wider first empties the issuing core's L1 (R244), and a read takes the releases that
it meets (R256). -/
def State.performAt (s : State) (n : Node) (r : Req) : Nat × Bool × State :=
  let s1 := if acquires r.order && scopeWide r.mscope then s.emptyL1 r.core else s
  (if ReqKind.reads r.kind then s1.noteReads r else s1).performPlace n r

/-! ### Order of the accesses on their way (R257, R241, R184, R264) -/

/-- The team whose allocation a scratchpad access goes to, by linear index. -/
def State.scratchTarget (s : State) (r : Req) : Option Nat :=
  match r.place with
  | .scratch => (s.team? r.team).map (fun t => t.index)
  | .peer i => some i
  | _ => none

def Req.local_ (r : Req) : Bool :=
  match r.place with
  | .scratch | .peer _ => true
  | _ => false

def Req.window (r : Req) : Bool := decide (r.place = .host) || decide (r.place = .register) || decide (r.place = .priv)

/-- The accesses are of one group, or of one parcel. -/
def Req.sameIssuer (q r : Req) : Bool :=
  decide (q.node = r.node) && decide (q.parcel = r.parcel) && (r.parcel.isSome || (decide (q.team = r.team) && decide (q.group = r.group)))

/-- An earlier access must be performed before this one. The lanes of one scratchpad instruction go in their order, across its
member groups (R186, R187); accesses from the side log go in the order in which they were logged (R237). -/
def State.before (s : State) (q r : Req) : Bool :=
  if r.local_ then
    q.local_ && (q.sameIssuer r || decide (q.batch = r.batch)) && decide (s.scratchTarget q = s.scratchTarget r)
  else if q.local_ then false
  else
    (q.side && r.side && q.sameIssuer r) ||
    (decide (q.core = r.core) && decide (q.place ≠ .param) && decide (r.place ≠ .param) && decide (q.pa < r.pa + r.bytes) &&
      decide (r.pa < q.pa + q.bytes)) ||
    (q.window && r.window && q.sameIssuer r)

/-- A flow that the group has issued before owns the line of the access (R264). -/
def State.ownedBy (s : State) (r : Req) : Bool :=
  decide (r.place = .home) && decide (r.parcel = none) &&
  s.flows.any (fun f => decide (f.team = r.team) && decide (f.id < r.stamp) && f.groups.contains r.group &&
    f.dstRuns.any (fun d => decide (d.hpa / 128 * 128 < r.pa + r.bytes) && decide (r.pa / 128 * 128 < d.hpa + d.len)))

/-- The access may be performed now; one to another package crosses a link that has its keys. -/
def State.reqReady (s : State) (r : Req) : Bool :=
  !(s.reqs.any (fun q => decide (q.id < r.id) && s.before q r)) && !s.ownedBy r && (decide (r.place ≠ .other) || s.peerKeyed)

/-! ### After the access -/

/-- The result of an access enters its fill. -/
def State.landFill (s : State) (r : Req) (v : Nat) : State :=
  match r.fill with
  | none => s
  | some i => { s with fills := s.fills.map (fun f =>
      if f.id = i then
        { f with
          vals := f.vals ++ (indexed (r.words v)).map (fun e => (r.group, f.baseReg r.group + r.part + e.1, r.lane, e.2))
          waiting := f.waiting.filter (fun w => decide (w ≠ r.id)) }
      else f) }

/-- The access has been performed: poison is consumed (R359), and the result goes on its way. -/
def State.finishReq (s : State) (r : Req) (v : Nat) (poison : Bool) : State :=
  let s1 : State := { s with reqs := s.reqs.filter (fun q => decide (q.id ≠ r.id)) }
  let s2 := s1.landFill r v
  let s3 := if poison then s2.consume r.node .uncorrectable else s2
  if r.parcel.isSome then s3 else s3.tryEnd r.team

/-! ### Side-logged accesses (R237) -/

/-- The accesses of an entry: each lane's, or what keeps it from being performed. -/
inductive SideRes where
  | ok (rs : List Req)
  | miss (va : Nat)
  | trap (k : TrapKind)
  deriving DecidableEq, Repr

/-- The requests of one lane of an entry. -/
def SideEntry.requests (e : SideEntry) (s : State) (n : Node) (core : Nat) (l : Nat × Nat × DWord × DWord) (f : Found) : List Req :=
  (accParts (widthBytes e.width)).map (fun p =>
    { id := 0, team := e.team, group := e.group, lane := l.1, parcel := none, node := n.id, core := core, comp := n.gcomp,
      va := l.2.1 + 8 * p, pa := f.hpa + 8 * p,
      kind := if e.reduction then .red (e.sub.toNat % 8) (e.sub.getLsbD 4) (e.sub.getLsbD 3) else .store,
      width := partWidth e.width, mscope := e.mscope, order := e.order, hint := .normal, home := f.attr.home, stable := f.attr.s,
      shadow := f.dir == some 2 || f.dir == some 3, place := s.placeOf f, data := if p = 0 then l.2.2.1 else l.2.2.2, cmp := 0,
      fill := none, part := 0, instr := e.addr, batch := e.seq, side := true })

/-- Looks the lanes of an entry up again. -/
def State.sideReqs (s : State) (n : Node) (core : Nat) (e : SideEntry) : List (Nat × Nat × DWord × DWord) → SideRes
  | [] => .ok []
  | l :: t =>
    match s.resolve n core (.side e.seq) (if e.reduction then .atomic else .write) l.2.1 (widthBytes e.width) with
    | .miss => .miss l.2.1
    | .trap k => .trap k
    | .ok f => match s.step4 n (widthBytes e.width) f with
      | some k => .trap k
      | none => match s.sideReqs n core e t with
        | .ok rs => .ok (e.requests s n core l f ++ rs)
        | x => x

/-- The first ready entry of a core whose group has no earlier one. -/
def firstReady (es : List SideEntry) : Option SideEntry :=
  (indexed es).findSome? (fun x =>
    if x.2.ready = true ∧ (es.take x.1).all (fun y => decide (y.team ≠ x.2.team) || decide (y.group ≠ x.2.group)) = true then
      some x.2 else none)

/-- An entry performs (R237): its accesses go on their way, after those of the group's earlier entries. One whose translation
has gone again walks again. One that now meets another compartment's page, a stable page or no route is discarded, with a deferred
trap of that kind: DESIGN CHOICE (log entry 76). -/
def State.settleEntry (s : State) (core : Nat) (n : Node) (e : SideEntry) : State :=
  match s.sideReqs n core e e.lanes with
  | .miss va =>
    (s.modSide e.seq (fun x => { x with ready := false })).askWalk (.side e.seq) n.world n.desc.comp core va
      (if e.reduction then .atomic else .write)
  | .trap k => s.dropSide e.seq k
  | .ok rs =>
    let s1 := (s.noteEscape n rs).removeSide e.seq
    { s1 with nextId := s1.nextId + rs.length, reqs := s1.reqs ++ (indexed rs).map (fun x => { x.2 with id := s1.nextId + x.1 }) }

/-- Performs the entries of a core that can perform. -/
def State.settleCore (core : Nat) : Nat → State → State
  | 0, s => s
  | k + 1, s =>
    match firstReady (s.core core).sidelog with
    | none => s
    | some e => match (s.team? e.team).bind (fun t => s.node? t.node) with
      | none => s.removeSide e.seq
      | some n =>
        let s1 := s.settleEntry core n e
        if (s1.core core).sidelog = (s.core core).sidelog then s1 else State.settleCore core k s1

def State.settleSides (s : State) : State :=
  (s.cores.filter (fun c => decide (c.2.sidelog ≠ []))).foldl (fun st c => State.settleCore c.1 (c.2.sidelog.length + 1) st) s

/-! ### MEMORY_REQUEST and PEER_ACCESS_RELAY -/

/-- An access performs at its point of order. -/
def State.performReq (s : State) (n : Node) (r : Req) : State :=
  let p := s.performAt n r
  (p.2.2.finishReq r p.1 p.2.1).settleSides

/-- PEER_ACCESS_RELAY (R183): a pre-empted peer's access waits in the relay; to a peer that has ended or parked, a load
returns zero and a store writes nothing. -/
def execPeerAccessRelay (req : Nat) (s : State) : Out :=
  match s.reqs.find? (fun r => decide (r.id = req)) with
  | none => .next s
  | some r => match r.place, s.node? r.node with
    | .peer i, some n =>
      if s.reqReady r = false ∨ s.peer n.id i = .waits then .next s else .next (s.performReq n r)
    | .peer _, none => .next { s with reqs := s.reqs.filter (fun q => decide (q.id ≠ req)) }
    | _, _ => .next s

/-! ### TRANSLATION_WALK (R223, R229, R235) -/

/-- The node that a requester acts for. -/
def State.nodeOfWho (s : State) (w : Requester) : Option Nat :=
  match w with
  | .strand t _ _ | .claim t _ => (s.team? t).map (fun x => x.node)
  | .side seq => ((s.sideEntry? seq).bind (fun e => s.team? e.team)).map (fun x => x.node)
  | .parcel n _ | .dispatch n _ => some n
  | _ => none

/-- One walk through both stages: a translation, a fault record, or poison, which the walk's node consumes (R359). The fault-queue
writer, which had no place in the merge table, tries its place again (R232, R235). -/
def State.walkStep (s : State) (w : Walk) : State :=
  match w.who with
  | .faultWriter world => ({ s with walks := s.walks.filter (fun x => decide (x.id ≠ w.id)) } : State).retryHeld false world
  | _ =>
  let gone (st : State) : State := { st with walks := st.walks.filter (fun x => decide (x.id ≠ w.id)) }
  let s := s.noteWalk (((s.nodeOfWho w.who).bind s.node?).map (fun n => n.launch)) w
  match s.walkFor w with
  | .done s1 e =>
    let s2 : State := { gone s1 with
      tlb := e :: s1.tlb.filter (fun x => !(decide (x.die = e.die) && decide (x.world = e.world) && decide (x.vpage = e.vpage))) }
    match w.who with
    | .side seq => s2.modSide seq (fun x => { x with ready := true })
    | _ => s2
  | .fault stage2 page rec level1 => s.mergeFault w stage2 page rec level1
  | .refused => s.refuseWaiter w
  | .poison => match s.nodeOfWho w.who with
    | some n => (gone s).consume n .uncorrectable
    | none => (gone s).refuseWaiter w

/-- TRANSLATION_WALK. -/
def execTranslationWalk (walk : Nat) (s : State) : Out :=
  match s.walks.find? (fun w => decide (w.id = walk)) with
  | none => .next s
  | some w => if w.waitOn.isSome then .next s else .next (s.walkStep w).settleSides

/-- FQ_ANSWER_RETRY (R233). -/
def execFqAnswerRetry (world : Nat) (id : BitVec 32) (s : State) : Out := .next (s.fqAnswer world id false).settleSides

/-- FQ_ANSWER_INVALID (R233, R234, R237). -/
def execFqAnswerInvalid (world : Nat) (id : BitVec 32) (s : State) : Out := .next (s.fqAnswer world id true).settleSides

/-- S2Q_ANSWER_RETRY (R233). -/
def execS2qAnswerRetry (part : Nat) (id : BitVec 32) (s : State) : Out := .next (s.s2qAnswer part id false).settleSides

/-- S2Q_ANSWER_INVALID (R233, R234). -/
def execS2qAnswerInvalid (part : Nat) (id : BitVec 32) (s : State) : Out := .next (s.s2qAnswer part id true).settleSides

/-! ### REGISTER_FILL (R118) -/

/-- REGISTER_FILL. A form register takes its value when the load that waits for it issues again. -/
def execRegisterFill (fill : Nat) (s : State) : Out :=
  match s.fills.find? (fun f => decide (f.id = fill)) with
  | none => .next s
  | some f =>
    if f.waiting ≠ [] ∨ f.form = true then .next s else .next (s.applyFill f)

end Sys2Proof.Machine
end

