-- ==== Sys2Proof/Machine/Upkeep.lean ====
section
/-! DEFINITION. Events of the issue slots and of the caches: STRAND_AGING (spec/05_issue.md R83), SCOPE_MISMATCH_DETECT
(R78), ICACHE_REFETCH (spec/03_encoding.md R31) and PATROL_SCRUB (spec/13_memory.md R248). -/

namespace Sys2Proof.Machine

open Sys2Proof

/-! ### STRAND_AGING (R83) -/

/-- STRAND_AGING: a strand that has been ready for 2,048 clocks without issuing goes to the head of its slot. -/
def execStrandAging (team group strand : Nat) (s : State) : Out :=
  .next (s.modGroup team group (fun g =>
    { g with strands := modNth (fun st => if g.readyStrand st && decide (2048 ≤ st.wait) then { st with aged := true } else st) strand g.strands }))

/-! ### SCOPE_MISMATCH_DETECT (R78) -/

/-- Where a strand stands parked in the sense of case 2 of R78: at the group-scope instruction that it has arrived at, or at a
`loop` or `region`, which waits like one though it is encoded at lane scope (R91, R138), or at the join target where every lane of
it waits. -/
def Group.parkedPlace (g : Group) (st : Strand) : Option Addr :=
  match st.arrived with
  | some a => if (trapScopeOf st.ascope).code ≤ 1 then some a else none
  | none => if g.liveOf st &&& ~~~g.parkedLanes &&& ~~~g.outsideLanes = 0#32 then g.lowestAddr (g.liveOf st) else none

/-- The counted strands of a group with their places, when every one is parked and none holds a trap. -/
def Group.parkedAll (g : Group) : Option (List (Strand × Addr)) :=
  let c := g.counted
  if c.any (fun st => st.held.isSome) || g.deferred.isSome then none
  else
    let ps := c.filterMap (fun st => (g.parkedPlace st).map (fun a => (st, a)))
    if ps.length = c.length ∧ c ≠ [] then some ps else none

/-- Of two strands, the one at the lower address, or with the lower first quad (R78). -/
def lowerStrand (a b : Strand × Addr) : Strand × Addr :=
  if b.2.toNat < a.2.toNat then b
  else if a.2.toNat < b.2.toNat then a
  else if (b.1.quads &&& -b.1.quads).toNat < (a.1.quads &&& -a.1.quads).toNat then b else a

/-- Case 2 of R78: every strand is parked and they do not all stand at one address; the strand that takes the trap. -/
def Group.mismatch (g : Group) : Option (Strand × Addr) :=
  match g.parkedAll with
  | some (p :: ps) => if ps.all (fun q => decide (q.2 = p.2)) then none else some (ps.foldl lowerStrand p)
  | _ => none

/-- Scope that ecause gives for a strand parked at an instruction; at a join target it is that of `join`. -/
def parkedScope (st : Strand) : TrapScope := if st.arrived.isNone then .lane else trapScopeOf st.ascope

/-- A group parked at one set- or team-scope instruction: a strand of it, and the address. -/
def Group.wideAt (g : Group) : Option (Strand × Addr) :=
  match g.counted with
  | [] => none
  | st :: ts => match st.arrived with
    | none => none
    | some a =>
      if g.deferred.isNone ∧ (st :: ts).all (fun q => q.held.isNone && decide (q.arrived = some a) && decide (1 < (trapScopeOf q.ascope).code)) = true then
        some (st, a) else none

/-- Every member of the instruction that group `i` is parked at has arrived. -/
def Team.allMet (t : Team) (n : Node) (i : Nat) (p : Strand × Addr) : Bool :=
  match t.groups[i]? with
  | none => true
  | some g => (handlerMembers g (memberGroups n t p.1.ascope i)).all (fun m => match t.groups[m]? with
      | some x => x.ended || x.allArrived p.2
      | none => true)

/-- Case 1 of R78: the groups that have not exited with their places, when the team is stalled. -/
def Team.stalled (t : Team) (n : Node) : Option (List (Nat × Strand × Addr)) :=
  let live := (indexed t.groups).filter (fun e => !e.2.ended)
  let ps := live.filterMap (fun e => e.2.wideAt.map (fun p => (e.1, p.1, p.2)))
  if live ≠ [] ∧ ps.length = live.length ∧ ps.all (fun p => !t.allMet n p.1 p.2) = true then some ps else none

/-- A group takes ScopeMismatch at its own instruction. -/
def State.enterMismatch (s : State) (t : Team) (n : Node) (members : List Nat) (e : Nat × Strand × Addr) : State :=
  match t.groups[e.1]? with
  | none => s
  | some g =>
    let lanes := maskOf (fun l => (g.liveOf e.2.1).getLsbD l && decide (g.pcOf l = e.2.2))
    let r : TrapRec :=
      { kind := .scopeMismatch, eaddr := 0, code := 0, deferred := false, scope := parkedScope e.2.1 }
    let q := if e.2.1.arrived.isSome && decide (1 < members.length) then g.counted.foldl (fun m st => m ||| st.quads) 0#8 else e.2.1.quads
    (s.modGroup t.id e.1 (fun x =>
      let y := if q = e.2.1.quads then x else x.fuseAll.popDivs
      (({ y with divs := y.divs.map (fun d => { d with parked := d.parked &&& ~~~lanes }) } : Group).enterHandler
        { g := e.1, quads := q, lanes := lanes } r members e.2.2 n.desc.handler))).passSide t.id e.1 lanes

/-- ScopeMismatch for the groups given: the node ends when it has no handler or one of them is in handler mode (R346). -/
def State.raiseMismatch (s : State) (t : Team) (n : Node) (hits : List (Nat × Strand × Addr)) : State :=
  s.meetHandler t n (hits.map (fun e => { g := e.1, quads := 0, lanes := 0 })) .scopeMismatch 0 (fun st => st.dropTeamWalks t.id)
    (fun s1 => hits.foldl (fun st e => st.enterMismatch t n (hits.map (fun h => h.1)) e) s1)

/-- The other strands of a group that took the trap in case 2 hold ScopeMismatch until `tret` (R78). -/
def State.holdMismatch (s : State) (t : Team) (g : Nat) (q : BitVec 8) : State :=
  let scopeOf (st : Strand) : TrapScope :=
    match (t.groups[g]?).bind (fun x => x.strands.find? (fun y => decide (y.quads = st.quads))) with
    | some y => parkedScope y
    | none => .lane
  s.modGroup t.id g (fun x => { x with strands := x.strands.map (fun st =>
    if st.quads = q ∨ x.liveOf st = 0#32 ∨ x.trap.isNone = true then st
    else { st with held := some { kind := .scopeMismatch, eaddr := 0, code := 0, deferred := false, scope := scopeOf st } }) })

/-- SCOPE_MISMATCH_DETECT. -/
def execScopeMismatchDetect (team : Nat) (s : State) : Out :=
  match s.team? team with
  | none => .next s
  | some t => match s.node? t.node with
    | none => .next s
    | some n =>
      if t.phase ≠ .placed ∨ n.ending.isSome = true ∨ s.stopsNode n = true then .next s
      else match (indexed t.groups).findSome? (fun e => if e.2.ended then none else e.2.mismatch.map (fun p => (e.1, p.1, p.2))) with
      | some h => .next ((s.raiseMismatch t n [h]).holdMismatch t h.1 h.2.1.quads)
      | none => match t.stalled n with
        | some hits => .next (s.raiseMismatch t n hits)
        | none => .next s

/-! ### ICACHE_REFETCH (R31) -/

/-- A node of a compartment has a strand or parcel at a line on a core: its requester. -/
def State.atLine (s : State) (n : Node) (core : Nat) (line : Addr) : Option Requester :=
  match n.parcels.find? (fun p => decide (n.leadCore = core) && decide (lineOf p.pc = line)) with
  | some p => some (.parcel n.id p.id)
  | none => (s.teamsOf n.id).findSome? (fun t =>
      if t.core = core ∧ t.phase = .placed then (indexed t.groups).findSome? (fun g =>
        g.2.strands.findSome? (fun st => match g.2.strandAddr st with
          | some a => if lineOf a = line then some (Requester.strand t.id g.1 st.quads) else none
          | none => none)) else none)

/-- A second mismatch: the node whose fetch filled the line, and those at it, consume an uncorrectable error and are replayed; one that a second mismatch of
the same line replayed before ends. -/
def State.badFetch (s : State) (core gcomp : Nat) (line : Addr) (filler : Nat) : State :=
  (s.nodes.filter (fun n => decide (n.id = filler) || (decide (n.gcomp = gcomp) && (s.atLine n core line).isSome))).foldl (fun st n =>
    if n.badLine = some line ∧ n.replayed = true then
      (st.endByTrap n.id .uncorrectable line).modPart n.part (fun p => { p with uccount := p.uccount + 1 })
    else (st.consume n.id .uncorrectable).modNode n.id (fun x => { x with badLine := some line })) s

/-- The requester for which a discarded line is fetched again: one that stands at it, or the one whose fetch filled it. -/
def State.refetchFor (s : State) (core key : Nat) (l : ILine) : Option (Node × Requester) :=
  match s.nodes.findSome? (fun n =>
      if n.gcomp = key / 2 ^ 57 then (s.atLine n core (BitVec.ofNat 64 (key % 2 ^ 57))).map (fun w => (n, w)) else none) with
  | some p => some p
  | none => (s.node? l.node).map (fun n => (n, l.who))

/-- ICACHE_REFETCH of the line with key `key`: the discarded line is fetched once more from the L2. -/
def execIcacheRefetch (core key : Nat) (s : State) : Out :=
  match Tbl.find? (s.core core).icache key with
  | none => .next s
  | some l =>
    if l.bad = false then .next s
    else
      let line : Addr := BitVec.ofNat 64 (key % 2 ^ 57)
      let drop (st : State) : State := st.modCore core (fun c => { c with icache := Tbl.del c.icache key })
      match s.refetchFor core key l with
      | none => .next (drop s)
      | some (n, who) =>
        match s.lookNode n core who line.toNat 64 .fetch with
        | .miss => .next (s.askWalk who n.world n.desc.comp core line.toNat .fetch)
        | .trap _ => .next (drop s)
        | .ok hpa attr _ =>
          if (s.reach n.part n.world attr.home hpa).isSome = true ∨ attr.home = 1#2 ∨ isDram hpa = false ∨ s.tagClash n.gcomp hpa = true then
            .next (drop s)
          else
            let r := s.readCode n core attr hpa line.toNat
            let f := fillLine r.1 l.node l.who
            if r.2.1 then .next (drop (r.2.2.consume n.id .uncorrectable))
            else if f.bad then .next (drop (r.2.2.badFetch core n.gcomp line l.node))
            else .next ((r.2.2.countError (.icache core)).modCore core (fun c => { c with icache := Tbl.put c.icache key f }))

/-! ### PATROL_SCRUB (R248) -/

/-- Corrections of a channel are counted, one for each field. -/
def State.countChannel (s : State) (a n : Nat) : State :=
  (List.range n).foldl (fun st _ => st.countError (.channel (channelAt a))) s

/-- The scrubber reads the stored unit of a line: a MAC that fails is logged. A unit that needed a correction is written back as a
fresh one under a new version, with the poison that its reading gives (Table 13.5); a version at its limit poisons the line instead
(R376). What upsets have left in the unit is in `single`; other corrections are a free value. -/
def State.scrubLine (s : State) (line : Nat) : State :=
  let l := Tbl.get Line.reset s.lines line
  let a := 128 * line
  let k := ((List.range 8).filter (fun i => l.single.getLsbD i)).length
  if s.unitFails l none a then s.logError 6 0 a
  else if l.version = 0#64 ∨ (k = 0 ∧ Config.scrubbed s.fresh line = false) then s
  else
    let s1 := s.countChannel a (max 1 k)
    if l.version = 0xFFFF_FFFF_FFFF_FFFF#64 then (s1.setLine a { l with poison := 0xF#4, spent := true }).logError 5 0 a
    else s1.setLine a
      { l with version := l.version + 1, single := 0, double := 0, badMac := false, poison := if l.tag.isSome then l.poison else l.stored none }

/-- PATROL_SCRUB of a channel of this package (R7): every line that it holds. Which of its plat's channels holds a line is not
visible to programs (R242). -/
def execPatrolScrub (channel : Nat) (s : State) : Out :=
  if channel < 384 then
    .next (((s.lines.map (fun e => e.1)).filter (fun x =>
      decide (pkgOf (128 * x) = s.pkgid.toNat) && decide (channelAt (128 * x) = channel))).foldl State.scrubLine s)
  else .next s

end Sys2Proof.Machine
end

