-- ==== Sys2Proof/Machine/Partitions.lean ====
section
/-! DEFINITION. Partition records (spec/16_channels.md R304, R307), domain routing masks (R305), multicast group entries
(R318) and way masks (spec/19_worlds.md R382, R383). -/

namespace Sys2Proof.Machine

open Sys2Proof

/-! ### PARTITION_RECORD_WRITE (R304, R307) -/

/-- The partition that record `i` puts in force, by id. -/
def State.recordPart (s : State) (i : Nat) : Option Nat :=
  (List.find? (fun (e : Nat × Partition) => e.2.inUse && decide (e.2.index = i)) s.parts).map (fun e => e.1)

/-- A record as a partition, for its fields. -/
def Partition.ofRecord (v : DWord) : Partition := { Partition.reset with record := v }

def recordId (v : DWord) : Nat := dfield v 40 4

/-- Two rectangles of plats meet. -/
def rectsMeet (a b : Partition) : Bool :=
  decide (a.px < b.px + b.width) && decide (b.px < a.px + a.width) && decide (a.py < b.py + b.height) && decide (b.py < a.py + a.height)

/-- The limits of Table 16.2 against the partitions of the other records. -/
def State.recordOk (s : State) (i : Nat) (v : DWord) : Bool :=
  let p := Partition.ofRecord v
  let others := s.parts.filter (fun e => e.2.inUse && decide (e.2.index ≠ i))
  decide (dfield v 60 4 = 0) && decide (dfield v 44 4 ≠ 0) && decide (p.peersIx < 1024) && decide (p.py ≤ 1) && decide (p.px ≤ 7) &&
  decide (p.px + p.width ≤ 8) && decide (p.py + p.height ≤ 2) &&
  !(others.any (fun e => decide (e.1 = recordId v) || rectsMeet p e.2)) &&
  decide (others.foldl (fun n e => n + dfield e.2.record 32 8) (dfield v 32 8) ≤ 256)

/-- A world of the partition runs, or a team of one is still on a core (R307). -/
def State.partBusy (s : State) (id : Nat) : Bool :=
  s.worlds.any (fun w => w.2.running && decide (w.2.partId = id)) ||
  s.teams.any (fun t => (decide (t.phase = .placed) || decide (t.phase = .stopping)) && (match s.node? t.node with
    | some n => decide (n.part = id)
    | none => false))

/-- A plat that changes owner is scrubbed: its DRAM lines return to version 0, and its cores' stores are cleared
(log entry 22). -/
def State.scrubPlat (s : State) (pl : Nat) : State :=
  let a := s.pkgid.toNat * 2 ^ 42 + pl * 0x2A00000000
  let s1 := s.resetPages a 0x2A00000000
  { s1 with cores := s1.cores.map (fun c =>
      if platOfCore c.1 = pl then (c.1, { c.2 with icache := [], l1 := [], carve := [], carveTag := [] }) else c) }

/-- A claim whose pages or route lie in a partition (R307). -/
def State.claimInPart (s : State) (id : Nat) (n : Node) (c : Claim) : Bool :=
  decide (n.part = id) || c.extents.any (fun e =>
    decide (pkgOf (e.ppage * 65536) = s.pkgid.toNat) && isDram (e.ppage * 65536) && decide (e.attr.home ≠ 1#2) &&
    (s.part id).hasPlat (platOf (e.ppage * 65536)))

/-- Every multicast entry that a partition owns becomes invalid. -/
def State.dropMcast (s : State) (id : Nat) : State :=
  { s with mcast := s.mcast.map (fun e => (e.1, if e.2.owner = id then { e.2 with head := e.2.head &&& ~~~1#64 } else e.2)) }

/-- The bytes of the partition records in force, by record number (R378, log entry 9). -/
def State.recordBytes (s : State) : List Byte :=
  (List.range 16).flatMap (fun i => natToBytes 8 (match s.recordPart i with
    | some p => (s.part p).record.toNat
    | none => 0))

/-- The change of a record, in the order of R307. -/
def State.changePart (s : State) (i : Nat) (v : DWord) : State :=
  let id := recordId v
  let s1 := match s.recordPart i with
    | none => s
    | some old =>
      ((s.revokeClaims (s.claimInPart old) 3).dropMcast old).modPart old (fun p => if old = id then p else { p with record := 0 })
  let owner := (List.range 16).map s.platOwner
  let s2 := s1.modPart id (fun p => { p with record := v, index := i })
  let s3 := (List.range 16).foldl (fun st pl => if st.platOwner pl = owner.getD pl none then st else st.scrubPlat pl) s2
  { s3 with meas1 := extend s3.meas1 (shake256 s3.recordBytes) }

/-- PARTITION_RECORD_WRITE. -/
def execPartitionRecordWrite (i : Nat) (v : DWord) (s : State) : Out :=
  let busy := match s.recordPart i with
    | some p => s.partBusy p
    | none => false
  if 16 ≤ i ∨ s.recordOk i v = false ∨ busy = true then .next s else .next (s.changePart i v)

/-! ### DRMASK_WRITE (R305) -/

/-- A dword of a routing mask is written; a mask that a record in force names is not. -/
def execDrmaskWrite (mask dword : Nat) (v : DWord) (s : State) : Out :=
  if 1024 ≤ mask ∨ 8 ≤ dword ∨ s.parts.any (fun e => e.2.inUse && decide (e.2.peersIx = mask)) = true then .next s
  else
    let old := Tbl.get 0#512 s.drmask mask
    let new := (old &&& ~~~(0xFFFFFFFFFFFFFFFF#512 <<< (64 * dword))) ||| (v.setWidth 512 <<< (64 * dword))
    .next { s with drmask := Tbl.set 0#512 s.drmask mask new }

/-! ### MCAST_ENTRY_WRITE (R318) -/

/-- The claims that name an entry are revoked with cause 4. -/
def State.revokeMcast (s : State) (entry : Nat) : State :=
  s.revokeClaims (fun _ c => match c.desc with
    | some d => decide (d.kind = .multicast) && decide (d.route = entry)
    | none => false) 4

/-- The VALID entries other than `entry` that name a partition as OWNER. -/
def State.mcastOwned (s : State) (entry owner : Nat) : Nat :=
  (s.mcast.filter (fun e => decide (e.1 ≠ entry) && e.2.valid && decide (e.2.owner = owner))).length

/-- The 128 bytes of an entry in force. -/
def Mcast.toBytes (m : Mcast) : List Byte := natToBytes 8 m.head.toNat ++ List.replicate 56 0#8 ++ natToBytes 64 m.peers.toNat

/-- Measurement 2, which the package shares, takes the entries that a partition owns (R378, Table 19.4). -/
def State.measureMcast (s : State) (owner : Nat) : State :=
  { s with meas2 := extend s.meas2 (shake256 ((s.mcast.filter (fun e => decide (e.2.owner = owner))).flatMap (fun e => e.2.toBytes))) }

/-- The dword at byte 0 takes effect. -/
def State.mcastPut (s : State) (entry : Nat) (v : DWord) : State :=
  let e := s.mcastEntry entry
  let new : Mcast := { e with head := v, peers := e.staged }
  let p := s.part new.owner
  let capped := new.valid && p.inUse && decide (p.mcastQuota < s.mcastOwned entry new.owner + 1)
  if v &&& 0xFFFFFFFFF0C0F0FE#64 ≠ 0#64 ∨ e.resv ≠ 0#448 ∨ capped = true then s
  else ({ s with mcast := Tbl.set Mcast.reset s.mcast entry new } : State).measureMcast new.owner

/-- Another dword of an entry's block: PEERS, and the reserved bytes. -/
def State.mcastField (s : State) (entry dword : Nat) (v : DWord) : State :=
  let e := s.mcastEntry entry
  let put (w : Nat) (old : BitVec w) (k : Nat) : BitVec w :=
    (old &&& ~~~((0xFFFFFFFFFFFFFFFF#64).setWidth w <<< (64 * k))) ||| (v.setWidth w <<< (64 * k))
  let new : Mcast := if 8 ≤ dword then { e with staged := put 512 e.staged (dword - 8) } else { e with resv := put 448 e.resv (dword - 1) }
  { s with mcast := Tbl.set Mcast.reset s.mcast entry new }

/-- A write of a dword of an entry acts: the claims that name the entry are revoked, and the entry changes. -/
def State.mcastAct (s : State) (entry dword : Nat) (v : DWord) : State :=
  let s1 := s.revokeMcast entry
  if dword = 0 then s1.mcastPut entry v else s1.mcastField entry dword v

/-- A claim that names an entry is Flowing. -/
def State.mcastFlowing (s : State) (entry : Nat) : Bool :=
  s.teams.any (fun t => t.claims.any (fun c => decide (c.2.state = .flowing) && (match c.2.desc with
    | some d => decide (d.kind = .multicast) && decide (d.route = entry)
    | none => false)))

/-- A host write of a dword of an entry: while a claim that names the entry is Flowing, or an earlier write waits, it waits
(R281). -/
def State.mcastWrite (s : State) (entry dword : Nat) (v : DWord) : State :=
  if s.mcastFlowing entry = true ∨ s.mcastJobs.any (fun j => decide (j.1 = entry)) = true then
    { (s.revokeMcast entry) with mcastJobs := s.mcastJobs ++ [(entry, dword, v)] }
  else s.mcastAct entry dword v

/-- The waiting writes act, in order, where no flow is in the way. -/
def State.mcastSettle : List (Nat × Nat × DWord) → List (Nat × Nat × DWord) → State → State
  | [], kept, s => { s with mcastJobs := kept }
  | j :: t, kept, s =>
    if s.mcastFlowing j.1 = true ∨ kept.any (fun k => decide (k.1 = j.1)) = true then State.mcastSettle t (kept ++ [j]) s
    else State.mcastSettle t kept (s.mcastAct j.1 j.2.1 j.2.2)

/-- MCAST_ENTRY_WRITE: the dword at byte 0. -/
def execMcastEntryWrite (entry : Nat) (v : DWord) (s : State) : Out :=
  if 4096 ≤ entry then .next s else .next (s.mcastWrite entry 0 v)

/-! ### WAYMASK_WRITE and WAYMASK_SWEEP_COMPLETE (R382, R383) -/

/-- A world's way mask changes; removed ways are swept. -/
def execWaymaskWrite (world : Nat) (v : DWord) (s : State) : Out :=
  if 64 ≤ world then .next s
  else .next (s.modWorld world (fun w =>
    let new : BitVec 24 := v.setWidth 24
    let removed := (w.waymask ||| w.sweeping.getD 0) &&& ~~~new
    { w with waymask := new, sweeping := if removed = 0#24 then none else some removed }))

/-- The sweep has written every dirty line of the world in a removed way back and invalidated it (R383). Which way a line lies in is
not visible, so the world's dirty lines all leave, and with them what HOME 10 had pinned of them. -/
def execWaymaskSweepComplete (world : Nat) (s : State) : Out :=
  if (s.world world).sweeping = none then .next s
  else
    let dirty := (s.lines.filter (fun e => match e.2.tag with
      | some (c, d) => d && decide (c / 16 = world)
      | none => false)).map (fun e => e.1)
    .next ((dirty.foldl (fun st l => st.evictLine (128 * l)) s).modWorld world (fun w => { w with sweeping := none }))

end Sys2Proof.Machine
end

