-- ==== Sys2Proof/Machine/Security.lean ====
section
/-! DEFINITION. The security engine (spec/19_worlds.md): compartments (R369), authority commands (R379), key revocation
(R380, R381) and function-level reset (R384, R385). -/

namespace Sys2Proof.Machine

open Sys2Proof

/-- World and number within it of a global compartment (R368). -/
def compWorld (g : Nat) : Nat := g / 16
def compLocal (g : Nat) : Nat := g % 16

/-- Extends a measurement register of a world (R378). -/
def State.measure (s : State) (world ix : Nat) (d : List Byte) : State :=
  s.modWorld world (fun w => { w with meas := Tbl.set Meas.zero w.meas ix (extend (Tbl.get Meas.zero w.meas ix) d) })

/-! ### COMPARTMENT_CREATE (R369) -/

/-- The bytes that extend measurement 4: AUTH and the compartment's number (log entry 9). -/
def compDigest (auth : List Byte) (g : Nat) : List Byte := auth ++ natToBytes 2 (compLocal g)

/-- The creation is refused: STATE is Active or Revoking, or a function-level reset of the world is in progress. -/
def State.createBad (s : State) (g : Nat) : Bool :=
  decide ((s.comp g).state = .active) || decide ((s.comp g).state = .revoking) || (s.world (compWorld g)).flr

/-- The creation, in its turn at the engine: a fresh key in the compartment's slot, AUTH in measurement 4. -/
def State.createNow (s : State) (g : Nat) : State :=
  if s.createBad g then s.modComp g (fun x => { x with cstatus := 3 })
  else
    let s1 : State := { s with keyCount := s.keyCount + 1 }
    let s2 := s1.modComp g (fun x => { x with state := .active, lastseq := 0, cstatus := 2, key := s.keyCount + 1 })
    s2.measure (compWorld g) 4 (compDigest (s.comp g).auth g)

/-! ### Clearing what a compartment has on die (R370, R371, R380) -/

/-- A copy of the line on die is discarded without write-back (R380): a line that was never written back reads as zeros again, and
of any other the bytes that DRAM holds are left. What was sealed under another key stays poisoned from the read that filled the
copy (R371, R248). -/
def State.discardLine (s : State) (line : Nat) : State :=
  let l := Tbl.get Line.reset s.lines line
  if l.version = 0#64 then
    { s with lines := Tbl.set Line.reset s.lines line Line.reset, mem := Tbl.delRange s.mem (128 * line) (128 * line + 128) }
  else
    { s with
      lines := Tbl.set Line.reset s.lines line
        { l with tag := none, dram := none, pinned := false, poison := if l.dram.isSome ∧ l.key ≠ 0 then 0xF#4 else l.poison }
      mem := match l.dram with
        | some bs => putBytes s.mem (128 * line) bs
        | none => s.mem }

/-- Every on-die item tagged with a compartment is discarded and cleared without write-back. -/
def State.clearTagged (s : State) (p : Nat → Bool) : State :=
  let ls := (s.lines.filter (fun e => match e.2.tag with
    | some (c, _) => p c
    | none => false)).map (fun e => e.1)
  let s1 := ls.foldl State.discardLine s
  { s1 with
    replicas := s1.replicas.filter (fun r => match s1.node? r.node with
      | some n => !p n.gcomp
      | none => false)
    cores := s1.cores.map (fun c =>
      let pages := (c.2.carveTag.filter (fun e => p e.2)).map (fun e => e.1)
      (c.1, { c.2 with
        icache := c.2.icache.filter (fun e => !p (e.1 / 2 ^ 57))
        l1 := c.2.l1.filter (fun e => !p e.2.tag)
        carve := c.2.carve.filter (fun e => !pages.contains (e.1 / 65536))
        carveTag := c.2.carveTag.filter (fun e => !p e.2) })) }

/-- The lines that only DRAM holds under a key that is erased: nobody can unseal them any more, and every later read of one
is poisoned (R371, R381). -/
def State.sealLost (s : State) (k : Nat) : State :=
  if k = 0 then s
  else
    let ls := (s.lines.filter (fun e => decide (e.2.key = k) && decide (e.2.version ≠ 0#64) && e.2.tag.isNone)).map (fun e => e.1)
    ls.foldl (fun (st : State) l =>
      { st with lines := Tbl.modify st.lines l (fun x => { x with poison := 0xF#4 }),
                mem := Tbl.delRange st.mem (128 * l) (128 * l + 128) }) s

/-- The key slot of a compartment is erased, and no copy of a page keeps what was its own. -/
def State.eraseKey (s : State) (g : Nat) : State :=
  let s1 := (s.sealLost (s.comp g).key).forgetCopies g (s.comp g).key
  ({ s1 with late := s1.late.filter (fun l => decide (l.comp ≠ g)) } : State).modComp g (fun c => { c with key := 0 })

/-- Walks, with their places in the merge tables, are dropped; a record left with no waiter is answered to no one
(R380, R233). -/
def State.dropWalksIf (s : State) (p : Walk → Bool) : State :=
  let ids := (s.walks.filter p).map (fun w => w.id)
  let ms := s.merges.map (fun m => { m with waiters := m.waiters.filter (fun i => !ids.contains i) })
  let gone := ((s.merges.filter (fun m => m.waiters.any ids.contains)).filter (fun m => m.waiters.all ids.contains)).map (fun m => m.id)
  let cut (q : FaultQueue) : FaultQueue :=
    { q with outstanding := q.outstanding.filter (fun e => !gone.contains e.2), held := q.held.filter (fun e => !gone.contains e.2) }
  { s with
    walks := s.walks.filter (fun w => !p w)
    merges := ms.filter (fun m => !gone.contains m.id)
    worlds := s.worlds.map (fun w => (w.1, { w.2 with fq := cut w.2.fq }))
    parts := s.parts.map (fun x => (x.1, { x.2 with s2q := cut x.2.s2q })) }

/-! ### Authority commands (R379, Table 19.5) -/

def Auth.byte (c : AuthCmd) (i : Nat) : Nat := (c.header.getD i 0#8).toNat
def Auth.kind (c : AuthCmd) : Nat := Auth.byte c 0 + 256 * Auth.byte c 1
def Auth.pkg (c : AuthCmd) : Nat := Auth.byte c 2 + 256 * Auth.byte c 3
def Auth.world (c : AuthCmd) : Nat := Auth.byte c 4
def Auth.comp (c : AuthCmd) : Nat := Auth.byte c 5
def Auth.gate (c : AuthCmd) : Nat := Auth.byte c 6 + 256 * Auth.byte c 7
def Auth.seq (c : AuthCmd) : Nat := bytesToNat ((c.header.drop 16).take 8)
def Auth.grec (c : AuthCmd) : List Byte := (c.header.drop 24).take 64
def Auth.gcomp (c : AuthCmd) : Nat := 16 * (Auth.world c) + (Auth.comp c)

/-- Reads a gate record (Table 19.2). -/
def parseGate (bs : List Byte) : GateRec :=
  { trav := dwordsOf (bs.take 32), gate := bytesToNat ((bs.drop 32).take 2), srcc := (bs.getD 34 0#8).toNat,
    dstc := (bs.getD 35 0#8).toNat, flags := bs.getD 36 0#8, reserved := (bs.drop 37).any (fun b => decide (b ≠ 0#8)) }

/-- A gate record is malformed. A compartment above 15 names none of the world. -/
def gateMalformed (g : GateRec) : Bool :=
  g.reserved || decide (g.flags.toNat / 8 ≠ 0) || decide (g.srcc = g.dstc) || decide (256 ≤ g.gate) ||
  (parseTrav g.trav).isNone || decide (16 ≤ g.srcc) || decide (16 ≤ g.dstc)

def Auth.malformed (c : AuthCmd) : Bool :=
  decide (c.header.length ≠ 128) || (c.header.drop 88).any (fun b => decide (b ≠ 0#8)) ||
  ((c.header.drop 8).take 8).any (fun b => decide (b ≠ 0#8)) || decide (16 ≤ (Auth.comp c)) || decide (64 ≤ (Auth.world c)) ||
  decide ((Auth.kind c) = 0) || decide (3 < (Auth.kind c)) || (decide ((Auth.kind c) = 2) && gateMalformed (parseGate (Auth.grec c)))

/-- The command is signed by the authority that its kind asks for, and the signature verifies (R379). No authority signs for a gate that
was never installed: DESIGN CHOICE (log entry 76). -/
def State.signed (s : State) (c : AuthCmd) : Bool :=
  let who := match (Auth.kind c) with
    | 1 => true
    | 2 => decide ((parseGate (Auth.grec c)).srcc = (Auth.comp c))
    | _ => match Tbl.find? (s.world (Auth.world c)).gates (Auth.gate c) with
      | some g => decide (g.srcc = (Auth.comp c)) || decide (g.dstc = (Auth.comp c))
      | none => false
  who && decide (shake256 c.pubkey = (s.comp (Auth.gcomp c)).auth) &&
  Config.falconVerify c.pubkey (shake256 c.header) c.signature

/-- An install names a VALID gate. -/
def State.gateTaken (s : State) (c : AuthCmd) : Bool :=
  match Tbl.find? (s.world (Auth.world c)).gates (parseGate (Auth.grec c)).gate with
  | some g => GateRec.valid g
  | none => false

/-- The result of a command's checks, in their order; 0 when it is accepted. -/
def State.authCheck (s : State) (c : AuthCmd) : Nat :=
  let r := s.comp (Auth.gcomp c)
  if (Auth.malformed c) then 5
  else if (Auth.pkg c) ≠ 0xFFFF ∧ (Auth.pkg c) ≠ s.pkgid.toNat then 4
  else if r.state = .free ∨ ((Auth.kind c) ≠ 1 ∧ r.state ≠ .active) then 3
  else if s.signed c = false then 1
  else if (Auth.seq c) ≤ r.lastseq.toNat ∨ r.state = .revoked ∨ r.state = .revoking then 2
  else if (Auth.kind c) = 2 ∧ s.gateTaken c = true then 6
  else 0

/-- A command of the event's kind; a command of no kind is Malformed whichever event carries it. -/
def Auth.isKind (c : AuthCmd) (k : Nat) : Bool := decide ((Auth.kind c) = k) || decide ((Auth.kind c) = 0) || decide (3 < (Auth.kind c))

/-- What Done leaves: LASTSEQ and the measurement (Table 19.4). -/
def State.authDone (s : State) (g ix : Nat) (seq : DWord) (digest : List Byte) : State :=
  ({ (s.modComp g (fun c => { c with lastseq := seq })) with authResult := 0 }).measure (compWorld g) ix digest

/-- An install that has passed its checks (R379). -/
def State.installGate (s : State) (cmd : AuthCmd) : State :=
  let g := parseGate (Auth.grec cmd)
  (s.modWorld (Auth.world cmd) (fun w => { w with gates := Tbl.put w.gates g.gate g })).authDone (Auth.gcomp cmd) 5
    (BitVec.ofNat 64 (Auth.seq cmd)) (shake256 cmd.header)

/-- The claims on a gate are revoked. -/
def State.revokeGate (s : State) (world gate cause : Nat) : State :=
  s.revokeClaims (fun n c => decide (n.world = world) && c.onGate gate) cause

/-- A gate closes: VALID is cleared and every claim on it is revoked (R373). -/
def State.closeGate (s : State) (world gate cause : Nat) : State :=
  (s.modWorld world (fun w => { w with gates := Tbl.modify w.gates gate (fun g => { g with flags := g.flags &&& 0xFB#8 }) })).revokeGate
    world gate cause

/-- A claim on a gate is Flowing. -/
def State.gateFlowing (s : State) (world gate : Nat) : Bool :=
  s.teams.any (fun t => s.nodeIs (fun n => decide (n.world = world)) t &&
    t.claims.any (fun c => decide (c.2.state = .flowing) && c.2.onGate gate))

/-- The end of a close that has passed its checks (R379, R373). -/
def State.finishClose (s : State) (cmd : AuthCmd) : State :=
  ({ (s.closeGate (Auth.world cmd) (Auth.gate cmd) 4) with secJobs := [] }).authDone (Auth.gcomp cmd) 5 (BitVec.ofNat 64 (Auth.seq cmd))
    (shake256 cmd.header)

/-- A close: while a claim on the gate is Flowing, the engine waits for its flows (R281). -/
def State.startClose (s : State) (cmd : AuthCmd) : State :=
  if s.gateFlowing (Auth.world cmd) (Auth.gate cmd) then
    { (s.revokeGate (Auth.world cmd) (Auth.gate cmd) 4) with secJobs := [.close cmd] }
  else s.finishClose cmd

/-! ### Key revocation (R380) -/

/-- The nodes that `p` gives stop: a Pending or Ready one is Cancelled, one that runs issues nothing more. -/
def State.stopNodes (s : State) (p : Node → Bool) : State :=
  (s.nodes.filter (fun n => p n && !n.final)).foldl (fun st n =>
    if n.state = .pending ∨ n.state = .ready then st.cancelNode n
    else st.modNode n.id (fun x => { x with ending := some (.keyRevoked, 0#64), cancelling := false })) s

/-- Gates of a world whose SRCC or DSTC is a compartment. -/
def State.gatesOf (s : State) (g : Nat) : List Nat :=
  ((s.world (compWorld g)).gates.filter (fun e => decide (e.2.srcc = compLocal g) || decide (e.2.dstc = compLocal g))).map (fun e => e.1)

/-- A claim of a node on a gate of a compartment. -/
def State.gateClaim (s : State) (g : Nat) (n : Node) (c : Claim) : Bool :=
  decide (n.world = compWorld g) && (s.gatesOf g).any (fun k => c.onGate k)

/-- A Flowing claim defers its revocation until its flows have completed (R281). -/
def State.deferClaims (s : State) (p : Node → Claim → Bool) (cause : Nat) : State :=
  s.revokeClaims (fun n c => decide (c.state = .flowing) && p n c) cause

/-- Step 1 of R380. -/
def State.startRevoke (s : State) (c : AuthCmd) : State :=
  let g := (Auth.gcomp c)
  let s1 := s.modComp g (fun x => { x with state := .revoking })
  let s2 := (s1.stopNodes (fun n => decide (n.gcomp = g))).deferClaims (s1.gateClaim g) 2
  { s2 with secJobs := [.revoke g (BitVec.ofNat 64 (Auth.seq c)) (shake256 c.header)] }

/-- Step 2 of R380: the flows and matrix operations of a compartment, and the flows on its gates, have ended. -/
def State.revokeDrained (s : State) (g : Nat) : Bool :=
  !(s.flows.any (fun f => match (s.team? f.team).bind (fun t => s.node? t.node) with
    | some n => decide (n.gcomp = g) ||
        (decide (n.world = compWorld g) && decide (f.desc.kind = .gate) && (s.gatesOf g).contains f.desc.route)
    | none => false)) &&
  !(s.cores.any (fun c => c.2.matq.any (fun o => o.started && (match (s.team? o.team).bind (fun t => s.node? t.node) with
    | some n => decide (n.gcomp = g)
    | none => false))))

/-- The running nodes that `p` gives become Ended with kind KeyRevoked (R342). -/
def State.endRevoked (s : State) (p : Node → Bool) : State :=
  (s.nodes.filter (fun n => p n && !n.final)).foldl (fun st n => st.endNode n .keyRevoked 0) s

/-- Steps 3 to 6 of R380. -/
def State.finishRevoke (s : State) (g : Nat) (seq : DWord) (digest : List Byte) : State :=
  let k := (s.comp g).key
  let s3 := s.eraseKey g
  let s4 := (s3.gatesOf g).foldl (fun st x => st.closeGate (compWorld g) x 2)
    (s3.revokeClaims (fun n _ => decide (n.gcomp = g)) 2)
  let s4a := s4.dropWalksIf (fun w => decide (w.world = compWorld g) && decide (w.comp = compLocal g) && (match w.who with
    | .scheduler .. | .completion .. | .faultWriter .. | .migration => false
    | _ => true))
  let s4b : State := { s4a with tlb := s4a.tlb.filter (fun e => !(decide (e.world = compWorld g) && decide (e.attr.comp = compLocal g))) }
  let s5 := s4b.clearTagged (fun c => decide (c = g))
  let s6 := (s5.sealLost k).endRevoked (fun n => decide (n.gcomp = g))
  ({ (s6.modComp g (fun c => { c with state := .revoked })) with secJobs := [] }).authDone g 6 seq digest

/-- A command in its turn: its checks, and then what it does (R379). -/
def State.authNow (s : State) (c : AuthCmd) : State :=
  let r := s.authCheck c
  if r ≠ 0 then { s with authResult := BitVec.ofNat 64 r }
  else match Auth.kind c with
    | 1 => s.startRevoke c
    | 2 => s.installGate c
    | _ => s.startClose c

/-! ### Function-level reset (R384) -/

/-- Steps 1 and 2 of R384: every queue of the world is cut, whether or not it has a control block. -/
def State.startReset (s : State) (w : Nat) : State :=
  let s1 := s.modWorld w (fun x =>
    { x with flr := true, rstatus := 1,
             queues := (List.range 256).map (fun q =>
               let u := Tbl.get UQueue.free x.queues q
               (q, { u with ncount := u.count, slot := none, cut := true })) })
  { (s1.stopNodes (fun n => decide (n.world = w))) with secJobs := [.reset w] }

/-- The flows and matrix operations of a world have ended. -/
def State.worldDrained (s : State) (w : Nat) : Bool :=
  s.nodes.all (fun n => decide (n.world ≠ w) ||
    (!(s.flows.any (fun f => (s.teamsOf n.id).any (fun t => decide (t.id = f.team)))) &&
     !(s.cores.any (fun c => c.2.matq.any (fun o => o.started && (s.teamsOf n.id).any (fun t => decide (t.id = o.team)))))))

/-- The launches of a world end without completion records, and are counted in NODONE (R384, R326). -/
def State.dropLaunches (s : State) (w : Nat) : State :=
  let s1 := (s.nodes.filter (fun n => decide (n.world = w))).foldl (fun st n => st.discardNode n.id) s
  let ls := s1.launches.filter (fun l => decide (l.world = w))
  let s2 := ls.foldl (fun st l => st.modQueue w l.queue (fun q => { q with nodone := q.nodone + 1 })) s1
  let back (p : Nat) : Nat := (ls.filter (fun l => decide (l.part = p))).foldl (fun n l => n + l.shadow.length) 0
  { s2 with parts := s2.parts.map (fun p => (p.1, { p.2 with
      nodes := p.2.nodes.filter (fun n => decide (n.world ≠ w))
      launches := p.2.launches.filter (fun l => decide (l.world ≠ w))
      shfree := p.2.shfree + BitVec.ofNat 32 (back p.1) })) }

/-- A compartment of a world under reset becomes Free. -/
def State.freeComp (s : State) (g : Nat) : State :=
  let k := (s.comp g).key
  let s1 := s.eraseKey g
  let s2 := s1.clearTagged (fun c => decide (c = g))
  (s2.sealLost k).modComp g (fun c => { c with state := .free })

/-- Steps 3 to 6 of R384. The record's fields but PARTW return to their reset values (R390). -/
def State.finishFlr (s : State) (w : Nat) : State :=
  let s1 := s.dropLaunches w
  let s2 := (List.range 16).foldl (fun st c => st.freeComp (16 * w + c)) s1
  let s3 := s2.dropWalksIf (fun x => decide (x.world = w))
  let s4 : State := { s3 with
    tlb := s3.tlb.filter (fun e => decide (e.world ≠ w))
    denied := s3.denied.filter (fun d => match d.who with
      | .scheduler x _ => decide (x ≠ w)
      | _ => true)
    shoots := s3.shoots.filter (fun d => decide (d.world ≠ w))
    shoot := if s3.shoots.any (fun d => decide (d.world = w) && decide (d.by_ = .shoot)) then
        (s3.shoot.1, s3.shoot.2.1, s3.shoot.2.2.1, 2#64) else s3.shoot
    secJobs := [] }
  s4.modWorld w (fun x =>
    { x with s1root := 0, s2root := 0, slice := World.reset.slice, waymask := World.reset.waymask, sweeping := none, errring := 0,
             hwbase := 0, gates := [], meas := x.meas.filter (fun e => decide (e.1 < 3)), flr := false, rstatus := 2,
             s1shoot := (x.s1shoot.1, x.s1shoot.2.1, if x.s1shoot.2.2 = 1#64 then 2#64 else x.s1shoot.2.2) })

/-! ### The engine's turns (R379, R385) -/

/-- A request in its turn. -/
def State.secStart (s : State) : SecReq → State
  | .create g => s.createNow g
  | .auth c => s.authNow c
  | .reset w => s.startReset w

/-- The requests that wait, in arrival order, until one of them has the engine wait in turn. -/
def State.secTake : List SecReq → State → State
  | [], s => { s with secQueue := [] }
  | r :: t, s => if s.secJobs ≠ [] then { s with secQueue := r :: t } else State.secTake t (s.secStart r)

/-- The engine goes on: a close whose flows have ended is done, and then what waits has its turn. -/
def State.secSettle (s : State) : State :=
  let s1 := match s.secJobs with
    | .close c :: _ => if s.gateFlowing (Auth.world c) (Auth.gate c) then s else s.finishClose c
    | _ => s
  State.secTake s1.secQueue s1

/-- A request arrives at the engine. -/
def State.secAdd (s : State) (r : SecReq) : State := ({ s with secQueue := s.secQueue ++ [r] } : State).secSettle

/-- COMPARTMENT_CREATE (R369): refused at once, or taken in turn, and CSTATUS reads 1 until then. -/
def execCompartmentCreate (g : Nat) (s : State) : Out :=
  if 1024 ≤ g ∨ s.up = false ∨ s.secQueue.contains (.create g) = true then .next s
  else if s.createBad g then .next (s.modComp g (fun x => { x with cstatus := 3 }))
  else .next ((s.modComp g (fun x => { x with cstatus := 1 })).secAdd (.create g))

/-- An authority command of the event's kind arrives. -/
def State.authCommand (s : State) (k : Nat) (c : AuthCmd) : State :=
  if s.up = false ∨ Auth.isKind c k = false then s else s.secAdd (.auth c)

/-- INSTALL_GATE (R379). -/
def execInstallGate (cmd : AuthCmd) (s : State) : Out := .next (s.authCommand 2 cmd)

/-- CLOSE_GATE (R379, R373). -/
def execCloseGate (cmd : AuthCmd) (s : State) : Out := .next (s.authCommand 3 cmd)

/-- REVOKE_KEY (R380, step 1). -/
def execRevokeKey (cmd : AuthCmd) (s : State) : Out := .next (s.authCommand 1 cmd)

/-- REVOCATION_DRAIN_END: the rest of R380, and the next turn. -/
def execRevocationDrainEnd (comp : Nat) (s : State) : Out :=
  match s.secJobs with
  | .revoke g seq digest :: _ => if g = comp ∧ s.revokeDrained g = true then .next (s.finishRevoke g seq digest).secSettle else .next s
  | _ => .next s

/-- FUNCTION_LEVEL_RESET of virtual function n + 1 resets world n (R368), in turn. -/
def execFunctionLevelReset (fn : Nat) (s : State) : Out :=
  if fn = 0 ∨ 64 < fn ∨ s.up = false then .next s
  else .next (s.secAdd (.reset (fn - 1)))

/-- FLR_DRAIN_END: the rest of R384, and the next turn. -/
def execFlrDrainEnd (world : Nat) (s : State) : Out :=
  match s.secJobs with
  | .reset w :: _ => if w = world ∧ s.worldDrained w = true then .next (s.finishFlr w).secSettle else .next s
  | _ => .next s

end Sys2Proof.Machine
end

