-- ==== Sys2Proof/Machine/Host.lean ====
section
/-! DEFINITION. The outside of the package (spec/20_host_domain.md): register views (R388 to R392), SPDM and the Basder port
(spec/19_worlds.md R377, R378; R393, R396), resets and power (R386, R397 to R399), and link events (R288, R375, R395). -/

namespace Sys2Proof.Machine

open Sys2Proof

/-- The state after an event that always answers a next state. -/
def Out.stateOr (o : Out) (s : State) : State :=
  match o with
  | .next t => t
  | _ => s

/-! ### The privileged view (R389, Table 20.2) -/

/-- PSTATE (Table 20.6): P1 while no team is placed and no parcel runs. -/
def State.pstateCode (s : State) : Nat :=
  match s.pstate with
  | .run => if s.idle then 1 else 0
  | .s1 => 2
  | .off => 3

/-- A read of the privileged view; an unassigned offset reads 0 (R388). A LINKLOG record has its link and kind in the first dword and its
sequence number in the second, at slot number modulo 4,096: DESIGN CHOICE (log entry 76). -/
def State.privRead (s : State) (off : Nat) : DWord :=
  if off % 8 ≠ 0 then 0
  else if off = 0 then
    BitVec.ofNat 64 (s.throttle.toNat + 2 ^ 4 * s.pstateCode + 2 ^ 8 * s.rstage.toNat + 2 ^ 16 * s.pkgid.toNat)
  else if off = 8 then s.pwrcap
  else if off = 0x10 then BitVec.ofNat 64 (s.tlimit.toNat + 115 * 256)
  else if 0x1000 ≤ off ∧ off < 0x1080 then (match s.recordPart ((off - 0x1000) / 8) with
    | some p => (s.part p).record
    | none => 0)
  else if 0x10000 ≤ off ∧ off < 0x14000 then
    let w := s.world ((off - 0x10000) / 256)
    match (off - 0x10000) % 256 with
    | 0 => w.s1root
    | 8 => w.s2root
    | 16 => BitVec.ofNat 64 (w.partId + if w.running then 16 else 0)
    | 24 => w.slice
    | 32 => w.waymask.setWidth 64
    | 40 => w.errring
    | 48 => w.hwbase
    | _ => 0
  else if 0x20000 ≤ off ∧ off < 0x20400 then
    let q := (s.part ((off - 0x20000) / 64)).s2q
    match (off - 0x20000) % 64 with
    | 0 => q.base
    | 8 => q.head
    | 16 => q.tail
    | 32 => q.ignored
    | _ => 0
  else if off = 0x30000 then s.shoot.1
  else if off = 0x30008 then s.shoot.2.1
  else if off = 0x30010 then s.shoot.2.2.1
  else if off = 0x30018 then s.shoot.2.2.2
  else if off = 0x40000 then s.pgreset.1
  else if off = 0x40008 then s.pgreset.2.1
  else if off = 0x40010 then s.pgreset.2.2
  else if off = 0x50000 then s.preemptReg.1
  else if off = 0x50008 then s.preemptReg.2
  else if off = 0x60FF8 then s.authResult
  else if 0x60000 ≤ off ∧ off < 0x61000 then Tbl.get 0#64 s.authBox off
  else if 0x100000 ≤ off ∧ off < 0x120000 then
    let c := s.comp ((off - 0x100000) / 128)
    let o := (off - 0x100000) % 128
    if o = 0 then BitVec.ofNat 64 (match c.state with
      | .free => 0 | .active => 1 | .revoking => 2 | .revoked => 3)
    else if o = 8 then c.lastseq
    else if o = 24 then c.cstatus.setWidth 64
    else if 64 ≤ o then BitVec.ofNat 64 (bytesToNat ((c.auth.drop (o - 64)).take 8))
    else 0
  else if 0x400000 ≤ off ∧ off < 0x500000 then
    let i := (off - 0x400000) / 64
    let q := s.uqueue (i / 256) (i % 256)
    match (off - 0x400000) % 64 with
    | 0 => q.ring
    | 8 => q.ctl
    | 16 => q.ncount
    | 24 => q.taken
    | 32 => q.dropped
    | 40 => q.nodone
    | 48 => q.resv.1
    | _ => q.resv.2
  else if 0x800000 ≤ off ∧ off < 0x880000 then
    let m := s.mcastEntry ((off - 0x800000) / 128)
    let o := (off - 0x800000) % 128
    if o = 0 then m.head
    else if o < 64 then (m.resv >>> (8 * (o - 8))).setWidth 64
    else (m.staged >>> (8 * (o - 64))).setWidth 64
  else if 0xC00000 ≤ off ∧ off < 0xC10000 then
    ((Tbl.get 0#512 s.drmask ((off - 0xC00000) / 64)) >>> (8 * ((off - 0xC00000) % 64))).setWidth 64
  else if 0x1000000 ≤ off ∧ off < 0x1010000 then
    match s.linklog.find? (fun r => decide (r.seq % 4096 = (off - 0x1000000) / 16)) with
    | some r => if off % 16 = 0 then BitVec.ofNat 64 (r.link + 256 * r.kind) else BitVec.ofNat 64 (r.seq % 2 ^ 48)
    | none => 0
  else 0

/-- A write of a field of a world record (R390, Table 20.3). A SLICE above 2^20 is ignored as 0 is: DESIGN CHOICE (log entry 76). -/
def State.worldWrite (s : State) (w off : Nat) (v : DWord) : State :=
  let n := v.toNat
  match off with
  | 0 => if n % 4096 = 0 then s.modWorld w (fun x => { x with s1root := v }) else s
  | 8 => if n % 65536 = 0 then s.modWorld w (fun x => { x with s2root := v }) else s
  | 16 =>
    if (s.part (n % 16)).inUse = false then s
    else
      let s1 := s.modWorld w (fun x => { x with part := v.setWidth 4 })
      Out.stateOr (if v.getLsbD 4 then execWorldResume w s1 else execWorldHalt w s1) s1
  | 24 => if 1 ≤ n ∧ n ≤ 2 ^ 20 then s.modWorld w (fun x => { x with slice := v }) else s
  | 32 => Out.stateOr (execWaymaskWrite w v s) s
  | 40 => if n % 4096 = 0 then s.modWorld w (fun x => { x with errring := v }) else s
  | 48 => s.modWorld w (fun x => { x with hwbase := v })
  | _ => s

/-- A write of a dword of a queue's control block (Table 17.5). A write of RING ends the state that a function-level reset
left the queue in. -/
def State.queueWrite (s : State) (w q off : Nat) (v : DWord) : State :=
  s.modQueue w q (fun x => match off with
    | 0 => { x with ring := v, cut := false }
    | 8 => { x with ctl := v }
    | 16 => { x with ncount := v }
    | 24 => { x with taken := v }
    | 32 => { x with dropped := v }
    | 40 => { x with nodone := v }
    | 48 => { x with resv := (v, x.resv.2) }
    | _ => { x with resv := (x.resv.1, v) })

/-- Bytes [8k, 8k + 8) of a list of 64 replaced. -/
def putDword (bs : List Byte) (k : Nat) (v : DWord) : List Byte := bs.take (8 * k) ++ natToBytes 8 v.toNat ++ bs.drop (8 * k + 8)

/-- A write of a compartment record's block (Table 19.1). -/
def State.compWrite (s : State) (g off : Nat) (v : DWord) : State :=
  if off = 16 then (if v = 1#64 then Out.stateOr (execCompartmentCreate g s) s else s)
  else if 64 ≤ off then
    s.modComp g (fun c => if c.state = .free ∨ c.state = .revoked then { c with auth := putDword c.auth ((off - 64) / 8) v } else c)
  else s

/-- Bytes of the command mailbox. -/
def State.boxBytes (s : State) (off len : Nat) : List Byte :=
  (List.range len).map (fun i => ((Tbl.get 0#64 s.authBox (0x60000 + (off + i) / 8 * 8)) >>> (8 * ((off + i) % 8))).setWidth 8)

/-- The command in the mailbox runs, with its key (R379). The write of the key's last dword, the last field, starts it: PRESUMED, as
R392 has it of the other command registers (log entry 74). -/
def State.boxCommand (s : State) : State :=
  s.secAdd (.auth { header := s.boxBytes 0 128, signature := s.boxBytes 128 1280, pubkey := s.boxBytes 0x600 1793 })

/-- A write of the privileged view (R388, R389, R392). -/
def State.privWrite (s : State) (off : Nat) (v : DWord) : State :=
  let n := v.toNat
  if off = 8 then (if 3000 ≤ n ∧ n ≤ 15000 then { s with pwrcap := v } else s)
  else if off = 0x10 then (if 85 ≤ n % 256 ∧ n % 256 ≤ 110 then { s with tlimit := v.setWidth 8 } else s)
  else if 0x1000 ≤ off ∧ off < 0x1080 then Out.stateOr (execPartitionRecordWrite ((off - 0x1000) / 8) v s) s
  else if 0x10000 ≤ off ∧ off < 0x14000 then s.worldWrite ((off - 0x10000) / 256) ((off - 0x10000) % 256) v
  else if 0x20000 ≤ off ∧ off < 0x20400 then
    let p := (off - 0x20000) / 64
    match (off - 0x20000) % 64 with
    | 0 => s.s2qBase p v
    | 16 => s.s2qTail p v
    | 24 => s.s2qAnswer p (v.setWidth 32) (v.getLsbD 32)
    | _ => s
  else if off = 0x30000 then { s with shoot := (v, s.shoot.2.1, s.shoot.2.2.1, s.shoot.2.2.2) }
  else if off = 0x30008 then { s with shoot := (s.shoot.1, v, s.shoot.2.2.1, s.shoot.2.2.2) }
  else if off = 0x30010 then Out.stateOr (execShootCommand (s.shoot.1.toNat % 64) (s.shoot.1.getLsbD 8) s.shoot.2.1 v s) s
  else if off = 0x40000 then { s with pgreset := (v, s.pgreset.2.1, s.pgreset.2.2) }
  else if off = 0x40008 then Out.stateOr (execPageReset s.pgreset.1 v s) s
  else if off = 0x50000 then Out.stateOr (if n < 64 then execPreemptWorld n s else execPreemptNode v s) s
  else if 0x60000 ≤ off ∧ off < 0x60FF8 then
    let s1 : State := { s with authBox := Tbl.set 0#64 s.authBox off v }
    if off = 0x60D00 then s1.boxCommand else s1
  else if 0x100000 ≤ off ∧ off < 0x120000 then s.compWrite ((off - 0x100000) / 128) ((off - 0x100000) % 128) v
  else if 0x400000 ≤ off ∧ off < 0x500000 then
    let i := (off - 0x400000) / 64
    s.queueWrite (i / 256) (i % 256) ((off - 0x400000) % 64) v
  else if 0x800000 ≤ off ∧ off < 0x880000 then
    let i := (off - 0x800000) / 128
    let o := (off - 0x800000) % 128
    s.mcastWrite i (o / 8) v
  else if 0xC00000 ≤ off ∧ off < 0xC10000 then
    Out.stateOr (execDrmaskWrite ((off - 0xC00000) / 64) ((off - 0xC00000) % 64 / 8) v s) s
  else s

/-- A register access from PCIe that is not an aligned one of 8 bytes completes as Unsupported Request (R388). -/
def State.badAccess (s : State) (fn off : Nat) : State := { s with outputs := s.outputs ++ [.unsupported fn off] }

/-- A register write from PCIe (R388): function 0 writes the privileged view and function n + 1 the window of world n. -/
def State.hostWrite (s : State) (fn off width : Nat) (v : DWord) : State :=
  if s.up = false ∨ 64 < fn then s
  else if width ≠ 8 ∨ off % 8 ≠ 0 then s.badAccess fn off
  else if fn = 0 then (s.privWrite off v).settleSides
  else (s.windowWrite (fn - 1) off v).settleSides

/-- A register read from PCIe. -/
def State.hostRead (s : State) (fn off width : Nat) : State :=
  if s.up = false ∨ 64 < fn then s
  else if width ≠ 8 ∨ off % 8 ≠ 0 then s.badAccess fn off
  else { s with outputs := s.outputs ++ [.register fn off (if fn = 0 then s.privRead off else s.windowRead (fn - 1) off)] }

/-- REGISTER_WRITE (R388): of 8 bytes, from PCIe. -/
def execRegisterWrite (fn off : Nat) (v : DWord) (s : State) : Out := .next (s.hostWrite fn off 8 v)

/-! ### SPDM (R377, R378) -/

/-- How far the exchange with an endpoint is. -/
def State.spdmPhase (s : State) (ep : Endpoint) : SpdmPhase :=
  match s.spdm.find? (fun e => decide (e.1 = ep)) with
  | some e => e.2
  | none => .start

def State.setSpdm (s : State) (ep : Endpoint) (p : SpdmPhase) : State :=
  { s with spdm := s.spdm.filter (fun e => decide (e.1 ≠ ep)) ++ [(ep, p)] }

/-- Order of the phases of the handshake. -/
def SpdmPhase.rank : SpdmPhase → Nat
  | .start => 0 | .version => 1 | .capabilities => 2 | .negotiated => 3 | .exchanged => 4 | .session => 5

def State.answerSpdm (s : State) (ep : Endpoint) (code : Nat) (payload : List Byte) : State :=
  { s with outputs := s.outputs ++ [.spdm ep code payload] }

/-- An endpoint that the package has: a function, the Basder port, or a Frekuide link. -/
def Endpoint.exists_ : Endpoint → Bool
  | .function n => decide (n ≤ 64)
  | .basder => true
  | .peer l => decide (16 ≤ l) && decide (l ≤ 47)

/-- The package answers that it refuses. -/
def State.refuse (s : State) : State := { s with outputs := s.outputs ++ [.refusedReq] }

/-- An endpoint takes requests: a function once it is released, a Frekuide link from step 6 of a reset on, and the Basder port but
during a reset, so in standby too (R396, R397). -/
def State.takesSpdm (s : State) : Endpoint → Bool
  | .function _ => s.up
  | .basder => s.up || decide (s.pstate = .s1)
  | .peer _ => !s.halted && decide (s.pstate = .run) && decide (5 ≤ s.rstage.toNat)

/-- A request at a phase no earlier than `need`, at an endpoint that takes it; otherwise the ERROR response. Codes
and order of the requests are those of SPDM 1.3 (log entry 24). -/
def State.spdmAt (s : State) (ep : Endpoint) (need : Nat) (f : State → State) : State :=
  if Endpoint.exists_ ep = false then s
  else if s.takesSpdm ep = false then (if s.pstate = .off then s else s.refuse)
  else if (s.spdmPhase ep).rank < need then s.answerSpdm ep 0x7F []
  else f s

/-- GET_VERSION: 1.3; it begins the exchange anew, unless a session stands. -/
def execGetVersion (ep : Endpoint) (s : State) : Out :=
  .next (s.spdmAt ep 0 (fun st =>
    (if st.spdmPhase ep = .session then st else st.setSpdm ep .version).answerSpdm ep 0x04 [0x13#8]))

/-- The requests that the package supports, by code: GET_VERSION, GET_CAPABILITIES, NEGOTIATE_ALGORITHMS, GET_DIGESTS, GET_CERTIFICATE,
CHALLENGE, GET_MEASUREMENTS, KEY_EXCHANGE, FINISH and END_SESSION (R377, log entry 24). -/
def spdmRequests : List Byte := [0x84, 0xE1, 0xE3, 0x81, 0x82, 0x83, 0xE0, 0xE4, 0xE5, 0xEC]

/-- The extended algorithm fields: Falcon-1024 for signatures, as 1, and SHAKE256 with 64-byte output for hashes, as 2 (R377, log
entry 24). -/
def spdmAlgorithms : List Byte := [1, 2]

/-- GET_CAPABILITIES. -/
def execGetCapabilities (ep : Endpoint) (s : State) : Out :=
  .next (s.spdmAt ep 1 (fun st =>
    (if (st.spdmPhase ep).rank = 1 then st.setSpdm ep .capabilities else st).answerSpdm ep 0x61 spdmRequests))

/-- NEGOTIATE_ALGORITHMS: Falcon-1024 and SHAKE256 only. -/
def execNegotiateAlgorithms (ep : Endpoint) (falcon shake : Bool) (s : State) : Out :=
  .next (s.spdmAt ep 2 (fun st =>
    if falcon && shake then (if (st.spdmPhase ep).rank = 2 then st.setSpdm ep .negotiated else st).answerSpdm ep 0x63 spdmAlgorithms
    else st.answerSpdm ep 0x7F []))

/-- GET_DIGESTS: the digest of the certificate chain. -/
def execGetDigests (ep : Endpoint) (s : State) : Out :=
  .next (s.spdmAt ep 3 (fun st => st.answerSpdm ep 0x01 (shake256 Config.certificate)))

/-- GET_CERTIFICATE: a part of the chain that ends in the device identity key. -/
def execGetCertificate (ep : Endpoint) (off len : Nat) (s : State) : Out :=
  .next (s.spdmAt ep 3 (fun st => st.answerSpdm ep 0x02 ((Config.certificate.drop off).take len)))

/-- CHALLENGE: the nonce signed by the device identity key. -/
def execChallenge (ep : Endpoint) (nonce : List Byte) (s : State) : Out :=
  .next (s.spdmAt ep 3 (fun st => st.answerSpdm ep 0x03 (Config.falconSign (shake256 nonce))))

/-- A measurement register of a world (R378); indices 0 to 2 are the package's, and 7 is always zero. -/
def State.measurement (s : State) (world ix : Nat) : List Byte :=
  match ix with
  | 0 => s.meas0
  | 1 => s.meas1
  | 2 => s.meas2
  | 7 => Meas.zero
  | _ => Tbl.get Meas.zero (s.world world).meas ix

/-- The world whose registers a requester may read: its own through its function, any through the Basder port. -/
def measuredWorld (ep : Endpoint) (world : Nat) : Option Nat :=
  match ep with
  | .function 0 => none
  | .function (n + 1) => some n
  | .basder => if world < 64 then some world else none
  | .peer _ => none

/-- GET_MEASUREMENTS (R378). Through physical function 0 and a peer endpoint, which are no world's, it answers indices 0 to 2, and ERROR
above: DESIGN CHOICE (log entry 76). -/
def execGetMeasurements (ep : Endpoint) (world index : Nat) (s : State) : Out :=
  .next (s.spdmAt ep 3 (fun st =>
    match measuredWorld ep world with
    | some w => if index < 8 then st.answerSpdm ep 0x60 (st.measurement w index) else st.answerSpdm ep 0x7F []
    | none => if index < 3 then st.answerSpdm ep 0x60 (st.measurement 0 index) else st.answerSpdm ep 0x7F []))

/-- KEY_EXCHANGE: answered with a signature over the requester's share. -/
def execKeyExchange (ep : Endpoint) (share : List Byte) (s : State) : Out :=
  .next (s.spdmAt ep 3 (fun st =>
    (if st.spdmPhase ep = .session then st else st.setSpdm ep .exchanged).answerSpdm ep 0x64 (Config.falconSign (shake256 share))))

/-- Both directions of a link get fresh session keys (R375). -/
def State.renewKeys (s : State) (link : Nat) : State :=
  { s with
    keyCount := s.keyCount + 2
    slotKeys := (indexed (linkSlots link)).foldl (fun t e => Tbl.put t e.2 (s.keyCount + 1 + e.1)) s.slotKeys }

/-- A session stands: a world's PCIe session, or the keys of a Frekuide link, whose paths carry again (R375, R397). -/
def State.openSession (s : State) (ep : Endpoint) : State :=
  let s1 := s.setSpdm ep .session
  match ep with
  | .function (n + 1) => s1.modWorld n (fun w => { w with session := true })
  | .peer l => { (s1.renewKeys l) with lost := s1.lost.filter (fun e => decide (e.1 ≠ l)) }
  | _ => s1

/-- What the requester shows in FINISH lets a session stand: its part verifies, and at the Basder port its certificate chains to the
operator key (R377, R396). -/
def State.finishOk (s : State) (ep : Endpoint) (verify : List Byte) : Bool :=
  Config.finishVerifies s.fresh verify && (match ep with
    | .basder => Config.chainsTo verify s.operatorKey
    | _ => true)

/-- FINISH: completes the handshake that KEY_EXCHANGE began. -/
def execFinish (ep : Endpoint) (verify : List Byte) (s : State) : Out :=
  .next (s.spdmAt ep 4 (fun st =>
    if st.spdmPhase ep ≠ .exchanged ∨ st.finishOk ep verify = false then st.answerSpdm ep 0x7F []
    else (st.openSession ep).answerSpdm ep 0x65 []))

/-- The package as requester keys the two directions of a Frekuide link with its peer, which answers (R375, R377, R397). -/
def State.keyPeer (s : State) (link : Nat) : State :=
  if s.takesSpdm (.peer link) = true ∧ 16 ≤ link ∧ link < 48 then s.openSession (.peer link) else s

/-- END_SESSION. -/
def execEndSession (ep : Endpoint) (s : State) : Out :=
  .next (s.spdmAt ep 5 (fun st =>
    let s1 := st.setSpdm ep .negotiated
    (match ep with
      | .function (n + 1) => s1.modWorld n (fun w => { w with session := false })
      | _ => s1).answerSpdm ep 0x6C []))

/-- The world record that measurement 3 takes (Table 19.4, log entry 9): partition, number of Active compartments, and whether a PCIe
session stands, with the bytes that name it. -/
def State.worldRecord (s : State) (world : Nat) (session : List Byte) : List Byte :=
  natToBytes 1 (s.world world).partId ++
  natToBytes 1 ((List.range 16).filter (fun c => decide ((s.comp (16 * world + c)).state = .active))).length ++
  (if (s.world world).session then natToBytes 1 1 ++ session else natToBytes 1 0)

/-- WORLD_CREATION (R378): the world's registers start at zero, and index 3 is extended with the digest of its record. -/
def execWorldCreation (world : Nat) (record : List Byte) (s : State) : Out :=
  if 64 ≤ world ∨ s.up = false then .next s
  else .next ((s.modWorld world (fun w => { w with meas := [] })).measure world 3 (shake256 (s.worldRecord world record)))

/-! ### The Basder port (R393, R396) -/

/-- A session with the Basder port stands, whose requester showed the operator's certificate (R396). -/
def State.basderOpen (s : State) : Bool := s.takesSpdm .basder && decide (s.spdmPhase .basder = .session)

/-- READ_ERROR_LOG: the records from a sequence number on; nothing is cleared. It needs a session. -/
def execReadErrorLog (seq : Nat) (s : State) : Out :=
  if s.pstate = .off then .next s
  else if s.basderOpen = false then .next s.refuse
  else .next { s with outputs := s.outputs ++ [.errorLog (s.errorlog.filter (fun r => decide (seq ≤ r.seq)))] }

/-- READ_TELEMETRY: package power, core-rail current, the temperatures of the ten dies, and THROTTLE; in every power state
but Off, without a session. -/
def execReadTelemetry (s : State) : Out :=
  if s.pstate = .off then .next s
  else .next { s with outputs := s.outputs ++
    [.telemetry ((List.range 12).map (fun i => Config.telemetry (16 * s.fresh + i)) ++ [s.throttle.setWidth 64])] }

/-- SET_PACKAGE_ID: before step 6 of a reset. -/
def execSetPackageId (id : BitVec 9) (s : State) : Out :=
  if s.pstate = .off then .next s
  else if s.rstage.toNat < 6 then .next { s with pkgid := id }
  else .next s.refuse

/-! ### Resets (R386, R397) -/

/-- Every line of this package reads as zeros (R371, R386); the DRAM of another package is that package's. -/
def State.emptied (s : State) : State :=
  let away (a : Nat) : Bool := decide (pkgOf a ≠ s.pkgid.toNat)
  { s with mem := s.mem.filter (fun e => away e.1), lines := s.lines.filter (fun e => away (128 * e.1)), badNodes := [] }

/-- The state in which a reset begins (R386): on-die storage is cleared but for the Basder standby store, every key slot and the
measurement registers with it, and every line of this package reads as zeros. Host memory is the host's, and the model's own
counters go on. -/
def State.cleared (s : State) : State :=
  let e := s.emptied
  { State.reset with
    schedule := s.schedule, fresh := s.fresh, nextId := s.nextId, clock := s.clock,
    cycs := (List.range Config.cores).map (Config.cycReset s.fresh), hostMem := s.hostMem, pkgid := s.pkgid,
    mem := e.mem, lines := e.lines,
    operatorKey := s.operatorKey, errorlog := s.errorlog, errseq := s.errseq,
    keyCount := s.keyCount, slotKeys := [], rstage := 0, meas0 := Meas.zero, outputs := s.outputs }

/-- A reset sequence is under way. -/
def State.resetting (s : State) : Bool := decide (s.pstate = .run) && !s.halted && decide (s.rstage.toNat < 7)

/-- The next step of Table 20.5, of which RSTAGE then shows that it is complete: a bad firmware signature halts the package in step 3.
The DRAM of the package is empty under the package id that it has at step 6. -/
def State.resetStep (s : State) : State :=
  if s.resetting = false then s
  else match s.rstage.toNat with
    | 1 => { s.cleared with rstage := 2 }
    | 2 =>
      if Config.firmwareGood s.fresh then { s with rstage := 3, meas0 := extend s.meas0 Config.firmwareDigest }
      else ({ s with halted := true } : State).logError 9 0 0
    | 3 => { s with rstage := 4, keyCount := s.keyCount + 38, slotKeys := resetSlots s.keyCount }
    | 5 => { s.emptied with rstage := 6 }
    | _ => { s with rstage := s.rstage + 1 }

/-- POWER_ON. -/
def execPowerOn (s : State) : Out := .next s.cleared

/-- WARM_RESET: with power present. -/
def execWarmReset (s : State) : Out := if s.pstate = .off then .next s else .next s.cleared

/-- PCIE_CONVENTIONAL_RESET (R386). -/
def execPcieConventionalReset (s : State) : Out := if s.pstate = .off then .next s else .next s.cleared

/-- PCIE_CONFIGURATION_REQUEST (R397): Configuration Request Retry Status until step 7. -/
def execPcieConfigurationRequest (fn : Nat) (s : State) : Out :=
  if 64 < fn ∨ s.pstate = .off then .next s
  else .next { s with outputs := s.outputs ++ [.config fn (decide (s.rstage ≠ 7#4))] }

/-! ### Power (R398, R399) -/

/-- The package in standby: its on-die state is lost. -/
def State.toStandby (s : State) : State :=
  { s.cleared with pstate := .s1 }

/-- STANDBY_ENTRY: the host links are down, or Basder asks for it in its session. -/
def execStandbyEntry (basder : Bool) (s : State) : Out :=
  if s.pstate = .off ∨ s.pstate = .s1 then .next s
  else if basder = true ∧ s.basderOpen = false then .next s.refuse
  else .next s.toStandby

/-- STANDBY_POWER_LOSS: the standby store is lost too. -/
def execStandbyPowerLoss (s : State) : Out :=
  .next { s.toStandby with pstate := .off, pkgid := 0, errorlog := [], errseq := 0 }

/-- THROTTLE_STEP_DOWN: one step of 50 MHz, down to 450 MHz. -/
def execThrottleStepDown (s : State) : Out :=
  if s.up = true ∧ s.throttle.toNat < 8 then .next { s with throttle := s.throttle + 1 } else .next s

/-- THROTTLE_STEP_UP. -/
def execThrottleStepUp (s : State) : Out :=
  if s.up = true ∧ 0 < s.throttle.toNat then .next { s with throttle := s.throttle - 1 } else .next s

/-- CRITICAL_TEMPERATURE at the lowest step: dispatch stops and every team is pre-empted. -/
def execCriticalTemperature (die : Nat) (s : State) : Out :=
  if s.up = false ∨ s.throttle ≠ 8#4 ∨ 10 ≤ die ∨ s.hotDie.isSome then .next s
  else .next (({ s with hotDie := some die } : State).requestPreempt (fun _ => true))

/-- Once no team is left on a core, a package with a die above the critical limit logs it and enters standby (R399). -/
def State.cooled (s : State) : State :=
  match s.hotDie with
  | some die => if s.teams.any Team.onCore then s else (s.logError 7 0 die).toStandby
  | none => s

/-! ### Links (R288, R375, R395) -/

/-- A link of Table 20.7. -/
def isLink (l : Nat) : Bool := decide (l < 14) || (decide (16 ≤ l) && decide (l < 48))

/-- LINK_RETRY: the same ciphertext is sent again. -/
def execLinkRetry (link : Nat) (s : State) : Out := if isLink link then .next (s.logLink 0 link 0) else .next s

/-- LANE_FAILOVER. -/
def execLaneFailover (link : Nat) (s : State) : Out := if isLink link then .next (s.logLink 1 link 0) else .next s

/-- LINK_REKEY (R375): the link has new keys, carries again, and counts as lost for the flows that used it, which end Severed. -/
def execLinkRekey (link : Nat) (s : State) : Out :=
  if isLink link then
    let s1 := s.renewKeys link
    .next (({ s1 with
      lost := s1.lost.filter (fun e => decide (e.1 ≠ link))
      flows := s1.flows.map (fun f =>
        if (s.crosses f link || s.mayCross f link) && Config.usedLink s.fresh link f.id then { f with severed := some link } else f) } :
      State).logLink 2 link 0)
  else .next s

/-- PATH_LOST (R288): no path over a link is left, to a package or, for a UCIe link, between the dies of this one. Flows that it cuts
end Severed, and a multicast finds a lost package unreached. -/
def execPathLost (link pkg : Nat) (s : State) : Out :=
  if isLink link = false ∨ 512 ≤ pkg ∨ (pkg = s.pkgid.toNat ∧ 14 ≤ link) then .next s
  else
    let s1 := s.logLink 3 link pkg
    .next { s1 with
      lost := s1.lost ++ [(link, pkg)]
      flows := s1.flows.map (fun f => if s.cuts f link pkg then { f with severed := some link } else f) }

/-! ### Agents outside the package -/

/-- Bytes of DRAM, all in one package. -/
def dramRange (a n : Nat) : Bool :=
  decide (0 < n) && decide (a + n ≤ 2 ^ 51) && isDram a && isDram (a + n - 1) && decide (a / 2 ^ 42 = (a + n - 1) / 2 ^ 42)

/-- A write from outside: by the host or a hypervisor, which has no compartment (log entry 10), or by an agent of another package. One
of another compartment than the tag of a line it meets is not made (R370). In another package's memory it is that package's affair. -/
def State.outsideWrite (s : State) (comp : Option Nat) (a : Nat) (bs : List Byte) : State :=
  if dramRange a bs.length = false then s
  else if pkgOf a ≠ s.pkgid.toNat then { s with mem := putBytes s.mem a bs }
  else if s.up = false then s
  else match comp with
    | none => s.writeSys a bs
    | some c => if (linesOf a bs.length).any (s.tagClash c) then s else s.writeMem c a bs

/-- A read from outside: an agent outside the launch reads a page of its shadow set (R363). -/
def State.outsideRead (s : State) (comp : Option Nat) (a n : Nat) : State :=
  if dramRange a n = false ∨ pkgOf a ≠ s.pkgid.toNat ∨ s.up = false then s
  else
    let s1 := (pagesOf a n).foldl (fun st p => st.noteRead none .home p p 65536) s
    match comp with
    | none => s1.noteSys a n
    | some c => if (linesOf a n).any (s.tagClash c) then s1 else (s1.readMem c a n).2.2

/-- The host writes its memory (log entry 5). -/
def State.hostStore (s : State) (h : Nat) (bs : List Byte) : State :=
  { s with hostMem := (indexed bs).foldl (fun t e => Tbl.put t (h + e.1) (some e.2)) s.hostMem }

/-! ### MEMORY_REQUEST -/

/-- An access of a node in firmware mode to the privileged view (R348, R388, Table 20.1). -/
def State.performPriv (s : State) (r : Req) : State :=
  let off := localOf r.pa - 0x3F004000000
  let p := r.perform (fun st => (natToBytes 8 (st.privRead off).toNat, false, st))
    (fun st bs => st.privWrite off (BitVec.ofNat 64 (bytesToNat bs))) s
  (p.2.2.finishReq r p.1 false).settleSides

/-- MEMORY_REQUEST: an access performs at its point of order (R251, R254, R257). An access of a node that is gone is dropped; a peer's
goes through PEER_ACCESS_RELAY. -/
def execMemoryRequest (req : Nat) (s : State) : Out :=
  match s.reqs.find? (fun r => decide (r.id = req)) with
  | none => .next s
  | some r => match r.place, s.node? r.node with
    | .peer _, _ => .next s
    | _, none => .next { s with reqs := s.reqs.filter (fun q => decide (q.id ≠ req)) }
    | .priv, some _ => if s.reqReady r = false then .next s else .next (s.performPriv r)
    | _, some n => if s.reqReady r = false then .next s else .next (s.performReq n r)

end Sys2Proof.Machine
end

