-- ==== Sys2Proof/Machine/Dispatch.lean ====
section
/-! DEFINITION. One arm per instruction and event: each a direct call of its meaning. -/

namespace Sys2Proof.Machine

open Sys2Proof

def exec (i : Instr) (s : State) : Host.Outcome State Fault Refusal :=
  match i with
  | .nop c f => Sys2Proof.Machine.execNop c f s
  | .br c f => Sys2Proof.Machine.execBr c f s
  | .brc c f => Sys2Proof.Machine.execBrc c f s
  | .brx c f => Sys2Proof.Machine.execBrx c f s
  | .call c f => Sys2Proof.Machine.execCall c f s
  | .ret c f => Sys2Proof.Machine.execRet c f s
  | .join c f => Sys2Proof.Machine.execJoin c f s
  | .loop c f => Sys2Proof.Machine.execLoop c f s
  | .exit c f => Sys2Proof.Machine.execExit c f s
  | .tjoin c f => Sys2Proof.Machine.execTjoin c f s
  | .region c f => Sys2Proof.Machine.execRegion c f s
  | .yield c f => Sys2Proof.Machine.execYield c f s
  | .trap c f => Sys2Proof.Machine.execTrap c f s
  | .bkpt c f => Sys2Proof.Machine.execBkpt c f s
  | .mov c f => Sys2Proof.Machine.execMov c f s
  | .movi c f => Sys2Proof.Machine.execMovi c f s
  | .sel c f => Sys2Proof.Machine.execSel c f s
  | .kset c f => Sys2Proof.Machine.execKset c f s
  | .kop c f => Sys2Proof.Machine.execKop c f s
  | .kmov c f => Sys2Proof.Machine.execKmov c f s
  | .xset c f => Sys2Proof.Machine.execXset c f s
  | .shfl c f => Sys2Proof.Machine.execShfl c f s
  | .vote c f => Sys2Proof.Machine.execVote c f s
  | .gred c f => Sys2Proof.Machine.execGred c f s
  | .gscan c f => Sys2Proof.Machine.execGscan c f s
  | .add c f => Sys2Proof.Machine.execAdd c f s
  | .sub c f => Sys2Proof.Machine.execSub c f s
  | .mul c f => Sys2Proof.Machine.execMul c f s
  | .mulhi c f => Sys2Proof.Machine.execMulhi c f s
  | .mad c f => Sys2Proof.Machine.execMad c f s
  | .madhi c f => Sys2Proof.Machine.execMadhi c f s
  | .min c f => Sys2Proof.Machine.execMin c f s
  | .max c f => Sys2Proof.Machine.execMax c f s
  | .abs c f => Sys2Proof.Machine.execAbs c f s
  | .neg c f => Sys2Proof.Machine.execNeg c f s
  | .and c f => Sys2Proof.Machine.execAnd c f s
  | .or c f => Sys2Proof.Machine.execOr c f s
  | .xor c f => Sys2Proof.Machine.execXor c f s
  | .not c f => Sys2Proof.Machine.execNot c f s
  | .shl c f => Sys2Proof.Machine.execShl c f s
  | .shr c f => Sys2Proof.Machine.execShr c f s
  | .sar c f => Sys2Proof.Machine.execSar c f s
  | .rot c f => Sys2Proof.Machine.execRot c f s
  | .clz c f => Sys2Proof.Machine.execClz c f s
  | .popc c f => Sys2Proof.Machine.execPopc c f s
  | .brev c f => Sys2Proof.Machine.execBrev c f s
  | .bfx c f => Sys2Proof.Machine.execBfx c f s
  | .bfi c f => Sys2Proof.Machine.execBfi c f s
  | .lea c f => Sys2Proof.Machine.execLea c f s
  | .addImm c f => Sys2Proof.Machine.execAddImm c f s
  | .subImm c f => Sys2Proof.Machine.execSubImm c f s
  | .mulImm c f => Sys2Proof.Machine.execMulImm c f s
  | .mulhiImm c f => Sys2Proof.Machine.execMulhiImm c f s
  | .madImm c f => Sys2Proof.Machine.execMadImm c f s
  | .madhiImm c f => Sys2Proof.Machine.execMadhiImm c f s
  | .minImm c f => Sys2Proof.Machine.execMinImm c f s
  | .maxImm c f => Sys2Proof.Machine.execMaxImm c f s
  | .absImm c f => Sys2Proof.Machine.execAbsImm c f s
  | .negImm c f => Sys2Proof.Machine.execNegImm c f s
  | .andImm c f => Sys2Proof.Machine.execAndImm c f s
  | .orImm c f => Sys2Proof.Machine.execOrImm c f s
  | .xorImm c f => Sys2Proof.Machine.execXorImm c f s
  | .notImm c f => Sys2Proof.Machine.execNotImm c f s
  | .shlImm c f => Sys2Proof.Machine.execShlImm c f s
  | .shrImm c f => Sys2Proof.Machine.execShrImm c f s
  | .sarImm c f => Sys2Proof.Machine.execSarImm c f s
  | .rotImm c f => Sys2Proof.Machine.execRotImm c f s
  | .clzImm c f => Sys2Proof.Machine.execClzImm c f s
  | .popcImm c f => Sys2Proof.Machine.execPopcImm c f s
  | .brevImm c f => Sys2Proof.Machine.execBrevImm c f s
  | .bfxImm c f => Sys2Proof.Machine.execBfxImm c f s
  | .bfiImm c f => Sys2Proof.Machine.execBfiImm c f s
  | .leaImm c f => Sys2Proof.Machine.execLeaImm c f s
  | .div c f => Sys2Proof.Machine.execDiv c f s
  | .rem c f => Sys2Proof.Machine.execRem c f s
  | .fadd c f => Sys2Proof.Machine.execFadd c f s
  | .fsub c f => Sys2Proof.Machine.execFsub c f s
  | .fmul c f => Sys2Proof.Machine.execFmul c f s
  | .ffma c f => Sys2Proof.Machine.execFfma c f s
  | .fmin c f => Sys2Proof.Machine.execFmin c f s
  | .fmax c f => Sys2Proof.Machine.execFmax c f s
  | .faddImm c f => Sys2Proof.Machine.execFaddImm c f s
  | .fsubImm c f => Sys2Proof.Machine.execFsubImm c f s
  | .fmulImm c f => Sys2Proof.Machine.execFmulImm c f s
  | .ffmaImm c f => Sys2Proof.Machine.execFfmaImm c f s
  | .fminImm c f => Sys2Proof.Machine.execFminImm c f s
  | .fmaxImm c f => Sys2Proof.Machine.execFmaxImm c f s
  | .frcp c f => Sys2Proof.Machine.execFrcp c f s
  | .frsq c f => Sys2Proof.Machine.execFrsq c f s
  | .fsqrt c f => Sys2Proof.Machine.execFsqrt c f s
  | .fdiv c f => Sys2Proof.Machine.execFdiv c f s
  | .fexp2 c f => Sys2Proof.Machine.execFexp2 c f s
  | .flog2 c f => Sys2Proof.Machine.execFlog2 c f s
  | .fsin c f => Sys2Proof.Machine.execFsin c f s
  | .fcos c f => Sys2Proof.Machine.execFcos c f s
  | .fredpi c f => Sys2Proof.Machine.execFredpi c f s
  | .frint c f => Sys2Proof.Machine.execFrint c f s
  | .fclass c f => Sys2Proof.Machine.execFclass c f s
  | .fscale c f => Sys2Proof.Machine.execFscale c f s
  | .fgetexp c f => Sys2Proof.Machine.execFgetexp c f s
  | .hadd2 c f => Sys2Proof.Machine.execHadd2 c f s
  | .hmul2 c f => Sys2Proof.Machine.execHmul2 c f s
  | .hfma2 c f => Sys2Proof.Machine.execHfma2 c f s
  | .dot4 c f => Sys2Proof.Machine.execDot4 c f s
  | .dot8 c f => Sys2Proof.Machine.execDot8 c f s
  | .pack c f => Sys2Proof.Machine.execPack c f s
  | .unpack c f => Sys2Proof.Machine.execUnpack c f s
  | .cvt c f => Sys2Proof.Machine.execCvt c f s
  | .bscale c f => Sys2Proof.Machine.execBscale c f s
  | .bmax c f => Sys2Proof.Machine.execBmax c f s
  | .ld c f => Sys2Proof.Machine.execLd c f s
  | .st c f => Sys2Proof.Machine.execSt c f s
  | .atom c f => Sys2Proof.Machine.execAtom c f s
  | .red c f => Sys2Proof.Machine.execRed c f s
  | .lds c f => Sys2Proof.Machine.execLds c f s
  | .sts c f => Sys2Proof.Machine.execSts c f s
  | .atoms c f => Sys2Proof.Machine.execAtoms c f s
  | .fence c f => Sys2Proof.Machine.execFence c f s
  | .obres c f => Sys2Proof.Machine.execObres c f s
  | .obrel c f => Sys2Proof.Machine.execObrel c f s
  | .aalloc c f => Sys2Proof.Machine.execAalloc c f s
  | .afree c f => Sys2Proof.Machine.execAfree c f s
  | .mma c f => Sys2Proof.Machine.execMma c f s
  | .ald c f => Sys2Proof.Machine.execAld c f s
  | .ast c f => Sys2Proof.Machine.execAst c f s
  | .aget c f => Sys2Proof.Machine.execAget c f s
  | .mwait c f => Sys2Proof.Machine.execMwait c f s
  | .mperturb c f => Sys2Proof.Machine.execMperturb c f s
  | .matrixOpStart core op => Sys2Proof.Machine.execMatrixOpStart core op s
  | .operandsConsumed core op => Sys2Proof.Machine.execOperandsConsumed core op s
  | .matrixOpCompletion core op mismatch => Sys2Proof.Machine.execMatrixOpCompletion core op mismatch s
  | .broadcastDelivery node team => Sys2Proof.Machine.execBroadcastDelivery node team s
  | .claim c f => Sys2Proof.Machine.execClaim c f s
  | .claimWalkEnd team claim => Sys2Proof.Machine.execClaimWalkEnd team claim s
  | .flow c f => Sys2Proof.Machine.execFlow c f s
  | .flowCompletion flow => Sys2Proof.Machine.execFlowCompletion flow s
  | .cwait c f => Sys2Proof.Machine.execCwait c f s
  | .crel c f => Sys2Proof.Machine.execCrel c f s
  | .cstat c f => Sys2Proof.Machine.execCstat c f s
  | .cbset c f => Sys2Proof.Machine.execCbset c f s
  | .cbtake c f => Sys2Proof.Machine.execCbtake c f s
  | .cbgive c f => Sys2Proof.Machine.execCbgive c f s
  | .qbind c f => Sys2Proof.Machine.execQbind c f s
  | .qunbind c f => Sys2Proof.Machine.execQunbind c f s
  | .qstat c f => Sys2Proof.Machine.execQstat c f s
  | .creditRequest send => Sys2Proof.Machine.execCreditRequest send s
  | .creditGrant send => Sys2Proof.Machine.execCreditGrant send s
  | .messageArrival send => Sys2Proof.Machine.execMessageArrival send s
  | .barinit c f => Sys2Proof.Machine.execBarinit c f s
  | .barArrive c f => Sys2Proof.Machine.execBarArrive c f s
  | .barWait c f => Sys2Proof.Machine.execBarWait c f s
  | .barTest c f => Sys2Proof.Machine.execBarTest c f s
  | .barDrop c f => Sys2Proof.Machine.execBarDrop c f s
  | .nlaunch c f => Sys2Proof.Machine.execNlaunch c f s
  | .nwait c f => Sys2Proof.Machine.execNwait c f s
  | .nstat c f => Sys2Proof.Machine.execNstat c f s
  | .csrr c f => Sys2Proof.Machine.execCsrr c f s
  | .csrw c f => Sys2Proof.Machine.execCsrw c f s
  | .tret c f => Sys2Proof.Machine.execTret c f s
  | .registerFill fill => Sys2Proof.Machine.execRegisterFill fill s
  | .strandAging team group strand => Sys2Proof.Machine.execStrandAging team group strand s
  | .scopeMismatchDetect team => Sys2Proof.Machine.execScopeMismatchDetect team s
  | .icacheRefetch core line => Sys2Proof.Machine.execIcacheRefetch core line s
  | .memoryRequest req => Sys2Proof.Machine.execMemoryRequest req s
  | .peerAccessRelay req => Sys2Proof.Machine.execPeerAccessRelay req s
  | .translationWalk walk => Sys2Proof.Machine.execTranslationWalk walk s
  | .s2qAnswerRetry part id => Sys2Proof.Machine.execS2qAnswerRetry part id s
  | .s2qAnswerInvalid part id => Sys2Proof.Machine.execS2qAnswerInvalid part id s
  | .fqAnswerRetry world id => Sys2Proof.Machine.execFqAnswerRetry world id s
  | .fqAnswerInvalid world id => Sys2Proof.Machine.execFqAnswerInvalid world id s
  | .s2qTailWrite part v => Sys2Proof.Machine.execS2qTailWrite part v s
  | .fqtailWrite world v => Sys2Proof.Machine.execFqtailWrite world v s
  | .fqbaseWrite world v => Sys2Proof.Machine.execFqbaseWrite world v s
  | .shootCommand world stage2 addr pages => Sys2Proof.Machine.execShootCommand world stage2 addr pages s
  | .s1shootCommand world addr pages => Sys2Proof.Machine.execS1shootCommand world addr pages s
  | .shootdownComplete id => Sys2Proof.Machine.execShootdownComplete id s
  | .pageReset addr pages => Sys2Proof.Machine.execPageReset addr pages s
  | .migration world gpa frame => Sys2Proof.Machine.execMigration world gpa frame s
  | .preemptWorld world => Sys2Proof.Machine.execPreemptWorld world s
  | .preemptNode handle => Sys2Proof.Machine.execPreemptNode handle s
  | .teamPreemptStart team => Sys2Proof.Machine.execTeamPreemptStart team s
  | .teamStateSave team => Sys2Proof.Machine.execTeamStateSave team s
  | .teamPlacement team core => Sys2Proof.Machine.execTeamPlacement team core s
  | .teamRestart team core => Sys2Proof.Machine.execTeamRestart team core s
  | .bankWaitDeadlock core => Sys2Proof.Machine.execBankWaitDeadlock core s
  | .timeSliceEnd part next => Sys2Proof.Machine.execTimeSliceEnd part next s
  | .notify world queue => Sys2Proof.Machine.execNotify world queue s
  | .queueSlotRotation part => Sys2Proof.Machine.execQueueSlotRotation part s
  | .launchAccept world queue => Sys2Proof.Machine.execLaunchAccept world queue s
  | .readyPoolAdmit part node => Sys2Proof.Machine.execReadyPoolAdmit part node s
  | .priorityAging part node => Sys2Proof.Machine.execPriorityAging part node s
  | .nodeDispatch part lead => Sys2Proof.Machine.execNodeDispatch part lead s
  | .dispatchWalkEnd node => Sys2Proof.Machine.execDispatchWalkEnd node s
  | .spillReturn part => Sys2Proof.Machine.execSpillReturn part s
  | .nodeCommit node => Sys2Proof.Machine.execNodeCommit node s
  | .nodeEndByTrap node => Sys2Proof.Machine.execNodeEndByTrap node s
  | .launchEnd launch => Sys2Proof.Machine.execLaunchEnd launch s
  | .nodeReplay node => Sys2Proof.Machine.execNodeReplay node s
  | .launchReplay launch => Sys2Proof.Machine.execLaunchReplay launch s
  | .patrolScrub channel => Sys2Proof.Machine.execPatrolScrub channel s
  | .multicastReceive group trav off bytes => Sys2Proof.Machine.execMulticastReceive group trav off bytes s
  | .partitionRecordWrite part v => Sys2Proof.Machine.execPartitionRecordWrite part v s
  | .drmaskWrite mask dword v => Sys2Proof.Machine.execDrmaskWrite mask dword v s
  | .mcastEntryWrite entry v => Sys2Proof.Machine.execMcastEntryWrite entry v s
  | .worldHalt world => Sys2Proof.Machine.execWorldHalt world s
  | .worldResume world => Sys2Proof.Machine.execWorldResume world s
  | .waymaskWrite world v => Sys2Proof.Machine.execWaymaskWrite world v s
  | .waymaskSweepComplete world => Sys2Proof.Machine.execWaymaskSweepComplete world s
  | .compartmentCreate comp => Sys2Proof.Machine.execCompartmentCreate comp s
  | .revokeKey cmd => Sys2Proof.Machine.execRevokeKey cmd s
  | .revocationDrainEnd comp => Sys2Proof.Machine.execRevocationDrainEnd comp s
  | .installGate cmd => Sys2Proof.Machine.execInstallGate cmd s
  | .closeGate cmd => Sys2Proof.Machine.execCloseGate cmd s
  | .functionLevelReset fn => Sys2Proof.Machine.execFunctionLevelReset fn s
  | .flrDrainEnd world => Sys2Proof.Machine.execFlrDrainEnd world s
  | .getVersion ep => Sys2Proof.Machine.execGetVersion ep s
  | .getCapabilities ep => Sys2Proof.Machine.execGetCapabilities ep s
  | .negotiateAlgorithms ep falcon shake => Sys2Proof.Machine.execNegotiateAlgorithms ep falcon shake s
  | .getDigests ep => Sys2Proof.Machine.execGetDigests ep s
  | .getCertificate ep off len => Sys2Proof.Machine.execGetCertificate ep off len s
  | .challenge ep nonce => Sys2Proof.Machine.execChallenge ep nonce s
  | .getMeasurements ep world index => Sys2Proof.Machine.execGetMeasurements ep world index s
  | .keyExchange ep share => Sys2Proof.Machine.execKeyExchange ep share s
  | .finish ep verify => Sys2Proof.Machine.execFinish ep verify s
  | .endSession ep => Sys2Proof.Machine.execEndSession ep s
  | .readErrorLog seq => Sys2Proof.Machine.execReadErrorLog seq s
  | .readTelemetry => Sys2Proof.Machine.execReadTelemetry s
  | .setPackageId id => Sys2Proof.Machine.execSetPackageId id s
  | .powerOn => Sys2Proof.Machine.execPowerOn s
  | .warmReset => Sys2Proof.Machine.execWarmReset s
  | .pcieConventionalReset => Sys2Proof.Machine.execPcieConventionalReset s
  | .standbyEntry basder => Sys2Proof.Machine.execStandbyEntry basder s
  | .standbyPowerLoss => Sys2Proof.Machine.execStandbyPowerLoss s
  | .throttleStepDown => Sys2Proof.Machine.execThrottleStepDown s
  | .throttleStepUp => Sys2Proof.Machine.execThrottleStepUp s
  | .criticalTemperature die => Sys2Proof.Machine.execCriticalTemperature die s
  | .linkRetry link => Sys2Proof.Machine.execLinkRetry link s
  | .laneFailover link => Sys2Proof.Machine.execLaneFailover link s
  | .linkRekey link => Sys2Proof.Machine.execLinkRekey link s
  | .pathLost link pkg => Sys2Proof.Machine.execPathLost link pkg s
  | .registerWrite fn off v => Sys2Proof.Machine.execRegisterWrite fn off v s
  | .hostCancellation world handle whole => Sys2Proof.Machine.execHostCancellation world handle whole s
  | .worldCreation world record => Sys2Proof.Machine.execWorldCreation world record s
  | .pcieConfigurationRequest fn => Sys2Proof.Machine.execPcieConfigurationRequest fn s

end Sys2Proof.Machine
end

