-- ==== Sys2Proof/Machine/Upset.lean ====
section
/-! DEFINITION. Hardware errors in on-die storage and in DRAM, as the silent-error defence meets them (spec/03_encoding.md R31;
spec/13_memory.md R248; spec/18_faults.md R358, R359; spec/19_worlds.md R376), and which instructions are issued twice
(spec/06_tracts.md R102; spec/09_arithmetic.md R178). -/

namespace Sys2Proof.Machine

open Sys2Proof

/-- What DRAM holds of a line changes, if a unit was ever written back there. -/
def State.hitLine (s : State) (line : Nat) (f : Line → Line) : State :=
  let l := Tbl.get Line.reset s.lines line
  if l.version = 0#64 then s else { s with lines := Tbl.set Line.reset s.lines line (f l) }

/-- The bit of a check field. -/
def fieldBit (k : Nat) : BitVec 8 := 1#8 <<< (k % 8)

/-- A field with one more bit in error; a second one makes two. -/
def Line.oneBit (l : Line) (k : Nat) : Line :=
  if (l.single ||| l.double) &&& fieldBit k ≠ 0#8 then
    { l with single := l.single &&& ~~~(fieldBit k), double := l.double ||| fieldBit k }
  else { l with single := l.single ||| fieldBit k }

/-- A field with two bits in error. -/
def Line.twoBits (l : Line) (k : Nat) : Line :=
  { l with single := l.single &&& ~~~(fieldBit k), double := l.double ||| fieldBit k }

/-- A sector of the L2 copy of a line is poisoned; a line that no copy of stands on die is not touched. -/
def State.hitCopy (s : State) (line chunk : Nat) : State :=
  let l := Tbl.get Line.reset s.lines line
  if l.tag.isNone then s
  else { s with lines := Tbl.set Line.reset s.lines line { l with poison := l.poison ||| (1#4 <<< (chunk / 2 % 4)) } }

/-- What a hardware error does at once (Table 18.6, Table 13.5): a discarded entry is refilled when it is next asked for, a word
that cannot be corrected is consumed by the node that owns it, and DRAM's errors show when the line is read. -/
def State.upset (s : State) : Upset → State
  | .icacheLine core key => s.modCore core (fun c => { c with icache := Tbl.modify c.icache key (fun l => { l with bad := true }) })
  | .l1Sector core sector =>
    if (Tbl.find? (s.core core).l1 sector).isNone then s
    else (s.modCore core (fun c => { c with l1 := Tbl.del c.l1 sector })).countError (.l1 core)
  | .tlbEntry die world vpage =>
    let is (e : TlbEntry) : Bool := decide (e.die = die) && decide (e.world = world) && decide (e.vpage = vpage)
    if s.tlb.any is then ({ s with tlb := s.tlb.filter (fun e => !is e) } : State).countError (.tlb die) else s
  | .lineBit line field => s.hitLine line (fun l => l.oneBit field)
  | .lineBits line field => s.hitLine line (fun l => l.twoBits field)
  | .lineMac line => s.hitLine line (fun l => { l with badMac := true })
  | .treeNode channel level index =>
    { s with badNodes := s.badNodes ++ [{ channel := channel, level := level, index := index, fixed := [] }] }
  | .l2Chunk line chunk => s.hitCopy line chunk
  | .corrected st => s.countError st
  | .owned node => match s.node? node with
    | some n => if n.final then s else s.consume node .uncorrectable
    | none => s
  | .mismatch _ => s

/-! ### What is issued twice -/

/-- Opcodes of the VEC pipe and of the SFU (Table 3.5). -/
def vecOpcodes : List (Nat × Nat) :=
  [(0x020, 0x026), (0x040, 0x057), (0x060, 0x077), (0x080, 0x085), (0x08E, 0x091), (0x0A0, 0x0A5), (0x0C0, 0x0C9)]
def sfuOpcodes : List (Nat × Nat) := [(0x058, 0x059), (0x086, 0x08D), (0x092, 0x092)]

/-- The opcode of a word lies in a list of ranges. -/
def opcodeIn (rs : List (Nat × Nat)) (w : BitVec 96) : Bool :=
  rs.any (fun r => decide (r.1 ≤ (Decode.field w 87 9).toNat) && decide ((Decode.field w 87 9).toNat ≤ r.2))

/-- The instruction `w` of a node is issued twice and compared: every one of a parcel in form (R102), every one of the SFU, and
those of the VEC pipe in a checked node (R178). -/
def Node.issuesTwice (n : Node) (form : Bool) (w : BitVec 96) : Bool :=
  form || opcodeIn sfuOpcodes w || (n.desc.checked && opcodeIn vecOpcodes w)

end Sys2Proof.Machine
end

