-- ==== Sys2Proof/Machine/Fetching.lean ====
section
/-! DEFINITION. What a step does around an instruction: the clock (spec/00_scope.md R2), the choice of the agent that moves
(spec/05_issue.md R82, R83), the fetch and decode of its instruction (spec/03_encoding.md R26 to R31, R56, R57), and the
placing of a word where the next step fetches it. -/

namespace Sys2Proof.Machine

open Sys2Proof

/-! ### Time (R2) -/

/-- The wait counts of a team's strands after `k` clocks: one that is ready has waited on (R83). -/
def Team.wait (t : Team) (k : Nat) : Team :=
  if t.phase = .placed then
    { t with groups := t.groups.map (fun g =>
        { g with strands := g.strands.map (fun st => if g.readyStrand st then { st with wait := st.wait + k } else st) }) }
  else t

/-- Time goes on by one step: the package clock, the wait counts, each core's cycle counter, and the counter of free values.
While the package idles its core clocks are gated, and the cycle counters stand still. -/
def State.tick (s : State) : State :=
  let k := 1 + Config.clocks s.fresh
  { s with
    clock := s.clock + k
    cycs := if s.idle then s.cycs
      else (indexed s.cycs).map (fun e => e.2 + BitVec.ofNat 64 (Config.coreClocks s.fresh e.1))
    teams := s.teams.map (fun t => t.wait k)
    fresh := s.fresh + 1 }

/-- What has waited on the package's own engines takes effect: standby after a critical temperature, once no team is on a core
(R399), and multicast entries that a host has written and requests to the security engine, once no flow is in their way (R281,
R385). -/
def State.settled (s : State) : State :=
  let s0 := s.cooled
  let s1 := if s0.mcastJobs = [] then s0 else State.mcastSettle s0.mcastJobs [] s0
  if s1.secJobs = [] ∧ s1.secQueue = [] then s1 else s1.secSettle

/-! ### May the agent issue (R82, R83) -/

/-- What the issue of a strand or a parcel comes to before its fetch. -/
inductive Gate where
  /-- it may not issue now -/
  | closed
  /-- a trap held or deferred is raised in place of the instruction at the address given (R237, R343) -/
  | due (t : Team) (n : Node) (g k : Nat) (r : TrapRec) (a : Addr)
  /-- it fetches its instruction for a node on a core -/
  | go (n : Node) (core : Nat) (who : Requester) (a : Addr)
  deriving DecidableEq, Repr

/-- A strand that competes for an issue slot, with its age (R82). -/
structure Rival where
  team : Nat
  age : Nat
  group : Nat
  st : Strand
  deriving DecidableEq, Repr

/-- The strands of the slot of group `g` on a core that stand ready. -/
def State.slotStrands (s : State) (core g : Nat) : List Rival :=
  (s.teams.filter (fun t => decide (t.core = core) && decide (t.phase = .placed))).flatMap (fun t =>
    (indexed t.groups).flatMap (fun e => if e.1 % 4 = g % 4 then
      (e.2.strands.filter e.2.readyStrand).map (fun st => { team := t.id, age := t.age, group := e.1, st := st }) else []))

/-- `a` is older than `b`: its team was placed earlier, then the lower group, then the lower first quad (R82). -/
def Rival.older (a b : Rival) : Bool :=
  decide (a.age < b.age) || (decide (a.age = b.age) && (decide (a.group < b.group) ||
    (decide (a.group = b.group) && decide (firstQuad a.st.quads < firstQuad b.st.quads))))

/-- The two are one strand. -/
def Rival.same (a b : Rival) : Bool := decide (a.team = b.team) && decide (a.group = b.group) && decide (a.st.quads = b.st.quads)

/-- The strand is the one its slot issued from last. -/
def State.isCurrent (s : State) (core : Nat) (r : Rival) : Bool :=
  Tbl.find? (s.core core).greedy (r.group % 4) == some (r.team, r.group, r.st.quads)

/-- The slot takes `r` before `me` when both are ready: an aged strand first, the oldest of several; else the current one;
else the older (R82, R83). -/
def State.goesFirst (s : State) (core : Nat) (me r : Rival) : Bool :=
  if me.st.aged || r.st.aged then r.st.aged && (!me.st.aged || r.older me)
  else if s.isCurrent core me then false
  else s.isCurrent core r || r.older me

/-- Another strand of the slot goes before strand `st` of group `g` (R82, R83). An aged one goes first in any case. Whether
one that waits at nothing here is ready, with its latencies over and its pipe granted, is timing, a free value
(log entry 66). -/
def State.slotTaken (s : State) (t : Team) (g : Nat) (st : Strand) : Bool :=
  let me : Rival := { team := t.id, age := t.age, group := g, st := st }
  (s.slotStrands t.core g).any (fun r => !r.same me && s.goesFirst t.core me r &&
    (r.st.aged || Config.slotReady s.fresh r.team (256 * r.group + r.st.quads.toNat)))

/-- Where a strand with a held trap stands: its instruction, or the place at which it is parked (R78, R343). -/
def Group.heldPlace (g : Group) (st : Strand) : Option Addr :=
  if st.stopped then none
  else match g.strandAddr st with
    | some a => some a
    | none => g.lowestAddr (g.liveOf st &&& ~~~g.outsideLanes)

/-- A load or returning atomic of the group waits for a pre-empted peer, and holds the group (R183). -/
def State.peerHeld (s : State) (n : Node) (t g : Nat) : Bool :=
  s.reqs.any (fun r => decide (r.team = t) && decide (r.group = g) && r.parcel.isNone && r.fill.isSome && (match r.place with
    | .peer i => decide (s.peer n.id i = .waits)
    | _ => false))

/-- The gate of strand `k` of group `g` of team `t`. -/
def State.strandGate (s : State) (t g k : Nat) : Gate :=
  match s.team? t with
  | none => .closed
  | some tm =>
  match s.node? tm.node, tm.groups[g]? with
  | some n, some gr =>
    match gr.strands[k]? with
    | none => .closed
    | some st =>
      if tm.phase ≠ .placed ∨ n.ending.isSome = true ∨ s.stopsNode n = true ∨ s.up = false then .closed
      else if s.peerHeld n t g || s.slotTaken tm g st then .closed
      else
        match st.held, gr.trap with
        | some r, none =>
          match gr.heldPlace st with
          | some a => .due tm n g k r a
          | none => .closed
        | _, _ =>
          match gr.strandAddr st with
          | none => .closed
          | some a =>
            match gr.deferred, gr.owesNow with
            | some o, true => .due tm n g k o.trap a
            | _, _ => .go n tm.core (.strand t g st.quads) a
  | _, _ => .closed

/-- A parcel's place in the turn order: the linear index of its first team (R102), then node and parcel. -/
def Parcel.turnKey (p : Parcel) (n : Node) : Nat × Nat × Nat := (n.teamIndex p.lo.1 p.lo.2.1 p.lo.2.2, n.id, p.id)

def keyLt (a b : Nat × Nat × Nat) : Bool :=
  decide (a.1 < b.1) || (decide (a.1 = b.1) && (decide (a.2.1 < b.2.1) || (decide (a.2.1 = b.2.1) && decide (a.2.2 < b.2.2))))

/-- Of two turns after the one that issued last, `a` comes before `b`. -/
def turnBefore (last : Option (Nat × Nat × Nat)) (a b : Nat × Nat × Nat) : Bool :=
  match last with
  | none => keyLt a b
  | some l => if keyLt l a == keyLt l b then keyLt a b else keyLt l a

/-- A parcel in form on the same core that waits at nothing has its turn before this one (R102). -/
def State.formTaken (s : State) (n : Node) (p : Parcel) : Bool :=
  s.nodes.any (fun m => decide (m.leadCore = n.leadCore) && s.parcelRuns m && m.parcels.any (fun q =>
    decide (q.hold = .none) && decide (q.turnKey m ≠ p.turnKey n) &&
    turnBefore (s.core n.leadCore).turn (q.turnKey m) (p.turnKey n)))

/-- The gate of a parcel, which issues on the form pipe of its node's lead core. -/
def State.parcelGate (s : State) (node p : Nat) : Gate :=
  match s.node? node with
  | none => .closed
  | some n =>
    match n.parcel? p with
    | none => .closed
    | some pc =>
      if s.parcelRuns n = false ∨ s.formTaken n pc = true then .closed
      else .go n n.leadCore (.parcel node p) pc.pc

def State.gate (s : State) (who : Issuer) : Gate :=
  match who with
  | .none => .closed
  | .parcel n p => s.parcelGate n p
  | .strand t g k => s.strandGate t g k

/-! ### Traps that are due -/

/-- Raises a trap that strand `k` held, or that its group owed it (R237, R343). It stays due while HANDLER's line is on its
way. -/
def State.raiseDue (s : State) (t : Team) (n : Node) (g k : Nat) (r : TrapRec) (a : Addr) : State :=
  match t.groups[g]? with
  | none => s
  | some gr =>
    match gr.strands[k]? with
    | none => s
    | some st =>
      let lanes := maskOf (fun l => (gr.liveOf st &&& ~~~gr.outsideLanes).getLsbD l && decide (gr.pcOf l = a))
      let s1 := s.takeTrap t n [{ g := g, quads := st.quads, lanes := lanes }] r a (fun st => st.dropTeamWalks t.id)
      let taken := match (s1.team? t.id).bind (fun x => x.groups[g]?) with
        | some x => x.trap.isSome
        | none => false
      if taken then
        s1.modGroup t.id g (fun x =>
          { x with
            deferred := if st.held.isSome then x.deferred else none
            divs := x.divs.map (fun d => { d with parked := d.parked &&& ~~~lanes })
            strands := x.strands.map (fun y => if y.quads = st.quads then { y with held := none } else y) })
      else s1

/-! ### Fetch and decode (R26 to R31, R56, R57) -/

/-- SCOPE of a word, as ecause gives it (Table 3.2, Table 18.1). -/
def rawScope (w : BitVec 96) : TrapScope :=
  match (Decode.field w 85 2).toNat with
  | 0 => .lane
  | 1 => .group
  | 2 => .set
  | _ => .team

/-- A `loop` whose end lies at or before its own address (R91): IllegalOp, which comes before IllegalScope (R56). -/
def loopBack (w : BitVec 96) (a : Addr) : Bool :=
  decide (Decode.field w 87 9 = 0x007#9) && decide ((fmtTarget (Decode.fmtC w) a).toNat ≤ a.toNat)

/-- The issuer is a strand of a group in handler mode. -/
def State.inHandler (s : State) (who : Issuer) : Bool :=
  match who with
  | .strand t g _ => match ((s.team? t).bind (fun x => x.groups[g]?)).bind (fun x => x.trap) with
    | some _ => true
    | none => false
  | _ => false

/-- A `tret` outside handler mode (R353): IllegalOp, which comes before IllegalScope (R56). -/
def strayTret (w : BitVec 96) (handler : Bool) : Bool := decide (Decode.field w 87 9 = 0x152#9) && !handler

/-- The trap kind of a decoding error of the word `w` at `a`, in handler mode or not. -/
def errorKind (e : DecodeError) (w : BitVec 96) (a : Addr) (handler : Bool) : TrapKind :=
  match e with
  | .illegalTarget => .illegalTarget
  | .illegalOp => .illegalOp
  | .illegalScope => if loopBack w a || strayTret w handler then .illegalOp else .illegalScope

/-- The address that eaddr gets from an IllegalTarget of a word's own fields: the branch target, or the join target where
only JSLOT is at fault (R29, R56 step 2). -/
def errorAddr (e : DecodeError) (w : BitVec 96) (a : Addr) : DWord :=
  match e with
  | .illegalTarget =>
    if 5 ≤ (Decode.field w 32 3).toNat then fmtTarget (Decode.fmtC w) a else fmtJoin (Decode.fmtC w) a
  | _ => 0#64

/-- A trap that fetch or decode raises: at a strand it is raised at its group, and a parcel fans out (R57, R110). -/
def State.fetchTrap (s : State) (who : Issuer) (k : TrapKind) (sc : TrapScope) (eaddr : DWord) : State :=
  match who with
  | .none => s
  | .strand t g i => s.decodeTrap t g i k sc eaddr
  | .parcel n p =>
    match s.node? n with
    | none => s
    | some nd => match nd.parcel? p with
      | none => s
      | some pc => s.fanOut nd pc

/-- The issuer waits for its line, and is not ready (R82). -/
def State.awaitLine (s : State) (who : Issuer) : State :=
  match who with
  | .none => s
  | .strand t g i => s.modGroup t g (fun gr =>
      { gr with strands := modNth (fun st => { st with hold := .walk, aged := false, wait := 0 }) i gr.strands })
  | .parcel n p => s.modNode n (fun x => x.modParcel p (fun pc => { pc with hold := .walk }))

/-- The TARGET check of the node's entry falls due at `a`: at the tract's first issue, and after it has failed there at each
group's (R29). A replayed node is not checked again. -/
def State.atEntry (s : State) (who : Issuer) (a : Addr) : Bool :=
  match who with
  | .none => false
  | .parcel n p => match (s.node? n).bind (fun x => x.parcel? p) with
    | some pc => pc.entry
    | none => false
  | .strand t g _ => match ((s.team? t).bind (fun x => x.groups[g]?)).bind (fun x => x.placement) with
    | some p => p.entry && decide (p.pc = a)
    | none => false

/-- The check of the entry fails: the tract fans out there, and each of its groups raises IllegalTarget (R29, R110). -/
def State.entryTrap (s : State) (who : Issuer) (sc : TrapScope) (a : Addr) : State :=
  match who with
  | .parcel n p =>
    match s.node? n with
    | none => s
    | some nd => match nd.parcel? p with
      | none => s
      | some pc => s.fanOut nd pc true
  | _ => s.fetchTrap who .illegalTarget sc a

/-- The issuer takes its turn: it is its slot's current strand (R82), or the parcel that issued last (R102). -/
def State.takeTurn (s : State) (who : Issuer) (core : Nat) : State :=
  match who with
  | .none => s
  | .strand t g k =>
    match ((s.team? t).bind (fun x => x.groups[g]?)).bind (fun x => x.strands[k]?) with
    | some st => s.modCore core (fun c => { c with greedy := Tbl.put c.greedy (g % 4) (t, g, st.quads) })
    | none => s
  | .parcel n p =>
    match s.node? n with
    | none => s
    | some nd => match nd.parcel? p with
      | some pc => s.modCore core (fun c => { c with turn := some (pc.turnKey nd) })
      | none => s

/-- What an issuer's turn comes to. -/
inductive TurnRes where
  /-- it waits, or has taken a trap of fetch or decode, or had nothing to do -/
  | done (s : State)
  /-- it issues an instruction, in the state given -/
  | run (i : Instr) (s : State)
  deriving DecidableEq, Repr

/-- The turn of an issuer at the line fetched for it. -/
def State.decodeTurn (s : State) (who : Issuer) (core : Nat) (a : Addr) (line : BitVec 512) : TurnRes :=
  let w := lineSlot line (slotOf a)
  if 5 ≤ slotOf a then .done (s.fetchTrap who .illegalTarget .lane a)
  else if lineReservedOk line = false then .done (s.fetchTrap who .illegalLine (rawScope w) 0)
  else if s.atEntry who a = true ∧ lineTarget line (slotOf a) = false then
    .done (s.entryTrap who (rawScope w) a)
  else match decode w with
    | .ok i => .run i { s.takeTurn who core with cur := who }
    | .error e => .done (s.fetchTrap who (errorKind e w a (s.inHandler who)) (rawScope w) (errorAddr e w a))

/-- The turn of an issuer. -/
def State.issueTurn (s : State) (who : Issuer) : TurnRes :=
  match s.gate who with
  | .closed => .done s
  | .due t n g k r a => .done (s.raiseDue t n g k r a)
  | .go n core rq a =>
    match s.fetchLine n core rq a with
    | .wait s1 => .done (s1.awaitLine who)
    | .consumed s1 => .done s1
    | .trap k => .done (s.fetchTrap who k .lane a)
    | .line l s1 => s1.decodeTurn who core a l

/-- The two issues of an issuer's next instruction differ: if it is issued twice, nothing is written, no flag is set, and its node
consumes a SilentData error (R102, R110, R178). -/
def State.mismatch (s : State) (who : Issuer) : State :=
  match s.gate who with
  | .go n core rq a =>
    match s.fetchLine n core rq a with
    | .line l s1 =>
      if 5 ≤ slotOf a then s
      else
        let w := lineSlot l (slotOf a)
        let form := match who with
          | .parcel .. => true
          | _ => false
        if (decode w).toOption.isSome && n.issuesTwice form w then s1.consume n.id .silentData else s
    | _ => s
  | _ => s

/-! ### Events -/

/-- The events that a package takes in a reset, halted and in standby too: its resets, and what reaches the Basder port, its functions'
configuration and its SPDM endpoints, which answer for themselves (R396, R397). -/
def wakes : Instr → Bool
  | .powerOn | .warmReset | .pcieConventionalReset | .standbyEntry _ | .standbyPowerLoss | .readErrorLog _
  | .readTelemetry | .setPackageId _ | .pcieConfigurationRequest _ | .getVersion _ | .getCapabilities _ | .negotiateAlgorithms ..
  | .getDigests _ | .getCertificate .. | .challenge .. | .getMeasurements .. | .keyExchange .. | .finish .. | .endSession _ => true
  | _ => false

/-- The events of a link, which trains in steps 5 and 6 of a reset. -/
def linkEvent : Instr → Bool
  | .linkRetry _ | .laneFailover _ | .linkRekey _ | .pathLost .. => true
  | _ => false

/-- The package takes an event in the state it is in. -/
def State.takes (s : State) (i : Instr) : Bool :=
  s.up || wakes i || (linkEvent i && s.resetting && decide (4 ≤ s.rstage.toNat))

/-- The turn of an event: an encoded instruction is none. -/
def State.eventTurn (s : State) (i : Instr) : TurnRes :=
  if i.scopeOf.isSome = true ∨ s.takes i = false then .done s else .run i s

/-- The operations of the Basder port that act as an event does which others raise too (R396): a world halted or resumed, an authority
command, a reset. Standby is asked for by its own event. -/
def basderOp : Instr → Bool
  | .worldHalt _ | .worldResume _ | .installGate _ | .closeGate _ | .revokeKey _ | .warmReset => true
  | _ => false

/-- The turn of an operation asked for at the Basder port: in a session, and in standby a reset only (log entry 56). -/
def State.basderTurn (s : State) (i : Instr) : TurnRes :=
  if basderOp i = false ∨ s.pstate = .off then .done s
  else if s.basderOpen = true ∧ s.takes i = true then .run i s
  else .done s.refuse

/-- The turn of one entry of the schedule. -/
def State.turn (s : State) : Turn → TurnRes
  | .issue who => s.issueTurn who
  | .event i => s.eventTurn i
  | .dropTlb die world vpage =>
    .done { s with tlb := s.tlb.filter (fun e => !(decide (e.die = die) && decide (e.world = world) && decide (e.vpage = vpage))) }
  | .dropL1 core sector => .done (s.modCore core (fun c => { c with l1 := Tbl.del c.l1 sector }))
  | .evict line => .done (if (Tbl.get Line.reset s.lines line).pinned then s else s.evictLine (128 * line))
  | .upset (.mismatch who) => .done (s.mismatch who)
  | .upset u => .done (s.upset u)
  | .hostRead fn off width => .done (s.hostRead fn off width)
  | .hostWrite fn off width v => .done (s.hostWrite fn off width v)
  | .peerKeys link => .done (s.keyPeer link)
  | .basder i => s.basderTurn i
  | .resetStep => .done s.resetStep
  | .outsideWrite comp a bs => .done (s.outsideWrite comp a bs)
  | .outsideRead comp a n => .done (s.outsideRead comp a n)
  | .hostStore h bs => .done (s.hostStore h bs)

/-! ### The agents that may move next -/

/-- A turn for each strand and parcel. -/
def State.issuers (s : State) : List Turn :=
  s.teams.flatMap (fun t => (indexed t.groups).flatMap (fun g =>
    (List.range g.2.strands.length).map (fun k => Turn.issue (.strand t.id g.1 k)))) ++
  s.nodes.flatMap (fun n => n.parcels.map (fun p => Turn.issue (.parcel n.id p.id)))

/-- Events of the cores and of memory. -/
def State.coreEvents (s : State) : List Instr :=
  s.reqs.flatMap (fun r => match r.place with
    | .peer _ => [Instr.peerAccessRelay r.id]
    | _ => [Instr.memoryRequest r.id]) ++
  s.fills.map (fun f => Instr.registerFill f.id) ++
  s.walks.map (fun w => Instr.translationWalk w.id) ++
  s.flows.map (fun f => Instr.flowCompletion f.id) ++
  s.sends.flatMap (fun x => [Instr.creditRequest x.id, Instr.creditGrant x.id, Instr.messageArrival x.id]) ++
  s.shoots.map (fun d => Instr.shootdownComplete d.id) ++
  s.cores.flatMap (fun e =>
    e.2.matq.flatMap (fun o =>
      [Instr.matrixOpStart e.1 o.id, Instr.operandsConsumed e.1 o.id, Instr.matrixOpCompletion e.1 o.id false]) ++
    e.2.icache.map (fun l => Instr.icacheRefetch e.1 l.1))

/-- Events of the teams. -/
def State.teamEvents (s : State) : List Instr :=
  s.teams.flatMap (fun t =>
    [Instr.scopeMismatchDetect t.id, Instr.teamPreemptStart t.id, Instr.teamStateSave t.id, Instr.bankWaitDeadlock t.core,
      Instr.broadcastDelivery t.node t.id] ++
    t.claims.map (fun c => Instr.claimWalkEnd t.id c.1) ++
    (indexed t.groups).flatMap (fun g => (List.range g.2.strands.length).map (fun k => Instr.strandAging t.id g.1 k)) ++
    (if t.phase = .toPlace then (List.range Config.cores).map (Instr.teamPlacement t.id)
     else if t.phase = .saved then (List.range Config.cores).map (Instr.teamRestart t.id) else []))

/-- Events of the scheduler and of the security engine. -/
def State.schedulerEvents (s : State) : List Instr :=
  s.nodes.flatMap (fun n =>
    [Instr.readyPoolAdmit n.part n.id, Instr.priorityAging n.part n.id, Instr.dispatchWalkEnd n.id, Instr.nodeCommit n.id,
      Instr.nodeEndByTrap n.id, Instr.nodeReplay n.id]) ++
  s.launches.flatMap (fun l => [Instr.launchEnd l.id, Instr.launchReplay l.id]) ++
  s.parts.flatMap (fun p =>
    [Instr.queueSlotRotation p.1, Instr.spillReturn p.1] ++
    (if p.2.nodes = [] then [] else (List.range Config.cores).map (Instr.nodeDispatch p.1)) ++
    s.worlds.map (fun w => Instr.timeSliceEnd p.1 w.1)) ++
  s.worlds.flatMap (fun w =>
    w.2.queues.map (fun q => Instr.launchAccept w.1 q.1) ++
    (if w.2.sweeping.isSome then [Instr.waymaskSweepComplete w.1] else []) ++
    (if w.2.flr then [Instr.flrDrainEnd w.1] else [])) ++
  s.secJobs.flatMap (fun j => match j with
    | .revoke c _ _ => [Instr.revocationDrainEnd c]
    | .reset _ | .close _ => [])

/-- What the caches may drop (R230, R244, R247). -/
def State.drops (s : State) : List Turn :=
  s.tlb.map (fun e => Turn.dropTlb e.die e.world e.vpage) ++
  s.cores.flatMap (fun e => e.2.l1.map (fun x => Turn.dropL1 e.1 x.1)) ++
  s.lines.flatMap (fun l => if l.2.tag.isSome then [Turn.evict l.1] else [])

/-- Everything that may happen next of the package's own accord. -/
def State.candidates (s : State) : List Turn :=
  (if s.resetting then [Turn.resetStep] else []) ++ s.issuers ++ (s.coreEvents ++ s.teamEvents ++ s.schedulerEvents).map Turn.event ++ s.drops

/-- The next turn: the head of the schedule, or with an empty schedule the arbiter's choice; none when nothing can move. -/
def State.nextTurn (s : State) : Option Turn × State :=
  match s.schedule with
  | t :: rest => (some t, { s with schedule := rest })
  | [] => (s.candidates[Config.arbiter s.fresh % s.candidates.length]?, s)

/-- One step before the instruction runs. -/
def State.begin_ (s : State) : TurnRes :=
  match s.tick.settled.nextTurn with
  | (none, s1) => .done s1
  | (some t, s1) => s1.turn t

/-- After the instruction no issuer is named. -/
def settleOut : Out → Out
  | .next s => .next { s with cur := .none }
  | o => o

/-! ### Placing a word where the next step fetches (the host's probe) -/

/-- A line with the word `w` in slot `k`, that slot a target, and the parity it must carry (R26, R28). -/
def placeWord (line : BitVec 512) (k : Nat) (w : BitVec 96) : BitVec 512 :=
  let slots := (List.range 5).map (fun j => if j = k then w else lineSlot line j)
  let l := packLine ((line.extractLsb' 0 9).setWidth 32 ||| (1#32 <<< k)) slots
  l ||| ((lineParity l).setWidth 512 <<< 24)

/-- Puts a word at an instruction address of a node in a core's instruction cache. -/
def State.putWord (s : State) (n : Node) (core : Nat) (a : Addr) (w : BitVec 96) : State :=
  s.modCore core (fun c =>
    let old := match Tbl.find? c.icache (lineKey n a) with
      | some l => l.line
      | none => 0#512
    { c with icache := Tbl.put c.icache (lineKey n a) { line := placeWord old (slotOf a) w, bad := false, node := n.id, who := .dispatch n.id 0 } })

/-- The node that a word is tried in when the state has none that fetches next: one team of 128 lanes, at slot 0 of the
line at 0x10000, with 512 registers and every bank. -/
def bootNode (id : Nat) : Node :=
  { id := id, handle := 1, part := 0, world := 0, launch := 0, graph := 0, state := .running,
    desc :=
      { entry := 0x10000, handler := 0, tx := 128, ty := 1, tz := 1, cx := 1, cy := 1, regs := 512, scratch := 65536,
        banks := 16, prio := 0, comp := 0, checked := false, cores := false, bcast := false,
        sets := List.replicate 8 0xF#32, operands := [] }
    ent := { desc := 0, param := 0, mwin := 0, nx := 128, ny := 1, nz := 1, plen := 0, preds := [] }
    params := [], preds := [], prio := 0, effPrio := 0, readyAt := 0, passed := 0, device := false, parent := none,
    spilled := false, dispatched := true, walking := false, cancelling := false, claims := [], extents := [],
    noExtents := false, parcels := [], clusters := [(0, { lead := 0, bases := [] })], cbars := [],
    replays := 0, replayed := false, firmware := false, escaped := false, noReplay := false, ending := none, consumed := none, badLine := none, trapKind := 0,
    eaddr := 0, shadow := [], shadowPages := [] }

/-- The tract of that node as one team's box. -/
def bootParcel : Parcel :=
  { id := 0, pc := 0x10000, lo := (0, 0, 0), hi := (1, 1, 1), form := [], preds := [], loops := [], exits := [], flags := 0,
    hold := .none, entry := false }

/-- Its team, placed, with the strands of groups 1 to 3 already at the instruction, so that one of any scope can issue. -/
def bootTeam (n : Node) (id : Nat) : Team :=
  let t := bootParcel.makeTeam n id (0, 0, 0)
  { t with
    phase := .placed
    joined := true
    groups := (indexed t.groups).map (fun e =>
      if e.1 = 0 then e.2 else { e.2 with strands := e.2.strands.map (fun st => { st with arrived := some 0x10000, ascope := .team }) }) }

/-- Loads the probe's node and team, and gives the next turn to strand 0 of its group 0. -/
def State.boot (s : State) (w : BitVec 96) : State :=
  let n := bootNode s.nextId
  let t := bootTeam n (s.nextId + 1)
  let s1 := (s.modWorld 0 (fun x => { x with running := true, flr := false })).modPart 0 (fun p =>
    { p with nodes := p.nodes ++ [n], running := some 0 })
  ({ s1 with
      nextId := s.nextId + 2
      teams := s.teams ++ [t]
      halted := false
      rstage := 7
      pstate := .run
      hotDie := none
      schedule := .issue (.strand (s.nextId + 1) 0 0) :: s.schedule } : State).putWord n 0 0x10000 w

/-- The instruction word that the table numbers give: its first word is the low 32 bits, so the word is the number itself. -/
def tableWord (nbits w : Nat) : BitVec 96 := BitVec.ofNat 96 (w % 2 ^ nbits)

/-- The issuer whose turn stands at the head of the schedule, with the place it fetches from. -/
def State.headFetch (s : State) : Option (Node × Nat × Addr) :=
  match s.schedule with
  | .issue who :: _ =>
    match s.gate who with
    | .go n core _ a => if slotOf a < 5 then some (n, core, a) else none
    | _ => none
  | _ => none

/-- `withFetchWord` before its name: the word at the place from which the next step fetches. -/
def State.placeFetch (s : State) (nbits w : Nat) : State :=
  match s.headFetch with
  | some (n, core, a) => s.putWord n core a (tableWord nbits w)
  | none => s.boot (tableWord nbits w)

end Sys2Proof.Machine
end

