-- ==== Sys2Proof/Machine/Step.lean ====
section
/-! DEFINITION. One step of the package: one agent of it moves. -/

namespace Sys2Proof.Machine

open Sys2Proof

/-- One step: time goes on, and the agent whose turn it is moves. A strand or parcel that fetches and decodes an instruction
executes it. -/
def step (s : State) : Host.Outcome State Fault Refusal :=
  match s.begin_ with
  | .done s1 => .next s1
  | .run i s1 => settleOut (exec i s1)

/-- The state with an instruction word stored where `step` fetches its next instruction: in the line that the issuer at the
head of the schedule fetches next, or in a node loaded for it, which then has the next turn (log entry 25). -/
def State.withFetchWord (s : State) (nbits w : Nat) : State := s.placeFetch nbits w

end Sys2Proof.Machine
end

