-- ==== Sys2Proof/Safety.lean ====
section
/-! DEFINITION. The terms in which claims are stated: runs and what counts as a safe one; when an instruction issues; and a
state without what an instruction's going on in sequence may change, in which frames are stated. -/

namespace Sys2Proof.Safety

open Sys2Proof Sys2Proof.Machine

/-- `t` is reached from `s` by steps of the machine. -/
inductive Reach (s : State) : State → Prop where
  | here : Reach s s
  | more {t u : State} : Reach s t → step t = .next u → Reach s u

/-- A state from which the machine never stops: each state it reaches answers a next state. -/
def Safe (s : State) : Prop := ∀ t, Reach s t → ∃ u, step t = .next u

/-- A property that each step keeps. -/
def Invariant (P : State → Prop) : Prop := ∀ s t, P s → step s = .next t → P t

/-- The tables of a state in their canonical form: memory lists no zero byte, and keys strictly rise in memory, in the lines, and
in the records of partitions, worlds, compartments and cores. Each step keeps it. -/
structure Tables (s : State) : Prop where
  mem : Memory.wf s.mem = true
  lines : Tbl.sorted s.lines = true
  parts : Tbl.sorted s.parts = true
  worlds : Tbl.sorted s.worlds = true
  comps : Tbl.sorted s.comps = true
  cores : Tbl.sorted s.cores = true

end Sys2Proof.Safety

namespace Sys2Proof.Machine

open Sys2Proof

/-! ### Frames -/

/-- A group without its control: where its lanes stand, its strands, records and loops, its resume point, and what the save
engine keeps with that. Its registers, flags, predicates and trap registers stay. -/
def Group.still (g : Group) : Group :=
  { g with
    pc := [], strands := [], divs := [], loops := [], resume := [], kept := [], returned := 0#32, placement := none,
    log := [], replay := [], consumed := [], passEnd := none }

/-- A team without its groups' control. -/
def Team.still (t : Team) : Team := { t with groups := t.groups.map Group.still }

/-- A core without the marks of side-log entries that lie before a resume point (R238). -/
def Core.still (c : Core) : Core := { c with sidelog := c.sidelog.map (fun e => { e with passed := 0#32 }) }

/-- A state without the control of the groups of team `t`. Everything else stands as it is: all memory, every other team,
every register of the team. -/
def State.still (s : State) (t : Nat) : State :=
  { s with
    teams := s.teams.map (fun x => if x.id = t then x.still else x)
    cores := s.cores.map (fun e => (e.1, e.2.still)) }

/-- The state but for its cores and for what tells which stores they see (R258). -/
def State.plain (s : State) : State :=
  { s with
    late := [], heads := [], fences := [], rels := [], reads := [], cores := [] }

/-- Instruction `i` completes: it answers a next state, which is `e` but for the control of the groups of team `t`; each
byte of memory reads as it does in `e`. -/
def Completes (i : Instr) (s : State) (t : Nat) (e : State) : Prop :=
  ∃ s', exec i s = .next s' ∧ s'.still t = e.still t ∧ ∀ a, s'.byte a = e.byte a

/-! ### Issue -/

/-- The strand that `State.cur` names issues an instruction with the common fields `c`: the package is up, the strand stands
at an instruction as `d` says (R73), its scope is one the team and the handler allow (R33, R77, R343, R344), its guard is
defined (R105), and the members of its scope have met as `x` says, in the state `s1` with the arrival noted (R76, R79);
some member has an active lane. `fuse` is true of the instructions that meet at group scope though lane scope is encoded
(`loop`, `region`). -/
structure Issues (s : State) (c : Common) (fuse : Bool) (d : Stand) (x : Ctx) (s1 : State) : Prop where
  up : s.halted = false
  stands : ∃ t g k, s.cur = .strand t g k ∧ s.stand c t g k = some d ∧ badScope d.node d.team d.gr c.scope g = false ∧
    d.gr.guardUndef c d.at_ = false ∧
    (if fuse = false ∧ c.scope = .lane then x = d.own c g ∧ s1 = s else s.meet c t g k d = (some x, s1))
  active : ∃ m ∈ x.members, m.act ≠ 0#32

/-- A vector instruction `o` of a context reads and writes what it may: its fields are legal (R49), no source is undefined
(R101, R105), no index is out of range (R39), no source or destination register blocks it (R18, R118, R119), a form
destination is one that R106 allows, its sends have their credits (R126, R310), and its latch slot is not being read
(R125). -/
structure VReady (o : VOp) (d : Stand) (x : Ctx) (s : State) : Prop where
  fields : o.static d.node = none
  defined : o.undef d.team d.gr d.act = false
  index : o.regIndex x = false
  read : o.emptyRead x = false
  form : o.formWrite x s = false
  bound : o.sends.any (fun q => (Tbl.find? x.team.sendq q.1).isNone) = false
  full : o.blocked x = false ∧ o.dstEmpty x = false
  latch : o.c.l = true → s.latchBusy x o.lslot = false
  credit : o.sends.all (fun q => s.credited x q.1 q.2) = true ∧ (o.sends ≠ [] → x.quiet s = true)

end Sys2Proof.Machine
end

