-- ==== Sys2Proof/Certificates/Slice0/VectorClaims.lean ====
section
/-! DEFINITION. The vector instructions as the rules of spec/09_arithmetic.md, spec/07_registers.md and spec/05_issue.md give
them, apart from the model's own meanings: for each instruction its operands and the value of each active lane. The
statements say that the machine delivers these values. -/

namespace Sys2Proof.Claims

open Sys2Proof Sys2Proof.Machine

/-- The value and the flags of a lane, from the values of the operands. -/
abbrev LaneFn := LaneEnv → List Nat → Nat × FlagSet

/-! ### Integers (R143, R159 to R164) -/

/-- The integer that a register's pattern stands for at a type: signed for i types, unsigned for n types. -/
def asInt (ty : ElemTy) (v : Nat) : Int :=
  if tySigned ty then (BitVec.ofNat (tyBits ty) v).toInt else ((BitVec.ofNat (tyBits ty) v).toNat : Int)

/-- The bounds of an integer type (Table 8.5). -/
def lowest (ty : ElemTy) : Int := if tySigned ty then -(2 ^ (tyBits ty - 1)) else 0
def highest (ty : ElemTy) : Int := if tySigned ty then 2 ^ (tyBits ty - 1) - 1 else 2 ^ tyBits ty - 1

/-- A result reduced to the width of its type, or clamped to its range with SAT (R159). -/
def reduced (ty : ElemTy) (sat : Bool) (t : Int) : Nat :=
  (BitVec.ofInt (tyBits ty) (if sat then max (lowest ty) (min (highest ty) t) else t)).toNat

def ints1 (ty : ElemTy) (sat : Bool) (g : Int → Int) : LaneFn
  | _, [a] => (reduced ty sat (g (asInt ty a)), 0)
  | _, _ => (0, 0)
def ints2 (ty : ElemTy) (sat : Bool) (g : Int → Int → Int) : LaneFn
  | _, [a, b] => (reduced ty sat (g (asInt ty a) (asInt ty b)), 0)
  | _, _ => (0, 0)
def ints3 (ty : ElemTy) (sat : Bool) (g : Int → Int → Int → Int) : LaneFn
  | _, [a, b, c] => (reduced ty sat (g (asInt ty a) (asInt ty b) (asInt ty c)), 0)
  | _, _ => (0, 0)

/-- Operations on the w bits of A; a shift amount or control word is 32 bits. -/
def bits1 (ty : ElemTy) (g : BitVec (tyBits ty) → BitVec (tyBits ty)) : LaneFn
  | _, [a] => ((g (BitVec.ofNat _ a)).toNat, 0)
  | _, _ => (0, 0)
def bits2 (ty : ElemTy) (g : BitVec (tyBits ty) → BitVec (tyBits ty) → BitVec (tyBits ty)) : LaneFn
  | _, [a, b] => ((g (BitVec.ofNat _ a) (BitVec.ofNat _ b)).toNat, 0)
  | _, _ => (0, 0)
def bitsN (ty : ElemTy) (g : BitVec (tyBits ty) → BitVec 32 → BitVec (tyBits ty)) : LaneFn
  | _, [a, b] => ((g (BitVec.ofNat _ a) (BitVec.ofNat 32 b)).toNat, 0)
  | _, _ => (0, 0)
def bitsNC (ty : ElemTy) (g : BitVec (tyBits ty) → BitVec 32 → BitVec (tyBits ty) → BitVec (tyBits ty)) : LaneFn
  | _, [a, b, c] => ((g (BitVec.ofNat _ a) (BitVec.ofNat 32 b) (BitVec.ofNat _ c)).toNat, 0)
  | _, _ => (0, 0)
def bitsBN (ty : ElemTy) (g : BitVec (tyBits ty) → BitVec (tyBits ty) → BitVec 32 → BitVec (tyBits ty)) : LaneFn
  | _, [a, b, c] => ((g (BitVec.ofNat _ a) (BitVec.ofNat _ b) (BitVec.ofNat 32 c)).toNat, 0)
  | _, _ => (0, 0)

/-- The word whose bit i, for i below w, is `p i`. -/
def word (w : Nat) (p : Nat → Bool) : BitVec w := BitVec.ofNat w ((List.range w).foldl (fun n i => n + if p i then 2 ^ i else 0) 0)

/-- shl, shr, sar and rot by n (R161). -/
def shlBits {w : Nat} (a : BitVec w) (n : BitVec 32) : BitVec w := a <<< n.toNat
def shrBits {w : Nat} (a : BitVec w) (n : BitVec 32) : BitVec w := a >>> n.toNat
def sarBits {w : Nat} (a : BitVec w) (n : BitVec 32) : BitVec w := a.sshiftRight n.toNat
def rotBits {w : Nat} (a : BitVec w) (n : BitVec 32) : BitVec w := word w (fun i => a.getLsbD ((i + (w - n.toNat % w)) % w))

/-- clz, popc and brev (R162). -/
def clzBits {w : Nat} (a : BitVec w) : BitVec w :=
  BitVec.ofNat w ((List.range w).takeWhile (fun i => !a.getLsbD (w - 1 - i))).length
def popcBits {w : Nat} (a : BitVec w) : BitVec w := BitVec.ofNat w ((List.range w).countP (fun i => a.getLsbD i))
def brevBits {w : Nat} (a : BitVec w) : BitVec w := word w (fun i => a.getLsbD (w - 1 - i))

/-- pos and len of a control word (R162). -/
def posOf (b : BitVec 32) : Nat := (b.extractLsb' 0 8).toNat
def lenOf (w : Nat) (b : BitVec 32) : Nat := min (b.extractLsb' 8 8).toNat w

/-- bfx: bits pos to pos + len − 1 of a, a bit at or above w being 0 for n types and bit w − 1 for i types, extended from
bit len − 1 for i types and with zeros for n types (R162). -/
def bfxBits (signed : Bool) {w : Nat} (a : BitVec w) (b : BitVec 32) : BitVec w :=
  let bit (i : Nat) : Bool := if posOf b + i < w then a.getLsbD (posOf b + i) else signed && a.getLsbD (w - 1)
  if lenOf w b = 0 then 0
  else word w (fun i => if i < lenOf w b then bit i else signed && bit (lenOf w b - 1))

/-- bfi: c with bit pos + i replaced by bit i of a, for i < len and pos + i < w (R162). -/
def bfiBits {w : Nat} (a : BitVec w) (b : BitVec 32) (c : BitVec w) : BitVec w :=
  word w (fun j => if posOf b ≤ j ∧ j < posOf b + lenOf w b then a.getLsbD (j - posOf b) else c.getLsbD j)

/-- lea: a + (b << n), the shift giving 0 for n ≥ w (R163). -/
def leaBits {w : Nat} (a b : BitVec w) (n : BitVec 32) : BitVec w := a + b <<< n.toNat

/-- div and rem (Table 9.2). -/
def divide (ty : ElemTy) (rem : Bool) : LaneFn
  | _, [a, b] =>
    let x := asInt ty a
    let y := asInt ty b
    let q : Int := if (0 ≤ x ↔ 0 ≤ y) then (x.natAbs / y.natAbs : Nat) else -(x.natAbs / y.natAbs : Nat)
    if y = 0 then ((BitVec.ofInt (tyBits ty) (if rem then x else -1)).toNat, fDIVZERO)
    else ((BitVec.ofInt (tyBits ty) (if rem then x - y * q else q)).toNat, 0)
  | _, _ => (0, 0)

/-! ### Operands of the integer instructions -/

/-- The affine rule of a form result: for 32-bit integer types without SAT (Table 6.2). -/
def keeps (ty : ElemTy) (sat : Bool) (r : AffRule) : AffRule :=
  if (ty = .i32 ∨ ty = .n32) ∧ sat = false then r else .none

def useA (c : Common) (f : FmtV) (r : AffRule) (fn : LaneFn) : VOp :=
  vop c f (tyWords f.ty) [srcA f (tyWords f.ty) f.ty] (keeps f.ty f.sat r) fn
def useAB (c : Common) (f : FmtV) (r : AffRule) (fn : LaneFn) : VOp :=
  vop c f (tyWords f.ty) [srcA f (tyWords f.ty) f.ty, srcB f (tyWords f.ty) f.ty] (keeps f.ty f.sat r) fn
def useAN (c : Common) (f : FmtV) (r : AffRule) (fn : LaneFn) : VOp :=
  vop c f (tyWords f.ty) [srcA f (tyWords f.ty) f.ty, srcB f 1 .n32] (keeps f.ty f.sat r) fn
def useABC (c : Common) (f : FmtV) (r : AffRule) (fn : LaneFn) : VOp :=
  vop c f (tyWords f.ty) [srcA f (tyWords f.ty) f.ty, srcB f (tyWords f.ty) f.ty, srcC f (tyWords f.ty) f.ty] (keeps f.ty f.sat r) fn
def useANC (c : Common) (f : FmtV) (fn : LaneFn) : VOp :=
  vop c f (tyWords f.ty) [srcA f (tyWords f.ty) f.ty, srcB f 1 .n32, srcC f (tyWords f.ty) f.ty] .none fn
def useABN (c : Common) (f : FmtV) (r : AffRule) (fn : LaneFn) : VOp :=
  vop c f (tyWords f.ty) [srcA f (tyWords f.ty) f.ty, srcB f (tyWords f.ty) f.ty, srcC f 1 .n32] (keeps f.ty f.sat r) fn

/-- The immediate forms (R41): B is IMM at the type, or IMM as n32; C is the old destination. A one-operand instruction
takes IMM as its operand. -/
def immA (c : Common) (f : FmtI) (r : AffRule) (fn : LaneFn) : VOp :=
  iop c f (tyWords f.ty) [srcImm f f.ty] (keeps f.ty f.sat r) fn
def immAB (c : Common) (f : FmtI) (r : AffRule) (fn : LaneFn) : VOp :=
  iop c f (tyWords f.ty) [srcIA f (tyWords f.ty) f.ty, srcImm f f.ty] (keeps f.ty f.sat r) fn
def immAN (c : Common) (f : FmtI) (r : AffRule) (fn : LaneFn) : VOp :=
  iop c f (tyWords f.ty) [srcIA f (tyWords f.ty) f.ty, srcImm f .n32] (keeps f.ty f.sat r) fn
def immABC (c : Common) (f : FmtI) (r : AffRule) (fn : LaneFn) : VOp :=
  iop c f (tyWords f.ty) [srcIA f (tyWords f.ty) f.ty, srcImm f f.ty, srcOld f (tyWords f.ty) f.ty] (keeps f.ty f.sat r) fn
def immANC (c : Common) (f : FmtI) (fn : LaneFn) : VOp :=
  iop c f (tyWords f.ty) [srcIA f (tyWords f.ty) f.ty, srcImm f .n32, srcOld f (tyWords f.ty) f.ty] .none fn
def immABN (c : Common) (f : FmtI) (r : AffRule) (fn : LaneFn) : VOp :=
  iop c f (tyWords f.ty) [srcIA f (tyWords f.ty) f.ty, srcImm f f.ty, srcOld f 1 .n32] (keeps f.ty f.sat r) fn

/-- floor(a · b / 2^w). -/
def highProduct (ty : ElemTy) (a b : Int) : Int := a * b / 2 ^ tyBits ty

/-- R159 and R160: exact integer arithmetic reduced to the type. -/
def intOp : Instr → Option VOp
  | .add c f => some (useAB c f .add (ints2 f.ty f.sat (fun a b => a + b)))
  | .sub c f => some (useAB c f .sub (ints2 f.ty f.sat (fun a b => a - b)))
  | .mul c f => some (useAB c f .mul (ints2 f.ty f.sat (fun a b => a * b)))
  | .mulhi c f => some (useAB c f .none (ints2 f.ty false (highProduct f.ty)))
  | .mad c f => some (useABC c f .mad (ints3 f.ty f.sat (fun a b x => a * b + x)))
  | .madhi c f => some (useABC c f .none (ints3 f.ty false (fun a b x => highProduct f.ty a b + x)))
  | .min c f => some (useAB c f .none (ints2 f.ty false (fun a b => if b < a then b else a)))
  | .max c f => some (useAB c f .none (ints2 f.ty false (fun a b => if a < b then b else a)))
  | .abs c f => some (useA c f .none (ints1 f.ty f.sat (fun a => if a < 0 then -a else a)))
  | .neg c f => some (useA c f .neg (ints1 f.ty f.sat (fun a => -a)))
  | _ => none

/-- R161 to R163: operations on the bits of A. -/
def bitOp : Instr → Option VOp
  | .and c f => some (useAB c f .none (bits2 f.ty (fun a b => a &&& b)))
  | .or c f => some (useAB c f .none (bits2 f.ty (fun a b => a ||| b)))
  | .xor c f => some (useAB c f .none (bits2 f.ty (fun a b => a ^^^ b)))
  | .not c f => some (useA c f .none (bits1 f.ty (fun a => ~~~a)))
  | .shl c f => some (useAN c f .shl (bitsN f.ty shlBits))
  | .shr c f => some (useAN c f .none (bitsN f.ty shrBits))
  | .sar c f => some (useAN c f .none (bitsN f.ty sarBits))
  | .rot c f => some (useAN c f .none (bitsN f.ty rotBits))
  | .clz c f => some (useA c f .none (bits1 f.ty clzBits))
  | .popc c f => some (useA c f .none (bits1 f.ty popcBits))
  | .brev c f => some (useA c f .none (bits1 f.ty brevBits))
  | .bfx c f => some (useAN c f .none (bitsN f.ty (bfxBits (tySigned f.ty))))
  | .bfi c f => some (useANC c f (bitsNC f.ty bfiBits))
  | .lea c f => some (useABN c f .lea (bitsBN f.ty leaBits))
  | _ => none

/-- The immediate forms of Table 3.16 (R41). -/
def immOp : Instr → Option VOp
  | .addImm c f => some (immAB c f .add (ints2 f.ty f.sat (fun a b => a + b)))
  | .subImm c f => some (immAB c f .sub (ints2 f.ty f.sat (fun a b => a - b)))
  | .mulImm c f => some (immAB c f .mul (ints2 f.ty f.sat (fun a b => a * b)))
  | .mulhiImm c f => some (immAB c f .none (ints2 f.ty false (highProduct f.ty)))
  | .madImm c f => some (immABC c f .mad (ints3 f.ty f.sat (fun a b x => a * b + x)))
  | .madhiImm c f => some (immABC c f .none (ints3 f.ty false (fun a b x => highProduct f.ty a b + x)))
  | .minImm c f => some (immAB c f .none (ints2 f.ty false (fun a b => if b < a then b else a)))
  | .maxImm c f => some (immAB c f .none (ints2 f.ty false (fun a b => if a < b then b else a)))
  | .absImm c f => some (immA c f .none (ints1 f.ty f.sat (fun a => if a < 0 then -a else a)))
  | .negImm c f => some (immA c f .neg (ints1 f.ty f.sat (fun a => -a)))
  | .andImm c f => some (immAB c f .none (bits2 f.ty (fun a b => a &&& b)))
  | .orImm c f => some (immAB c f .none (bits2 f.ty (fun a b => a ||| b)))
  | .xorImm c f => some (immAB c f .none (bits2 f.ty (fun a b => a ^^^ b)))
  | .notImm c f => some (immA c f .none (bits1 f.ty (fun a => ~~~a)))
  | .shlImm c f => some (immAN c f .shl (bitsN f.ty shlBits))
  | .shrImm c f => some (immAN c f .none (bitsN f.ty shrBits))
  | .sarImm c f => some (immAN c f .none (bitsN f.ty sarBits))
  | .rotImm c f => some (immAN c f .none (bitsN f.ty rotBits))
  | .clzImm c f => some (immA c f .none (bits1 f.ty clzBits))
  | .popcImm c f => some (immA c f .none (bits1 f.ty popcBits))
  | .brevImm c f => some (immA c f .none (bits1 f.ty brevBits))
  | .bfxImm c f => some (immAN c f .none (bitsN f.ty (bfxBits (tySigned f.ty))))
  | .bfiImm c f => some (immANC c f (bitsNC f.ty bfiBits))
  | .leaImm c f => some (immABN c f .lea (bitsBN f.ty leaBits))
  | _ => none

/-- R164: division, a long-latency producer. -/
def divOp : Instr → Option VOp
  | .div c f => some { useAB c f .none (divide f.ty false) with long := true }
  | .rem c f => some { useAB c f .none (divide f.ty true) with long := true }
  | _ => none

/-! ### Floats (R165 to R176) -/

/-- Element 0 of a register as a value of the format (R155, R144). -/
def elem0 (f : FloatFmt) (v : Nat) : FVal := f.decode (v % 2 ^ (1 + f.ebits + f.mbits))

/-- An operation on one, two or three elements of the format of the type. -/
def elems1 (ty : ElemTy) (g : FloatFmt → FVal → Nat × FlagSet) : LaneFn
  | _, [a] => g (fmtOf ty) (elem0 (fmtOf ty) a)
  | _, _ => (0, 0)
def elems2 (ty : ElemTy) (g : FloatFmt → FVal → FVal → Nat × FlagSet) : LaneFn
  | _, [a, b] => g (fmtOf ty) (elem0 (fmtOf ty) a) (elem0 (fmtOf ty) b)
  | _, _ => (0, 0)
def elems3 (ty : ElemTy) (g : FloatFmt → FVal → FVal → FVal → Nat × FlagSet) : LaneFn
  | _, [a, b, c] => g (fmtOf ty) (elem0 (fmtOf ty) a) (elem0 (fmtOf ty) b) (elem0 (fmtOf ty) c)
  | _, _ => (0, 0)

/-- A rounding that no dither pattern enters. -/
def plain (r : Rnd) : RndCtx := { mode := r, thr := 0 }

/-- The correctly rounded sum, difference, product and fused product of R165. -/
def sumFn (ty : ElemTy) (r : Rnd) (sat : Bool) : LaneFn := elems2 ty (fun f a b => f.addF (plain r) sat a b)
def diffFn (ty : ElemTy) (r : Rnd) (sat : Bool) : LaneFn := elems2 ty (fun f a b => f.addF (plain r) sat a b.flip)
def prodFn (ty : ElemTy) (r : Rnd) (sat : Bool) : LaneFn := elems2 ty (fun f a b => f.mulF (plain r) sat a b)
def fusedFn (ty : ElemTy) (r : Rnd) (sat : Bool) : LaneFn := elems3 ty (fun f a b c => f.fmaF (plain r) sat a b c)

/-- minimumNumber and maximumNumber with −0 below +0 (R166). -/
def smallerFn (ty : ElemTy) (larger : Bool) : LaneFn
  | _, [a, b] =>
    let f := fmtOf ty
    f.minMaxF larger (a % 2 ^ (1 + f.ebits + f.mbits)) (b % 2 ^ (1 + f.ebits + f.mbits))
  | _, _ => (0, 0)

def fAB (c : Common) (f : FmtV) (fn : LaneFn) : VOp := vop c f 1 [srcA f 1 f.ty, srcB f 1 f.ty] .none fn
def fA (c : Common) (f : FmtV) (fn : LaneFn) : VOp := vop c f 1 [srcA f 1 f.ty] .none fn
def fABC (c : Common) (f : FmtV) (fn : LaneFn) : VOp := vop c f 1 [srcA f 1 f.ty, srcB f 1 f.ty, srcC f 1 f.ty] .none fn
def fAI (c : Common) (f : FmtI) (fn : LaneFn) : VOp := iop c f 1 [srcIA f 1 f.ty, srcImm f f.ty] .none fn

/-- R165 and R166 with their immediate forms (R41). -/
def floatOp : Instr → Option VOp
  | .fadd c f => some (fAB c f (sumFn f.ty f.rnd f.sat))
  | .fsub c f => some (fAB c f (diffFn f.ty f.rnd f.sat))
  | .fmul c f => some (fAB c f (prodFn f.ty f.rnd f.sat))
  | .ffma c f => some (fABC c f (fusedFn f.ty f.rnd f.sat))
  | .fmin c f => some (fAB c f (smallerFn f.ty false))
  | .fmax c f => some (fAB c f (smallerFn f.ty true))
  | .faddImm c f => some (fAI c f (sumFn f.ty f.rnd f.sat))
  | .fsubImm c f => some (fAI c f (diffFn f.ty f.rnd f.sat))
  | .fmulImm c f => some (fAI c f (prodFn f.ty f.rnd f.sat))
  | .ffmaImm c f => some (iop c f 1 [srcIA f 1 f.ty, srcImm f f.ty, srcOld f 1 f.ty] .none (fusedFn f.ty f.rnd f.sat))
  | .fminImm c f => some (fAI c f (smallerFn f.ty false))
  | .fmaxImm c f => some (fAI c f (smallerFn f.ty true))
  | _ => none

/-- A function of the f32 value, or of the f32 code, in a register. -/
def f32Val (g : FVal → Nat × FlagSet) : LaneFn
  | _, [a] => g (fmtF32.decode (a % 4294967296))
  | _, _ => (0, 0)
def f32Bits (g : Nat → Nat × FlagSet) : LaneFn
  | _, [a] => g (a % 4294967296)
  | _, _ => (0, 0)

/-- 1/a and a/b: Table 9.3 in the special cases, else the exact quotient rounded once (R167). -/
def quotientFn (r : Rnd) (sat : Bool) (a b : FVal) : Nat × FlagSet := fmtF32.divF (plain r) sat a b

/-- The SFU functions (R167 to R170): long-latency producers. -/
def sfuOp : Instr → Option VOp
  | .frcp c f => some { fA c f (f32Val (quotientFn f.rnd f.sat (.fin false 1 0))) with long := true }
  | .frsq c f => some { fA c f (f32Val (fmtF32.rsqrtF (plain f.rnd) f.sat)) with long := true }
  | .fsqrt c f => some { fA c f (f32Val (fmtF32.sqrtF (plain f.rnd) f.sat)) with long := true }
  | .fdiv c f => some { fAB c f (fun _ xs => match xs with
      | [a, b] => quotientFn f.rnd f.sat (fmtF32.decode (a % 4294967296)) (fmtF32.decode (b % 4294967296))
      | _ => (0, 0)) with long := true }
  | .fexp2 c f => some { fA c f (f32Bits exp2F) with long := true }
  | .flog2 c f => some { fA c f (f32Bits log2F) with long := true }
  | .fsin c f => some { fA c f (f32Bits (sinCosF false)) with long := true }
  | .fcos c f => some { fA c f (f32Bits (sinCosF true)) with long := true }
  | .fredpi c f => some { fA c f (f32Bits redpiF) with dWords := 2, long := true }
  | _ => none

/-- The class bit of a value (R171). -/
def classBit (f : FloatFmt) : FVal → Nat
  | .inf true => 0
  | .inf false => 7
  | .nan true => 8
  | .nan false => 9
  | .fin neg m _ =>
    if m = 0 then (if neg then 3 else 4)
    else if m < 2 ^ f.mbits then (if neg then 2 else 5) else (if neg then 1 else 6)

/-- Two elements of a register, each by R165 (R172): the flags of a lane are those of both. -/
def bothHalves (fn : LaneFn) : LaneFn := fun e xs =>
  let lo := fn e (xs.map (fun v => v % 2 ^ 16))
  let hi := fn e (xs.map (fun v => v / 2 ^ 16 % 2 ^ 16))
  (lo.1 + 2 ^ 16 * hi.1, lo.2 ||| hi.2)

/-- NEG and ABS act on both halves (R172). -/
def onHalves (o : VOp) : VOp := { o with srcs := o.srcs.map (fun x => { x with packed := true }) }

/-- C[l] + Σ elem(A[l], i) · elem(B[l], i): exact integers reduced or clamped, or the exact float sum rounded once (R173,
R152). -/
def dotProduct (ty : ElemTy) (n4 : Bool) (count : Nat) (r : Rnd) (sat : Bool) : LaneFn
  | _, [a, b, c] =>
    match floatFmt ty with
    | some f =>
      dotSum (plain r) sat (fmtF32.decode (c % 4294967296))
        ((List.range count).map (fun i => prodOf (f.decode (elemAt (tyBits ty) a i)) (f.decode (elemAt (tyBits ty) b i))))
    | none =>
      let sg := tySigned ty && !n4
      let whole : ElemTy := if sg then .i32 else .n32
      let el (v i : Nat) : Int := if sg then (BitVec.ofNat (tyBits ty) (elemAt (tyBits ty) v i)).toInt else elemAt (tyBits ty) v i
      (reduced whole sat (asInt whole c + ((List.range count).map (fun i => el a i * el b i)).sum), 0)
  | _, _ => (0, 0)

/-- n elements of a register of packed elements (R144). -/
def perRegister (ty : ElemTy) : Nat := 32 / tyBits ty

/-- The float functions that write at once, the packed pairs and dot products, and the conversions (R171 to R176). -/
def convertOp : Instr → Option VOp
  | .frint c f => some (fA c f (frintFn f.ty f.rnd))
  | .fclass c f => some (fA c f (elems1 f.ty (fun k v => (2 ^ classBit k v, 0))))
  | .fscale c f => some (vop c f 1 [srcA f 1 .f32, srcB f 1 .i32] .none (fscaleFn f.rnd f.sat))
  | .fgetexp c f => some (fA c f (f32Val getexpF))
  | .hadd2 c f => some (onHalves (fAB c f (bothHalves (sumFn f.ty f.rnd f.sat))))
  | .hmul2 c f => some (onHalves (fAB c f (bothHalves (prodFn f.ty f.rnd f.sat))))
  | .hfma2 c f => some (onHalves (fABC c f (bothHalves (fusedFn f.ty f.rnd f.sat))))
  | .dot4 c f => some (vop c f 1 [srcA f 1 f.ty, srcB f 1 f.ty, srcC f 1 (dotAcc f.ty false)] .none
      (dotProduct f.ty false 4 f.rnd f.sat))
  | .dot8 c f => some (vop c f 1 [srcA f 1 f.ty, srcB f 1 f.ty, srcC f 1 (dotAcc f.ty (f.sub.getLsbD 0))] .none
      (dotProduct f.ty (f.sub.getLsbD 0) 8 f.rnd f.sat))
  | .pack c f => some { vop c f 1 [{ srcA f (perRegister f.ty) .f32 with range := true }] .none
      (packFn f.ty (f.sub.getLsbD 0) f.rnd f.sat) with noForm := decide (f.rnd = .rdi), advPhase := decide (f.rnd = .rdi) }
  | .unpack c f => some { vop c f (perRegister f.ty) [srcA f 1 f.ty] .none (unpackFn f.ty (f.sub.getLsbD 0)) with dRange := true }
  | .cvt c f =>
    let src := Wf.codeTy (f.sub.extractLsb' 0 4)
    some { vop c f (tyWords f.ty) [srcA f (tyWords src) src] .none (cvtFn src f.ty (f.sub.getLsbD 4) f.rnd f.sat) with
      noForm := decide (f.rnd = .rdi) }
  | .bscale c f => some (vop c f 1 (if f.sub.getLsbD 4 then [srcA f 1 .f32, srcB f 1 .n32]
      else [srcA f 1 .f32, srcB f 1 .n32, srcC f 1 .n32]) .none (bscaleFn f.sub f.rnd f.sat))
  | .bmax c f => some (if f.sub.getLsbD 0 then vop c f 1 [srcA f 1 .f32] .none (f32Val (scaleOf f.ty))
      else vop c f 1 [srcA f 1 .f32, srcB f 1 .f32] .none bmaxAbsFn)
  | _ => none

/-! ### Moves and exchange (R130 to R132, R137, R96 to R98) -/

/-- The value itself; the second or third operand by the first, a predicate bit. -/
def takeFn : LaneFn
  | _, [a] => (a, 0)
  | _, _ => (0, 0)
def pickFn : LaneFn
  | _, [k, a, b] => (if k ≠ 0 then a else b, 0)
  | _, _ => (0, 0)

/-- `mov`, `movi`, `sel`. -/
def moveOp : Instr → Option VOp
  | .mov c f => some (vop c f (tyWords f.ty) [srcA f (tyWords f.ty) f.ty] .mov takeFn)
  | .movi c f => some (iop c f (tyWords f.ty)
      [{ field := 0, lit := some (if f.ty = .i64 then (f.imm.signExtend 64).toNat else f.imm.toNat), ty := f.ty }] .mov takeFn)
  | .sel c f => some (vop c f (tyWords f.ty)
      [{ field := 0, pk := some (f.sub.toNat % 8), neg := f.sub.getLsbD 3 },
       srcA f (tyWords f.ty) f.ty, srcB f (tyWords f.ty) f.ty] .sel pickFn)
  | _ => none

/-- The operand values of lane `j` of member `m`, when that lane is active. -/
def laneOf (vals : List (Member × Nat × List Nat)) (m : Member) (j : Nat) : Option (List Nat) :=
  (vals.find? (fun v => decide (v.1 = m ∧ v.2.1 = j))).map (fun v => v.2.2)

/-- The lane that lane l of a `shfl` reads (R137). -/
def shuffleFrom (mode : Nat) (l b : Nat) : Int :=
  match mode with
  | 0 => b % 32
  | 1 => (l : Int) - (b % 2 ^ 32 : Nat)
  | 2 => (l : Int) + (b % 2 ^ 32 : Nat)
  | _ => (l ^^^ b % 32 : Nat)

/-- `shfl`: A of lane j when 0 ≤ j ≤ 31, bit j of C is 1 and lane j is active; else the lane's own A (R137). -/
def shuffled (mode : Nat) (_ : Ctx) (vals : List (Member × Nat × List Nat)) : List (Member × Nat × Nat × FlagSet) :=
  vals.map (fun v =>
    let own := v.2.2.getD 0 0
    let j := shuffleFrom mode v.2.1 (v.2.2.getD 1 0)
    let got : Option Nat :=
      if 0 ≤ j ∧ j ≤ 31 ∧ (v.2.2.getD 2 0).testBit j.toNat = true then (laneOf vals v.1 j.toNat).map (fun x => x.getD 0 0) else none
    (v.1, v.2.1, got.getD own, 0))

/-- A lane's source is true: it is not zero (R96). -/
def isTrue (v : Member × Nat × List Nat) : Bool := decide (v.2.2.getD 0 0 ≠ 0)

/-- Bit j of a member's ballot: lane j is active and true (R96). -/
def ballot (vals : List (Member × Nat × List Nat)) (m : Member) : Nat :=
  (word 32 (fun j => vals.any (fun v => decide (v.1 = m ∧ v.2.1 = j) && isTrue v))).toNat

/-- `vote` (R96): any, all, eq; ballot gives lane l of a wide instruction the mask of the member at position l. -/
def voted (op : Nat) (x : Ctx) (vals : List (Member × Nat × List Nat)) : List (Member × Nat × Nat × FlagSet) :=
  vals.map (fun v =>
    let r : Nat := match op with
      | 0 => if ∃ e ∈ vals, isTrue e = true then 1 else 0
      | 1 => if ∀ e ∈ vals, isTrue e = true then 1 else 0
      | 3 => if ∀ e ∈ vals, ∀ d ∈ vals, e.2.2.getD 0 0 = d.2.2.getD 0 0 then 1 else 0
      | _ =>
        if x.scope = .group then ballot vals v.1
        else ((x.members.find? (fun m => decide (m.pos = v.2.1))).map (ballot vals)).getD 0
    (v.1, v.2.1, r, 0))

/-- Combine of R97. -/
def combined (op : Nat) (ty : ElemTy) (r : Rnd) (a b : Nat) : Nat × FlagSet :=
  if ty = .f32 then
    match op with
    | 0 => fmtF32.addF (plain r) false (fmtF32.decode (a % 4294967296)) (fmtF32.decode (b % 4294967296))
    | 2 => fmtF32.minMaxF true (a % 4294967296) (b % 4294967296)
    | _ => fmtF32.minMaxF false (a % 4294967296) (b % 4294967296)
  else match op with
    | 0 => (reduced ty false (asInt ty a + asInt ty b), 0)
    | 1 => (if asInt ty a < asInt ty b then a else b, 0)
    | 2 => (if asInt ty a < asInt ty b then b else a, 0)
    | 3 => (a &&& b, 0)
    | 4 => (a ||| b, 0)
    | _ => (a ^^^ b, 0)

/-- Empty with y gives y, y with Empty gives y, else Combine (R97). -/
def join (f : Nat → Nat → Nat × FlagSet) (x y : Option Nat × FlagSet) : Option Nat × FlagSet :=
  match x.1, y.1 with
  | some a, some b => (some (f a b).1, x.2 ||| y.2 ||| (f a b).2)
  | some a, none => (some a, x.2 ||| y.2)
  | none, z => (z, x.2 ||| y.2)

/-- The tree of R97 over the 2^n positions from `lo` up: the two halves' totals joined. -/
def total (f : Nat → Nat → Nat × FlagSet) (x : Nat → Option Nat × FlagSet) : Nat → Nat → Option Nat × FlagSet
  | 0, lo => x lo
  | n + 1, lo => join f (total f x n lo) (total f x n (lo + 2 ^ n))

/-- `gred` (R97): the tree over the 32 lanes of each member, then over the member positions. -/
def reducedBy (op : Nat) (ty : ElemTy) (r : Rnd) (x : Ctx) (vals : List (Member × Nat × List Nat)) :
    List (Member × Nat × Nat × FlagSet) :=
  let f := combined op ty r
  let part (p : Nat) : Option Nat × FlagSet :=
    match x.members.find? (fun m => decide (m.pos = p)) with
    | none => (none, 0)
    | some m => total f (fun l => ((laneOf vals m l).map (fun v => v.getD 0 0), 0)) 5 0
  let t := total f (fun p => if p < x.count then part p else (none, 0)) x.count 0
  vals.map (fun v => (v.1, v.2.1, t.1.getD 0, t.2))

/-- The identity of R17 and R98. -/
def identity (op : Nat) (ty : ElemTy) : Nat :=
  match op with
  | 1 => if ty = .f32 then 0x7F800000 else (BitVec.ofInt (tyBits ty) (highest ty)).toNat
  | 2 => if ty = .f32 then 0xFF800000 else (BitVec.ofInt (tyBits ty) (lowest ty)).toNat
  | 3 => (BitVec.allOnes (tyBits ty)).toNat
  | _ => 0

/-- The combination of a list from left to right, Empty for the empty list, with the flags of its Combines. -/
def prefixOf (f : Nat → Nat → Nat × FlagSet) (xs : List Nat) : Option Nat × FlagSet :=
  xs.foldl (fun acc x => match acc.1 with
    | none => (some x, acc.2)
    | some a => (some (f a x).1, acc.2 ||| (f a x).2)) (none, 0)

/-- `gscan` (R98): the i-th active lane gets the combination of the lanes up to it, or with .excl of those before it. -/
def scanned (op : Nat) (excl : Bool) (ty : ElemTy) (r : Rnd) (_ : Ctx) (vals : List (Member × Nat × List Nat)) :
    List (Member × Nat × Nat × FlagSet) :=
  let f := combined op ty r
  let xs := vals.map (fun v => v.2.2.getD 0 0)
  (indexed vals).map (fun e =>
    (e.2.1, e.2.2.1, (prefixOf f (xs.take (if excl then e.1 else e.1 + 1))).1.getD (identity op ty), (prefixOf f xs).2))

/-- Instructions whose lanes see each other's operands. None stays in form (Table 6.2). -/
def exchangeOp : Instr → Option VOp
  | .shfl c f => some { vop c f (tyWords f.ty) [srcA f (tyWords f.ty) f.ty, srcB f 1 .n32, srcC f 1 .n32] .none takeFn with
      noForm := true, cross := some (shuffled f.sub.toNat) }
  | .vote c f => some { vop c f 1 [srcA f 1 .i32] .none takeFn with noForm := true, cross := some (voted f.sub.toNat) }
  | .gred c f => some { vop c f (tyWords f.ty) [srcA f (tyWords f.ty) f.ty] .none takeFn with
      noForm := true, long := true, cross := some (reducedBy (f.sub.toNat % 8) f.ty f.rnd) }
  | .gscan c f => some { vop c f (tyWords f.ty) [srcA f (tyWords f.ty) f.ty] .none takeFn with
      noForm := true, long := true, cross := some (scanned (f.sub.toNat % 8) (f.sub.getLsbD 3) f.ty f.rnd) }
  | _ => none

/-! ### What the statements say of a table -/

/-- The results of a vector instruction: each active lane's value and flags, from the values of its operands (R38 to R41,
R49 to R51). -/
def laneResults (o : VOp) (x : Ctx) (s : State) : List (Member × Nat × Nat × FlagSet) :=
  let vals := x.activeLanes.map (fun e =>
    (e.1, e.2, o.srcs.map (fun y => y.value s x.team x.node (x.group e.1) e.1.g (x.members.idxOf e.1) o.ireg e.2)))
  match o.cross with
  | some g => g x vals
  | none => vals.map (fun v => (v.1, v.2.1, o.fn ⟨v.2.1, x.team.dph.toNat⟩ v.2.2))

/-- Each well-formed instruction of a table completes, with the results of the table delivered and nothing else changed but the control
of its groups, in every state in which it issues and reads and writes what it may. -/
def Delivers (table : Instr → Option VOp) : Prop :=
  ∀ i o, table i = some o → i.wf = true → ∀ s d x s1, Issues s o.c false d x s1 → VReady o d x s1 →
    Completes i s x.team.id (o.delivered x (laneResults o x s1) s1)

end Sys2Proof.Claims
end

