-- ==== Sys2Proof/Certificates/Slice0/ControlClaims.lean ====
section
/-! DEFINITION. The predicate, index, control and system instructions as the rules of spec/07_registers.md,
spec/05_issue.md, spec/06_tracts.md and spec/18_faults.md give them, and the readiness that their statements assume. -/

namespace Sys2Proof.Claims

open Sys2Proof Sys2Proof.Machine

/-! ### Reading operands -/

/-- The operands of an instruction without a register destination may be read: legal fields, no undefined source, no index
out of range, no register that blocks its reader. -/
structure Reads (o : VOp) (d : Stand) (x : Ctx) : Prop where
  fields : o.static d.node = none
  defined : o.undef d.team d.gr d.act = false
  index : o.regIndex x = false
  read : o.emptyRead x = false
  full : o.blocked x = false

/-- Messages that the sources read are consumed (R119). -/
def consumed (o : VOp) (x : Ctx) (s : State) : State := (srcQueues o.srcs).foldl (fun st q => st.consumeMsgs x q) s

/-! ### Predicates (R133 to R135) -/

/-- A finite float as a rational number. -/
def rat : FVal → ℚ
  | .fin neg m e => (if neg then -1 else 1) * (m : ℚ) * (2 : ℚ) ^ e
  | _ => 0

/-- a < b on decoded floats; −0 equals +0, and nothing compares with a NaN (R133). -/
def below : FVal → FVal → Bool
  | .nan _, _ => false
  | _, .nan _ => false
  | .inf n, .inf m => n && !m
  | .inf n, .fin _ _ _ => n
  | .fin _ _ _, .inf m => !m
  | .fin n m e, .fin n' m' e' => decide (rat (.fin n m e) < rat (.fin n' m' e'))

/-- A condition of `kset`, from a < b, b < a and "some operand is a NaN" (R133). -/
def condition (cond : Nat) (lt gt un : Bool) : Bool :=
  match cond with
  | 0 => !lt && !gt && !un
  | 1 => lt || gt || un
  | 2 => lt
  | 3 => !gt && !un
  | 4 => gt
  | 5 => !lt && !un
  | _ => un

/-- Cmp of R133, with the INVALID of a signalling NaN. -/
def compared (ty : ElemTy) (cond : Nat) : LaneFn
  | _, [a, b] =>
    if (floatFmt ty).isSome then
      let x := elem0 (fmtOf ty) a
      let y := elem0 (fmtOf ty) b
      (if condition cond (below x y) (below y x) (x.isNan || y.isNan) then 1 else 0, if x.isSig || y.isSig then fINVALID else 0)
    else
      let r := if cond = 7 then decide (BitVec.ofNat (tyBits ty) a &&& BitVec.ofNat (tyBits ty) b ≠ 0)
        else condition cond (decide (asInt ty a < asInt ty b)) (decide (asInt ty b < asInt ty a)) false
      (if r then 1 else 0, 0)
  | _, _ => (0, 0)

/-- Op of R134 on bits. -/
def predicateOp (op : Nat) : LaneFn
  | _, [a, b] => (match op with
      | 0 => if a ≠ 0 ∧ b ≠ 0 then 1 else 0
      | 1 => if a ≠ 0 ∨ b ≠ 0 then 1 else 0
      | 2 => if (a ≠ 0) ↔ (b ≠ 0) then 0 else 1
      | _ => if a ≠ 0 ∧ b = 0 then 1 else 0, 0)
  | _, [a] => (if a = 0 then 1 else 0, 0)
  | _, _ => (0, 0)

/-- A predicate number as an operand. -/
def kSrc (f : BitVec 11) : Src := { field := 0, pk := some f.toNat }

/-- An instruction that writes predicate `k`, with its operands and the bit of each lane: `kset`, `kop`, and `kmov` to a
predicate, whose .mask form takes bit l of the value of the lowest-numbered active lane. -/
def predOp : Instr → Option (VOp × Nat)
  | .kset c f => some (vop (Machine.Common.noW c) f 1 [srcA f (tyWords f.ty) f.ty, srcB f (tyWords f.ty) f.ty] .none
      (compared f.ty f.sub.toNat), f.dst.toNat)
  | .kop c f => some (vop (Machine.Common.noW c) f 1 (if f.sub.toNat = 4 then [kSrc f.a] else [kSrc f.a, kSrc f.b]) .none
      (predicateOp f.sub.toNat), f.dst.toNat)
  | .kmov c f =>
    let o := vop (Machine.Common.noW c) f 1 [srcA f 1 .i32] .none (fun _ xs => (if xs.headD 0 = 0 then 0 else 1, 0))
    if f.sub.toNat = 0 then some (o, f.dst.toNat)
    else if f.sub.toNat = 2 then
      some ({ o with cross := some (fun _ vals => vals.map (fun v =>
        (v.1, v.2.1, if ((vals.head?.map (fun (w : Member × Nat × List Nat) => w.2.2.getD 0 0)).getD 0).testBit v.2.1 then 1 else 0, 0))) }, f.dst.toNat)
    else none
  | _ => none

/-- `kmov` from a predicate: its bit, or with .mask the member's mask of the predicate over the active lanes (R135). -/
def fromPredOp : Instr → Option VOp
  | .kmov c f =>
    let o := vop c f 1 [kSrc f.a] .none (fun _ xs => (xs.headD 0, 0))
    if f.sub.toNat = 1 then some o
    else if f.sub.toNat = 3 then
      some { o with noForm := true, cross := some (fun _ vals => vals.map (fun v => (v.1, v.2.1, ballot vals v.1, 0))) }
    else none
  | _ => none

/-- Bits of predicate `k` written in the active lanes of each member, and defined there; the flags raised (R133, R105). -/
def predicated (k : Nat) (x : Ctx) (rs : List (Member × Nat × Nat × FlagSet)) (s : State) : State :=
  x.members.foldl (fun st m => st.modGroup x.team.id m.g (fun g => g.setPred k m.act (resultMask rs m)))
    (raiseAll x.team.id rs s)

/-- The operands that a predicate instruction names exist: a k number of a source is at most 7. -/
def kSourcesOk (o : VOp) : Prop := ∀ y ∈ o.srcs, ∀ k, y.pk = some k → k ≤ 7

/-- `kset`, `kop` and `kmov` to a predicate complete with the bits of the active lanes written and defined (R133 to R135). -/
def PredicatesWritten : Prop := ∀ i o k s d x s1, predOp i = some (o, k) → i.wf = true → Issues s o.c false d x s1 → k ≤ 6 →
  kSourcesOk o → Reads o d x → Completes i s x.team.id (consumed o x (predicated k x (laneResults o x s1) s1))

/-- `kmov` from a predicate completes with its value delivered (R135). -/
def PredicatesRead : Prop := ∀ i o s d x s1, fromPredOp i = some o → i.wf = true → Issues s o.c false d x s1 → kSourcesOk o →
  VReady o d x s1 → Completes i s x.team.id (o.delivered x (laneResults o x s1) s1)

/-- The operands of `xset`: base, limit and offsets. -/
def xsetOp (c : Common) (f : FmtV) : VOp :=
  vop (Machine.Common.noW c) f 1 [srcA f 1 .n32, srcB f 1 .n32, srcC f 1 .n32] .none (fun _ _ => (0, 0))

/-- The operands of an active lane of an instruction without indirect operands. -/
def operand (o : VOp) (x : Ctx) (s : State) (i : Nat) (e : Member × Nat) : Nat :=
  ((o.srcs[i]?).map (fun y => y.value s x.team x.node (x.group e.1) e.1.g (x.members.idxOf e.1) o.ireg e.2)).getD 0

/-- `xset` (R136): the base and the limit of index register X are those of the lowest active lane of the lowest member, in
every member; each active lane has its own offset. The range must lie in the registers of the group. -/
def IndexSet : Prop := ∀ c f s d x s1 e, (Instr.xset c f).wf = true → Issues s c false d x s1 → Reads (xsetOp c f) d x →
  x.activeLanes.head? = some e →
  operand (xsetOp c f) x s1 0 e + operand (xsetOp c f) x s1 1 e ≤ x.node.desc.regs →
  Completes (.xset c f) s x.team.id (consumed (xsetOp c f) x
    (x.activeLanes.foldl (fun st l => st.modGroup x.team.id l.1.g (fun g =>
        { g with xoff := Tbl.set 0#32 g.xoff (32 * (f.sub.toNat % 4) + l.2) (BitVec.ofNat 32 (operand (xsetOp c f) x s1 2 l)) }))
      (x.members.foldl (fun st m => st.modGroup x.team.id m.g (fun g =>
        { g with xbase := Tbl.set 0#32 g.xbase (f.sub.toNat % 4) (BitVec.ofNat 32 (operand (xsetOp c f) x s1 0 e)),
                 xlimit := Tbl.set 0#32 g.xlimit (f.sub.toNat % 4) (BitVec.ofNat 32 (operand (xsetOp c f) x s1 1 e)) })) s1)))

/-! ### Where lanes stand -/

/-- The address at which lane `l` of group `g` of team `t` stands. -/
def laneAt (s : State) (t g l : Nat) : Option Addr := ((s.team? t).bind (fun x => x.groups[g]?)).map (fun gr => gr.pcOf l)

/-- The group `g` of team `t`. -/
def groupAt (s : State) (t g : Nat) : Option Group := (s.team? t).bind (fun x => x.groups[g]?)

/-- The instruction after the one at `a`: the next slot of the line, or slot 0 of the next line (R27). -/
def following (a : Addr) : Addr := va57 (if a.toNat % 64 = 4 then a + 60 else a + 1)

/-- The line of `a` is in the core's instruction cache, its parity holds, and it marks the slot as a target (R29, R31). -/
def AtHand (s : State) (n : Node) (core : Nat) (a : Addr) : Prop :=
  slotOf a < 5 ∧ ∃ l, Tbl.find? (s.core core).icache (lineKey n a) = some l ∧ l.bad = false ∧ lineTarget l.line (slotOf a) = true

/-- Instruction `i` completes in `e` but for control, and each active lane of member `m` stands where `dest` says. -/
def Goes (i : Instr) (s : State) (x : Ctx) (m : Member) (e : State) (dest : Nat → Addr) : Prop :=
  ∃ s' : State, exec i s = .next s' ∧ s'.still x.team.id = e.still x.team.id ∧ (∀ a, s'.byte a = e.byte a) ∧
    ∀ l ∈ lanesOf m.act, laneAt s' x.team.id m.g l = some (dest l)

/-! ### Transfers (R86 to R90) -/

/-- `nop` (R94, R32): nothing changes, whatever its predicate. -/
def NopGoesOn : Prop := ∀ c f s d x s1, (Instr.nop c f).wf = true → Issues s { c with pred := 7#3, pneg := false } false d x s1 →
  Completes (.nop c f) s x.team.id s1

/-- `br` (R87): every active lane stands at the target. -/
def BranchGoes : Prop := ∀ c f s d x s1 m, (Instr.br c f).wf = true → Issues s c false d x s1 → x.members = [m] →
  AtHand s1 x.node x.team.core (fmtTarget f x.addr) → Goes (.br c f) s x m s1 (fun _ => fmtTarget f x.addr)

/-- The pair that a lane reads as an instruction address, bits [63:57] ignored (R88). -/
def pairAddr (f : FmtC) (x : Ctx) (s : State) (m : Member) (l : Nat) : Addr :=
  va57 (BitVec.ofNat 64 (x.read s (pairSrc f) m l))

/-- `brx` and `ret` (R88, R89): each active lane stands at the address in its pair. -/
def PairGoes (mk : Common → FmtC → Instr) : Prop := ∀ c f s d x s1 m, (mk c f).wf = true → Issues s c false d x s1 → x.members = [m] →
  pairOk f d.node = true → (∀ gr, (pairSrc f).undef d.team.form gr d.act = false) →
  Reads (readOp c (pairSrc f)) d x →
  (∀ l ∈ lanesOf m.act, AtHand s1 x.node x.team.core (pairAddr f x s1 m l)) →
  Goes (mk c f) s x m s1 (pairAddr f x s1 m)

/-- The link pair written in the active lanes: the address of the next instruction, low word first (R89). -/
def linked (r : Nat) (x : Ctx) (m : Member) (s : State) : State :=
  s.modGroup x.team.id m.g (fun g => (lanesOf m.act).foldl (fun g l =>
    (g.setReg r l ((nextAddr x.addr).setWidth 32)).setReg (r + 1) l ((nextAddr x.addr >>> 32).setWidth 32)) g)

/-- `call` (R89): the link pair holds the next instruction's address, and every active lane stands at the target. -/
def CallGoes : Prop := ∀ c f s d x s1 m r, (Instr.call c f).wf = true → Issues s c false d x s1 → x.members = [m] → opndOf f.srca = .lane r →
  pairOk f d.node = true → (x.group m).isEmpty r = false → (x.group m).isEmpty (r + 1) = false →
  AtHand s1 x.node x.team.core (nextAddr x.addr) → AtHand s1 x.node x.team.core (fmtTarget f x.addr) →
  Goes (.call c f) s x m (linked r x m s1) (fun _ => fmtTarget f x.addr)

/-- `join` (R90): every active lane goes to the join target of its innermost record, and the lanes beside it that stand at the
instruction go on; where no lane has one it acts as `nop`. -/
def JoinGoes : Prop := ∀ c f s d x s1 m, (Instr.join c f).wf = true → Issues s c false d x s1 → x.members = [m] →
  ((∃ l ∈ lanesOf m.act, (x.group m).recordOf l ≠ none) → ∃ s' : State, exec (.join c f) s = .next s' ∧
    s'.still x.team.id = s1.still x.team.id ∧ (∀ a, s'.byte a = s1.byte a) ∧
    (∀ l ∈ lanesOf m.act, ∀ r, (x.group m).recordOf l = some r → laneAt s' x.team.id m.g l = some r.join) ∧
    ((x.group m).loops = [] → x.addr.toNat % 64 < 5 → ∀ l < 32, m.act.getLsbD l = false ∨ (x.group m).recordOf l = none →
      laneAt s' x.team.id m.g l = some (if m.at_.getLsbD l then following x.addr else (x.group m).pcOf l))) ∧
  ((∀ l ∈ lanesOf m.act, (x.group m).recordOf l = none) → Completes (.join c f) s x.team.id s1)

/-- A lane's condition of `brc`: kN, or its complement when bit 3 of SRCA is set (R87). -/
def takes (f : FmtC) (gr : Group) (l : Nat) : Bool := gr.pred (f.srca.toNat % 8) l != f.srca.getLsbD 3

/-- The group stands where its parcel met a bad target and fanned out: it owes the trap (R110). -/
def Owes (g : Group) (a : Addr) (k : TrapKind) (e : DWord) : Prop :=
  ∃ p, g.placement = some p ∧ p.pc = a ∧ p.due = some (k, e) ∧ ∀ l ∈ lanesOf (~~~g.exited), Tbl.find? g.resume l = none

/-- `brc` and `brc.div` (R87): each active lane whose condition holds stands at the target, and registers stay. In a group that is
in no loop, every other lane that stood at the branch stands at the next instruction, and the rest of the group where it was. -/
def ConditionalGoes : Prop := ∀ c f s d x s1 m, (Instr.brc c f).wf = true → Issues s c false d x s1 → x.members = [m] → f.srca.toNat < 16 →
  (∀ k e, ¬ Owes (x.group m) x.addr k e) →
  (∀ l ∈ lanesOf d.act, d.gr.predDef (f.srca.toNat % 8) l = true) →
  AtHand s1 x.node x.team.core (fmtTarget f x.addr) →
  (f.sub.getLsbD 0 = true → AtHand s1 x.node x.team.core (fmtJoin f x.addr)) →
  ∃ s' : State, exec (.brc c f) s = .next s' ∧ s'.still x.team.id = s1.still x.team.id ∧ (∀ a, s'.byte a = s1.byte a) ∧
    (∀ l ∈ lanesOf m.act, takes f (x.group m) l = true → laneAt s' x.team.id m.g l = some (fmtTarget f x.addr)) ∧
    ((x.group m).loops = [] → x.addr.toNat % 64 < 5 → ∀ l < 32, m.act.getLsbD l = false ∨ takes f (x.group m) l = false →
      laneAt s' x.team.id m.g l = some (if m.at_.getLsbD l then following x.addr else (x.group m).pcOf l))

/-- `brc.div` that some active lanes take and some do not (R74, R87), in a group without a record or a loop: the strand splits by
quads, without the strands that hold no lane, under one record that names the join target, the strand's quads and the lanes that
stood at the branch. -/
def DivergenceSplits : Prop := ∀ c f s d x s1 m, (Instr.brc c f).wf = true → Issues s c false d x s1 → x.members = [m] → f.srca.toNat < 16 →
  (∀ k e, ¬ Owes (x.group m) x.addr k e) → (∀ l ∈ lanesOf d.act, d.gr.predDef (f.srca.toNat % 8) l = true) →
  f.sub.getLsbD 0 = true → AtHand s1 x.node x.team.core (fmtTarget f x.addr) → AtHand s1 x.node x.team.core (fmtJoin f x.addr) →
  (x.group m).loops = [] → (x.group m).divs = [] → x.addr.toNat % 64 < 5 →
  fmtJoin f x.addr ≠ fmtTarget f x.addr → fmtJoin f x.addr ≠ following x.addr →
  (∃ l ∈ lanesOf m.act, takes f (x.group m) l = true) → (∃ l ∈ lanesOf m.act, takes f (x.group m) l = false) →
  ∃ (s' : State) (gr : Group), exec (.brc c f) s = .next s' ∧ groupAt s' x.team.id m.g = some gr ∧
    gr.divs = [{ join := fmtJoin f x.addr, quads := m.quads, lanes := m.at_, parked := 0#32, handler := (x.group m).trap.isSome }] ∧
    gr.strands.map (fun st => st.quads) =
      (((x.group m).split m (maskOf (fun l => m.act.getLsbD l && takes f (x.group m) l)) (fmtJoin f x.addr)).dropEmpty).strands.map
        (fun st => st.quads)

/-! ### loop (R91) -/

/-- What `loop` needs, whatever its count: an end after it, a readable count, and no LoopOverflow or IllegalTarget. -/
structure LoopAllowed (f : FmtC) (s : State) (d : Stand) (x : Ctx) (s1 : State) (m : Member) : Prop where
  alone : x.members = [m]
  word : wordOk f d.node = true
  ahead : s.curAddr.toNat < (fmtTarget f s.curAddr).toNat
  defined : (countSrc f).undef d.team.form d.gr d.act = false
  nests : loopOverflow (x.group m).loops (f.sub.toNat % 4) (nextAddr x.addr) (fmtTarget f x.addr) = false
  target : AtHand s1 x.node x.team.core (fmtTarget f x.addr)

/-- The count that `loop` reads: of the lowest active lane. -/
def loopCount (f : FmtC) (x : Ctx) (s : State) : Word := BitVec.ofNat 32 (x.readFirst s (countSrc f))

/-- `loop` with a count and a body: the counter holds the count, the body is from the next instruction up to the end label, the
loops around it stand, and every lane at the instruction stands at the body's first one. -/
def LoopOpens : Prop := ∀ c f s d x s1 m, (Instr.loop c f).wf = true → Issues s c true d x s1 → LoopAllowed f s d x s1 m →
  Reads (readOp c (countSrc f)) d x → loopCount f x s1 ≠ 0#32 → nextAddr x.addr ≠ fmtTarget f x.addr →
  ∃ (s' : State) (gr : Group), exec (.loop c f) s = .next s' ∧ s'.still x.team.id = s1.still x.team.id ∧ (∀ a, s'.byte a = s1.byte a) ∧
    groupAt s' x.team.id m.g = some gr ∧
    gr.loops = { n := f.sub.toNat % 4, count := loopCount f x s1, top := nextAddr x.addr, fin := fmtTarget f x.addr, depth := 0,
                 waiting := 0#32 } :: (x.group m).loops ∧
    ∀ l ∈ lanesOf m.at_, gr.pcOf l = nextAddr x.addr

/-- `loop` with a count of 0, or an empty body: no loop opens. The lanes reach the end as they would in sequence, so that one
around it may end its pass there; where none ends there, they stand at the end label, and the loops around it stand. -/
def LoopSkips : Prop := ∀ c f s d x s1 m, (Instr.loop c f).wf = true → Issues s c true d x s1 → LoopAllowed f s d x s1 m →
  Reads (readOp c (countSrc f)) d x → loopCount f x s1 = 0#32 ∨ nextAddr x.addr = fmtTarget f x.addr →
  ∃ (s' : State) (gr : Group), exec (.loop c f) s = .next s' ∧ s'.still x.team.id = s1.still x.team.id ∧ (∀ a, s'.byte a = s1.byte a) ∧
    groupAt s' x.team.id m.g = some gr ∧ gr = ((x.group m).issued m true true).land m.at_ x.addr (fmtTarget f x.addr) ∧
    gr.loops.length ≤ (x.group m).loops.length ∧
    ((∀ lp ∈ (x.group m).loops, lp.fin ≠ fmtTarget f x.addr ∧ lp.waiting = 0#32) →
      gr.loops = (x.group m).loops ∧ ∀ l ∈ lanesOf m.at_, gr.pcOf l = fmtTarget f x.addr)

/-! ### exit, tjoin, region (R93, R112, R138) -/

/-- The lanes of `m` that execute leave the group. -/
def exited (x : Ctx) (m : Member) (s : State) : State :=
  s.modGroup x.team.id m.g (fun g => { g with exited := g.exited ||| m.act })

/-- No group of the team keeps a lane. -/
def allGone (s : State) (t : Nat) : Bool := (s.team? t).any (fun u => u.groups.all (fun g => decide (g.exited = 0xFFFF_FFFF#32)))

/-- The handler strand of a group in handler mode keeps a lane when the lanes `m` leave. -/
def handlerStays (g : Group) (m : LaneMask) : Prop :=
  ∀ r, g.trap = some r → quadLanes r.quads &&& ~~~r.outside &&& ~~~(g.exited ||| m) ≠ 0#32

/-- `exit` (R93), while lanes of the team stay, or work of it is in flight: the active lanes have exited, and nothing else
changes but control. -/
def ExitLeaves : Prop := ∀ c f s d x s1 m, (Instr.exit c f).wf = true → Issues s c false d x s1 → x.members = [m] →
  handlerStays (x.group m) m.act → allGone (exited x m s1) x.team.id = false ∨ s1.teamBusy x.team.id = true →
  Completes (.exit c f) s x.team.id (exited x m s1)

/-- `exit`, wherever it issues (R93): it completes, its active lanes have exited, and no byte changes; a team whose work is then
done ends. -/
def ExitCompletes : Prop := ∀ c f s d x s1 m, (Instr.exit c f).wf = true → Issues s c false d x s1 → x.members = [m] →
  ∃ (e : State) (gr : Group), exec (.exit c f) s = .next (e.tryEnd x.team.id) ∧ (∀ a, e.byte a = s.byte a) ∧
    groupAt e x.team.id m.g = some gr ∧ gr.exited = (x.group m).exited ||| m.act ∧ gr.regs = (x.group m).regs

/-- What a team that has ended or parked holds: nothing on its core (R93, R112). -/
structure HoldsNothing (u : Team) : Prop where
  banks : u.banks = []
  records : u.obs = []
  scratch : u.scratch = []
  queues : u.sendq = [] ∧ u.recvq = []
  claims : u.claims = []
  objects : u.bars = []

/-- `exit` of a team's last lanes, with none of its work in flight: the team has ended, holds nothing, and its node re-forms if
only parked teams are left (R93, R113). No byte changes. -/
def ExitEnds : Prop := ∀ c f s d x s1 m, (Instr.exit c f).wf = true → Issues s c false d x s1 → x.members = [m] →
  handlerStays (x.group m) m.act → allGone (exited x m s1) x.team.id = true → s1.teamBusy x.team.id = false →
  ∃ (s2 : State) (u : Team), exec (.exit c f) s = .next (s2.reForm x.team.node) ∧ (∀ a, (s2.reForm x.team.node).byte a = s.byte a) ∧
    s2.team? x.team.id = some u ∧ u.phase = .ended ∧ HoldsNothing u

/-- `exit` of the last lanes of a handler strand (R353): the group leaves handler mode and its loops are back, as by `tret`. -/
def ExitReturns : Prop := ∀ c f s d x s1 m r, (Instr.exit c f).wf = true → Issues s c false d x s1 → x.members = [m] →
  (x.group m).trap = some r → r.members = [m.g] → (x.group m).divs = [] → (∀ lp ∈ r.loops, lp.waiting = 0#32) →
  quadLanes r.quads &&& ~~~r.outside &&& ~~~((x.group m).exited ||| m.act) = 0#32 →
  ∃ (s' : State) (gr : Group), exec (.exit c f) s = .next (s'.tryEnd x.team.id) ∧ groupAt s' x.team.id m.g = some gr ∧
    gr.exited = (x.group m).exited ||| m.act ∧ gr.trap = none ∧ gr.loops = r.loops ∧ (∀ st ∈ gr.strands, st.stopped = false) ∧
    (∀ a, s'.byte a = s.byte a)

/-- The groups of a team that have not wholly exited agree on their active loops, bodies and counters (R112). -/
def LoopsAgree (t : Team) : Prop :=
  ∀ g ∈ t.groups, ∀ h ∈ t.groups, g.exited ≠ 0xFFFF_FFFF#32 → h.exited ≠ 0xFFFF_FFFF#32 → loopKey g.loops = loopKey h.loops

/-- A predicate of a parked team: uniform where it is defined and equal in every lane that has not exited (R112). -/
def agrees (t : Team) (k : Nat) (b : Bool) : Prop :=
  (∃ g ∈ t.groups, g.exited ≠ 0xFFFF_FFFF#32) ∧
  ∀ g ∈ t.groups, ∀ l ∈ lanesOf (~~~g.exited), g.predDef k l = true ∧ g.pred k l = b

/-- What a team that parked at `a` keeps, of the team `t` that it was (R112). -/
structure Remains (t u : Team) (a : Addr) : Prop where
  phase : u.phase = .parked ∧ u.parkedAt = a
  nothing : HoldsNothing u
  form : u.form = t.form
  preds : ∀ k < 7, (∀ b, predGet u.parkedPreds k = .uni b ↔ agrees t k b) ∧
    (predGet u.parkedPreds k = .undef ∨ ∃ b, predGet u.parkedPreds k = .uni b)
  loops : ∀ g ∈ t.groups, g.exited ≠ 0xFFFF_FFFF#32 → loopKey u.parkedLoops = loopKey g.loops
  exits : u.groups.map (fun g => g.exited) = t.groups.map (fun g => g.exited)
  rest : ∀ g ∈ u.groups, g = g.parkRemains

/-- `tjoin` (R112): a team whose groups agree on their loops and whose work is done parks there, and its node re-forms if only
parked teams are left (R113). No byte changes. -/
def TjoinParks : Prop := ∀ c f s d x s1, (Instr.tjoin c f).wf = true → Issues s c false d x s1 → LoopsAgree x.team → s1.teamBusy x.team.id = false →
  ∃ (s2 : State) (u : Team), exec (.tjoin c f) s = .next (s2.reForm x.team.node) ∧ (∀ a, (s2.reForm x.team.node).byte a = s.byte a) ∧
    s2.team? x.team.id = some u ∧ Remains x.team u x.addr

/-- `region` (R138): the working set is the ranges named, the instruction's own address is the resume point of its lanes, and
the record stack kept with the point is the group's; nothing else changes but control. -/
def RegionNames : Prop := ∀ c f s d x s1 m, (Instr.region c f).wf = true → Issues s c true d x s1 → x.members = [m] → regionOperandsOk f d.node = true →
  ∃ (s' : State) (gr : Group), exec (.region c f) s = .next s' ∧ s'.still x.team.id = (s1.modGroup x.team.id m.g (fun g =>
      { g with ws := ([f.r0, f.r1, f.r2, f.r3].take f.n.toNat).map (fun r => (r.toNat / 32, r.toNat % 32 + 1)) })).still x.team.id ∧
    (∀ a, s'.byte a = s1.byte a) ∧ groupAt s' x.team.id m.g = some gr ∧ (∀ l ∈ lanesOf m.at_, Tbl.find? gr.resume l = some x.addr) ∧
    ∃ k, gr.kept.head? = some k ∧ k.addr = x.addr ∧ k.divs = (x.group m).divs

/-! ### yield (R352) -/

/-- A cause of pre-emption stands for team `u` of node `n` (R354, R195): a pre-emption was requested, it waits at
`nwait` (R339), a node that cannot place its teams outranks it, or it is the team that a deadlock over banks pre-empts. -/
def Cause (s : State) (n : Node) (u : Team) : Prop :=
  u.preempt = true ∨ u.nwait ≠ none ∨ s.outranked n u = true ∨ ∃ v, s.deadlocked u.core = some v ∧ v.id = u.id

/-- `yield.t` where no cause of pre-emption stands, for the team or for one that is pre-empted with it: it has no effect. -/
def YieldOffers : Prop := ∀ c f s d x s1, (Instr.yield c f).wf = true → Issues s c false d x s1 →
  (∀ u ∈ s1.preemptSet x.node x.team, ¬ Cause s1 x.node u) →
  Completes (.yield c f) s x.team.id s1

/-- `yield.t` where a cause of pre-emption stands for the team, or for one that is pre-empted with it (R354, R195): the team's
pre-emption begins, with that of every placed team of a `.coresident` node; no byte changes. -/
def YieldLeaves : Prop := ∀ c f s d x s1, (Instr.yield c f).wf = true → Issues s c false d x s1 →
  (∃ u ∈ s1.preemptSet x.node x.team, Cause s1 x.node u) →
  ∃ t : State, exec (.yield c f) s = .next t ∧ (∀ a, t.byte a = s.byte a) ∧
    (∃ u, t.team? x.team.id = some u ∧ u.phase = .stopping ∧ u.groups.map (fun g => (g.regs, g.kval, g.lflags, g.resume)) =
      x.team.groups.map (fun g => (g.regs, g.kval, g.lflags, g.resume))) ∧
    (x.node.desc.cores = true → ∀ u ∈ t.teams, u.node = x.node.id → u.phase ≠ .placed)

/-! ### Traps and handlers (R341 to R353) -/

/-- The node's handler can be entered by the members: it has one whose line is at hand, and no member group is in handler
mode (R343, R346). -/
def CanEnter (x : Ctx) (s : State) : Prop :=
  x.node.desc.handler ≠ 0#64 ∧ AtHand s x.node x.team.core x.node.desc.handler ∧
  ∀ m ∈ x.members, ∃ gr, groupAt s x.team.id m.g = some gr ∧ gr.trap = none

/-- The instruction takes a trap (R341 to R345): each member group is in handler mode with the trap registers of Table 18.1
and Table 18.2, its loops set aside, its other strands stopped, and its lanes for which the trap was raised at HANDLER. -/
def Traps (i : Instr) (s : State) (x : Ctx) (k : TrapKind) (eaddr : DWord) (code : BitVec 16) (epc : Addr) : Prop :=
  ∃ s' : State, exec i s = .next s' ∧ (∀ a, s'.byte a = s.byte a) ∧
    ∀ m ∈ x.members, ∃ gr r, groupAt s' x.team.id m.g = some gr ∧ gr.trap = some r ∧
      r.ecause = (code ++ (0#5 ++ BitVec.ofNat 2 x.scope.code ++ 0#1 ++ BitVec.ofNat 8 k.code) : BitVec 32) ∧
      r.epc = epc ∧ r.eaddr = eaddr ∧ r.scope = x.scope ∧ gr.loops = [] ∧
      r.loops = ((groupAt s x.team.id m.g).map (fun g => g.loops)).getD [] ∧
      ∀ l ∈ lanesOf (hitLanes m), gr.pcOf l = x.node.desc.handler

/-- `trap` (R351): UserTrap, its CODE the low 16 bits of the source at the lowest active lane of the lowest member. -/
def TrapTaken : Prop := ∀ c f s d x s1, (Instr.trap c f).wf = true → Issues s c false d x s1 → wordOk f d.node = true →
  (countSrc f).undef d.team.form d.gr d.act = false → Reads (readOp c (countSrc f)) d x → CanEnter x s1 →
  Traps (.trap c f) s x .userTrap 0 (BitVec.ofNat 16 (x.readFirst s1 (countSrc f))) (nextAddr x.addr)

/-- `bkpt` (R351). -/
def BreakpointTaken : Prop := ∀ c f s d x s1, (Instr.bkpt c f).wf = true → Issues s c false d x s1 → CanEnter x s1 →
  Traps (.bkpt c f) s x .breakpoint 0 0 (nextAddr x.addr)

/-- `tret` in the handler of a trap raised for one group (R353, R345): the handler strand's lanes stand at epc, the group is
no longer in handler mode, ecause, epc and eaddr are gone, its strands go on, and the loops set aside are back. -/
def TretReturns : Prop := ∀ c f s d x s1 m r, (Instr.tret c f).wf = true → Issues s c false d x s1 → x.members = [m] → (x.group m).trap = some r →
  r.members = [m.g] → (x.group m).divs = [] → (∀ lp ∈ r.loops, lp.waiting = 0#32) → (∀ lp ∈ r.loops.head?, lp.fin ≠ va57 r.epc) →
  ∃ (s' : State) (gr : Group), exec (.tret c f) s = .next s' ∧ (∀ a, s'.byte a = s.byte a) ∧ groupAt s' x.team.id m.g = some gr ∧ gr.trap = none ∧
    gr.loops = r.loops ∧ (∀ st ∈ gr.strands, st.stopped = false) ∧
    (∀ l ∈ lanesOf (quadLanes r.quads &&& ~~~r.outside &&& ~~~gr.exited), gr.pcOf l = va57 r.epc) ∧
    gr.regs = (x.group m).regs ∧ gr.kval = (x.group m).kval ∧ gr.lflags = (x.group m).lflags

/-- `tret` to the end of the innermost body (R345): the lanes have ended their pass there. With none left inside the body the
counter goes down by one, and they stand at its top while passes remain. -/
def TretEndsPass : Prop := ∀ c f s d x s1 m r lp rest, (Instr.tret c f).wf = true → Issues s c false d x s1 → x.members = [m] →
  (x.group m).trap = some r → r.members = [m.g] → (x.group m).divs = [] → r.loops = lp :: rest → lp.waiting = 0#32 → lp.fin = va57 r.epc →
  let back := quadLanes r.quads &&& ~~~r.outside &&& ~~~(x.group m).exited
  back ≠ 0#32 → (∀ l ∈ lanesOf (~~~back &&& ~~~(x.group m).exited), inBody lp.top lp.fin ((x.group m).pcOf l) = false) → lp.count ≠ 1#32 →
  ∃ (s' : State) (gr : Group), exec (.tret c f) s = .next s' ∧ (∀ a, s'.byte a = s.byte a) ∧ groupAt s' x.team.id m.g = some gr ∧ gr.trap = none ∧
    gr.loops = { lp with count := lp.count - 1 } :: rest ∧ ∀ l ∈ lanesOf back, gr.pcOf l = lp.top

/-- `brc` where the parcel met a bad target (R110): each group raises that trap, whether or not a lane of it takes the branch. -/
def OwedTraps : Prop := ∀ c f s d x s1 m k e, (Instr.brc c f).wf = true → Issues s c false d x s1 → x.members = [m] → f.srca.toNat < 16 →
  (∀ l ∈ lanesOf d.act, d.gr.predDef (f.srca.toNat % 8) l = true) → Owes (x.group m) x.addr k e → CanEnter x s1 →
  Traps (.brc c f) s x k e 0 (trapEpc k x.addr)

/-- `loop` (R91): LoopOverflow precisely at it, where the body is too long, the counter or all three loops are taken, or the body
does not lie inside every active one. -/
def LoopTraps : Prop := ∀ c f s d x s1 m, (Instr.loop c f).wf = true → Issues s c true d x s1 → x.members = [m] → wordOk f d.node = true →
  s.curAddr.toNat < (fmtTarget f s.curAddr).toNat → (countSrc f).undef d.team.form d.gr d.act = false →
  256 < slotsBetween (nextAddr x.addr) (fmtTarget f x.addr) ∨ 3 ≤ (x.group m).loops.length ∨
    (∃ l ∈ (x.group m).loops, l.n = f.sub.toNat % 4 ∨ (nextAddr x.addr).toNat < l.top.toNat ∨ l.fin.toNat < (fmtTarget f x.addr).toNat) →
  CanEnter x s1 → Traps (.loop c f) s x .loopOverflow 0 0 x.addr

/-- `tjoin` (R112): ScopeMismatch at every group, with nothing released, where their loops differ. -/
def TjoinTraps : Prop := ∀ c f s d x s1, (Instr.tjoin c f).wf = true → Issues s c false d x s1 → ¬ LoopsAgree x.team → CanEnter x s1 →
  Traps (.tjoin c f) s x .scopeMismatch 0 0 x.addr

/-! ### Control registers (R348, R349) -/

/-- A control register as a lane of group `gr` reads it (Table 18.3). -/
def controlReg (s : State) (t : Team) (n : Node) (gr : Group) (l : Nat) (csr : Nat) : Nat :=
  match csr with
  | 1 => (gr.trap.map (fun r => r.ecause.toNat)).getD 0
  | 2 => (gr.trap.map (fun r => r.epc.toNat)).getD 0
  | 3 => (gr.trap.map (fun r => r.eaddr.toNat)).getD 0
  | 4 => (Tbl.get 0#6 gr.lflags l).toNat
  | 5 => t.mwin.toNat
  | 6 => if gr.trap.isSome then 1 else 0
  | 7 => n.replays % 256 + 256 * (((s.launch? n.launch).map (fun y => y.replays)).getD 0 % 256)
  | 0x8000 => (s.part n.part).shfree.toNat
  | 0x8001 => (s.part n.part).shsize.toNat
  | 0x8002 => (s.part n.part).sdcount.toNat
  | 0x8003 => (s.part n.part).uccount.toNat
  | 0x8004 => (s.part n.part).rpcount.toNat
  | _ => 0

/-- `csrr` as a vector instruction without sources: ecause, lflags, hstate and nreplay take one register, epc, eaddr and
mwin a pair. -/
def csrrClaim (c : Common) (f : FmtS) (s : State) : VOp :=
  { c := c, dst := f.reg, dWords := if f.csr = 2 ∨ f.csr = 3 ∨ f.csr = 5 then 2 else 1, srcs := [], noForm := true,
    fn := fun _ _ => (0, 0),
    cross := some (fun x vals => vals.map (fun v =>
      (v.1, v.2.1, controlReg s x.team x.node (x.group v.1) v.2.1 f.csr.toNat, 0))) }

/-- `csrr` of an assigned register (R349): of any node, or a privileged one in firmware mode (R348). -/
def CsrrReads : Prop := ∀ c f s d x s1, (Instr.csrr c f).wf = true → Issues s c false d x s1 →
  (1 ≤ f.csr.toNat ∧ f.csr.toNat ≤ 7) ∨ (0x8000 ≤ f.csr.toNat ∧ f.csr.toNat ≤ 0x8004 ∧ d.node.firmware = true) →
  VReady (csrrClaim c f s) d x s1 →
  Completes (.csrr c f) s x.team.id ((csrrClaim c f s).delivered x (laneResults (csrrClaim c f s) x s1) s1)

/-- `csrr` of a privileged register outside firmware mode (R348). -/
def CsrrProtects : Prop := ∀ c f s d x s1, (Instr.csrr c f).wf = true → Issues s c false d x s1 → 0x8000 ≤ f.csr.toNat → f.csr.toNat ≤ 0x8004 →
  d.node.firmware = false →
  (csrrClaim c f s).static d.node = none → CanEnter x s1 →
  Traps (.csrr c f) s x .protection (f.csr.setWidth 64) 0 x.addr

/-- `csrw` of lflags, of epc in handler mode, of mwin, and in firmware mode of the shadow pool's size and the error counters,
which any value clears (R348, R349, Table 18.3). -/
def CsrwWrites : Prop := ∀ c f s d x s1, (Instr.csrw c f).wf = true → Issues s c false d x s1 → (csrwSrc f).ok d.node.desc.regs = true →
  (csrwSrc f).undef d.team.form d.gr d.act = false → Reads (readOp c (csrwSrc f)) d x →
  let o := readOp c (csrwSrc f)
  (f.csr = 4 → Completes (.csrw c f) s x.team.id (consumed o x (x.activeLanes.foldl (fun st e =>
    st.modGroup x.team.id e.1.g (fun g => { g with
      lflags := Tbl.set 0#6 g.lflags e.2 (BitVec.ofNat 6 (x.read s1 (csrwSrc f) e.1 e.2)) })) s1))) ∧
  (f.csr = 5 → c.scope = .team → BitVec.ofNat 64 (x.readFirst s1 (csrwSrc f)) &&& 0xFE00_0000_0000_FFFF#64 = 0 →
    Completes (.csrw c f) s x.team.id (consumed o x (s1.modTeam x.team.id (fun t =>
      { t with mwin := BitVec.ofNat 64 (x.readFirst s1 (csrwSrc f)) })))) ∧
  (f.csr = 2 → d.gr.trap.isSome = true →
    (∀ m ∈ x.members, ∀ l, lowestLane m.act = some l → slotOf (BitVec.ofNat 64 (x.read s1 (csrwSrc f) m l)) < 5) →
    Completes (.csrw c f) s x.team.id (consumed o x (x.members.foldl (fun st m => match lowestLane m.act with
      | none => st
      | some l => st.modGroup x.team.id m.g (fun g =>
        { g with trap := g.trap.map (fun r => { r with epc := BitVec.ofNat 64 (x.read s1 (csrwSrc f) m l) }) })) s1))) ∧
  (0x8001 ≤ f.csr.toNat → f.csr.toNat ≤ 0x8004 → d.node.firmware = true →
    Completes (.csrw c f) s x.team.id (consumed o x (s1.modPart d.node.part (fun p =>
      if f.csr = 0x8001 then { p with shsize := BitVec.ofNat 32 (x.readFirst s1 (csrwSrc f)) }
      else if f.csr = 0x8002 then { p with sdcount := 0 } else if f.csr = 0x8003 then { p with uccount := 0 }
      else { p with rpcount := 0 }))))

end Sys2Proof.Claims
end

