-- ==== Sys2Proof/Certificates/Slice0/MemoryClaims.lean ====
section
/-! DEFINITION. The memory and scratchpad instructions as the rules of spec/13_memory.md, spec/10_local_memory.md and
spec/14_visibility.md give them: where each lane's access goes, what traps, and what an access does at its point of
order. -/

namespace Sys2Proof.Claims

open Sys2Proof Sys2Proof.Machine

/-! ### The instructions (Table 13.6, Table 10.3) -/

/-- `ld`, `st`, `atom` and `red`: what each reads, writes and returns. -/
def globalOp : Instr → Option MOp
  | .ld c f => some
    { c := c, f := f, kind := .load (f.sub.getLsbD 0), acc := .read, ret := true, reads := false, cas := false,
      a64 := f.sub.getLsbD 5, loc := false, logs := false, commit := false }
  | .st c f => some
    { c := c, f := f, kind := .store, acc := .write, ret := false, reads := true, cas := false,
      a64 := f.sub.getLsbD 5, loc := false, logs := !releases f.order, commit := releases f.order }
  | .atom c f => some
    { c := c, f := f, kind := .atom (f.sub.toNat % 8) (f.sub.getLsbD 4) (f.sub.getLsbD 3) c.w, acc := .atomic, ret := c.w,
      reads := true, cas := decide (f.sub.toNat % 8 = 7), a64 := f.sub.getLsbD 5, loc := false, logs := false, commit := true }
  | .red c f => some
    { c := c, f := f, kind := .red (f.sub.toNat % 8) (f.sub.getLsbD 4) (f.sub.getLsbD 3), acc := .atomic, ret := false,
      reads := true, cas := false, a64 := f.sub.getLsbD 5, loc := false, logs := true, commit := true }
  | _ => none

/-- `lds`, `sts` and `atoms`. -/
def localOp : Instr → Option MOp
  | .lds c f => some
    { c := c, f := f, kind := .load (f.sub.getLsbD 0), acc := .read, ret := true, reads := false, cas := false,
      a64 := false, loc := true, logs := false, commit := false }
  | .sts c f => some
    { c := c, f := f, kind := .store, acc := .write, ret := false, reads := true, cas := false,
      a64 := false, loc := true, logs := false, commit := releases f.order }
  | .atoms c f => some
    { c := c, f := f, kind := .atom (f.sub.toNat % 16) (f.sub.getLsbD 4) (f.sub.getLsbD 5) c.w, acc := .atomic, ret := c.w,
      reads := true, cas := decide (f.sub.toNat % 16 = 7), a64 := false, loc := true, logs := false, commit := true }
  | _ => none

/-- Either of the two. -/
def memoryOp (i : Instr) : Option MOp := (globalOp i).or (localOp i)

/-! ### Addresses and data (R250, R182, R144) -/

/-- The address of lane `l` of member `m`: base + Sext(OFFSET, 22) modulo 2^64, the base a pair with .a64, else
mwin + Zext(ADDR[l]); for a scratchpad access ADDR[l] + Sext(OFFSET, 22) modulo 2^32. -/
def laneVa (o : MOp) (x : Ctx) (s : State) (m : Member) (l : Nat) : Nat :=
  let a := x.read s o.addrSrc m l
  if o.loc then (BitVec.ofNat 32 a + o.f.offset.signExtend 32).toNat
  else if o.a64 then (BitVec.ofNat 64 a + o.f.offset.signExtend 64).toNat
  else (x.team.mwin + (BitVec.ofNat 32 a).setWidth 64 + o.f.offset.signExtend 64).toNat

/-- The access of a lane: its address, the value it stores or combines, and the value .cas compares with. -/
def laneAcc (o : MOp) (x : Ctx) (s : State) (m : Member) (l : Nat) : Acc :=
  { m := m, l := l, va := laneVa o x s m l,
    data := if o.reads then x.read s (o.dataSrc o.f.data false) m l else 0,
    cmp := if o.cas then x.read s (o.dataSrc o.f.second false) m l else 0 }

/-- The active lanes in ascending lane order, then member order (R251, R186). -/
def lanesInOrder (x : Ctx) : List (Member × Nat) :=
  (List.range 32).flatMap (fun l => (x.members.filter (fun m => m.act.getLsbD l)).map (fun m => (m, l)))

/-- The accesses in that order. -/
def laneAccs (o : MOp) (x : Ctx) (s : State) : List Acc := (lanesInOrder x).map (fun e => laneAcc o x s e.1 e.2)

/-- The registers of a memory instruction may be read and written, and its sends have their credits (R118, R119, R126). A
load with a form destination is another statement's. -/
structure MReads (o : MOp) (d : Stand) (x : Ctx) (s : State) : Prop where
  fields : o.static d.node = none
  defined : o.regs.undef d.team d.gr d.act = false
  index : o.regs.regIndex x = false
  read : o.regs.emptyRead x = false
  full : o.regs.blocked x = false ∧ o.regs.dstEmpty x = false
  bound : o.regs.sends.any (fun q => (Tbl.find? x.team.sendq q.1).isNone) = false
  credit : o.regs.sends.all (fun q => s.credited x q.1 q.2) = true ∧ (o.regs.sends ≠ [] → x.quiet s = true)
  place : o.regs.formDst = none

/-- The accesses may go to memory: no earlier side-logged access overlaps, no earlier acquire of the groups is on its way,
and a release finds the earlier accesses performed (R237, R257, R254). -/
structure MReady (o : MOp) (d : Stand) (x : Ctx) (s : State) : Prop where
  reads : MReads o d x s
  side : (laneAccs o x s).any (s.sideOverlap x o.bytes) = false
  order : s.acquirePending x = false ∧ (releases o.f.order = true → x.quiet s = true)

/-- The requests of the accesses go on their way with the places found; messages that the operands took leave their queues;
a node that writes outside its output extents has escaped (R361). -/
def sent (o : MOp) (x : Ctx) (rs : List Req) (s : State) : State :=
  o.consume x (((s.dropCtxWalks x).sendReqs o x false rs).noteEscape x.node rs)

/-- The accesses of a global instruction with places `f`: one for each active lane, or two of 8 bytes where it is of 16 (R251). -/
def requests (o : MOp) (x : Ctx) (s : State) (f : Member → Nat → Found) : List Req :=
  (laneAccs o x s).flatMap (fun a => o.requests s x a (f a.m a.l))

/-- `ld`, `st`, `atom` and `red` (R249 to R254) complete when every lane's address passes the checks of R251: the accesses
are on their way, and no byte of memory has changed yet. -/
def AccessesGo : Prop := ∀ i o s d x s1 f, globalOp i = some o → i.wf = true → Issues s o.c false d x s1 → MReady o d x s1 →
  (∀ a ∈ laneAccs o x s1, a.va % o.bytes = 0 ∧ a.va < 2 ^ 57 ∧
    s1.resolve x.node x.team.core (x.who a.m) o.acc a.va o.bytes = .ok (f a.m a.l) ∧
    s1.step4 x.node o.bytes (f a.m a.l) = none) →
  Completes i s x.team.id (sent o x (requests o x s1 f) s1)

/-- The accesses of a scratchpad instruction, at the places and offsets of Table 10.1. -/
def localRequests (o : MOp) (x : Ctx) (s : State) : List Req :=
  (laneAccs o x s).flatMap (fun a => match s.scratchPlace x.node x.team o.bytes a.va with
    | none => []
    | some p => (o.requests s x a ⟨p.2, ⟨true, false, false, 0, x.node.desc.comp, 0⟩, none, false⟩).map (fun q => { q with place := p.1 }))

/-- `lds`, `sts` and `atoms` (R182 to R187) complete when each address is a multiple of the width, and its bytes lie in the
team's allocation or in that of a team present in the cluster; the group waits while such a team is pre-empted (R183). -/
def ScratchGoes : Prop := ∀ i o s d x s1, localOp i = some o → i.wf = true → Issues s o.c false d x s1 → MReady o d x s1 →
  (∀ a ∈ laneAccs o x s1, a.va % o.bytes = 0 ∧ ∃ p, s1.scratchPlace x.node x.team o.bytes a.va = some p ∧
    ∀ j, p.1 = .peer j → s1.peer x.node.id j ≠ .waits) →
  ∃ s', exec i s = .next s' ∧ (∀ a, s'.byte a = s.byte a) ∧
    s'.still x.team.id = (o.consume x (s1.sendReqs o x false (localRequests o x s1))).still x.team.id

/-- Registers and other values that an access on its way leaves alone. -/
structure Kept (s s' : State) : Prop where
  memory : ∀ a, s'.byte a = s.byte a
  lines : s'.lines = s.lines
  host : s'.hostMem = s.hostMem
  parts : ∀ p, (s'.part p).nodes.map (fun n => (n.id, n.state, n.shadow)) = (s.part p).nodes.map (fun n => (n.id, n.state, n.shadow))
  scratch : s'.teams.map (fun t => (t.id, t.scratch, t.form, t.mwin, t.dph, t.bars, t.claims, t.banks, t.obs)) =
    s.teams.map (fun t => (t.id, t.scratch, t.form, t.mwin, t.dph, t.bars, t.claims, t.banks, t.obs))
  groups : s'.teams.map (fun t => t.groups.map (fun g => (g.regs, g.kval, g.kdef, g.lflags, g.trap))) =
    s.teams.map (fun t => t.groups.map (fun g => (g.regs, g.kval, g.kdef, g.lflags, g.trap)))

/-- The frame of the seven: no register, predicate, flag, form register, trap register or byte changes when accesses go
on their way; the requests stand in order behind those on their way before. -/
def SendingKeeps : Prop := ∀ (o : MOp) (x : Ctx) (rs : List Req) (s : State),
  Kept s (sent o x rs s) ∧
  (sent o x rs s).reqs.map (fun r => (r.va, r.pa, r.data, r.kind, r.place, r.group, r.lane)) =
    (s.reqs ++ rs).map (fun r => (r.va, r.pa, r.data, r.kind, r.place, r.group, r.lane))

/-- `ld` with a form destination (R106, R250): once its value has landed the instruction completes, with one register
written for each word. -/
def FormLoadLands : Prop := ∀ c f s d x s1 o r fl, globalOp (.ld c f) = some o → o.regs.formDst = some r →
  (Instr.ld c f).wf = true → Issues s c false d x s1 → o.static d.node = none → o.regs.undef d.team d.gr d.act = false →
  o.regs.regIndex x = false → o.regs.emptyRead x = false → o.regs.blocked x = false → o.regs.dstEmpty x = false →
  o.regs.sends.any (fun q => (Tbl.find? x.team.sendq q.1).isNone) = false → o.badForm x = false → s1.formFill x.team.id = some fl → fl.waiting = [] →
  Completes (.ld c f) s x.team.id ((s1.dropFill fl.id).modTeam x.team.id (fun t =>
    { t with form := formPut t.form r (fl.formVals o.words) }))

/-! ### Misaligned addresses (R251, R182) -/

/-- The lowest of the addresses that fail a step. -/
def lowestFailing (vs : List Nat) (fails : Nat → Prop) (a : Nat) : Prop := a ∈ vs ∧ fails a ∧ ∀ b ∈ vs, fails b → a ≤ b

/-- Misaligned: an address that is not a multiple of the width traps the whole group, at the lowest such address, whatever
later step another lane fails (R251 step 1, R182). -/
def MisalignedTraps : Prop := ∀ i o s d x s1 a, memoryOp i = some o → i.wf = true → Issues s o.c false d x s1 → MReads o d x s1 →
  lowestFailing ((laneAccs o x s1).map (fun e => e.va)) (fun v => v % o.bytes ≠ 0) a → CanEnter x s1 →
  Traps i s x .misaligned (BitVec.ofNat 64 a) 0 x.addr

/-- Protection: an address with bits [63:57] set, every address being a multiple of the width (R251 step 2). -/
def HighAddressTraps : Prop := ∀ i o s d x s1 a, globalOp i = some o → i.wf = true → Issues s o.c false d x s1 → MReads o d x s1 →
  (∀ e ∈ laneAccs o x s1, e.va % o.bytes = 0) →
  lowestFailing ((laneAccs o x s1).map (fun e => e.va)) (fun v => 2 ^ 57 ≤ v) a → CanEnter x s1 →
  Traps i s x .protection (BitVec.ofNat 64 a) 0 x.addr

/-- Protection at the scratchpad: an address outside the allocations of Table 10.1 (R182). -/
def ScratchBoundTraps : Prop := ∀ i o s d x s1 a, localOp i = some o → i.wf = true → Issues s o.c false d x s1 → MReads o d x s1 →
  (∀ e ∈ laneAccs o x s1, e.va % o.bytes = 0) →
  lowestFailing ((laneAccs o x s1).map (fun e => e.va)) (fun v => s1.scratchPlace x.node x.team o.bytes v = none) a →
  CanEnter x s1 → Traps i s x .protection (BitVec.ofNat 64 a) 0 x.addr

/-! ### Accesses at their point of order -/

/-- The new value of a read-modify-write of w bits (R252, R187). -/
def combinedValue (op : Nat) (f32 uns : Bool) (w : Nat) (old data cmp : BitVec w) : Nat :=
  if f32 then
    match op with
    | 0 => (fmtF32.addF (plain .rne) false (fmtF32.decode old.toNat) (fmtF32.decode data.toNat)).1
    | 1 => (fmtF32.minMaxF false old.toNat data.toNat).1
    | _ => (fmtF32.minMaxF true old.toNat data.toNat).1
  else
    let less (a b : BitVec w) : Bool := if uns then a.ult b else a.slt b
    match op with
    | 0 => (old + data).toNat
    | 1 => if less data old then data.toNat else old.toNat
    | 2 => if less old data then data.toNat else old.toNat
    | 3 => (old &&& data).toNat
    | 4 => (old ||| data).toNat
    | 5 => (old ^^^ data).toNat
    | 6 => data.toNat
    | _ => if old = cmp then data.toNat else old.toNat

/-- What an access writes over the value `old` that stands at its place; none for a load. -/
def written (r : Req) (old : Nat) : Option Nat :=
  match r.kind with
  | .load _ => none
  | .store => some r.data.toNat
  | .atom op f u _ | .red op f u =>
    some (combinedValue op f u (8 * r.bytes) (BitVec.ofNat _ old) (BitVec.ofNat _ r.data.toNat) (BitVec.ofNat _ r.cmp.toNat))

/-- Byte `a` after an access at address `pa` of `n` bytes has written `v`, little-endian (R3). -/
def afterWrite (before : Nat → Byte) (pa n : Nat) (v : Option Nat) (a : Nat) : Byte :=
  match v with
  | none => before a
  | some v => if pa ≤ a ∧ a < pa + n then BitVec.ofNat 8 (v / 256 ^ (a - pa)) else before a

/-- The result of a load, extended to its registers (R144, R251): a narrow one is sign-extended with SUBOP [0]. -/
def loaded (r : Req) (v : Nat) : List Word :=
  match r.kind with
  | .load true => if r.bytes ≤ 4 then [BitVec.ofInt 32 ((BitVec.ofNat (8 * r.bytes) v).toInt)]
      else (List.range (r.bytes / 4)).map (fun i => BitVec.ofNat 32 (v / 2 ^ (32 * i)))
  | _ => (List.range ((r.bytes + 3) / 4)).map (fun i => BitVec.ofNat 32 (v / 2 ^ (32 * i)))

/-- An access that is next at its place, of a node that stands, with no side-logged access waiting. -/
structure AtPlace (s : State) (req : Nat) (r : Req) (n : Node) : Prop where
  found : s.reqs.find? (fun q => decide (q.id = req)) = some r
  node : s.node? r.node = some n
  ready : s.reqReady r = true
  sides : ∀ c ∈ s.cores, c.2.sidelog = []

/-- The fill that waits for an access that reads takes its value. -/
def Lands (r : Req) (old : Nat) (s s' : State) : Prop := ReqKind.reads r.kind = true →
  ∀ fl ∈ s.fills, r.fill = some fl.id → ∃ fl' ∈ s'.fills, fl'.id = fl.id ∧ r.id ∉ fl'.waiting ∧
    ∀ i w, (loaded r old)[i]? = some w → ∃ b, (r.group, b + i, r.lane, w) ∈ fl'.vals

/-- The issuing core's L1 serves the access: it may, and holds the sector, fresh and filled by the same compartment (R244,
R370). -/
def served (s : State) (r : Req) : Bool := Req.cacheable r && Req.nearScope r && s.l1Hit r

/-- A load that is no acquire, of a page that the L1s may hold: it may return the value before a store that its core does not see. -/
def relaxedLoad (r : Req) : Bool := Req.cacheable r && !acquires r.order && (match r.kind with
  | .load _ => true
  | _ => false)

/-- MEMORY_REQUEST of an access to DRAM of the package, not through a shadow or a replica, that reads no poison: the value
read is the L1's where that serves the access, else that of the home slice, or for a relaxed load that before a store which the core
does not see; the bytes written are those of the new value, every other byte stays, and the value read goes to the fill (R244, R245,
R251, R252, R253, R260). -/
def HomeAccess : Prop := ∀ s req r n, AtPlace s req r n → r.place = .home → r.shadow = false → r.stable = false →
  (ReqKind.reads r.kind = true → served s r = false → ((s.fetchLines r.comp r.pa r.bytes r.home).poisoned r.pa r.bytes) = false) →
  let old := bytesToNat (if served s r then (s.core r.core).l1Bytes r.pa r.bytes
    else if relaxedLoad r then s.lateBytes r.core r.comp r.pa (s.bytes r.pa r.bytes) else s.bytes r.pa r.bytes)
  ∃ s' e, exec (.memoryRequest req) s = .next s' ∧ s' = (if r.parcel.isSome then e else e.tryEnd r.team) ∧
    (∀ a, s'.byte a = afterWrite s.byte r.pa r.bytes (written r old) a) ∧ r ∉ s'.reqs ∧ Lands r old s e

/-- What performing an access answers: the state `e`, with the end of a team whose work is done; the access is gone. -/
def Answers (i : Instr) (s : State) (r : Req) (e : State) : Prop :=
  exec i s = .next (if r.parcel.isSome then e else e.tryEnd r.team) ∧
  ∀ q ∈ (if r.parcel.isSome then e else e.tryEnd r.team : State).reqs, q.id ≠ r.id

/-- MEMORY_REQUEST completes for every access that may be performed, whatever its kind and place, but for one to a peer's
scratchpad: the access has left the queue. -/
def RequestCompletes : Prop := ∀ s req r n, AtPlace s req r n → (∀ i, r.place ≠ .peer i) →
  ∃ e, Answers (.memoryRequest req) s r e

/-- MEMORY_REQUEST in a pinned carve-out (R243): the bytes that stand there, and those written, are the core's. -/
def CarveAccess : Prop := ∀ s req r n, AtPlace s req r n → r.place = .port → r.shadow = false → s.carveClash r.comp r.pa = false →
  let k := carveCore r.pa
  let old := bytesToNat ((List.range r.bytes).map (fun i => Tbl.get 0#8 (s.core k).carve (carveOff r.pa + i)))
  ∃ e, Answers (.memoryRequest req) s r e ∧ (∀ a, e.byte a = s.byte a) ∧ Lands r old s e ∧
    ∀ a, Tbl.get 0#8 (e.core k).carve a =
      afterWrite (fun b => Tbl.get 0#8 (s.core k).carve b) (carveOff r.pa) r.bytes (written r old) a

/-- MEMORY_REQUEST to another package (R243): the bytes that stand there, and those written. -/
def OtherAccess : Prop := ∀ s req r n, AtPlace s req r n → r.place = .other → r.shadow = false →
  let old := bytesToNat (s.bytes r.pa r.bytes)
  ∃ e, Answers (.memoryRequest req) s r e ∧ Lands r old s e ∧
    ∀ a, e.byte a = afterWrite s.byte r.pa r.bytes (written r old) a

/-- MEMORY_REQUEST in the host window (R388): the bytes of host memory, a free value where no agent of the model has written
(log entry 5). No byte of the domain's memory changes. -/
def HostAccess : Prop := ∀ s req r n, AtPlace s req r n → r.place = .host → r.shadow = false →
  let h := s.hostAddr n.world r.pa
  let old := bytesToNat (s.hostBytes h r.bytes)
  ∃ e, Answers (.memoryRequest req) s r e ∧ (∀ a, e.byte a = s.byte a) ∧ Lands r old s e ∧
    ∀ a, Tbl.get none e.hostMem a = match written r old with
      | some v => if h ≤ a ∧ a < h + r.bytes then some (BitVec.ofNat 8 (v / 256 ^ (a - h))) else Tbl.get none s.hostMem a
      | none => Tbl.get none s.hostMem a

/-- MEMORY_REQUEST at a register of the world's window (R391): a load gives its value, a store writes it. -/
def RegisterAccess : Prop := ∀ s req r n, AtPlace s req r n → r.place = .register → r.width = .b8 →
  (∀ b, r.kind = .load b → ∃ e, Answers (.memoryRequest req) s r e ∧ (∀ a, e.byte a = s.byte a) ∧
    Lands r (s.windowRead n.world (windowOff r.pa)).toNat s e ∧ e.worlds = s.worlds) ∧
  (r.kind = .store → ∃ e, Answers (.memoryRequest req) s r e ∧ (∀ a, e.byte a = s.byte a) ∧
    ∀ w, e.world w = (s.windowWrite n.world (windowOff r.pa) r.data).world w)

/-- MEMORY_REQUEST in the parameter page (R324): the parameters, and zero beyond PLEN. -/
def ParamAccess : Prop := ∀ s req r n b, AtPlace s req r n → r.place = .param → r.shadow = false → r.kind = .load b →
  ∃ e, Answers (.memoryRequest req) s r e ∧ (∀ a, e.byte a = s.byte a) ∧
    Lands r (bytesToNat ((List.range r.bytes).map (fun i =>
      if r.va % 65536 + i < n.ent.plen then n.params.getD (r.va % 65536 + i) 0#8 else 0#8))) s e

/-- MEMORY_REQUEST of a store in an output page that the node has its own version of (R360): the version takes the bytes, and
no byte of memory changes. -/
def ShadowStore : Prop := ∀ s req r n, AtPlace s req r n → r.place = .home → r.shadow = true → r.kind = .store →
  (Tbl.find? n.shadowPages (pageKey .home r.pa)).isSome = true →
  ∃ e, Answers (.memoryRequest req) s r e ∧ (∀ a, e.byte a = s.byte a) ∧ ∃ n', e.node? r.node = some n' ∧
    ∀ a, Tbl.find? n'.shadow a = if r.pa ≤ a ∧ a < r.pa + r.bytes then some (BitVec.ofNat 8 (r.data.toNat / 256 ^ (a - r.pa)))
      else Tbl.find? n.shadow a

/-- MEMORY_REQUEST at the scratchpad port of the team (R184 to R187). -/
def PortAccess : Prop := ∀ s req r n t, AtPlace s req r n → r.place = .scratch → s.team? r.team = some t →
  let old := bytesToNat ((List.range r.bytes).map (fun i => Tbl.get 0#8 t.scratch (r.pa + i)))
  ∃ s' e, exec (.memoryRequest req) s = .next s' ∧ s' = (if r.parcel.isSome then e else e.tryEnd r.team) ∧
    (∀ a, s'.byte a = s.byte a) ∧ r ∉ s'.reqs ∧ Lands r old s e ∧
    ∃ t', e.team? r.team = some t' ∧
      ∀ a, Tbl.get 0#8 t'.scratch a = afterWrite (fun b => Tbl.get 0#8 t.scratch b) r.pa r.bytes (written r old) a

/-- PEER_ACCESS_RELAY completes whatever the access, unless the peer is pre-empted, when the access waits (R183). -/
def RelayCompletes : Prop := ∀ s req r n i, AtPlace s req r n → r.place = .peer i →
  (s.peer n.id i ≠ .waits → ∃ e, Answers (.peerAccessRelay req) s r e) ∧
  (s.peer n.id i = .waits → exec (.peerAccessRelay req) s = .next s)

/-- PEER_ACCESS_RELAY (R183): to a placed peer the access performs at its port; to one that has ended or parked a load
returns zero and nothing is written. -/
def PeerAccess : Prop := ∀ s req r n i, AtPlace s req r n → r.place = .peer i →
  (∀ t, s.peer n.id i = .placed t → s.team? t.id = some t →
    let old := bytesToNat ((List.range r.bytes).map (fun j => Tbl.get 0#8 t.scratch (r.pa + j)))
    ∃ s' e, exec (.peerAccessRelay req) s = .next s' ∧ s' = (if r.parcel.isSome then e else e.tryEnd r.team) ∧
      (∀ a, s'.byte a = s.byte a) ∧ r ∉ s'.reqs ∧ Lands r old s e ∧ ∃ t', e.team? t.id = some t' ∧
        ∀ a, Tbl.get 0#8 t'.scratch a = afterWrite (fun b => Tbl.get 0#8 t.scratch b) r.pa r.bytes (written r old) a) ∧
  (s.peer n.id i = .gone → ∃ s' e, exec (.peerAccessRelay req) s = .next s' ∧
    s' = (if r.parcel.isSome then e else e.tryEnd r.team) ∧ (∀ a, s'.byte a = s.byte a) ∧ r ∉ s'.reqs ∧ Lands r 0 s e ∧
    e.teams = s.teams)

/-- REGISTER_FILL (R118): the registers that a producer's results go to take them and are full; nothing else changes but the
team's end. -/
def FillDelivers : Prop := ∀ s fill f, s.fills.find? (fun x => decide (x.id = fill)) = some f → f.waiting = [] → f.form = false →
  f.sends = [] → (∀ v ∈ f.vals, v.2.2.1 < 32) →
  ∃ e, exec (.registerFill fill) s = .next (e.tryEnd f.team) ∧ (∀ a, e.byte a = s.byte a) ∧ e.reqs = s.reqs ∧
    (∀ g ∈ e.fills, g.id ≠ fill) ∧
    ∀ gn gr, groupAt s f.team gn = some gr → ∃ gr', groupAt e f.team gn = some gr' ∧
      (∀ r l, l < 32 → gr'.reg r l =
        if (gn, r) ∈ f.regs then ((f.vals.filter (fun v => decide (v.1 = gn ∧ v.2.1 = r ∧ v.2.2.1 = l))).getLast?.map (fun v => v.2.2.2)).getD
          (gr.reg r l) else gr.reg r l) ∧
      gr'.kval = gr.kval ∧ gr'.lflags = gr.lflags ∧ gr'.trap = gr.trap ∧
      gr'.empty = (f.regs.filter (fun e => decide (e.1 = gn))).foldl (fun l e => l.erase e.2) gr.empty

/-! ### fence, and which stores a core sees (R244, R255 to R262, R268) -/

/-- A core without what tells which stores it sees, and the marks of its side log. -/
def coreBut (c : Core) : Core := { c.still with aware := 0 }

/-- `fence` completes once every side-logged access has performed (R237), the release part has nothing to wait for and the acquire part
no read that is out. With the acquire part at .clu or wider the core's L1 is empty, and nothing else changes but which stores the core
sees: with the acquire part it sees those before every release whose value its groups have read and that they meet, and by an sc
fence those before every earlier sc fence that the first of its groups meets; with nothing to meet it sees no more. The release part counts for the groups' later
writes (R256, R258, R262; log entry 73). -/
def FenceOrders : Prop := ∀ c f s d x s1, (Instr.fence c f).wf = true → Issues s c false d x s1 → x.sideQuiet s1 = true →
  (releases f.order = true → x.quiet s1 = true) → (acquires f.order = true → s1.readsOut x = false) →
  let acts := x.members.filter (fun m => decide (m.act ≠ 0#32))
  let meet (m : Member) (h : Head) : Bool := h.meets (x.team.agent m.g) f.mscope
  ∃ s', exec (.fence c f) s = .next s' ∧ s'.plain.still x.team.id = s1.plain.still x.team.id ∧ (∀ a, s'.byte a = s1.byte a) ∧
    (∀ k, coreBut (s'.core k) =
      coreBut (if k = x.team.core ∧ acquires f.order = true ∧ scopeWide f.mscope = true then { s1.core k with l1 := [] } else s1.core k)) ∧
    (∀ k, (s1.core k).aware ≤ (s'.core k).aware ∧ (k ≠ x.team.core → (s'.core k).aware = (s1.core k).aware)) ∧
    (acquires f.order = true → ∀ m ∈ acts, ∀ h ∈ s1.readsOf x.team.id m.g, meet m h = true → h.step ≤ (s'.core x.team.core).aware) ∧
    (f.sub.getLsbD 0 = true → ∀ m, acts.head? = some m → ∀ h ∈ s1.fences, meet m h = true → h.step ≤ (s'.core x.team.core).aware) ∧
    (∀ m, acts = [m] → (acquires f.order = true → ∀ h ∈ s1.readsOf x.team.id m.g, meet m h = false) →
      (f.sub.getLsbD 0 = true → ∀ h ∈ s1.fences, meet m h = false) → (s'.core x.team.core).aware = (s1.core x.team.core).aware) ∧
    (∀ m ∈ acts, releases f.order = true → (x.team.id, m.g, f.mscope) ∈ s'.rels)

/-- The older value that a relaxed load may return (R244, R259, R260): it stands before a store to the unit, of its compartment, less
than 4,096 clocks ago, which the core does not see, and no later store to the unit is one that it sees. -/
def OldValues : Prop := ∀ (s : State) core comp u l, s.oldUnit core comp u = some l →
  l ∈ s.late ∧ l.unit = u ∧ l.comp = comp ∧ (s.cyc core - l.cycs.getD core 0).toNat < 4096 ∧ s.sees core l = false ∧
  ∃ newer rest, s.late = newer ++ l :: rest ∧ ∀ x ∈ newer, x.unit = u → s.sees core x = false

/-- A load at its home slice that the L1 does not serve and that reads no poison. -/
structure HomeLoad (s : State) (req : Nat) (r : Req) (n : Node) : Prop where
  at_ : AtPlace s req r n
  place : r.place = .home ∧ r.shadow = false ∧ r.stable = false
  load : ∃ b, r.kind = .load b
  aligned : r.bytes ≤ 8 ∧ r.pa % r.bytes = 0
  unserved : served s r = false
  clean : ((s.fetchLines r.comp r.pa r.bytes r.home).poisoned r.pa r.bytes) = false

/-- Coherence (R259): once a load of a core has returned a unit's value, or the one before some store, the core sees every store before
that, and returns no older value again. -/
def ReadsKeepOrder : Prop := ∀ s req r n, HomeLoad s req r n → ∃ e, Answers (.memoryRequest req) s r e ∧
  ∀ l ∈ e.late, l.unit ∈ unitsOf r.pa r.bytes →
    (∀ y, relaxedLoad r = true → s.oldUnit r.core r.comp l.unit = some y → l.step < y.step) → e.sees r.core l = true

/-- An acquire synchronises with the releases in the coherence order of what it reads that include it in their scope and that its own
scope includes, and with no other: the core then sees what was stored before them (R23, R255, R256, R258). -/
def AcquiresMeet : Prop := ∀ s req r n, HomeLoad s req r n → ∃ e, Answers (.memoryRequest req) s r e ∧
  (acquires r.order = true → ∀ h ∈ s.headsAt r.pa r.bytes, (s.agentOf r).inScope h.agent h.scope = true →
    h.agent.inScope (s.agentOf r) r.mscope = true → h.step ≤ (e.core r.core).aware) ∧
  ((acquires r.order = true → ∀ h ∈ s.headsAt r.pa r.bytes, (s.agentOf r).inScope h.agent h.scope = false ∨
    h.agent.inScope (s.agentOf r) r.mscope = false) → (e.core r.core).aware = (s.core r.core).aware)

/-- A release store leaves itself in the coherence order of its bytes, with its lanes' agent and its scope, for acquires to meet (R256);
the store may stay unseen by other cores. -/
def ReleasesMark : Prop := ∀ s req r n, AtPlace s req r n → r.place = .home → r.shadow = false → (r.home = 0#2 ∨ r.home = 2#2) →
  r.kind = .store → releases r.order = true → (∀ l ∈ s.late, l.step ≤ s.fresh) →
  (s.readMem r.comp (r.pa / 8 * 8) (8 * (unitsOf r.pa r.bytes).length) r.home).2.1 = false →
  ∃ e, Answers (.memoryRequest req) s r e ∧ ∀ i < r.bytes,
    { agent := s.agentOf r, scope := r.mscope, step := s.fresh : Head } ∈ e.headsAt (r.pa + i) 1

end Sys2Proof.Claims
end

