-- ==== Sys2Proof/Certificates/Slice0/EngineClaims.lean ====
section
/-! DEFINITION. The engine and matrix instructions as the rules of spec/14_visibility.md, spec/10_local_memory.md,
spec/11_matrix.md, spec/15_claims.md, spec/16_channels.md and spec/17_launch.md give them: for each its operands, when it
completes, its effect, and the word that it returns in every active lane. -/

namespace Sys2Proof.Claims

open Sys2Proof Sys2Proof.Machine

/-- An engine instruction as its rules give it. The operand values are those of the lowest active lane of the lowest member
(R45). -/
structure Eng where
  regs : VOp
  legal : Node → Bool := fun _ => true
  ready : Ctx → List Nat → State → Prop
  effect : Ctx → List Nat → State → State := fun _ _ s => s
  value : Ctx → List Nat → State → Nat := fun _ _ _ => 0

/-- Its registers may be read and written, and its sends have their credits (R118, R119, R126). -/
structure EReady (o : VOp) (d : Stand) (x : Ctx) (s : State) : Prop where
  fields : o.static d.node = none
  defined : o.undef d.team d.gr d.act = false
  index : o.regIndex x = false
  read : o.emptyRead x = false
  form : o.formWrite x s = false
  bound : o.sends.any (fun q => (Tbl.find? x.team.sendq q.1).isNone) = false
  full : o.blocked x = false ∧ o.dstEmpty x = false
  credit : o.sends.all (fun q => s.credited x q.1 q.2) = true ∧ (o.sends ≠ [] → x.quiet s = true)

/-- The operand values. -/
def firstValues (o : VOp) (x : Ctx) (s : State) : List Nat := o.srcs.map (x.readFirst s)

/-- The word `v` goes to the destination in every active lane, and messages that operands took leave their queues. -/
def finished (o : VOp) (x : Ctx) (v : Nat) (s : State) : State :=
  consumed o x (o.deliver x (x.activeLanes.map (fun e => (e.1, e.2, v, 0))) s)

/-- Each well-formed instruction of a table completes when its registers and its rule allow it, with its effect and its word,
and nothing else changed but control. -/
def Completing (table : Instr → Option Eng) : Prop :=
  ∀ i e, table i = some e → i.wf = true → ∀ s d x s1, Issues s e.regs.c false d x s1 → e.legal d.node = true →
    EReady e.regs d x s1 → e.ready x (firstValues e.regs x s1) s1 →
    Completes i s x.team.id
      (finished e.regs x (e.value x (firstValues e.regs x s1) s1) (e.effect x (firstValues e.regs x s1) s1))

/-- An instruction of R124 or R291 has not been performed since the resume point that its groups restarted from. -/
def anew (k : RecKind) (obj : Nat) (x : Ctx) : Prop := x.recorded k obj = none

/-! ### Barrier objects (R269 to R273) -/

/-- The object that FLAGS and OBJ name: 0 to 15 the team's, 16 up the cluster's; a cluster object's number is below 8. -/
def objectNo (f : FmtE) : Nat := if f.flags.getLsbD 3 then 16 + f.obj.toNat else f.obj.toNat
def objectOk (f : FmtE) : Bool := !f.flags.getLsbD 3 || decide (f.obj.toNat < 8)

/-- One arrival: PENDING falls by one; at zero the phase completes and PENDING is COUNT again (R272). -/
def arrived (b : BarObj) : BarObj :=
  if b.pending ≤ 1 then { b with pending := b.count, phase := b.phase + 1 } else { b with pending := b.pending - 1 }

/-- The wait count of a member's group. -/
def waitOf (x : Ctx) (m : Member) (o : Nat) : Word := Tbl.get 0#32 (x.group m).waits o

/-- A phase that the wait count has not consumed is complete: PHASE − W is from 1 to 2^31 − 1 (R272). -/
def phaseOver (phase w : Word) : Prop := 1 ≤ (phase - w).toNat ∧ (phase - w).toNat < 2 ^ 31

/-- An acquire at `.clu` or wider empties the L1 of the core (R244). -/
def acquired (sc : MScope) (core : Nat) (s : State) : State :=
  if scopeWide sc then s.modCore core (fun k => { k with l1 := [] }) else s

/-- The members' arrivals are releases at the object's scope, which its waiters may meet (R273). -/
def arrivals (x : Ctx) (b : BarObj) (s : State) : List Head :=
  s.mergeHeads (x.members.map (fun m => { agent := x.team.agent m.g, scope := b.scope, step := s.fresh })) b.heads

/-- The acquire of `bar.wait`: the L1 is emptied, and each member synchronises with the arrivals of which it is in the scope, and they
in its own (R23, R256, R273). -/
def waited (x : Ctx) (b : BarObj) (s : State) : State :=
  x.members.foldl (fun st m => st.sync (x.team.agent m.g) b.scope b.heads) (acquired b.scope x.team.core s)

def barrierEng : Instr → Option Eng
  | .barArrive c f => some
    { regs := engRegs c f [], legal := fun _ => objectOk f,
      ready := fun x _ s => (barGet x.node x.team (objectNo f)).init = true ∧ x.quiet s = true,
      effect := fun x _ s =>
        let b := barGet x.node x.team (objectNo f)
        s.barSet x.node x.team (objectNo f) { arrived b with heads := arrivals x b s } }
  | .barDrop c f => some
    { regs := engRegs c f [], legal := fun _ => objectOk f,
      ready := fun x _ s =>
        let b := barGet x.node x.team (objectNo f)
        b.init = true ∧ b.count ≠ 1 ∧ x.quiet s = true
      effect := fun x _ s =>
        let b := barGet x.node x.team (objectNo f)
        s.barSet x.node x.team (objectNo f) { arrived { b with count := b.count - 1 } with heads := arrivals x b s } }
  | .barWait c f => some
    { regs := engRegs c f [], legal := fun _ => objectOk f,
      ready := fun x _ _ =>
        let b := barGet x.node x.team (objectNo f)
        anew .barWait (objectNo f) x ∧ b.init = true ∧ ∀ m ∈ x.members, phaseOver b.phase (waitOf x m (objectNo f))
      effect := fun x _ s => waited x (barGet x.node x.team (objectNo f))
        (x.members.foldl (fun st m => st.modGroup x.team.id m.g (fun g =>
          { g with waits := Tbl.set 0#32 g.waits (objectNo f) (waitOf x m (objectNo f) + 1) })) s) }
  | .barTest c f => some
    { regs := engRegs c f [], legal := fun _ => objectOk f,
      ready := fun x _ _ => (barGet x.node x.team (objectNo f)).init = true ∨ 16 ≤ objectNo f,
      value := fun x _ _ =>
        let b := barGet x.node x.team (objectNo f)
        if b.init then (b.phase - ((x.members.head?.map (fun m => waitOf x m (objectNo f))).getD 0#32)).toNat else 0 }
  | .barinit c f => some
    { regs := engRegs c f [engSrc f.opa], legal := fun _ => objectOk f,
      ready := fun x vs s =>
        anew .barinit (objectNo f) x ∧ 1 ≤ vs.headD 0 ∧ vs.headD 0 ≤ 65535 ∧
        (f.flags.getLsbD 4 = true → x.team.tx = 0 ∧ x.team.ty = 0 ∧ x.team.tz = 0 ∧ x.node.desc.cores = true) ∧
        (if f.flags.getLsbD 3 then x.team.rank = x.team.lead ∧ (barGet x.node x.team (objectNo f)).init = false
         else x.team.waitsOn (objectNo f) = false ∧ s.arrivalPending x.team (objectNo f) = false)
      effect := fun x vs s => s.initBar x f (vs.headD 0) }
  | _ => none

/-- What `barinit` of a team object leaves (R271): INIT, COUNT and PENDING the operand, PHASE 0, and every wait count of
the team for the object 0. -/
def TeamObjectFresh : Prop := ∀ (s : State) (x : Ctx) (f : FmtE) (n : Nat) (t : Team),
  f.flags.getLsbD 3 = false → f.flags.getLsbD 4 = false → s.team? x.team.id = some t →
  ∃ t', (s.initBar x f n).team? x.team.id = some t' ∧
    (let b := Tbl.get BarObj.free t'.bars f.obj.toNat
     b.init = true ∧ b.count = n ∧ b.pending = n ∧ b.phase = 0#32) ∧
    (∀ o, o ≠ f.obj.toNat → Tbl.get BarObj.free t'.bars o = Tbl.get BarObj.free t.bars o) ∧
    ∀ g ∈ t'.groups, Tbl.get 0#32 g.waits f.obj.toNat = 0#32

/-- `n` arrivals at an object whose PENDING is COUNT complete ⌊n / COUNT⌋ phases and leave COUNT − n mod COUNT arrivals of
the current one (R272). -/
def PhasesCount : Prop := ∀ (b : BarObj) (n : Nat), 1 ≤ b.count → b.pending = b.count →
  ((fun c => BarObj.arrive c)^[n] b).phase = b.phase + BitVec.ofNat 32 (n / b.count) ∧
  ((fun c => BarObj.arrive c)^[n] b).pending = b.count - n % b.count ∧ ((fun c => BarObj.arrive c)^[n] b).count = b.count

/-! ### Reservations, banks and the matrix unit (R188 to R194, R216 to R221) -/

/-- A row access of `ald` or `ast` (R217): multiples of 32, a pitch of at least the row, and the last byte inside the
allocation. -/
def rowsOk (n : Node) (addr pitch width : Nat) : Prop :=
  addr % 32 = 0 ∧ pitch % 32 = 0 ∧ width ≤ pitch ∧ addr < 2 ^ 31 ∧ addr + 127 * pitch + width ≤ n.desc.scratch

/-- The bank that OBJ names is held, and the unit's queue has a place (R209, R216). -/
def canIssue (f : FmtE) (x : Ctx) (s : State) : Prop :=
  (Tbl.find? x.team.banks f.obj.toNat).isSome = true ∧ ((s.core x.team.core).matq.filter (fun o => !o.started)).length < 4

/-- An operation without an A operand. -/
def opOf (x : Ctx) (bank : Nat) (kind : MatKind) (id : Nat) (fill : Option Nat) : MatOp :=
  { id := id, team := x.team.id, groups := x.members.map (fun m => (m.g, m.act)), bank := bank, kind := kind, a := [], sa := [],
    arrive := none, latch := none, started := false, consumed := false, b := [], torn := 0, res := none, perturb := none, fill := fill }

/-- It stands last in the core's queue. -/
def queued (x : Ctx) (o : MatOp) (s : State) : State := s.modCore x.team.core (fun k => { k with matq := k.matq ++ [o] })

/-- The target type and rounding of `ast` (R218). -/
def astTy (f : FmtE) : ElemTy := Decode.tyOf (f.flags.setWidth 4)
def astRnd (f : FmtE) : Rnd := (Decode.rndOf (BitVec.ofNat 3 (f.flags.toNat / 32))).getD .rne
def scaledTy (ty : ElemTy) : Bool := decide (ty = .e4m3 ∨ ty = .e5m2 ∨ ty = .e2m1)

/-- The reservation that `obres` names (R190). -/
def reservation (f : FmtE) (vs : List Nat) : Reservation :=
  { base := vs.getD 0 0, len := vs.getD 1 0, fmt := Decode.tyOf (f.flags.setWidth 4), scaleOff := vs.getD 2 0,
    nk := f.flags.getLsbD 4, bcast := f.flags.getLsbD 6 }

/-- The limits of Table 10.5 and R191. -/
def reservationOk (n : Node) (t : Team) (r : Reservation) : Prop :=
  r.base % 65536 = 0 ∧ r.len % 128 = 0 ∧ 128 ≤ r.len ∧ r.base + r.len ≤ n.desc.scratch ∧ r.scaleOff % 32 = 0 ∧
  r.scaleOff < r.len ∧ (∀ e ∈ t.obs, e.2.base + e.2.len ≤ r.base ∨ r.base + r.len ≤ e.2.base) ∧
  (r.bcast = true → n.desc.bcast = true ∧ t.rank = t.lead)

/-- The registers of `aget`: consecutive lane registers from the destination (R219). -/
def agetFirst (f : FmtE) : Option Nat := match opndOf f.sdst with
  | .lane r => some r
  | _ => none

def matrixEng : Instr → Option Eng
  | .aalloc c f => some
    { regs := engRegs c f [], legal := fun n => decide (f.obj.toNat < n.desc.banks),
      ready := fun x _ s => anew .aalloc f.obj.toNat x ∧ Tbl.find? x.team.banks f.obj.toNat = none ∧
        s.banksUsed x.team.core < 16 ∧ s.olderWaits x.team true = false
      effect := fun x _ s => s.modTeam x.team.id (fun t =>
        { t with banks := Tbl.put t.banks f.obj.toNat { data := [], perturb := none } }) }
  | .afree c f => some
    { regs := engRegs c f [],
      ready := fun x _ s => (Tbl.find? x.team.banks f.obj.toNat).isSome = true ∧ s.bankOps x.team f.obj.toNat = []
      effect := fun x _ s => s.modTeam x.team.id (fun t => { t with banks := Tbl.del t.banks f.obj.toNat }) }
  | .obres c f => some
    { regs := engRegs c f [engSrc f.opa, engSrc f.opb, engSrc f.opc],
      ready := fun x vs s => anew .obres f.obj.toNat x ∧ Tbl.find? x.team.obs f.obj.toNat = none ∧
        reservationOk x.node x.team (reservation f vs) ∧ s.obsUsed x.team.core < 16 ∧ s.olderWaits x.team false = false
      effect := fun x vs s => s.modTeam x.team.id (fun t => { t with obs := Tbl.put t.obs f.obj.toNat (reservation f vs) }) }
  | .obrel c f => some
    { regs := engRegs c f [],
      ready := fun x _ s => (Tbl.find? x.team.obs f.obj.toNat).isSome = true ∧ s.obBusy x.team.id f.obj.toNat = false
      effect := fun x _ s => s.modTeam x.team.id (fun t => { t with obs := Tbl.del t.obs f.obj.toNat }) }
  | .ald c f => some
    { regs := engRegs c f (if f.flags.getLsbD 0 then [] else [engSrc f.opa, engSrc f.opb]),
      ready := fun x vs s => canIssue f x s ∧ (f.flags.getLsbD 0 = false → rowsOk x.node (vs.getD 0 0) (vs.getD 1 0) 768)
      effect := fun x vs s => queued x (opOf x f.obj.toNat (.ald (f.flags.getLsbD 0) (vs.getD 0 0) (vs.getD 1 0)) s.nextId none)
        { s with nextId := s.nextId + 1 } }
  | .ast c f => some
    { regs := engRegs c f ([engSrc f.opa, engSrc f.opb] ++ (if scaledTy (astTy f) then [engSrc f.opc] else [])),
      ready := fun x vs s => canIssue f x s ∧ rowsOk x.node (vs.getD 0 0) (vs.getD 1 0) (24 * tyBits (astTy f)) ∧
        (scaledTy (astTy f) = true → vs.getD 2 0 < 2 ^ 31 ∧ vs.getD 2 0 + 1021 < x.node.desc.scratch)
      effect := fun x vs s =>
        let s1 := queued x (opOf x f.obj.toNat
          (.ast (astTy f) (f.flags.getLsbD 4) (astRnd f) (vs.getD 0 0) (vs.getD 1 0) (vs.getD 2 0) x.team.dph) s.nextId none)
          { s with nextId := s.nextId + 1 }
        if astRnd f = .rdi then s1.modTeam x.team.id (fun t => { t with dph := t.dph + 1 }) else s1 }
  | .aget c f => some
    { regs := { engRegs c f [engSrc f.opa] with c := Machine.Common.noW c, dst := 0 },
      legal := fun n => quadMembers n c.scope && (match agetFirst f with
        | some r => decide (r + (f.flags.toNat % 64 + 1) ≤ n.desc.regs)
        | none => false),
      ready := fun x vs s => canIssue f x s ∧ vs.getD 0 0 + (f.flags.toNat % 64 + 1) ≤ 192 ∧
        ∀ m ∈ x.members, m.act ≠ 0#32 → ∀ i < f.flags.toNat % 64 + 1, (x.group m).isEmpty ((agetFirst f).getD 0 + i) = false
      effect := fun x vs s =>
        let n := f.flags.toNat % 64 + 1
        let regs := (x.members.filter (fun m => decide (m.act ≠ 0#32))).flatMap (fun m =>
          (List.range n).map (fun i => (m.g, (agetFirst f).getD 0 + i)))
        let r := ({ s with nextId := s.nextId + 1 } : State).addFill x.team.id regs [] [s.nextId]
        queued x (opOf x f.obj.toNat (.aget (vs.getD 0 0) n) s.nextId (some r.1)) r.2 }
  | .mwait c f => some
    { regs := engRegs c f [],
      ready := fun x _ s => (Tbl.find? x.team.banks f.obj.toNat).isSome = true ∧
        ∀ o ∈ s.bankOps x.team f.obj.toNat, (∃ e ∈ o.groups, ∃ m ∈ x.members, m.g = e.1) →
          f.flags.getLsbD 0 = false ∧ o.consumed = true }
  | .mperturb c f => some
    { regs := engRegs c f [engSrc f.opa, engSrc f.opb, engSrc f.opc],
      ready := fun x vs s => (Tbl.find? x.team.banks f.obj.toNat).isSome = true ∧ vs.getD 0 0 < 128 ∧ vs.getD 1 0 < 192 ∧
        s.bankOps x.team f.obj.toNat = []
      effect := fun x vs s => s.modTeam x.team.id (fun t => { t with banks := Tbl.modify t.banks f.obj.toNat (fun b =>
        { b with perturb := some (vs.getD 0 0, vs.getD 1 0, BitVec.ofNat 32 (vs.getD 2 0)) }) }) }
  | _ => none

/-- `mma` that is not broadcast (R201 to R206): it issues with the A fragment of its registers, or of a latch slot that
holds it, into the queue of its core's unit. -/
def MmaIssues : Prop := ∀ c f s d x s1 r, (Instr.mma c f).wf = true → Issues s c false d x s1 → f.bcast = false →
  mmaStatic c f d.node = none → mmaCheck x f none = some r → mmaEmpty c f x = false → (s1.core x.team.core).queued < 4 →
  Completes (.mma c f) s x.team.id (mmaIssue c f x { id := s1.nextId, src := x.team.id, res := r, tile := f.boff.toNat / 384 }
    { s1 with nextId := s1.nextId + 1 })

/-- What `mma` takes at issue (R199, R205): register ABASE + i of row 32q + l is that of lane l of the member whose group is
q modulo 4, whether the slot held the fragment or not is the latch's matter; the operation names its bank and tile. -/
def FragmentTaken : Prop := ∀ c f x s d, (x.team.latch (slotOfA f.abase.toNat)).held = none →
  ∀ o, ((mmaIssue c f x d s).core x.team.core).matq.getLast? = some o →
    o.id = d.id ∧ o.bank = f.acc.toNat ∧ o.kind = .mma f.afmt f.mode d.src f.bres.toNat d.tile f.bcast ∧
    o.res = d.res ∧ o.latch = none ∧
    ∀ row i, row < 128 → i < 16 → ∀ g gr, (rowGroups x.node c.scope).find? (fun g => decide (g % 4 = row / 32)) = some g →
      x.team.groups[g]? = some gr → Tbl.get 0#32 o.a (16 * row + i) = gr.reg (f.abase.toNat + i) (row % 32)

/-! ### Claims (R292 to R299) -/

/-- The claim that a number names, of the node or of the team (R275). -/
def theClaim (f : FmtE) (x : Ctx) : Claim := claimOf x.node x.team f.obj.toNat

/-- An acquire that synchronises in any case: the L1 of the core is empty, and it sees every store (R244, R258). -/
def allSeen (core : Nat) (s : State) : State := s.modCore core (fun k => { k with l1 := [], aware := s.fresh })

/-- An acquire at a claim's scope (R286). -/
def claimAcquired (cl : Claim) (core : Nat) (s : State) : State :=
  match cl.desc with
  | some d => if scopeWide d.scope then allSeen core s else s
  | none => s

/-- Flows of the team on the claim. -/
def flowsOf (s : State) (x : Ctx) (o : Nat) : List Flow := s.flows.filter (fun w => decide (w.team = x.team.id ∧ w.claim = o))

/-- A state word of `cstat` (R297), from Table 15.5 and Table 15.7. -/
def stateCode : ClaimState → Nat
  | .free => 0 | .walking => 1 | .held => 2 | .flowing => 3 | .dormant => 4 | .revoked => 5 | .faulted => 6
def statusCode : ClaimStatus → Nat
  | .ok => 0 | .fragmented => 1 | .full => 2 | .severed => 3

/-- A circular buffer with every slot free (R298). -/
def emptyBuffer (base size count : Nat) : CBuf :=
  { base := base, size := size, count := count, free := count, inflight := 0, filled := 0, taken := 0, head := 0, tail := 0 }

/-- The oldest filled slot is taken; the oldest taken one is free again (R299). -/
def tookSlot (b : CBuf) : CBuf := { b with filled := b.filled - 1, taken := b.taken + 1, tail := (b.tail + 1) % b.count }
def gaveSlot (b : CBuf) : CBuf := { b with taken := b.taken - 1, free := b.free + 1 }

def claimEng : Instr → Option Eng
  | .claim c f => some
    { regs := engRegs c f [engAddrSrc f], legal := fun n => !n.isClaim f.obj.toNat,
      ready := fun x _ _ =>
        (x.team.claim f.obj.toNat).walker = some ((x.members.head?.map (fun m => m.g)).getD 0, x.addr) ∧
        ∃ w, (x.team.claim f.obj.toNat).outcome = .done w
      effect := fun x _ s => s.modClaim x.team.id f.obj.toNat (fun y => { y with walker := none, outcome := .none })
      value := fun x _ _ => match (x.team.claim f.obj.toNat).outcome with
        | .done w => w
        | _ => 0 }
  | .flow c f => some
    { regs := engRegs c f [engSrc f.opa, engSrc f.opb], legal := fun n => !n.isClaim f.obj.toNat,
      ready := fun x vs _ =>
        let cl := x.team.claim f.obj.toNat
        (cl.state = .held ∨ cl.state = .flowing ∨ cl.state = .dormant) ∧ cl.flows < 64 ∧ cl.deferred = 0 ∧
        ∃ d, cl.desc = some d ∧ flowOk d cl.buf (vs.getD 0 0) (vs.getD 1 0) = true ∧
          (d.bark = 1 → (barGet x.node x.team d.bar).init = true) ∧
          (d.cbuf = true → ∀ b, cl.buf = some b → b.free ≠ 0)
      effect := fun x vs s =>
        let cl := x.team.claim f.obj.toNat
        match cl.desc with
        | some d => s.issueFlow x f.obj.toNat cl d (vs.getD 0 0) (vs.getD 1 0)
        | none => s
      value := fun x _ _ =>
        let cl := x.team.claim f.obj.toNat
        match cl.desc, cl.buf with
        | some d, some b => if d.cbuf then 2 ^ 16 * b.head else 0
        | _, _ => 0 }
  | .cwait c f => some
    { regs := engRegs c f [],
      ready := fun x _ s => x.node.isClaim f.obj.toNat = true ∨ ∀ w ∈ flowsOf s x f.obj.toNat, x.flowMark s ≤ w.id
      effect := fun x _ s => claimAcquired (theClaim f x) x.team.core s }
  | .crel c f => some
    { regs := engRegs c f [], legal := fun n => !n.isClaim f.obj.toNat,
      ready := fun x _ s => (x.team.claim f.obj.toNat).state = .free ∨ flowsOf s x f.obj.toNat = []
      effect := fun x _ s => if (x.team.claim f.obj.toNat).state = .free then s
        else (s.modClaim x.team.id f.obj.toNat (fun y => { Claim.free with
          buf := y.buf, status := y.status, walker := y.walker,
          outcome := if y.walker.isSome ∧ y.outcome = .none then .done 0 else y.outcome })).dropWalks
            (fun r => decide (r = .claim x.team.id f.obj.toNat)) }
  | .cstat c f => some
    { regs := engRegs c f [], ready := fun _ _ _ => True,
      value := fun x _ _ =>
        let cl := theClaim f x
        if f.flags.getLsbD 0 then (cl.buf.map (fun b => b.free + 2 ^ 8 * b.filled + 2 ^ 16 * b.inflight + 2 ^ 24 * b.taken)).getD 0
        else stateCode cl.state + 2 ^ 4 * statusCode cl.status + 2 ^ 8 * cl.cause + 2 ^ 16 * cl.flows }
  | .cbset c f => some
    { regs := engRegs c f [engSrc f.opa, engSrc f.opb, engSrc f.opc], legal := fun n => !n.isClaim f.obj.toNat,
      ready := fun x vs _ =>
        let cl := x.team.claim f.obj.toNat
        anew .cbset f.obj.toNat x ∧ (cl.state = .free ∨ cl.state = .revoked ∨ cl.state = .faulted) ∧
        vs.getD 0 0 % 32 = 0 ∧ vs.getD 1 0 % 32 = 0 ∧ 32 ≤ vs.getD 1 0 ∧ vs.getD 1 0 ≤ 2 ^ 20 ∧ vs.getD 2 0 ≤ 64 ∧
        vs.getD 0 0 + vs.getD 1 0 * vs.getD 2 0 ≤ x.node.desc.scratch
      effect := fun x vs s => s.modClaim x.team.id f.obj.toNat (fun y =>
        { y with buf := if vs.getD 2 0 = 0 then none else some (emptyBuffer (vs.getD 0 0) (vs.getD 1 0) (vs.getD 2 0)) }) }
  | .cbtake c f => some
    { regs := engRegs c f [], legal := fun n => !n.isClaim f.obj.toNat,
      ready := fun x _ _ => anew .cbtake f.obj.toNat x ∧ ∃ b, (x.team.claim f.obj.toNat).buf = some b ∧ 1 ≤ b.filled
      effect := fun x _ s => claimAcquired (x.team.claim f.obj.toNat) x.team.core
        (s.modClaim x.team.id f.obj.toNat (fun y => { y with buf := (x.team.claim f.obj.toNat).buf.map tookSlot }))
      value := fun x _ _ => ((x.team.claim f.obj.toNat).buf.map (fun b => b.base + b.tail * b.size)).getD 0 }
  | .cbgive c f => some
    { regs := engRegs c f [], legal := fun n => !n.isClaim f.obj.toNat,
      ready := fun x _ _ => anew .cbgive f.obj.toNat x ∧ ∃ b, (x.team.claim f.obj.toNat).buf = some b ∧ 1 ≤ b.taken
      effect := fun x _ s => s.modClaim x.team.id f.obj.toNat (fun y => { y with buf := (x.team.claim f.obj.toNat).buf.map gaveSlot }) }
  | _ => none

/-- `claim` begins its walk (R294): a claim that no instruction walks and no flow uses becomes Walking with the address as
its descriptor's, and the strand waits. -/
def ClaimBegins : Prop := ∀ c f s d x s1, (Instr.claim c f).wf = true → Issues s c false d x s1 → d.node.isClaim f.obj.toNat = false →
  EReady (engRegs c f [engAddrSrc f]) d x s1 → (x.team.claim f.obj.toNat).walker = none →
  (x.team.claim f.obj.toNat).state ≠ .walking → (x.team.claim f.obj.toNat).state ≠ .flowing →
  let va := engAddr f x.team ((firstValues (engRegs c f [engAddrSrc f]) x s1).headD 0)
  va % 64 = 0 → va < 2 ^ 57 →
  ∃ s' t', exec (.claim c f) s = .next s' ∧ (∀ a, s'.byte a = s.byte a) ∧ s'.team? x.team.id = some t' ∧
    (t'.claim f.obj.toNat).state = .walking ∧ (t'.claim f.obj.toNat).descAddr = va ∧ (t'.claim f.obj.toNat).extents = [] ∧
    (t'.claim f.obj.toNat).walker = some ((x.members.head?.map (fun m => m.g)).getD 0, x.addr) ∧
    (t'.claim f.obj.toNat).buf = (x.team.claim f.obj.toNat).buf

/-- A flow on a claim that is Free, Revoked or Faulted traps (R282, R295). -/
def FlowTraps : Prop := ∀ c f s d x s1, (Instr.flow c f).wf = true → Issues s c false d x s1 → d.node.isClaim f.obj.toNat = false →
  EReady (engRegs c f [engSrc f.opa, engSrc f.opb]) d x s1 → CanEnter x s1 →
  let cl := x.team.claim f.obj.toNat
  (cl.state = .free → Traps (.flow c f) s x .illegalOperand 0 0 x.addr) ∧
  (cl.state = .revoked → Traps (.flow c f) s x .claimRevoked (BitVec.ofNat 64 cl.descAddr) 0 x.addr) ∧
  (cl.state = .faulted → Traps (.flow c f) s x .claimFaulted (BitVec.ofNat 64 cl.descAddr) 0 x.addr)

/-! ### Queues and launches (R315 to R317, R337 to R340) -/

/-- A target word names a core of the partition on which a placed team of the cluster stands (Table 16.5). -/
def bindsTo (s : State) (x : Ctx) (w : Nat) (u : Team) : Prop := s.bindTarget x.node x.team w = .inl u

/-- The binding of a target word: core, receive queue, team (Table 16.5). -/
def bound (id w : Nat) (u : Team) : Binding := { id := id, core := w % 256, rq := w / 256 % 8, team := u.id, discards := 0 }

/-- The name of the status word (R340). -/
def statusWord (s : State) (x : Ctx) (h : Word) : Nat := s.nodeStatus x.node.part h

def queueEng : Instr → Option Eng
  | .qbind c f => some
    { regs := engRegs c f [engSrc f.opa], legal := fun _ => decide (f.obj.toNat < 8),
      ready := fun x vs s => anew .qbind f.obj.toNat x ∧ (∃ u, bindsTo s x (vs.headD 0) u) ∧
        ((Tbl.find? x.team.sendq f.obj.toNat).isSome = true → s.openSends x.team.id f.obj.toNat = false)
      effect := fun x vs s => match s.bindTarget x.node x.team (vs.headD 0) with
        | .inl u => ({ s with nextId := s.nextId + 1 } : State).modTeam x.team.id (fun t =>
            { t with sendq := Tbl.put t.sendq f.obj.toNat (bound s.nextId (vs.headD 0) u) })
        | .inr _ => s }
  | .qunbind c f => some
    { regs := engRegs c f [], legal := fun _ => decide (f.obj.toNat < 8),
      ready := fun x _ s => (Tbl.find? x.team.sendq f.obj.toNat).isSome = true → s.openSends x.team.id f.obj.toNat = false,
      effect := fun x _ s => if (Tbl.find? x.team.sendq f.obj.toNat).isSome then
        s.modTeam x.team.id (fun t => { t with sendq := Tbl.del t.sendq f.obj.toNat }) else s }
  | .qstat c f => some
    { regs := { engRegs c f [] with dWords := if f.flags.toNat % 4 = 2 then 2 else 1 },
      legal := fun _ => decide (f.obj.toNat < 8), ready := fun _ _ _ => True,
      value := fun x _ _ =>
        let r := Tbl.get RecvQueue.empty x.team.recvq f.obj.toNat
        match f.flags.toNat % 4 with
        | 0 => ((Tbl.find? x.team.sendq f.obj.toNat).map (fun b =>
            1 + 2 ^ 8 * b.core + 2 ^ 16 * b.rq + 2 ^ 24 * (b.discards % 256))).getD 0
        | 1 => r.msgs.length % 32 + 2 ^ 8 * (r.granted % 32) + 2 ^ 16 * (r.waiting.length % 32)
        | _ => (r.last.map (fun m =>
            m.mask.toNat + 2 ^ 32 * (m.srcRank % 16 + 2 ^ 4 * (m.srcQueue % 8) + 2 ^ 8 * (m.srcGroup % 32)))).getD 0 }
  | .nlaunch c f => some
    { regs := engRegs c f (engAddrSrc f :: (if f.flags.getLsbD 1 then [engSrc f.opb] else [])),
      ready := fun x vs s => x.quiet s = true ∧ (∃ r, x.readChild s (engAddr f x.team (vs.getD 0 0)) = .inr r) ∧
        (f.flags.getLsbD 1 = true → BitVec.ofNat 32 (vs.getD 1 0) ≠ x.node.handle ∧
          ∃ m, s.byHandle x.node.part (BitVec.ofNat 32 (vs.getD 1 0)) = some m ∧ m.launch = x.node.launch)
      effect := fun x vs s => match x.readChild s (engAddr f x.team (vs.getD 0 0)) with
        | .inr (child, s1) => if (s1.part x.node.part).launchFull then s1
          else (s1.addChild x.node child
            (if f.flags.getLsbD 1 then s.byHandle x.node.part (BitVec.ofNat 32 (vs.getD 1 0)) else none)).1
        | .inl _ => s
      value := fun x vs s => match x.readChild s (engAddr f x.team (vs.getD 0 0)) with
        | .inr (child, s1) => if (s1.part x.node.part).launchFull then 0
          else (s1.addChild x.node child
            (if f.flags.getLsbD 1 then s.byHandle x.node.part (BitVec.ofNat 32 (vs.getD 1 0)) else none)).2.toNat
        | .inl _ => 0 }
  | .nwait c f => some
    { regs := engRegs c f [engSrc f.opa],
      ready := fun x vs s => BitVec.ofNat 32 (vs.headD 0) ≠ x.node.handle ∧ 4 ≤ statusWord s x (BitVec.ofNat 32 (vs.headD 0)) % 8,
      effect := fun x _ s => allSeen x.team.core s
      value := fun x vs s => statusWord s x (BitVec.ofNat 32 (vs.headD 0)) }
  | .nstat c f => some
    { regs := engRegs c f [engSrc f.opa], ready := fun _ _ _ => True,
      value := fun x vs s => statusWord s x (BitVec.ofNat 32 (vs.headD 0)) }
  | _ => none

/-- The status word (R340): 7 for a handle of no entry; else the state of Table 17.7 in [2:0], bit 4 once the node has started again
after a replay of its own or of its launch (log entry 33), bit 5 without extents, bit 6 while its launch cannot replay, and the trap kind of an Ended node in
[15:8]. -/
def StatusWordGiven : Prop := ∀ (s : State) (part : Nat) (h : Word),
  ((s.part part).nodes.find? (fun n => decide (n.handle = h)) = none → s.nodeStatus part h = 7) ∧
  ∀ n, (s.part part).nodes.find? (fun n => decide (n.handle = h)) = some n →
    (s.nodeStatus part h % 8 = n.state.code) ∧
    ((s.nodeStatus part h).testBit 4 = n.replayed) ∧
    ((s.nodeStatus part h).testBit 5 = n.noExtents) ∧
    ((s.nodeStatus part h).testBit 6 = true ↔ ∃ l, s.launch? n.launch = some l ∧ l.noReplay = true) ∧
    (s.nodeStatus part h / 256 = if n.state = .ended then n.trapKind else 0) ∧
    (s.nodeStatus part h).testBit 3 = false ∧ (s.nodeStatus part h).testBit 7 = false

/-- The instructions of R124 and R291 that their groups have performed since the resume point that they restarted from: each
completes at once without a second effect; `bar.wait` and `cbtake` acquire again, and `cbtake` returns the slot it took. -/
def recordedEng (i : Instr) : Option Eng :=
  let once (regs : VOp) (legal : Node → Bool) (k : RecKind) (o : Nat) : Eng :=
    { regs := regs, legal := legal, ready := fun x _ _ => (x.recorded k o).isSome = true }
  match i with
  | .aalloc c f => some (once (engRegs c f []) (fun n => decide (f.obj.toNat < n.desc.banks)) .aalloc f.obj.toNat)
  | .obres c f => some (once (engRegs c f [engSrc f.opa, engSrc f.opb, engSrc f.opc]) (fun _ => true) .obres f.obj.toNat)
  | .barinit c f => some (once (engRegs c f [engSrc f.opa]) (fun _ => objectOk f) .barinit (objectNo f))
  | .cbset c f => some (once (engRegs c f [engSrc f.opa, engSrc f.opb, engSrc f.opc]) (fun n => !n.isClaim f.obj.toNat) .cbset
      f.obj.toNat)
  | .qbind c f => some (once (engRegs c f [engSrc f.opa]) (fun _ => decide (f.obj.toNat < 8)) .qbind f.obj.toNat)
  | .cbgive c f => some (once (engRegs c f []) (fun n => !n.isClaim f.obj.toNat) .cbgive f.obj.toNat)
  | .barWait c f => some
    { once (engRegs c f []) (fun _ => objectOk f) .barWait (objectNo f) with
      effect := fun x _ s => waited x (barGet x.node x.team (objectNo f)) s }
  | .cbtake c f => some
    { once (engRegs c f []) (fun n => !n.isClaim f.obj.toNat) .cbtake f.obj.toNat with
      effect := fun x _ s => claimAcquired (x.team.claim f.obj.toNat) x.team.core s
      value := fun x _ _ => match x.recorded .cbtake f.obj.toNat with
        | some (e :: _) => e.2.slot
        | _ => 0 }
  | _ => none

end Sys2Proof.Claims
end

