-- ==== Sys2Proof/Certificates/Slice0/HostClaims.lean ====
section
/-! DEFINITION. The events by which the outside acts on the package, as the rules of spec/19_worlds.md and
spec/20_host_domain.md, and those of spec/12_translation.md and spec/16_channels.md on their registers, give them. -/

namespace Sys2Proof.Claims

open Sys2Proof Sys2Proof.Machine

/-- The event answers a next state, of which `P` holds. -/
def After (i : Instr) (s : State) (P : State → Prop) : Prop := ∃ t, exec i s = .next t ∧ P t

/-- An event after which side-logged accesses that have become ready perform (R237): `P` holds of the state before they
do; with no side-logged access that is the next state. -/
def AfterSides (i : Instr) (s : State) (P : State → Prop) : Prop :=
  ∃ t, exec i s = .next t.settleSides ∧ P t ∧ ((∀ c ∈ t.cores, c.2.sidelog = []) → exec i s = .next t)

/-! ### Resets and power (R386, R397 to R399) -/

/-- The on-die state of a package is gone, but for the Basder standby store, and its DRAM reads as zeros; host memory is the host's,
and the DRAM of another package that package's. -/
structure Cleared (s t : State) : Prop where
  memory : ∀ a, t.byte a = if pkgOf a = s.pkgid.toNat then 0#8 else s.byte a
  lines : ∀ x, t.line (128 * x) = if pkgOf (128 * x) = s.pkgid.toNat then Line.reset else s.line (128 * x)
  stores : t.cores = [] ∧ t.replicas = [] ∧ t.tlb = []
  work : t.teams = [] ∧ t.parts = [] ∧ t.flows = [] ∧ t.reqs = [] ∧ t.fills = [] ∧ t.sends = [] ∧ t.walks = [] ∧ t.merges = []
  records : t.worlds = [] ∧ t.comps = [] ∧ t.mcast = [] ∧ t.drmask = [] ∧ t.spdm = [] ∧ t.linklog = [] ∧ t.secJobs = [] ∧
    t.secQueue = [] ∧ t.mcastJobs = []
  kept : t.pkgid = s.pkgid ∧ t.operatorKey = s.operatorKey ∧ t.hostMem = s.hostMem

/-- Where every reset begins (R386, Table 20.5): the registers have their reset values, every key slot and measurement register is
clear, and no step of the sequence is complete. -/
def ResetRuns : Prop := ∀ s e, (e = .powerOn ∨ ((e = .warmReset ∨ e = .pcieConventionalReset) ∧ s.pstate ≠ .off)) →
  After e s (fun t => Cleared s t ∧ t.pstate = .run ∧ t.halted = false ∧ t.rstage = 0#4 ∧ t.throttle = 0#4 ∧ t.pwrcap = 15000#64 ∧
    t.tlimit = 100#8 ∧ t.slotKeys = [] ∧ t.meas0 = Meas.zero ∧ t.meas1 = Meas.zero ∧ t.meas2 = Meas.zero ∧ t.errorlog = s.errorlog)

/-- A turn that is no issuer's and no event's leaves its state after one step of time and of the engines. -/
def TurnLeads (turn : Turn) (f : State → State) : Prop :=
  ∀ s t : State, s.tick.settled.nextTurn = (some turn, t) → step s = .next (f t)

/-- The steps of a reset (Table 20.5), each the turn of its own: RSTAGE shows the last that is complete. The second clears the on-die
state; the third measures the firmware, or with a bad signature halts the package and writes it to the error log (log entry 28); the
fourth gives the UCIe links and the dies new keys; the sixth empties the package's DRAM under the package id that it has then. -/
def ResetSteps : Prop := TurnLeads .resetStep State.resetStep ∧ ∀ s : State,
  ((s.pstate ≠ .run ∨ s.halted = true ∨ 7 ≤ s.rstage.toNat) → s.resetStep = s) ∧
  (s.pstate = .run → s.halted = false →
    ((s.rstage = 0#4 ∨ s.rstage = 4#4 ∨ s.rstage = 6#4) → s.resetStep = { s with rstage := s.rstage + 1 }) ∧
    (s.rstage = 1#4 → Cleared s s.resetStep ∧ s.resetStep.rstage = 2#4 ∧ s.resetStep.pstate = .run ∧ s.resetStep.meas0 = Meas.zero ∧
      s.resetStep.errorlog = s.errorlog) ∧
    (s.rstage = 2#4 → Config.firmwareGood s.fresh = true →
      s.resetStep = { s with rstage := 3, meas0 := extend s.meas0 Config.firmwareDigest }) ∧
    (s.rstage = 2#4 → Config.firmwareGood s.fresh = false → s.resetStep.halted = true ∧ s.resetStep.rstage = 2#4 ∧
      s.resetStep.meas0 = s.meas0 ∧ s.resetStep.errorlog = s.errorlog ++ [{ seq := s.errseq, kind := 9, link := 0, info := 0 }]) ∧
    (s.rstage = 3#4 → ∃ ks, s.resetStep = { s with rstage := 4, keyCount := s.keyCount + 38, slotKeys := ks } ∧
      ∀ x, ((∃ l < 14, x ∈ linkSlots l) ∨ ∃ d < 10, x = dieSlot d) → ∃ k, Tbl.find? ks x = some k ∧ s.keyCount < k) ∧
    (s.rstage = 5#4 → s.resetStep.rstage = 6#4 ∧ s.resetStep.teams = s.teams ∧ s.resetStep.slotKeys = s.slotKeys ∧
      s.resetStep.meas0 = s.meas0 ∧ ∀ a, s.resetStep.byte a = if pkgOf a = s.pkgid.toNat then 0#8 else s.byte a))

/-- A session with the Basder port stands. -/
def basderSession (s : State) : Prop := s.basderOpen = true

/-- Power states and throttling (R398, R399): once no team is left on a core, a package with a die above the critical limit is in
standby, and the error log has the die. -/
def PowerMoves : Prop := ∀ s : State,
  (∀ basder, s.pstate = .run → (basder = true → basderSession s) →
    After (.standbyEntry basder) s (fun t => Cleared s t ∧ t.pstate = .s1 ∧ t.rstage = 0#4 ∧ t.errorlog = s.errorlog)) ∧
  After .standbyPowerLoss s (fun t => t.pstate = .off ∧ t.pkgid = 0#9 ∧ t.errorlog = [] ∧ t.worlds = [] ∧ t.comps = [] ∧
    ∀ a, pkgOf a = s.pkgid.toNat → t.byte a = 0#8) ∧
  (s.up = true → s.throttle.toNat < 8 → exec .throttleStepDown s = .next { s with throttle := s.throttle + 1 }) ∧
  (s.up = true → 0 < s.throttle.toNat → exec .throttleStepUp s = .next { s with throttle := s.throttle - 1 }) ∧
  (∀ die < 10, s.up = true → s.throttle = 8#4 → s.hotDie = none →
    After (.criticalTemperature die) s (fun t => t.hotDie = some die ∧ t.teams.map (fun u => u.id) = s.teams.map (fun u => u.id) ∧
      ∀ u ∈ t.teams, u.phase = .placed → u.preempt = true)) ∧
  (∀ die, s.hotDie = some die → (∀ u ∈ s.teams, u.onCore = false) → Cleared s s.settled ∧ s.settled.pstate = .s1 ∧
    s.settled.hotDie = none ∧ s.settled.errorlog = s.errorlog ++ [{ seq := s.errseq, kind := 7, link := 0, info := die }])

/-- The Basder port and configuration requests (R393, R396, R397): the answer is the only effect. -/
def PortAnswers : Prop := ∀ s : State,
  (∀ seq, s.pstate ≠ .off → basderSession s →
    exec (.readErrorLog seq) s = .next { s with outputs := s.outputs ++ [.errorLog (s.errorlog.filter (fun r => decide (seq ≤ r.seq)))] }) ∧
  (∀ seq, s.pstate ≠ .off → ¬ basderSession s → exec (.readErrorLog seq) s = .next { s with outputs := s.outputs ++ [.refusedReq] }) ∧
  (s.pstate ≠ .off → ∃ vs, vs.length = 13 ∧ vs.getLast? = some (s.throttle.setWidth 64) ∧
    exec .readTelemetry s = .next { s with outputs := s.outputs ++ [.telemetry vs] }) ∧
  (∀ id, s.pstate ≠ .off → s.rstage.toNat < 6 → exec (.setPackageId id) s = .next { s with pkgid := id }) ∧
  (∀ id, s.pstate ≠ .off → 6 ≤ s.rstage.toNat → exec (.setPackageId id) s = .next { s with outputs := s.outputs ++ [.refusedReq] }) ∧
  (∀ fn ≤ 64, s.pstate ≠ .off →
    exec (.pcieConfigurationRequest fn) s = .next { s with outputs := s.outputs ++ [.config fn (decide (s.rstage ≠ 7#4))] })

/-- The operations of the Basder port that act as an event does (R396): in a session they run; without one, or in a state of the
package that does not take them (log entry 56), they are refused. -/
def PortOperates : Prop := ∀ (s t : State) i, s.tick.settled.nextTurn = (some (.basder i), t) →
  (i = .warmReset ∨ (∃ w, i = .worldHalt w ∨ i = .worldResume w) ∨ ∃ c, i = .installGate c ∨ i = .closeGate c ∨ i = .revokeKey c) →
  t.pstate ≠ .off →
  (basderSession t → t.takes i = true → step s = settleOut (exec i t)) ∧
  (¬ basderSession t ∨ t.takes i = false → step s = .next { t with outputs := t.outputs ++ [.refusedReq] })

/-- Writes of agents outside the package: the host and the hypervisor, whose writes carry no compartment (log entry 10), and agents of
other packages, which have made none where the line that they meet has another compartment's copy (R370). Each is a turn of its own. -/
def OutsideWrites : Prop :=
  (∀ c a bs, TurnLeads (.outsideWrite c a bs) (fun t => t.outsideWrite c a bs)) ∧
  (∀ c a n, TurnLeads (.outsideRead c a n) (fun t => t.outsideRead c a n)) ∧
  (∀ h bs, TurnLeads (.hostStore h bs) (fun t => t.hostStore h bs)) ∧
  ∀ s : State,
    (∀ c a bs, dramRange a bs.length = true → (pkgOf a = s.pkgid.toNat → s.up = true) →
      (∀ k, c = some k → pkgOf a = s.pkgid.toNat → (linesOf a bs.length).any (s.tagClash k) = false) →
      ∀ x, (s.outsideWrite c a bs).byte x = if a ≤ x ∧ x < a + bs.length then bs.getD (x - a) 0#8 else s.byte x) ∧
    (∀ k a bs, pkgOf a = s.pkgid.toNat → (linesOf a bs.length).any (s.tagClash k) = true → s.outsideWrite (some k) a bs = s) ∧
    (∀ c a n x, (s.outsideRead c a n).byte x = s.byte x) ∧
    (∀ h bs x, Tbl.get none (s.hostStore h bs).hostMem x =
      if h ≤ x ∧ x < h + bs.length then some (bs.getD (x - h) 0#8) else Tbl.get none s.hostMem x)

/-! ### Links (R288, R375, R395) -/

/-- A link event is written: with the next sequence number, last in LINKLOG and in the error log. -/
structure Logged (kind link info : Nat) (s t : State) : Prop where
  last : t.linklog.getLast? = some { seq := s.linkseq, kind := kind, link := link, info := info }
  seq : t.linkseq = s.linkseq + 1
  ring : s.linklog.length ≤ 4096 → t.linklog.length ≤ 4096
  basder : t.errorlog = s.errorlog ++ [{ seq := s.errseq, kind := kind, link := link, info := info }]
  rest : t.mem = s.mem ∧ t.teams = s.teams ∧ t.parts = s.parts ∧ t.worlds = s.worlds ∧ t.cores = s.cores

/-- Links 0 to 13 and 16 to 47 (Table 20.7). -/
def aLink (l : Nat) : Prop := l < 14 ∨ 16 ≤ l ∧ l < 48

/-- The flows after some of them have been cut at a link: `must` gives those that are, `may` those that the spec lets be cut. -/
structure Severs (link : Nat) (must may : Flow → Prop) (s t : State) : Prop where
  same : t.flows.map (fun f => { f with severed := none }) = s.flows.map (fun f => { f with severed := none })
  only : ∀ f ∈ t.flows, f.severed = some link ∨ f ∈ s.flows
  kept : ∀ f ∈ s.flows, ¬ may f → f ∈ t.flows
  cut : ∀ f ∈ s.flows, must f → { f with severed := some link } ∈ t.flows

/-- The four link events. A path lost to another package severs the flows that reach it, one between the dies of this package those
whose packets cross the link; a re-key severs none but those whose packets may take it, gives its two directions new keys and lets
it carry again. Which flows had a packet on the link, where several routes may take it, the spec leaves open (log entry 23). -/
def LinkEvents : Prop := ∀ s link, aLink link →
  let may (f : Flow) : Prop := s.crosses f link = true ∨ s.mayCross f link = true
  After (.linkRetry link) s (fun t => Logged 0 link 0 s t ∧ t.flows = s.flows ∧ t.lost = s.lost) ∧
  After (.laneFailover link) s (fun t => Logged 1 link 0 s t ∧ t.flows = s.flows ∧ t.lost = s.lost) ∧
  After (.linkRekey link) s (fun t => Logged 2 link 0 s t ∧ t.lost = s.lost.filter (fun e => decide (e.1 ≠ link)) ∧
    t.keyCount = s.keyCount + 2 ∧ (∀ x ∈ linkSlots link, ∃ k, Tbl.find? t.slotKeys x = some k ∧ s.keyCount < k) ∧
    Severs link (fun _ => False) may s t) ∧
  (∀ pkg < 512, pkg ≠ s.pkgid.toNat → After (.pathLost link pkg) s (fun t => Logged 3 link pkg s t ∧ t.lost = s.lost ++ [(link, pkg)] ∧
    t.flows = s.flows.map (fun f => if f.reaches pkg then { f with severed := some link } else f))) ∧
  (link < 14 → After (.pathLost link s.pkgid.toNat) s (fun t => Logged 3 link s.pkgid.toNat s t ∧
    t.lost = s.lost ++ [(link, s.pkgid.toNat)] ∧ Severs link (fun f => s.crosses f link = true) may s t))

/-! ### SPDM (R377, R378) -/

/-- A request reaches an endpoint that the package has and that takes requests: a function once it is released, the Basder port in
standby too, a Frekuide link from step 6 of a reset on. -/
def reaches (s : State) (ep : Endpoint) : Prop := Endpoint.exists_ ep = true ∧ (match ep with
  | .function _ => s.up = true
  | .basder => s.up = true ∨ s.pstate = .s1
  | .peer _ => s.halted = false ∧ s.pstate = .run ∧ 5 ≤ s.rstage.toNat)

/-- The package answers with a response code and a payload. -/
def answered (ep : Endpoint) (code : Nat) (payload : List Byte) (s t : State) : Prop :=
  t.outputs = s.outputs ++ [.spdm ep code payload]

/-- What no SPDM request changes. -/
def SpdmKeeps (s t : State) : Prop :=
  t.mem = s.mem ∧ t.lines = s.lines ∧ t.teams = s.teams ∧ t.parts = s.parts ∧ t.cores = s.cores ∧ t.comps = s.comps ∧
  t.meas0 = s.meas0 ∧ t.meas1 = s.meas1

/-- SPDM requests in their order (log entry 24): each is answered and moves the handshake on. -/
def SpdmAnswers : Prop := ∀ s ep, reaches s ep →
  After (.getVersion ep) s (fun t => answered ep 0x04 [0x13#8] s t ∧ SpdmKeeps s t ∧
    (s.spdmPhase ep ≠ .session → t.spdmPhase ep = .version)) ∧
  (1 ≤ (s.spdmPhase ep).rank → After (.getCapabilities ep) s (fun t => answered ep 0x61 spdmRequests s t ∧ SpdmKeeps s t)) ∧
  (2 ≤ (s.spdmPhase ep).rank →
    After (.negotiateAlgorithms ep true true) s (fun t => answered ep 0x63 spdmAlgorithms s t ∧ SpdmKeeps s t ∧
      (s.spdmPhase ep = .capabilities → t.spdmPhase ep = .negotiated)) ∧
    ∀ a b, (a && b) = false → After (.negotiateAlgorithms ep a b) s (fun t => answered ep 0x7F [] s t ∧ t.spdmPhase ep = s.spdmPhase ep)) ∧
  (3 ≤ (s.spdmPhase ep).rank →
    After (.getDigests ep) s (fun t => answered ep 0x01 (shake256 Config.certificate) s t ∧ SpdmKeeps s t) ∧
    (∀ off len, After (.getCertificate ep off len) s (fun t =>
      answered ep 0x02 ((Config.certificate.drop off).take len) s t ∧ SpdmKeeps s t)) ∧
    (∀ nonce, After (.challenge ep nonce) s (fun t => answered ep 0x03 (Config.falconSign (shake256 nonce)) s t ∧ SpdmKeeps s t)) ∧
    (∀ share, After (.keyExchange ep share) s (fun t =>
      answered ep 0x64 (Config.falconSign (shake256 share)) s t ∧ SpdmKeeps s t ∧
      (s.spdmPhase ep ≠ .session → t.spdmPhase ep = .exchanged)))) ∧
  (∀ verify, s.spdmPhase ep = .exchanged → s.finishOk ep verify = false → After (.finish ep verify) s (fun t =>
    answered ep 0x7F [] s t ∧ SpdmKeeps s t ∧ t.spdmPhase ep = .exchanged)) ∧
  (∀ verify, s.spdmPhase ep = .exchanged → s.finishOk ep verify = true → After (.finish ep verify) s (fun t =>
    answered ep 0x65 [] s t ∧ SpdmKeeps s t ∧ t.spdmPhase ep = .session ∧
    ∀ w, ep = .function (w + 1) → (t.world w).session = true)) ∧
  (s.spdmPhase ep = .session → After (.endSession ep) s (fun t =>
    answered ep 0x6C [] s t ∧ SpdmKeeps s t ∧ t.spdmPhase ep = .negotiated ∧
    ∀ w, ep = .function (w + 1) → (t.world w).session = false))

/-- A request before its turn is answered with ERROR and changes nothing else. -/
def SpdmRefuses : Prop := ∀ s ep i need, reaches s ep → (s.spdmPhase ep).rank < need →
  (need = 1 ∧ i = .getCapabilities ep ∨ need = 2 ∧ (∃ a b, i = .negotiateAlgorithms ep a b) ∨
   need = 3 ∧ (i = .getDigests ep ∨ (∃ o l, i = .getCertificate ep o l) ∨ (∃ n, i = .challenge ep n) ∨
     (∃ w k, i = .getMeasurements ep w k) ∨ ∃ x, i = .keyExchange ep x) ∨
   need = 4 ∧ (∃ v, i = .finish ep v) ∨ need = 5 ∧ i = .endSession ep) →
  exec i s = .next { s with outputs := s.outputs ++ [.spdm ep 0x7F []] }

/-- GET_MEASUREMENTS (R378): a world's function reads its eight registers, of which the first three are the package's, the Basder
port those of any world, and function 0 and a link the package's three. -/
def Measured : Prop := ∀ s ep world k, reaches s ep → 3 ≤ (s.spdmPhase ep).rank →
  let reg (w : Nat) : List Byte :=
    if k = 0 then s.meas0 else if k = 1 then s.meas1 else if k = 2 then s.meas2 else if k = 7 then Meas.zero else Tbl.get Meas.zero (s.world w).meas k
  (∀ w, (ep = .function (w + 1) ∨ ep = .basder ∧ w = world ∧ w < 64) → k < 8 →
    exec (.getMeasurements ep world k) s = .next { s with outputs := s.outputs ++ [.spdm ep 0x60 (reg w)] }) ∧
  (ep = .function 0 ∨ (∃ l, ep = .peer l) → k < 3 →
    exec (.getMeasurements ep world k) s = .next { s with outputs := s.outputs ++ [.spdm ep 0x60 (reg world)] })

/-! ### Registers, queues and worlds (R388 to R392, R328, R378, R396) -/

/-- A notify is exactly 1: in the slot of a mapped queue, else in NCOUNT (R328); in DROPPED after a function-level reset until
the queue's control block is written (R384). -/
def NotifyCounts : Prop := ∀ s w q, w < 64 → q < 256 → After (.notify w q) s (fun t =>
  let a := s.uqueue w q
  let b := t.uqueue w q
  (if (s.world w).flr = true ∨ a.cut = true then b = { a with dropped := a.dropped + 1 }
   else match a.slot with
    | some c => b = { a with slot := some (c.1 + 1, c.2) }
    | none => b = { a with ncount := a.ncount + 1 }) ∧
  (∀ w' q', (w', q') ≠ (w, q) → t.uqueue w' q' = s.uqueue w' q') ∧ t.mem = s.mem ∧ t.parts = s.parts ∧ t.teams = s.teams)

/-- REGISTER_WRITE (R388, R389): an aligned write reaches the register that the view gives the offset; a value out of its
range is ignored, as is an offset that no register has; one that is not aligned completes as Unsupported Request and changes nothing. -/
def RegistersWritten : Prop := ∀ (s : State) (off : Nat) (v : DWord), s.up = true →
  (∀ fn ≤ 64, off % 8 ≠ 0 → exec (.registerWrite fn off v) s = .next { s with outputs := s.outputs ++ [.unsupported fn off] }) ∧
  AfterSides (.registerWrite 0 8 v) s (fun t => t = if 3000 ≤ v.toNat ∧ v.toNat ≤ 15000 then { s with pwrcap := v } else s) ∧
  AfterSides (.registerWrite 0 0x10 v) s (fun t =>
    t = if 85 ≤ v.toNat % 256 ∧ v.toNat % 256 ≤ 110 then { s with tlimit := v.setWidth 8 } else s) ∧
  (∀ w < 64, AfterSides (.registerWrite 0 (0x10000 + 256 * w + 8) v) s (fun t =>
    t = if v.toNat % 65536 = 0 then s.modWorld w (fun x => { x with s2root := v }) else s)) ∧
  (∀ w < 64, ∀ q < 256, AfterSides (.registerWrite (w + 1) (8 * q) v) s (fun t =>
    exec (.notify w q) s = .next t)) ∧
  (∀ w < 64, ∀ k < 4096, AfterSides (.registerWrite (w + 1) (0x80000 + 8 * k) v) s (fun t =>
    t = s.modWorld w (fun x => { x with msix := Tbl.set 0#64 x.msix k v }))) ∧
  (off % 8 = 0 → 0x1040 < off → off < 0x80000 → ∀ w < 64, AfterSides (.registerWrite (w + 1) off v) s (fun t => t = s))

/-- A world is created (R378): its registers 2 to 7 are zero but register 3, which is extended with the digest of its record: its partition, the number of its Active compartments, and whether a session
stands, with the bytes that name it (their layout is the model's: log entry 9). -/
def WorldMeasured : Prop := ∀ s w record, w < 64 → s.up = true → After (.worldCreation w record) s (fun t =>
  Tbl.get Meas.zero (t.world w).meas 3 = extend Meas.zero (shake256 (s.worldRecord w record)) ∧
  (∀ k, k ≠ 3 → Tbl.get Meas.zero (t.world w).meas k = Meas.zero) ∧ (∀ w', w' ≠ w → t.world w' = s.world w') ∧ t.mem = s.mem)

/-- Halting a world stops it and requests the pre-emption of its teams; resuming it lets it run again (R354, R390, R396). -/
def WorldsHalt : Prop := ∀ s w,
  After (.worldHalt w) s (fun t => t.world w = { s.world w with running := false } ∧ (∀ w', w' ≠ w → t.world w' = s.world w') ∧
    t.parts = s.parts ∧ t.mem = s.mem ∧
    t.teams = s.teams.map (fun u => if u.phase = .placed ∧ s.nodeIs (fun n => decide (n.world = w)) u = true then { u with preempt := true } else u)) ∧
  ((s.part (s.world w).partId).inUse = true → exec (.worldResume w) s = .next (s.modWorld w (fun x => { x with running := true })))

/-! ### Partitions, routing masks, multicast entries, way masks (R304 to R307, R318, R382, R383) -/

/-- PARTITION_RECORD_WRITE: a record within the limits of Table 16.2, none of whose partition runs, takes effect and
extends measurement register 1; else nothing changes. -/
def RecordTaken : Prop := ∀ s i v, i < 16 →
  (s.recordOk i v = true → (∀ p, s.recordPart i = some p → s.partBusy p = false) →
    After (.partitionRecordWrite i v) s (fun t =>
      (t.part (v.toNat / 2 ^ 40 % 16)).record = v ∧ (t.part (v.toNat / 2 ^ 40 % 16)).index = i ∧
      t.meas1 = extend s.meas1 (shake256 t.recordBytes) ∧ t.worlds = s.worlds)) ∧
  ((s.recordOk i v = false ∨ ∃ p, s.recordPart i = some p ∧ s.partBusy p = true) →
    exec (.partitionRecordWrite i v) s = .next s)

/-- DRMASK_WRITE: one dword of a mask that no record in force names. -/
def MaskWritten : Prop := ∀ s mask dword v, mask < 1024 → dword < 8 →
  (∀ e ∈ s.parts, e.2.inUse = true → e.2.peersIx ≠ mask) → After (.drmaskWrite mask dword v) s (fun t =>
    (∀ k < 512, (Tbl.get 0#512 t.drmask mask).getLsbD k =
      if k / 64 = dword then v.getLsbD (k % 64) else (Tbl.get 0#512 s.drmask mask).getLsbD k) ∧
    (∀ m, m ≠ mask → Tbl.get 0#512 t.drmask m = Tbl.get 0#512 s.drmask m) ∧ t.mem = s.mem ∧ t.parts = s.parts)

/-- MCAST_ENTRY_WRITE: a dword without reserved bits puts itself and the staged PEERS in force, unless the owner has all the
entries its record allows. While a claim that names the entry is Flowing, the write waits for its flows (R281). -/
def EntryWritten : Prop := ∀ s entry v, entry < 4096 →
  (s.mcastFlowing entry = true → After (.mcastEntryWrite entry v) s (fun t =>
    (∀ e, t.mcastEntry e = s.mcastEntry e) ∧ t.mem = s.mem ∧ t.flows = s.flows ∧ t.mcastJobs = s.mcastJobs ++ [(entry, 0, v)])) ∧
  (s.mcastFlowing entry = false → s.mcastJobs = [] → After (.mcastEntryWrite entry v) s (fun t =>
    (∀ e, e ≠ entry → t.mcastEntry e = s.mcastEntry e) ∧ t.mem = s.mem ∧
    (v &&& 0xFFFFFFFFF0C0F0FE#64 ≠ 0#64 → t.mcastEntry entry = s.mcastEntry entry) ∧
    (v &&& 0xFFFFFFFFF0C0F0FE#64 = 0#64 → (s.mcastEntry entry).resv = 0#448 → (s.part (v.toNat / 256 % 16)).inUse = false →
      t.mcastEntry entry = { s.mcastEntry entry with head := v, peers := (s.mcastEntry entry).staged })))

/-- WAYMASK_WRITE and the end of its sweep: removed ways are swept, after which none of the world's lines is dirty. -/
def WaysSwept : Prop := ∀ s w v,
  (w < 64 → After (.waymaskWrite w v) s (fun t => (t.world w).waymask = v.setWidth 24 ∧
    (t.world w).sweeping = (let r := ((s.world w).waymask ||| (s.world w).sweeping.getD 0) &&& ~~~(v.setWidth 24)
      if r = 0#24 then none else some r) ∧ t.mem = s.mem ∧ t.lines = s.lines)) ∧
  ((s.world w).sweeping ≠ none → After (.waymaskSweepComplete w) s (fun t => (t.world w).sweeping = none ∧ t.mem = s.mem ∧
    ∀ l c, (t.line (128 * l)).tag = some (c, true) → c / 16 ≠ w))

/-! ### The security engine (R369, R379 to R381, R384, R385) -/

/-- A job may start: the package is up, the engine is free, and no request waits. -/
def engineFree (s : State) : Prop := s.up = true ∧ s.secJobs = [] ∧ s.secQueue = []

/-- COMPARTMENT_CREATE: done, refused, or waiting for the engine (R385), when CSTATUS reads 1. -/
def CompartmentMade : Prop := ∀ s g, g < 1024 → s.up = true → SecReq.create g ∉ s.secQueue →
  (((s.comp g).state = .free ∨ (s.comp g).state = .revoked) → (s.world (g / 16)).flr = false → s.secJobs = [] → s.secQueue = [] →
    After (.compartmentCreate g) s (fun t =>
      t.comp g = { s.comp g with state := .active, lastseq := 0, cstatus := 2, key := s.keyCount + 1 } ∧
      t.keyCount = s.keyCount + 1 ∧ t.mem = s.mem ∧ (∀ h, h ≠ g → t.comp h = s.comp h) ∧
      Tbl.get Meas.zero (t.world (g / 16)).meas 4 =
        extend (Tbl.get Meas.zero (s.world (g / 16)).meas 4) ((s.comp g).auth ++ natToBytes 2 (g % 16)))) ∧
  (((s.comp g).state = .free ∨ (s.comp g).state = .revoked) → (s.world (g / 16)).flr = false →
    (∃ j rest, s.secJobs = j :: rest ∧ ∀ c, j ≠ .close c) →
    After (.compartmentCreate g) s (fun t => t.comp g = { s.comp g with cstatus := 1 } ∧ t.secQueue = s.secQueue ++ [.create g] ∧
      t.secJobs = s.secJobs ∧ t.keyCount = s.keyCount)) ∧
  (((s.comp g).state = .active ∨ (s.comp g).state = .revoking ∨ (s.world (g / 16)).flr = true) →
    exec (.compartmentCreate g) s = .next (s.modComp g (fun x => { x with cstatus := 3 })))

/-- What an accepted authority command leaves: LASTSEQ is its SEQ, the result is Done, and a measurement register of the
world is extended with its digest. -/
structure Obeyed (c : AuthCmd) (ix : Nat) (s t : State) : Prop where
  seq : (t.comp (Auth.gcomp c)).lastseq = BitVec.ofNat 64 (Auth.seq c)
  result : t.authResult = 0#64
  measured : Tbl.get Meas.zero (t.world (Auth.gcomp c / 16)).meas ix =
    extend (Tbl.get Meas.zero (s.world (Auth.gcomp c / 16)).meas ix) (shake256 c.header)

/-- Authority commands (R379): one that passes its checks has its effect, a close once no claim on the gate is Flowing (R281);
another leaves its code and changes nothing else. -/
def CommandsObeyed : Prop := ∀ s c, engineFree s →
  (Auth.kind c = 2 → s.authCheck c = 0 → After (.installGate c) s (fun t => Obeyed c 5 s t ∧ t.mem = s.mem ∧
    Tbl.find? (t.world (Auth.world c)).gates (parseGate (Auth.grec c)).gate = some (parseGate (Auth.grec c)))) ∧
  (Auth.kind c = 3 → s.authCheck c = 0 → s.gateFlowing (Auth.world c) (Auth.gate c) = true →
    After (.closeGate c) s (fun t => t.secJobs = [.close c] ∧ t.authResult = s.authResult ∧ t.flows = s.flows ∧ t.mem = s.mem)) ∧
  (Auth.kind c = 3 → s.authCheck c = 0 → s.gateFlowing (Auth.world c) (Auth.gate c) = false → After (.closeGate c) s (fun t => Obeyed c 5 s t ∧ t.mem = s.mem ∧
    ∀ g, Tbl.find? (t.world (Auth.world c)).gates (Auth.gate c) = some g → GateRec.valid g = false)) ∧
  (Auth.kind c = 1 → s.authCheck c = 0 → After (.revokeKey c) s (fun t => (t.comp (Auth.gcomp c)).state = .revoking ∧
    t.secJobs = [.revoke (Auth.gcomp c) (BitVec.ofNat 64 (Auth.seq c)) (shake256 c.header)])) ∧
  (∀ i, (i = .installGate c ∧ Auth.kind c = 2 ∨ i = .closeGate c ∧ Auth.kind c = 3 ∨ i = .revokeKey c ∧ Auth.kind c = 1) →
    s.authCheck c ≠ 0 → exec i s = .next { s with authResult := BitVec.ofNat 64 (s.authCheck c) })

/-- The end of a revocation (R380): the key is erased, the compartment is Revoked, and the command is Done. -/
def RevocationEnds : Prop := ∀ s g seq digest rest, s.secJobs = .revoke g seq digest :: rest → s.secQueue = [] →
  s.revokeDrained g = true →
  After (.revocationDrainEnd g) s (fun t => t.comp g = { s.comp g with state := .revoked, key := 0, lastseq := seq } ∧
    t.secJobs = [] ∧ t.authResult = 0#64 ∧
    Tbl.get Meas.zero (t.world (g / 16)).meas 6 = extend (Tbl.get Meas.zero (s.world (g / 16)).meas 6) digest)

/-- Function-level reset (R384, R390): the world's queues are unmapped and its reset runs, or waits its turn; at its end the record's
fields but PARTW have their reset values, its measurement registers 3 to 7 are zero, its compartments are Free and its gates are gone.
-/
def WorldResets : Prop := ∀ s w,
  (w < 64 → engineFree s → After (.functionLevelReset (w + 1)) s (fun t => (t.world w).flr = true ∧ (t.world w).rstatus = 1#2 ∧
    t.secJobs = [.reset w] ∧ ∀ q < 256, t.uqueue w q =
      { s.uqueue w q with ncount := (s.uqueue w q).count, slot := none, cut := true })) ∧
  (w < 64 → s.up = true → (∃ j rest, s.secJobs = j :: rest ∧ ∀ c, j ≠ .close c) →
    exec (.functionLevelReset (w + 1)) s = .next { s with secQueue := s.secQueue ++ [.reset w] }) ∧
  (∀ rest, s.secJobs = .reset w :: rest → s.secQueue = [] → s.worldDrained w = true → After (.flrDrainEnd w) s (fun t =>
    (t.world w).flr = false ∧ (t.world w).rstatus = 2#2 ∧ (t.world w).gates = [] ∧ (t.world w).s1root = 0#64 ∧
    (t.world w).s2root = 0#64 ∧ (t.world w).slice = 256#64 ∧ (t.world w).waymask = 0xFFFFFF#24 ∧ (t.world w).errring = 0#64 ∧
    (t.world w).hwbase = 0#64 ∧ (∀ k, 3 ≤ k → Tbl.get Meas.zero (t.world w).meas k = Meas.zero) ∧ (t.world w).part = (s.world w).part ∧ t.secJobs = [] ∧ (∀ c < 16, (t.comp (16 * w + c)).state = .free ∧ (t.comp (16 * w + c)).key = 0) ∧
    (∀ e ∈ t.tlb, e.world ≠ w) ∧ ∀ p ∈ t.parts, ∀ l ∈ p.2.launches, l.world ≠ w))

end Sys2Proof.Claims
end

