-- ==== Sys2Proof/Certificates/Slice0/EventClaims.lean ====
section
/-! DEFINITION. The events by which the machine's own units move, as the rules of spec/05_issue.md, spec/11_matrix.md,
spec/12_translation.md, spec/13_memory.md, spec/15_claims.md, spec/16_channels.md, spec/17_launch.md and
spec/18_faults.md give them. -/

namespace Sys2Proof.Claims

open Sys2Proof Sys2Proof.Machine

/-! ### Issue slots and caches (R78, R83, R31, R248) -/

/-- STRAND_AGING (R83): a strand that has been ready for 2,048 clocks goes to the head of its slot, and nothing else changes. -/
def StrandsAge : Prop := ∀ s t g k gr st, groupAt s t g = some gr → gr.strands[k]? = some st → gr.readyStrand st = true → 2048 ≤ st.wait →
  After (.strandAging t g k) s (fun u => ∃ gr', groupAt u t g = some gr' ∧
    gr' = { gr with strands := gr.strands.set k { st with aged := true } } ∧ u.mem = s.mem ∧ u.parts = s.parts ∧ u.cores = s.cores)

/-- A team on which the scope of a meeting may be checked: it is placed, and its node goes on. -/
structure Watched (s : State) (team : Nat) (t : Team) (n : Node) : Prop where
  team : s.team? team = some t
  node : s.node? t.node = some n
  placed : t.phase = .placed
  going : n.ending = none ∧ s.stopsNode n = false

/-- SCOPE_MISMATCH_DETECT (R78, R346): a group all of whose strands are parked, and not all at one address, takes
ScopeMismatch at its strand at the lowest address; in a node without a handler the node ends with that trap. -/
def MismatchFound : Prop := ∀ s team t n g gr st a, Watched s team t n →
  (indexed t.groups).findSome? (fun e => if e.2.ended then none else e.2.mismatch.map (fun p => (e.1, p.1, p.2))) = some (g, st, a) →
  groupAt s team g = some gr → gr.trap = none →
  (n.desc.handler = 0#64 → After (.scopeMismatchDetect team) s (fun u => ∃ n', u.node? n.id = some n' ∧
    n'.ending = some (.scopeMismatch, 0#64) ∧ u.mem = s.mem)) ∧
  (n.desc.handler ≠ 0#64 → AtHand s n t.core n.desc.handler → After (.scopeMismatchDetect team) s (fun u => ∃ gr' r,
    groupAt u team g = some gr' ∧ gr'.trap = some r ∧ r.ecause.setWidth 8 = 8#8 ∧ r.epc = a ∧ r.eaddr = 0#64 ∧ gr'.loops = [] ∧
    r.loops = gr.loops ∧ u.mem = s.mem))

/-- In a group all of whose strands are parked, without a trap held or deferred, and not all at one address, the strand that takes
ScopeMismatch is one at the lowest address (R78, case 2). What counts as parked is the model's reading (log entry 41). -/
def LowestTakes : Prop := ∀ gr : Group, gr.deferred = none → (∀ y ∈ gr.counted, y.held = none ∧ gr.parkedPlace y ≠ none) →
  (∃ y ∈ gr.counted, ∃ z ∈ gr.counted, gr.parkedPlace y ≠ gr.parkedPlace z) →
  ∃ st a, gr.mismatch = some (st, a) ∧ st ∈ gr.counted ∧ gr.parkedPlace st = some a ∧
    ∀ y ∈ gr.counted, ∀ b, gr.parkedPlace y = some b → a.toNat ≤ b.toNat

/-- Every group of the team that has not ended is parked whole at one set- or team-scope instruction, of which some member has not
arrived (R78, case 1). -/
def Stalled (t : Team) (n : Node) : Prop := (∃ g ∈ t.groups, g.ended = false) ∧
  ∀ i g, t.groups[i]? = some g → g.ended = false → ∃ p, g.wideAt = some p ∧ t.allMet n i p = false

/-- SCOPE_MISMATCH_DETECT in a stalled team (R78, case 1; R346): each group that has not ended takes ScopeMismatch at its own
instruction; in a node without a handler the node ends with that trap. -/
def StallFound : Prop := ∀ s team t n, Watched s team t n → Stalled t n → (∀ g ∈ t.groups, g.trap = none) →
  (n.desc.handler = 0#64 → After (.scopeMismatchDetect team) s (fun u => ∃ n', u.node? n.id = some n' ∧
    n'.ending = some (.scopeMismatch, 0#64) ∧ u.mem = s.mem)) ∧
  (n.desc.handler ≠ 0#64 → AtHand s n t.core n.desc.handler → After (.scopeMismatchDetect team) s (fun u => u.mem = s.mem ∧
    ∀ i g st a, t.groups[i]? = some g → g.ended = false → g.wideAt = some (st, a) → ∃ gr' r, groupAt u team i = some gr' ∧
      gr'.trap = some r ∧ r.ecause.setWidth 8 = 8#8 ∧ r.epc = a ∧ r.eaddr = 0#64 ∧ gr'.loops = [] ∧ r.loops = g.loops))

/-- A strand or parcel stands at the line, in the compartment of its key, or the node stands whose fetch filled it; the line
translates to DRAM of the package that it may read. -/
structure Refetchable (s : State) (core key : Nat) (l : ILine) (n : Node) (who : Requester) (hpa : Nat) (attr : Attr) : Prop where
  line : Tbl.find? (s.core core).icache key = some l
  bad : l.bad = true
  asker : s.refetchFor core key l = some (n, who)
  found : ∃ ext, s.lookNode n core who (BitVec.ofNat 64 (key % 2 ^ 57) : Addr).toNat 64 .fetch = .ok hpa attr ext
  reach : s.reach n.part n.world attr.home hpa = none ∧ attr.home ≠ 1#2
  dram : isDram hpa = true
  tag : s.tagClash n.gcomp hpa = false

/-- ICACHE_REFETCH (R31): the line read again without a mismatch takes the place of the discarded one, and one correctable
error of the cache is counted; a second mismatch leaves no line. -/
def LineRefetched : Prop := ∀ s core key l n who hpa attr, Refetchable s core key l n who hpa attr →
  let r := s.readCode n core attr hpa (BitVec.ofNat 64 (key % 2 ^ 57) : Addr).toNat
  r.2.1 = false →
  (lineParityOk (BitVec.ofNat 512 (bytesToNat r.1)) = true → After (.icacheRefetch core key) s (fun u =>
    ∃ l', Tbl.find? (u.core core).icache key = some l' ∧ l'.bad = false ∧ l'.line = BitVec.ofNat 512 (bytesToNat r.1) ∧
      u.errorCount (.icache core) = s.errorCount (.icache core) + 1 ∧ u.mem = s.mem)) ∧
  (lineParityOk (BitVec.ofNat 512 (bytesToNat r.1)) = false → After (.icacheRefetch core key) s (fun u =>
    Tbl.find? (u.core core).icache key = none ∧ u.mem = s.mem))

/-- PATROL_SCRUB (R248, R376, R7): a line of the channel that needed a correction, that of an upset or another (which, the spec
leaves open: log entry 21), is written back as a fresh unit under the next version, poisoned where its stored unit was bad and no
on-die copy stands; one whose version is at its limit is poisoned; one that fails its MAC, or lies under a tree node that does, stays
as it is. No byte and no other line changes. -/
def LinesScrubbed : Prop := ∀ (s : State) channel, channel < 384 → (s.lines.map (fun e => e.1)).Nodup →
  After (.patrolScrub channel) s (fun u => u.mem = s.mem ∧ u.teams = s.teams ∧ ∀ a, u.line a =
    let l := s.line a
    if pkgOf (128 * (a / 128)) ≠ s.pkgid.toNat ∨ channelAt (128 * (a / 128)) ≠ channel ∨ l.version = 0#64 ∨
      s.unitFails l none (128 * (a / 128)) = true ∨ (l.single = 0#8 ∧ Config.scrubbed s.fresh (a / 128) = false) then l
    else if l.version = 0xFFFF_FFFF_FFFF_FFFF#64 then { l with poison := 0xF#4, spent := true }
    else { l with version := l.version + 1, single := 0#8, double := 0#8, badMac := false,
                  poison := if l.tag.isSome then l.poison else l.stored none })

/-! ### The matrix unit (R204 to R213, R208) -/

/-- The operation of an id that stands in a core's queue. -/
def opAt (s : State) (core op : Nat) : Option MatOp := (s.core core).matq.find? (fun o => decide (o.id = op))

/-- `mma.bc` (R208): it passes its checks and its A registers are full; the team waits at it for the delivery. -/
def BroadcastWaits : Prop := ∀ c f s d x s1 r m, (Instr.mma c f).wf = true → Issues s c false d x s1 → f.bcast = true →
  mmaStatic c f d.node = none → mmaCheck x f none = some r → mmaEmpty c f x = false → x.members.head? = some m →
  ∀ t, s1.team? x.team.id = some t → After (.mma c f) s (fun u => ∃ t', u.team? x.team.id = some t' ∧
    t'.bwait = some (c, f, m.g, x.addr) ∧ t'.bcount = t.bcount ∧ t'.banks = t.banks ∧ u.mem = s.mem ∧ u.cores = s.cores)

/-- BROADCAST_DELIVERY (R208): once every team of the cluster's stream has reached its broadcast `mma` and every unit can
start it, all issue and start it in one clock, each with the bytes of the lead rank's reservation. -/
def BroadcastDelivered : Prop := ∀ s node team n t0 rest lead, s.node? node = some n → s.stream team = t0 :: rest →
  s.leadTeam n t0 = some lead → (∀ t ∈ t0 :: rest, t.phase = .placed ∧ t.bwait.isSome = true ∧ s.unitFree t = true) →
  let d : Delivery :=
    { id := s.nextId, src := lead.id, res := lead.bwait.bind (fun w => Tbl.find? lead.obs w.2.1.bres.toNat),
      tile := (lead.bwait.map (fun w => w.2.1.boff.toNat / 384)).getD 0 }
  let s2 := (t0 :: rest).foldl (fun st t => st.goBroadcast t d) ({ s with nextId := s.nextId + 1 } : State)
  (∀ t ∈ t0 :: rest, s2.advanced t = true) →
  (∀ t ∈ t0 :: rest, ∀ o ∈ (s2.core t.core).matq, o.id = s.nextId → s2.canStart t.core o = true) →
  (t0 :: rest).Pairwise (fun a b => a.core ≠ b.core) →
  After (.broadcastDelivery node team) s (fun u => ∀ t ∈ t0 :: rest, ∀ o, opAt s2 t.core s.nextId = some o →
    ∃ o', opAt u t.core s.nextId = some o' ∧ o'.started = true)

/-- MATRIX_OP_START (R209 to R211): an operation that the unit and the scoreboard let start has started, with the bytes of
its scratchpad operand as they stand; an `mma` takes the perturbation armed at its bank (R221). -/
def OperationStarts : Prop := ∀ s core op o, opAt s core op = some o → s.canStart core o = true →
  After (.matrixOpStart core op) s (fun u => u.mem = s.mem ∧ u.parts = s.parts ∧
    ∃ o', opAt u core op = some o' ∧ o'.started = true ∧ o'.b = s.portBytes o ∧ o'.a = o.a ∧ o'.bank = o.bank ∧ o'.kind = o.kind)

/-- OPERANDS_CONSUMED (R209, R212): the operation has read its operand and keeps the bytes that it has found; `ast` has read its
bank, which earlier operations on it have left for good (R211), and some of its words stand in the scratchpad (which, the spec leaves
open: `torn` numbers the choice, log entry 49). -/
def OperandsTaken : Prop := ∀ s core op o, opAt s core op = some o → o.started = true → o.consumed = false →
  (∀ ty sat rnd a p sc ph, o.kind = .ast ty sat rnd a p sc ph → s.bankSettled core o = true) →
  After (.operandsConsumed core op) s (fun u => u.mem = s.mem ∧
    (∃ o', opAt u core op = some o' ∧ o'.consumed = true ∧ o'.b = o.b ∧ o'.a = o.a ∧ o'.kind = o.kind) ∧
    ((∀ ty sat rnd a p sc ph, o.kind ≠ .ast ty sat rnd a p sc ph) → u.teams = s.teams) ∧
    (∀ ty sat rnd a p sc ph t, o.kind = .ast ty sat rnd a p sc ph → s.team? o.team = some t → ∃ o' t',
      opAt u core op = some o' ∧ u.team? o.team = some t' ∧
        t'.scratch = putWords o'.torn true (astWrites (t.bankData o.bank) ty sat rnd a p sc ph).1 t.scratch))

/-- MATRIX_OP_COMPLETION (R209, R213): the operation has left the unit, with its effect; `e` is the state before a team
whose work is done ends. An `mma` leaves its result in its bank, `ald.zero` a bank of +0, `ast` the rest of its words. -/
def OperationCompletes : Prop := ∀ s core op o t, opAt s core op = some o → s.canComplete op = true → s.team? o.team = some t →
  s.cores.flatMap (fun c => (c.2.matq.filter (fun y => decide (y.id = op))).map (fun y => (c.1, y))) = [(core, o)] →
  ∃ e : State, exec (.matrixOpCompletion core op false) s = .next (e.tryEnd o.team) ∧ (∀ c, ∀ y ∈ (e.core c).matq, y.id ≠ op) ∧
    (∀ afmt mode src bres tile bc r, o.kind = .mma afmt mode src bres tile bc → o.res = some r → o.arrive = none →
      perturbs o (mmaBank o afmt mode r (t.bankData o.bank)) = false → (Tbl.find? t.banks o.bank).isSome = true →
      ∃ t', e.team? o.team = some t' ∧ t'.bankData o.bank = mmaBank o afmt mode r (t.bankData o.bank) ∧ t'.scratch = t.scratch) ∧
    (∀ a p, o.kind = .ald true a p → (Tbl.find? t.banks o.bank).isSome = true →
      ∃ t', e.team? o.team = some t' ∧ ∀ i, Tbl.get 0#32 (t'.bankData o.bank) i = 0#32) ∧
    (∀ ty sat rnd a p sc ph, o.kind = .ast ty sat rnd a p sc ph → ∃ t', e.team? o.team = some t' ∧ t'.banks = t.banks ∧
      t'.scratch = putWords o.torn false (astWrites (t.bankData o.bank) ty sat rnd a p sc ph).1 t.scratch)

/-! ### Claims and flows (R279, R286, R319) -/

/-- CLAIM_WALK_END (R279, Table 15.4): a walk that finds every page ends Held with its extents; one that exceeds a limit ends
Free with its status; one that traps ends Free for IllegalOperand and Faulted otherwise, with the failing address; one that meets a
page whose translation is not at hand keeps its place. -/
def WalkEnds : Prop := ∀ s team c t n, Watched s team t n → (t.claim c).state = .walking →
  let cl := t.claim c
  let walk := (s.walkClaim { n := n, core := t.core, who := .claim t.id c } cl.descAddr cl.buf.isSome cl.walk).2
  let ends (P : Claim → Prop) : Prop := After (.claimWalkEnd team c) s (fun u => u.mem = s.mem ∧
    ∃ t', u.team? team = some t' ∧ P (t'.claim c) ∧ ∀ k, k ≠ c → t'.claim k = t.claim k)
  (∀ a, walk = .go a → ends (fun k => k.state = .held ∧ k.status = .ok ∧ k.desc = a.claimDesc ∧ k.extents = a.exts.reverse ∧
    k.gpages = a.gpages ∧ k.outcome = .done (16 * a.exts.length) ∧ k.walker = cl.walker ∧ k.buf = cl.buf)) ∧
  (∀ a va wr want, walk = .wait a va wr want → ends (fun k => k = { cl with walk := a })) ∧
  (∀ st, walk = .limit st → ends (fun k => k.state = .free ∧ k.status = st ∧ k.extents = [] ∧ k.outcome = .done st.code ∧ k.buf = cl.buf)) ∧
  (∀ k e, walk = .trap k e → ends (fun y => y.state = (if k = .illegalOperand then .free else .faulted) ∧
    y.eaddr = BitVec.ofNat 64 e ∧ y.outcome = .trap k (BitVec.ofNat 64 e) ∧ y.buf = cl.buf))

/-- FLOW_COMPLETION (R286, Table 15.6): the flow is over and its claim counts one less; the last of an unsevered claim
without a deferred revocation leaves it Held. `e` is the state before a team whose work is done ends. -/
def FlowEnds : Prop := ∀ s flow f t n, s.flows.find? (fun y => decide (y.id = flow)) = some f → s.team? f.team = some t →
  s.node? t.node = some n → s.flowReady f = true → f.severed = none → f.desc.kind = .copy → f.desc.bark = 0 → s.lost = [] →
  ∃ e : State, exec (.flowCompletion flow) s = .next (e.tryEnd f.team) ∧ (∀ g ∈ e.flows, g.id ≠ flow) ∧
    e.mem = ((s.noteFlow n f).moveFlow n f).1.mem ∧ ∃ t', e.team? f.team = some t' ∧
      (t'.claim f.claim).flows = (t.claim f.claim).flows - 1 ∧
      ((t.claim f.claim).flows ≤ 1 → (t.claim f.claim).deferred = 0 → (t'.claim f.claim).state = .held) ∧
      ((t.claim f.claim).flows ≤ 1 → (t.claim f.claim).deferred ≠ 0 →
        (t'.claim f.claim).state = .revoked ∧ (t'.claim f.claim).cause = (t.claim f.claim).deferred)

/-- What a copy flow moves (R284): with source and destination each one run of DRAM outside the node's shadows, no poison,
the destination's bytes are the source's and every other byte stays. -/
def CopyMoves : Prop := ∀ (s : State) (n : Node) (f : Flow) (src dst : Placed),
  s.node? n.id = some n → f.desc.kind = .copy → f.severed = none → f.cb = none → f.desc.cbuf = false →
  placeRuns f.extents false (f.desc.src.runs f.off f.len) = [src] → placeRuns f.extents true (f.desc.dst.runs f.off f.len) = [dst] →
  src.len = dst.len → (∀ r, r = src ∨ r = dst → s.enginePlace r.attr r.hpa = .home ∧ n.shadowed r.va r.len = false) →
  (s.readMem (16 * n.world + src.attr.comp) src.hpa src.len src.attr.home).2.1 = false →
  ∀ b, (s.moveFlow n f).1.byte b = if dst.hpa ≤ b ∧ b < dst.hpa + dst.len then s.byte (src.hpa + (b - dst.hpa)) else s.byte b

/-- MULTICAST_RECEIVE (R319): another package's flow that every check lets through is written and answered; one that fails a
check is answered negatively and changes nothing. -/
def MulticastReceived : Prop := ∀ s group trav off bytes,
  (∀ t s1, parseTrav trav = some t → s.receive group t off bytes = some s1 →
    exec (.multicastReceive group trav off bytes) s = .next { s1 with outputs := s1.outputs ++ [.mcastReply group true] }) ∧
  ((parseTrav trav = none ∨ ∃ t, parseTrav trav = some t ∧ s.receive group t off bytes = none) →
    exec (.multicastReceive group trav off bytes) s = .next { s with outputs := s.outputs ++ [.mcastReply group false] })

/-- The checks of an incoming multicast (R319): an entry that is not VALID, a compartment that is not Active, and bytes
beyond the record are refused. -/
def MulticastChecked : Prop := ∀ (s : State) group t off bytes,
  ((s.mcastEntry group).valid = false ∨
    (s.comp (16 * ((s.mcastEntry group).head.toNat / 2 ^ 16 % 64) + (s.mcastEntry group).head.toNat / 2 ^ 24 % 16)).state ≠ .active ∨
    t.len < off + bytes.length) → s.receive group t off bytes = none

/-- What a multicast flow writes at another package that takes it (R319) lies in that package's memory. -/
def PeersApart : Prop := ∀ (s : State) f bs p, p < 512 → ∀ a, pkgOf a ≠ p → (s.peerWrite f bs p).byte a = s.byte a

/-! ### Messages (R310, R311, R313) -/

/-- The send of a number. -/
def sendAt (s : State) (i : Nat) : Option Send := s.sends.find? (fun x => decide (x.id = i))

/-- Credits and messages: a request before which its core has none on the way to the same core (R302) joins those that wait at its
receive queue; the queue grants its first while fewer than
16 slots hold a message or a grant; the message takes its slot once earlier ones of its binding have arrived. A request to
a team that has ended or parked is granted at once, its message discarded. -/
def MessagesTravel : Prop := ∀ s i x, sendAt s i = some x →
  (x.phase = .requested → ∀ t, s.team? x.dstTeam = some t →
    (t.recvGone = true → s.earlierRequest x = false → After (.creditRequest i) s (fun u => sendAt u i = some { x with phase := .granted, discarded := true } ∧
      u.teams = s.teams ∧ u.mem = s.mem)) ∧
    (t.recvGone = false → s.earlierRequest x = false → i ∉ (t.recv x.rq).waiting → After (.creditRequest i) s (fun u => u.sends = s.sends ∧ u.mem = s.mem ∧
      ∃ t', u.team? x.dstTeam = some t' ∧ t'.recv x.rq = { t.recv x.rq with waiting := (t.recv x.rq).waiting ++ [i] } ∧
        ∀ q, q ≠ x.rq → t'.recv q = t.recv q)) ∧
    (∀ w, (t.recv x.rq).waiting = i :: w → (t.recv x.rq).msgs.length + (t.recv x.rq).granted < 16 →
      After (.creditGrant i) s (fun u => sendAt u i = some { x with phase := .granted } ∧ u.mem = s.mem ∧
        ∃ t', u.team? x.dstTeam = some t' ∧
          t'.recv x.rq = { t.recv x.rq with waiting := w, granted := (t.recv x.rq).granted + 1 }))) ∧
  (∀ m t, x.phase = .travelling → x.msg = some m → earlierSend x s.sends = false → s.team? x.dstTeam = some t →
    After (.messageArrival i) s (fun u => sendAt u i = none ∧ u.mem = s.mem ∧ ∃ t', u.team? x.dstTeam = some t' ∧
      t'.recv x.rq = { t.recv x.rq with msgs := (t.recv x.rq).msgs ++ [{ m with seq := s.nextId }],
                                         granted := (t.recv x.rq).granted - 1 }))

/-! ### Walks, fault queues and shootdowns (R223 to R235, R231, R371, R392) -/

/-- TRANSLATION_WALK: a walk that both stages map ends with its translation in the TLB, the old one of its page gone. -/
def TranslationFound : Prop := ∀ s i w s1 e, s.walks.find? (fun y => decide (y.id = i)) = some w → w.waitOn = none →
  s.walkFor w = .done s1 e → (∀ q, w.who ≠ .side q ∧ w.who ≠ .faultWriter q) →
  AfterSides (.translationWalk i) s (fun t => t.tlb.head? = some e ∧ (∀ y ∈ t.walks, y.id ≠ w.id) ∧
    (∀ y ∈ t.tlb, y.die = e.die → y.world = e.world → y.vpage = e.vpage → y = e) ∧ t.mem = s1.mem ∧ t.teams = s1.teams)

/-- The two answers to a record of a stage-1 queue, Retry and Invalid. -/
def fqAnswer (world : Nat) (id : BitVec 32) (invalid : Bool) : Instr :=
  if invalid then .fqAnswerInvalid world id else .fqAnswerRetry world id
def s2qAnswer (part : Nat) (id : BitVec 32) (invalid : Bool) : Instr :=
  if invalid then .s2qAnswerInvalid part id else .s2qAnswerRetry part id

/-- An answer to an id that is not outstanding is counted in IGNORED and has no other effect (R233). -/
def AnswersIgnored : Prop := ∀ (s : State) n id invalid,
  ((∀ e ∈ (s.world n).fq.outstanding, e.1 ≠ id) → AfterSides (fqAnswer n id invalid) s (fun t =>
    t = s.modWorld n (fun w => { w with fq := { w.fq with ignored := w.fq.ignored + 1 } }))) ∧
  ((∀ e ∈ (s.part n).s2q.outstanding, e.1 ≠ id) → AfterSides (s2qAnswer n id invalid) s (fun t =>
    t = s.modPart n (fun p => { p with s2q := { p.s2q with ignored := p.s2q.ignored + 1 } })))

/-- An answer to an outstanding id that one strand waits for (R233, R234): the id and its merge entry are gone; after Retry
the strand's walk goes on; after Invalid, unless it met its fault in a walk's own entry, it is over and the strand will raise
Protection. -/
def AnswersTaken : Prop := ∀ (s : State) n id (m : Merge) (w : Walk) tm g q,
  s.merges.find? (fun y => decide (y.id = m.id)) = some m → m.waiters = [w.id] →
  s.walks.find? (fun y => decide (y.id = w.id)) = some w → w.who = .strand tm g q →
  let retried (t : State) : Prop := (∀ y ∈ t.merges, y.id ≠ m.id) ∧ t.mem = s.mem ∧
    t.walks = s.walks.map (fun y => if y.id = w.id then { y with waitOn := none, fault := none } else y) ∧ t.denied = s.denied
  let refused (t : State) : Prop := (∀ y ∈ t.merges, y.id ≠ m.id) ∧ t.mem = s.mem ∧ (∀ y ∈ t.walks, y.id ≠ w.id) ∧
    t.denied = s.denied ++ [{ who := w.who, vpage := w.va / 65536, access := w.access }]
  ((s.world n).fq.outstanding.find? (fun e => decide (e.1 = id)) = some (id, m.id) →
    AfterSides (.fqAnswerRetry n id) s (fun t => retried t ∧ ∀ e ∈ (t.world n).fq.outstanding, e.1 ≠ id) ∧
    ((∀ l, w.fault ≠ some (kStage2InWalk, l)) → AfterSides (.fqAnswerInvalid n id) s (fun t => refused t ∧ ∀ e ∈ (t.world n).fq.outstanding, e.1 ≠ id))) ∧
  ((s.part n).s2q.outstanding.find? (fun e => decide (e.1 = id)) = some (id, m.id) →
    AfterSides (.s2qAnswerRetry n id) s (fun t => retried t ∧ ∀ e ∈ (t.part n).s2q.outstanding, e.1 ≠ id) ∧
    ((∀ l, w.fault ≠ some (kStage2InWalk, l)) → AfterSides (.s2qAnswerInvalid n id) s (fun t => refused t ∧ ∀ e ∈ (t.part n).s2q.outstanding, e.1 ≠ id)))

/-- The registers of the fault queues (R232): a tail above the head is ignored, and a base that is not a multiple of 128 KiB;
after a write, records that are held are tried again. -/
def QueueRegisters : Prop := ∀ (s : State) n (v : DWord),
  ((s.world n).fq.head.toNat < v.toNat → exec (.fqtailWrite n v) s = .next s) ∧
  (v.toNat ≤ (s.world n).fq.head.toNat → exec (.fqtailWrite n v) s =
    .next ((s.modWorld n (fun w => { w with fq := { w.fq with tail := v } })).retryHeld false n)) ∧
  (v.toNat ≤ (s.world n).fq.head.toNat → (s.world n).fq.held = [] → exec (.fqtailWrite n v) s =
    .next (s.modWorld n (fun w => { w with fq := { w.fq with tail := v } }))) ∧
  ((s.part n).s2q.head.toNat < v.toNat → exec (.s2qTailWrite n v) s = .next s) ∧
  (v.toNat ≤ (s.part n).s2q.head.toNat → (s.part n).s2q.held = [] → exec (.s2qTailWrite n v) s =
    .next (s.modPart n (fun p => { p with s2q := { p.s2q with tail := v } }))) ∧
  (v.toNat ≤ (s.part n).s2q.head.toNat → ∃ t, exec (.s2qTailWrite n v) s = .next t) ∧
  (v.toNat % 131072 ≠ 0 → exec (.fqbaseWrite n v) s = .next s) ∧
  (v.toNat % 131072 = 0 → (s.world n).fq.held = [] → After (.fqbaseWrite n v) s (fun t =>
    (t.world n).fq = { (s.world n).fq with base := v } ∧ t.mem = s.mem ∧ t.teams = s.teams))

/-- A translation of a shootdown's range. -/
def inShoot (world : Nat) (stage2 : Bool) (page count : Nat) (e : TlbEntry) : Prop :=
  e.world = world ∧ page ≤ (if stage2 then e.gpage else e.vpage) ∧ (if stage2 then e.gpage else e.vpage) < page + count

/-- Shootdowns (R231, R392): a command finds no other running: its status reads 1 and no translation of the range is left in a
TLB; once nothing that it covers is in flight it ends, its status reads 2, and no
translation of the range is left then (log entry 46). A command while one runs is refused. -/
def Shootdowns : Prop := ∀ (s : State) world (addr pages : DWord), world < 64 →
  (∀ stage2, s.shoot.2.2.2 ≠ 1#64 → After (.shootCommand world stage2 addr pages) s (fun t => t.shoot.2.2.2 = 1#64 ∧ t.mem = s.mem ∧
    (∃ d ∈ t.shoots, d.world = world ∧ d.stage2 = stage2 ∧ d.page = addr.toNat / 65536 ∧ d.count = pages.toNat ∧ d.by_ = .shoot) ∧
    ∀ e ∈ t.tlb, ¬ inShoot world stage2 (addr.toNat / 65536) pages.toNat e)) ∧
  (∀ stage2, s.shoot.2.2.2 = 1#64 → exec (.shootCommand world stage2 addr pages) s = .next s) ∧
  ((s.world world).s1shoot.2.2 ≠ 1#64 → After (.s1shootCommand world addr pages) s (fun t => (t.world world).s1shoot = (addr, pages, 1#64) ∧
    t.mem = s.mem ∧ ∀ e ∈ t.tlb, ¬ inShoot world false (addr.toNat / 65536) pages.toNat e)) ∧
  (∀ d, s.shoots.find? (fun y => decide (y.id = d.id)) = some d → s.shootDrained d = true → After (.shootdownComplete d.id) s (fun t =>
    (∀ y ∈ t.shoots, y.id ≠ d.id) ∧ t.mem = s.mem ∧ (∀ e ∈ t.tlb, ¬ inShoot d.world d.stage2 d.page d.count e) ∧ (d.by_ = .shoot → t.shoot.2.2.2 = 2#64) ∧
    ∀ w, d.by_ = .s1 w → (t.world w).s1shoot.2.2 = 2#64))

/-- PAGE_RESET (R371): the pages of a range of the package's DRAM read as zero and their lines have version 0; every other
byte and line stays, and the status reads 2. -/
def PagesReset : Prop := ∀ (s : State) (addr pages : DWord),
  let a := addr.toNat / 65536 * 65536
  pkgOf a = s.pkgid.toNat → localOf a + 65536 * pages.toNat ≤ 0x2A000000000 → isDram a = true →
  After (.pageReset addr pages) s (fun t => t.pgreset = (addr, pages, 2#64) ∧
    ∀ b, (a ≤ b ∧ b < a + 65536 * pages.toNat → t.byte b = 0#8 ∧ t.line b = Line.reset) ∧
      (b < a ∨ a + 65536 * pages.toNat ≤ b → t.byte b = s.byte b ∧ t.line b = s.line b))

/-- MIGRATION (R265): the bytes of a page that a 64 KiB leaf maps stand in the new frame, which the leaf then names; no byte
of another page but the leaf's changes. -/
def PageMoves : Prop := ∀ (s : State) world (gpa frame : DWord) e old x1 x2 x3 x4, Memory.wf s.mem = true →
  s.stage2 world gpa.toNat = .leaf e old x1 x2 x3 x4 0 → x4 ≠ 1#2 → frame.toNat / 65536 ≠ old →
  isDram (old * 65536) = true → isDram (frame.toNat / 65536 * 65536) = true → pkgOf (old * 65536) = s.pkgid.toNat →
  pkgOf (frame.toNat / 65536 * 65536) = s.pkgid.toNat →
  (∀ t ∈ s.teams, ∀ c ∈ t.claims, c.2.state ≠ .flowing) →
  (∀ b, e ≤ b → b < e + 8 → b / 65536 ≠ frame.toNat / 65536) →
  After (.migration world gpa frame) s (fun t =>
    (∀ b, b / 65536 = frame.toNat / 65536 → t.byte b = s.byte (old * 65536 + b % 65536)) ∧
    (∀ b, b / 65536 ≠ frame.toNat / 65536 → (b < e ∨ e + 8 ≤ b) → t.byte b = s.byte b) ∧
    ∀ y ∈ t.tlb, ¬ inShoot world true (gpa.toNat / 65536) 1 y)

/-! ### Pre-emption and placement (R334, R354 to R357) -/

/-- The PREEMPT register (R389, R392): a command starts the pre-emption of the teams of its target and is done when none is on
a core; a parcel of it stands between two instructions, and may go on on another core (R116); a value that names nothing is refused, and a write that finds it busy is ignored. -/
def PreemptCommands : Prop := ∀ (s : State) (v : DWord),
  let marked (p : Node → Bool) (t : State) : Prop := t.mem = s.mem ∧ ((∀ n ∈ s.nodes, p n = true → n.parcels = []) → t.parts = s.parts) ∧
    t.preemptReg = (v, if s.teams.any (fun u => u.onCore && s.nodeIs p u) then 1#64 else 2#64) ∧
    t.teams = s.teams.map (fun u => if u.phase = .placed ∧ s.nodeIs p u = true then { u with preempt := true } else u)
  (s.preemptReg.2 = 1#64 → exec (.preemptWorld v.toNat) s = .next s ∧ exec (.preemptNode v) s = .next s) ∧
  (s.preemptReg.2 ≠ 1#64 →
    (v.toNat < 64 → After (.preemptWorld v.toNat) s (marked (fun n => decide (n.world = v.toNat)))) ∧
    (65536 ≤ v.toNat → (∃ n ∈ s.nodes, n.handle.toNat = v.toNat) →
      After (.preemptNode v) s (marked (fun n => decide (n.handle.toNat = v.toNat)))) ∧
    ((v.toNat < 65536 ∨ ∀ n ∈ s.nodes, n.handle.toNat ≠ v.toNat) →
      exec (.preemptNode v) s = .next { s with preemptReg := (v, 3#64) }))

/-- TEAM_PREEMPT_START (R355, step 1): a placed team with a pre-emption due stops issuing: it is Stopping, its strands hold at
nothing. -/
def PreemptionStarts : Prop := ∀ s team t n, s.team? team = some t → s.node? t.node = some n → t.phase = .placed →
  (t.preempt = true ∨ t.nwait.isSome = true ∨ s.outranked n t = true) → n.desc.cores = false →
  After (.teamPreemptStart team) s (fun u => u.mem = s.mem ∧ ∃ t', u.team? team = some t' ∧ t'.phase = .stopping ∧ t'.bwait = none ∧
    t'.claims = t.claims ∧ t'.banks = t.banks ∧ t'.scratch = t.scratch ∧ t'.groups.map (fun g => g.regs) = t.groups.map (fun g => g.regs) ∧
    ∀ g ∈ t'.groups, ∀ st ∈ g.strands, st.arrived = none ∧ st.hold = .none)

/-- BANK_WAIT_DEADLOCK (R195): when every team that holds banks or records waits for more, none of that kind is free and no team gives
any back, the youngest is pre-empted. -/
def DeadlockBroken : Prop := ∀ s core t n, youngest ((s.teamsOn core).filter (fun u => decide (u.banks ≠ []) || decide (u.obs ≠ []))) = some t →
  (∀ u ∈ s.teamsOn core, (u.banks ≠ [] ∨ u.obs ≠ []) → u.phase = .placed ∧
    (u.waitsRes true = true ∧ 16 ≤ s.banksUsed core ∨ u.waitsRes false = true ∧ 16 ≤ s.obsUsed core)) →
  (∀ u ∈ s.teamsOn core, s.nodeIs (s.givingBack u) u = false) → s.node? t.node = some n → n.desc.cores = false →
  After (.bankWaitDeadlock core) s (fun u => u.mem = s.mem ∧ ∃ t', u.team? t.id = some t' ∧ t'.phase = .stopping)

/-- The other side of R195: a free bank or record goes to its waiter, and nobody is pre-empted for it. -/
def FreeServes : Prop := ∀ (s : State) core u, u ∈ s.teamsOn core → (u.banks ≠ [] ∨ u.obs ≠ []) →
  (u.waitsRes true = true → s.banksUsed core < 16) → (u.waitsRes false = true → s.obsUsed core < 16) →
  exec (.bankWaitDeadlock core) s = .next s

/-- TEAM_STATE_SAVE (R355, steps 3 and 4): a stopping team with no work in flight is saved with its scratchpad, form file,
registers, banks and predicates; its held claims are Dormant (R283). -/
def TeamsSaved : Prop := ∀ s team t, s.team? team = some t → t.phase = .stopping → s.savePending team = false →
  After (.teamStateSave team) s (fun u => u.mem = s.mem ∧ ∃ t', u.team? team = some t' ∧ t'.phase = .saved ∧ t'.preempt = false ∧
    t'.scratch = t.scratch ∧ t'.form = t.form ∧ t'.banks.map (fun b => (b.1, b.2.data)) = t.banks.map (fun b => (b.1, b.2.data)) ∧
    t'.obs = t.obs ∧ t'.sendq = t.sendq ∧ t'.mwin = t.mwin ∧ t'.dph = t.dph ∧
    t'.groups.map (fun g => (g.regs, g.kval, g.kdef, g.lflags, g.pc, g.trap)) =
      t.groups.map (fun g => (g.regs, g.kval, g.kdef, g.lflags, g.pc, g.trap)) ∧
    ∀ c, (t.claim c).state = .held → (t'.claim c).state = .dormant ∧ (t'.claim c).extents = (t.claim c).extents)

/-- TEAM_PLACEMENT (R334): the waiting teams of the cluster are placed, each on the core of its rank, with a scratchpad of
zeros. -/
def ClustersPlaced : Prop := ∀ s team core t n u, s.team? team = some t → s.node? t.node = some n → t.phase = .toPlace →
  (∀ v ∈ s.teamsOf n.id, v.phase = .toPlace → t.cluster ≤ v.cluster) → s.mayStart n = true →
  n.coreAt (n.leadOf core t.rank) t.rank = core → s.fanRect n t.cluster (n.leadOf core t.rank) = true →
  s.placeCluster n t (n.leadOf core t.rank) = some u →
  exec (.teamPlacement team core) s = .next u ∧ u.mem = s.mem ∧ ∃ t', u.team? team = some t' ∧ t'.phase = .placed ∧ t'.scratch = [] ∧
    ∃ v ∈ s.teams, v.id = team ∧ t'.core = n.coreAt (n.leadOf core t.rank) v.rank

/-- TEAM_RESTART (R356, R122): a saved team that finds room stands on the core again with its state, each lane at its resume
point, and as an acquire at `.pkg` the core's L1 is empty (R244). -/
def TeamsRestart : Prop := ∀ s team core t n s1 n1 b, s.team? team = some t → s.node? t.node = some n → t.phase = .saved →
  s.mayStart n = true → s.nwaitDone n t = true → n.coreAt (n.leadOf core t.rank) t.rank = core →
  s.rectFor n t.cluster (n.leadOf core t.rank) = true → s.restoreRoom t core = true →
  s.rectsAgain n t (n.leadOf core t.rank) = some s1 → s1.node? n.id = some n1 →
  (if n1.desc.cores then (Tbl.find? n1.clusters t.cluster).map (fun c => Tbl.get 0 c.bases t.rank)
    else roomFor (s.part n.part) n t.banks.length (s.slotsOn core)) = some b → t.sidelog = [] →
  After (.teamRestart team core) s (fun u => u.mem = s.mem ∧ (u.core core).l1 = [] ∧ ∃ t', u.team? team = some t' ∧ t'.phase = .placed ∧
    t'.core = core ∧ t'.scratch = t.scratch ∧ t'.banks = t.banks ∧ t'.claims = t.claims ∧ t'.nwait = none ∧ t'.groups.length = t.groups.length ∧
    ∀ (i : Nat) (g g' : Group), t.groups[i]? = some g → g.ended = false → t'.groups[i]? = some g' → ∀ l < 32, g'.pcOf l = g.restartPc l)

/-- TIME_SLICE_END (R357): the slice passes to another world with work, and the teams of the others are to be pre-empted. -/
def SlicesPass : Prop := ∀ s part next, (s.world next).partId = part → (s.world next).running = true → s.worldHasWork next = true →
  (s.part part).running ≠ some next →
  (∀ w, (s.part part).running = some w → (s.world w).running = false ∨ (s.part part).sliceStart + (s.world w).slice.toNat * 65536 ≤ s.clock) →
  After (.timeSliceEnd part next) s (fun t => (t.part part).running = some next ∧ (t.part part).sliceStart = s.clock ∧
    ((∀ n ∈ s.nodes, n.world = next → n.parcels = []) →
      t.part part = { s.part part with running := some next, sliceStart := s.clock }) ∧
    t.mem = s.mem ∧ ∀ u ∈ t.teams, u.phase = .placed → s.nodeIs (fun n => decide (n.part = part) && decide (n.world ≠ next)) u = true →
      u.preempt = true)

/-! ### Launches and nodes (R325 to R338, R360 to R367) -/

/-- The partition table is in its canonical order, which every step keeps. -/
def Ordered (s : State) : Prop := Tbl.sorted s.parts = true

/-- A queue whose record may be taken: it is mapped, its count exceeds TAKEN, its control block is valid. -/
structure Takeable (s : State) (w q : Nat) : Prop where
  mapped : ∃ c, (s.uqueue w q).slot = some c ∧ (s.uqueue w q).taken.toNat < c.1.toNat
  up : s.up = true
  valid : (s.uqueue w q).valid w = true
  part : (s.partOfWorld w).inUse = true
  flr : (s.world w).flr = false

/-- A refused launch of a queue stands in the partition's table, and `n` nodes do. -/
def Refused (t : State) (part w q : Nat) (nodes : List Node) (first : Option (Nat × Nat × DWord)) : Prop :=
  (∃ l ∈ (t.part part).launches, l.refused = true ∧ l.queue = q ∧ l.world = w ∧ l.first = first) ∧ (t.part part).nodes = nodes

/-- LAUNCH_ACCEPT (R325, R327): the record is read, its nodes are read, and then all is checked. TAKEN advances; a record that
passes its checks becomes a launch with its nodes, one that fails becomes a refused launch without any. -/
def LaunchesAccepted : Prop := ∀ s w q bs s1, Ordered s → Takeable s w q →
  let uq := s.uqueue w q
  let part := (s.world w).partId
  let r := rawLaunch (dwordsOf bs)
  s.agentRead (.scheduler w q) w (uq.ring.toNat + 64 * (uq.taken.toNat % 2 ^ uq.log2n)) 64 = .ok bs s1 →
  (r.counts = false → After (.launchAccept w q) s (fun t => (t.uqueue w q).taken = (s1.uqueue w q).taken + 1 ∧
    t.mem = s.mem ∧ Refused t part w q (s1.part part).nodes (some (0xFFFF, 0, 0#64)))) ∧
  (r.counts = true → (s.part part).nodes.length + r.nnodes ≤ Config.nodeTable → ∀ rs s2,
    State.readNodes (.scheduler w q) w r.graph r.nnodes 0 [] s1 = .ok rs s2 →
    (parseLaunch (dwordsOf bs) = none → After (.launchAccept w q) s (fun t => (t.uqueue w q).taken = (s2.uqueue w q).taken + 1 ∧
      t.mem = s.mem ∧ Refused t part w q (s2.part part).nodes (some (0xFFFF, 0, 0#64)))) ∧
    (parseLaunch (dwordsOf bs) ≠ none → (∀ i, s2.checkNodes w 0 rs = .inl i → After (.launchAccept w q) s (fun t =>
      (t.uqueue w q).taken = (s2.uqueue w q).taken + 1 ∧ t.mem = s.mem ∧
      Refused t part w q (s2.part part).nodes (some (i, 0, 0#64)))) ∧
    (∀ ns, s2.checkNodes w 0 rs = .inr ns → After (.launchAccept w q) s (fun t =>
      (t.uqueue w q).taken = (s2.uqueue w q).taken + 1 ∧ (t.part part).nodes.length = (s2.part part).nodes.length + ns.length ∧
      ∃ l ∈ (t.part part).launches, l.refused = false ∧ l.tag = r.tag ∧ l.done = some r.done ∧ l.queue = q))))

/-- QUEUE_SLOT_ROTATION (R328, R329): a free slot goes to the waiting queue that has waited longest, with its count. -/
def QueuesMapped : Prop := ∀ s part w q uq, ((s.partQueues part).filter (fun e => e.2.2.slot.isSome)).length < 64 →
  leastBy (fun (e : Nat × Nat × UQueue) => e.2.2.since) ((s.partQueues part).filter (fun e =>
    e.2.2.slot.isNone && e.2.2.isWaiting && !(s.world e.1).flr && !e.2.2.cut)) = some (w, q, uq) →
  After (.queueSlotRotation part) s (fun t => t.uqueue w q = { s.uqueue w q with slot := some ((s.uqueue w q).ncount, s.clock), since := s.clock } ∧
    t.mem = s.mem ∧ t.parts = s.parts ∧ ∀ w' q', (w', q') ≠ (w, q) → t.uqueue w' q' = s.uqueue w' q')

/-- READY_POOL_ADMIT and PRIORITY_AGING (R331, R332), and the return of a spilled record (R336). -/
def NodesReady : Prop := ∀ s node n, s.node? node = some n →
  (s.admissible n = true → (s.part n.part).poolSize < Config.readyPool →
    (n.device = true ∨ ∀ m ∈ (s.part n.part).nodes, m.device = true → s.admissible m = false) →
    After (.readyPoolAdmit n.part node) s (fun t => t.mem = s.mem ∧ t.teams = s.teams ∧
      t.node? node = some { n with state := .ready, readyAt := s.clock, effPrio := n.prio })) ∧
  (n.state = .ready → n.effPrio < 7 → n.readyAt + 2 ^ 20 * (n.effPrio - n.prio + 1) ≤ s.clock →
    After (.priorityAging n.part node) s (fun t => t.mem = s.mem ∧ t.teams = s.teams ∧ t.node? node = some { n with effPrio := n.effPrio + 1 })) ∧
  (∀ rest, (s.part n.part).spilledNodes = n :: rest → (s.part n.part).devQueue.length < Config.launchQueue →
    After (.spillReturn n.part) s (fun t => t.mem = s.mem ∧ t.teams = s.teams ∧ t.node? node = some { n with spilled := false }))

/-- NODE_DISPATCH (R332 to R334): the first node of the order that can place a cluster is dispatched: its operands' walks begin,
its claims and extents are none. -/
def NodesDispatched : Prop := ∀ s part lead n, Ordered s → (s.dispatchOrder part).find? s.canPlace = some n → s.canLead n lead = true →
  ∀ m, s.node? n.id = some m → After (.nodeDispatch part lead) s (fun t => t.mem = s.mem ∧ ∃ m', t.node? n.id = some m' ∧
    m'.dispatched = true ∧ m'.walking = true ∧ m'.claims = [] ∧ m'.extents = [] ∧
    m'.state = (if m.state = .running then .running else .dispatching))

/-- DISPATCH_WALK_END (R333, R99): an operand whose pages are all found is a held node claim, whose extents are the node's;
after the last the node runs, with one parcel, its tract: the whole grid at the entry point, its form file the
parameters. -/
def TractStarts : Prop := ∀ s node n, s.node? node = some n → n.walking = true → s.mayStart n = true →
  (n.nextOperand = none → After (.dispatchWalkEnd node) s (fun t => t.mem = s.mem ∧ (t.core n.leadCore).l1 = [] ∧ ∃ n' p,
    t.node? node = some n' ∧ n'.state = .running ∧ n'.walking = false ∧ n'.parcels = [p] ∧ p.pc = n.desc.entry ∧ p.lo = (0, 0, 0) ∧
    p.hi = (n.gridX, n.gridY, n.gridZ) ∧ ∀ i < 16, formGet p.form i = .uni (n.paramWord i))) ∧
  (∀ k s' a, n.nextOperand = some k → s.walkOperand n k = (s', .go a) → After (.dispatchWalkEnd node) s (fun t => t.mem = s.mem ∧ ∃ n',
    t.node? node = some n' ∧ (Tbl.get Claim.free n'.claims k).state = .held ∧
    n'.extents = n.extents ++ a.exts.reverse.map (fun e => { e with dir := (n.desc.operands.getD k (0, 0)).2 })))

/-- NODE_COMMIT (R360): a node whose work is done is Committed, its shadows of memory are memory, and its launch counts it. -/
def NodesCommit : Prop := ∀ s node n, Ordered s → s.node? node = some n → s.committable n = true → ∀ l, s.launch? n.launch = some l →
  After (.nodeCommit node) s (fun t => ∃ n' l', t.node? node = some n' ∧ n'.state = .committed ∧ n'.shadow = [] ∧ n'.claims = [] ∧
    t.launch? n.launch = some l' ∧ l'.ncommit = l.ncommit + 1 ∧
    ∀ a, t.byte a = if a < 2 ^ 56 ∧ (s.shadowPlace (a / 65536) = .home ∨ s.shadowPlace (a / 65536) = .other) then
      ((n.shadow.filter (fun e => decide (e.1 = a))).getLast?.map (fun e => e.2)).getD (s.byte a) else s.byte a)

/-- NODE_END_BY_TRAP (R346, R326): once its work in flight is over, a node that a trap ends is Ended with the trap's kind and
eaddr, and the first such node of a launch is its FIRST. -/
def NodesEnd : Prop := ∀ s node n k e, Ordered s → s.node? node = some n → n.ending = some (k, e) → s.drained node = true → n.cancelling = false →
  k ≠ .keyRevoked → After (.nodeEndByTrap node) s (fun t => t.mem = s.mem ∧ (∀ u ∈ t.teams, u.node ≠ node) ∧
    (∃ n', t.node? node = some n' ∧ n'.state = .ended ∧ n'.trapKind = k.code ∧ n'.eaddr = e ∧ n'.shadow = []) ∧
    ∀ l, s.launch? n.launch = some l → ∃ l', t.launch? n.launch = some l' ∧ l'.first = l.first.or (some (n.firstIx, k.code, e)))

/-- HOST_CANCELLATION (Table 17.7): a node that waits is Cancelled; one that runs stops, and is Cancelled once its work in
flight is over. -/
def NodesCancelled : Prop := ∀ (s : State) world (h : DWord) n,
  s.nodes.find? (fun y => decide (y.world = world) && decide (y.handle.toNat = h.toNat)) = some n → n.final = false →
  s.node? n.id = some n → Ordered s → (∀ m ∈ s.nodes, m.id = n.id → m = n) →
  ((n.state = .pending ∨ n.state = .ready) → After (.hostCancellation world h false) s (fun t => t.mem = s.mem ∧
    ∃ n', t.node? n.id = some n' ∧ n'.state = .cancelled)) ∧
  (n.state = .running → After (.hostCancellation world h false) s (fun t => t.mem = s.mem ∧
    ∃ n', t.node? n.id = some n' ∧ n'.state = .running ∧ n'.cancelling = true ∧ n'.ending.isSome = true)) ∧
  (n.ending.isSome = true → n.cancelling = true → s.drained n.id = true → After (.nodeEndByTrap n.id) s (fun t => t.mem = s.mem ∧
    ∃ n', t.node? n.id = some n' ∧ n'.state = .cancelled))

/-- HOST_CANCELLATION of a whole launch (Table 17.7): each of its nodes that waits is Cancelled, each that has been dispatched stops, and
the launch counts as cancelled. -/
def LaunchCancelled : Prop := ∀ (s : State) world (h : DWord) n,
  s.nodes.find? (fun y => decide (y.world = world) && decide (y.handle.toNat = h.toNat)) = some n → n.final = false →
  Ordered s → (∀ m ∈ s.nodes, ∀ k ∈ s.nodes, m.id = k.id → m = k) →
  After (.hostCancellation world h true) s (fun t => t.mem = s.mem ∧
    (∀ m ∈ s.nodes, m.launch = n.launch → m.final = false → ∃ m', t.node? m.id = some m' ∧
      ((m.state = .pending ∨ m.state = .ready) → m'.state = .cancelled) ∧
      ((m.state = .dispatching ∨ m.state = .running) → m'.state = m.state ∧ m'.cancelling = true ∧ m'.ending.isSome = true)) ∧
    ∀ l, s.launch? n.launch = some l → ∃ l', t.launch? n.launch = some l' ∧ l'.cancelled = true)

/-- LAUNCH_END (R326): when its nodes are final a launch whose completion record cannot be written is counted in NODONE, and
its table entries are free; the queue's vector, if it has one, is signalled. -/
def LaunchesEnd : Prop := ∀ s launch l, s.launch? launch = some l → (∀ n ∈ s.nodes, n.launch = launch → n.final = true) → s.up = true →
  l.done = none → After (.launchEnd launch) s (fun t => t.mem = s.mem ∧
    (t.uqueue l.world l.queue).nodone = (s.uqueue l.world l.queue).nodone + 1 ∧
    (∀ n ∈ (t.part l.part).nodes, n.launch ≠ l.id) ∧ (∀ y ∈ (t.part l.part).launches, y.id ≠ l.id) ∧
    t.outputs = s.outputs ++ (if (s.uqueue l.world l.queue).vector = 0xFFFF then [] else [.msix l.world (s.uqueue l.world l.queue).vector]))

/-- The completion record (R326, Table 17.4) is written at DONE, where that translates for writing to DRAM. -/
def CompletionWritten : Prop := ∀ s launch l va hpa attr ext, s.launch? launch = some l → (∀ n ∈ s.nodes, n.launch = launch → n.final = true) →
  s.up = true → l.done = some va → s.agentPage (.completion launch) l.world va .write = .ok hpa attr ext →
  s.enginePlace attr hpa = .home → After (.launchEnd launch) s (fun t =>
    (∀ i < 32, t.byte (hpa + i) = (s.completion l).getD i 0#8) ∧ (∀ a, a < hpa ∨ hpa + 32 ≤ a → t.byte a = s.byte a) ∧
    (t.uqueue l.world l.queue).nodone = (s.uqueue l.world l.queue).nodone)

/-- STATUS of a completion record (Table 17.4): 1 when every node committed, 2 when one did not, 3 refused, 4 cancelled,
5 poisoned; and its length. -/
def CompletionStatus : Prop := ∀ (s : State) (l : Launch), (s.completion l).length = 32 ∧
  (l.refused = true → s.launchStatus l = 3) ∧
  (l.refused = false → l.poisoned = true → s.launchStatus l = 5) ∧
  (l.refused = false → l.poisoned = false → l.cancelled = true → s.launchStatus l = 4) ∧
  (l.refused = false → l.poisoned = false → l.cancelled = false →
    ((∀ n ∈ s.nodes, n.launch = l.id → n.state = .committed) → s.launchStatus l = 1) ∧
    ((∃ n ∈ s.nodes, n.launch = l.id ∧ n.state ≠ .committed) → s.launchStatus l = 2))

/-- NODE_REPLAY (R364, R365, Table 18.7): a node that consumed an error, and has not escaped nor been replayed three times, goes
back to the pool without its teams, claims and shadows; at the limit it ends. -/
def NodesReplay : Prop := ∀ s node n k l, Ordered s → s.node? node = some n → n.consumed = some k → n.ending = none → s.drained node = true →
  s.launchDue n.launch = false → s.launch? n.launch = some l → n.parent ≠ some n.id →
  (n.escaped = false → n.noReplay = false → l.noReplay = false → n.replays < 3 → After (.nodeReplay node) s (fun t => t.mem = s.mem ∧
    (∀ u ∈ t.teams, u.node ≠ node) ∧ ∃ n', t.node? node = some n' ∧
      n'.state = (if n.state = .pending then .pending else .running) ∧ n'.dispatched = false ∧ n'.replays = n.replays + 1 ∧ n'.replayed = true ∧ n'.consumed = none ∧ n'.shadow = [] ∧ n'.params = n.params ∧ n'.handle = n.handle)) ∧
  (n.escaped = false → 3 ≤ n.replays → After (.nodeReplay node) s (fun t => t.mem = s.mem ∧
    ∃ n', t.node? node = some n' ∧ n'.state = .ended ∧ n'.trapKind = k.code)) ∧
  (n.escaped = true → (l.nonReplayable = true ∨ 2 ≤ l.replays) → (s.world l.world).errring = 0#64 → After (.nodeReplay node) s (fun t =>
    t.mem = s.mem ∧ ∃ l', t.launch? n.launch = some l' ∧ l'.poisoned = true))

/-- LAUNCH_REPLAY (R366, R342): with nothing of the launch running or in flight, its nodes of the record are Pending again, but for
those that KeyRevoked has ended or ends, and their successors, which are Cancelled; its counters, targets and copies are as at its
acceptance, its FIRST names such a node or none, and the replay is counted. -/
def LaunchesReplay : Prop := ∀ s launch l, Ordered s → s.launch? launch = some l → s.launchDue launch = true →
  (∀ n ∈ s.nodes, n.launch = launch → s.drained n.id = true) →
  After (.launchReplay launch) s (fun t => (∃ l', t.launch? launch = some l' ∧ l'.replays = l.replays + 1 ∧ l'.ncommit = 0 ∧ l'.ndev = 0 ∧
    l'.targets = [] ∧ l'.shadow = [] ∧ (l'.first = none ∨ ∃ m ∈ t.nodes, m.launch = launch ∧ m.state = .ended ∧
      l'.first = some (m.firstIx, m.trapKind, m.eaddr))) ∧
    (∀ n ∈ (t.part l.part).nodes, n.launch = launch → n.device = false ∧ (n.stays = true ∨ n.state = .pending ∨
      (n.state = .cancelled ∧ ∃ h ∈ n.preds, ∃ m ∈ (t.part l.part).nodes, m.handle = h ∧ (m.state = .ended ∨ m.state = .cancelled)))) ∧
    ∀ n ∈ s.nodes, n.launch = launch → ∀ u ∈ t.teams, u.node ≠ n.id)

end Sys2Proof.Claims
end

