-- ==== Sys2Proof/Certificates/Slice0/FormClaims.lean ====
section
/-! DEFINITION. Execution in form and fan-out as the rules of spec/06_tracts.md give them; where lanes stand after an
instruction in sequence (R27), the split of a divergent branch (R74), and what registers hold after a result. -/

namespace Sys2Proof.Claims

open Sys2Proof Sys2Proof.Machine

/-- Every vector instruction of the tables. -/
def vectorOp (i : Instr) : Option VOp :=
  (intOp i).or ((bitOp i).or ((immOp i).or ((divOp i).or ((floatOp i).or ((sfuOp i).or ((convertOp i).or
    ((moveOp i).or (exchangeOp i))))))))

/-! ### Affine values (R100, R103, Table 6.2) -/

/-- The value of a source kind at an item. -/
def kindAt (k : Kind) (i : Nat × Nat × Nat) : Word :=
  match k with
  | .uni v => BitVec.ofNat 32 v
  | .aff b cx cy cz => b + cx * BitVec.ofNat 32 i.1 + cy * BitVec.ofNat 32 i.2.1 + cz * BitVec.ofNat 32 i.2.2

/-- What an instruction that keeps affine values computes in one lane, from the lane's operands. -/
def laneRule (r : AffRule) (xs : List Word) : Option Word :=
  match r, xs with
  | .add, [a, b] => some (a + b)
  | .sub, [a, b] => some (a - b)
  | .neg, [a] => some (-a)
  | .mul, [a, b] => some (a * b)
  | .mad, [a, b, c] => some (a * b + c)
  | .shl, [a, n] => some (a <<< n.toNat)
  | .lea, [a, b, n] => some (a + b <<< n.toNat)
  | .mov, [a] => some a
  | .sel, [p, a, b] => some (if p = 0#32 then b else a)
  | _, _ => none

/-- A result kept affine has at every item the value that the instruction computes there from the values of its sources. -/
def FormAffine : Prop := ∀ r ks v i, (∀ k ∈ ks, ∀ u, k = Kind.uni u → u < 2 ^ 32) → affResult r ks = some v →
  v.at_ i = laneRule r (ks.map (fun k => kindAt k i))

/-! ### A parcel in form (R103) -/

/-- The parcel `p` of node `n` issues an instruction with the common fields `c`, and its guard is uniform with the value
`b`. -/
structure FormIssues (s : State) (c : Common) (n : Node) (p : Parcel) (b : Bool) : Prop where
  up : s.halted = false
  turn : s.cur = .parcel n.id p.id
  node : s.node? n.id = some n
  parcel : n.parcel? p.id = some p
  going : n.ending = none ∧ n.consumed = none
  set : ∀ k, c.scope = .set k → n.desc.sets.getD k.toNat 0#32 ≠ 0#32
  guard : p.guard n c = some b

/-- The parcel goes on in sequence with its form file and flag word changed by `f`. -/
def formGoes (s : State) (n : Node) (p : Parcel) (f : Parcel → Parcel) : State :=
  s.modNode n.id (fun x => x.modParcel p.id (fun y => (f y).advance))

/-- A vector instruction that a parcel meets: on uniform sources it executes once, with the value and the flags of one lane;
on affine ones where Table 6.2 keeps its result; with a lane register as its destination, or with Q or L, it forces
fan-out. -/
def TractComputes : Prop := ∀ i o s n p, vectorOp i = some o → i.wf = true → FormIssues s o.c n p true → o.static n = none →
  (∀ f ks, o.c.q = false → o.c.l = false → o.noForm = false → o.c.w = true → o.formDst = some f →
    kindsOf o.srcs p.form (p.uniPred n) n (s.cyc n.leadCore) = some ks →
    ((∀ k ∈ ks, k.isUni = true) → exec i s = .next (formGoes s n p (fun y =>
      let r := o.fn ⟨0, 0⟩ (ks.map Kind.uniVal)
      { y with form := formPut y.form f ((List.range o.dWords).map (fun j => .uni (BitVec.ofNat 32 (r.1 / 2 ^ (32 * j)))))
               flags := y.flags ||| r.2 }))) ∧
    (∀ v, (∃ k ∈ ks, k.isUni = false) → o.dWords = 1 → affResult o.aff ks = some v →
      exec i s = .next (formGoes s n p (fun y => { y with form := formPut y.form f [v] })))) ∧
  (o.c.q = true ∨ o.c.l = true ∨ o.noForm = true ∨ (o.c.w = true ∧ o.formDst = none) → exec i s = .next (s.fanOut n p))

/-- A guard that is uniform false makes a vector instruction a no-op for the parcel (R103). -/
def TractPasses : Prop := ∀ i o s n p, vectorOp i = some o → i.wf = true → FormIssues s o.c n p false → o.static n = none →
  exec i s = .next (formGoes s n p (fun y => y))

/-- `region` in form (R109): the parcel goes on. -/
def RegionInForm : Prop := ∀ c f s n p, (Instr.region c f).wf = true → FormIssues s c n p true → regionOperandsOk f n = true →
  exec (.region c f) s = .next (formGoes s n p (fun y => y))

/-- `exit` in form ends the whole parcel (R93, R107); the node re-forms if only parked teams are left (R113). -/
def ExitInForm : Prop := ∀ c f s n p, (Instr.exit c f).wf = true → FormIssues s c n p true →
  ∃ e : State, exec (.exit c f) s = .next (e.reForm n.id) ∧ (∀ a, e.byte a = s.byte a) ∧ e.teams = s.teams ∧
    ∃ n', e.node? n.id = some n' ∧ n'.parcels = n.parcels.filter (fun q => decide (q.id ≠ p.id))

/-- The groups of a team that fan-out makes (R105, R117): every lane stands at the parcel's instruction with its flag word; every lane
register is zero and full; a lane outside the grid has exited; predicates have their values at the lane's item; the form file is
the parcel's. -/
def FanOutGroups : Prop := ∀ (p : Parcel) (n : Node) id (c : Nat × Nat × Nat) g gr, (p.makeTeam n id c).groups[g]? = some gr →
  (p.makeTeam n id c).form = p.form ∧ gr.divs = [] ∧ gr.trap = none ∧
  gr.loops.map (fun l => (l.n, l.count, l.top, l.fin)) = p.loops.map (fun l => (l.n, l.count, l.top, l.fin)) ∧
  (∀ r, gr.isEmpty r = false ∧ ∀ l, gr.reg r l = 0#32) ∧
  ∀ l < 32, gr.pcOf l = p.pc ∧ Tbl.get 0#6 gr.lflags l = p.flags ∧
    (gr.exited.getLsbD l = true ↔ (p.exitMask (n.teamIndex c.1 c.2.1 c.2.2) g).getLsbD l = true ∨ n.teamLanes ≤ 32 * g + l ∨
      n.inGrid (n.item c.1 c.2.1 c.2.2 g l) = false) ∧
    ∀ k < 7, let v := (predGet p.preds k).at_ (n.item c.1 c.2.1 c.2.2 g l)
      gr.predDef k l = v.isSome ∧ (gr.pred k l = true ↔ v = some true)

/-- The team coordinates of a box. -/
def inBox (lo hi c : Nat × Nat × Nat) : Prop :=
  lo.1 ≤ c.1 ∧ c.1 < hi.1 ∧ lo.2.1 ≤ c.2.1 ∧ c.2.1 < hi.2.1 ∧ lo.2.2 ≤ c.2.2 ∧ c.2.2 < hi.2.2

/-- The teams `new` are those of the box from `lo` to `hi`, once each, as parcel `p` of node `n` makes them at its instruction, past
the check of the node's entry. -/
def FannedOut (n : Node) (p : Parcel) (lo hi : Nat × Nat × Nat) (new : List Team) : Prop :=
  (new.map (fun t => (t.tx, t.ty, t.tz))).Nodup ∧ (∀ c, (∃ t ∈ new, (t.tx, t.ty, t.tz) = c) ↔ inBox lo hi c) ∧
  ∀ t ∈ new, t.node = n.id ∧ t.form = p.form ∧
    t.groups = (({ p with entry := false } : Parcel).makeTeam n t.id (t.tx, t.ty, t.tz)).groups

/-- Fan-out (R105): the parcel is gone, the teams of its box stand beside the others, and no byte changes. -/
def FanOutTeams : Prop := ∀ (s : State) n p n', s.node? n.id = some n' → ∃ new, (s.fanOut n p).teams = s.teams ++ new ∧
  FannedOut n p p.lo p.hi new ∧ (∀ a, (s.fanOut n p).byte a = s.byte a) ∧
  ((s.fanOut n p).node? n.id).map (fun x => x.parcels) = some (n'.parcels.filter (fun q => decide (q.id ≠ p.id)))

/-! ### Predicates and branches in form (R104, R107 to R109) -/

/-- The coefficient of an affine value in a dimension. -/
def coefOf (d : Dim) (cx cy cz : Word) : Word :=
  match d with
  | .x => cx
  | .y => cy
  | .z => cz

/-- The value `b + c·i` of a 32-bit type at coordinate `i`, as an exact integer. -/
def exactAt (ty : ElemTy) (b c : Word) (i : Nat) : Int := asInt ty b.toNat + asInt ty c.toNat * i

/-- The compare has a range predicate (R104): of .lt, .le, .gt and .ge on 32-bit integers an affine value with one coefficient that is not
zero, which does not wrap over the parcel, against a uniform one, in either order. -/
def Representable (ty : ElemTy) (cond : Nat) (n : Node) (p : Parcel) (ks : List Kind) : Prop :=
  ∃ b cx cy cz u d, (ks = [.aff b cx cy cz, .uni u] ∨ ks = [.uni u, .aff b cx cy cz]) ∧ (ty = .i32 ∨ ty = .n32) ∧ 2 ≤ cond ∧ cond ≤ 5 ∧
    coefOf d cx cy cz ≠ 0#32 ∧ (∀ e, e ≠ d → coefOf e cx cy cz = 0#32) ∧
    (∀ i, i = (p.bounds n d).1 ∨ i + 1 = (p.bounds n d).2 →
      lowest ty ≤ exactAt ty b (coefOf d cx cy cz) i ∧ exactAt ty b (coefOf d cx cy cz) i ≤ highest ty)

/-- `kset` that a parcel meets: on uniform operands the predicate is uniform; where the compare is representable it is a range predicate
with the compare's value at every item of the parcel; any other compare of an affine operand forces fan-out (R104). -/
def KsetInForm : Prop := ∀ c f o k s n p ks, predOp (.kset c f) = some (o, k) → (Instr.kset c f).wf = true → k ≤ 6 → FormIssues s c n p true →
  o.static n = none → kindsOf o.srcs p.form (p.uniPred n) n (s.cyc n.leadCore) = some ks →
  let cmp := compared f.ty f.sub.toNat ⟨0, 0⟩
  ((∀ y ∈ ks, y.isUni = true) → exec (.kset c f) s = .next (formGoes s n p (fun y =>
    { y with preds := predSet y.preds k (.uni (decide ((cmp (ks.map Kind.uniVal)).1 ≠ 0))), flags := y.flags ||| (cmp (ks.map Kind.uniVal)).2 }))) ∧
  (Representable f.ty f.sub.toNat n p ks → (∀ y ∈ ks, ∀ u, y = Kind.uni u → u < 2 ^ 32) → (∀ d, (p.bounds n d).1 < (p.bounds n d).2) →
    ∃ v, exec (.kset c f) s = .next (formGoes s n p (fun y => { y with preds := predSet y.preds k v })) ∧
      ∀ i : Nat × Nat × Nat, (∀ d, (p.bounds n d).1 ≤ dimOf d i ∧ dimOf d i < (p.bounds n d).2) →
        v.at_ i = some (decide ((cmp (ks.map (fun y => (kindAt y i).toNat))).1 ≠ 0))) ∧
  ((∃ y ∈ ks, y.isUni = false) → ¬ Representable f.ty f.sub.toNat n p ks → exec (.kset c f) s = .next (s.fanOut n p))

/-- The parcel goes to `a`, with its form file changed by `f`. -/
def formMoves (s : State) (n : Node) (p : Parcel) (a : Addr) (f : Parcel → Parcel) : State :=
  s.modNode n.id (fun x => x.modParcel p.id (fun y => (f y).goto a))

/-- A parcel that is in no loop: where it goes in sequence and by a transfer, with what it holds. -/
def PartsKeep : Prop := ∀ (p : Parcel) a, p.loops = [] → (p.goto a).pc = a ∧ (p.pc.toNat % 64 < 5 → p.advance.pc = following p.pc) ∧
  ∀ q, q = p.goto a ∨ q = p.advance → q.form = p.form ∧ q.preds = p.preds ∧ q.flags = p.flags ∧ q.loops = [] ∧ q.lo = p.lo ∧ q.hi = p.hi

/-- `br` in form moves the whole parcel (R109). -/
def BranchInForm : Prop := ∀ c f s n p, (Instr.br c f).wf = true → FormIssues s c n p true → AtHand s n n.leadCore (fmtTarget f p.pc) →
  exec (.br c f) s = .next (formMoves s n p (fmtTarget f p.pc) id)

/-- `call` in form with a form link pair writes the address of the next instruction there, low word first, and moves the parcel (R109). -/
def CallInForm : Prop := ∀ c f s n p r, (Instr.call c f).wf = true → FormIssues s c n p true → opndOf f.srca = .form r → pairOk f n = true →
  AtHand s n n.leadCore (nextAddr p.pc) → AtHand s n n.leadCore (fmtTarget f p.pc) →
  exec (.call c f) s = .next (formMoves s n p (fmtTarget f p.pc) (fun y => { y with
    form := formPut y.form r [.uni ((nextAddr p.pc).setWidth 32), .uni ((nextAddr p.pc >>> 32).setWidth 32)] }))

/-- `brc` in form on a uniform predicate moves the whole parcel, to the target or to the next instruction (R109, R108). -/
def ConditionalInForm : Prop := ∀ c f s n p b, (Instr.brc c f).wf = true → FormIssues s c n p true → f.srca.toNat < 16 →
  p.uniPred n (f.srca.toNat % 8) = some b → (f.sub.getLsbD 0 = true → AtHand s n n.leadCore (fmtJoin f p.pc)) →
  (b ≠ f.srca.getLsbD 3 → AtHand s n n.leadCore (fmtTarget f p.pc) → exec (.brc c f) s = .next (formMoves s n p (fmtTarget f p.pc) id)) ∧
  (b = f.srca.getLsbD 3 → exec (.brc c f) s = .next (formGoes s n p (fun y => y)))

/-- A box with its bound in one dimension replaced. -/
def boundAt (d : Dim) (c : Nat × Nat × Nat) (v : Nat) : Nat × Nat × Nat :=
  match d with
  | .x => (v, c.2.1, c.2.2)
  | .y => (c.1, v, c.2.2)
  | .z => (c.1, c.2.1, v)

/-- The extent of a team in a dimension. -/
def teamExtent (n : Node) (d : Dim) : Nat :=
  match d with
  | .x => n.desc.tx
  | .y => n.desc.ty
  | .z => n.desc.tz

/-- `brc` in form on a range predicate that is not uniform cuts the parcel (R107): the teams wholly below the threshold and those wholly
above it stay in form, the part where the condition holds at the target and the other at the next instruction, and the teams
that the threshold cuts fan out at the branch. -/
def BranchCuts : Prop := ∀ c f s n p d t ge, (Instr.brc c f).wf = true → FormIssues s c n p true → f.srca.toNat < 16 →
  p.uniPred n (f.srca.toNat % 8) = none → predGet p.preds (f.srca.toNat % 8) = .range d t ge →
  AtHand s n n.leadCore (fmtTarget f p.pc) → (f.sub.getLsbD 0 = true → AtHand s n n.leadCore (fmtJoin f p.pc)) →
  let e := teamExtent n d
  let below := t / e
  let above := (t + e - 1) / e
  let go (q : Parcel) (holds : Bool) : Parcel := if holds != f.srca.getLsbD 3 then q.goto (fmtTarget f p.pc) else q.advance
  ∃ s' n' new i j, exec (.brc c f) s = .next s' ∧ (∀ a, s'.byte a = s.byte a) ∧ s'.node? n.id = some n' ∧ s'.teams = s.teams ++ new ∧
    n'.parcels = n.parcels.filter (fun q => decide (q.id ≠ p.id)) ++
      (if dimOf d p.lo < below then [go { p with id := i, hi := boundAt d p.hi below } (!ge)] else []) ++
      (if above < dimOf d p.hi then [go { p with id := j, lo := boundAt d p.lo above } ge] else []) ∧
    (below = above → new = []) ∧
    (below ≠ above → FannedOut n p (boundAt d p.lo below) (boundAt d p.hi above) new)

/-- What `loop` in form needs: a legal end after it, a uniform count, no LoopOverflow, and its end's line at hand. -/
structure FormLoop (s : State) (n : Node) (p : Parcel) (f : FmtC) (v : Nat) : Prop where
  word : wordOk f n = true
  ahead : p.pc.toNat < (fmtTarget f p.pc).toNat
  count : (countSrc f).kind p.form (p.uniPred n) n (s.cyc n.leadCore) = some (.uni v)
  target : AtHand s n n.leadCore (fmtTarget f p.pc)

/-- `loop` in form (R91, R109): with a count and a body the parcel keeps the counter and stands at the body's first instruction; without,
it reaches the end label as it would in sequence; a loop that overflows makes the parcel fan out. -/
def LoopInForm : Prop := ∀ c f s n p v, (Instr.loop c f).wf = true → FormIssues s c n p true → FormLoop s n p f v → (∀ u, opndOf f.srca ≠ .spec u) →
  let top := nextAddr p.pc
  let fin := fmtTarget f p.pc
  let flows := loopOverflow p.loops (f.sub.toNat % 4) top fin
  (flows = true → exec (.loop c f) s = .next (s.fanOut n p)) ∧
  (flows = false → v % 2 ^ 32 ≠ 0 → top ≠ fin → exec (.loop c f) s = .next (s.modNode n.id (fun x => x.modParcel p.id (fun y =>
    { y with pc := top, hold := .none, entry := false,
             loops := { n := f.sub.toNat % 4, count := BitVec.ofNat 32 v, top := top, fin := fin, depth := 0, waiting := 0#32 } :: y.loops })))) ∧
  (flows = false → v % 2 ^ 32 = 0 ∨ top = fin → exec (.loop c f) s = .next (s.modNode n.id (fun x => x.modParcel p.id (fun y =>
    { y with pc := (formNext y.pc fin y.loops).2, hold := .none, entry := false, loops := (formNext y.pc fin y.loops).1 }))))

/-- The address that a parcel's load names, from the uniform value of its address operand (R250). -/
def formVa (o : MOp) (n : Node) (a : Nat) : Nat :=
  if o.a64 then (BitVec.ofNat 64 a + o.f.offset.signExtend 64).toNat
  else (n.ent.mwin + (BitVec.ofNat 32 a).setWidth 64 + o.f.offset.signExtend 64).toNat

/-- `ld` in form (R103, Table 6.2): with a form destination of one or two registers and a uniform address its one access goes on its
way and the parcel waits; once the value has landed it is written and the parcel goes on; with another destination or address
the parcel fans out. -/
def LoadInForm : Prop := ∀ c f s n p o, globalOp (.ld c f) = some o → (Instr.ld c f).wf = true → FormIssues s c n p true → o.static n = none →
  (∀ r a, o.regs.formDst = some r → o.addrSrc.kind p.form (p.uniPred n) n (s.cyc n.leadCore) = some (.uni a) → o.words ≤ 2 →
    (∀ fl, s.parcelFill n.id p.id = some fl → fl.waiting = [] →
      exec (.ld c f) s = .next ((s.dropFill fl.id).modNode n.id (fun x => x.modParcel p.id (fun y =>
        ({ y with form := formPut y.form r (fl.formVals o.words) } : Parcel).advance)))) ∧
    (∀ w, s.parcelFill n.id p.id = none → formVa o n a % o.bytes = 0 → formVa o n a < 2 ^ 57 →
      s.resolve n n.leadCore (.parcel n.id p.id) .read (formVa o n a) o.bytes = .ok w → s.step4 n o.bytes w = none →
      ∃ s' r fl, exec (.ld c f) s = .next s' ∧ s'.nodes = s.nodes ∧ s'.teams = s.teams ∧ s'.mem = s.mem ∧
        s'.reqs = s.reqs ++ [r] ∧ s'.fills = s.fills ++ [fl] ∧ fl.parcel = some (n.id, p.id) ∧ fl.waiting = [r.id] ∧ r.fill = some fl.id ∧
        r.va = formVa o n a ∧ r.pa = w.hpa ∧ r.kind = .load (f.sub.getLsbD 0) ∧ r.width = f.width ∧ r.place = s.placeOf w)) ∧
  (o.regs.formDst = none ∨ (∀ a, o.addrSrc.kind p.form (p.uniPred n) n (s.cyc n.leadCore) ≠ some (.uni a)) ∨ 2 < o.words →
    exec (.ld c f) s = .next (s.fanOut n p))

/-! ### No active lane (R35, R76) -/

/-- The issuer's instruction is one that no lane of any member executes: the guard is false in each, or the lanes are masked. -/
structure Idles (s : State) (c : Common) (d : Stand) (x : Ctx) (s1 : State) : Prop where
  up : s.halted = false
  stands : ∃ t g k, s.cur = .strand t g k ∧ s.stand c t g k = some d ∧ badScope d.node d.team d.gr c.scope g = false ∧
    d.gr.guardUndef c d.at_ = false ∧ (if c.scope = .lane then x = d.own c g ∧ s1 = s else s.meet c t g k d = (some x, s1))
  idle : ∀ m ∈ x.members, m.act = 0#32

/-- The instruction changes nothing but control, and the lanes at it go on. -/
def PassesBy (i : Instr) (s : State) (x : Ctx) : Prop :=
  ∃ s', exec i s = .next s' ∧ s'.still x.team.id = s.still x.team.id ∧ (∀ a, s'.byte a = s.byte a) ∧
    ∀ m ∈ x.members, (x.group m).loops = [] → x.addr.toNat % 64 < 5 → ∀ l < 32,
      laneAt s' x.team.id m.g l = some (if m.at_.getLsbD l then following x.addr else (x.group m).pcOf l)

/-- What an instruction that carries its operands in a `VOp` must pass before it is found to have no active lane: legal fields, no
undefined source (R56, steps 4 and 5). -/
def Permitted (o : VOp) (d : Stand) : Prop := o.static d.node = none ∧ o.undef d.team d.gr d.act = false

/-- The vector, predicate, memory, barrier, matrix, claim and queue instructions and the transfers, with legal fields at `d`. -/
def Idle (i : Instr) (c : Common) (d : Stand) : Prop :=
  (∃ o, vectorOp i = some o ∧ o.c = c ∧ Permitted o d) ∨
  (∃ o k, predOp i = some (o, k) ∧ o.c = Machine.Common.noW c ∧ k ≤ 6 ∧ kSourcesOk o ∧ Permitted o d) ∨
  (∃ f, i = .xset c f ∧ Permitted (xsetOp c f) d) ∨
  (∃ o, memoryOp i = some o ∧ o.c = c ∧ o.static d.node = none ∧ o.regs.undef d.team d.gr d.act = false) ∨
  (∃ e, (barrierEng i = some e ∨ matrixEng i = some e ∨ claimEng i = some e ∨ queueEng i = some e) ∧ e.regs.c = c ∧
    e.legal d.node = true ∧ Permitted e.regs d) ∨
  (∃ f, i = .br c f ∨ i = .join c f ∨ i = .exit c f ∨ i = .bkpt c f ∨ (i = .brc c f ∧ f.srca.toNat < 16) ∨
    ((i = .brx c f ∨ i = .ret c f) ∧ pairOk f d.node = true ∧ (pairSrc f).undef d.team.form d.gr d.act = false) ∨
    (i = .call c f ∧ pairOk f d.node = true) ∨
    (i = .trap c f ∧ wordOk f d.node = true ∧ (countSrc f).undef d.team.form d.gr d.act = false))

/-- An instruction that no lane executes has no effect, and completes its rendezvous (R35, R76). -/
def IdlePasses : Prop := ∀ i c s d x s1, i.wf = true → Idles s c d x s1 → Idle i c d → PassesBy i s x

/-! ### Sequence (R27), and the split of a strand (R74) -/

/-- After a vector instruction, in a group that is in no loop, the lanes that stood at it stand at the next one, and every
other lane of the group stays where it was. -/
def SequentialLanes : Prop := ∀ i o, vectorOp i = some o → i.wf = true → ∀ s d x s1, Issues s o.c false d x s1 → VReady o d x s1 →
  x.addr.toNat % 64 < 5 →
  ∃ s', exec i s = .next s' ∧ ∀ m ∈ x.members, (x.group m).loops = [] → ∀ l < 32,
    laneAt s' x.team.id m.g l = some (if m.at_.getLsbD l then following x.addr else (x.group m).pcOf l)

/-- The strands that a divergent branch makes of one, and its record: at most three, whose quads are those of the old strand
once each; in one all lanes at the branch take it, in one none, and in the quads of the third some do and some do not. -/
def StrandsSplit : Prop := ∀ (gr : Group) (m : Member) (taken : LaneMask) (join : Addr),
  let gr' := gr.split m taken join
  gr'.divs = { join := join, quads := m.quads, lanes := m.at_, parked := 0#32, handler := gr.trap.isSome } :: gr.divs ∧ gr'.pc = gr.pc ∧ gr'.regs = gr.regs ∧
  ∃ ns : List Strand, gr'.strands.Perm (gr.strands.filter (fun st => decide (st.quads ≠ m.quads)) ++ ns) ∧ ns.length ≤ 3 ∧
    ns.Pairwise (fun a b => a.quads &&& b.quads = 0#8) ∧ ns.foldl (fun q st => q ||| st.quads) 0#8 = m.quads ∧
    ∀ st ∈ ns, st.quads ≠ 0#8 ∧
      ((∀ l ∈ lanesOf (m.at_ &&& quadLanes st.quads), taken.getLsbD l = true) ∨
       (∀ l ∈ lanesOf (m.at_ &&& quadLanes st.quads), taken.getLsbD l = false) ∨
       ∀ i < 8, st.quads.getLsbD i = true → quadPart m.at_ i = 0#32 ∨ (quadPart taken i ≠ 0#32 ∧ quadPart taken i ≠ quadPart m.at_ i))

/-- `sel` whose predicate is undefined in an active lane raises IllegalOperand at the strand that decodes it (R132, R101). -/
def SelUndefined : Prop := ∀ c f o (s : State) t g k d, (Instr.sel c f).wf = true → moveOp (.sel c f) = some o → s.halted = false →
  s.cur = .strand t g k → s.stand c t g k = some d → badScope d.node d.team d.gr c.scope g = false → o.static d.node = none →
  (∃ l ∈ lanesOf d.act, d.gr.predDef (f.sub.toNat % 8) l = false) → CanEnter (d.own c g) s →
  Traps (.sel c f) s (d.own c g) .illegalOperand 0 0 d.addr

/-! ### Index registers (R136, R39, R120) -/

/-- `xset` whose base and limit reach beyond the node's allocation raises IllegalOperand. -/
def IndexTraps : Prop := ∀ c f s d x s1 e, (Instr.xset c f).wf = true → Issues s c false d x s1 → Reads (xsetOp c f) d x →
  x.activeLanes.head? = some e →
  x.node.desc.regs < operand (xsetOp c f) x s1 0 e + operand (xsetOp c f) x s1 1 e → CanEnter x s1 →
  Traps (.xset c f) s x .illegalOperand 0 0 x.addr

/-- A use of an index register whose limit is 0 in some active lane raises RegIndex. -/
def LimitZero : Prop := ∀ i o s d x s1, vectorOp i = some o → i.wf = true → Issues s o.c false d x s1 → o.static d.node = none →
  o.undef d.team d.gr d.act = false → (o.dInd = true ∨ ∃ y ∈ o.srcs, y.ind = true) →
  (∃ e ∈ x.activeLanes, Tbl.get 0#32 (x.group e.1).xlimit o.ireg = 0#32) → CanEnter x s1 →
  Traps i s x .regIndex 0 0 x.addr

/-! ### Integer results (R159, R160) -/

/-- Types of one width give the same bits for sums, differences, products and their sums without SAT. -/
def SameBits : Prop := ∀ (ty ty' : ElemTy) (a b c : Nat), tyBits ty = tyBits ty' →
  reduced ty false (asInt ty a + asInt ty b) = reduced ty' false (asInt ty' a + asInt ty' b) ∧
  reduced ty false (asInt ty a - asInt ty b) = reduced ty' false (asInt ty' a - asInt ty' b) ∧
  reduced ty false (asInt ty a * asInt ty b) = reduced ty' false (asInt ty' a * asInt ty' b) ∧
  reduced ty false (asInt ty a * asInt ty b + asInt ty c) = reduced ty' false (asInt ty' a * asInt ty' b + asInt ty' c)

/-- The negation of the most negative value: the most positive one with SAT, and without it the operand unchanged. -/
def MostNegative : Prop := ∀ ty : ElemTy, tySigned ty = true →
  asInt ty (reduced ty true (-(lowest ty))) = highest ty ∧ asInt ty (reduced ty false (-(lowest ty))) = lowest ty

/-! ### What registers hold (R3, R118, R144) -/

/-- The words of a result written to lane registers: each active lane's value, low word first; every other register and lane
stays. -/
def RegistersTake : Prop := ∀ (o : VOp) (x : Ctx) (rs : List (Member × Nat × Nat × FlagSet)) (s : State) d, o.dInd = false →
  opndOf o.dst = .lane d → (rs.map (fun r => (r.1.g, r.2.1))).Nodup → (∀ r ∈ rs, r.2.1 < 32) → ∀ g gr, groupAt s x.team.id g = some gr →
  ∃ gr', groupAt (o.writeNow x rs s) x.team.id g = some gr' ∧ gr'.kval = gr.kval ∧ gr'.lflags = gr.lflags ∧ gr'.pc = gr.pc ∧
    (∀ e ∈ rs, e.1.g = g → ∀ i < o.dWords, gr'.reg (d + i) e.2.1 = BitVec.ofNat 32 (e.2.2.1 / 2 ^ (32 * i))) ∧
    ∀ r l, l < 32 → (∀ e ∈ rs, e.1.g = g → e.2.1 = l → r < d ∨ d + o.dWords ≤ r) → gr'.reg r l = gr.reg r l

/-- The sticky flags of a result are added to the lanes' lflags (R156). -/
def FlagsStick : Prop := ∀ (t : Nat) (rs : List (Member × Nat × Nat × FlagSet)) (s : State) g gr, groupAt s t g = some gr →
  ∃ gr', groupAt (raiseAll t rs s) t g = some gr' ∧ gr'.regs = gr.regs ∧ gr'.kval = gr.kval ∧ gr'.pc = gr.pc ∧
    ∀ l, Tbl.get 0#6 gr'.lflags l = (rs.filter (fun r => decide (r.1.g = g ∧ r.2.1 = l))).foldl (fun f r => f ||| r.2.2.2)
      (Tbl.get 0#6 gr.lflags l)

end Sys2Proof.Claims
end

