-- ==== Sys2Proof/Certificates/Slice0/Obligations.lean ====
section
/-! DEFINITION. The statements for the provers, over the claims of the files beside this one. -/

namespace Sys2Proof.Claims

open Sys2Proof Sys2Proof.Machine

/-! ### Words written out -/

/-- A word from its three words, bits [95:64] first. -/
def word3 (hi mid lo : BitVec 32) : BitVec 96 := hi ++ mid ++ lo

/-- The common fields of an instruction with destination mask 100, or 000, and predicate 0111. -/
def writes (sc : Scope) : Common := { scope := sc, w := true, q := false, l := false, pneg := false, pred := 7 }
def silent (sc : Scope) : Common := { scope := sc, w := false, q := false, l := false, pneg := false, pred := 7 }

/-- Formats V, M, C and E with every field zero. -/
def plainV : FmtV :=
  { dst := 0, a := 0, b := 0, c := 0, ea := false, eb := false, ec := false, isel := .none, ireg := 0, ty := .i32, rnd := .rne,
    sat := false, na := false, nb := false, nc := false, aa := false, ab := false, ac := false, qsel := 0, lslot := 0, sub := 0 }
def plainM : FmtM :=
  { data := 0, addr := 0, second := 0, offset := 0, width := .b1, mscope := .grp, order := .relaxed, hint := .normal, ed := false,
    ea := false, es := false, sub := 0 }
def plainC : FmtC := { srca := 0, tdisp := 0, tslot := 0, jdisp := 0, jslot := 0, sub := 0 }
def plainE : FmtE := { sdst := 0, opa := 0, opb := 0, opc := 0, obj := 0, flags := 0 }

end Sys2Proof.Claims

open Sys2Proof Sys2Proof.Machine Sys2Proof.Claims

/-- For every well-formed instruction that has a word, with every operand at every value that the encoding admits, decoding its
word gives the instruction. -/
def Obligations.DecodeEncode : Prop :=
  ∀ i w, i.wf = true → encode i = some w → decode w = .ok i

/-- A word that decodes to an instruction is the word which that instruction encodes to, so no bit of a word is ignored. -/
def Obligations.EncodeDecode : Prop :=
  ∀ w i, decode w = .ok i → encode i = some w

/-- Twelve of the words that the spec works out, one for each of twelve families, decode to the instruction named: add, ld,
shfl, ffma.rz, tjoin, trap, mma, claim, barinit, qbind, nstat and csrr, with the operands that the spec gives. -/
def Obligations.DecodedWords : Prop :=
  (decode (word3 0x20023804 0x00400C00 0) = .ok (.add (writes .lane) { plainV with dst := 4, a := 2, b := 3 })) ∧
  (decode (word3 0x70023808 0xC8A00000 0x00020000) = .ok (.ld (writes .lane) { plainM with data := 8, addr := 1605, width := .b4 })) ∧
  (decode (word3 0x13A23815 0x02986308 0x00000003) = .ok (.shfl (writes .group)
    { plainV with dst := 21, a := 20, b := 1560, c := 1552, sub := 3 })) ∧
  (decode (word3 0x4182380A 0x01603006 0x80424000) = .ok (.ffma (writes .lane)
    { plainV with dst := 10, a := 11, b := 12, c := 13, nb := true, ty := .f32, rnd := .rz })) ∧
  (decode (word3 0x04E03800 0 0) = .ok (.tjoin (silent .team) plainC)) ∧
  (decode (word3 0x06003E03 0 0) = .ok (.trap (silent .lane) { plainC with srca := 1539 })) ∧
  (decode (word3 0x82603800 0x00202000 0x01640000) = .ok (.mma (silent .team)
    { acc := 0, abase := 0, ascale := 16, bres := 1, boff := 0, afmt := .e4m3, mode := .acc, reuse := true, bcast := false,
      arrive := false, bar := 0 })) ∧
  (decode (word3 0x90223809 0xC8C00000 0x10000000) = .ok (.claim (writes .group) { plainE with sdst := 9, opa := 1606, obj := 2 })) ∧
  (decode (word3 0xA0603800 0xC0200000 0x08000020) = .ok (.barinit (silent .team) { plainE with opa := 1537, obj := 1, flags := 0x20 })) ∧
  (decode (word3 0x94203800 0xC9200000 0x10000000) = .ok (.qbind (silent .group) { plainE with opa := 1609, obj := 2 })) ∧
  (decode (word3 0xA222380B 0x00800000 0) = .ok (.nstat (writes .group) { plainE with sdst := 11, opa := 4 })) ∧
  (decode (word3 0xA8023804 0x00010000 0) = .ok (.csrr (writes .lane) { reg := 4, csr := 1 }))

/-- When the issuer whose turn is next may issue, its fetch line is in the instruction cache without a mismatch, the line and
the slot are legal and the word decodes to an instruction, the step is that instruction's meaning in the state after one step of
time and of the engines, with the issuer named while it runs and its turn taken; an event whose turn is next runs its meaning;
the next turn is the schedule's first or, with an empty schedule, one of the candidates. The schedule is the model's own (log
entry 1). -/
def Obligations.StepRunsDecoded : Prop :=
  (∀ (s s1 : State) who n core rq a l i, s.tick.settled.nextTurn = (some (.issue who), s1) →
    s1.gate who = .go n core rq a → slotOf a < 5 →
    Tbl.find? (s1.core core).icache (lineKey n a) = some l → l.bad = false → lineReservedOk l.line = true →
    (s1.atEntry who a = true → lineTarget l.line (slotOf a) = true) →
    decode (lineSlot l.line (slotOf a)) = .ok i →
    step s = settleOut (exec i { s1.takeTurn who core with cur := who })) ∧
  (∀ (s s1 : State) i, s.tick.settled.nextTurn = (some (.event i), s1) → i.scopeOf = none → s1.takes i = true →
    step s = settleOut (exec i s1)) ∧
  (∀ s : State, s.mcastJobs = [] → s.secJobs = [] → s.secQueue = [] → s.hotDie = none → s.tick.settled = s.tick) ∧
  (∀ s t : State, (∀ turn rest, t.schedule = turn :: rest → t.nextTurn = (some turn, { t with schedule := rest })) ∧
    (t.schedule = [] → t.nextTurn = (t.candidates[Config.arbiter t.fresh % t.candidates.length]?, t)) ∧
    s.tick.schedule = s.schedule)

/-- Every state answers a next state, and the turn of an event that the package does not take changes nothing but time: events
of the host at a halted package, and all but a reset and the Basder port where the package does not run. Which events those are
is the model's reading (log entries 30 and 56). -/
def Obligations.StepAnswers : Prop :=
  (∀ s : State, ∃ t, step s = .next t) ∧
  (∀ (s s1 : State) i, s.tick.settled.nextTurn = (some (.event i), s1) → s1.takes i = false → step s = .next s1)

/-- In every state whose memory lists no zero byte and whose tables of memory, lines, partitions, worlds, compartments and cores
have strictly rising keys, a step that answers a next state leaves them so. -/
def Obligations.TablesInOrder : Prop :=
  Safety.Invariant Safety.Tables

/-- After reset the tables are in their canonical form; every byte reads as zero, in other packages' DRAM too, and every line
has version 0 without poison; every compartment is Free without a key; no team, node, claim or translation exists; PWRCAP and
TLIMIT, and SLICE, WAYMASK and the roots of every world, have the values the spec gives, and the measurement registers of a
world are zero. THROTTLE 0 (log entry 4) and the bytes of other packages (log entry 59) are the model's choice. -/
def Obligations.ResetState : Prop :=
  Safety.Tables State.reset ∧ (∀ a, State.reset.byte a = 0#8) ∧ (∀ a, State.reset.line a = Line.reset) ∧
  (∀ g, (State.reset.comp g).state = .free ∧ (State.reset.comp g).key = 0) ∧
  State.reset.teams = [] ∧ State.reset.nodes = [] ∧ State.reset.tlb = [] ∧
  State.reset.pwrcap = 15000#64 ∧ State.reset.tlimit = 100#8 ∧ State.reset.throttle = 0#4 ∧
  ∀ w, (State.reset.world w).s1root = 0#64 ∧ (State.reset.world w).s2root = 0#64 ∧ (State.reset.world w).slice = 256#64 ∧
    (State.reset.world w).waymask = 0xFFFFFF#24 ∧ ∀ k, Tbl.get Meas.zero (State.reset.world w).meas k = Meas.zero

/-- Each of add, sub, mul, mulhi, mad, madhi, min, max, abs, neg, and, or, xor, not, shl, shr, sar, rot, clz, popc, brev, bfx,
bfi and lea, and each of their immediate forms, completes in every state in which it issues and reads and writes what it may:
every active lane's destination gets the value its rule gives, and nothing else changes but the control of its groups. Types of
one width agree where the rule says so, and the most negative value is negated as the rule says (R159, R160, R161, R162, R163).
-/
def Obligations.IntegerInstructions : Prop :=
  Delivers intOp ∧ Delivers bitOp ∧ Delivers immOp ∧ SameBits ∧ MostNegative

/-- div and rem complete with the quotient truncated toward zero and the remainder with the sign of the dividend; a zero divisor
gives all ones or the dividend and raises DIVZERO; the most negative value by minus one wraps. Their destinations are empty
until the result lands. That the flag is raised in the issuing step, before the value lands, is the model's reading (log entry
36). -/
def Obligations.Division : Prop :=
  Delivers divOp

/-- Each completes with, in every active lane, the exact sum, difference, product or fused product of its elements rounded once
in the mode encoded, or the number that minimumNumber or maximumNumber gives, with the sticky flags raised, and nothing else
changed but control. -/
def Obligations.FloatArithmetic : Prop :=
  Delivers floatOp

/-- Each completes with its function's value in every active lane, landing later. Where the spec bounds the error of fexp2,
flog2, fsin, fcos and fredpi and gives no value, the value is the model's choice (log entry 7). The flags raised in the issuing
step, and what fdiv does with DIVZERO, are the model's readings (log entry 36). -/
def Obligations.FloatFunctions : Prop :=
  Delivers sfuOp

/-- Each completes with the value its rule gives in every active lane; a pack that rounds by dither advances the team's dither
phase, and no other does; nothing else changes but control. How cvt clamps, and the cases of special values that the rules leave
out, are the model's readings (log entry 36). -/
def Obligations.Conversions : Prop :=
  Delivers convertOp

/-- mov completes with the 32 or 64 bits of its source in every active lane, movi with its immediate extended to its type, and
sel with the operand that the lane's predicate chooses; nothing else changes but control. A sel whose predicate is undefined in
an active lane raises IllegalOperand (R130, R131, R132). -/
def Obligations.Moves : Prop :=
  Delivers moveOp ∧ SelUndefined

/-- shfl completes with the value of the lane chosen where that lane is in range, a member and active, else with the lane's own;
vote with any, all, eq or the members' ballots; gred with the total of the fixed tree; gscan with the prefix in element order,
inclusive or exclusive, and the flags of every Combine. That the flags are raised in the issuing step is the model's reading
(log entry 36). -/
def Obligations.Exchange : Prop :=
  Delivers exchangeOp

/-- Writing the results of an instruction to lane registers gives each active lane the words of its value and leaves every other
register and lane as it was; raising flags ors them into the lanes' lflags and changes nothing else of the group. -/
def Obligations.ResultsLand : Prop :=
  RegistersTake ∧ FlagsStick

/-- A vector instruction that completes in a group without loops leaves the lanes that stood at it at the next slot of the line,
or at slot 0 of the next line, and every other lane where it was. An instruction of the vector, predicate, memory, engine and
transfer families that no lane of any member executes changes nothing, and the lanes at it go on. -/
def Obligations.SequentialLanes : Prop :=
  Claims.SequentialLanes ∧ IdlePasses

/-- kset completes with the compare of its operands in each active lane, kop with the operation on predicate bits, kmov with its
source's truth or mask bit; the bits written are defined and every other bit, and its definedness, stays; kmov from a predicate
delivers the bit or the mask. -/
def Obligations.Predicates : Prop :=
  PredicatesWritten ∧ PredicatesRead

/-- xset completes with the base and limit of the lowest active lane in every member and each active lane's offset, the others'
kept; a range beyond the allocation raises IllegalOperand; a limit of 0 is legal, and an indirect use of the register then
raises RegIndex (R136). -/
def Obligations.IndexRegisters : Prop :=
  IndexSet ∧ IndexTraps ∧ LimitZero

/-- Where Table 6.2 keeps the result of add, sub, neg, mul, mad, shl, lea, mov or sel affine, the form value read at any item is
what the instruction computes from the sources' values at that item. -/
def Obligations.AffineForms : Prop :=
  FormAffine

/-- A vector instruction that a parcel meets with a uniform true guard writes, on uniform sources, the value and flags of one
lane to its form register, and on affine sources the affine result; with a lane register destination, Q or L, or an instruction
that Table 6.2 bars, it fans out; with a uniform false guard it passes the instruction. kset writes a uniform predicate, a range
predicate with the compare's value at every item, or fans out; brc moves the parcel, or cuts it in parts that stay in form and
boundary teams; br, call, loop, region and exit act for the whole parcel; a load of a uniform address lands in form. -/
def Obligations.TractInForm : Prop :=
  TractComputes ∧ TractPasses ∧ KsetInForm ∧ PartsKeep ∧ BranchInForm ∧ CallInForm ∧ ConditionalInForm ∧ BranchCuts ∧ LoopInForm ∧
  LoadInForm ∧ RegionInForm ∧ ExitInForm

/-- Fan-out makes the teams of the parcel's box, once each, and takes the parcel away. In each team each lane stands at the
parcel's instruction with its flag word and zero registers that are full; lanes outside the grid or exited before have exited;
each predicate has its value at the lane's item and is defined where that value is; loop counters and form file are the
parcel's. -/
def Obligations.FanOut : Prop :=
  FanOutGroups ∧ FanOutTeams

/-- nop changes nothing whatever its predicate; br moves every active lane to the target; brx and ret move each active lane to
the address in its pair; call writes the address of the next instruction to the link pair and branches. -/
def Obligations.Transfers : Prop :=
  NopGoesOn ∧ BranchGoes ∧ PairGoes .brx ∧ PairGoes .ret ∧ CallGoes

/-- brc completes with every lane whose condition holds at the target, and in a group in no loop every other lane at it at the
next instruction; in a group that owes the trap of a bad target that its parcel met it raises it. A divergent brc splits its
strand: the strands made hold the quads of the old one once each, all lanes of one taking the branch, none of another, and mixed
quads in a third, under a record with the join target. join moves every active lane to the join target of its innermost record
(log entry 12), the others on, and acts as nop where no lane has one. -/
def Obligations.ConditionalBranches : Prop :=
  ConditionalGoes ∧ DivergenceSplits ∧ OwedTraps ∧ StrandsSplit ∧ JoinGoes

/-- loop completes with the counter holding the count, the body from the next instruction up to the end label and the lanes at
its first instruction; with a count of 0, or an empty body, it completes without opening a loop, its lanes at the end label (log
entry 29); it raises LoopOverflow where the body is too long, its counter or all three loops are taken, or it crosses a loop. -/
def Obligations.Loops : Prop :=
  LoopOpens ∧ LoopSkips ∧ LoopTraps

/-- exit completes with the active lanes exited; the last of a team's lanes, with its work done, end the team, which then holds
nothing; the last of a handler strand's lanes leave handler mode. tjoin parks a team whose groups agree on their loops and whose
work is done, with its form file, predicates, counters and exit masks, and raises ScopeMismatch where they differ. region sets
the working set and the resume point. yield completes with no effect where no cause of pre-emption stands, and else starts it.
-/
def Obligations.EndsAndParks : Prop :=
  ExitCompletes ∧ ExitLeaves ∧ ExitEnds ∧ ExitReturns ∧ TjoinParks ∧ TjoinTraps ∧ RegionNames ∧ YieldOffers ∧ YieldLeaves

/-- trap and bkpt put every member group in handler mode, with ecause, epc, eaddr and scope as the tables give them, the loops
set aside, and the lanes at HANDLER. A group whose strands are parked at different places does so at a parked strand of the
lowest address, and a stalled team at every group's own instruction, or the node ends where it has no handler. What counts as
parked is the model's reading (log entry 41). -/
def Obligations.TrapsTaken : Prop :=
  TrapTaken ∧ BreakpointTaken ∧ MismatchFound ∧ LowestTakes ∧ StallFound

/-- tret of a trap raised for one group moves the handler strand's lanes to epc, leaves handler mode with ecause, epc and eaddr
gone, lets the stopped strands go on and restores the loops set aside; registers, predicates and flags stay. Lanes that come
back to the end of the innermost body have ended their pass there. -/
def Obligations.HandlerReturns : Prop :=
  TretReturns ∧ TretEndsPass

/-- csrr completes with the value of ecause, epc, eaddr, lflags, mwin, hstate or nreplay in every active lane, and in firmware
mode with that of a privileged register; a privileged number outside it raises Protection with the number in eaddr; csrw writes
lflags per lane, mwin at team scope, epc in handler mode, and in firmware mode shsize, and clears the error counters. -/
def Obligations.ControlRegisters : Prop :=
  CsrrReads ∧ CsrrProtects ∧ CsrwWrites

/-- Each completes with one access on its way for each active lane, in lane order, with the address, data and place its fields
give; no register, predicate, flag or byte changes then. A load with a form destination completes when its value has landed. -/
def Obligations.AccessesLeave : Prop :=
  AccessesGo ∧ SendingKeeps ∧ FormLoadLands

/-- Each completes with one access on its way for each active lane at the scratchpad and offset that its address names, in its
own team or a peer of the cluster, when every address is a multiple of the width and inside an allocation. -/
def Obligations.ScratchAccesses : Prop :=
  ScratchGoes

/-- A memory or scratchpad instruction with an address that is no multiple of its width raises Misaligned at the lowest such
address; otherwise a global address with bits [63:57] set, or a scratchpad address outside the allocations, raises Protection at
the lowest such address. -/
def Obligations.AddressTraps : Prop :=
  MisalignedTraps ∧ HighAddressTraps ∧ ScratchBoundTraps

/-- A MEMORY_REQUEST of an access that may be performed completes whatever its kind and place, and a PEER_ACCESS_RELAY unless
the peer is pre-empted, when the access waits. At home DRAM, a carve-out, another package, host memory (where nothing was
written a free value: log entry 5), a register window, the parameter page, a node's own version of a page or a scratchpad port
it reads the value that stands there, or where an earlier store need not be seen yet one that stood before (log entry 73),
writes the bytes of the stored or combined value, little-endian, and no other byte, leaves the queue, and hands the value read
to the fill that waits; a relay to a peer that has gone reads zero and writes nothing. Another package's memory in one step is
log entry 58, a node's own version log entry 44, the parameter page log entry 45. -/
def Obligations.AccessesPerform : Prop :=
  RequestCompletes ∧ HomeAccess ∧ CarveAccess ∧ OtherAccess ∧ HostAccess ∧ RegisterAccess ∧ ParamAccess ∧ ShadowStore ∧
  PortAccess ∧ RelayCompletes ∧ PeerAccess

/-- A fill whose values have all landed writes them to its registers, which are full then; every other register, predicate,
flag, trap register and byte stays. -/
def Obligations.ResultsArrive : Prop :=
  FillDelivers

/-- fence completes when no side-logged access waits, its release part finds the earlier accesses performed and its acquire part
finds no read out; with the acquire part at .clu or wider the core's L1 is empty, and nothing else changes but which earlier
stores the core sees. A relaxed load may find what stood before a store that the core need not see; it never does so for one
that its core has read or synchronised with; an acquire whose scope meets a release's makes the stores before that one seen, and
a release marks them. How stores become seen is the model's reading of the ordering rules (log entry 73). -/
def Obligations.Fences : Prop :=
  FenceOrders ∧ OldValues ∧ ReadsKeepOrder ∧ AcquiresMeet ∧ ReleasesMark

/-- bar.arrive and bar.drop count an arrival, bar.wait passes when a phase that its members have not consumed is complete and
advances their wait counts, bar.test gives the phases not consumed, and barinit sets the object up afresh; nothing else changes
but control. -/
def Obligations.Barriers : Prop :=
  Completing barrierEng ∧ TeamObjectFresh

/-- Arrivals at an object with PENDING = COUNT complete one phase for each COUNT of them, those beyond beginning the next phase.
-/
def Obligations.ArrivalsCount : Prop :=
  PhasesCount

/-- aalloc, afree, obres, obrel, ald, ast, aget, mwait and mperturb complete when their rules allow, with the bank or record
held or given back, the operation queued, the wait over, or the perturbation armed; nothing else changes but control. -/
def Obligations.MatrixInstructions : Prop :=
  Completing matrixEng

/-- mma completes with an operation queued that holds the A fragment of its registers row by row, its bank, tile, format and
reservation; a broadcast mma waits at its instruction for the delivery. -/
def Obligations.MatrixProducts : Prop :=
  MmaIssues ∧ FragmentTaken ∧ BroadcastWaits

/-- Each completes when its rule allows, with its effect on the claim, its flows and its circular buffer, and with the status
word, slot word or slot address it returns in every active lane; nothing else changes but control. The outcome that crel leaves
of a walk it abandons is the model's (log entry 71). -/
def Obligations.ClaimInstructions : Prop :=
  Completing claimEng

/-- claim begins a walk of its descriptor; the walk ends Held with its extents, Free with the limit it met, or Free or Faulted
with the trap and address; flow on a Free, Revoked or Faulted claim raises the trap of that state. -/
def Obligations.ClaimWalks : Prop :=
  ClaimBegins ∧ WalkEnds ∧ FlowTraps

/-- Each completes when its rule allows, with the send queue bound or unbound, the node added, or the L1 emptied by the acquire,
and returns its status or handle word in every active lane; nothing else changes but control. -/
def Obligations.QueueInstructions : Prop :=
  Completing queueEng

/-- The word has the state of Table 17.7 in [2:0], bit 4 after a replay of the node, by itself or with its launch, bit 5 without
extents, bit 6 while its launch cannot replay, and the trap kind of an Ended node in [15:8], its other bits zero; a handle that
names no entry gives 7. -/
def Obligations.NodeStatus : Prop :=
  StatusWordGiven

/-- aalloc, obres, barinit, cbset, qbind and cbgive that a group performed since the resume point it restarted from complete at
once with no effect; bar.wait and cbtake acquire again, and cbtake returns the slot it took. -/
def Obligations.RecordedOnce : Prop :=
  Completing recordedEng

/-- A reset begins by clearing every on-die store but the standby store, gives every register its reset value, and goes on stage
by stage to the measured firmware, or halts the package at a bad signature; standby and power loss leave what the spec keeps;
throttling moves one step; the critical temperature at the last step ends in standby. The stages as steps, the error log at a
power loss and the pre-emption at the critical temperature (log entry 56), PKGID 0 (15), THROTTLE 0 (4), the DRAM of other
packages kept (58) and what the error log holds at a bad signature (28) are the model's choices. -/
def Obligations.ResetsAndPower : Prop :=
  ResetRuns ∧ ResetSteps ∧ PowerMoves

/-- The port answers with the error log, the telemetry and refusals as the spec says, and operates worlds, authority commands
and resets in an open session; the package id is set before reset step 6 only; a notify is counted exactly once, in the slot or
in NCOUNT; an aligned register write reaches its register, a value out of range is ignored, and an unaligned or unassigned one
changes nothing; stores of the host and of other packages reach the bytes they name. When the package id may be set (log entry
15), the records of READ_ERROR_LOG and the sessions (56) and the form of a refusal (60) are the model's readings. -/
def Obligations.HostRegisters : Prop :=
  PortAnswers ∧ PortOperates ∧ NotifyCounts ∧ RegistersWritten ∧ OutsideWrites

/-- Each link event is written to LINKLOG and the error log with the next sequence number; a lost path severs the flows that
reach the package named, and within the package those whose route crosses the link; a re-key changes no flow but by severing one
whose route uses the link (log entry 23). -/
def Obligations.LinkEventsLogged : Prop :=
  LinkEvents

/-- Each request that its place in the handshake allows is answered with its response code and payload and moves the handshake
on, and one before its turn with ERROR; GET_MEASUREMENTS answers with the register named. Codes and order are those of SPDM 1.3,
which the spec names but does not write out (log entry 24), and what CHALLENGE and KEY_EXCHANGE sign is the model's digest (log
entry 9). -/
def Obligations.Spdm : Prop :=
  SpdmAnswers ∧ SpdmRefuses ∧ Measured

/-- Creation measures the world's record (its layout is the model's: log entry 9) and zeroes its other measurement registers;
halting stops the world and marks its teams for pre-emption; a function-level reset unmaps the queues and, once drained, returns
the record, its compartments, gates, translations, fault ring, MSI-X base and measurement registers to their reset state. The
queues cut until their control block is written, and the wait at the engine, are the model's readings (log entry 55). -/
def Obligations.Worlds : Prop :=
  WorldMeasured ∧ WorldsHalt ∧ WorldResets

/-- A partition record within its limits whose partition does not run takes effect and is measured, and any other changes
nothing; a dword of a routing mask or a multicast entry takes its value where the spec lets it; a way mask is swept before its
write completes. The bytes measured for a record (log entry 9), and the refusals, waits and quotas (54), are the model's
choices. -/
def Obligations.HostTables : Prop :=
  RecordTaken ∧ MaskWritten ∧ EntryWritten ∧ WaysSwept

/-- Creation gives a Free or Revoked compartment a new key and is measured, or waits its turn at the engine; an authority
command that passes its checks has its effect, sets LASTSEQ and is measured, and another leaves only its result code; a drained
revocation erases the key. The bytes measured (log entry 9), and the order of waiting commands, the status code and the wait of
a close (55), are the model's choices. -/
def Obligations.SecurityEngine : Prop :=
  CompartmentMade ∧ CommandsObeyed ∧ RevocationEnds

/-- A strand ready for 2,048 clocks goes to the head of its slot; a line read again without a mismatch is counted and used, with
one it is dropped; a scrub writes back its channel's lines under their next version, poisoning one at the limit, and changes no
byte. Which lines need a correction is open (log entry 21). -/
def Obligations.CoreUpkeep : Prop :=
  StrandsAge ∧ LineRefetched ∧ LinesScrubbed

/-- An operation that the unit and the scoreboard let start holds the bytes of its scratchpad operand; it consumes them, an ast
writing some of its words then where no earlier operation of its bank is open, and completes with its result in its bank or
scratchpad; a broadcast starts in every team of the stream in one clock. Which words of an ast stand before it completes, and
how a perturbation is read, are the model's choice (log entry 49). -/
def Obligations.MatrixUnit : Prop :=
  BroadcastDelivered ∧ OperationStarts ∧ OperandsTaken ∧ OperationCompletes

/-- A completed flow leaves its claim with one flow fewer, Held at the last; a copy between runs of DRAM puts the source's bytes
at the destination and changes no other; an incoming multicast that every check lets through is written and answered, another is
refused and changes nothing; the other packages' windows take a multicast's bytes. A copy moved whole in its completion step,
with the source read then, is the model's reading (log entry 31). -/
def Obligations.FlowsMove : Prop :=
  FlowEnds ∧ CopyMoves ∧ PeersApart ∧ MulticastReceived ∧ MulticastChecked

/-- A credit request waits at its receive queue, or is granted and discarded at a team that has gone; the first waiting request
is granted while fewer than 16 slots are taken; a message takes its slot after the earlier ones of its binding. -/
def Obligations.Messages : Prop :=
  MessagesTravel

/-- A walk that both stages map puts its translation in the TLB; Retry lets the waiting strand's walk go on and Invalid ends it
with Protection to come; an answer to no outstanding id is only counted; queue registers take the values the spec allows; a
shootdown leaves no translation of its range when it completes, and completes when nothing it covers is in flight. That it
purges when it begins is the model's reading (log entry 46). -/
def Obligations.Translation : Prop :=
  TranslationFound ∧ AnswersIgnored ∧ AnswersTaken ∧ QueueRegisters ∧ Shootdowns

/-- A page reset makes its range read as zeros at version 0 and changes no other byte or line; a migration puts the page's bytes
in the new frame, rewrites the leaf, removes the page's translations and changes no other byte. -/
def Obligations.Pages : Prop :=
  PagesReset ∧ PageMoves

/-- A command marks the teams of its target, by a handle the nodes of that handle in every partition (log entry 51); a marked
team stops issuing; a deadlock over banks pre-empts the youngest, and none is called where a free bank can serve a wait; a
stopped team with no work in flight is saved with its registers, scratchpad, form file, banks and predicates, its held claims
Dormant; a slice that ends passes to another world with work. -/
def Obligations.Preemption : Prop :=
  PreemptCommands ∧ PreemptionStarts ∧ DeadlockBroken ∧ FreeServes ∧ TeamsSaved ∧ SlicesPass

/-- The first node of the dispatch order begins its walks; after the last it runs as one parcel at its entry with its parameters
in form registers; a cluster's teams are placed by rank with scratchpads of zeros; a saved team that finds room stands again
with its state, each lane at its resume point. -/
def Obligations.Placement : Prop :=
  NodesDispatched ∧ TractStarts ∧ ClustersPlaced ∧ TeamsRestart

/-- A record that passes its checks becomes a launch with its nodes, another a refused one, and TAKEN advances; the queue that
waited longest gets a free slot; admissible nodes enter the pool and rise in priority with age; an ended launch frees its
entries and its record is written at DONE with the status of Table 17.4, or counted in NODONE. The order of the STATUS codes, an
NNODES refused before its nodes are read, and the mapping whenever a slot is free are the model's readings (log entry 52). -/
def Obligations.Launches : Prop :=
  LaunchesAccepted ∧ QueuesMapped ∧ NodesReady ∧ LaunchesEnd ∧ CompletionWritten ∧ CompletionStatus

/-- A node whose work is done commits, its shadows becoming memory; one that a trap ends is Ended with kind and address, memory
untouched; a waiting one is Cancelled, alone or with its launch; one that consumed an error goes back to the pool, or ends at
the limit; a launch replay makes every node of the record Pending again but those that KeyRevoked ended and their successors. A
commit of only the bytes that the node wrote (log entry 44), and when a node's work is drained (53), are the model's readings.
-/
def Obligations.NodeEnds : Prop :=
  NodesCommit ∧ NodesEnd ∧ NodesCancelled ∧ LaunchCancelled ∧ NodesReplay ∧ LaunchesReplay
end

