-- ==== Sys2Proof/Laws/State.lean ====
section
/-! SUPPORT. The fields of the state and of a group after each update: true by unfolding the update once. -/

namespace Sys2Proof.Machine

open Sys2Proof

/-! ### Updates of the state -/

@[simp] theorem State.modTeam_schedule (s : State) (t : Nat) (f : Team → Team) : (s.modTeam t f).schedule = s.schedule := rfl
@[simp] theorem State.modTeam_cur (s : State) (t : Nat) (f : Team → Team) : (s.modTeam t f).cur = s.cur := rfl
@[simp] theorem State.modTeam_fresh (s : State) (t : Nat) (f : Team → Team) : (s.modTeam t f).fresh = s.fresh := rfl
@[simp] theorem State.modTeam_nextId (s : State) (t : Nat) (f : Team → Team) : (s.modTeam t f).nextId = s.nextId := rfl
@[simp] theorem State.modTeam_clock (s : State) (t : Nat) (f : Team → Team) : (s.modTeam t f).clock = s.clock := rfl
@[simp] theorem State.modTeam_cycs (s : State) (t : Nat) (f : Team → Team) : (s.modTeam t f).cycs = s.cycs := rfl
@[simp] theorem State.modTeam_mem (s : State) (t : Nat) (f : Team → Team) : (s.modTeam t f).mem = s.mem := rfl
@[simp] theorem State.modTeam_lines (s : State) (t : Nat) (f : Team → Team) : (s.modTeam t f).lines = s.lines := rfl
@[simp] theorem State.modTeam_badNodes (s : State) (t : Nat) (f : Team → Team) : (s.modTeam t f).badNodes = s.badNodes := rfl
@[simp] theorem State.modTeam_late (s : State) (t : Nat) (f : Team → Team) : (s.modTeam t f).late = s.late := rfl
@[simp] theorem State.modTeam_heads (s : State) (t : Nat) (f : Team → Team) : (s.modTeam t f).heads = s.heads := rfl
@[simp] theorem State.modTeam_fences (s : State) (t : Nat) (f : Team → Team) : (s.modTeam t f).fences = s.fences := rfl
@[simp] theorem State.modTeam_rels (s : State) (t : Nat) (f : Team → Team) : (s.modTeam t f).rels = s.rels := rfl
@[simp] theorem State.modTeam_reads (s : State) (t : Nat) (f : Team → Team) : (s.modTeam t f).reads = s.reads := rfl
@[simp] theorem State.modTeam_hostMem (s : State) (t : Nat) (f : Team → Team) : (s.modTeam t f).hostMem = s.hostMem := rfl
@[simp] theorem State.modTeam_replicas (s : State) (t : Nat) (f : Team → Team) : (s.modTeam t f).replicas = s.replicas := rfl
@[simp] theorem State.modTeam_tlb (s : State) (t : Nat) (f : Team → Team) : (s.modTeam t f).tlb = s.tlb := rfl
@[simp] theorem State.modTeam_denied (s : State) (t : Nat) (f : Team → Team) : (s.modTeam t f).denied = s.denied := rfl
@[simp] theorem State.modTeam_walks (s : State) (t : Nat) (f : Team → Team) : (s.modTeam t f).walks = s.walks := rfl
@[simp] theorem State.modTeam_merges (s : State) (t : Nat) (f : Team → Team) : (s.modTeam t f).merges = s.merges := rfl
@[simp] theorem State.modTeam_reqs (s : State) (t : Nat) (f : Team → Team) : (s.modTeam t f).reqs = s.reqs := rfl
@[simp] theorem State.modTeam_fills (s : State) (t : Nat) (f : Team → Team) : (s.modTeam t f).fills = s.fills := rfl
@[simp] theorem State.modTeam_flows (s : State) (t : Nat) (f : Team → Team) : (s.modTeam t f).flows = s.flows := rfl
@[simp] theorem State.modTeam_sends (s : State) (t : Nat) (f : Team → Team) : (s.modTeam t f).sends = s.sends := rfl
@[simp] theorem State.modTeam_cores (s : State) (t : Nat) (f : Team → Team) : (s.modTeam t f).cores = s.cores := rfl
@[simp] theorem State.modTeam_parts (s : State) (t : Nat) (f : Team → Team) : (s.modTeam t f).parts = s.parts := rfl
@[simp] theorem State.modTeam_worlds (s : State) (t : Nat) (f : Team → Team) : (s.modTeam t f).worlds = s.worlds := rfl
@[simp] theorem State.modTeam_comps (s : State) (t : Nat) (f : Team → Team) : (s.modTeam t f).comps = s.comps := rfl
@[simp] theorem State.modTeam_shoots (s : State) (t : Nat) (f : Team → Team) : (s.modTeam t f).shoots = s.shoots := rfl
@[simp] theorem State.modTeam_secJobs (s : State) (t : Nat) (f : Team → Team) : (s.modTeam t f).secJobs = s.secJobs := rfl
@[simp] theorem State.modTeam_secQueue (s : State) (t : Nat) (f : Team → Team) : (s.modTeam t f).secQueue = s.secQueue := rfl
@[simp] theorem State.modTeam_mcastJobs (s : State) (t : Nat) (f : Team → Team) : (s.modTeam t f).mcastJobs = s.mcastJobs := rfl
@[simp] theorem State.modTeam_authResult (s : State) (t : Nat) (f : Team → Team) : (s.modTeam t f).authResult = s.authResult := rfl
@[simp] theorem State.modTeam_pkgid (s : State) (t : Nat) (f : Team → Team) : (s.modTeam t f).pkgid = s.pkgid := rfl
@[simp] theorem State.modTeam_rstage (s : State) (t : Nat) (f : Team → Team) : (s.modTeam t f).rstage = s.rstage := rfl
@[simp] theorem State.modTeam_halted (s : State) (t : Nat) (f : Team → Team) : (s.modTeam t f).halted = s.halted := rfl
@[simp] theorem State.modTeam_pstate (s : State) (t : Nat) (f : Team → Team) : (s.modTeam t f).pstate = s.pstate := rfl
@[simp] theorem State.modTeam_throttle (s : State) (t : Nat) (f : Team → Team) : (s.modTeam t f).throttle = s.throttle := rfl
@[simp] theorem State.modTeam_pwrcap (s : State) (t : Nat) (f : Team → Team) : (s.modTeam t f).pwrcap = s.pwrcap := rfl
@[simp] theorem State.modTeam_tlimit (s : State) (t : Nat) (f : Team → Team) : (s.modTeam t f).tlimit = s.tlimit := rfl
@[simp] theorem State.modTeam_hotDie (s : State) (t : Nat) (f : Team → Team) : (s.modTeam t f).hotDie = s.hotDie := rfl
@[simp] theorem State.modTeam_shoot (s : State) (t : Nat) (f : Team → Team) : (s.modTeam t f).shoot = s.shoot := rfl
@[simp] theorem State.modTeam_pgreset (s : State) (t : Nat) (f : Team → Team) : (s.modTeam t f).pgreset = s.pgreset := rfl
@[simp] theorem State.modTeam_preemptReg (s : State) (t : Nat) (f : Team → Team) : (s.modTeam t f).preemptReg = s.preemptReg := rfl
@[simp] theorem State.modTeam_drmask (s : State) (t : Nat) (f : Team → Team) : (s.modTeam t f).drmask = s.drmask := rfl
@[simp] theorem State.modTeam_mcast (s : State) (t : Nat) (f : Team → Team) : (s.modTeam t f).mcast = s.mcast := rfl
@[simp] theorem State.modTeam_linklog (s : State) (t : Nat) (f : Team → Team) : (s.modTeam t f).linklog = s.linklog := rfl
@[simp] theorem State.modTeam_linkseq (s : State) (t : Nat) (f : Team → Team) : (s.modTeam t f).linkseq = s.linkseq := rfl
@[simp] theorem State.modTeam_errorlog (s : State) (t : Nat) (f : Team → Team) : (s.modTeam t f).errorlog = s.errorlog := rfl
@[simp] theorem State.modTeam_errseq (s : State) (t : Nat) (f : Team → Team) : (s.modTeam t f).errseq = s.errseq := rfl
@[simp] theorem State.modTeam_lost (s : State) (t : Nat) (f : Team → Team) : (s.modTeam t f).lost = s.lost := rfl
@[simp] theorem State.modTeam_spdm (s : State) (t : Nat) (f : Team → Team) : (s.modTeam t f).spdm = s.spdm := rfl
@[simp] theorem State.modTeam_meas0 (s : State) (t : Nat) (f : Team → Team) : (s.modTeam t f).meas0 = s.meas0 := rfl
@[simp] theorem State.modTeam_meas1 (s : State) (t : Nat) (f : Team → Team) : (s.modTeam t f).meas1 = s.meas1 := rfl
@[simp] theorem State.modTeam_meas2 (s : State) (t : Nat) (f : Team → Team) : (s.modTeam t f).meas2 = s.meas2 := rfl
@[simp] theorem State.modTeam_keyCount (s : State) (t : Nat) (f : Team → Team) : (s.modTeam t f).keyCount = s.keyCount := rfl
@[simp] theorem State.modTeam_slotKeys (s : State) (t : Nat) (f : Team → Team) : (s.modTeam t f).slotKeys = s.slotKeys := rfl
@[simp] theorem State.modTeam_operatorKey (s : State) (t : Nat) (f : Team → Team) : (s.modTeam t f).operatorKey = s.operatorKey := rfl
@[simp] theorem State.modTeam_corrected (s : State) (t : Nat) (f : Team → Team) : (s.modTeam t f).corrected = s.corrected := rfl
@[simp] theorem State.modTeam_pinOver (s : State) (t : Nat) (f : Team → Team) : (s.modTeam t f).pinOver = s.pinOver := rfl
@[simp] theorem State.modTeam_authBox (s : State) (t : Nat) (f : Team → Team) : (s.modTeam t f).authBox = s.authBox := rfl
@[simp] theorem State.modTeam_outputs (s : State) (t : Nat) (f : Team → Team) : (s.modTeam t f).outputs = s.outputs := rfl

@[simp] theorem State.modGroup_schedule (s : State) (t g : Nat) (f : Group → Group) : (s.modGroup t g f).schedule = s.schedule := rfl
@[simp] theorem State.modGroup_cur (s : State) (t g : Nat) (f : Group → Group) : (s.modGroup t g f).cur = s.cur := rfl
@[simp] theorem State.modGroup_fresh (s : State) (t g : Nat) (f : Group → Group) : (s.modGroup t g f).fresh = s.fresh := rfl
@[simp] theorem State.modGroup_nextId (s : State) (t g : Nat) (f : Group → Group) : (s.modGroup t g f).nextId = s.nextId := rfl
@[simp] theorem State.modGroup_clock (s : State) (t g : Nat) (f : Group → Group) : (s.modGroup t g f).clock = s.clock := rfl
@[simp] theorem State.modGroup_cycs (s : State) (t g : Nat) (f : Group → Group) : (s.modGroup t g f).cycs = s.cycs := rfl
@[simp] theorem State.modGroup_mem (s : State) (t g : Nat) (f : Group → Group) : (s.modGroup t g f).mem = s.mem := rfl
@[simp] theorem State.modGroup_lines (s : State) (t g : Nat) (f : Group → Group) : (s.modGroup t g f).lines = s.lines := rfl
@[simp] theorem State.modGroup_badNodes (s : State) (t g : Nat) (f : Group → Group) : (s.modGroup t g f).badNodes = s.badNodes := rfl
@[simp] theorem State.modGroup_late (s : State) (t g : Nat) (f : Group → Group) : (s.modGroup t g f).late = s.late := rfl
@[simp] theorem State.modGroup_heads (s : State) (t g : Nat) (f : Group → Group) : (s.modGroup t g f).heads = s.heads := rfl
@[simp] theorem State.modGroup_fences (s : State) (t g : Nat) (f : Group → Group) : (s.modGroup t g f).fences = s.fences := rfl
@[simp] theorem State.modGroup_rels (s : State) (t g : Nat) (f : Group → Group) : (s.modGroup t g f).rels = s.rels := rfl
@[simp] theorem State.modGroup_reads (s : State) (t g : Nat) (f : Group → Group) : (s.modGroup t g f).reads = s.reads := rfl
@[simp] theorem State.modGroup_hostMem (s : State) (t g : Nat) (f : Group → Group) : (s.modGroup t g f).hostMem = s.hostMem := rfl
@[simp] theorem State.modGroup_replicas (s : State) (t g : Nat) (f : Group → Group) : (s.modGroup t g f).replicas = s.replicas := rfl
@[simp] theorem State.modGroup_tlb (s : State) (t g : Nat) (f : Group → Group) : (s.modGroup t g f).tlb = s.tlb := rfl
@[simp] theorem State.modGroup_denied (s : State) (t g : Nat) (f : Group → Group) : (s.modGroup t g f).denied = s.denied := rfl
@[simp] theorem State.modGroup_walks (s : State) (t g : Nat) (f : Group → Group) : (s.modGroup t g f).walks = s.walks := rfl
@[simp] theorem State.modGroup_merges (s : State) (t g : Nat) (f : Group → Group) : (s.modGroup t g f).merges = s.merges := rfl
@[simp] theorem State.modGroup_reqs (s : State) (t g : Nat) (f : Group → Group) : (s.modGroup t g f).reqs = s.reqs := rfl
@[simp] theorem State.modGroup_fills (s : State) (t g : Nat) (f : Group → Group) : (s.modGroup t g f).fills = s.fills := rfl
@[simp] theorem State.modGroup_flows (s : State) (t g : Nat) (f : Group → Group) : (s.modGroup t g f).flows = s.flows := rfl
@[simp] theorem State.modGroup_sends (s : State) (t g : Nat) (f : Group → Group) : (s.modGroup t g f).sends = s.sends := rfl
@[simp] theorem State.modGroup_cores (s : State) (t g : Nat) (f : Group → Group) : (s.modGroup t g f).cores = s.cores := rfl
@[simp] theorem State.modGroup_parts (s : State) (t g : Nat) (f : Group → Group) : (s.modGroup t g f).parts = s.parts := rfl
@[simp] theorem State.modGroup_worlds (s : State) (t g : Nat) (f : Group → Group) : (s.modGroup t g f).worlds = s.worlds := rfl
@[simp] theorem State.modGroup_comps (s : State) (t g : Nat) (f : Group → Group) : (s.modGroup t g f).comps = s.comps := rfl
@[simp] theorem State.modGroup_shoots (s : State) (t g : Nat) (f : Group → Group) : (s.modGroup t g f).shoots = s.shoots := rfl
@[simp] theorem State.modGroup_secJobs (s : State) (t g : Nat) (f : Group → Group) : (s.modGroup t g f).secJobs = s.secJobs := rfl
@[simp] theorem State.modGroup_secQueue (s : State) (t g : Nat) (f : Group → Group) : (s.modGroup t g f).secQueue = s.secQueue := rfl
@[simp] theorem State.modGroup_mcastJobs (s : State) (t g : Nat) (f : Group → Group) : (s.modGroup t g f).mcastJobs = s.mcastJobs := rfl
@[simp] theorem State.modGroup_authResult (s : State) (t g : Nat) (f : Group → Group) : (s.modGroup t g f).authResult = s.authResult := rfl
@[simp] theorem State.modGroup_pkgid (s : State) (t g : Nat) (f : Group → Group) : (s.modGroup t g f).pkgid = s.pkgid := rfl
@[simp] theorem State.modGroup_rstage (s : State) (t g : Nat) (f : Group → Group) : (s.modGroup t g f).rstage = s.rstage := rfl
@[simp] theorem State.modGroup_halted (s : State) (t g : Nat) (f : Group → Group) : (s.modGroup t g f).halted = s.halted := rfl
@[simp] theorem State.modGroup_pstate (s : State) (t g : Nat) (f : Group → Group) : (s.modGroup t g f).pstate = s.pstate := rfl
@[simp] theorem State.modGroup_throttle (s : State) (t g : Nat) (f : Group → Group) : (s.modGroup t g f).throttle = s.throttle := rfl
@[simp] theorem State.modGroup_pwrcap (s : State) (t g : Nat) (f : Group → Group) : (s.modGroup t g f).pwrcap = s.pwrcap := rfl
@[simp] theorem State.modGroup_tlimit (s : State) (t g : Nat) (f : Group → Group) : (s.modGroup t g f).tlimit = s.tlimit := rfl
@[simp] theorem State.modGroup_hotDie (s : State) (t g : Nat) (f : Group → Group) : (s.modGroup t g f).hotDie = s.hotDie := rfl
@[simp] theorem State.modGroup_shoot (s : State) (t g : Nat) (f : Group → Group) : (s.modGroup t g f).shoot = s.shoot := rfl
@[simp] theorem State.modGroup_pgreset (s : State) (t g : Nat) (f : Group → Group) : (s.modGroup t g f).pgreset = s.pgreset := rfl
@[simp] theorem State.modGroup_preemptReg (s : State) (t g : Nat) (f : Group → Group) : (s.modGroup t g f).preemptReg = s.preemptReg := rfl
@[simp] theorem State.modGroup_drmask (s : State) (t g : Nat) (f : Group → Group) : (s.modGroup t g f).drmask = s.drmask := rfl
@[simp] theorem State.modGroup_mcast (s : State) (t g : Nat) (f : Group → Group) : (s.modGroup t g f).mcast = s.mcast := rfl
@[simp] theorem State.modGroup_linklog (s : State) (t g : Nat) (f : Group → Group) : (s.modGroup t g f).linklog = s.linklog := rfl
@[simp] theorem State.modGroup_linkseq (s : State) (t g : Nat) (f : Group → Group) : (s.modGroup t g f).linkseq = s.linkseq := rfl
@[simp] theorem State.modGroup_errorlog (s : State) (t g : Nat) (f : Group → Group) : (s.modGroup t g f).errorlog = s.errorlog := rfl
@[simp] theorem State.modGroup_errseq (s : State) (t g : Nat) (f : Group → Group) : (s.modGroup t g f).errseq = s.errseq := rfl
@[simp] theorem State.modGroup_lost (s : State) (t g : Nat) (f : Group → Group) : (s.modGroup t g f).lost = s.lost := rfl
@[simp] theorem State.modGroup_spdm (s : State) (t g : Nat) (f : Group → Group) : (s.modGroup t g f).spdm = s.spdm := rfl
@[simp] theorem State.modGroup_meas0 (s : State) (t g : Nat) (f : Group → Group) : (s.modGroup t g f).meas0 = s.meas0 := rfl
@[simp] theorem State.modGroup_meas1 (s : State) (t g : Nat) (f : Group → Group) : (s.modGroup t g f).meas1 = s.meas1 := rfl
@[simp] theorem State.modGroup_meas2 (s : State) (t g : Nat) (f : Group → Group) : (s.modGroup t g f).meas2 = s.meas2 := rfl
@[simp] theorem State.modGroup_keyCount (s : State) (t g : Nat) (f : Group → Group) : (s.modGroup t g f).keyCount = s.keyCount := rfl
@[simp] theorem State.modGroup_slotKeys (s : State) (t g : Nat) (f : Group → Group) : (s.modGroup t g f).slotKeys = s.slotKeys := rfl
@[simp] theorem State.modGroup_operatorKey (s : State) (t g : Nat) (f : Group → Group) : (s.modGroup t g f).operatorKey = s.operatorKey := rfl
@[simp] theorem State.modGroup_corrected (s : State) (t g : Nat) (f : Group → Group) : (s.modGroup t g f).corrected = s.corrected := rfl
@[simp] theorem State.modGroup_pinOver (s : State) (t g : Nat) (f : Group → Group) : (s.modGroup t g f).pinOver = s.pinOver := rfl
@[simp] theorem State.modGroup_authBox (s : State) (t g : Nat) (f : Group → Group) : (s.modGroup t g f).authBox = s.authBox := rfl
@[simp] theorem State.modGroup_outputs (s : State) (t g : Nat) (f : Group → Group) : (s.modGroup t g f).outputs = s.outputs := rfl

@[simp] theorem State.modCore_schedule (s : State) (c : Nat) (f : Core → Core) : (s.modCore c f).schedule = s.schedule := rfl
@[simp] theorem State.modCore_cur (s : State) (c : Nat) (f : Core → Core) : (s.modCore c f).cur = s.cur := rfl
@[simp] theorem State.modCore_fresh (s : State) (c : Nat) (f : Core → Core) : (s.modCore c f).fresh = s.fresh := rfl
@[simp] theorem State.modCore_nextId (s : State) (c : Nat) (f : Core → Core) : (s.modCore c f).nextId = s.nextId := rfl
@[simp] theorem State.modCore_clock (s : State) (c : Nat) (f : Core → Core) : (s.modCore c f).clock = s.clock := rfl
@[simp] theorem State.modCore_cycs (s : State) (c : Nat) (f : Core → Core) : (s.modCore c f).cycs = s.cycs := rfl
@[simp] theorem State.modCore_mem (s : State) (c : Nat) (f : Core → Core) : (s.modCore c f).mem = s.mem := rfl
@[simp] theorem State.modCore_lines (s : State) (c : Nat) (f : Core → Core) : (s.modCore c f).lines = s.lines := rfl
@[simp] theorem State.modCore_badNodes (s : State) (c : Nat) (f : Core → Core) : (s.modCore c f).badNodes = s.badNodes := rfl
@[simp] theorem State.modCore_late (s : State) (c : Nat) (f : Core → Core) : (s.modCore c f).late = s.late := rfl
@[simp] theorem State.modCore_heads (s : State) (c : Nat) (f : Core → Core) : (s.modCore c f).heads = s.heads := rfl
@[simp] theorem State.modCore_fences (s : State) (c : Nat) (f : Core → Core) : (s.modCore c f).fences = s.fences := rfl
@[simp] theorem State.modCore_rels (s : State) (c : Nat) (f : Core → Core) : (s.modCore c f).rels = s.rels := rfl
@[simp] theorem State.modCore_reads (s : State) (c : Nat) (f : Core → Core) : (s.modCore c f).reads = s.reads := rfl
@[simp] theorem State.modCore_hostMem (s : State) (c : Nat) (f : Core → Core) : (s.modCore c f).hostMem = s.hostMem := rfl
@[simp] theorem State.modCore_replicas (s : State) (c : Nat) (f : Core → Core) : (s.modCore c f).replicas = s.replicas := rfl
@[simp] theorem State.modCore_tlb (s : State) (c : Nat) (f : Core → Core) : (s.modCore c f).tlb = s.tlb := rfl
@[simp] theorem State.modCore_denied (s : State) (c : Nat) (f : Core → Core) : (s.modCore c f).denied = s.denied := rfl
@[simp] theorem State.modCore_walks (s : State) (c : Nat) (f : Core → Core) : (s.modCore c f).walks = s.walks := rfl
@[simp] theorem State.modCore_merges (s : State) (c : Nat) (f : Core → Core) : (s.modCore c f).merges = s.merges := rfl
@[simp] theorem State.modCore_reqs (s : State) (c : Nat) (f : Core → Core) : (s.modCore c f).reqs = s.reqs := rfl
@[simp] theorem State.modCore_fills (s : State) (c : Nat) (f : Core → Core) : (s.modCore c f).fills = s.fills := rfl
@[simp] theorem State.modCore_flows (s : State) (c : Nat) (f : Core → Core) : (s.modCore c f).flows = s.flows := rfl
@[simp] theorem State.modCore_sends (s : State) (c : Nat) (f : Core → Core) : (s.modCore c f).sends = s.sends := rfl
@[simp] theorem State.modCore_teams (s : State) (c : Nat) (f : Core → Core) : (s.modCore c f).teams = s.teams := rfl
@[simp] theorem State.modCore_parts (s : State) (c : Nat) (f : Core → Core) : (s.modCore c f).parts = s.parts := rfl
@[simp] theorem State.modCore_worlds (s : State) (c : Nat) (f : Core → Core) : (s.modCore c f).worlds = s.worlds := rfl
@[simp] theorem State.modCore_comps (s : State) (c : Nat) (f : Core → Core) : (s.modCore c f).comps = s.comps := rfl
@[simp] theorem State.modCore_shoots (s : State) (c : Nat) (f : Core → Core) : (s.modCore c f).shoots = s.shoots := rfl
@[simp] theorem State.modCore_secJobs (s : State) (c : Nat) (f : Core → Core) : (s.modCore c f).secJobs = s.secJobs := rfl
@[simp] theorem State.modCore_secQueue (s : State) (c : Nat) (f : Core → Core) : (s.modCore c f).secQueue = s.secQueue := rfl
@[simp] theorem State.modCore_mcastJobs (s : State) (c : Nat) (f : Core → Core) : (s.modCore c f).mcastJobs = s.mcastJobs := rfl
@[simp] theorem State.modCore_authResult (s : State) (c : Nat) (f : Core → Core) : (s.modCore c f).authResult = s.authResult := rfl
@[simp] theorem State.modCore_pkgid (s : State) (c : Nat) (f : Core → Core) : (s.modCore c f).pkgid = s.pkgid := rfl
@[simp] theorem State.modCore_rstage (s : State) (c : Nat) (f : Core → Core) : (s.modCore c f).rstage = s.rstage := rfl
@[simp] theorem State.modCore_halted (s : State) (c : Nat) (f : Core → Core) : (s.modCore c f).halted = s.halted := rfl
@[simp] theorem State.modCore_pstate (s : State) (c : Nat) (f : Core → Core) : (s.modCore c f).pstate = s.pstate := rfl
@[simp] theorem State.modCore_throttle (s : State) (c : Nat) (f : Core → Core) : (s.modCore c f).throttle = s.throttle := rfl
@[simp] theorem State.modCore_pwrcap (s : State) (c : Nat) (f : Core → Core) : (s.modCore c f).pwrcap = s.pwrcap := rfl
@[simp] theorem State.modCore_tlimit (s : State) (c : Nat) (f : Core → Core) : (s.modCore c f).tlimit = s.tlimit := rfl
@[simp] theorem State.modCore_hotDie (s : State) (c : Nat) (f : Core → Core) : (s.modCore c f).hotDie = s.hotDie := rfl
@[simp] theorem State.modCore_shoot (s : State) (c : Nat) (f : Core → Core) : (s.modCore c f).shoot = s.shoot := rfl
@[simp] theorem State.modCore_pgreset (s : State) (c : Nat) (f : Core → Core) : (s.modCore c f).pgreset = s.pgreset := rfl
@[simp] theorem State.modCore_preemptReg (s : State) (c : Nat) (f : Core → Core) : (s.modCore c f).preemptReg = s.preemptReg := rfl
@[simp] theorem State.modCore_drmask (s : State) (c : Nat) (f : Core → Core) : (s.modCore c f).drmask = s.drmask := rfl
@[simp] theorem State.modCore_mcast (s : State) (c : Nat) (f : Core → Core) : (s.modCore c f).mcast = s.mcast := rfl
@[simp] theorem State.modCore_linklog (s : State) (c : Nat) (f : Core → Core) : (s.modCore c f).linklog = s.linklog := rfl
@[simp] theorem State.modCore_linkseq (s : State) (c : Nat) (f : Core → Core) : (s.modCore c f).linkseq = s.linkseq := rfl
@[simp] theorem State.modCore_errorlog (s : State) (c : Nat) (f : Core → Core) : (s.modCore c f).errorlog = s.errorlog := rfl
@[simp] theorem State.modCore_errseq (s : State) (c : Nat) (f : Core → Core) : (s.modCore c f).errseq = s.errseq := rfl
@[simp] theorem State.modCore_lost (s : State) (c : Nat) (f : Core → Core) : (s.modCore c f).lost = s.lost := rfl
@[simp] theorem State.modCore_spdm (s : State) (c : Nat) (f : Core → Core) : (s.modCore c f).spdm = s.spdm := rfl
@[simp] theorem State.modCore_meas0 (s : State) (c : Nat) (f : Core → Core) : (s.modCore c f).meas0 = s.meas0 := rfl
@[simp] theorem State.modCore_meas1 (s : State) (c : Nat) (f : Core → Core) : (s.modCore c f).meas1 = s.meas1 := rfl
@[simp] theorem State.modCore_meas2 (s : State) (c : Nat) (f : Core → Core) : (s.modCore c f).meas2 = s.meas2 := rfl
@[simp] theorem State.modCore_keyCount (s : State) (c : Nat) (f : Core → Core) : (s.modCore c f).keyCount = s.keyCount := rfl
@[simp] theorem State.modCore_slotKeys (s : State) (c : Nat) (f : Core → Core) : (s.modCore c f).slotKeys = s.slotKeys := rfl
@[simp] theorem State.modCore_operatorKey (s : State) (c : Nat) (f : Core → Core) : (s.modCore c f).operatorKey = s.operatorKey := rfl
@[simp] theorem State.modCore_corrected (s : State) (c : Nat) (f : Core → Core) : (s.modCore c f).corrected = s.corrected := rfl
@[simp] theorem State.modCore_pinOver (s : State) (c : Nat) (f : Core → Core) : (s.modCore c f).pinOver = s.pinOver := rfl
@[simp] theorem State.modCore_authBox (s : State) (c : Nat) (f : Core → Core) : (s.modCore c f).authBox = s.authBox := rfl
@[simp] theorem State.modCore_outputs (s : State) (c : Nat) (f : Core → Core) : (s.modCore c f).outputs = s.outputs := rfl

@[simp] theorem State.modWorld_schedule (s : State) (w : Nat) (f : World → World) : (s.modWorld w f).schedule = s.schedule := rfl
@[simp] theorem State.modWorld_cur (s : State) (w : Nat) (f : World → World) : (s.modWorld w f).cur = s.cur := rfl
@[simp] theorem State.modWorld_fresh (s : State) (w : Nat) (f : World → World) : (s.modWorld w f).fresh = s.fresh := rfl
@[simp] theorem State.modWorld_nextId (s : State) (w : Nat) (f : World → World) : (s.modWorld w f).nextId = s.nextId := rfl
@[simp] theorem State.modWorld_clock (s : State) (w : Nat) (f : World → World) : (s.modWorld w f).clock = s.clock := rfl
@[simp] theorem State.modWorld_cycs (s : State) (w : Nat) (f : World → World) : (s.modWorld w f).cycs = s.cycs := rfl
@[simp] theorem State.modWorld_mem (s : State) (w : Nat) (f : World → World) : (s.modWorld w f).mem = s.mem := rfl
@[simp] theorem State.modWorld_lines (s : State) (w : Nat) (f : World → World) : (s.modWorld w f).lines = s.lines := rfl
@[simp] theorem State.modWorld_badNodes (s : State) (w : Nat) (f : World → World) : (s.modWorld w f).badNodes = s.badNodes := rfl
@[simp] theorem State.modWorld_late (s : State) (w : Nat) (f : World → World) : (s.modWorld w f).late = s.late := rfl
@[simp] theorem State.modWorld_heads (s : State) (w : Nat) (f : World → World) : (s.modWorld w f).heads = s.heads := rfl
@[simp] theorem State.modWorld_fences (s : State) (w : Nat) (f : World → World) : (s.modWorld w f).fences = s.fences := rfl
@[simp] theorem State.modWorld_rels (s : State) (w : Nat) (f : World → World) : (s.modWorld w f).rels = s.rels := rfl
@[simp] theorem State.modWorld_reads (s : State) (w : Nat) (f : World → World) : (s.modWorld w f).reads = s.reads := rfl
@[simp] theorem State.modWorld_hostMem (s : State) (w : Nat) (f : World → World) : (s.modWorld w f).hostMem = s.hostMem := rfl
@[simp] theorem State.modWorld_replicas (s : State) (w : Nat) (f : World → World) : (s.modWorld w f).replicas = s.replicas := rfl
@[simp] theorem State.modWorld_tlb (s : State) (w : Nat) (f : World → World) : (s.modWorld w f).tlb = s.tlb := rfl
@[simp] theorem State.modWorld_denied (s : State) (w : Nat) (f : World → World) : (s.modWorld w f).denied = s.denied := rfl
@[simp] theorem State.modWorld_walks (s : State) (w : Nat) (f : World → World) : (s.modWorld w f).walks = s.walks := rfl
@[simp] theorem State.modWorld_merges (s : State) (w : Nat) (f : World → World) : (s.modWorld w f).merges = s.merges := rfl
@[simp] theorem State.modWorld_reqs (s : State) (w : Nat) (f : World → World) : (s.modWorld w f).reqs = s.reqs := rfl
@[simp] theorem State.modWorld_fills (s : State) (w : Nat) (f : World → World) : (s.modWorld w f).fills = s.fills := rfl
@[simp] theorem State.modWorld_flows (s : State) (w : Nat) (f : World → World) : (s.modWorld w f).flows = s.flows := rfl
@[simp] theorem State.modWorld_sends (s : State) (w : Nat) (f : World → World) : (s.modWorld w f).sends = s.sends := rfl
@[simp] theorem State.modWorld_cores (s : State) (w : Nat) (f : World → World) : (s.modWorld w f).cores = s.cores := rfl
@[simp] theorem State.modWorld_teams (s : State) (w : Nat) (f : World → World) : (s.modWorld w f).teams = s.teams := rfl
@[simp] theorem State.modWorld_parts (s : State) (w : Nat) (f : World → World) : (s.modWorld w f).parts = s.parts := rfl
@[simp] theorem State.modWorld_comps (s : State) (w : Nat) (f : World → World) : (s.modWorld w f).comps = s.comps := rfl
@[simp] theorem State.modWorld_shoots (s : State) (w : Nat) (f : World → World) : (s.modWorld w f).shoots = s.shoots := rfl
@[simp] theorem State.modWorld_secJobs (s : State) (w : Nat) (f : World → World) : (s.modWorld w f).secJobs = s.secJobs := rfl
@[simp] theorem State.modWorld_secQueue (s : State) (w : Nat) (f : World → World) : (s.modWorld w f).secQueue = s.secQueue := rfl
@[simp] theorem State.modWorld_mcastJobs (s : State) (w : Nat) (f : World → World) : (s.modWorld w f).mcastJobs = s.mcastJobs := rfl
@[simp] theorem State.modWorld_authResult (s : State) (w : Nat) (f : World → World) : (s.modWorld w f).authResult = s.authResult := rfl
@[simp] theorem State.modWorld_pkgid (s : State) (w : Nat) (f : World → World) : (s.modWorld w f).pkgid = s.pkgid := rfl
@[simp] theorem State.modWorld_rstage (s : State) (w : Nat) (f : World → World) : (s.modWorld w f).rstage = s.rstage := rfl
@[simp] theorem State.modWorld_halted (s : State) (w : Nat) (f : World → World) : (s.modWorld w f).halted = s.halted := rfl
@[simp] theorem State.modWorld_pstate (s : State) (w : Nat) (f : World → World) : (s.modWorld w f).pstate = s.pstate := rfl
@[simp] theorem State.modWorld_throttle (s : State) (w : Nat) (f : World → World) : (s.modWorld w f).throttle = s.throttle := rfl
@[simp] theorem State.modWorld_pwrcap (s : State) (w : Nat) (f : World → World) : (s.modWorld w f).pwrcap = s.pwrcap := rfl
@[simp] theorem State.modWorld_tlimit (s : State) (w : Nat) (f : World → World) : (s.modWorld w f).tlimit = s.tlimit := rfl
@[simp] theorem State.modWorld_hotDie (s : State) (w : Nat) (f : World → World) : (s.modWorld w f).hotDie = s.hotDie := rfl
@[simp] theorem State.modWorld_shoot (s : State) (w : Nat) (f : World → World) : (s.modWorld w f).shoot = s.shoot := rfl
@[simp] theorem State.modWorld_pgreset (s : State) (w : Nat) (f : World → World) : (s.modWorld w f).pgreset = s.pgreset := rfl
@[simp] theorem State.modWorld_preemptReg (s : State) (w : Nat) (f : World → World) : (s.modWorld w f).preemptReg = s.preemptReg := rfl
@[simp] theorem State.modWorld_drmask (s : State) (w : Nat) (f : World → World) : (s.modWorld w f).drmask = s.drmask := rfl
@[simp] theorem State.modWorld_mcast (s : State) (w : Nat) (f : World → World) : (s.modWorld w f).mcast = s.mcast := rfl
@[simp] theorem State.modWorld_linklog (s : State) (w : Nat) (f : World → World) : (s.modWorld w f).linklog = s.linklog := rfl
@[simp] theorem State.modWorld_linkseq (s : State) (w : Nat) (f : World → World) : (s.modWorld w f).linkseq = s.linkseq := rfl
@[simp] theorem State.modWorld_errorlog (s : State) (w : Nat) (f : World → World) : (s.modWorld w f).errorlog = s.errorlog := rfl
@[simp] theorem State.modWorld_errseq (s : State) (w : Nat) (f : World → World) : (s.modWorld w f).errseq = s.errseq := rfl
@[simp] theorem State.modWorld_lost (s : State) (w : Nat) (f : World → World) : (s.modWorld w f).lost = s.lost := rfl
@[simp] theorem State.modWorld_spdm (s : State) (w : Nat) (f : World → World) : (s.modWorld w f).spdm = s.spdm := rfl
@[simp] theorem State.modWorld_meas0 (s : State) (w : Nat) (f : World → World) : (s.modWorld w f).meas0 = s.meas0 := rfl
@[simp] theorem State.modWorld_meas1 (s : State) (w : Nat) (f : World → World) : (s.modWorld w f).meas1 = s.meas1 := rfl
@[simp] theorem State.modWorld_meas2 (s : State) (w : Nat) (f : World → World) : (s.modWorld w f).meas2 = s.meas2 := rfl
@[simp] theorem State.modWorld_keyCount (s : State) (w : Nat) (f : World → World) : (s.modWorld w f).keyCount = s.keyCount := rfl
@[simp] theorem State.modWorld_slotKeys (s : State) (w : Nat) (f : World → World) : (s.modWorld w f).slotKeys = s.slotKeys := rfl
@[simp] theorem State.modWorld_operatorKey (s : State) (w : Nat) (f : World → World) : (s.modWorld w f).operatorKey = s.operatorKey := rfl
@[simp] theorem State.modWorld_corrected (s : State) (w : Nat) (f : World → World) : (s.modWorld w f).corrected = s.corrected := rfl
@[simp] theorem State.modWorld_pinOver (s : State) (w : Nat) (f : World → World) : (s.modWorld w f).pinOver = s.pinOver := rfl
@[simp] theorem State.modWorld_authBox (s : State) (w : Nat) (f : World → World) : (s.modWorld w f).authBox = s.authBox := rfl
@[simp] theorem State.modWorld_outputs (s : State) (w : Nat) (f : World → World) : (s.modWorld w f).outputs = s.outputs := rfl

@[simp] theorem State.modPart_schedule (s : State) (p : Nat) (f : Partition → Partition) : (s.modPart p f).schedule = s.schedule := rfl
@[simp] theorem State.modPart_cur (s : State) (p : Nat) (f : Partition → Partition) : (s.modPart p f).cur = s.cur := rfl
@[simp] theorem State.modPart_fresh (s : State) (p : Nat) (f : Partition → Partition) : (s.modPart p f).fresh = s.fresh := rfl
@[simp] theorem State.modPart_nextId (s : State) (p : Nat) (f : Partition → Partition) : (s.modPart p f).nextId = s.nextId := rfl
@[simp] theorem State.modPart_clock (s : State) (p : Nat) (f : Partition → Partition) : (s.modPart p f).clock = s.clock := rfl
@[simp] theorem State.modPart_cycs (s : State) (p : Nat) (f : Partition → Partition) : (s.modPart p f).cycs = s.cycs := rfl
@[simp] theorem State.modPart_mem (s : State) (p : Nat) (f : Partition → Partition) : (s.modPart p f).mem = s.mem := rfl
@[simp] theorem State.modPart_lines (s : State) (p : Nat) (f : Partition → Partition) : (s.modPart p f).lines = s.lines := rfl
@[simp] theorem State.modPart_badNodes (s : State) (p : Nat) (f : Partition → Partition) : (s.modPart p f).badNodes = s.badNodes := rfl
@[simp] theorem State.modPart_late (s : State) (p : Nat) (f : Partition → Partition) : (s.modPart p f).late = s.late := rfl
@[simp] theorem State.modPart_heads (s : State) (p : Nat) (f : Partition → Partition) : (s.modPart p f).heads = s.heads := rfl
@[simp] theorem State.modPart_fences (s : State) (p : Nat) (f : Partition → Partition) : (s.modPart p f).fences = s.fences := rfl
@[simp] theorem State.modPart_rels (s : State) (p : Nat) (f : Partition → Partition) : (s.modPart p f).rels = s.rels := rfl
@[simp] theorem State.modPart_reads (s : State) (p : Nat) (f : Partition → Partition) : (s.modPart p f).reads = s.reads := rfl
@[simp] theorem State.modPart_hostMem (s : State) (p : Nat) (f : Partition → Partition) : (s.modPart p f).hostMem = s.hostMem := rfl
@[simp] theorem State.modPart_replicas (s : State) (p : Nat) (f : Partition → Partition) : (s.modPart p f).replicas = s.replicas := rfl
@[simp] theorem State.modPart_tlb (s : State) (p : Nat) (f : Partition → Partition) : (s.modPart p f).tlb = s.tlb := rfl
@[simp] theorem State.modPart_denied (s : State) (p : Nat) (f : Partition → Partition) : (s.modPart p f).denied = s.denied := rfl
@[simp] theorem State.modPart_walks (s : State) (p : Nat) (f : Partition → Partition) : (s.modPart p f).walks = s.walks := rfl
@[simp] theorem State.modPart_merges (s : State) (p : Nat) (f : Partition → Partition) : (s.modPart p f).merges = s.merges := rfl
@[simp] theorem State.modPart_reqs (s : State) (p : Nat) (f : Partition → Partition) : (s.modPart p f).reqs = s.reqs := rfl
@[simp] theorem State.modPart_fills (s : State) (p : Nat) (f : Partition → Partition) : (s.modPart p f).fills = s.fills := rfl
@[simp] theorem State.modPart_flows (s : State) (p : Nat) (f : Partition → Partition) : (s.modPart p f).flows = s.flows := rfl
@[simp] theorem State.modPart_sends (s : State) (p : Nat) (f : Partition → Partition) : (s.modPart p f).sends = s.sends := rfl
@[simp] theorem State.modPart_cores (s : State) (p : Nat) (f : Partition → Partition) : (s.modPart p f).cores = s.cores := rfl
@[simp] theorem State.modPart_teams (s : State) (p : Nat) (f : Partition → Partition) : (s.modPart p f).teams = s.teams := rfl
@[simp] theorem State.modPart_worlds (s : State) (p : Nat) (f : Partition → Partition) : (s.modPart p f).worlds = s.worlds := rfl
@[simp] theorem State.modPart_comps (s : State) (p : Nat) (f : Partition → Partition) : (s.modPart p f).comps = s.comps := rfl
@[simp] theorem State.modPart_shoots (s : State) (p : Nat) (f : Partition → Partition) : (s.modPart p f).shoots = s.shoots := rfl
@[simp] theorem State.modPart_secJobs (s : State) (p : Nat) (f : Partition → Partition) : (s.modPart p f).secJobs = s.secJobs := rfl
@[simp] theorem State.modPart_secQueue (s : State) (p : Nat) (f : Partition → Partition) : (s.modPart p f).secQueue = s.secQueue := rfl
@[simp] theorem State.modPart_mcastJobs (s : State) (p : Nat) (f : Partition → Partition) : (s.modPart p f).mcastJobs = s.mcastJobs := rfl
@[simp] theorem State.modPart_authResult (s : State) (p : Nat) (f : Partition → Partition) : (s.modPart p f).authResult = s.authResult := rfl
@[simp] theorem State.modPart_pkgid (s : State) (p : Nat) (f : Partition → Partition) : (s.modPart p f).pkgid = s.pkgid := rfl
@[simp] theorem State.modPart_rstage (s : State) (p : Nat) (f : Partition → Partition) : (s.modPart p f).rstage = s.rstage := rfl
@[simp] theorem State.modPart_halted (s : State) (p : Nat) (f : Partition → Partition) : (s.modPart p f).halted = s.halted := rfl
@[simp] theorem State.modPart_pstate (s : State) (p : Nat) (f : Partition → Partition) : (s.modPart p f).pstate = s.pstate := rfl
@[simp] theorem State.modPart_throttle (s : State) (p : Nat) (f : Partition → Partition) : (s.modPart p f).throttle = s.throttle := rfl
@[simp] theorem State.modPart_pwrcap (s : State) (p : Nat) (f : Partition → Partition) : (s.modPart p f).pwrcap = s.pwrcap := rfl
@[simp] theorem State.modPart_tlimit (s : State) (p : Nat) (f : Partition → Partition) : (s.modPart p f).tlimit = s.tlimit := rfl
@[simp] theorem State.modPart_hotDie (s : State) (p : Nat) (f : Partition → Partition) : (s.modPart p f).hotDie = s.hotDie := rfl
@[simp] theorem State.modPart_shoot (s : State) (p : Nat) (f : Partition → Partition) : (s.modPart p f).shoot = s.shoot := rfl
@[simp] theorem State.modPart_pgreset (s : State) (p : Nat) (f : Partition → Partition) : (s.modPart p f).pgreset = s.pgreset := rfl
@[simp] theorem State.modPart_preemptReg (s : State) (p : Nat) (f : Partition → Partition) : (s.modPart p f).preemptReg = s.preemptReg := rfl
@[simp] theorem State.modPart_drmask (s : State) (p : Nat) (f : Partition → Partition) : (s.modPart p f).drmask = s.drmask := rfl
@[simp] theorem State.modPart_mcast (s : State) (p : Nat) (f : Partition → Partition) : (s.modPart p f).mcast = s.mcast := rfl
@[simp] theorem State.modPart_linklog (s : State) (p : Nat) (f : Partition → Partition) : (s.modPart p f).linklog = s.linklog := rfl
@[simp] theorem State.modPart_linkseq (s : State) (p : Nat) (f : Partition → Partition) : (s.modPart p f).linkseq = s.linkseq := rfl
@[simp] theorem State.modPart_errorlog (s : State) (p : Nat) (f : Partition → Partition) : (s.modPart p f).errorlog = s.errorlog := rfl
@[simp] theorem State.modPart_errseq (s : State) (p : Nat) (f : Partition → Partition) : (s.modPart p f).errseq = s.errseq := rfl
@[simp] theorem State.modPart_lost (s : State) (p : Nat) (f : Partition → Partition) : (s.modPart p f).lost = s.lost := rfl
@[simp] theorem State.modPart_spdm (s : State) (p : Nat) (f : Partition → Partition) : (s.modPart p f).spdm = s.spdm := rfl
@[simp] theorem State.modPart_meas0 (s : State) (p : Nat) (f : Partition → Partition) : (s.modPart p f).meas0 = s.meas0 := rfl
@[simp] theorem State.modPart_meas1 (s : State) (p : Nat) (f : Partition → Partition) : (s.modPart p f).meas1 = s.meas1 := rfl
@[simp] theorem State.modPart_meas2 (s : State) (p : Nat) (f : Partition → Partition) : (s.modPart p f).meas2 = s.meas2 := rfl
@[simp] theorem State.modPart_keyCount (s : State) (p : Nat) (f : Partition → Partition) : (s.modPart p f).keyCount = s.keyCount := rfl
@[simp] theorem State.modPart_slotKeys (s : State) (p : Nat) (f : Partition → Partition) : (s.modPart p f).slotKeys = s.slotKeys := rfl
@[simp] theorem State.modPart_operatorKey (s : State) (p : Nat) (f : Partition → Partition) : (s.modPart p f).operatorKey = s.operatorKey := rfl
@[simp] theorem State.modPart_corrected (s : State) (p : Nat) (f : Partition → Partition) : (s.modPart p f).corrected = s.corrected := rfl
@[simp] theorem State.modPart_pinOver (s : State) (p : Nat) (f : Partition → Partition) : (s.modPart p f).pinOver = s.pinOver := rfl
@[simp] theorem State.modPart_authBox (s : State) (p : Nat) (f : Partition → Partition) : (s.modPart p f).authBox = s.authBox := rfl
@[simp] theorem State.modPart_outputs (s : State) (p : Nat) (f : Partition → Partition) : (s.modPart p f).outputs = s.outputs := rfl

@[simp] theorem State.modComp_schedule (s : State) (c : Nat) (f : Compart → Compart) : (s.modComp c f).schedule = s.schedule := rfl
@[simp] theorem State.modComp_cur (s : State) (c : Nat) (f : Compart → Compart) : (s.modComp c f).cur = s.cur := rfl
@[simp] theorem State.modComp_fresh (s : State) (c : Nat) (f : Compart → Compart) : (s.modComp c f).fresh = s.fresh := rfl
@[simp] theorem State.modComp_nextId (s : State) (c : Nat) (f : Compart → Compart) : (s.modComp c f).nextId = s.nextId := rfl
@[simp] theorem State.modComp_clock (s : State) (c : Nat) (f : Compart → Compart) : (s.modComp c f).clock = s.clock := rfl
@[simp] theorem State.modComp_cycs (s : State) (c : Nat) (f : Compart → Compart) : (s.modComp c f).cycs = s.cycs := rfl
@[simp] theorem State.modComp_mem (s : State) (c : Nat) (f : Compart → Compart) : (s.modComp c f).mem = s.mem := rfl
@[simp] theorem State.modComp_lines (s : State) (c : Nat) (f : Compart → Compart) : (s.modComp c f).lines = s.lines := rfl
@[simp] theorem State.modComp_badNodes (s : State) (c : Nat) (f : Compart → Compart) : (s.modComp c f).badNodes = s.badNodes := rfl
@[simp] theorem State.modComp_late (s : State) (c : Nat) (f : Compart → Compart) : (s.modComp c f).late = s.late := rfl
@[simp] theorem State.modComp_heads (s : State) (c : Nat) (f : Compart → Compart) : (s.modComp c f).heads = s.heads := rfl
@[simp] theorem State.modComp_fences (s : State) (c : Nat) (f : Compart → Compart) : (s.modComp c f).fences = s.fences := rfl
@[simp] theorem State.modComp_rels (s : State) (c : Nat) (f : Compart → Compart) : (s.modComp c f).rels = s.rels := rfl
@[simp] theorem State.modComp_reads (s : State) (c : Nat) (f : Compart → Compart) : (s.modComp c f).reads = s.reads := rfl
@[simp] theorem State.modComp_hostMem (s : State) (c : Nat) (f : Compart → Compart) : (s.modComp c f).hostMem = s.hostMem := rfl
@[simp] theorem State.modComp_replicas (s : State) (c : Nat) (f : Compart → Compart) : (s.modComp c f).replicas = s.replicas := rfl
@[simp] theorem State.modComp_tlb (s : State) (c : Nat) (f : Compart → Compart) : (s.modComp c f).tlb = s.tlb := rfl
@[simp] theorem State.modComp_denied (s : State) (c : Nat) (f : Compart → Compart) : (s.modComp c f).denied = s.denied := rfl
@[simp] theorem State.modComp_walks (s : State) (c : Nat) (f : Compart → Compart) : (s.modComp c f).walks = s.walks := rfl
@[simp] theorem State.modComp_merges (s : State) (c : Nat) (f : Compart → Compart) : (s.modComp c f).merges = s.merges := rfl
@[simp] theorem State.modComp_reqs (s : State) (c : Nat) (f : Compart → Compart) : (s.modComp c f).reqs = s.reqs := rfl
@[simp] theorem State.modComp_fills (s : State) (c : Nat) (f : Compart → Compart) : (s.modComp c f).fills = s.fills := rfl
@[simp] theorem State.modComp_flows (s : State) (c : Nat) (f : Compart → Compart) : (s.modComp c f).flows = s.flows := rfl
@[simp] theorem State.modComp_sends (s : State) (c : Nat) (f : Compart → Compart) : (s.modComp c f).sends = s.sends := rfl
@[simp] theorem State.modComp_cores (s : State) (c : Nat) (f : Compart → Compart) : (s.modComp c f).cores = s.cores := rfl
@[simp] theorem State.modComp_teams (s : State) (c : Nat) (f : Compart → Compart) : (s.modComp c f).teams = s.teams := rfl
@[simp] theorem State.modComp_parts (s : State) (c : Nat) (f : Compart → Compart) : (s.modComp c f).parts = s.parts := rfl
@[simp] theorem State.modComp_worlds (s : State) (c : Nat) (f : Compart → Compart) : (s.modComp c f).worlds = s.worlds := rfl
@[simp] theorem State.modComp_shoots (s : State) (c : Nat) (f : Compart → Compart) : (s.modComp c f).shoots = s.shoots := rfl
@[simp] theorem State.modComp_secJobs (s : State) (c : Nat) (f : Compart → Compart) : (s.modComp c f).secJobs = s.secJobs := rfl
@[simp] theorem State.modComp_secQueue (s : State) (c : Nat) (f : Compart → Compart) : (s.modComp c f).secQueue = s.secQueue := rfl
@[simp] theorem State.modComp_mcastJobs (s : State) (c : Nat) (f : Compart → Compart) : (s.modComp c f).mcastJobs = s.mcastJobs := rfl
@[simp] theorem State.modComp_authResult (s : State) (c : Nat) (f : Compart → Compart) : (s.modComp c f).authResult = s.authResult := rfl
@[simp] theorem State.modComp_pkgid (s : State) (c : Nat) (f : Compart → Compart) : (s.modComp c f).pkgid = s.pkgid := rfl
@[simp] theorem State.modComp_rstage (s : State) (c : Nat) (f : Compart → Compart) : (s.modComp c f).rstage = s.rstage := rfl
@[simp] theorem State.modComp_halted (s : State) (c : Nat) (f : Compart → Compart) : (s.modComp c f).halted = s.halted := rfl
@[simp] theorem State.modComp_pstate (s : State) (c : Nat) (f : Compart → Compart) : (s.modComp c f).pstate = s.pstate := rfl
@[simp] theorem State.modComp_throttle (s : State) (c : Nat) (f : Compart → Compart) : (s.modComp c f).throttle = s.throttle := rfl
@[simp] theorem State.modComp_pwrcap (s : State) (c : Nat) (f : Compart → Compart) : (s.modComp c f).pwrcap = s.pwrcap := rfl
@[simp] theorem State.modComp_tlimit (s : State) (c : Nat) (f : Compart → Compart) : (s.modComp c f).tlimit = s.tlimit := rfl
@[simp] theorem State.modComp_hotDie (s : State) (c : Nat) (f : Compart → Compart) : (s.modComp c f).hotDie = s.hotDie := rfl
@[simp] theorem State.modComp_shoot (s : State) (c : Nat) (f : Compart → Compart) : (s.modComp c f).shoot = s.shoot := rfl
@[simp] theorem State.modComp_pgreset (s : State) (c : Nat) (f : Compart → Compart) : (s.modComp c f).pgreset = s.pgreset := rfl
@[simp] theorem State.modComp_preemptReg (s : State) (c : Nat) (f : Compart → Compart) : (s.modComp c f).preemptReg = s.preemptReg := rfl
@[simp] theorem State.modComp_drmask (s : State) (c : Nat) (f : Compart → Compart) : (s.modComp c f).drmask = s.drmask := rfl
@[simp] theorem State.modComp_mcast (s : State) (c : Nat) (f : Compart → Compart) : (s.modComp c f).mcast = s.mcast := rfl
@[simp] theorem State.modComp_linklog (s : State) (c : Nat) (f : Compart → Compart) : (s.modComp c f).linklog = s.linklog := rfl
@[simp] theorem State.modComp_linkseq (s : State) (c : Nat) (f : Compart → Compart) : (s.modComp c f).linkseq = s.linkseq := rfl
@[simp] theorem State.modComp_errorlog (s : State) (c : Nat) (f : Compart → Compart) : (s.modComp c f).errorlog = s.errorlog := rfl
@[simp] theorem State.modComp_errseq (s : State) (c : Nat) (f : Compart → Compart) : (s.modComp c f).errseq = s.errseq := rfl
@[simp] theorem State.modComp_lost (s : State) (c : Nat) (f : Compart → Compart) : (s.modComp c f).lost = s.lost := rfl
@[simp] theorem State.modComp_spdm (s : State) (c : Nat) (f : Compart → Compart) : (s.modComp c f).spdm = s.spdm := rfl
@[simp] theorem State.modComp_meas0 (s : State) (c : Nat) (f : Compart → Compart) : (s.modComp c f).meas0 = s.meas0 := rfl
@[simp] theorem State.modComp_meas1 (s : State) (c : Nat) (f : Compart → Compart) : (s.modComp c f).meas1 = s.meas1 := rfl
@[simp] theorem State.modComp_meas2 (s : State) (c : Nat) (f : Compart → Compart) : (s.modComp c f).meas2 = s.meas2 := rfl
@[simp] theorem State.modComp_keyCount (s : State) (c : Nat) (f : Compart → Compart) : (s.modComp c f).keyCount = s.keyCount := rfl
@[simp] theorem State.modComp_slotKeys (s : State) (c : Nat) (f : Compart → Compart) : (s.modComp c f).slotKeys = s.slotKeys := rfl
@[simp] theorem State.modComp_operatorKey (s : State) (c : Nat) (f : Compart → Compart) : (s.modComp c f).operatorKey = s.operatorKey := rfl
@[simp] theorem State.modComp_corrected (s : State) (c : Nat) (f : Compart → Compart) : (s.modComp c f).corrected = s.corrected := rfl
@[simp] theorem State.modComp_pinOver (s : State) (c : Nat) (f : Compart → Compart) : (s.modComp c f).pinOver = s.pinOver := rfl
@[simp] theorem State.modComp_authBox (s : State) (c : Nat) (f : Compart → Compart) : (s.modComp c f).authBox = s.authBox := rfl
@[simp] theorem State.modComp_outputs (s : State) (c : Nat) (f : Compart → Compart) : (s.modComp c f).outputs = s.outputs := rfl

@[simp] theorem State.modNode_schedule (s : State) (n : Nat) (f : Node → Node) : (s.modNode n f).schedule = s.schedule := rfl
@[simp] theorem State.modNode_cur (s : State) (n : Nat) (f : Node → Node) : (s.modNode n f).cur = s.cur := rfl
@[simp] theorem State.modNode_fresh (s : State) (n : Nat) (f : Node → Node) : (s.modNode n f).fresh = s.fresh := rfl
@[simp] theorem State.modNode_nextId (s : State) (n : Nat) (f : Node → Node) : (s.modNode n f).nextId = s.nextId := rfl
@[simp] theorem State.modNode_clock (s : State) (n : Nat) (f : Node → Node) : (s.modNode n f).clock = s.clock := rfl
@[simp] theorem State.modNode_cycs (s : State) (n : Nat) (f : Node → Node) : (s.modNode n f).cycs = s.cycs := rfl
@[simp] theorem State.modNode_mem (s : State) (n : Nat) (f : Node → Node) : (s.modNode n f).mem = s.mem := rfl
@[simp] theorem State.modNode_lines (s : State) (n : Nat) (f : Node → Node) : (s.modNode n f).lines = s.lines := rfl
@[simp] theorem State.modNode_badNodes (s : State) (n : Nat) (f : Node → Node) : (s.modNode n f).badNodes = s.badNodes := rfl
@[simp] theorem State.modNode_late (s : State) (n : Nat) (f : Node → Node) : (s.modNode n f).late = s.late := rfl
@[simp] theorem State.modNode_heads (s : State) (n : Nat) (f : Node → Node) : (s.modNode n f).heads = s.heads := rfl
@[simp] theorem State.modNode_fences (s : State) (n : Nat) (f : Node → Node) : (s.modNode n f).fences = s.fences := rfl
@[simp] theorem State.modNode_rels (s : State) (n : Nat) (f : Node → Node) : (s.modNode n f).rels = s.rels := rfl
@[simp] theorem State.modNode_reads (s : State) (n : Nat) (f : Node → Node) : (s.modNode n f).reads = s.reads := rfl
@[simp] theorem State.modNode_hostMem (s : State) (n : Nat) (f : Node → Node) : (s.modNode n f).hostMem = s.hostMem := rfl
@[simp] theorem State.modNode_replicas (s : State) (n : Nat) (f : Node → Node) : (s.modNode n f).replicas = s.replicas := rfl
@[simp] theorem State.modNode_tlb (s : State) (n : Nat) (f : Node → Node) : (s.modNode n f).tlb = s.tlb := rfl
@[simp] theorem State.modNode_denied (s : State) (n : Nat) (f : Node → Node) : (s.modNode n f).denied = s.denied := rfl
@[simp] theorem State.modNode_walks (s : State) (n : Nat) (f : Node → Node) : (s.modNode n f).walks = s.walks := rfl
@[simp] theorem State.modNode_merges (s : State) (n : Nat) (f : Node → Node) : (s.modNode n f).merges = s.merges := rfl
@[simp] theorem State.modNode_reqs (s : State) (n : Nat) (f : Node → Node) : (s.modNode n f).reqs = s.reqs := rfl
@[simp] theorem State.modNode_fills (s : State) (n : Nat) (f : Node → Node) : (s.modNode n f).fills = s.fills := rfl
@[simp] theorem State.modNode_flows (s : State) (n : Nat) (f : Node → Node) : (s.modNode n f).flows = s.flows := rfl
@[simp] theorem State.modNode_sends (s : State) (n : Nat) (f : Node → Node) : (s.modNode n f).sends = s.sends := rfl
@[simp] theorem State.modNode_cores (s : State) (n : Nat) (f : Node → Node) : (s.modNode n f).cores = s.cores := rfl
@[simp] theorem State.modNode_teams (s : State) (n : Nat) (f : Node → Node) : (s.modNode n f).teams = s.teams := rfl
@[simp] theorem State.modNode_worlds (s : State) (n : Nat) (f : Node → Node) : (s.modNode n f).worlds = s.worlds := rfl
@[simp] theorem State.modNode_comps (s : State) (n : Nat) (f : Node → Node) : (s.modNode n f).comps = s.comps := rfl
@[simp] theorem State.modNode_shoots (s : State) (n : Nat) (f : Node → Node) : (s.modNode n f).shoots = s.shoots := rfl
@[simp] theorem State.modNode_secJobs (s : State) (n : Nat) (f : Node → Node) : (s.modNode n f).secJobs = s.secJobs := rfl
@[simp] theorem State.modNode_secQueue (s : State) (n : Nat) (f : Node → Node) : (s.modNode n f).secQueue = s.secQueue := rfl
@[simp] theorem State.modNode_mcastJobs (s : State) (n : Nat) (f : Node → Node) : (s.modNode n f).mcastJobs = s.mcastJobs := rfl
@[simp] theorem State.modNode_authResult (s : State) (n : Nat) (f : Node → Node) : (s.modNode n f).authResult = s.authResult := rfl
@[simp] theorem State.modNode_pkgid (s : State) (n : Nat) (f : Node → Node) : (s.modNode n f).pkgid = s.pkgid := rfl
@[simp] theorem State.modNode_rstage (s : State) (n : Nat) (f : Node → Node) : (s.modNode n f).rstage = s.rstage := rfl
@[simp] theorem State.modNode_halted (s : State) (n : Nat) (f : Node → Node) : (s.modNode n f).halted = s.halted := rfl
@[simp] theorem State.modNode_pstate (s : State) (n : Nat) (f : Node → Node) : (s.modNode n f).pstate = s.pstate := rfl
@[simp] theorem State.modNode_throttle (s : State) (n : Nat) (f : Node → Node) : (s.modNode n f).throttle = s.throttle := rfl
@[simp] theorem State.modNode_pwrcap (s : State) (n : Nat) (f : Node → Node) : (s.modNode n f).pwrcap = s.pwrcap := rfl
@[simp] theorem State.modNode_tlimit (s : State) (n : Nat) (f : Node → Node) : (s.modNode n f).tlimit = s.tlimit := rfl
@[simp] theorem State.modNode_hotDie (s : State) (n : Nat) (f : Node → Node) : (s.modNode n f).hotDie = s.hotDie := rfl
@[simp] theorem State.modNode_shoot (s : State) (n : Nat) (f : Node → Node) : (s.modNode n f).shoot = s.shoot := rfl
@[simp] theorem State.modNode_pgreset (s : State) (n : Nat) (f : Node → Node) : (s.modNode n f).pgreset = s.pgreset := rfl
@[simp] theorem State.modNode_preemptReg (s : State) (n : Nat) (f : Node → Node) : (s.modNode n f).preemptReg = s.preemptReg := rfl
@[simp] theorem State.modNode_drmask (s : State) (n : Nat) (f : Node → Node) : (s.modNode n f).drmask = s.drmask := rfl
@[simp] theorem State.modNode_mcast (s : State) (n : Nat) (f : Node → Node) : (s.modNode n f).mcast = s.mcast := rfl
@[simp] theorem State.modNode_linklog (s : State) (n : Nat) (f : Node → Node) : (s.modNode n f).linklog = s.linklog := rfl
@[simp] theorem State.modNode_linkseq (s : State) (n : Nat) (f : Node → Node) : (s.modNode n f).linkseq = s.linkseq := rfl
@[simp] theorem State.modNode_errorlog (s : State) (n : Nat) (f : Node → Node) : (s.modNode n f).errorlog = s.errorlog := rfl
@[simp] theorem State.modNode_errseq (s : State) (n : Nat) (f : Node → Node) : (s.modNode n f).errseq = s.errseq := rfl
@[simp] theorem State.modNode_lost (s : State) (n : Nat) (f : Node → Node) : (s.modNode n f).lost = s.lost := rfl
@[simp] theorem State.modNode_spdm (s : State) (n : Nat) (f : Node → Node) : (s.modNode n f).spdm = s.spdm := rfl
@[simp] theorem State.modNode_meas0 (s : State) (n : Nat) (f : Node → Node) : (s.modNode n f).meas0 = s.meas0 := rfl
@[simp] theorem State.modNode_meas1 (s : State) (n : Nat) (f : Node → Node) : (s.modNode n f).meas1 = s.meas1 := rfl
@[simp] theorem State.modNode_meas2 (s : State) (n : Nat) (f : Node → Node) : (s.modNode n f).meas2 = s.meas2 := rfl
@[simp] theorem State.modNode_keyCount (s : State) (n : Nat) (f : Node → Node) : (s.modNode n f).keyCount = s.keyCount := rfl
@[simp] theorem State.modNode_slotKeys (s : State) (n : Nat) (f : Node → Node) : (s.modNode n f).slotKeys = s.slotKeys := rfl
@[simp] theorem State.modNode_operatorKey (s : State) (n : Nat) (f : Node → Node) : (s.modNode n f).operatorKey = s.operatorKey := rfl
@[simp] theorem State.modNode_corrected (s : State) (n : Nat) (f : Node → Node) : (s.modNode n f).corrected = s.corrected := rfl
@[simp] theorem State.modNode_pinOver (s : State) (n : Nat) (f : Node → Node) : (s.modNode n f).pinOver = s.pinOver := rfl
@[simp] theorem State.modNode_authBox (s : State) (n : Nat) (f : Node → Node) : (s.modNode n f).authBox = s.authBox := rfl
@[simp] theorem State.modNode_outputs (s : State) (n : Nat) (f : Node → Node) : (s.modNode n f).outputs = s.outputs := rfl

@[simp] theorem State.modLaunch_schedule (s : State) (l : Nat) (f : Launch → Launch) : (s.modLaunch l f).schedule = s.schedule := rfl
@[simp] theorem State.modLaunch_cur (s : State) (l : Nat) (f : Launch → Launch) : (s.modLaunch l f).cur = s.cur := rfl
@[simp] theorem State.modLaunch_fresh (s : State) (l : Nat) (f : Launch → Launch) : (s.modLaunch l f).fresh = s.fresh := rfl
@[simp] theorem State.modLaunch_nextId (s : State) (l : Nat) (f : Launch → Launch) : (s.modLaunch l f).nextId = s.nextId := rfl
@[simp] theorem State.modLaunch_clock (s : State) (l : Nat) (f : Launch → Launch) : (s.modLaunch l f).clock = s.clock := rfl
@[simp] theorem State.modLaunch_cycs (s : State) (l : Nat) (f : Launch → Launch) : (s.modLaunch l f).cycs = s.cycs := rfl
@[simp] theorem State.modLaunch_mem (s : State) (l : Nat) (f : Launch → Launch) : (s.modLaunch l f).mem = s.mem := rfl
@[simp] theorem State.modLaunch_lines (s : State) (l : Nat) (f : Launch → Launch) : (s.modLaunch l f).lines = s.lines := rfl
@[simp] theorem State.modLaunch_badNodes (s : State) (l : Nat) (f : Launch → Launch) : (s.modLaunch l f).badNodes = s.badNodes := rfl
@[simp] theorem State.modLaunch_late (s : State) (l : Nat) (f : Launch → Launch) : (s.modLaunch l f).late = s.late := rfl
@[simp] theorem State.modLaunch_heads (s : State) (l : Nat) (f : Launch → Launch) : (s.modLaunch l f).heads = s.heads := rfl
@[simp] theorem State.modLaunch_fences (s : State) (l : Nat) (f : Launch → Launch) : (s.modLaunch l f).fences = s.fences := rfl
@[simp] theorem State.modLaunch_rels (s : State) (l : Nat) (f : Launch → Launch) : (s.modLaunch l f).rels = s.rels := rfl
@[simp] theorem State.modLaunch_reads (s : State) (l : Nat) (f : Launch → Launch) : (s.modLaunch l f).reads = s.reads := rfl
@[simp] theorem State.modLaunch_hostMem (s : State) (l : Nat) (f : Launch → Launch) : (s.modLaunch l f).hostMem = s.hostMem := rfl
@[simp] theorem State.modLaunch_replicas (s : State) (l : Nat) (f : Launch → Launch) : (s.modLaunch l f).replicas = s.replicas := rfl
@[simp] theorem State.modLaunch_tlb (s : State) (l : Nat) (f : Launch → Launch) : (s.modLaunch l f).tlb = s.tlb := rfl
@[simp] theorem State.modLaunch_denied (s : State) (l : Nat) (f : Launch → Launch) : (s.modLaunch l f).denied = s.denied := rfl
@[simp] theorem State.modLaunch_walks (s : State) (l : Nat) (f : Launch → Launch) : (s.modLaunch l f).walks = s.walks := rfl
@[simp] theorem State.modLaunch_merges (s : State) (l : Nat) (f : Launch → Launch) : (s.modLaunch l f).merges = s.merges := rfl
@[simp] theorem State.modLaunch_reqs (s : State) (l : Nat) (f : Launch → Launch) : (s.modLaunch l f).reqs = s.reqs := rfl
@[simp] theorem State.modLaunch_fills (s : State) (l : Nat) (f : Launch → Launch) : (s.modLaunch l f).fills = s.fills := rfl
@[simp] theorem State.modLaunch_flows (s : State) (l : Nat) (f : Launch → Launch) : (s.modLaunch l f).flows = s.flows := rfl
@[simp] theorem State.modLaunch_sends (s : State) (l : Nat) (f : Launch → Launch) : (s.modLaunch l f).sends = s.sends := rfl
@[simp] theorem State.modLaunch_cores (s : State) (l : Nat) (f : Launch → Launch) : (s.modLaunch l f).cores = s.cores := rfl
@[simp] theorem State.modLaunch_teams (s : State) (l : Nat) (f : Launch → Launch) : (s.modLaunch l f).teams = s.teams := rfl
@[simp] theorem State.modLaunch_worlds (s : State) (l : Nat) (f : Launch → Launch) : (s.modLaunch l f).worlds = s.worlds := rfl
@[simp] theorem State.modLaunch_comps (s : State) (l : Nat) (f : Launch → Launch) : (s.modLaunch l f).comps = s.comps := rfl
@[simp] theorem State.modLaunch_shoots (s : State) (l : Nat) (f : Launch → Launch) : (s.modLaunch l f).shoots = s.shoots := rfl
@[simp] theorem State.modLaunch_secJobs (s : State) (l : Nat) (f : Launch → Launch) : (s.modLaunch l f).secJobs = s.secJobs := rfl
@[simp] theorem State.modLaunch_secQueue (s : State) (l : Nat) (f : Launch → Launch) : (s.modLaunch l f).secQueue = s.secQueue := rfl
@[simp] theorem State.modLaunch_mcastJobs (s : State) (l : Nat) (f : Launch → Launch) : (s.modLaunch l f).mcastJobs = s.mcastJobs := rfl
@[simp] theorem State.modLaunch_authResult (s : State) (l : Nat) (f : Launch → Launch) : (s.modLaunch l f).authResult = s.authResult := rfl
@[simp] theorem State.modLaunch_pkgid (s : State) (l : Nat) (f : Launch → Launch) : (s.modLaunch l f).pkgid = s.pkgid := rfl
@[simp] theorem State.modLaunch_rstage (s : State) (l : Nat) (f : Launch → Launch) : (s.modLaunch l f).rstage = s.rstage := rfl
@[simp] theorem State.modLaunch_halted (s : State) (l : Nat) (f : Launch → Launch) : (s.modLaunch l f).halted = s.halted := rfl
@[simp] theorem State.modLaunch_pstate (s : State) (l : Nat) (f : Launch → Launch) : (s.modLaunch l f).pstate = s.pstate := rfl
@[simp] theorem State.modLaunch_throttle (s : State) (l : Nat) (f : Launch → Launch) : (s.modLaunch l f).throttle = s.throttle := rfl
@[simp] theorem State.modLaunch_pwrcap (s : State) (l : Nat) (f : Launch → Launch) : (s.modLaunch l f).pwrcap = s.pwrcap := rfl
@[simp] theorem State.modLaunch_tlimit (s : State) (l : Nat) (f : Launch → Launch) : (s.modLaunch l f).tlimit = s.tlimit := rfl
@[simp] theorem State.modLaunch_hotDie (s : State) (l : Nat) (f : Launch → Launch) : (s.modLaunch l f).hotDie = s.hotDie := rfl
@[simp] theorem State.modLaunch_shoot (s : State) (l : Nat) (f : Launch → Launch) : (s.modLaunch l f).shoot = s.shoot := rfl
@[simp] theorem State.modLaunch_pgreset (s : State) (l : Nat) (f : Launch → Launch) : (s.modLaunch l f).pgreset = s.pgreset := rfl
@[simp] theorem State.modLaunch_preemptReg (s : State) (l : Nat) (f : Launch → Launch) : (s.modLaunch l f).preemptReg = s.preemptReg := rfl
@[simp] theorem State.modLaunch_drmask (s : State) (l : Nat) (f : Launch → Launch) : (s.modLaunch l f).drmask = s.drmask := rfl
@[simp] theorem State.modLaunch_mcast (s : State) (l : Nat) (f : Launch → Launch) : (s.modLaunch l f).mcast = s.mcast := rfl
@[simp] theorem State.modLaunch_linklog (s : State) (l : Nat) (f : Launch → Launch) : (s.modLaunch l f).linklog = s.linklog := rfl
@[simp] theorem State.modLaunch_linkseq (s : State) (l : Nat) (f : Launch → Launch) : (s.modLaunch l f).linkseq = s.linkseq := rfl
@[simp] theorem State.modLaunch_errorlog (s : State) (l : Nat) (f : Launch → Launch) : (s.modLaunch l f).errorlog = s.errorlog := rfl
@[simp] theorem State.modLaunch_errseq (s : State) (l : Nat) (f : Launch → Launch) : (s.modLaunch l f).errseq = s.errseq := rfl
@[simp] theorem State.modLaunch_lost (s : State) (l : Nat) (f : Launch → Launch) : (s.modLaunch l f).lost = s.lost := rfl
@[simp] theorem State.modLaunch_spdm (s : State) (l : Nat) (f : Launch → Launch) : (s.modLaunch l f).spdm = s.spdm := rfl
@[simp] theorem State.modLaunch_meas0 (s : State) (l : Nat) (f : Launch → Launch) : (s.modLaunch l f).meas0 = s.meas0 := rfl
@[simp] theorem State.modLaunch_meas1 (s : State) (l : Nat) (f : Launch → Launch) : (s.modLaunch l f).meas1 = s.meas1 := rfl
@[simp] theorem State.modLaunch_meas2 (s : State) (l : Nat) (f : Launch → Launch) : (s.modLaunch l f).meas2 = s.meas2 := rfl
@[simp] theorem State.modLaunch_keyCount (s : State) (l : Nat) (f : Launch → Launch) : (s.modLaunch l f).keyCount = s.keyCount := rfl
@[simp] theorem State.modLaunch_slotKeys (s : State) (l : Nat) (f : Launch → Launch) : (s.modLaunch l f).slotKeys = s.slotKeys := rfl
@[simp] theorem State.modLaunch_operatorKey (s : State) (l : Nat) (f : Launch → Launch) : (s.modLaunch l f).operatorKey = s.operatorKey := rfl
@[simp] theorem State.modLaunch_corrected (s : State) (l : Nat) (f : Launch → Launch) : (s.modLaunch l f).corrected = s.corrected := rfl
@[simp] theorem State.modLaunch_pinOver (s : State) (l : Nat) (f : Launch → Launch) : (s.modLaunch l f).pinOver = s.pinOver := rfl
@[simp] theorem State.modLaunch_authBox (s : State) (l : Nat) (f : Launch → Launch) : (s.modLaunch l f).authBox = s.authBox := rfl
@[simp] theorem State.modLaunch_outputs (s : State) (l : Nat) (f : Launch → Launch) : (s.modLaunch l f).outputs = s.outputs := rfl

@[simp] theorem State.setLine_schedule (s : State) (a : Nat) (l : Line) : (s.setLine a l).schedule = s.schedule := rfl
@[simp] theorem State.setLine_cur (s : State) (a : Nat) (l : Line) : (s.setLine a l).cur = s.cur := rfl
@[simp] theorem State.setLine_fresh (s : State) (a : Nat) (l : Line) : (s.setLine a l).fresh = s.fresh := rfl
@[simp] theorem State.setLine_nextId (s : State) (a : Nat) (l : Line) : (s.setLine a l).nextId = s.nextId := rfl
@[simp] theorem State.setLine_clock (s : State) (a : Nat) (l : Line) : (s.setLine a l).clock = s.clock := rfl
@[simp] theorem State.setLine_cycs (s : State) (a : Nat) (l : Line) : (s.setLine a l).cycs = s.cycs := rfl
@[simp] theorem State.setLine_mem (s : State) (a : Nat) (l : Line) : (s.setLine a l).mem = s.mem := rfl
@[simp] theorem State.setLine_badNodes (s : State) (a : Nat) (l : Line) : (s.setLine a l).badNodes = s.badNodes := rfl
@[simp] theorem State.setLine_late (s : State) (a : Nat) (l : Line) : (s.setLine a l).late = s.late := rfl
@[simp] theorem State.setLine_heads (s : State) (a : Nat) (l : Line) : (s.setLine a l).heads = s.heads := rfl
@[simp] theorem State.setLine_fences (s : State) (a : Nat) (l : Line) : (s.setLine a l).fences = s.fences := rfl
@[simp] theorem State.setLine_rels (s : State) (a : Nat) (l : Line) : (s.setLine a l).rels = s.rels := rfl
@[simp] theorem State.setLine_reads (s : State) (a : Nat) (l : Line) : (s.setLine a l).reads = s.reads := rfl
@[simp] theorem State.setLine_hostMem (s : State) (a : Nat) (l : Line) : (s.setLine a l).hostMem = s.hostMem := rfl
@[simp] theorem State.setLine_replicas (s : State) (a : Nat) (l : Line) : (s.setLine a l).replicas = s.replicas := rfl
@[simp] theorem State.setLine_tlb (s : State) (a : Nat) (l : Line) : (s.setLine a l).tlb = s.tlb := rfl
@[simp] theorem State.setLine_denied (s : State) (a : Nat) (l : Line) : (s.setLine a l).denied = s.denied := rfl
@[simp] theorem State.setLine_walks (s : State) (a : Nat) (l : Line) : (s.setLine a l).walks = s.walks := rfl
@[simp] theorem State.setLine_merges (s : State) (a : Nat) (l : Line) : (s.setLine a l).merges = s.merges := rfl
@[simp] theorem State.setLine_reqs (s : State) (a : Nat) (l : Line) : (s.setLine a l).reqs = s.reqs := rfl
@[simp] theorem State.setLine_fills (s : State) (a : Nat) (l : Line) : (s.setLine a l).fills = s.fills := rfl
@[simp] theorem State.setLine_flows (s : State) (a : Nat) (l : Line) : (s.setLine a l).flows = s.flows := rfl
@[simp] theorem State.setLine_sends (s : State) (a : Nat) (l : Line) : (s.setLine a l).sends = s.sends := rfl
@[simp] theorem State.setLine_cores (s : State) (a : Nat) (l : Line) : (s.setLine a l).cores = s.cores := rfl
@[simp] theorem State.setLine_teams (s : State) (a : Nat) (l : Line) : (s.setLine a l).teams = s.teams := rfl
@[simp] theorem State.setLine_parts (s : State) (a : Nat) (l : Line) : (s.setLine a l).parts = s.parts := rfl
@[simp] theorem State.setLine_worlds (s : State) (a : Nat) (l : Line) : (s.setLine a l).worlds = s.worlds := rfl
@[simp] theorem State.setLine_comps (s : State) (a : Nat) (l : Line) : (s.setLine a l).comps = s.comps := rfl
@[simp] theorem State.setLine_shoots (s : State) (a : Nat) (l : Line) : (s.setLine a l).shoots = s.shoots := rfl
@[simp] theorem State.setLine_secJobs (s : State) (a : Nat) (l : Line) : (s.setLine a l).secJobs = s.secJobs := rfl
@[simp] theorem State.setLine_secQueue (s : State) (a : Nat) (l : Line) : (s.setLine a l).secQueue = s.secQueue := rfl
@[simp] theorem State.setLine_mcastJobs (s : State) (a : Nat) (l : Line) : (s.setLine a l).mcastJobs = s.mcastJobs := rfl
@[simp] theorem State.setLine_authResult (s : State) (a : Nat) (l : Line) : (s.setLine a l).authResult = s.authResult := rfl
@[simp] theorem State.setLine_pkgid (s : State) (a : Nat) (l : Line) : (s.setLine a l).pkgid = s.pkgid := rfl
@[simp] theorem State.setLine_rstage (s : State) (a : Nat) (l : Line) : (s.setLine a l).rstage = s.rstage := rfl
@[simp] theorem State.setLine_halted (s : State) (a : Nat) (l : Line) : (s.setLine a l).halted = s.halted := rfl
@[simp] theorem State.setLine_pstate (s : State) (a : Nat) (l : Line) : (s.setLine a l).pstate = s.pstate := rfl
@[simp] theorem State.setLine_throttle (s : State) (a : Nat) (l : Line) : (s.setLine a l).throttle = s.throttle := rfl
@[simp] theorem State.setLine_pwrcap (s : State) (a : Nat) (l : Line) : (s.setLine a l).pwrcap = s.pwrcap := rfl
@[simp] theorem State.setLine_tlimit (s : State) (a : Nat) (l : Line) : (s.setLine a l).tlimit = s.tlimit := rfl
@[simp] theorem State.setLine_hotDie (s : State) (a : Nat) (l : Line) : (s.setLine a l).hotDie = s.hotDie := rfl
@[simp] theorem State.setLine_shoot (s : State) (a : Nat) (l : Line) : (s.setLine a l).shoot = s.shoot := rfl
@[simp] theorem State.setLine_pgreset (s : State) (a : Nat) (l : Line) : (s.setLine a l).pgreset = s.pgreset := rfl
@[simp] theorem State.setLine_preemptReg (s : State) (a : Nat) (l : Line) : (s.setLine a l).preemptReg = s.preemptReg := rfl
@[simp] theorem State.setLine_drmask (s : State) (a : Nat) (l : Line) : (s.setLine a l).drmask = s.drmask := rfl
@[simp] theorem State.setLine_mcast (s : State) (a : Nat) (l : Line) : (s.setLine a l).mcast = s.mcast := rfl
@[simp] theorem State.setLine_linklog (s : State) (a : Nat) (l : Line) : (s.setLine a l).linklog = s.linklog := rfl
@[simp] theorem State.setLine_linkseq (s : State) (a : Nat) (l : Line) : (s.setLine a l).linkseq = s.linkseq := rfl
@[simp] theorem State.setLine_errorlog (s : State) (a : Nat) (l : Line) : (s.setLine a l).errorlog = s.errorlog := rfl
@[simp] theorem State.setLine_errseq (s : State) (a : Nat) (l : Line) : (s.setLine a l).errseq = s.errseq := rfl
@[simp] theorem State.setLine_lost (s : State) (a : Nat) (l : Line) : (s.setLine a l).lost = s.lost := rfl
@[simp] theorem State.setLine_spdm (s : State) (a : Nat) (l : Line) : (s.setLine a l).spdm = s.spdm := rfl
@[simp] theorem State.setLine_meas0 (s : State) (a : Nat) (l : Line) : (s.setLine a l).meas0 = s.meas0 := rfl
@[simp] theorem State.setLine_meas1 (s : State) (a : Nat) (l : Line) : (s.setLine a l).meas1 = s.meas1 := rfl
@[simp] theorem State.setLine_meas2 (s : State) (a : Nat) (l : Line) : (s.setLine a l).meas2 = s.meas2 := rfl
@[simp] theorem State.setLine_keyCount (s : State) (a : Nat) (l : Line) : (s.setLine a l).keyCount = s.keyCount := rfl
@[simp] theorem State.setLine_slotKeys (s : State) (a : Nat) (l : Line) : (s.setLine a l).slotKeys = s.slotKeys := rfl
@[simp] theorem State.setLine_operatorKey (s : State) (a : Nat) (l : Line) : (s.setLine a l).operatorKey = s.operatorKey := rfl
@[simp] theorem State.setLine_corrected (s : State) (a : Nat) (l : Line) : (s.setLine a l).corrected = s.corrected := rfl
@[simp] theorem State.setLine_pinOver (s : State) (a : Nat) (l : Line) : (s.setLine a l).pinOver = s.pinOver := rfl
@[simp] theorem State.setLine_authBox (s : State) (a : Nat) (l : Line) : (s.setLine a l).authBox = s.authBox := rfl
@[simp] theorem State.setLine_outputs (s : State) (a : Nat) (l : Line) : (s.setLine a l).outputs = s.outputs := rfl

@[simp] theorem State.logError_schedule (s : State) (k l i : Nat) : (s.logError k l i).schedule = s.schedule := rfl
@[simp] theorem State.logError_cur (s : State) (k l i : Nat) : (s.logError k l i).cur = s.cur := rfl
@[simp] theorem State.logError_fresh (s : State) (k l i : Nat) : (s.logError k l i).fresh = s.fresh := rfl
@[simp] theorem State.logError_nextId (s : State) (k l i : Nat) : (s.logError k l i).nextId = s.nextId := rfl
@[simp] theorem State.logError_clock (s : State) (k l i : Nat) : (s.logError k l i).clock = s.clock := rfl
@[simp] theorem State.logError_cycs (s : State) (k l i : Nat) : (s.logError k l i).cycs = s.cycs := rfl
@[simp] theorem State.logError_mem (s : State) (k l i : Nat) : (s.logError k l i).mem = s.mem := rfl
@[simp] theorem State.logError_lines (s : State) (k l i : Nat) : (s.logError k l i).lines = s.lines := rfl
@[simp] theorem State.logError_badNodes (s : State) (k l i : Nat) : (s.logError k l i).badNodes = s.badNodes := rfl
@[simp] theorem State.logError_late (s : State) (k l i : Nat) : (s.logError k l i).late = s.late := rfl
@[simp] theorem State.logError_heads (s : State) (k l i : Nat) : (s.logError k l i).heads = s.heads := rfl
@[simp] theorem State.logError_fences (s : State) (k l i : Nat) : (s.logError k l i).fences = s.fences := rfl
@[simp] theorem State.logError_rels (s : State) (k l i : Nat) : (s.logError k l i).rels = s.rels := rfl
@[simp] theorem State.logError_reads (s : State) (k l i : Nat) : (s.logError k l i).reads = s.reads := rfl
@[simp] theorem State.logError_hostMem (s : State) (k l i : Nat) : (s.logError k l i).hostMem = s.hostMem := rfl
@[simp] theorem State.logError_replicas (s : State) (k l i : Nat) : (s.logError k l i).replicas = s.replicas := rfl
@[simp] theorem State.logError_tlb (s : State) (k l i : Nat) : (s.logError k l i).tlb = s.tlb := rfl
@[simp] theorem State.logError_denied (s : State) (k l i : Nat) : (s.logError k l i).denied = s.denied := rfl
@[simp] theorem State.logError_walks (s : State) (k l i : Nat) : (s.logError k l i).walks = s.walks := rfl
@[simp] theorem State.logError_merges (s : State) (k l i : Nat) : (s.logError k l i).merges = s.merges := rfl
@[simp] theorem State.logError_reqs (s : State) (k l i : Nat) : (s.logError k l i).reqs = s.reqs := rfl
@[simp] theorem State.logError_fills (s : State) (k l i : Nat) : (s.logError k l i).fills = s.fills := rfl
@[simp] theorem State.logError_flows (s : State) (k l i : Nat) : (s.logError k l i).flows = s.flows := rfl
@[simp] theorem State.logError_sends (s : State) (k l i : Nat) : (s.logError k l i).sends = s.sends := rfl
@[simp] theorem State.logError_cores (s : State) (k l i : Nat) : (s.logError k l i).cores = s.cores := rfl
@[simp] theorem State.logError_teams (s : State) (k l i : Nat) : (s.logError k l i).teams = s.teams := rfl
@[simp] theorem State.logError_parts (s : State) (k l i : Nat) : (s.logError k l i).parts = s.parts := rfl
@[simp] theorem State.logError_worlds (s : State) (k l i : Nat) : (s.logError k l i).worlds = s.worlds := rfl
@[simp] theorem State.logError_comps (s : State) (k l i : Nat) : (s.logError k l i).comps = s.comps := rfl
@[simp] theorem State.logError_shoots (s : State) (k l i : Nat) : (s.logError k l i).shoots = s.shoots := rfl
@[simp] theorem State.logError_secJobs (s : State) (k l i : Nat) : (s.logError k l i).secJobs = s.secJobs := rfl
@[simp] theorem State.logError_secQueue (s : State) (k l i : Nat) : (s.logError k l i).secQueue = s.secQueue := rfl
@[simp] theorem State.logError_mcastJobs (s : State) (k l i : Nat) : (s.logError k l i).mcastJobs = s.mcastJobs := rfl
@[simp] theorem State.logError_authResult (s : State) (k l i : Nat) : (s.logError k l i).authResult = s.authResult := rfl
@[simp] theorem State.logError_pkgid (s : State) (k l i : Nat) : (s.logError k l i).pkgid = s.pkgid := rfl
@[simp] theorem State.logError_rstage (s : State) (k l i : Nat) : (s.logError k l i).rstage = s.rstage := rfl
@[simp] theorem State.logError_halted (s : State) (k l i : Nat) : (s.logError k l i).halted = s.halted := rfl
@[simp] theorem State.logError_pstate (s : State) (k l i : Nat) : (s.logError k l i).pstate = s.pstate := rfl
@[simp] theorem State.logError_throttle (s : State) (k l i : Nat) : (s.logError k l i).throttle = s.throttle := rfl
@[simp] theorem State.logError_pwrcap (s : State) (k l i : Nat) : (s.logError k l i).pwrcap = s.pwrcap := rfl
@[simp] theorem State.logError_tlimit (s : State) (k l i : Nat) : (s.logError k l i).tlimit = s.tlimit := rfl
@[simp] theorem State.logError_hotDie (s : State) (k l i : Nat) : (s.logError k l i).hotDie = s.hotDie := rfl
@[simp] theorem State.logError_shoot (s : State) (k l i : Nat) : (s.logError k l i).shoot = s.shoot := rfl
@[simp] theorem State.logError_pgreset (s : State) (k l i : Nat) : (s.logError k l i).pgreset = s.pgreset := rfl
@[simp] theorem State.logError_preemptReg (s : State) (k l i : Nat) : (s.logError k l i).preemptReg = s.preemptReg := rfl
@[simp] theorem State.logError_drmask (s : State) (k l i : Nat) : (s.logError k l i).drmask = s.drmask := rfl
@[simp] theorem State.logError_mcast (s : State) (k l i : Nat) : (s.logError k l i).mcast = s.mcast := rfl
@[simp] theorem State.logError_linklog (s : State) (k l i : Nat) : (s.logError k l i).linklog = s.linklog := rfl
@[simp] theorem State.logError_linkseq (s : State) (k l i : Nat) : (s.logError k l i).linkseq = s.linkseq := rfl
@[simp] theorem State.logError_lost (s : State) (k l i : Nat) : (s.logError k l i).lost = s.lost := rfl
@[simp] theorem State.logError_spdm (s : State) (k l i : Nat) : (s.logError k l i).spdm = s.spdm := rfl
@[simp] theorem State.logError_meas0 (s : State) (k l i : Nat) : (s.logError k l i).meas0 = s.meas0 := rfl
@[simp] theorem State.logError_meas1 (s : State) (k l i : Nat) : (s.logError k l i).meas1 = s.meas1 := rfl
@[simp] theorem State.logError_meas2 (s : State) (k l i : Nat) : (s.logError k l i).meas2 = s.meas2 := rfl
@[simp] theorem State.logError_keyCount (s : State) (k l i : Nat) : (s.logError k l i).keyCount = s.keyCount := rfl
@[simp] theorem State.logError_slotKeys (s : State) (k l i : Nat) : (s.logError k l i).slotKeys = s.slotKeys := rfl
@[simp] theorem State.logError_operatorKey (s : State) (k l i : Nat) : (s.logError k l i).operatorKey = s.operatorKey := rfl
@[simp] theorem State.logError_corrected (s : State) (k l i : Nat) : (s.logError k l i).corrected = s.corrected := rfl
@[simp] theorem State.logError_pinOver (s : State) (k l i : Nat) : (s.logError k l i).pinOver = s.pinOver := rfl
@[simp] theorem State.logError_authBox (s : State) (k l i : Nat) : (s.logError k l i).authBox = s.authBox := rfl
@[simp] theorem State.logError_outputs (s : State) (k l i : Nat) : (s.logError k l i).outputs = s.outputs := rfl

@[simp] theorem State.tick_schedule (s : State)  : (s.tick).schedule = s.schedule := rfl
@[simp] theorem State.tick_cur (s : State)  : (s.tick).cur = s.cur := rfl
@[simp] theorem State.tick_nextId (s : State)  : (s.tick).nextId = s.nextId := rfl
@[simp] theorem State.tick_mem (s : State)  : (s.tick).mem = s.mem := rfl
@[simp] theorem State.tick_lines (s : State)  : (s.tick).lines = s.lines := rfl
@[simp] theorem State.tick_badNodes (s : State)  : (s.tick).badNodes = s.badNodes := rfl
@[simp] theorem State.tick_late (s : State)  : (s.tick).late = s.late := rfl
@[simp] theorem State.tick_heads (s : State)  : (s.tick).heads = s.heads := rfl
@[simp] theorem State.tick_fences (s : State)  : (s.tick).fences = s.fences := rfl
@[simp] theorem State.tick_rels (s : State)  : (s.tick).rels = s.rels := rfl
@[simp] theorem State.tick_reads (s : State)  : (s.tick).reads = s.reads := rfl
@[simp] theorem State.tick_hostMem (s : State)  : (s.tick).hostMem = s.hostMem := rfl
@[simp] theorem State.tick_replicas (s : State)  : (s.tick).replicas = s.replicas := rfl
@[simp] theorem State.tick_tlb (s : State)  : (s.tick).tlb = s.tlb := rfl
@[simp] theorem State.tick_denied (s : State)  : (s.tick).denied = s.denied := rfl
@[simp] theorem State.tick_walks (s : State)  : (s.tick).walks = s.walks := rfl
@[simp] theorem State.tick_merges (s : State)  : (s.tick).merges = s.merges := rfl
@[simp] theorem State.tick_reqs (s : State)  : (s.tick).reqs = s.reqs := rfl
@[simp] theorem State.tick_fills (s : State)  : (s.tick).fills = s.fills := rfl
@[simp] theorem State.tick_flows (s : State)  : (s.tick).flows = s.flows := rfl
@[simp] theorem State.tick_sends (s : State)  : (s.tick).sends = s.sends := rfl
@[simp] theorem State.tick_cores (s : State)  : (s.tick).cores = s.cores := rfl
@[simp] theorem State.tick_parts (s : State)  : (s.tick).parts = s.parts := rfl
@[simp] theorem State.tick_worlds (s : State)  : (s.tick).worlds = s.worlds := rfl
@[simp] theorem State.tick_comps (s : State)  : (s.tick).comps = s.comps := rfl
@[simp] theorem State.tick_shoots (s : State)  : (s.tick).shoots = s.shoots := rfl
@[simp] theorem State.tick_secJobs (s : State)  : (s.tick).secJobs = s.secJobs := rfl
@[simp] theorem State.tick_secQueue (s : State)  : (s.tick).secQueue = s.secQueue := rfl
@[simp] theorem State.tick_mcastJobs (s : State)  : (s.tick).mcastJobs = s.mcastJobs := rfl
@[simp] theorem State.tick_authResult (s : State)  : (s.tick).authResult = s.authResult := rfl
@[simp] theorem State.tick_pkgid (s : State)  : (s.tick).pkgid = s.pkgid := rfl
@[simp] theorem State.tick_rstage (s : State)  : (s.tick).rstage = s.rstage := rfl
@[simp] theorem State.tick_halted (s : State)  : (s.tick).halted = s.halted := rfl
@[simp] theorem State.tick_pstate (s : State)  : (s.tick).pstate = s.pstate := rfl
@[simp] theorem State.tick_throttle (s : State)  : (s.tick).throttle = s.throttle := rfl
@[simp] theorem State.tick_pwrcap (s : State)  : (s.tick).pwrcap = s.pwrcap := rfl
@[simp] theorem State.tick_tlimit (s : State)  : (s.tick).tlimit = s.tlimit := rfl
@[simp] theorem State.tick_hotDie (s : State)  : (s.tick).hotDie = s.hotDie := rfl
@[simp] theorem State.tick_shoot (s : State)  : (s.tick).shoot = s.shoot := rfl
@[simp] theorem State.tick_pgreset (s : State)  : (s.tick).pgreset = s.pgreset := rfl
@[simp] theorem State.tick_preemptReg (s : State)  : (s.tick).preemptReg = s.preemptReg := rfl
@[simp] theorem State.tick_drmask (s : State)  : (s.tick).drmask = s.drmask := rfl
@[simp] theorem State.tick_mcast (s : State)  : (s.tick).mcast = s.mcast := rfl
@[simp] theorem State.tick_linklog (s : State)  : (s.tick).linklog = s.linklog := rfl
@[simp] theorem State.tick_linkseq (s : State)  : (s.tick).linkseq = s.linkseq := rfl
@[simp] theorem State.tick_errorlog (s : State)  : (s.tick).errorlog = s.errorlog := rfl
@[simp] theorem State.tick_errseq (s : State)  : (s.tick).errseq = s.errseq := rfl
@[simp] theorem State.tick_lost (s : State)  : (s.tick).lost = s.lost := rfl
@[simp] theorem State.tick_spdm (s : State)  : (s.tick).spdm = s.spdm := rfl
@[simp] theorem State.tick_meas0 (s : State)  : (s.tick).meas0 = s.meas0 := rfl
@[simp] theorem State.tick_meas1 (s : State)  : (s.tick).meas1 = s.meas1 := rfl
@[simp] theorem State.tick_meas2 (s : State)  : (s.tick).meas2 = s.meas2 := rfl
@[simp] theorem State.tick_keyCount (s : State)  : (s.tick).keyCount = s.keyCount := rfl
@[simp] theorem State.tick_slotKeys (s : State)  : (s.tick).slotKeys = s.slotKeys := rfl
@[simp] theorem State.tick_operatorKey (s : State)  : (s.tick).operatorKey = s.operatorKey := rfl
@[simp] theorem State.tick_corrected (s : State)  : (s.tick).corrected = s.corrected := rfl
@[simp] theorem State.tick_pinOver (s : State)  : (s.tick).pinOver = s.pinOver := rfl
@[simp] theorem State.tick_authBox (s : State)  : (s.tick).authBox = s.authBox := rfl
@[simp] theorem State.tick_outputs (s : State)  : (s.tick).outputs = s.outputs := rfl

@[simp] theorem State.countError_schedule (s : State) (st : Storage) : (s.countError st).schedule = s.schedule := rfl
@[simp] theorem State.countError_cur (s : State) (st : Storage) : (s.countError st).cur = s.cur := rfl
@[simp] theorem State.countError_fresh (s : State) (st : Storage) : (s.countError st).fresh = s.fresh := rfl
@[simp] theorem State.countError_nextId (s : State) (st : Storage) : (s.countError st).nextId = s.nextId := rfl
@[simp] theorem State.countError_clock (s : State) (st : Storage) : (s.countError st).clock = s.clock := rfl
@[simp] theorem State.countError_cycs (s : State) (st : Storage) : (s.countError st).cycs = s.cycs := rfl
@[simp] theorem State.countError_mem (s : State) (st : Storage) : (s.countError st).mem = s.mem := rfl
@[simp] theorem State.countError_lines (s : State) (st : Storage) : (s.countError st).lines = s.lines := rfl
@[simp] theorem State.countError_badNodes (s : State) (st : Storage) : (s.countError st).badNodes = s.badNodes := rfl
@[simp] theorem State.countError_late (s : State) (st : Storage) : (s.countError st).late = s.late := rfl
@[simp] theorem State.countError_heads (s : State) (st : Storage) : (s.countError st).heads = s.heads := rfl
@[simp] theorem State.countError_fences (s : State) (st : Storage) : (s.countError st).fences = s.fences := rfl
@[simp] theorem State.countError_rels (s : State) (st : Storage) : (s.countError st).rels = s.rels := rfl
@[simp] theorem State.countError_reads (s : State) (st : Storage) : (s.countError st).reads = s.reads := rfl
@[simp] theorem State.countError_hostMem (s : State) (st : Storage) : (s.countError st).hostMem = s.hostMem := rfl
@[simp] theorem State.countError_replicas (s : State) (st : Storage) : (s.countError st).replicas = s.replicas := rfl
@[simp] theorem State.countError_tlb (s : State) (st : Storage) : (s.countError st).tlb = s.tlb := rfl
@[simp] theorem State.countError_denied (s : State) (st : Storage) : (s.countError st).denied = s.denied := rfl
@[simp] theorem State.countError_walks (s : State) (st : Storage) : (s.countError st).walks = s.walks := rfl
@[simp] theorem State.countError_merges (s : State) (st : Storage) : (s.countError st).merges = s.merges := rfl
@[simp] theorem State.countError_reqs (s : State) (st : Storage) : (s.countError st).reqs = s.reqs := rfl
@[simp] theorem State.countError_fills (s : State) (st : Storage) : (s.countError st).fills = s.fills := rfl
@[simp] theorem State.countError_flows (s : State) (st : Storage) : (s.countError st).flows = s.flows := rfl
@[simp] theorem State.countError_sends (s : State) (st : Storage) : (s.countError st).sends = s.sends := rfl
@[simp] theorem State.countError_cores (s : State) (st : Storage) : (s.countError st).cores = s.cores := rfl
@[simp] theorem State.countError_teams (s : State) (st : Storage) : (s.countError st).teams = s.teams := rfl
@[simp] theorem State.countError_parts (s : State) (st : Storage) : (s.countError st).parts = s.parts := rfl
@[simp] theorem State.countError_worlds (s : State) (st : Storage) : (s.countError st).worlds = s.worlds := rfl
@[simp] theorem State.countError_comps (s : State) (st : Storage) : (s.countError st).comps = s.comps := rfl
@[simp] theorem State.countError_shoots (s : State) (st : Storage) : (s.countError st).shoots = s.shoots := rfl
@[simp] theorem State.countError_secJobs (s : State) (st : Storage) : (s.countError st).secJobs = s.secJobs := rfl
@[simp] theorem State.countError_secQueue (s : State) (st : Storage) : (s.countError st).secQueue = s.secQueue := rfl
@[simp] theorem State.countError_mcastJobs (s : State) (st : Storage) : (s.countError st).mcastJobs = s.mcastJobs := rfl
@[simp] theorem State.countError_authResult (s : State) (st : Storage) : (s.countError st).authResult = s.authResult := rfl
@[simp] theorem State.countError_pkgid (s : State) (st : Storage) : (s.countError st).pkgid = s.pkgid := rfl
@[simp] theorem State.countError_rstage (s : State) (st : Storage) : (s.countError st).rstage = s.rstage := rfl
@[simp] theorem State.countError_halted (s : State) (st : Storage) : (s.countError st).halted = s.halted := rfl
@[simp] theorem State.countError_pstate (s : State) (st : Storage) : (s.countError st).pstate = s.pstate := rfl
@[simp] theorem State.countError_throttle (s : State) (st : Storage) : (s.countError st).throttle = s.throttle := rfl
@[simp] theorem State.countError_pwrcap (s : State) (st : Storage) : (s.countError st).pwrcap = s.pwrcap := rfl
@[simp] theorem State.countError_tlimit (s : State) (st : Storage) : (s.countError st).tlimit = s.tlimit := rfl
@[simp] theorem State.countError_hotDie (s : State) (st : Storage) : (s.countError st).hotDie = s.hotDie := rfl
@[simp] theorem State.countError_shoot (s : State) (st : Storage) : (s.countError st).shoot = s.shoot := rfl
@[simp] theorem State.countError_pgreset (s : State) (st : Storage) : (s.countError st).pgreset = s.pgreset := rfl
@[simp] theorem State.countError_preemptReg (s : State) (st : Storage) : (s.countError st).preemptReg = s.preemptReg := rfl
@[simp] theorem State.countError_drmask (s : State) (st : Storage) : (s.countError st).drmask = s.drmask := rfl
@[simp] theorem State.countError_mcast (s : State) (st : Storage) : (s.countError st).mcast = s.mcast := rfl
@[simp] theorem State.countError_linklog (s : State) (st : Storage) : (s.countError st).linklog = s.linklog := rfl
@[simp] theorem State.countError_linkseq (s : State) (st : Storage) : (s.countError st).linkseq = s.linkseq := rfl
@[simp] theorem State.countError_errorlog (s : State) (st : Storage) : (s.countError st).errorlog = s.errorlog := rfl
@[simp] theorem State.countError_errseq (s : State) (st : Storage) : (s.countError st).errseq = s.errseq := rfl
@[simp] theorem State.countError_lost (s : State) (st : Storage) : (s.countError st).lost = s.lost := rfl
@[simp] theorem State.countError_spdm (s : State) (st : Storage) : (s.countError st).spdm = s.spdm := rfl
@[simp] theorem State.countError_meas0 (s : State) (st : Storage) : (s.countError st).meas0 = s.meas0 := rfl
@[simp] theorem State.countError_meas1 (s : State) (st : Storage) : (s.countError st).meas1 = s.meas1 := rfl
@[simp] theorem State.countError_meas2 (s : State) (st : Storage) : (s.countError st).meas2 = s.meas2 := rfl
@[simp] theorem State.countError_keyCount (s : State) (st : Storage) : (s.countError st).keyCount = s.keyCount := rfl
@[simp] theorem State.countError_slotKeys (s : State) (st : Storage) : (s.countError st).slotKeys = s.slotKeys := rfl
@[simp] theorem State.countError_operatorKey (s : State) (st : Storage) : (s.countError st).operatorKey = s.operatorKey := rfl
@[simp] theorem State.countError_pinOver (s : State) (st : Storage) : (s.countError st).pinOver = s.pinOver := rfl
@[simp] theorem State.countError_authBox (s : State) (st : Storage) : (s.countError st).authBox = s.authBox := rfl
@[simp] theorem State.countError_outputs (s : State) (st : Storage) : (s.countError st).outputs = s.outputs := rfl

@[simp] theorem State.passSide_schedule (s : State) (t g : Nat) (m : LaneMask) : (s.passSide t g m).schedule = s.schedule := rfl
@[simp] theorem State.passSide_cur (s : State) (t g : Nat) (m : LaneMask) : (s.passSide t g m).cur = s.cur := rfl
@[simp] theorem State.passSide_fresh (s : State) (t g : Nat) (m : LaneMask) : (s.passSide t g m).fresh = s.fresh := rfl
@[simp] theorem State.passSide_nextId (s : State) (t g : Nat) (m : LaneMask) : (s.passSide t g m).nextId = s.nextId := rfl
@[simp] theorem State.passSide_clock (s : State) (t g : Nat) (m : LaneMask) : (s.passSide t g m).clock = s.clock := rfl
@[simp] theorem State.passSide_cycs (s : State) (t g : Nat) (m : LaneMask) : (s.passSide t g m).cycs = s.cycs := rfl
@[simp] theorem State.passSide_mem (s : State) (t g : Nat) (m : LaneMask) : (s.passSide t g m).mem = s.mem := rfl
@[simp] theorem State.passSide_lines (s : State) (t g : Nat) (m : LaneMask) : (s.passSide t g m).lines = s.lines := rfl
@[simp] theorem State.passSide_badNodes (s : State) (t g : Nat) (m : LaneMask) : (s.passSide t g m).badNodes = s.badNodes := rfl
@[simp] theorem State.passSide_late (s : State) (t g : Nat) (m : LaneMask) : (s.passSide t g m).late = s.late := rfl
@[simp] theorem State.passSide_heads (s : State) (t g : Nat) (m : LaneMask) : (s.passSide t g m).heads = s.heads := rfl
@[simp] theorem State.passSide_fences (s : State) (t g : Nat) (m : LaneMask) : (s.passSide t g m).fences = s.fences := rfl
@[simp] theorem State.passSide_rels (s : State) (t g : Nat) (m : LaneMask) : (s.passSide t g m).rels = s.rels := rfl
@[simp] theorem State.passSide_reads (s : State) (t g : Nat) (m : LaneMask) : (s.passSide t g m).reads = s.reads := rfl
@[simp] theorem State.passSide_hostMem (s : State) (t g : Nat) (m : LaneMask) : (s.passSide t g m).hostMem = s.hostMem := rfl
@[simp] theorem State.passSide_replicas (s : State) (t g : Nat) (m : LaneMask) : (s.passSide t g m).replicas = s.replicas := rfl
@[simp] theorem State.passSide_tlb (s : State) (t g : Nat) (m : LaneMask) : (s.passSide t g m).tlb = s.tlb := rfl
@[simp] theorem State.passSide_denied (s : State) (t g : Nat) (m : LaneMask) : (s.passSide t g m).denied = s.denied := rfl
@[simp] theorem State.passSide_walks (s : State) (t g : Nat) (m : LaneMask) : (s.passSide t g m).walks = s.walks := rfl
@[simp] theorem State.passSide_merges (s : State) (t g : Nat) (m : LaneMask) : (s.passSide t g m).merges = s.merges := rfl
@[simp] theorem State.passSide_reqs (s : State) (t g : Nat) (m : LaneMask) : (s.passSide t g m).reqs = s.reqs := rfl
@[simp] theorem State.passSide_fills (s : State) (t g : Nat) (m : LaneMask) : (s.passSide t g m).fills = s.fills := rfl
@[simp] theorem State.passSide_flows (s : State) (t g : Nat) (m : LaneMask) : (s.passSide t g m).flows = s.flows := rfl
@[simp] theorem State.passSide_sends (s : State) (t g : Nat) (m : LaneMask) : (s.passSide t g m).sends = s.sends := rfl
@[simp] theorem State.passSide_teams (s : State) (t g : Nat) (m : LaneMask) : (s.passSide t g m).teams = s.teams := rfl
@[simp] theorem State.passSide_parts (s : State) (t g : Nat) (m : LaneMask) : (s.passSide t g m).parts = s.parts := rfl
@[simp] theorem State.passSide_worlds (s : State) (t g : Nat) (m : LaneMask) : (s.passSide t g m).worlds = s.worlds := rfl
@[simp] theorem State.passSide_comps (s : State) (t g : Nat) (m : LaneMask) : (s.passSide t g m).comps = s.comps := rfl
@[simp] theorem State.passSide_shoots (s : State) (t g : Nat) (m : LaneMask) : (s.passSide t g m).shoots = s.shoots := rfl
@[simp] theorem State.passSide_secJobs (s : State) (t g : Nat) (m : LaneMask) : (s.passSide t g m).secJobs = s.secJobs := rfl
@[simp] theorem State.passSide_secQueue (s : State) (t g : Nat) (m : LaneMask) : (s.passSide t g m).secQueue = s.secQueue := rfl
@[simp] theorem State.passSide_mcastJobs (s : State) (t g : Nat) (m : LaneMask) : (s.passSide t g m).mcastJobs = s.mcastJobs := rfl
@[simp] theorem State.passSide_authResult (s : State) (t g : Nat) (m : LaneMask) : (s.passSide t g m).authResult = s.authResult := rfl
@[simp] theorem State.passSide_pkgid (s : State) (t g : Nat) (m : LaneMask) : (s.passSide t g m).pkgid = s.pkgid := rfl
@[simp] theorem State.passSide_rstage (s : State) (t g : Nat) (m : LaneMask) : (s.passSide t g m).rstage = s.rstage := rfl
@[simp] theorem State.passSide_halted (s : State) (t g : Nat) (m : LaneMask) : (s.passSide t g m).halted = s.halted := rfl
@[simp] theorem State.passSide_pstate (s : State) (t g : Nat) (m : LaneMask) : (s.passSide t g m).pstate = s.pstate := rfl
@[simp] theorem State.passSide_throttle (s : State) (t g : Nat) (m : LaneMask) : (s.passSide t g m).throttle = s.throttle := rfl
@[simp] theorem State.passSide_pwrcap (s : State) (t g : Nat) (m : LaneMask) : (s.passSide t g m).pwrcap = s.pwrcap := rfl
@[simp] theorem State.passSide_tlimit (s : State) (t g : Nat) (m : LaneMask) : (s.passSide t g m).tlimit = s.tlimit := rfl
@[simp] theorem State.passSide_hotDie (s : State) (t g : Nat) (m : LaneMask) : (s.passSide t g m).hotDie = s.hotDie := rfl
@[simp] theorem State.passSide_shoot (s : State) (t g : Nat) (m : LaneMask) : (s.passSide t g m).shoot = s.shoot := rfl
@[simp] theorem State.passSide_pgreset (s : State) (t g : Nat) (m : LaneMask) : (s.passSide t g m).pgreset = s.pgreset := rfl
@[simp] theorem State.passSide_preemptReg (s : State) (t g : Nat) (m : LaneMask) : (s.passSide t g m).preemptReg = s.preemptReg := rfl
@[simp] theorem State.passSide_drmask (s : State) (t g : Nat) (m : LaneMask) : (s.passSide t g m).drmask = s.drmask := rfl
@[simp] theorem State.passSide_mcast (s : State) (t g : Nat) (m : LaneMask) : (s.passSide t g m).mcast = s.mcast := rfl
@[simp] theorem State.passSide_linklog (s : State) (t g : Nat) (m : LaneMask) : (s.passSide t g m).linklog = s.linklog := rfl
@[simp] theorem State.passSide_linkseq (s : State) (t g : Nat) (m : LaneMask) : (s.passSide t g m).linkseq = s.linkseq := rfl
@[simp] theorem State.passSide_errorlog (s : State) (t g : Nat) (m : LaneMask) : (s.passSide t g m).errorlog = s.errorlog := rfl
@[simp] theorem State.passSide_errseq (s : State) (t g : Nat) (m : LaneMask) : (s.passSide t g m).errseq = s.errseq := rfl
@[simp] theorem State.passSide_lost (s : State) (t g : Nat) (m : LaneMask) : (s.passSide t g m).lost = s.lost := rfl
@[simp] theorem State.passSide_spdm (s : State) (t g : Nat) (m : LaneMask) : (s.passSide t g m).spdm = s.spdm := rfl
@[simp] theorem State.passSide_meas0 (s : State) (t g : Nat) (m : LaneMask) : (s.passSide t g m).meas0 = s.meas0 := rfl
@[simp] theorem State.passSide_meas1 (s : State) (t g : Nat) (m : LaneMask) : (s.passSide t g m).meas1 = s.meas1 := rfl
@[simp] theorem State.passSide_meas2 (s : State) (t g : Nat) (m : LaneMask) : (s.passSide t g m).meas2 = s.meas2 := rfl
@[simp] theorem State.passSide_keyCount (s : State) (t g : Nat) (m : LaneMask) : (s.passSide t g m).keyCount = s.keyCount := rfl
@[simp] theorem State.passSide_slotKeys (s : State) (t g : Nat) (m : LaneMask) : (s.passSide t g m).slotKeys = s.slotKeys := rfl
@[simp] theorem State.passSide_operatorKey (s : State) (t g : Nat) (m : LaneMask) : (s.passSide t g m).operatorKey = s.operatorKey := rfl
@[simp] theorem State.passSide_corrected (s : State) (t g : Nat) (m : LaneMask) : (s.passSide t g m).corrected = s.corrected := rfl
@[simp] theorem State.passSide_pinOver (s : State) (t g : Nat) (m : LaneMask) : (s.passSide t g m).pinOver = s.pinOver := rfl
@[simp] theorem State.passSide_authBox (s : State) (t g : Nat) (m : LaneMask) : (s.passSide t g m).authBox = s.authBox := rfl
@[simp] theorem State.passSide_outputs (s : State) (t g : Nat) (m : LaneMask) : (s.passSide t g m).outputs = s.outputs := rfl

@[simp] theorem State.dropL1_schedule (s : State) (c : Nat) : (s.dropL1 c).schedule = s.schedule := rfl
@[simp] theorem State.dropL1_cur (s : State) (c : Nat) : (s.dropL1 c).cur = s.cur := rfl
@[simp] theorem State.dropL1_fresh (s : State) (c : Nat) : (s.dropL1 c).fresh = s.fresh := rfl
@[simp] theorem State.dropL1_nextId (s : State) (c : Nat) : (s.dropL1 c).nextId = s.nextId := rfl
@[simp] theorem State.dropL1_clock (s : State) (c : Nat) : (s.dropL1 c).clock = s.clock := rfl
@[simp] theorem State.dropL1_cycs (s : State) (c : Nat) : (s.dropL1 c).cycs = s.cycs := rfl
@[simp] theorem State.dropL1_mem (s : State) (c : Nat) : (s.dropL1 c).mem = s.mem := rfl
@[simp] theorem State.dropL1_lines (s : State) (c : Nat) : (s.dropL1 c).lines = s.lines := rfl
@[simp] theorem State.dropL1_badNodes (s : State) (c : Nat) : (s.dropL1 c).badNodes = s.badNodes := rfl
@[simp] theorem State.dropL1_late (s : State) (c : Nat) : (s.dropL1 c).late = s.late := rfl
@[simp] theorem State.dropL1_heads (s : State) (c : Nat) : (s.dropL1 c).heads = s.heads := rfl
@[simp] theorem State.dropL1_fences (s : State) (c : Nat) : (s.dropL1 c).fences = s.fences := rfl
@[simp] theorem State.dropL1_rels (s : State) (c : Nat) : (s.dropL1 c).rels = s.rels := rfl
@[simp] theorem State.dropL1_reads (s : State) (c : Nat) : (s.dropL1 c).reads = s.reads := rfl
@[simp] theorem State.dropL1_hostMem (s : State) (c : Nat) : (s.dropL1 c).hostMem = s.hostMem := rfl
@[simp] theorem State.dropL1_replicas (s : State) (c : Nat) : (s.dropL1 c).replicas = s.replicas := rfl
@[simp] theorem State.dropL1_tlb (s : State) (c : Nat) : (s.dropL1 c).tlb = s.tlb := rfl
@[simp] theorem State.dropL1_denied (s : State) (c : Nat) : (s.dropL1 c).denied = s.denied := rfl
@[simp] theorem State.dropL1_walks (s : State) (c : Nat) : (s.dropL1 c).walks = s.walks := rfl
@[simp] theorem State.dropL1_merges (s : State) (c : Nat) : (s.dropL1 c).merges = s.merges := rfl
@[simp] theorem State.dropL1_reqs (s : State) (c : Nat) : (s.dropL1 c).reqs = s.reqs := rfl
@[simp] theorem State.dropL1_fills (s : State) (c : Nat) : (s.dropL1 c).fills = s.fills := rfl
@[simp] theorem State.dropL1_flows (s : State) (c : Nat) : (s.dropL1 c).flows = s.flows := rfl
@[simp] theorem State.dropL1_sends (s : State) (c : Nat) : (s.dropL1 c).sends = s.sends := rfl
@[simp] theorem State.dropL1_teams (s : State) (c : Nat) : (s.dropL1 c).teams = s.teams := rfl
@[simp] theorem State.dropL1_parts (s : State) (c : Nat) : (s.dropL1 c).parts = s.parts := rfl
@[simp] theorem State.dropL1_worlds (s : State) (c : Nat) : (s.dropL1 c).worlds = s.worlds := rfl
@[simp] theorem State.dropL1_comps (s : State) (c : Nat) : (s.dropL1 c).comps = s.comps := rfl
@[simp] theorem State.dropL1_shoots (s : State) (c : Nat) : (s.dropL1 c).shoots = s.shoots := rfl
@[simp] theorem State.dropL1_secJobs (s : State) (c : Nat) : (s.dropL1 c).secJobs = s.secJobs := rfl
@[simp] theorem State.dropL1_secQueue (s : State) (c : Nat) : (s.dropL1 c).secQueue = s.secQueue := rfl
@[simp] theorem State.dropL1_mcastJobs (s : State) (c : Nat) : (s.dropL1 c).mcastJobs = s.mcastJobs := rfl
@[simp] theorem State.dropL1_authResult (s : State) (c : Nat) : (s.dropL1 c).authResult = s.authResult := rfl
@[simp] theorem State.dropL1_pkgid (s : State) (c : Nat) : (s.dropL1 c).pkgid = s.pkgid := rfl
@[simp] theorem State.dropL1_rstage (s : State) (c : Nat) : (s.dropL1 c).rstage = s.rstage := rfl
@[simp] theorem State.dropL1_halted (s : State) (c : Nat) : (s.dropL1 c).halted = s.halted := rfl
@[simp] theorem State.dropL1_pstate (s : State) (c : Nat) : (s.dropL1 c).pstate = s.pstate := rfl
@[simp] theorem State.dropL1_throttle (s : State) (c : Nat) : (s.dropL1 c).throttle = s.throttle := rfl
@[simp] theorem State.dropL1_pwrcap (s : State) (c : Nat) : (s.dropL1 c).pwrcap = s.pwrcap := rfl
@[simp] theorem State.dropL1_tlimit (s : State) (c : Nat) : (s.dropL1 c).tlimit = s.tlimit := rfl
@[simp] theorem State.dropL1_hotDie (s : State) (c : Nat) : (s.dropL1 c).hotDie = s.hotDie := rfl
@[simp] theorem State.dropL1_shoot (s : State) (c : Nat) : (s.dropL1 c).shoot = s.shoot := rfl
@[simp] theorem State.dropL1_pgreset (s : State) (c : Nat) : (s.dropL1 c).pgreset = s.pgreset := rfl
@[simp] theorem State.dropL1_preemptReg (s : State) (c : Nat) : (s.dropL1 c).preemptReg = s.preemptReg := rfl
@[simp] theorem State.dropL1_drmask (s : State) (c : Nat) : (s.dropL1 c).drmask = s.drmask := rfl
@[simp] theorem State.dropL1_mcast (s : State) (c : Nat) : (s.dropL1 c).mcast = s.mcast := rfl
@[simp] theorem State.dropL1_linklog (s : State) (c : Nat) : (s.dropL1 c).linklog = s.linklog := rfl
@[simp] theorem State.dropL1_linkseq (s : State) (c : Nat) : (s.dropL1 c).linkseq = s.linkseq := rfl
@[simp] theorem State.dropL1_errorlog (s : State) (c : Nat) : (s.dropL1 c).errorlog = s.errorlog := rfl
@[simp] theorem State.dropL1_errseq (s : State) (c : Nat) : (s.dropL1 c).errseq = s.errseq := rfl
@[simp] theorem State.dropL1_lost (s : State) (c : Nat) : (s.dropL1 c).lost = s.lost := rfl
@[simp] theorem State.dropL1_spdm (s : State) (c : Nat) : (s.dropL1 c).spdm = s.spdm := rfl
@[simp] theorem State.dropL1_meas0 (s : State) (c : Nat) : (s.dropL1 c).meas0 = s.meas0 := rfl
@[simp] theorem State.dropL1_meas1 (s : State) (c : Nat) : (s.dropL1 c).meas1 = s.meas1 := rfl
@[simp] theorem State.dropL1_meas2 (s : State) (c : Nat) : (s.dropL1 c).meas2 = s.meas2 := rfl
@[simp] theorem State.dropL1_keyCount (s : State) (c : Nat) : (s.dropL1 c).keyCount = s.keyCount := rfl
@[simp] theorem State.dropL1_slotKeys (s : State) (c : Nat) : (s.dropL1 c).slotKeys = s.slotKeys := rfl
@[simp] theorem State.dropL1_operatorKey (s : State) (c : Nat) : (s.dropL1 c).operatorKey = s.operatorKey := rfl
@[simp] theorem State.dropL1_corrected (s : State) (c : Nat) : (s.dropL1 c).corrected = s.corrected := rfl
@[simp] theorem State.dropL1_pinOver (s : State) (c : Nat) : (s.dropL1 c).pinOver = s.pinOver := rfl
@[simp] theorem State.dropL1_authBox (s : State) (c : Nat) : (s.dropL1 c).authBox = s.authBox := rfl
@[simp] theorem State.dropL1_outputs (s : State) (c : Nat) : (s.dropL1 c).outputs = s.outputs := rfl

@[simp] theorem State.emptyL1_schedule (s : State) (c : Nat) : (s.emptyL1 c).schedule = s.schedule := rfl
@[simp] theorem State.emptyL1_cur (s : State) (c : Nat) : (s.emptyL1 c).cur = s.cur := rfl
@[simp] theorem State.emptyL1_fresh (s : State) (c : Nat) : (s.emptyL1 c).fresh = s.fresh := rfl
@[simp] theorem State.emptyL1_nextId (s : State) (c : Nat) : (s.emptyL1 c).nextId = s.nextId := rfl
@[simp] theorem State.emptyL1_clock (s : State) (c : Nat) : (s.emptyL1 c).clock = s.clock := rfl
@[simp] theorem State.emptyL1_cycs (s : State) (c : Nat) : (s.emptyL1 c).cycs = s.cycs := rfl
@[simp] theorem State.emptyL1_mem (s : State) (c : Nat) : (s.emptyL1 c).mem = s.mem := rfl
@[simp] theorem State.emptyL1_lines (s : State) (c : Nat) : (s.emptyL1 c).lines = s.lines := rfl
@[simp] theorem State.emptyL1_badNodes (s : State) (c : Nat) : (s.emptyL1 c).badNodes = s.badNodes := rfl
@[simp] theorem State.emptyL1_late (s : State) (c : Nat) : (s.emptyL1 c).late = s.late := rfl
@[simp] theorem State.emptyL1_heads (s : State) (c : Nat) : (s.emptyL1 c).heads = s.heads := rfl
@[simp] theorem State.emptyL1_fences (s : State) (c : Nat) : (s.emptyL1 c).fences = s.fences := rfl
@[simp] theorem State.emptyL1_rels (s : State) (c : Nat) : (s.emptyL1 c).rels = s.rels := rfl
@[simp] theorem State.emptyL1_reads (s : State) (c : Nat) : (s.emptyL1 c).reads = s.reads := rfl
@[simp] theorem State.emptyL1_hostMem (s : State) (c : Nat) : (s.emptyL1 c).hostMem = s.hostMem := rfl
@[simp] theorem State.emptyL1_replicas (s : State) (c : Nat) : (s.emptyL1 c).replicas = s.replicas := rfl
@[simp] theorem State.emptyL1_tlb (s : State) (c : Nat) : (s.emptyL1 c).tlb = s.tlb := rfl
@[simp] theorem State.emptyL1_denied (s : State) (c : Nat) : (s.emptyL1 c).denied = s.denied := rfl
@[simp] theorem State.emptyL1_walks (s : State) (c : Nat) : (s.emptyL1 c).walks = s.walks := rfl
@[simp] theorem State.emptyL1_merges (s : State) (c : Nat) : (s.emptyL1 c).merges = s.merges := rfl
@[simp] theorem State.emptyL1_reqs (s : State) (c : Nat) : (s.emptyL1 c).reqs = s.reqs := rfl
@[simp] theorem State.emptyL1_fills (s : State) (c : Nat) : (s.emptyL1 c).fills = s.fills := rfl
@[simp] theorem State.emptyL1_flows (s : State) (c : Nat) : (s.emptyL1 c).flows = s.flows := rfl
@[simp] theorem State.emptyL1_sends (s : State) (c : Nat) : (s.emptyL1 c).sends = s.sends := rfl
@[simp] theorem State.emptyL1_teams (s : State) (c : Nat) : (s.emptyL1 c).teams = s.teams := rfl
@[simp] theorem State.emptyL1_parts (s : State) (c : Nat) : (s.emptyL1 c).parts = s.parts := rfl
@[simp] theorem State.emptyL1_worlds (s : State) (c : Nat) : (s.emptyL1 c).worlds = s.worlds := rfl
@[simp] theorem State.emptyL1_comps (s : State) (c : Nat) : (s.emptyL1 c).comps = s.comps := rfl
@[simp] theorem State.emptyL1_shoots (s : State) (c : Nat) : (s.emptyL1 c).shoots = s.shoots := rfl
@[simp] theorem State.emptyL1_secJobs (s : State) (c : Nat) : (s.emptyL1 c).secJobs = s.secJobs := rfl
@[simp] theorem State.emptyL1_secQueue (s : State) (c : Nat) : (s.emptyL1 c).secQueue = s.secQueue := rfl
@[simp] theorem State.emptyL1_mcastJobs (s : State) (c : Nat) : (s.emptyL1 c).mcastJobs = s.mcastJobs := rfl
@[simp] theorem State.emptyL1_authResult (s : State) (c : Nat) : (s.emptyL1 c).authResult = s.authResult := rfl
@[simp] theorem State.emptyL1_pkgid (s : State) (c : Nat) : (s.emptyL1 c).pkgid = s.pkgid := rfl
@[simp] theorem State.emptyL1_rstage (s : State) (c : Nat) : (s.emptyL1 c).rstage = s.rstage := rfl
@[simp] theorem State.emptyL1_halted (s : State) (c : Nat) : (s.emptyL1 c).halted = s.halted := rfl
@[simp] theorem State.emptyL1_pstate (s : State) (c : Nat) : (s.emptyL1 c).pstate = s.pstate := rfl
@[simp] theorem State.emptyL1_throttle (s : State) (c : Nat) : (s.emptyL1 c).throttle = s.throttle := rfl
@[simp] theorem State.emptyL1_pwrcap (s : State) (c : Nat) : (s.emptyL1 c).pwrcap = s.pwrcap := rfl
@[simp] theorem State.emptyL1_tlimit (s : State) (c : Nat) : (s.emptyL1 c).tlimit = s.tlimit := rfl
@[simp] theorem State.emptyL1_hotDie (s : State) (c : Nat) : (s.emptyL1 c).hotDie = s.hotDie := rfl
@[simp] theorem State.emptyL1_shoot (s : State) (c : Nat) : (s.emptyL1 c).shoot = s.shoot := rfl
@[simp] theorem State.emptyL1_pgreset (s : State) (c : Nat) : (s.emptyL1 c).pgreset = s.pgreset := rfl
@[simp] theorem State.emptyL1_preemptReg (s : State) (c : Nat) : (s.emptyL1 c).preemptReg = s.preemptReg := rfl
@[simp] theorem State.emptyL1_drmask (s : State) (c : Nat) : (s.emptyL1 c).drmask = s.drmask := rfl
@[simp] theorem State.emptyL1_mcast (s : State) (c : Nat) : (s.emptyL1 c).mcast = s.mcast := rfl
@[simp] theorem State.emptyL1_linklog (s : State) (c : Nat) : (s.emptyL1 c).linklog = s.linklog := rfl
@[simp] theorem State.emptyL1_linkseq (s : State) (c : Nat) : (s.emptyL1 c).linkseq = s.linkseq := rfl
@[simp] theorem State.emptyL1_errorlog (s : State) (c : Nat) : (s.emptyL1 c).errorlog = s.errorlog := rfl
@[simp] theorem State.emptyL1_errseq (s : State) (c : Nat) : (s.emptyL1 c).errseq = s.errseq := rfl
@[simp] theorem State.emptyL1_lost (s : State) (c : Nat) : (s.emptyL1 c).lost = s.lost := rfl
@[simp] theorem State.emptyL1_spdm (s : State) (c : Nat) : (s.emptyL1 c).spdm = s.spdm := rfl
@[simp] theorem State.emptyL1_meas0 (s : State) (c : Nat) : (s.emptyL1 c).meas0 = s.meas0 := rfl
@[simp] theorem State.emptyL1_meas1 (s : State) (c : Nat) : (s.emptyL1 c).meas1 = s.meas1 := rfl
@[simp] theorem State.emptyL1_meas2 (s : State) (c : Nat) : (s.emptyL1 c).meas2 = s.meas2 := rfl
@[simp] theorem State.emptyL1_keyCount (s : State) (c : Nat) : (s.emptyL1 c).keyCount = s.keyCount := rfl
@[simp] theorem State.emptyL1_slotKeys (s : State) (c : Nat) : (s.emptyL1 c).slotKeys = s.slotKeys := rfl
@[simp] theorem State.emptyL1_operatorKey (s : State) (c : Nat) : (s.emptyL1 c).operatorKey = s.operatorKey := rfl
@[simp] theorem State.emptyL1_corrected (s : State) (c : Nat) : (s.emptyL1 c).corrected = s.corrected := rfl
@[simp] theorem State.emptyL1_pinOver (s : State) (c : Nat) : (s.emptyL1 c).pinOver = s.pinOver := rfl
@[simp] theorem State.emptyL1_authBox (s : State) (c : Nat) : (s.emptyL1 c).authBox = s.authBox := rfl
@[simp] theorem State.emptyL1_outputs (s : State) (c : Nat) : (s.emptyL1 c).outputs = s.outputs := rfl

@[simp] theorem State.forgetLate_schedule (s : State) (a n : Nat) : (s.forgetLate a n).schedule = s.schedule := rfl
@[simp] theorem State.forgetLate_cur (s : State) (a n : Nat) : (s.forgetLate a n).cur = s.cur := rfl
@[simp] theorem State.forgetLate_fresh (s : State) (a n : Nat) : (s.forgetLate a n).fresh = s.fresh := rfl
@[simp] theorem State.forgetLate_nextId (s : State) (a n : Nat) : (s.forgetLate a n).nextId = s.nextId := rfl
@[simp] theorem State.forgetLate_clock (s : State) (a n : Nat) : (s.forgetLate a n).clock = s.clock := rfl
@[simp] theorem State.forgetLate_cycs (s : State) (a n : Nat) : (s.forgetLate a n).cycs = s.cycs := rfl
@[simp] theorem State.forgetLate_mem (s : State) (a n : Nat) : (s.forgetLate a n).mem = s.mem := rfl
@[simp] theorem State.forgetLate_lines (s : State) (a n : Nat) : (s.forgetLate a n).lines = s.lines := rfl
@[simp] theorem State.forgetLate_badNodes (s : State) (a n : Nat) : (s.forgetLate a n).badNodes = s.badNodes := rfl
@[simp] theorem State.forgetLate_heads (s : State) (a n : Nat) : (s.forgetLate a n).heads = s.heads := rfl
@[simp] theorem State.forgetLate_fences (s : State) (a n : Nat) : (s.forgetLate a n).fences = s.fences := rfl
@[simp] theorem State.forgetLate_rels (s : State) (a n : Nat) : (s.forgetLate a n).rels = s.rels := rfl
@[simp] theorem State.forgetLate_reads (s : State) (a n : Nat) : (s.forgetLate a n).reads = s.reads := rfl
@[simp] theorem State.forgetLate_hostMem (s : State) (a n : Nat) : (s.forgetLate a n).hostMem = s.hostMem := rfl
@[simp] theorem State.forgetLate_replicas (s : State) (a n : Nat) : (s.forgetLate a n).replicas = s.replicas := rfl
@[simp] theorem State.forgetLate_tlb (s : State) (a n : Nat) : (s.forgetLate a n).tlb = s.tlb := rfl
@[simp] theorem State.forgetLate_denied (s : State) (a n : Nat) : (s.forgetLate a n).denied = s.denied := rfl
@[simp] theorem State.forgetLate_walks (s : State) (a n : Nat) : (s.forgetLate a n).walks = s.walks := rfl
@[simp] theorem State.forgetLate_merges (s : State) (a n : Nat) : (s.forgetLate a n).merges = s.merges := rfl
@[simp] theorem State.forgetLate_reqs (s : State) (a n : Nat) : (s.forgetLate a n).reqs = s.reqs := rfl
@[simp] theorem State.forgetLate_fills (s : State) (a n : Nat) : (s.forgetLate a n).fills = s.fills := rfl
@[simp] theorem State.forgetLate_flows (s : State) (a n : Nat) : (s.forgetLate a n).flows = s.flows := rfl
@[simp] theorem State.forgetLate_sends (s : State) (a n : Nat) : (s.forgetLate a n).sends = s.sends := rfl
@[simp] theorem State.forgetLate_cores (s : State) (a n : Nat) : (s.forgetLate a n).cores = s.cores := rfl
@[simp] theorem State.forgetLate_teams (s : State) (a n : Nat) : (s.forgetLate a n).teams = s.teams := rfl
@[simp] theorem State.forgetLate_parts (s : State) (a n : Nat) : (s.forgetLate a n).parts = s.parts := rfl
@[simp] theorem State.forgetLate_worlds (s : State) (a n : Nat) : (s.forgetLate a n).worlds = s.worlds := rfl
@[simp] theorem State.forgetLate_comps (s : State) (a n : Nat) : (s.forgetLate a n).comps = s.comps := rfl
@[simp] theorem State.forgetLate_shoots (s : State) (a n : Nat) : (s.forgetLate a n).shoots = s.shoots := rfl
@[simp] theorem State.forgetLate_secJobs (s : State) (a n : Nat) : (s.forgetLate a n).secJobs = s.secJobs := rfl
@[simp] theorem State.forgetLate_secQueue (s : State) (a n : Nat) : (s.forgetLate a n).secQueue = s.secQueue := rfl
@[simp] theorem State.forgetLate_mcastJobs (s : State) (a n : Nat) : (s.forgetLate a n).mcastJobs = s.mcastJobs := rfl
@[simp] theorem State.forgetLate_authResult (s : State) (a n : Nat) : (s.forgetLate a n).authResult = s.authResult := rfl
@[simp] theorem State.forgetLate_pkgid (s : State) (a n : Nat) : (s.forgetLate a n).pkgid = s.pkgid := rfl
@[simp] theorem State.forgetLate_rstage (s : State) (a n : Nat) : (s.forgetLate a n).rstage = s.rstage := rfl
@[simp] theorem State.forgetLate_halted (s : State) (a n : Nat) : (s.forgetLate a n).halted = s.halted := rfl
@[simp] theorem State.forgetLate_pstate (s : State) (a n : Nat) : (s.forgetLate a n).pstate = s.pstate := rfl
@[simp] theorem State.forgetLate_throttle (s : State) (a n : Nat) : (s.forgetLate a n).throttle = s.throttle := rfl
@[simp] theorem State.forgetLate_pwrcap (s : State) (a n : Nat) : (s.forgetLate a n).pwrcap = s.pwrcap := rfl
@[simp] theorem State.forgetLate_tlimit (s : State) (a n : Nat) : (s.forgetLate a n).tlimit = s.tlimit := rfl
@[simp] theorem State.forgetLate_hotDie (s : State) (a n : Nat) : (s.forgetLate a n).hotDie = s.hotDie := rfl
@[simp] theorem State.forgetLate_shoot (s : State) (a n : Nat) : (s.forgetLate a n).shoot = s.shoot := rfl
@[simp] theorem State.forgetLate_pgreset (s : State) (a n : Nat) : (s.forgetLate a n).pgreset = s.pgreset := rfl
@[simp] theorem State.forgetLate_preemptReg (s : State) (a n : Nat) : (s.forgetLate a n).preemptReg = s.preemptReg := rfl
@[simp] theorem State.forgetLate_drmask (s : State) (a n : Nat) : (s.forgetLate a n).drmask = s.drmask := rfl
@[simp] theorem State.forgetLate_mcast (s : State) (a n : Nat) : (s.forgetLate a n).mcast = s.mcast := rfl
@[simp] theorem State.forgetLate_linklog (s : State) (a n : Nat) : (s.forgetLate a n).linklog = s.linklog := rfl
@[simp] theorem State.forgetLate_linkseq (s : State) (a n : Nat) : (s.forgetLate a n).linkseq = s.linkseq := rfl
@[simp] theorem State.forgetLate_errorlog (s : State) (a n : Nat) : (s.forgetLate a n).errorlog = s.errorlog := rfl
@[simp] theorem State.forgetLate_errseq (s : State) (a n : Nat) : (s.forgetLate a n).errseq = s.errseq := rfl
@[simp] theorem State.forgetLate_lost (s : State) (a n : Nat) : (s.forgetLate a n).lost = s.lost := rfl
@[simp] theorem State.forgetLate_spdm (s : State) (a n : Nat) : (s.forgetLate a n).spdm = s.spdm := rfl
@[simp] theorem State.forgetLate_meas0 (s : State) (a n : Nat) : (s.forgetLate a n).meas0 = s.meas0 := rfl
@[simp] theorem State.forgetLate_meas1 (s : State) (a n : Nat) : (s.forgetLate a n).meas1 = s.meas1 := rfl
@[simp] theorem State.forgetLate_meas2 (s : State) (a n : Nat) : (s.forgetLate a n).meas2 = s.meas2 := rfl
@[simp] theorem State.forgetLate_keyCount (s : State) (a n : Nat) : (s.forgetLate a n).keyCount = s.keyCount := rfl
@[simp] theorem State.forgetLate_slotKeys (s : State) (a n : Nat) : (s.forgetLate a n).slotKeys = s.slotKeys := rfl
@[simp] theorem State.forgetLate_operatorKey (s : State) (a n : Nat) : (s.forgetLate a n).operatorKey = s.operatorKey := rfl
@[simp] theorem State.forgetLate_corrected (s : State) (a n : Nat) : (s.forgetLate a n).corrected = s.corrected := rfl
@[simp] theorem State.forgetLate_pinOver (s : State) (a n : Nat) : (s.forgetLate a n).pinOver = s.pinOver := rfl
@[simp] theorem State.forgetLate_authBox (s : State) (a n : Nat) : (s.forgetLate a n).authBox = s.authBox := rfl
@[simp] theorem State.forgetLate_outputs (s : State) (a n : Nat) : (s.forgetLate a n).outputs = s.outputs := rfl

@[simp] theorem State.nowSees_schedule (s : State) (c : Nat) (p : Late → Bool) : (s.nowSees c p).schedule = s.schedule := rfl
@[simp] theorem State.nowSees_cur (s : State) (c : Nat) (p : Late → Bool) : (s.nowSees c p).cur = s.cur := rfl
@[simp] theorem State.nowSees_fresh (s : State) (c : Nat) (p : Late → Bool) : (s.nowSees c p).fresh = s.fresh := rfl
@[simp] theorem State.nowSees_nextId (s : State) (c : Nat) (p : Late → Bool) : (s.nowSees c p).nextId = s.nextId := rfl
@[simp] theorem State.nowSees_clock (s : State) (c : Nat) (p : Late → Bool) : (s.nowSees c p).clock = s.clock := rfl
@[simp] theorem State.nowSees_cycs (s : State) (c : Nat) (p : Late → Bool) : (s.nowSees c p).cycs = s.cycs := rfl
@[simp] theorem State.nowSees_mem (s : State) (c : Nat) (p : Late → Bool) : (s.nowSees c p).mem = s.mem := rfl
@[simp] theorem State.nowSees_lines (s : State) (c : Nat) (p : Late → Bool) : (s.nowSees c p).lines = s.lines := rfl
@[simp] theorem State.nowSees_badNodes (s : State) (c : Nat) (p : Late → Bool) : (s.nowSees c p).badNodes = s.badNodes := rfl
@[simp] theorem State.nowSees_heads (s : State) (c : Nat) (p : Late → Bool) : (s.nowSees c p).heads = s.heads := rfl
@[simp] theorem State.nowSees_fences (s : State) (c : Nat) (p : Late → Bool) : (s.nowSees c p).fences = s.fences := rfl
@[simp] theorem State.nowSees_rels (s : State) (c : Nat) (p : Late → Bool) : (s.nowSees c p).rels = s.rels := rfl
@[simp] theorem State.nowSees_reads (s : State) (c : Nat) (p : Late → Bool) : (s.nowSees c p).reads = s.reads := rfl
@[simp] theorem State.nowSees_hostMem (s : State) (c : Nat) (p : Late → Bool) : (s.nowSees c p).hostMem = s.hostMem := rfl
@[simp] theorem State.nowSees_replicas (s : State) (c : Nat) (p : Late → Bool) : (s.nowSees c p).replicas = s.replicas := rfl
@[simp] theorem State.nowSees_tlb (s : State) (c : Nat) (p : Late → Bool) : (s.nowSees c p).tlb = s.tlb := rfl
@[simp] theorem State.nowSees_denied (s : State) (c : Nat) (p : Late → Bool) : (s.nowSees c p).denied = s.denied := rfl
@[simp] theorem State.nowSees_walks (s : State) (c : Nat) (p : Late → Bool) : (s.nowSees c p).walks = s.walks := rfl
@[simp] theorem State.nowSees_merges (s : State) (c : Nat) (p : Late → Bool) : (s.nowSees c p).merges = s.merges := rfl
@[simp] theorem State.nowSees_reqs (s : State) (c : Nat) (p : Late → Bool) : (s.nowSees c p).reqs = s.reqs := rfl
@[simp] theorem State.nowSees_fills (s : State) (c : Nat) (p : Late → Bool) : (s.nowSees c p).fills = s.fills := rfl
@[simp] theorem State.nowSees_flows (s : State) (c : Nat) (p : Late → Bool) : (s.nowSees c p).flows = s.flows := rfl
@[simp] theorem State.nowSees_sends (s : State) (c : Nat) (p : Late → Bool) : (s.nowSees c p).sends = s.sends := rfl
@[simp] theorem State.nowSees_cores (s : State) (c : Nat) (p : Late → Bool) : (s.nowSees c p).cores = s.cores := rfl
@[simp] theorem State.nowSees_teams (s : State) (c : Nat) (p : Late → Bool) : (s.nowSees c p).teams = s.teams := rfl
@[simp] theorem State.nowSees_parts (s : State) (c : Nat) (p : Late → Bool) : (s.nowSees c p).parts = s.parts := rfl
@[simp] theorem State.nowSees_worlds (s : State) (c : Nat) (p : Late → Bool) : (s.nowSees c p).worlds = s.worlds := rfl
@[simp] theorem State.nowSees_comps (s : State) (c : Nat) (p : Late → Bool) : (s.nowSees c p).comps = s.comps := rfl
@[simp] theorem State.nowSees_shoots (s : State) (c : Nat) (p : Late → Bool) : (s.nowSees c p).shoots = s.shoots := rfl
@[simp] theorem State.nowSees_secJobs (s : State) (c : Nat) (p : Late → Bool) : (s.nowSees c p).secJobs = s.secJobs := rfl
@[simp] theorem State.nowSees_secQueue (s : State) (c : Nat) (p : Late → Bool) : (s.nowSees c p).secQueue = s.secQueue := rfl
@[simp] theorem State.nowSees_mcastJobs (s : State) (c : Nat) (p : Late → Bool) : (s.nowSees c p).mcastJobs = s.mcastJobs := rfl
@[simp] theorem State.nowSees_authResult (s : State) (c : Nat) (p : Late → Bool) : (s.nowSees c p).authResult = s.authResult := rfl
@[simp] theorem State.nowSees_pkgid (s : State) (c : Nat) (p : Late → Bool) : (s.nowSees c p).pkgid = s.pkgid := rfl
@[simp] theorem State.nowSees_rstage (s : State) (c : Nat) (p : Late → Bool) : (s.nowSees c p).rstage = s.rstage := rfl
@[simp] theorem State.nowSees_halted (s : State) (c : Nat) (p : Late → Bool) : (s.nowSees c p).halted = s.halted := rfl
@[simp] theorem State.nowSees_pstate (s : State) (c : Nat) (p : Late → Bool) : (s.nowSees c p).pstate = s.pstate := rfl
@[simp] theorem State.nowSees_throttle (s : State) (c : Nat) (p : Late → Bool) : (s.nowSees c p).throttle = s.throttle := rfl
@[simp] theorem State.nowSees_pwrcap (s : State) (c : Nat) (p : Late → Bool) : (s.nowSees c p).pwrcap = s.pwrcap := rfl
@[simp] theorem State.nowSees_tlimit (s : State) (c : Nat) (p : Late → Bool) : (s.nowSees c p).tlimit = s.tlimit := rfl
@[simp] theorem State.nowSees_hotDie (s : State) (c : Nat) (p : Late → Bool) : (s.nowSees c p).hotDie = s.hotDie := rfl
@[simp] theorem State.nowSees_shoot (s : State) (c : Nat) (p : Late → Bool) : (s.nowSees c p).shoot = s.shoot := rfl
@[simp] theorem State.nowSees_pgreset (s : State) (c : Nat) (p : Late → Bool) : (s.nowSees c p).pgreset = s.pgreset := rfl
@[simp] theorem State.nowSees_preemptReg (s : State) (c : Nat) (p : Late → Bool) : (s.nowSees c p).preemptReg = s.preemptReg := rfl
@[simp] theorem State.nowSees_drmask (s : State) (c : Nat) (p : Late → Bool) : (s.nowSees c p).drmask = s.drmask := rfl
@[simp] theorem State.nowSees_mcast (s : State) (c : Nat) (p : Late → Bool) : (s.nowSees c p).mcast = s.mcast := rfl
@[simp] theorem State.nowSees_linklog (s : State) (c : Nat) (p : Late → Bool) : (s.nowSees c p).linklog = s.linklog := rfl
@[simp] theorem State.nowSees_linkseq (s : State) (c : Nat) (p : Late → Bool) : (s.nowSees c p).linkseq = s.linkseq := rfl
@[simp] theorem State.nowSees_errorlog (s : State) (c : Nat) (p : Late → Bool) : (s.nowSees c p).errorlog = s.errorlog := rfl
@[simp] theorem State.nowSees_errseq (s : State) (c : Nat) (p : Late → Bool) : (s.nowSees c p).errseq = s.errseq := rfl
@[simp] theorem State.nowSees_lost (s : State) (c : Nat) (p : Late → Bool) : (s.nowSees c p).lost = s.lost := rfl
@[simp] theorem State.nowSees_spdm (s : State) (c : Nat) (p : Late → Bool) : (s.nowSees c p).spdm = s.spdm := rfl
@[simp] theorem State.nowSees_meas0 (s : State) (c : Nat) (p : Late → Bool) : (s.nowSees c p).meas0 = s.meas0 := rfl
@[simp] theorem State.nowSees_meas1 (s : State) (c : Nat) (p : Late → Bool) : (s.nowSees c p).meas1 = s.meas1 := rfl
@[simp] theorem State.nowSees_meas2 (s : State) (c : Nat) (p : Late → Bool) : (s.nowSees c p).meas2 = s.meas2 := rfl
@[simp] theorem State.nowSees_keyCount (s : State) (c : Nat) (p : Late → Bool) : (s.nowSees c p).keyCount = s.keyCount := rfl
@[simp] theorem State.nowSees_slotKeys (s : State) (c : Nat) (p : Late → Bool) : (s.nowSees c p).slotKeys = s.slotKeys := rfl
@[simp] theorem State.nowSees_operatorKey (s : State) (c : Nat) (p : Late → Bool) : (s.nowSees c p).operatorKey = s.operatorKey := rfl
@[simp] theorem State.nowSees_corrected (s : State) (c : Nat) (p : Late → Bool) : (s.nowSees c p).corrected = s.corrected := rfl
@[simp] theorem State.nowSees_pinOver (s : State) (c : Nat) (p : Late → Bool) : (s.nowSees c p).pinOver = s.pinOver := rfl
@[simp] theorem State.nowSees_authBox (s : State) (c : Nat) (p : Late → Bool) : (s.nowSees c p).authBox = s.authBox := rfl
@[simp] theorem State.nowSees_outputs (s : State) (c : Nat) (p : Late → Bool) : (s.nowSees c p).outputs = s.outputs := rfl

@[simp] theorem State.learn_schedule (s : State) (c n : Nat) : (s.learn c n).schedule = s.schedule := rfl
@[simp] theorem State.learn_cur (s : State) (c n : Nat) : (s.learn c n).cur = s.cur := rfl
@[simp] theorem State.learn_fresh (s : State) (c n : Nat) : (s.learn c n).fresh = s.fresh := rfl
@[simp] theorem State.learn_nextId (s : State) (c n : Nat) : (s.learn c n).nextId = s.nextId := rfl
@[simp] theorem State.learn_clock (s : State) (c n : Nat) : (s.learn c n).clock = s.clock := rfl
@[simp] theorem State.learn_cycs (s : State) (c n : Nat) : (s.learn c n).cycs = s.cycs := rfl
@[simp] theorem State.learn_mem (s : State) (c n : Nat) : (s.learn c n).mem = s.mem := rfl
@[simp] theorem State.learn_lines (s : State) (c n : Nat) : (s.learn c n).lines = s.lines := rfl
@[simp] theorem State.learn_badNodes (s : State) (c n : Nat) : (s.learn c n).badNodes = s.badNodes := rfl
@[simp] theorem State.learn_late (s : State) (c n : Nat) : (s.learn c n).late = s.late := rfl
@[simp] theorem State.learn_heads (s : State) (c n : Nat) : (s.learn c n).heads = s.heads := rfl
@[simp] theorem State.learn_fences (s : State) (c n : Nat) : (s.learn c n).fences = s.fences := rfl
@[simp] theorem State.learn_rels (s : State) (c n : Nat) : (s.learn c n).rels = s.rels := rfl
@[simp] theorem State.learn_reads (s : State) (c n : Nat) : (s.learn c n).reads = s.reads := rfl
@[simp] theorem State.learn_hostMem (s : State) (c n : Nat) : (s.learn c n).hostMem = s.hostMem := rfl
@[simp] theorem State.learn_replicas (s : State) (c n : Nat) : (s.learn c n).replicas = s.replicas := rfl
@[simp] theorem State.learn_tlb (s : State) (c n : Nat) : (s.learn c n).tlb = s.tlb := rfl
@[simp] theorem State.learn_denied (s : State) (c n : Nat) : (s.learn c n).denied = s.denied := rfl
@[simp] theorem State.learn_walks (s : State) (c n : Nat) : (s.learn c n).walks = s.walks := rfl
@[simp] theorem State.learn_merges (s : State) (c n : Nat) : (s.learn c n).merges = s.merges := rfl
@[simp] theorem State.learn_reqs (s : State) (c n : Nat) : (s.learn c n).reqs = s.reqs := rfl
@[simp] theorem State.learn_fills (s : State) (c n : Nat) : (s.learn c n).fills = s.fills := rfl
@[simp] theorem State.learn_flows (s : State) (c n : Nat) : (s.learn c n).flows = s.flows := rfl
@[simp] theorem State.learn_sends (s : State) (c n : Nat) : (s.learn c n).sends = s.sends := rfl
@[simp] theorem State.learn_teams (s : State) (c n : Nat) : (s.learn c n).teams = s.teams := rfl
@[simp] theorem State.learn_parts (s : State) (c n : Nat) : (s.learn c n).parts = s.parts := rfl
@[simp] theorem State.learn_worlds (s : State) (c n : Nat) : (s.learn c n).worlds = s.worlds := rfl
@[simp] theorem State.learn_comps (s : State) (c n : Nat) : (s.learn c n).comps = s.comps := rfl
@[simp] theorem State.learn_shoots (s : State) (c n : Nat) : (s.learn c n).shoots = s.shoots := rfl
@[simp] theorem State.learn_secJobs (s : State) (c n : Nat) : (s.learn c n).secJobs = s.secJobs := rfl
@[simp] theorem State.learn_secQueue (s : State) (c n : Nat) : (s.learn c n).secQueue = s.secQueue := rfl
@[simp] theorem State.learn_mcastJobs (s : State) (c n : Nat) : (s.learn c n).mcastJobs = s.mcastJobs := rfl
@[simp] theorem State.learn_authResult (s : State) (c n : Nat) : (s.learn c n).authResult = s.authResult := rfl
@[simp] theorem State.learn_pkgid (s : State) (c n : Nat) : (s.learn c n).pkgid = s.pkgid := rfl
@[simp] theorem State.learn_rstage (s : State) (c n : Nat) : (s.learn c n).rstage = s.rstage := rfl
@[simp] theorem State.learn_halted (s : State) (c n : Nat) : (s.learn c n).halted = s.halted := rfl
@[simp] theorem State.learn_pstate (s : State) (c n : Nat) : (s.learn c n).pstate = s.pstate := rfl
@[simp] theorem State.learn_throttle (s : State) (c n : Nat) : (s.learn c n).throttle = s.throttle := rfl
@[simp] theorem State.learn_pwrcap (s : State) (c n : Nat) : (s.learn c n).pwrcap = s.pwrcap := rfl
@[simp] theorem State.learn_tlimit (s : State) (c n : Nat) : (s.learn c n).tlimit = s.tlimit := rfl
@[simp] theorem State.learn_hotDie (s : State) (c n : Nat) : (s.learn c n).hotDie = s.hotDie := rfl
@[simp] theorem State.learn_shoot (s : State) (c n : Nat) : (s.learn c n).shoot = s.shoot := rfl
@[simp] theorem State.learn_pgreset (s : State) (c n : Nat) : (s.learn c n).pgreset = s.pgreset := rfl
@[simp] theorem State.learn_preemptReg (s : State) (c n : Nat) : (s.learn c n).preemptReg = s.preemptReg := rfl
@[simp] theorem State.learn_drmask (s : State) (c n : Nat) : (s.learn c n).drmask = s.drmask := rfl
@[simp] theorem State.learn_mcast (s : State) (c n : Nat) : (s.learn c n).mcast = s.mcast := rfl
@[simp] theorem State.learn_linklog (s : State) (c n : Nat) : (s.learn c n).linklog = s.linklog := rfl
@[simp] theorem State.learn_linkseq (s : State) (c n : Nat) : (s.learn c n).linkseq = s.linkseq := rfl
@[simp] theorem State.learn_errorlog (s : State) (c n : Nat) : (s.learn c n).errorlog = s.errorlog := rfl
@[simp] theorem State.learn_errseq (s : State) (c n : Nat) : (s.learn c n).errseq = s.errseq := rfl
@[simp] theorem State.learn_lost (s : State) (c n : Nat) : (s.learn c n).lost = s.lost := rfl
@[simp] theorem State.learn_spdm (s : State) (c n : Nat) : (s.learn c n).spdm = s.spdm := rfl
@[simp] theorem State.learn_meas0 (s : State) (c n : Nat) : (s.learn c n).meas0 = s.meas0 := rfl
@[simp] theorem State.learn_meas1 (s : State) (c n : Nat) : (s.learn c n).meas1 = s.meas1 := rfl
@[simp] theorem State.learn_meas2 (s : State) (c n : Nat) : (s.learn c n).meas2 = s.meas2 := rfl
@[simp] theorem State.learn_keyCount (s : State) (c n : Nat) : (s.learn c n).keyCount = s.keyCount := rfl
@[simp] theorem State.learn_slotKeys (s : State) (c n : Nat) : (s.learn c n).slotKeys = s.slotKeys := rfl
@[simp] theorem State.learn_operatorKey (s : State) (c n : Nat) : (s.learn c n).operatorKey = s.operatorKey := rfl
@[simp] theorem State.learn_corrected (s : State) (c n : Nat) : (s.learn c n).corrected = s.corrected := rfl
@[simp] theorem State.learn_pinOver (s : State) (c n : Nat) : (s.learn c n).pinOver = s.pinOver := rfl
@[simp] theorem State.learn_authBox (s : State) (c n : Nat) : (s.learn c n).authBox = s.authBox := rfl
@[simp] theorem State.learn_outputs (s : State) (c n : Nat) : (s.learn c n).outputs = s.outputs := rfl

@[simp] theorem State.dropL1Range_schedule (s : State) (a n : Nat) : (s.dropL1Range a n).schedule = s.schedule := rfl
@[simp] theorem State.dropL1Range_cur (s : State) (a n : Nat) : (s.dropL1Range a n).cur = s.cur := rfl
@[simp] theorem State.dropL1Range_fresh (s : State) (a n : Nat) : (s.dropL1Range a n).fresh = s.fresh := rfl
@[simp] theorem State.dropL1Range_nextId (s : State) (a n : Nat) : (s.dropL1Range a n).nextId = s.nextId := rfl
@[simp] theorem State.dropL1Range_clock (s : State) (a n : Nat) : (s.dropL1Range a n).clock = s.clock := rfl
@[simp] theorem State.dropL1Range_cycs (s : State) (a n : Nat) : (s.dropL1Range a n).cycs = s.cycs := rfl
@[simp] theorem State.dropL1Range_mem (s : State) (a n : Nat) : (s.dropL1Range a n).mem = s.mem := rfl
@[simp] theorem State.dropL1Range_lines (s : State) (a n : Nat) : (s.dropL1Range a n).lines = s.lines := rfl
@[simp] theorem State.dropL1Range_badNodes (s : State) (a n : Nat) : (s.dropL1Range a n).badNodes = s.badNodes := rfl
@[simp] theorem State.dropL1Range_late (s : State) (a n : Nat) : (s.dropL1Range a n).late = s.late := rfl
@[simp] theorem State.dropL1Range_heads (s : State) (a n : Nat) : (s.dropL1Range a n).heads = s.heads := rfl
@[simp] theorem State.dropL1Range_fences (s : State) (a n : Nat) : (s.dropL1Range a n).fences = s.fences := rfl
@[simp] theorem State.dropL1Range_rels (s : State) (a n : Nat) : (s.dropL1Range a n).rels = s.rels := rfl
@[simp] theorem State.dropL1Range_reads (s : State) (a n : Nat) : (s.dropL1Range a n).reads = s.reads := rfl
@[simp] theorem State.dropL1Range_hostMem (s : State) (a n : Nat) : (s.dropL1Range a n).hostMem = s.hostMem := rfl
@[simp] theorem State.dropL1Range_replicas (s : State) (a n : Nat) : (s.dropL1Range a n).replicas = s.replicas := rfl
@[simp] theorem State.dropL1Range_tlb (s : State) (a n : Nat) : (s.dropL1Range a n).tlb = s.tlb := rfl
@[simp] theorem State.dropL1Range_denied (s : State) (a n : Nat) : (s.dropL1Range a n).denied = s.denied := rfl
@[simp] theorem State.dropL1Range_walks (s : State) (a n : Nat) : (s.dropL1Range a n).walks = s.walks := rfl
@[simp] theorem State.dropL1Range_merges (s : State) (a n : Nat) : (s.dropL1Range a n).merges = s.merges := rfl
@[simp] theorem State.dropL1Range_reqs (s : State) (a n : Nat) : (s.dropL1Range a n).reqs = s.reqs := rfl
@[simp] theorem State.dropL1Range_fills (s : State) (a n : Nat) : (s.dropL1Range a n).fills = s.fills := rfl
@[simp] theorem State.dropL1Range_flows (s : State) (a n : Nat) : (s.dropL1Range a n).flows = s.flows := rfl
@[simp] theorem State.dropL1Range_sends (s : State) (a n : Nat) : (s.dropL1Range a n).sends = s.sends := rfl
@[simp] theorem State.dropL1Range_teams (s : State) (a n : Nat) : (s.dropL1Range a n).teams = s.teams := rfl
@[simp] theorem State.dropL1Range_parts (s : State) (a n : Nat) : (s.dropL1Range a n).parts = s.parts := rfl
@[simp] theorem State.dropL1Range_worlds (s : State) (a n : Nat) : (s.dropL1Range a n).worlds = s.worlds := rfl
@[simp] theorem State.dropL1Range_comps (s : State) (a n : Nat) : (s.dropL1Range a n).comps = s.comps := rfl
@[simp] theorem State.dropL1Range_shoots (s : State) (a n : Nat) : (s.dropL1Range a n).shoots = s.shoots := rfl
@[simp] theorem State.dropL1Range_secJobs (s : State) (a n : Nat) : (s.dropL1Range a n).secJobs = s.secJobs := rfl
@[simp] theorem State.dropL1Range_secQueue (s : State) (a n : Nat) : (s.dropL1Range a n).secQueue = s.secQueue := rfl
@[simp] theorem State.dropL1Range_mcastJobs (s : State) (a n : Nat) : (s.dropL1Range a n).mcastJobs = s.mcastJobs := rfl
@[simp] theorem State.dropL1Range_authResult (s : State) (a n : Nat) : (s.dropL1Range a n).authResult = s.authResult := rfl
@[simp] theorem State.dropL1Range_pkgid (s : State) (a n : Nat) : (s.dropL1Range a n).pkgid = s.pkgid := rfl
@[simp] theorem State.dropL1Range_rstage (s : State) (a n : Nat) : (s.dropL1Range a n).rstage = s.rstage := rfl
@[simp] theorem State.dropL1Range_halted (s : State) (a n : Nat) : (s.dropL1Range a n).halted = s.halted := rfl
@[simp] theorem State.dropL1Range_pstate (s : State) (a n : Nat) : (s.dropL1Range a n).pstate = s.pstate := rfl
@[simp] theorem State.dropL1Range_throttle (s : State) (a n : Nat) : (s.dropL1Range a n).throttle = s.throttle := rfl
@[simp] theorem State.dropL1Range_pwrcap (s : State) (a n : Nat) : (s.dropL1Range a n).pwrcap = s.pwrcap := rfl
@[simp] theorem State.dropL1Range_tlimit (s : State) (a n : Nat) : (s.dropL1Range a n).tlimit = s.tlimit := rfl
@[simp] theorem State.dropL1Range_hotDie (s : State) (a n : Nat) : (s.dropL1Range a n).hotDie = s.hotDie := rfl
@[simp] theorem State.dropL1Range_shoot (s : State) (a n : Nat) : (s.dropL1Range a n).shoot = s.shoot := rfl
@[simp] theorem State.dropL1Range_pgreset (s : State) (a n : Nat) : (s.dropL1Range a n).pgreset = s.pgreset := rfl
@[simp] theorem State.dropL1Range_preemptReg (s : State) (a n : Nat) : (s.dropL1Range a n).preemptReg = s.preemptReg := rfl
@[simp] theorem State.dropL1Range_drmask (s : State) (a n : Nat) : (s.dropL1Range a n).drmask = s.drmask := rfl
@[simp] theorem State.dropL1Range_mcast (s : State) (a n : Nat) : (s.dropL1Range a n).mcast = s.mcast := rfl
@[simp] theorem State.dropL1Range_linklog (s : State) (a n : Nat) : (s.dropL1Range a n).linklog = s.linklog := rfl
@[simp] theorem State.dropL1Range_linkseq (s : State) (a n : Nat) : (s.dropL1Range a n).linkseq = s.linkseq := rfl
@[simp] theorem State.dropL1Range_errorlog (s : State) (a n : Nat) : (s.dropL1Range a n).errorlog = s.errorlog := rfl
@[simp] theorem State.dropL1Range_errseq (s : State) (a n : Nat) : (s.dropL1Range a n).errseq = s.errseq := rfl
@[simp] theorem State.dropL1Range_lost (s : State) (a n : Nat) : (s.dropL1Range a n).lost = s.lost := rfl
@[simp] theorem State.dropL1Range_spdm (s : State) (a n : Nat) : (s.dropL1Range a n).spdm = s.spdm := rfl
@[simp] theorem State.dropL1Range_meas0 (s : State) (a n : Nat) : (s.dropL1Range a n).meas0 = s.meas0 := rfl
@[simp] theorem State.dropL1Range_meas1 (s : State) (a n : Nat) : (s.dropL1Range a n).meas1 = s.meas1 := rfl
@[simp] theorem State.dropL1Range_meas2 (s : State) (a n : Nat) : (s.dropL1Range a n).meas2 = s.meas2 := rfl
@[simp] theorem State.dropL1Range_keyCount (s : State) (a n : Nat) : (s.dropL1Range a n).keyCount = s.keyCount := rfl
@[simp] theorem State.dropL1Range_slotKeys (s : State) (a n : Nat) : (s.dropL1Range a n).slotKeys = s.slotKeys := rfl
@[simp] theorem State.dropL1Range_operatorKey (s : State) (a n : Nat) : (s.dropL1Range a n).operatorKey = s.operatorKey := rfl
@[simp] theorem State.dropL1Range_corrected (s : State) (a n : Nat) : (s.dropL1Range a n).corrected = s.corrected := rfl
@[simp] theorem State.dropL1Range_pinOver (s : State) (a n : Nat) : (s.dropL1Range a n).pinOver = s.pinOver := rfl
@[simp] theorem State.dropL1Range_authBox (s : State) (a n : Nat) : (s.dropL1Range a n).authBox = s.authBox := rfl
@[simp] theorem State.dropL1Range_outputs (s : State) (a n : Nat) : (s.dropL1Range a n).outputs = s.outputs := rfl

/-! ### Updates of a group -/

@[simp] theorem Group.setPcs_regs (g : Group) (m : LaneMask) (a : Addr) : (g.setPcs m a).regs = g.regs := rfl
@[simp] theorem Group.setPcs_empty (g : Group) (m : LaneMask) (a : Addr) : (g.setPcs m a).empty = g.empty := rfl
@[simp] theorem Group.setPcs_xbase (g : Group) (m : LaneMask) (a : Addr) : (g.setPcs m a).xbase = g.xbase := rfl
@[simp] theorem Group.setPcs_xlimit (g : Group) (m : LaneMask) (a : Addr) : (g.setPcs m a).xlimit = g.xlimit := rfl
@[simp] theorem Group.setPcs_xoff (g : Group) (m : LaneMask) (a : Addr) : (g.setPcs m a).xoff = g.xoff := rfl
@[simp] theorem Group.setPcs_kval (g : Group) (m : LaneMask) (a : Addr) : (g.setPcs m a).kval = g.kval := rfl
@[simp] theorem Group.setPcs_kdef (g : Group) (m : LaneMask) (a : Addr) : (g.setPcs m a).kdef = g.kdef := rfl
@[simp] theorem Group.setPcs_lflags (g : Group) (m : LaneMask) (a : Addr) : (g.setPcs m a).lflags = g.lflags := rfl
@[simp] theorem Group.setPcs_exited (g : Group) (m : LaneMask) (a : Addr) : (g.setPcs m a).exited = g.exited := rfl
@[simp] theorem Group.setPcs_strands (g : Group) (m : LaneMask) (a : Addr) : (g.setPcs m a).strands = g.strands := rfl
@[simp] theorem Group.setPcs_divs (g : Group) (m : LaneMask) (a : Addr) : (g.setPcs m a).divs = g.divs := rfl
@[simp] theorem Group.setPcs_loops (g : Group) (m : LaneMask) (a : Addr) : (g.setPcs m a).loops = g.loops := rfl
@[simp] theorem Group.setPcs_ws (g : Group) (m : LaneMask) (a : Addr) : (g.setPcs m a).ws = g.ws := rfl
@[simp] theorem Group.setPcs_resume (g : Group) (m : LaneMask) (a : Addr) : (g.setPcs m a).resume = g.resume := rfl
@[simp] theorem Group.setPcs_kept (g : Group) (m : LaneMask) (a : Addr) : (g.setPcs m a).kept = g.kept := rfl
@[simp] theorem Group.setPcs_returned (g : Group) (m : LaneMask) (a : Addr) : (g.setPcs m a).returned = g.returned := rfl
@[simp] theorem Group.setPcs_placement (g : Group) (m : LaneMask) (a : Addr) : (g.setPcs m a).placement = g.placement := rfl
@[simp] theorem Group.setPcs_log (g : Group) (m : LaneMask) (a : Addr) : (g.setPcs m a).log = g.log := rfl
@[simp] theorem Group.setPcs_replay (g : Group) (m : LaneMask) (a : Addr) : (g.setPcs m a).replay = g.replay := rfl
@[simp] theorem Group.setPcs_consumed (g : Group) (m : LaneMask) (a : Addr) : (g.setPcs m a).consumed = g.consumed := rfl
@[simp] theorem Group.setPcs_trap (g : Group) (m : LaneMask) (a : Addr) : (g.setPcs m a).trap = g.trap := rfl
@[simp] theorem Group.setPcs_waits (g : Group) (m : LaneMask) (a : Addr) : (g.setPcs m a).waits = g.waits := rfl
@[simp] theorem Group.setPcs_deferred (g : Group) (m : LaneMask) (a : Addr) : (g.setPcs m a).deferred = g.deferred := rfl
@[simp] theorem Group.setPcs_passEnd (g : Group) (m : LaneMask) (a : Addr) : (g.setPcs m a).passEnd = g.passEnd := rfl

@[simp] theorem Group.setReg_empty (g : Group) (r l : Nat) (w : Word) : (g.setReg r l w).empty = g.empty := rfl
@[simp] theorem Group.setReg_xbase (g : Group) (r l : Nat) (w : Word) : (g.setReg r l w).xbase = g.xbase := rfl
@[simp] theorem Group.setReg_xlimit (g : Group) (r l : Nat) (w : Word) : (g.setReg r l w).xlimit = g.xlimit := rfl
@[simp] theorem Group.setReg_xoff (g : Group) (r l : Nat) (w : Word) : (g.setReg r l w).xoff = g.xoff := rfl
@[simp] theorem Group.setReg_kval (g : Group) (r l : Nat) (w : Word) : (g.setReg r l w).kval = g.kval := rfl
@[simp] theorem Group.setReg_kdef (g : Group) (r l : Nat) (w : Word) : (g.setReg r l w).kdef = g.kdef := rfl
@[simp] theorem Group.setReg_lflags (g : Group) (r l : Nat) (w : Word) : (g.setReg r l w).lflags = g.lflags := rfl
@[simp] theorem Group.setReg_pc (g : Group) (r l : Nat) (w : Word) : (g.setReg r l w).pc = g.pc := rfl
@[simp] theorem Group.setReg_exited (g : Group) (r l : Nat) (w : Word) : (g.setReg r l w).exited = g.exited := rfl
@[simp] theorem Group.setReg_strands (g : Group) (r l : Nat) (w : Word) : (g.setReg r l w).strands = g.strands := rfl
@[simp] theorem Group.setReg_divs (g : Group) (r l : Nat) (w : Word) : (g.setReg r l w).divs = g.divs := rfl
@[simp] theorem Group.setReg_loops (g : Group) (r l : Nat) (w : Word) : (g.setReg r l w).loops = g.loops := rfl
@[simp] theorem Group.setReg_ws (g : Group) (r l : Nat) (w : Word) : (g.setReg r l w).ws = g.ws := rfl
@[simp] theorem Group.setReg_resume (g : Group) (r l : Nat) (w : Word) : (g.setReg r l w).resume = g.resume := rfl
@[simp] theorem Group.setReg_kept (g : Group) (r l : Nat) (w : Word) : (g.setReg r l w).kept = g.kept := rfl
@[simp] theorem Group.setReg_returned (g : Group) (r l : Nat) (w : Word) : (g.setReg r l w).returned = g.returned := rfl
@[simp] theorem Group.setReg_placement (g : Group) (r l : Nat) (w : Word) : (g.setReg r l w).placement = g.placement := rfl
@[simp] theorem Group.setReg_log (g : Group) (r l : Nat) (w : Word) : (g.setReg r l w).log = g.log := rfl
@[simp] theorem Group.setReg_replay (g : Group) (r l : Nat) (w : Word) : (g.setReg r l w).replay = g.replay := rfl
@[simp] theorem Group.setReg_consumed (g : Group) (r l : Nat) (w : Word) : (g.setReg r l w).consumed = g.consumed := rfl
@[simp] theorem Group.setReg_trap (g : Group) (r l : Nat) (w : Word) : (g.setReg r l w).trap = g.trap := rfl
@[simp] theorem Group.setReg_waits (g : Group) (r l : Nat) (w : Word) : (g.setReg r l w).waits = g.waits := rfl
@[simp] theorem Group.setReg_deferred (g : Group) (r l : Nat) (w : Word) : (g.setReg r l w).deferred = g.deferred := rfl
@[simp] theorem Group.setReg_passEnd (g : Group) (r l : Nat) (w : Word) : (g.setReg r l w).passEnd = g.passEnd := rfl

@[simp] theorem Group.markEmpty_regs (g : Group) (rs : List Nat) : (g.markEmpty rs).regs = g.regs := rfl
@[simp] theorem Group.markEmpty_xbase (g : Group) (rs : List Nat) : (g.markEmpty rs).xbase = g.xbase := rfl
@[simp] theorem Group.markEmpty_xlimit (g : Group) (rs : List Nat) : (g.markEmpty rs).xlimit = g.xlimit := rfl
@[simp] theorem Group.markEmpty_xoff (g : Group) (rs : List Nat) : (g.markEmpty rs).xoff = g.xoff := rfl
@[simp] theorem Group.markEmpty_kval (g : Group) (rs : List Nat) : (g.markEmpty rs).kval = g.kval := rfl
@[simp] theorem Group.markEmpty_kdef (g : Group) (rs : List Nat) : (g.markEmpty rs).kdef = g.kdef := rfl
@[simp] theorem Group.markEmpty_lflags (g : Group) (rs : List Nat) : (g.markEmpty rs).lflags = g.lflags := rfl
@[simp] theorem Group.markEmpty_pc (g : Group) (rs : List Nat) : (g.markEmpty rs).pc = g.pc := rfl
@[simp] theorem Group.markEmpty_exited (g : Group) (rs : List Nat) : (g.markEmpty rs).exited = g.exited := rfl
@[simp] theorem Group.markEmpty_strands (g : Group) (rs : List Nat) : (g.markEmpty rs).strands = g.strands := rfl
@[simp] theorem Group.markEmpty_divs (g : Group) (rs : List Nat) : (g.markEmpty rs).divs = g.divs := rfl
@[simp] theorem Group.markEmpty_loops (g : Group) (rs : List Nat) : (g.markEmpty rs).loops = g.loops := rfl
@[simp] theorem Group.markEmpty_ws (g : Group) (rs : List Nat) : (g.markEmpty rs).ws = g.ws := rfl
@[simp] theorem Group.markEmpty_resume (g : Group) (rs : List Nat) : (g.markEmpty rs).resume = g.resume := rfl
@[simp] theorem Group.markEmpty_kept (g : Group) (rs : List Nat) : (g.markEmpty rs).kept = g.kept := rfl
@[simp] theorem Group.markEmpty_returned (g : Group) (rs : List Nat) : (g.markEmpty rs).returned = g.returned := rfl
@[simp] theorem Group.markEmpty_placement (g : Group) (rs : List Nat) : (g.markEmpty rs).placement = g.placement := rfl
@[simp] theorem Group.markEmpty_log (g : Group) (rs : List Nat) : (g.markEmpty rs).log = g.log := rfl
@[simp] theorem Group.markEmpty_replay (g : Group) (rs : List Nat) : (g.markEmpty rs).replay = g.replay := rfl
@[simp] theorem Group.markEmpty_consumed (g : Group) (rs : List Nat) : (g.markEmpty rs).consumed = g.consumed := rfl
@[simp] theorem Group.markEmpty_trap (g : Group) (rs : List Nat) : (g.markEmpty rs).trap = g.trap := rfl
@[simp] theorem Group.markEmpty_waits (g : Group) (rs : List Nat) : (g.markEmpty rs).waits = g.waits := rfl
@[simp] theorem Group.markEmpty_deferred (g : Group) (rs : List Nat) : (g.markEmpty rs).deferred = g.deferred := rfl
@[simp] theorem Group.markEmpty_passEnd (g : Group) (rs : List Nat) : (g.markEmpty rs).passEnd = g.passEnd := rfl

@[simp] theorem Group.markFull_regs (g : Group) (r : Nat) : (g.markFull r).regs = g.regs := rfl
@[simp] theorem Group.markFull_xbase (g : Group) (r : Nat) : (g.markFull r).xbase = g.xbase := rfl
@[simp] theorem Group.markFull_xlimit (g : Group) (r : Nat) : (g.markFull r).xlimit = g.xlimit := rfl
@[simp] theorem Group.markFull_xoff (g : Group) (r : Nat) : (g.markFull r).xoff = g.xoff := rfl
@[simp] theorem Group.markFull_kval (g : Group) (r : Nat) : (g.markFull r).kval = g.kval := rfl
@[simp] theorem Group.markFull_kdef (g : Group) (r : Nat) : (g.markFull r).kdef = g.kdef := rfl
@[simp] theorem Group.markFull_lflags (g : Group) (r : Nat) : (g.markFull r).lflags = g.lflags := rfl
@[simp] theorem Group.markFull_pc (g : Group) (r : Nat) : (g.markFull r).pc = g.pc := rfl
@[simp] theorem Group.markFull_exited (g : Group) (r : Nat) : (g.markFull r).exited = g.exited := rfl
@[simp] theorem Group.markFull_strands (g : Group) (r : Nat) : (g.markFull r).strands = g.strands := rfl
@[simp] theorem Group.markFull_divs (g : Group) (r : Nat) : (g.markFull r).divs = g.divs := rfl
@[simp] theorem Group.markFull_loops (g : Group) (r : Nat) : (g.markFull r).loops = g.loops := rfl
@[simp] theorem Group.markFull_ws (g : Group) (r : Nat) : (g.markFull r).ws = g.ws := rfl
@[simp] theorem Group.markFull_resume (g : Group) (r : Nat) : (g.markFull r).resume = g.resume := rfl
@[simp] theorem Group.markFull_kept (g : Group) (r : Nat) : (g.markFull r).kept = g.kept := rfl
@[simp] theorem Group.markFull_returned (g : Group) (r : Nat) : (g.markFull r).returned = g.returned := rfl
@[simp] theorem Group.markFull_placement (g : Group) (r : Nat) : (g.markFull r).placement = g.placement := rfl
@[simp] theorem Group.markFull_log (g : Group) (r : Nat) : (g.markFull r).log = g.log := rfl
@[simp] theorem Group.markFull_replay (g : Group) (r : Nat) : (g.markFull r).replay = g.replay := rfl
@[simp] theorem Group.markFull_consumed (g : Group) (r : Nat) : (g.markFull r).consumed = g.consumed := rfl
@[simp] theorem Group.markFull_trap (g : Group) (r : Nat) : (g.markFull r).trap = g.trap := rfl
@[simp] theorem Group.markFull_waits (g : Group) (r : Nat) : (g.markFull r).waits = g.waits := rfl
@[simp] theorem Group.markFull_deferred (g : Group) (r : Nat) : (g.markFull r).deferred = g.deferred := rfl
@[simp] theorem Group.markFull_passEnd (g : Group) (r : Nat) : (g.markFull r).passEnd = g.passEnd := rfl

@[simp] theorem Group.setPred_regs (g : Group) (k : Nat) (m v : LaneMask) : (g.setPred k m v).regs = g.regs := rfl
@[simp] theorem Group.setPred_empty (g : Group) (k : Nat) (m v : LaneMask) : (g.setPred k m v).empty = g.empty := rfl
@[simp] theorem Group.setPred_xbase (g : Group) (k : Nat) (m v : LaneMask) : (g.setPred k m v).xbase = g.xbase := rfl
@[simp] theorem Group.setPred_xlimit (g : Group) (k : Nat) (m v : LaneMask) : (g.setPred k m v).xlimit = g.xlimit := rfl
@[simp] theorem Group.setPred_xoff (g : Group) (k : Nat) (m v : LaneMask) : (g.setPred k m v).xoff = g.xoff := rfl
@[simp] theorem Group.setPred_lflags (g : Group) (k : Nat) (m v : LaneMask) : (g.setPred k m v).lflags = g.lflags := rfl
@[simp] theorem Group.setPred_pc (g : Group) (k : Nat) (m v : LaneMask) : (g.setPred k m v).pc = g.pc := rfl
@[simp] theorem Group.setPred_exited (g : Group) (k : Nat) (m v : LaneMask) : (g.setPred k m v).exited = g.exited := rfl
@[simp] theorem Group.setPred_strands (g : Group) (k : Nat) (m v : LaneMask) : (g.setPred k m v).strands = g.strands := rfl
@[simp] theorem Group.setPred_divs (g : Group) (k : Nat) (m v : LaneMask) : (g.setPred k m v).divs = g.divs := rfl
@[simp] theorem Group.setPred_loops (g : Group) (k : Nat) (m v : LaneMask) : (g.setPred k m v).loops = g.loops := rfl
@[simp] theorem Group.setPred_ws (g : Group) (k : Nat) (m v : LaneMask) : (g.setPred k m v).ws = g.ws := rfl
@[simp] theorem Group.setPred_resume (g : Group) (k : Nat) (m v : LaneMask) : (g.setPred k m v).resume = g.resume := rfl
@[simp] theorem Group.setPred_kept (g : Group) (k : Nat) (m v : LaneMask) : (g.setPred k m v).kept = g.kept := rfl
@[simp] theorem Group.setPred_returned (g : Group) (k : Nat) (m v : LaneMask) : (g.setPred k m v).returned = g.returned := rfl
@[simp] theorem Group.setPred_placement (g : Group) (k : Nat) (m v : LaneMask) : (g.setPred k m v).placement = g.placement := rfl
@[simp] theorem Group.setPred_log (g : Group) (k : Nat) (m v : LaneMask) : (g.setPred k m v).log = g.log := rfl
@[simp] theorem Group.setPred_replay (g : Group) (k : Nat) (m v : LaneMask) : (g.setPred k m v).replay = g.replay := rfl
@[simp] theorem Group.setPred_consumed (g : Group) (k : Nat) (m v : LaneMask) : (g.setPred k m v).consumed = g.consumed := rfl
@[simp] theorem Group.setPred_trap (g : Group) (k : Nat) (m v : LaneMask) : (g.setPred k m v).trap = g.trap := rfl
@[simp] theorem Group.setPred_waits (g : Group) (k : Nat) (m v : LaneMask) : (g.setPred k m v).waits = g.waits := rfl
@[simp] theorem Group.setPred_deferred (g : Group) (k : Nat) (m v : LaneMask) : (g.setPred k m v).deferred = g.deferred := rfl
@[simp] theorem Group.setPred_passEnd (g : Group) (k : Nat) (m v : LaneMask) : (g.setPred k m v).passEnd = g.passEnd := rfl

@[simp] theorem Group.raise_regs (g : Group) (l : Nat) (f : BitVec 6) : (g.raise l f).regs = g.regs := rfl
@[simp] theorem Group.raise_empty (g : Group) (l : Nat) (f : BitVec 6) : (g.raise l f).empty = g.empty := rfl
@[simp] theorem Group.raise_xbase (g : Group) (l : Nat) (f : BitVec 6) : (g.raise l f).xbase = g.xbase := rfl
@[simp] theorem Group.raise_xlimit (g : Group) (l : Nat) (f : BitVec 6) : (g.raise l f).xlimit = g.xlimit := rfl
@[simp] theorem Group.raise_xoff (g : Group) (l : Nat) (f : BitVec 6) : (g.raise l f).xoff = g.xoff := rfl
@[simp] theorem Group.raise_kval (g : Group) (l : Nat) (f : BitVec 6) : (g.raise l f).kval = g.kval := rfl
@[simp] theorem Group.raise_kdef (g : Group) (l : Nat) (f : BitVec 6) : (g.raise l f).kdef = g.kdef := rfl
@[simp] theorem Group.raise_pc (g : Group) (l : Nat) (f : BitVec 6) : (g.raise l f).pc = g.pc := rfl
@[simp] theorem Group.raise_exited (g : Group) (l : Nat) (f : BitVec 6) : (g.raise l f).exited = g.exited := rfl
@[simp] theorem Group.raise_strands (g : Group) (l : Nat) (f : BitVec 6) : (g.raise l f).strands = g.strands := rfl
@[simp] theorem Group.raise_divs (g : Group) (l : Nat) (f : BitVec 6) : (g.raise l f).divs = g.divs := rfl
@[simp] theorem Group.raise_loops (g : Group) (l : Nat) (f : BitVec 6) : (g.raise l f).loops = g.loops := rfl
@[simp] theorem Group.raise_ws (g : Group) (l : Nat) (f : BitVec 6) : (g.raise l f).ws = g.ws := rfl
@[simp] theorem Group.raise_resume (g : Group) (l : Nat) (f : BitVec 6) : (g.raise l f).resume = g.resume := rfl
@[simp] theorem Group.raise_kept (g : Group) (l : Nat) (f : BitVec 6) : (g.raise l f).kept = g.kept := rfl
@[simp] theorem Group.raise_returned (g : Group) (l : Nat) (f : BitVec 6) : (g.raise l f).returned = g.returned := rfl
@[simp] theorem Group.raise_placement (g : Group) (l : Nat) (f : BitVec 6) : (g.raise l f).placement = g.placement := rfl
@[simp] theorem Group.raise_log (g : Group) (l : Nat) (f : BitVec 6) : (g.raise l f).log = g.log := rfl
@[simp] theorem Group.raise_replay (g : Group) (l : Nat) (f : BitVec 6) : (g.raise l f).replay = g.replay := rfl
@[simp] theorem Group.raise_consumed (g : Group) (l : Nat) (f : BitVec 6) : (g.raise l f).consumed = g.consumed := rfl
@[simp] theorem Group.raise_trap (g : Group) (l : Nat) (f : BitVec 6) : (g.raise l f).trap = g.trap := rfl
@[simp] theorem Group.raise_waits (g : Group) (l : Nat) (f : BitVec 6) : (g.raise l f).waits = g.waits := rfl
@[simp] theorem Group.raise_deferred (g : Group) (l : Nat) (f : BitVec 6) : (g.raise l f).deferred = g.deferred := rfl
@[simp] theorem Group.raise_passEnd (g : Group) (l : Nat) (f : BitVec 6) : (g.raise l f).passEnd = g.passEnd := rfl

@[simp] theorem Group.popDivs_regs (g : Group)  : (g.popDivs).regs = g.regs := rfl
@[simp] theorem Group.popDivs_empty (g : Group)  : (g.popDivs).empty = g.empty := rfl
@[simp] theorem Group.popDivs_xbase (g : Group)  : (g.popDivs).xbase = g.xbase := rfl
@[simp] theorem Group.popDivs_xlimit (g : Group)  : (g.popDivs).xlimit = g.xlimit := rfl
@[simp] theorem Group.popDivs_xoff (g : Group)  : (g.popDivs).xoff = g.xoff := rfl
@[simp] theorem Group.popDivs_kval (g : Group)  : (g.popDivs).kval = g.kval := rfl
@[simp] theorem Group.popDivs_kdef (g : Group)  : (g.popDivs).kdef = g.kdef := rfl
@[simp] theorem Group.popDivs_lflags (g : Group)  : (g.popDivs).lflags = g.lflags := rfl
@[simp] theorem Group.popDivs_pc (g : Group)  : (g.popDivs).pc = g.pc := rfl
@[simp] theorem Group.popDivs_exited (g : Group)  : (g.popDivs).exited = g.exited := rfl
@[simp] theorem Group.popDivs_strands (g : Group)  : (g.popDivs).strands = g.strands := rfl
@[simp] theorem Group.popDivs_loops (g : Group)  : (g.popDivs).loops = g.loops := rfl
@[simp] theorem Group.popDivs_ws (g : Group)  : (g.popDivs).ws = g.ws := rfl
@[simp] theorem Group.popDivs_resume (g : Group)  : (g.popDivs).resume = g.resume := rfl
@[simp] theorem Group.popDivs_kept (g : Group)  : (g.popDivs).kept = g.kept := rfl
@[simp] theorem Group.popDivs_returned (g : Group)  : (g.popDivs).returned = g.returned := rfl
@[simp] theorem Group.popDivs_placement (g : Group)  : (g.popDivs).placement = g.placement := rfl
@[simp] theorem Group.popDivs_log (g : Group)  : (g.popDivs).log = g.log := rfl
@[simp] theorem Group.popDivs_replay (g : Group)  : (g.popDivs).replay = g.replay := rfl
@[simp] theorem Group.popDivs_consumed (g : Group)  : (g.popDivs).consumed = g.consumed := rfl
@[simp] theorem Group.popDivs_trap (g : Group)  : (g.popDivs).trap = g.trap := rfl
@[simp] theorem Group.popDivs_waits (g : Group)  : (g.popDivs).waits = g.waits := rfl
@[simp] theorem Group.popDivs_deferred (g : Group)  : (g.popDivs).deferred = g.deferred := rfl
@[simp] theorem Group.popDivs_passEnd (g : Group)  : (g.popDivs).passEnd = g.passEnd := rfl

@[simp] theorem Group.park_regs (g : Group) (m : LaneMask) : (g.park m).regs = g.regs := rfl
@[simp] theorem Group.park_empty (g : Group) (m : LaneMask) : (g.park m).empty = g.empty := rfl
@[simp] theorem Group.park_xbase (g : Group) (m : LaneMask) : (g.park m).xbase = g.xbase := rfl
@[simp] theorem Group.park_xlimit (g : Group) (m : LaneMask) : (g.park m).xlimit = g.xlimit := rfl
@[simp] theorem Group.park_xoff (g : Group) (m : LaneMask) : (g.park m).xoff = g.xoff := rfl
@[simp] theorem Group.park_kval (g : Group) (m : LaneMask) : (g.park m).kval = g.kval := rfl
@[simp] theorem Group.park_kdef (g : Group) (m : LaneMask) : (g.park m).kdef = g.kdef := rfl
@[simp] theorem Group.park_lflags (g : Group) (m : LaneMask) : (g.park m).lflags = g.lflags := rfl
@[simp] theorem Group.park_pc (g : Group) (m : LaneMask) : (g.park m).pc = g.pc := rfl
@[simp] theorem Group.park_exited (g : Group) (m : LaneMask) : (g.park m).exited = g.exited := rfl
@[simp] theorem Group.park_strands (g : Group) (m : LaneMask) : (g.park m).strands = g.strands := rfl
@[simp] theorem Group.park_loops (g : Group) (m : LaneMask) : (g.park m).loops = g.loops := rfl
@[simp] theorem Group.park_ws (g : Group) (m : LaneMask) : (g.park m).ws = g.ws := rfl
@[simp] theorem Group.park_resume (g : Group) (m : LaneMask) : (g.park m).resume = g.resume := rfl
@[simp] theorem Group.park_kept (g : Group) (m : LaneMask) : (g.park m).kept = g.kept := rfl
@[simp] theorem Group.park_returned (g : Group) (m : LaneMask) : (g.park m).returned = g.returned := rfl
@[simp] theorem Group.park_placement (g : Group) (m : LaneMask) : (g.park m).placement = g.placement := rfl
@[simp] theorem Group.park_log (g : Group) (m : LaneMask) : (g.park m).log = g.log := rfl
@[simp] theorem Group.park_replay (g : Group) (m : LaneMask) : (g.park m).replay = g.replay := rfl
@[simp] theorem Group.park_consumed (g : Group) (m : LaneMask) : (g.park m).consumed = g.consumed := rfl
@[simp] theorem Group.park_trap (g : Group) (m : LaneMask) : (g.park m).trap = g.trap := rfl
@[simp] theorem Group.park_waits (g : Group) (m : LaneMask) : (g.park m).waits = g.waits := rfl
@[simp] theorem Group.park_deferred (g : Group) (m : LaneMask) : (g.park m).deferred = g.deferred := rfl
@[simp] theorem Group.park_passEnd (g : Group) (m : LaneMask) : (g.park m).passEnd = g.passEnd := rfl

@[simp] theorem Group.dropEmpty_regs (g : Group)  : (g.dropEmpty).regs = g.regs := rfl
@[simp] theorem Group.dropEmpty_empty (g : Group)  : (g.dropEmpty).empty = g.empty := rfl
@[simp] theorem Group.dropEmpty_xbase (g : Group)  : (g.dropEmpty).xbase = g.xbase := rfl
@[simp] theorem Group.dropEmpty_xlimit (g : Group)  : (g.dropEmpty).xlimit = g.xlimit := rfl
@[simp] theorem Group.dropEmpty_xoff (g : Group)  : (g.dropEmpty).xoff = g.xoff := rfl
@[simp] theorem Group.dropEmpty_kval (g : Group)  : (g.dropEmpty).kval = g.kval := rfl
@[simp] theorem Group.dropEmpty_kdef (g : Group)  : (g.dropEmpty).kdef = g.kdef := rfl
@[simp] theorem Group.dropEmpty_lflags (g : Group)  : (g.dropEmpty).lflags = g.lflags := rfl
@[simp] theorem Group.dropEmpty_pc (g : Group)  : (g.dropEmpty).pc = g.pc := rfl
@[simp] theorem Group.dropEmpty_exited (g : Group)  : (g.dropEmpty).exited = g.exited := rfl
@[simp] theorem Group.dropEmpty_divs (g : Group)  : (g.dropEmpty).divs = g.divs := rfl
@[simp] theorem Group.dropEmpty_loops (g : Group)  : (g.dropEmpty).loops = g.loops := rfl
@[simp] theorem Group.dropEmpty_ws (g : Group)  : (g.dropEmpty).ws = g.ws := rfl
@[simp] theorem Group.dropEmpty_resume (g : Group)  : (g.dropEmpty).resume = g.resume := rfl
@[simp] theorem Group.dropEmpty_kept (g : Group)  : (g.dropEmpty).kept = g.kept := rfl
@[simp] theorem Group.dropEmpty_returned (g : Group)  : (g.dropEmpty).returned = g.returned := rfl
@[simp] theorem Group.dropEmpty_placement (g : Group)  : (g.dropEmpty).placement = g.placement := rfl
@[simp] theorem Group.dropEmpty_log (g : Group)  : (g.dropEmpty).log = g.log := rfl
@[simp] theorem Group.dropEmpty_replay (g : Group)  : (g.dropEmpty).replay = g.replay := rfl
@[simp] theorem Group.dropEmpty_consumed (g : Group)  : (g.dropEmpty).consumed = g.consumed := rfl
@[simp] theorem Group.dropEmpty_trap (g : Group)  : (g.dropEmpty).trap = g.trap := rfl
@[simp] theorem Group.dropEmpty_waits (g : Group)  : (g.dropEmpty).waits = g.waits := rfl
@[simp] theorem Group.dropEmpty_deferred (g : Group)  : (g.dropEmpty).deferred = g.deferred := rfl
@[simp] theorem Group.dropEmpty_passEnd (g : Group)  : (g.dropEmpty).passEnd = g.passEnd := rfl

@[simp] theorem Group.note_regs (g : Group) (e : RecEntry) : (g.note e).regs = g.regs := rfl
@[simp] theorem Group.note_empty (g : Group) (e : RecEntry) : (g.note e).empty = g.empty := rfl
@[simp] theorem Group.note_xbase (g : Group) (e : RecEntry) : (g.note e).xbase = g.xbase := rfl
@[simp] theorem Group.note_xlimit (g : Group) (e : RecEntry) : (g.note e).xlimit = g.xlimit := rfl
@[simp] theorem Group.note_xoff (g : Group) (e : RecEntry) : (g.note e).xoff = g.xoff := rfl
@[simp] theorem Group.note_kval (g : Group) (e : RecEntry) : (g.note e).kval = g.kval := rfl
@[simp] theorem Group.note_kdef (g : Group) (e : RecEntry) : (g.note e).kdef = g.kdef := rfl
@[simp] theorem Group.note_lflags (g : Group) (e : RecEntry) : (g.note e).lflags = g.lflags := rfl
@[simp] theorem Group.note_pc (g : Group) (e : RecEntry) : (g.note e).pc = g.pc := rfl
@[simp] theorem Group.note_exited (g : Group) (e : RecEntry) : (g.note e).exited = g.exited := rfl
@[simp] theorem Group.note_strands (g : Group) (e : RecEntry) : (g.note e).strands = g.strands := rfl
@[simp] theorem Group.note_divs (g : Group) (e : RecEntry) : (g.note e).divs = g.divs := rfl
@[simp] theorem Group.note_loops (g : Group) (e : RecEntry) : (g.note e).loops = g.loops := rfl
@[simp] theorem Group.note_ws (g : Group) (e : RecEntry) : (g.note e).ws = g.ws := rfl
@[simp] theorem Group.note_resume (g : Group) (e : RecEntry) : (g.note e).resume = g.resume := rfl
@[simp] theorem Group.note_kept (g : Group) (e : RecEntry) : (g.note e).kept = g.kept := rfl
@[simp] theorem Group.note_returned (g : Group) (e : RecEntry) : (g.note e).returned = g.returned := rfl
@[simp] theorem Group.note_placement (g : Group) (e : RecEntry) : (g.note e).placement = g.placement := rfl
@[simp] theorem Group.note_replay (g : Group) (e : RecEntry) : (g.note e).replay = g.replay := rfl
@[simp] theorem Group.note_consumed (g : Group) (e : RecEntry) : (g.note e).consumed = g.consumed := rfl
@[simp] theorem Group.note_trap (g : Group) (e : RecEntry) : (g.note e).trap = g.trap := rfl
@[simp] theorem Group.note_waits (g : Group) (e : RecEntry) : (g.note e).waits = g.waits := rfl
@[simp] theorem Group.note_deferred (g : Group) (e : RecEntry) : (g.note e).deferred = g.deferred := rfl
@[simp] theorem Group.note_passEnd (g : Group) (e : RecEntry) : (g.note e).passEnd = g.passEnd := rfl

@[simp] theorem Group.exitLanes_regs (g : Group) (m : LaneMask) : (g.exitLanes m).regs = g.regs := rfl
@[simp] theorem Group.exitLanes_empty (g : Group) (m : LaneMask) : (g.exitLanes m).empty = g.empty := rfl
@[simp] theorem Group.exitLanes_xbase (g : Group) (m : LaneMask) : (g.exitLanes m).xbase = g.xbase := rfl
@[simp] theorem Group.exitLanes_xlimit (g : Group) (m : LaneMask) : (g.exitLanes m).xlimit = g.xlimit := rfl
@[simp] theorem Group.exitLanes_xoff (g : Group) (m : LaneMask) : (g.exitLanes m).xoff = g.xoff := rfl
@[simp] theorem Group.exitLanes_kval (g : Group) (m : LaneMask) : (g.exitLanes m).kval = g.kval := rfl
@[simp] theorem Group.exitLanes_kdef (g : Group) (m : LaneMask) : (g.exitLanes m).kdef = g.kdef := rfl
@[simp] theorem Group.exitLanes_lflags (g : Group) (m : LaneMask) : (g.exitLanes m).lflags = g.lflags := rfl
@[simp] theorem Group.exitLanes_pc (g : Group) (m : LaneMask) : (g.exitLanes m).pc = g.pc := rfl
@[simp] theorem Group.exitLanes_strands (g : Group) (m : LaneMask) : (g.exitLanes m).strands = g.strands := rfl
@[simp] theorem Group.exitLanes_divs (g : Group) (m : LaneMask) : (g.exitLanes m).divs = g.divs := rfl
@[simp] theorem Group.exitLanes_loops (g : Group) (m : LaneMask) : (g.exitLanes m).loops = g.loops := rfl
@[simp] theorem Group.exitLanes_ws (g : Group) (m : LaneMask) : (g.exitLanes m).ws = g.ws := rfl
@[simp] theorem Group.exitLanes_resume (g : Group) (m : LaneMask) : (g.exitLanes m).resume = g.resume := rfl
@[simp] theorem Group.exitLanes_kept (g : Group) (m : LaneMask) : (g.exitLanes m).kept = g.kept := rfl
@[simp] theorem Group.exitLanes_returned (g : Group) (m : LaneMask) : (g.exitLanes m).returned = g.returned := rfl
@[simp] theorem Group.exitLanes_placement (g : Group) (m : LaneMask) : (g.exitLanes m).placement = g.placement := rfl
@[simp] theorem Group.exitLanes_log (g : Group) (m : LaneMask) : (g.exitLanes m).log = g.log := rfl
@[simp] theorem Group.exitLanes_replay (g : Group) (m : LaneMask) : (g.exitLanes m).replay = g.replay := rfl
@[simp] theorem Group.exitLanes_consumed (g : Group) (m : LaneMask) : (g.exitLanes m).consumed = g.consumed := rfl
@[simp] theorem Group.exitLanes_trap (g : Group) (m : LaneMask) : (g.exitLanes m).trap = g.trap := rfl
@[simp] theorem Group.exitLanes_waits (g : Group) (m : LaneMask) : (g.exitLanes m).waits = g.waits := rfl
@[simp] theorem Group.exitLanes_deferred (g : Group) (m : LaneMask) : (g.exitLanes m).deferred = g.deferred := rfl
@[simp] theorem Group.exitLanes_passEnd (g : Group) (m : LaneMask) : (g.exitLanes m).passEnd = g.passEnd := rfl

@[simp] theorem Group.transfer_regs (g : Group) (ts : List (Nat × Addr)) : (g.transfer ts).regs = g.regs := rfl
@[simp] theorem Group.transfer_empty (g : Group) (ts : List (Nat × Addr)) : (g.transfer ts).empty = g.empty := rfl
@[simp] theorem Group.transfer_xbase (g : Group) (ts : List (Nat × Addr)) : (g.transfer ts).xbase = g.xbase := rfl
@[simp] theorem Group.transfer_xlimit (g : Group) (ts : List (Nat × Addr)) : (g.transfer ts).xlimit = g.xlimit := rfl
@[simp] theorem Group.transfer_xoff (g : Group) (ts : List (Nat × Addr)) : (g.transfer ts).xoff = g.xoff := rfl
@[simp] theorem Group.transfer_kval (g : Group) (ts : List (Nat × Addr)) : (g.transfer ts).kval = g.kval := rfl
@[simp] theorem Group.transfer_kdef (g : Group) (ts : List (Nat × Addr)) : (g.transfer ts).kdef = g.kdef := rfl
@[simp] theorem Group.transfer_lflags (g : Group) (ts : List (Nat × Addr)) : (g.transfer ts).lflags = g.lflags := rfl
@[simp] theorem Group.transfer_exited (g : Group) (ts : List (Nat × Addr)) : (g.transfer ts).exited = g.exited := rfl
@[simp] theorem Group.transfer_strands (g : Group) (ts : List (Nat × Addr)) : (g.transfer ts).strands = g.strands := rfl
@[simp] theorem Group.transfer_divs (g : Group) (ts : List (Nat × Addr)) : (g.transfer ts).divs = g.divs := rfl
@[simp] theorem Group.transfer_ws (g : Group) (ts : List (Nat × Addr)) : (g.transfer ts).ws = g.ws := rfl
@[simp] theorem Group.transfer_resume (g : Group) (ts : List (Nat × Addr)) : (g.transfer ts).resume = g.resume := rfl
@[simp] theorem Group.transfer_kept (g : Group) (ts : List (Nat × Addr)) : (g.transfer ts).kept = g.kept := rfl
@[simp] theorem Group.transfer_returned (g : Group) (ts : List (Nat × Addr)) : (g.transfer ts).returned = g.returned := rfl
@[simp] theorem Group.transfer_placement (g : Group) (ts : List (Nat × Addr)) : (g.transfer ts).placement = g.placement := rfl
@[simp] theorem Group.transfer_log (g : Group) (ts : List (Nat × Addr)) : (g.transfer ts).log = g.log := rfl
@[simp] theorem Group.transfer_replay (g : Group) (ts : List (Nat × Addr)) : (g.transfer ts).replay = g.replay := rfl
@[simp] theorem Group.transfer_consumed (g : Group) (ts : List (Nat × Addr)) : (g.transfer ts).consumed = g.consumed := rfl
@[simp] theorem Group.transfer_trap (g : Group) (ts : List (Nat × Addr)) : (g.transfer ts).trap = g.trap := rfl
@[simp] theorem Group.transfer_waits (g : Group) (ts : List (Nat × Addr)) : (g.transfer ts).waits = g.waits := rfl
@[simp] theorem Group.transfer_deferred (g : Group) (ts : List (Nat × Addr)) : (g.transfer ts).deferred = g.deferred := rfl
@[simp] theorem Group.transfer_passEnd (g : Group) (ts : List (Nat × Addr)) : (g.transfer ts).passEnd = g.passEnd := rfl

end Sys2Proof.Machine
end

