-- ==== Sys2Proof/Laws/Table.lean ====
section
/-! SUPPORT. Sparse tables: a read after a write, and the canonical form that every write keeps. -/

namespace Sys2Proof.Tbl

variable {α : Type}

/-- Every key of the table lies above `k`. -/
def above (k : Nat) (t : Tbl α) : Prop := ∀ e ∈ t, k < e.1

/-- Keys strictly rise, by recursion on the table. -/
theorem sorted_cons (e : Nat × α) (t : Tbl α) : sorted (e :: t) = true ↔ above e.1 t ∧ sorted t = true := by
  obtain ⟨k, v⟩ := e
  induction t generalizing k v with
  | nil => simp [sorted, above]
  | cons f t ih =>
    obtain ⟨j, w⟩ := f
    simp only [sorted, Bool.and_eq_true, decide_eq_true_eq]
    constructor
    · rintro ⟨h, hs⟩
      refine ⟨?_, hs⟩
      intro e he
      rcases List.mem_cons.1 he with rfl | he
      · exact h
      · exact Nat.lt_trans h (((ih j w).1 hs).1 e he)
    · rintro ⟨h, hs⟩
      exact ⟨h _ (List.mem_cons_self ..), hs⟩

@[simp] theorem sorted_nil : sorted ([] : Tbl α) = true := rfl

/-! ### Reads after writes -/

@[simp] theorem find?_nil (k : Nat) : find? ([] : Tbl α) k = none := rfl

/-- Below every key nothing is listed. -/
theorem find?_above {t : Tbl α} {k j : Nat} (h : above k t) (hj : j ≤ k) : find? t j = none := by
  induction t with
  | nil => rfl
  | cons e t ih =>
    have := h e (List.mem_cons_self ..)
    rw [find?, if_neg (by omega)]
    exact ih (fun x hx => h x (List.mem_cons_of_mem _ hx))

/-- A read after `put`. -/
theorem find?_put (t : Tbl α) (k j : Nat) (v : α) :
    find? (put t k v) j = if j = k then some v else find? t j := by
  induction t with
  | nil => simp [put, find?]
  | cons e t ih =>
    obtain ⟨i, w⟩ := e
    simp only [put]
    split
    · simp [find?]
    · split
      · subst k
        simp only [find?]
        by_cases hj : j = i <;> simp [hj]
      · simp only [find?, ih]
        by_cases hj : j = k
        · subst hj; simp; omega
        · simp [hj]

/-- A read after `del`. -/
theorem find?_del (t : Tbl α) (k j : Nat) : find? (del t k) j = if j = k then none else find? t j := by
  induction t with
  | nil => simp [del]
  | cons e t ih =>
    obtain ⟨i, w⟩ := e
    simp only [del] at ih ⊢
    by_cases hi : i = k
    · subst hi
      rw [List.filter_cons_of_neg (by simp), ih]
      by_cases hj : j = i <;> simp [find?, hj]
    · rw [List.filter_cons_of_pos (by simp [hi])]
      simp only [find?, ih]
      by_cases hj : j = k
      · subst hj; simp; omega
      · simp [hj]

/-- A read after a write to the table: the value written, and every other key as before. -/
theorem get_set [DecidableEq α] (d : α) (t : Tbl α) (k j : Nat) (v : α) :
    get d (set d t k v) j = if j = k then v else get d t j := by
  unfold get set
  split
  · subst v; rw [find?_del]; split <;> simp
  · rw [find?_put]; split <;> simp

@[simp] theorem get_set_self [DecidableEq α] (d : α) (t : Tbl α) (k : Nat) (v : α) : get d (set d t k v) k = v := by
  rw [get_set, if_pos rfl]

theorem get_set_ne [DecidableEq α] (d : α) (t : Tbl α) {k j : Nat} (h : j ≠ k) (v : α) :
    get d (set d t k v) j = get d t j := by
  rw [get_set, if_neg h]

@[simp] theorem get_nil (d : α) (k : Nat) : get d ([] : Tbl α) k = d := rfl

/-! ### The canonical form -/

theorem mem_put {t : Tbl α} {k : Nat} {v : α} {e : Nat × α} (h : e ∈ put t k v) : e = (k, v) ∨ e ∈ t := by
  induction t with
  | nil => simpa [put] using h
  | cons f t ih =>
    obtain ⟨i, w⟩ := f
    simp only [put] at h
    split at h
    · simpa using h
    · split at h
      · rcases List.mem_cons.1 h with h | h
        · exact .inl h
        · exact .inr (List.mem_cons_of_mem _ h)
      · rcases List.mem_cons.1 h with h | h
        · exact .inr (h ▸ List.mem_cons_self ..)
        · rcases ih h with h | h
          · exact .inl h
          · exact .inr (List.mem_cons_of_mem _ h)

theorem mem_del {t : Tbl α} {k : Nat} {e : Nat × α} (h : e ∈ del t k) : e ∈ t := (List.mem_filter.1 h).1

theorem sorted_put {t : Tbl α} (hs : sorted t = true) (k : Nat) (v : α) : sorted (put t k v) = true := by
  induction t with
  | nil => rfl
  | cons f t ih =>
    obtain ⟨i, w⟩ := f
    obtain ⟨ha, hs'⟩ := (sorted_cons _ _).1 hs
    simp only [put]
    split
    · rename_i h
      refine (sorted_cons _ _).2 ⟨?_, hs⟩
      intro e he
      rcases List.mem_cons.1 he with rfl | he
      · exact h
      · exact Nat.lt_trans h (ha e he)
    · split
      · rename_i h; subst h; exact (sorted_cons _ _).2 ⟨ha, hs'⟩
      · refine (sorted_cons _ _).2 ⟨?_, ih hs'⟩
        intro e he
        rcases mem_put he with rfl | he
        · show i < k; omega
        · exact ha e he

theorem sorted_filter {t : Tbl α} (hs : sorted t = true) (p : Nat × α → Bool) : sorted (t.filter p) = true := by
  induction t with
  | nil => rfl
  | cons f t ih =>
    obtain ⟨ha, hs'⟩ := (sorted_cons _ _).1 hs
    rw [List.filter_cons]
    split
    · exact (sorted_cons _ _).2 ⟨fun e he => ha e (List.mem_filter.1 he).1, ih hs'⟩
    · exact ih hs'

theorem sorted_del {t : Tbl α} (hs : sorted t = true) (k : Nat) : sorted (del t k) = true := sorted_filter hs _

theorem sorted_set [DecidableEq α] {d : α} {t : Tbl α} (hs : sorted t = true) (k : Nat) (v : α) :
    sorted (set d t k v) = true := by
  unfold set; split <;> [exact sorted_del hs k; exact sorted_put hs k v]

theorem wf_iff [DecidableEq α] {d : α} {t : Tbl α} : wf d t = true ↔ sorted t = true ∧ ∀ e ∈ t, e.2 ≠ d := by
  simp [wf]

@[simp] theorem wf_nil [DecidableEq α] (d : α) : wf d ([] : Tbl α) = true := rfl

/-- Every write keeps the canonical form. -/
theorem wf_set [DecidableEq α] {d : α} {t : Tbl α} (h : wf d t = true) (k : Nat) (v : α) :
    wf d (set d t k v) = true := by
  obtain ⟨hs, hn⟩ := wf_iff.1 h
  refine wf_iff.2 ⟨sorted_set hs k v, ?_⟩
  intro e he
  unfold set at he
  split at he
  · exact hn e (mem_del he)
  · rename_i hv
    rcases mem_put he with rfl | he
    · exact hv
    · exact hn e he

/-- Removing entries keeps the canonical form. -/
theorem wf_filter [DecidableEq α] {d : α} {t : Tbl α} (h : wf d t = true) (p : Nat × α → Bool) :
    wf d (t.filter p) = true := by
  obtain ⟨hs, hn⟩ := wf_iff.1 h
  exact wf_iff.2 ⟨sorted_filter hs p, fun e he => hn e (List.mem_filter.1 he).1⟩

/-- Two canonical tables that read alike are the same data. -/
theorem ext_of_get [DecidableEq α] {d : α} {t u : Tbl α} (ht : wf d t = true) (hu : wf d u = true)
    (h : ∀ k, get d t k = get d u k) : t = u := by
  have hf : ∀ k, find? t k = find? u k := by
    have aux : ∀ {t : Tbl α}, wf d t = true → ∀ k v, find? t k = some v → v ≠ d := by
      intro t ht k v hv
      have hn := (wf_iff.1 ht).2
      clear ht h
      induction t with
      | nil => simp at hv
      | cons e t ih =>
        obtain ⟨i, w⟩ := e
        simp only [find?] at hv
        split at hv
        · injection hv with hv; subst hv; exact hn _ (List.mem_cons_self ..)
        · exact ih hv (fun e he => hn e (List.mem_cons_of_mem _ he))
    intro k
    have hk := h k
    unfold get at hk
    cases h1 : find? t k with
    | none =>
      cases h2 : find? u k with
      | none => rfl
      | some v => simp [h1, h2] at hk; exact absurd hk.symm (aux hu k v h2)
    | some w =>
      cases h2 : find? u k with
      | none => simp [h1, h2] at hk; exact absurd hk (aux ht k w h1)
      | some v => simpa [h1, h2] using hk
  have hst := (wf_iff.1 ht).1
  have hsu := (wf_iff.1 hu).1
  clear ht hu h
  induction t generalizing u with
  | nil =>
    cases u with
    | nil => rfl
    | cons e u => have := hf e.1; simp [find?] at this
  | cons e t ih =>
    obtain ⟨i, w⟩ := e
    cases u with
    | nil => have := hf i; simp [find?] at this
    | cons f u =>
      obtain ⟨j, x⟩ := f
      obtain ⟨ha, hs⟩ := (sorted_cons _ _).1 hst
      obtain ⟨hb, hs'⟩ := (sorted_cons _ _).1 hsu
      have hi := hf i
      have hj := hf j
      simp only [find?, if_true] at hi hj
      have hij : i = j := by
        by_contra hne
        rw [if_neg hne] at hi
        rw [if_neg (Ne.symm hne)] at hj
        rcases Nat.lt_or_gt_of_ne hne with hlt | hlt
        · rw [find?_above hb (Nat.le_of_lt hlt)] at hi; simp at hi
        · rw [find?_above ha (Nat.le_of_lt hlt)] at hj; simp at hj
      subst hij
      simp at hi
      subst hi
      congr 1
      refine ih (fun k => ?_) hs hs'
      rcases Nat.lt_trichotomy k i with hk | hk | hk
      · rw [find?_above ha (Nat.le_of_lt hk), find?_above hb (Nat.le_of_lt hk)]
      · subst hk; rw [find?_above ha (Nat.le_refl _), find?_above hb (Nat.le_refl _)]
      · have := hf k
        simp only [find?] at this
        simpa [Nat.ne_of_gt hk] using this

end Sys2Proof.Tbl
end

