-- ==== Sys2Proof/Laws/Access.lean ====
section
/-! SUPPORT. What each accessor of the state reads after each update: the record changed, and every other as before. -/

namespace Sys2Proof.Machine

open Sys2Proof

/-! ### Records by number -/

theorem State.world_modWorld (s : State) (w v : Nat) (f : World → World) :
    (s.modWorld w f).world v = if v = w then f (s.world w) else s.world v := Tbl.get_set _ _ _ _ _
theorem State.part_modPart (s : State) (p q : Nat) (f : Partition → Partition) :
    (s.modPart p f).part q = if q = p then f (s.part p) else s.part q := Tbl.get_set _ _ _ _ _
theorem State.core_modCore (s : State) (c d : Nat) (f : Core → Core) :
    (s.modCore c f).core d = if d = c then f (s.core c) else s.core d := Tbl.get_set _ _ _ _ _
theorem State.comp_modComp (s : State) (c d : Nat) (f : Compart → Compart) :
    (s.modComp c f).comp d = if d = c then f (s.comp c) else s.comp d := Tbl.get_set _ _ _ _ _

@[simp] theorem State.world_modWorld_self (s : State) (w : Nat) (f : World → World) : (s.modWorld w f).world w = f (s.world w) := by
  rw [State.world_modWorld, if_pos rfl]
@[simp] theorem State.part_modPart_self (s : State) (p : Nat) (f : Partition → Partition) : (s.modPart p f).part p = f (s.part p) := by
  rw [State.part_modPart, if_pos rfl]
@[simp] theorem State.core_modCore_self (s : State) (c : Nat) (f : Core → Core) : (s.modCore c f).core c = f (s.core c) := by
  rw [State.core_modCore, if_pos rfl]
@[simp] theorem State.comp_modComp_self (s : State) (c : Nat) (f : Compart → Compart) : (s.modComp c f).comp c = f (s.comp c) := by
  rw [State.comp_modComp, if_pos rfl]

theorem State.line_setLine (s : State) (a b : Nat) (l : Line) :
    (s.setLine a l).line b = if b / 128 = a / 128 then l else s.line b := Tbl.get_set _ _ _ _ _

theorem Group.reg_setReg (g : Group) (r l q k : Nat) (w : Word) :
    (g.setReg r l w).reg q k = if 32 * q + k = 32 * r + l then w else g.reg q k := Tbl.get_set _ _ _ _ _

theorem Group.pcOf_setPcs (g : Group) (m : LaneMask) (a : Addr) (l : Nat) :
    (g.setPcs m a).pcOf l = if l ∈ lanesOf m then a else g.pcOf l := by
  show Tbl.get 0#64 ((lanesOf m).foldl (fun t l => Tbl.set 0#64 t l a) g.pc) l = _
  unfold Group.pcOf
  generalize lanesOf m = ls
  generalize g.pc = t
  induction ls generalizing t with
  | nil => simp
  | cons x ls ih => rw [List.foldl_cons, ih, Tbl.get_set]; by_cases h : l = x <;> simp [h]

/-- Two states with the same tables read alike. -/
theorem State.world_congr {s t : State} (h : s.worlds = t.worlds) (w : Nat) : s.world w = t.world w := by
  unfold State.world; rw [h]
theorem State.part_congr {s t : State} (h : s.parts = t.parts) (p : Nat) : s.part p = t.part p := by
  unfold State.part; rw [h]
theorem State.core_congr {s t : State} (h : s.cores = t.cores) (c : Nat) : s.core c = t.core c := by
  unfold State.core; rw [h]
theorem State.comp_congr {s t : State} (h : s.comps = t.comps) (c : Nat) : s.comp c = t.comp c := by
  unfold State.comp; rw [h]
theorem State.nodes_congr {s t : State} (h : s.parts = t.parts) : s.nodes = t.nodes := by unfold State.nodes; rw [h]
theorem State.node?_congr {s t : State} (h : s.parts = t.parts) (n : Nat) : s.node? n = t.node? n := by
  unfold State.node?; rw [State.nodes_congr h]
theorem State.team?_congr {s t : State} (h : s.teams = t.teams) (n : Nat) : s.team? n = t.team? n := by
  unfold State.team?; rw [h]

/-! ### Teams, nodes and launches by identity -/

/-- The first element that `p` finds, after a change that keeps what `p` sees. -/
theorem find?_map_of {α : Type} (p : α → Bool) (f : α → α) (hf : ∀ x, p (f x) = p x) (l : List α) :
    (l.map f).find? p = (l.find? p).map f := by
  induction l with
  | nil => rfl
  | cons x l ih => simp only [List.map_cons, List.find?_cons, hf]; split <;> simp [ih]

theorem State.team?_modTeam (s : State) (t u : Nat) (f : Team → Team) (hf : ∀ x, (f x).id = x.id) :
    (s.modTeam t f).team? u = (s.team? u).map (fun x => if x.id = t then f x else x) := by
  unfold State.team? State.modTeam
  apply find?_map_of
  intro x; split <;> simp [hf]

theorem State.team?_id {s : State} {t : Nat} {x : Team} (h : s.team? t = some x) : x.id = t := by
  unfold State.team? at h; simpa using List.find?_some h

theorem State.team?_modTeam_self (s : State) (t : Nat) (f : Team → Team) (hf : ∀ x, (f x).id = x.id) :
    (s.modTeam t f).team? t = (s.team? t).map f := by
  rw [s.team?_modTeam t t f hf]
  cases h : s.team? t with
  | none => rfl
  | some x => simp [State.team?_id h]

theorem State.node?_id {s : State} {n : Nat} {x : Node} (h : s.node? n = some x) : x.id = n := by
  unfold State.node? at h; simpa using List.find?_some h

/-- The nodes after a change of one node. -/
theorem State.nodes_modNode (s : State) (n : Nat) (f : Node → Node) :
    (s.modNode n f).nodes = s.nodes.map (fun x => if x.id = n then f x else x) := by
  simp only [State.nodes, State.modNode, List.flatMap_map, List.map_flatMap]

theorem State.node?_modNode (s : State) (n m : Nat) (f : Node → Node) (hf : ∀ x, (f x).id = x.id) :
    (s.modNode n f).node? m = (s.node? m).map (fun x => if x.id = n then f x else x) := by
  unfold State.node?
  rw [State.nodes_modNode]
  apply find?_map_of
  intro x; split <;> simp [hf]

theorem State.node?_modNode_self (s : State) (n : Nat) (f : Node → Node) (hf : ∀ x, (f x).id = x.id) :
    (s.modNode n f).node? n = (s.node? n).map f := by
  rw [s.node?_modNode n n f hf]
  cases h : s.node? n with
  | none => rfl
  | some x => simp [State.node?_id h]

theorem State.launches_modLaunch (s : State) (l : Nat) (f : Launch → Launch) :
    (s.modLaunch l f).launches = s.launches.map (fun x => if x.id = l then f x else x) := by
  simp only [State.launches, State.modLaunch, List.flatMap_map, List.map_flatMap]

@[simp] theorem State.launches_modNode (s : State) (n : Nat) (f : Node → Node) : (s.modNode n f).launches = s.launches := by
  simp only [State.launches, State.modNode, List.flatMap_map]

@[simp] theorem State.nodes_modLaunch (s : State) (l : Nat) (f : Launch → Launch) : (s.modLaunch l f).nodes = s.nodes := by
  simp only [State.nodes, State.modLaunch, List.flatMap_map]

theorem State.launch?_id {s : State} {l : Nat} {x : Launch} (h : s.launch? l = some x) : x.id = l := by
  unfold State.launch? at h; simpa using List.find?_some h

theorem State.launch?_modLaunch_self (s : State) (l : Nat) (f : Launch → Launch) (hf : ∀ x, (f x).id = x.id) :
    (s.modLaunch l f).launch? l = (s.launch? l).map f := by
  unfold State.launch?
  rw [State.launches_modLaunch, find?_map_of _ _ (by intro x; split <;> simp [hf])]
  cases h : s.launches.find? (fun x => decide (x.id = l)) with
  | none => rfl
  | some x =>
    have : x.id = l := by simpa using List.find?_some h
    simp [this]

end Sys2Proof.Machine
end

