-- ==== Sys2Proof/Laws/Encoding.lean ====
section
/-! SUPPORT. Each format's fields read back from its word: one lemma per code and per format (spec/03_encoding.md). -/

namespace Sys2Proof.Laws

open Sys2Proof

/-! ### Codes -/

@[simp] theorem b_getLsbD (x : Bool) : (Encode.b x).getLsbD 0 = x := by cases x <;> rfl
@[simp] theorem tyOf_ty (t : ElemTy) : Decode.tyOf (Encode.ty t) = t := by cases t <;> rfl
@[simp] theorem rndOf_rnd (r : Rnd) : Decode.rndOf (Encode.rnd r) = some r := by cases r <;> rfl
@[simp] theorem iselOf_isel (r : ISel) : Decode.iselOf (Encode.isel r) = r := by cases r <;> rfl
@[simp] theorem widthOf_width (r : Width) : Decode.widthOf (Encode.width r) = some r := by cases r <;> rfl
@[simp] theorem mscopeOf_mscope (r : MScope) : Decode.mscopeOf (Encode.mscope r) = r := by cases r <;> rfl
@[simp] theorem orderOf_order (r : MOrder) : Decode.orderOf (Encode.order r) = r := by cases r <;> rfl
@[simp] theorem hintOf_hint (r : Hint) : Decode.hintOf (Encode.hint r) = r := by cases r <;> rfl
@[simp] theorem modeOf_mode (r : MmaMode) : Decode.modeOf (Encode.mode r) = some r := by cases r <;> rfl

/-- SCOPE and SET read back. -/
theorem scopeOf_scope (sc : Scope) :
    Decode.scopeOf ((Encode.scope sc).extractLsb' 3 2) ((Encode.scope sc).extractLsb' 0 3) = some sc := by
  cases sc with
  | set n =>
    have h1 : (Encode.scope (.set n)).extractLsb' 3 2 = 2#2 := by
      simp only [Encode.scope]; rw [BitVec.extractLsb'_append_eq_of_le (by omega)]; simp
    have h2 : (Encode.scope (.set n)).extractLsb' 0 3 = n := by
      simp only [Encode.scope]; rw [BitVec.extractLsb'_append_eq_of_add_le (by omega)]; simp
    rw [h1, h2]; rfl
  | _ => rfl

/-- A bit of a word as a field of one bit. -/
theorem bit_eq (w : BitVec 96) (i : Nat) : Decode.bit w i = (w.extractLsb' i 1).getLsbD 0 := by
  simp [Decode.bit]

/-! ### Formats -/

/-- A field of the body of a word. -/
theorem field_word_lo (op : BitVec 9) (c : Common) (b : BitVec 75) (lo n : Nat) (h : lo + n ≤ 75) :
    Decode.field (Encode.word op c b) lo n = b.extractLsb' lo n := by
  unfold Decode.field Encode.word
  exact BitVec.extractLsb'_append_eq_of_add_le h

/-- The opcode of a word. -/
theorem opcode_word (op : BitVec 9) (c : Common) (b : BitVec 75) : Decode.field (Encode.word op c b) 87 9 = op := by
  simp only [Decode.field, Encode.word, Encode.common]
  simp (disch := decide) only [BitVec.extractLsb'_append_eq_of_le, Nat.sub_self, Nat.reduceSub]
  simp only [BitVec.extractLsb'_eq_self]

/-- The common fields of a word. -/
theorem commonOf_word (op : BitVec 9) (c : Common) (b : BitVec 75) : Decode.commonOf (Encode.word op c b) = some c := by
  obtain ⟨sc, w, q, l, pn, p⟩ := c
  have hs := scopeOf_scope sc
  unfold Decode.commonOf
  simp only [bit_eq, Decode.field, Encode.word, Encode.common]
  simp (disch := decide) only [BitVec.extractLsb'_append_eq_of_le, BitVec.extractLsb'_append_eq_of_add_le, Nat.sub_self,
    Nat.reduceSub]
  simp only [BitVec.extractLsb'_eq_self, b_getLsbD]
  rw [hs]; rfl

theorem fmtV_word (op : BitVec 9) (c : Common) (f : FmtV) : Decode.fmtV (Encode.word op c (Encode.v f)) = some f := by
  obtain ⟨⟩ := f
  unfold Decode.fmtV
  simp only [bit_eq]
  simp (disch := decide) only [Decode.field, Encode.word, Encode.v, BitVec.extractLsb'_append_eq_of_le,
    BitVec.extractLsb'_append_eq_of_add_le, Nat.sub_self, Nat.reduceSub]
  simp only [BitVec.extractLsb'_eq_self, b_getLsbD, tyOf_ty, rndOf_rnd, iselOf_isel, Option.map]

theorem fmtI_word (op : BitVec 9) (c : Common) (f : FmtI) : Decode.fmtI (Encode.word op c (Encode.i f)) = some f := by
  obtain ⟨⟩ := f
  unfold Decode.fmtI
  simp only [bit_eq]
  simp (disch := decide) only [Decode.field, Encode.word, Encode.i, BitVec.extractLsb'_append_eq_of_le,
    BitVec.extractLsb'_append_eq_of_add_le, Nat.sub_self, Nat.reduceSub]
  simp only [BitVec.extractLsb'_eq_self, b_getLsbD, tyOf_ty, rndOf_rnd, iselOf_isel, Option.map]

theorem fmtM_word (op : BitVec 9) (c : Common) (f : FmtM) : Decode.fmtM (Encode.word op c (Encode.m f)) = some f := by
  obtain ⟨⟩ := f
  unfold Decode.fmtM
  simp only [bit_eq]
  simp (disch := decide) only [Decode.field, Encode.word, Encode.m, BitVec.extractLsb'_append_eq_of_le,
    BitVec.extractLsb'_append_eq_of_add_le, Nat.sub_self, Nat.reduceSub]
  simp only [BitVec.extractLsb'_eq_self, b_getLsbD, widthOf_width, mscopeOf_mscope, orderOf_order, hintOf_hint, Option.map]

theorem fmtX_word (op : BitVec 9) (c : Common) (f : FmtX) : Decode.fmtX (Encode.word op c (Encode.x f)) = some f := by
  obtain ⟨⟩ := f
  unfold Decode.fmtX
  simp only [bit_eq]
  simp (disch := decide) only [Decode.field, Encode.word, Encode.x, BitVec.extractLsb'_append_eq_of_le,
    BitVec.extractLsb'_append_eq_of_add_le, Nat.sub_self, Nat.reduceSub]
  simp only [BitVec.extractLsb'_eq_self, b_getLsbD, tyOf_ty, modeOf_mode, Option.map, and_self, if_true]

theorem fmtC_word (op : BitVec 9) (c : Common) (f : FmtC) : Decode.fmtC (Encode.word op c (Encode.c f)) = f := by
  obtain ⟨⟩ := f
  unfold Decode.fmtC
  simp (disch := decide) only [Decode.field, Encode.word, Encode.c, BitVec.extractLsb'_append_eq_of_le,
    BitVec.extractLsb'_append_eq_of_add_le, Nat.sub_self, Nat.reduceSub]
  simp only [BitVec.extractLsb'_eq_self]

theorem fmtE_word (op : BitVec 9) (c : Common) (f : FmtE) : Decode.fmtE (Encode.word op c (Encode.e f)) = f := by
  obtain ⟨⟩ := f
  unfold Decode.fmtE
  simp (disch := decide) only [Decode.field, Encode.word, Encode.e, BitVec.extractLsb'_append_eq_of_le,
    BitVec.extractLsb'_append_eq_of_add_le, Nat.sub_self, Nat.reduceSub]
  simp only [BitVec.extractLsb'_eq_self]

theorem fmtR_word (op : BitVec 9) (c : Common) (f : FmtR) : Decode.fmtR (Encode.word op c (Encode.r f)) = f := by
  obtain ⟨⟩ := f
  unfold Decode.fmtR
  simp (disch := decide) only [Decode.field, Encode.word, Encode.r, BitVec.extractLsb'_append_eq_of_le,
    BitVec.extractLsb'_append_eq_of_add_le, Nat.sub_self, Nat.reduceSub]
  simp only [BitVec.extractLsb'_eq_self]

theorem fmtS_word (op : BitVec 9) (c : Common) (f : FmtS) : Decode.fmtS (Encode.word op c (Encode.s f)) = some f := by
  obtain ⟨⟩ := f
  unfold Decode.fmtS
  simp (disch := decide) only [Decode.field, Encode.word, Encode.s, BitVec.extractLsb'_append_eq_of_le,
    BitVec.extractLsb'_append_eq_of_add_le, Nat.sub_self, Nat.reduceSub]
  simp only [BitVec.extractLsb'_eq_self, if_true]

end Sys2Proof.Laws
end

