-- ==== Sys2Proof/Laws/Frames.lean ====
section
/-! SUPPORT. What an instruction's going on in sequence leaves alone: each operation on strands, records, loops, addresses
and resume points keeps a group but for its control (`Group.still`), and a state but for that of its groups. -/

namespace Sys2Proof.Machine

open Sys2Proof

/-! ### Groups -/

@[simp] theorem Group.still_still (g : Group) : g.still.still = g.still := rfl

@[simp] theorem Group.setPcs_still (g : Group) (m : LaneMask) (a : Addr) : (g.setPcs m a).still = g.still := rfl
@[simp] theorem Group.popDivs_still (g : Group) : g.popDivs.still = g.still := rfl
@[simp] theorem Group.park_still (g : Group) (m : LaneMask) : (g.park m).still = g.still := rfl
@[simp] theorem Group.dropEmpty_still (g : Group) : g.dropEmpty.still = g.still := rfl
@[simp] theorem Group.transfer_still (g : Group) (ts : List (Nat × Addr)) : (g.transfer ts).still = g.still := rfl
@[simp] theorem Group.note_still (g : Group) (e : RecEntry) : (g.note e).still = g.still := rfl

@[simp] theorem Group.fuseQuads_still (g : Group) (q : BitVec 8) : (g.fuseQuads q).still = g.still := by
  unfold Group.fuseQuads; dsimp only; split <;> rfl

@[simp] theorem Group.fuseAll_still (g : Group) : g.fuseAll.still = g.still := g.fuseQuads_still _

theorem Group.loopPass_still {g g' : Group} (h : g.loopPass = some g') : g'.still = g.still := by
  unfold Group.loopPass at h
  split at h
  · simp at h
  · dsimp only at h
    split at h
    · simp at h
    · split at h
      · split at h <;> (injection h with h; subst h)
        · exact (g.popDivs).fuseAll_still
        · exact (g.popDivs).fuseAll_still
      · injection h with h; subst h
        exact (g.popDivs).fuseAll_still

theorem Group.settleN_still (n : Nat) (m : LaneMask) (g : Group) : (Group.settleN n m g).still = g.still := by
  induction n generalizing m g with
  | zero => rfl
  | succ n ih =>
    simp only [Group.settleN]
    split
    · rw [ih, Group.fuseQuads_still]; rfl
    · split
      · rename_i h; rw [ih, Group.loopPass_still h]; rfl
      · rfl

@[simp] theorem Group.settle_still (g : Group) (m : LaneMask) : (g.settle m).still = g.still := by
  unfold Group.settle; rw [Group.settleN_still]; rfl

@[simp] theorem Group.land_still (g : Group) (m : LaneMask) (a n : Addr) : (g.land m a n).still = g.still := by
  unfold Group.land; dsimp only
  rw [Group.settle_still]
  split
  · rfl
  · split <;> rfl

@[simp] theorem Group.advance_still (g : Group) (m : LaneMask) (a : Addr) : (g.advance m a).still = g.still :=
  g.land_still m a _

@[simp] theorem Group.passResume_still (g : Group) (m : LaneMask) (a : Addr) : (g.passResume m a).still = g.still := by
  unfold Group.passResume; split <;> rfl

@[simp] theorem Group.passRegion_still (g : Group) (m : LaneMask) (a : Addr) : (g.passRegion m a).still = g.still := by
  exact (show _ = (g.passResume m a).still from rfl).trans (g.passResume_still m a)

@[simp] theorem Group.useRecord_still (g : Group) (m : LaneMask) (k : RecKind) (e : Option RecEntry) :
    (g.useRecord m k e).still = g.still := rfl

@[simp] theorem Group.leaveEnd_still (g : Group) (m : LaneMask) : (g.leaveEnd m).still = g.still := rfl

@[simp] theorem Group.issued_still (g : Group) (m : Member) (fuse pop : Bool) : (g.issued m fuse pop).still = g.still := by
  show Group.still (if pop then (if fuse then (g.leaveEnd m.at_).fuseAll else g.leaveEnd m.at_).popDivs
    else (if fuse then (g.leaveEnd m.at_).fuseAll else g.leaveEnd m.at_)) = _
  cases pop <;> cases fuse <;> simp

theorem Group.passResumes_still (ls : List Nat) (g : Group) :
    (ls.foldl (fun g l => g.passResume (1#32 <<< l) (g.pcOf l)) g).still = g.still := by
  induction ls generalizing g with
  | nil => rfl
  | cons l ls ih => rw [List.foldl_cons, ih, Group.passResume_still]

@[simp] theorem Group.goOn_still (g : Group) (m : Member) (a : Addr) (commit : Bool) : (g.goOn m a commit).still = g.still := by
  unfold Group.goOn
  dsimp only
  split
  · rw [Group.passResumes_still, Group.advance_still]
  · rw [Group.advance_still]

@[simp] theorem Group.branch_still (g : Group) (m : Member) (a : Addr) (ts : List (Nat × Addr)) :
    (g.branch m a ts).still = g.still := by
  unfold Group.branch; simp

@[simp] theorem Group.split_still (g : Group) (m : Member) (taken : LaneMask) (j : Addr) : (g.split m taken j).still = g.still := rfl

/-! ### States -/

theorem modNth_map {α β : Type} (f : α → α) (h : α → β) (hf : ∀ x, h (f x) = h x) (n : Nat) (l : List α) :
    (modNth f n l).map h = l.map h := by
  induction l generalizing n with
  | nil => cases n <;> rfl
  | cons x t ih => cases n <;> simp [modNth, hf, ih]

/-- A change of a group's control leaves the team but for control. -/
theorem Team.modGroup_still (t : Team) (g : Nat) (f : Group → Group) (hf : ∀ x, (f x).still = x.still) :
    (t.modGroup g f).still = t.still := by
  show ({ t with groups := (modNth f g t.groups).map Group.still } : Team) = { t with groups := t.groups.map Group.still }
  rw [modNth_map f Group.still hf]

/-- A change of a team that keeps its id and all but control leaves the state but for control. -/
theorem State.modTeam_still (s : State) (t : Nat) (f : Team → Team) (hid : ∀ x, (f x).id = x.id)
    (hf : ∀ x, (f x).still = x.still) : (s.modTeam t f).still t = s.still t := by
  simp only [State.still, State.modTeam, List.map_map]
  congr 1
  apply List.map_congr_left
  intro x _
  by_cases h : x.id = t <;> simp [h, hid, hf]

theorem State.modGroup_still (s : State) (t g : Nat) (f : Group → Group) (hf : ∀ x, (f x).still = x.still) :
    (s.modGroup t g f).still t = s.still t :=
  s.modTeam_still t _ (fun _ => rfl) (fun x => x.modGroup_still g f hf)

@[simp] theorem State.passSide_still (s : State) (t g : Nat) (m : LaneMask) (u : Nat) : (s.passSide t g m).still u = s.still u := by
  simp only [State.still, State.passSide, State.modGroupSide, List.map_map]
  congr 1
  apply List.map_congr_left
  intro e _
  simp only [Function.comp, Core.still, List.map_map]
  congr 2
  apply List.map_congr_left
  intro x _
  dsimp only [Function.comp]
  split <;> rfl

/-- A fold of changes each of which leaves the state but for control leaves it so. -/
theorem State.foldl_still {α : Type} (t : Nat) (f : State → α → State) (hf : ∀ s a, (f s a).still t = s.still t)
    (l : List α) (s : State) : (l.foldl f s).still t = s.still t := by
  induction l generalizing s with
  | nil => rfl
  | cons a l ih => rw [List.foldl_cons, ih, hf]

@[simp] theorem State.markIssued_still (s : State) (c : Ctx) (fuse pop : Bool) :
    (s.markIssued c fuse pop).still c.team.id = s.still c.team.id :=
  State.foldl_still _ _ (fun st m => st.modGroup_still _ _ _ (fun g => g.issued_still m fuse pop)) _ _

@[simp] theorem State.goOn_still (s : State) (c : Ctx) (commit : Bool) :
    (s.goOn c commit).still c.team.id = s.still c.team.id := by
  refine State.foldl_still _ _ (fun st m => ?_) _ _
  dsimp only
  split
  · rw [State.passSide_still]; exact st.modGroup_still _ _ _ (fun g => g.goOn_still m c.addr commit)
  · exact st.modGroup_still _ _ _ (fun g => g.goOn_still m c.addr commit)

@[simp] theorem State.arrive_still (s : State) (t g k : Nat) (a : Addr) (sc : Scope) :
    (s.arrive t g k a sc).still t = s.still t :=
  s.modGroup_still _ _ _ (fun _ => rfl)

@[simp] theorem State.branch_still (s : State) (c : Ctx) (m : Member) (ts : List (Nat × Addr)) :
    (s.branch c m ts).still c.team.id = s.still c.team.id := by
  unfold State.branch
  rw [State.modGroup_still _ _ _ _ (fun g => g.branch_still m c.addr ts), State.markIssued_still]

@[simp] theorem State.noteDone_still (s : State) (c : Ctx) (k : RecKind) (obj slot : Nat) (hit : Option (List (Member × RecEntry))) :
    (s.noteDone c k obj slot hit).still c.team.id = s.still c.team.id := by
  refine State.foldl_still _ _ (fun st m => st.modGroup_still _ _ _ (fun g => ?_)) _ _
  split <;> simp

/-- States that differ in control only have the same memory. -/
theorem State.mem_of_still {s s' : State} {t : Nat} (h : s'.still t = s.still t) : s'.mem = s.mem := by
  show (s'.still t).mem = (s.still t).mem
  rw [h]

theorem State.byte_of_still {s s' : State} {t : Nat} (h : s'.still t = s.still t) (a : Nat) : s'.byte a = s.byte a := by
  unfold State.byte; rw [State.mem_of_still h]

/-- An answer that differs from `e` in control only completes the instruction. -/
theorem Completes.of_still {i : Instr} {s e s' : State} {t : Nat} (h : exec i s = .next s') (hs : s'.still t = e.still t) :
    Completes i s t e := ⟨s', h, hs, State.byte_of_still hs⟩

end Sys2Proof.Machine
end

