-- ==== Sys2Proof/Laws/Issue.lean ====
section
/-! SUPPORT. What issuing an instruction comes to when its members have met: one lemma for each way its meaning can end. -/

namespace Sys2Proof.Machine

open Sys2Proof

/-- The strand that stands has its team, node, group and strand in the state. -/
theorem State.stand_spec {s : State} {c : Common} {t g k : Nat} {d : Stand} (h : s.stand c t g k = some d) :
    s.team? t = some d.team ∧ s.node? d.team.node = some d.node ∧ d.team.groups[g]? = some d.gr ∧
    d.gr.strands[k]? = some d.st ∧ d.gr.strandAddr d.st = some d.addr ∧ d.team.phase = .placed := by
  unfold State.stand at h
  split at h
  · simp at h
  rename_i tm htm
  split at h
  · rename_i n gr hn hgr
    split at h
    · simp at h
    rename_i st hst
    split at h
    · simp at h
    rename_i a ha
    split at h
    · simp at h
    rename_i hp
    injection h with h
    subst h
    refine ⟨htm, hn, hgr, hst, ha, ?_⟩
    by_contra hne
    exact hp (.inl hne)
  · simp at h

theorem State.stand_id {s : State} {c : Common} {t g k : Nat} {d : Stand} (h : s.stand c t g k = some d) : d.team.id = t :=
  State.team?_id (State.stand_spec h).1

/-- A context that has met is the team's of its state, and the arrival changes control only. -/
theorem State.meet_spec {s s1 : State} {c : Common} {t g k : Nat} {d : Stand} {x : Ctx}
    (hd : s.stand c t g k = some d) (h : s.meet c t g k d = (some x, s1)) :
    s1 = s.arrive t g k d.addr c.scope ∧ x.team.id = t ∧ x.node = d.node ∧ x.addr = d.addr ∧ x.wide = true ∧
    x.scope = trapScopeOf c.scope := by
  have hid := State.stand_id hd
  unfold State.meet at h
  dsimp only at h
  split at h
  · injection h with h1 h2
    injection h1 with h1
    subst h1 h2
    refine ⟨rfl, ?_, rfl, rfl, rfl, rfl⟩
    dsimp only
    cases ht : (s.arrive t g k d.addr c.scope).team? t with
    | none => simpa using hid
    | some tm => simpa using State.team?_id ht
  · simp at h

variable {s s1 : State} {c : Common} {md : Mode} {d : Stand} {x : Ctx}

/-- The arrival of an instruction that issues changes control only. -/
theorem Issues.still (h : Issues s c md.fuse d x s1) : s1.still x.team.id = s.still x.team.id := by
  obtain ⟨t, g, k, -, hd, -, -, hm⟩ := h.stands
  split at hm
  · obtain ⟨rfl, rfl⟩ := hm; rfl
  · obtain ⟨rfl, hx, -⟩ := State.meet_spec hd hm
    rw [hx]; exact State.arrive_still ..

/-- The members of an instruction that issues are those of the team's node. -/
theorem Issues.node (h : Issues s c md.fuse d x s1) : x.node = d.node ∧ x.addr = d.addr := by
  obtain ⟨t, g, k, -, hd, -, -, hm⟩ := h.stands
  split at hm
  · obtain ⟨rfl, rfl⟩ := hm; exact ⟨rfl, rfl⟩
  · obtain ⟨-, -, hn, ha, -⟩ := State.meet_spec hd hm; exact ⟨hn, ha⟩

/-- An instruction that issues, with legal fields and no undefined read, runs its meaning. -/
theorem Issues.runs (h : Issues s c md.fuse d x s1) {static : Node → Option TrapKind}
    {undef : Team → Node → Group → Nat → LaneMask → Bool} {body : Ctx → State → Res}
    {form : Node → Parcel → State → FormRes} (hs : static d.node = none)
    (hu : ∀ g, undef d.team d.node d.gr g d.act = false) :
    issue c md static undef body form s = .next (runCtx md body x s1) := by
  obtain ⟨t, g, k, hc, hd, hb, hg, hm⟩ := h.stands
  unfold issue
  rw [h.up, hc]
  simp only [Bool.false_eq_true, if_false, issueStrand, hd, hb, hs, hg, hu, or_self]
  congr 1
  split
  · rename_i hl
    rw [if_pos hl] at hm
    obtain ⟨rfl, rfl⟩ := hm; rfl
  · rename_i hl
    rw [if_neg hl] at hm
    rw [hm]

/-- Some lane is active, so those that were pass the resume point. -/
theorem Issues.passing (h : Issues s c md.fuse d x s1) : x.passing md = x := by
  obtain ⟨m, hm, ha⟩ := h.active
  refine if_neg ?_
  simp only [Bool.and_eq_true, List.all_eq_true, decide_eq_true_eq, not_and]
  exact fun _ hall => ha (hall m hm)

/-- Some lane is active, so the meaning decides. -/
theorem Issues.run (h : Issues s c md.fuse d x s1) (body : Ctx → State → Res) :
    runCtx md body x s1 = (match body x s1 with
      | .stall h s2 => s2.holdStrands x h
      | .trap k e code => s1.trapCtx x { kind := k, eaddr := e, code := code, deferred := false, scope := x.scope } hitLanes
      | .trapIn s2 k e => s2.trapCtx x { kind := k, eaddr := e, code := 0, deferred := false, scope := x.scope } hitLanes
      | .retire s2 => (s2.markIssued x x.wide ((x.wide && !md.fuse) || (md.fuse && md.pop))).goOn x md.commit
      | .moved s2 => s2) := by
  obtain ⟨m, hm, ha⟩ := h.active
  unfold runCtx
  rw [h.passing]
  refine (if_neg ?_).trans rfl
  simp only [Bool.and_eq_true, List.all_eq_true, decide_eq_true_eq, not_and]
  exact fun _ hall => ha (hall m hm)

/-- An instruction whose meaning retires in `e` answers a next state that differs from `e` in control only. -/
theorem Issues.retire (h : Issues s c md.fuse d x s1) {static : Node → Option TrapKind}
    {undef : Team → Node → Group → Nat → LaneMask → Bool} {body : Ctx → State → Res}
    {form : Node → Parcel → State → FormRes} {e : State} (hs : static d.node = none)
    (hu : ∀ g, undef d.team d.node d.gr g d.act = false) (hb : body x s1 = .retire e) :
    ∃ s', issue c md static undef body form s = .next s' ∧ s'.still x.team.id = e.still x.team.id := by
  refine ⟨_, h.runs hs hu, ?_⟩
  rw [h.run, hb]
  dsimp only
  rw [State.goOn_still, State.markIssued_still]

/-- An instruction whose meaning has moved its lanes answers the state that the meaning gives. -/
theorem Issues.moved (h : Issues s c md.fuse d x s1) {static : Node → Option TrapKind}
    {undef : Team → Node → Group → Nat → LaneMask → Bool} {body : Ctx → State → Res}
    {form : Node → Parcel → State → FormRes} {e : State} (hs : static d.node = none)
    (hu : ∀ g, undef d.team d.node d.gr g d.act = false) (hb : body x s1 = .moved e) :
    issue c md static undef body form s = .next e := by
  rw [h.runs hs hu, h.run, hb]

/-- An instruction whose meaning traps takes the trap. -/
theorem Issues.trap (h : Issues s c md.fuse d x s1) {static : Node → Option TrapKind}
    {undef : Team → Node → Group → Nat → LaneMask → Bool} {body : Ctx → State → Res}
    {form : Node → Parcel → State → FormRes} {k : TrapKind} {e : DWord} {code : BitVec 16} (hs : static d.node = none)
    (hu : ∀ g, undef d.team d.node d.gr g d.act = false) (hb : body x s1 = .trap k e code) :
    issue c md static undef body form s =
      .next (s1.trapCtx x { kind := k, eaddr := e, code := code, deferred := false, scope := x.scope } hitLanes) := by
  rw [h.runs hs hu, h.run, hb]

/-! ### Vector instructions -/

/-- A vector instruction that reads and writes what it may retires with its results delivered. -/
theorem VReady.body {o : VOp} (h : VReady o d x s1) : o.body x s1 = .retire (o.delivered x (o.results x s1) s1) := by
  unfold VOp.body
  have hl : (o.c.l && s1.latchBusy x o.lslot) = false := by
    cases hl : o.c.l
    · rfl
    · simpa using h.latch hl
  have hq : (decide (o.sends ≠ []) && !x.quiet s1) = false := by
    by_cases hs : o.sends = []
    · simp [hs]
    · simp [h.credit.2 hs]
  simp only [h.index, h.read, h.form, h.bound, h.full.1, h.full.2, hl, h.credit.1, hq, Bool.false_eq_true, if_false,
    Bool.or_false, Bool.not_true]

/-- A vector instruction completes with its results delivered. -/
theorem VOp.exec_delivered {o : VOp} (hi : Issues s o.c false d x s1) (h : VReady o d x s1) :
    ∃ s', o.exec s = .next s' ∧ s'.still x.team.id = (o.delivered x (o.results x s1) s1).still x.team.id :=
  Issues.retire (md := { commit := decide (o.sends ≠ []) }) hi h.fields (fun _ => h.defined) h.body

end Sys2Proof.Machine
end

