-- ==== Sys2Proof/Laws/Memory.lean ====
section
/-! SUPPORT. Memory: a read after a write, the canonical form that every memory operation keeps, and what the lines of the home
slice leave alone. -/

namespace Sys2Proof.Tbl

variable {α : Type}

/-- A read after the entries that fail `p`, a property of keys, are removed. -/
theorem find?_filter (t : Tbl α) (p : Nat → Bool) (k : Nat) :
    find? (t.filter (fun e => p e.1)) k = if p k then find? t k else none := by
  induction t with
  | nil => simp
  | cons e t ih =>
    obtain ⟨j, v⟩ := e
    by_cases hj : p j = true
    · rw [List.filter_cons_of_pos (by simpa using hj)]
      simp only [find?]
      by_cases hk : k = j
      · subst hk; simp [hj]
      · simp [hk, ih]
    · rw [List.filter_cons_of_neg (by simpa using hj)]
      simp only [find?]
      by_cases hk : k = j
      · subst hk; simp [hj, ih]
      · simp [hk, ih]

/-- A read after `delRange`. -/
theorem get_delRange (d : α) (t : Tbl α) (lo hi k : Nat) :
    get d (delRange t lo hi) k = if lo ≤ k ∧ k < hi then d else get d t k := by
  unfold get delRange
  rw [find?_filter t (fun j => decide (j < lo) || decide (hi ≤ j)) k]
  by_cases h : lo ≤ k ∧ k < hi
  · rw [if_pos h, if_neg (by simp; omega)]; rfl
  · rw [if_neg h, if_pos (by simp; omega)]

/-- A read of a slice. -/
theorem get_slice (d : α) (t : Tbl α) (lo hi k : Nat) :
    get d (slice t lo hi) k = if lo ≤ k ∧ k < hi then get d t k else d := by
  unfold get slice
  rw [find?_filter t (fun j => decide (lo ≤ j) && decide (j < hi)) k]
  by_cases h : lo ≤ k ∧ k < hi
  · rw [if_pos h, if_pos (by simp; omega)]
  · rw [if_neg h, if_neg (by simp; omega)]; rfl

theorem sorted_delRange {t : Tbl α} (h : sorted t = true) (lo hi : Nat) : sorted (delRange t lo hi) = true := sorted_filter h _
theorem wf_delRange [DecidableEq α] {d : α} {t : Tbl α} (h : wf d t = true) (lo hi : Nat) : wf d (delRange t lo hi) = true :=
  wf_filter h _
theorem sorted_modify {t : Tbl α} (h : sorted t = true) (k : Nat) (f : α → α) : sorted (modify t k f) = true := by
  unfold modify; split <;> [exact h; exact sorted_put h _ _]

/-- A map that keeps the keys keeps their order. -/
theorem sorted_map {β : Type} {t : Tbl α} (h : sorted t = true) (f : Nat × α → β) :
    sorted (t.map (fun e => (e.1, f e))) = true := by
  induction t with
  | nil => rfl
  | cons e t ih =>
    obtain ⟨ha, hs⟩ := (sorted_cons _ _).1 h
    refine (sorted_cons _ _).2 ⟨?_, ih hs⟩
    intro x hx
    obtain ⟨y, hy, rfl⟩ := List.mem_map.1 hx
    exact ha y hy

/-- Writing a list of entries keeps the canonical form. -/
theorem wf_foldl_set [DecidableEq α] {β : Type} {d : α} (k : β → Nat) (v : β → α) (l : List β) :
    ∀ {t : Tbl α}, wf d t = true → wf d (l.foldl (fun u e => set d u (k e) (v e)) t) = true := by
  induction l with
  | nil => exact fun h => h
  | cons e l ih => exact fun h => ih (wf_set h _ _)

end Sys2Proof.Tbl

namespace Sys2Proof.Machine

open Sys2Proof

/-! ### Bytes (R3) -/

@[simp] theorem natToBytes_length (n v : Nat) : (natToBytes n v).length = n := by
  induction n generalizing v with
  | zero => rfl
  | succ n ih => simp [natToBytes, ih]

theorem bytesToNat_natToBytes (n v : Nat) : bytesToNat (natToBytes n v) = v % 256 ^ n := by
  induction n generalizing v with
  | zero => simp [natToBytes, bytesToNat, Nat.mod_one]
  | succ n ih =>
    have hb : (BitVec.ofNat 8 v).toNat = v % 256 := BitVec.toNat_ofNat ..
    rw [natToBytes, bytesToNat, ih, hb, Nat.pow_succ', Nat.mod_mul]

theorem bytesToNat_lt (bs : List Byte) : bytesToNat bs < 256 ^ bs.length := by
  induction bs with
  | nil => simp [bytesToNat]
  | cons b t ih =>
    have := b.isLt
    simp only [bytesToNat, List.length_cons, Nat.pow_succ]
    omega

theorem natToBytes_bytesToNat (bs : List Byte) : natToBytes bs.length (bytesToNat bs) = bs := by
  induction bs with
  | nil => rfl
  | cons b t ih =>
    have hb := b.isLt
    simp only [List.length_cons, natToBytes, bytesToNat]
    rw [show (b.toNat + 256 * bytesToNat t) / 256 = bytesToNat t by omega, ih]
    congr 1
    apply BitVec.eq_of_toNat_eq
    simp only [BitVec.toNat_ofNat]
    omega

/-! ### The memory list -/

theorem putBytes_wf {m : Tbl Byte} (h : Memory.wf m = true) (a : Nat) (bs : List Byte) : Memory.wf (putBytes m a bs) = true := by
  induction bs generalizing m a with
  | nil => exact h
  | cons b t ih => exact ih (Tbl.wf_set h a b) (a + 1)

/-- A byte after a list of bytes is written: the list's, or as before. -/
theorem get_putBytes (m : Tbl Byte) (a : Nat) (bs : List Byte) (k : Nat) :
    Tbl.get 0#8 (putBytes m a bs) k = if a ≤ k ∧ k < a + bs.length then bs.getD (k - a) 0#8 else Tbl.get 0#8 m k := by
  induction bs generalizing m a with
  | nil => rw [if_neg (by simp)]; rfl
  | cons b t ih =>
    rw [putBytes, ih, Tbl.get_set, List.length_cons]
    by_cases h1 : k = a
    · subst h1; rw [if_neg (by omega), if_pos rfl, if_pos (by omega)]; simp
    · by_cases h2 : a + 1 ≤ k ∧ k < a + 1 + t.length
      · rw [if_pos h2, if_pos (by omega), show k - a = (k - (a + 1)) + 1 by omega]; rfl
      · rw [if_neg h2, if_neg h1, if_neg (by omega)]

/-- Bytes outside a write read as before; those written read as written. -/
theorem byte_write {s t : State} {a : Nat} {bs : List Byte} (h : t.mem = putBytes s.mem a bs) (k : Nat) :
    t.byte k = if a ≤ k ∧ k < a + bs.length then bs.getD (k - a) 0#8 else s.byte k := by
  unfold State.byte; rw [h, get_putBytes]

/-- A read of the bytes just written gives them back. -/
theorem bytes_write {s t : State} {a : Nat} {bs : List Byte} (h : t.mem = putBytes s.mem a bs) :
    t.bytes a bs.length = bs := by
  apply List.ext_getElem
  · simp [State.bytes]
  · intro i h1 h2
    simp only [State.bytes, List.getElem_map, List.getElem_range]
    rw [byte_write h, if_pos (by omega), show a + i - a = i by omega, List.getD_eq_getElem?_getD, List.getElem?_eq_getElem h2]
    rfl

/-! ### The home slice: only lines change -/

/-- Two states that differ at most in their lines, the nodes over them, their error log and the counters of corrections and pins. -/
def sameButLines (s t : State) : Prop :=
  { t with lines := s.lines, badNodes := s.badNodes, errorlog := s.errorlog, errseq := s.errseq, corrected := s.corrected, pinOver := s.pinOver } = s

theorem sameButLines.refl (s : State) : sameButLines s s := rfl
theorem sameButLines.trans {s t u : State} (h : sameButLines s t) (g : sameButLines t u) : sameButLines s u := by
  unfold sameButLines at *
  have := congrArg (fun x : State => ({ x with
    lines := s.lines, badNodes := s.badNodes, errorlog := s.errorlog, errseq := s.errseq, corrected := s.corrected, pinOver := s.pinOver } : State)) g
  exact this.trans h

theorem sameButLines.foldl {β : Type} {f : State → β → State} (hf : ∀ s x, sameButLines s (f s x)) (l : List β) (s : State) :
    sameButLines s (l.foldl f s) := by
  induction l generalizing s with
  | nil => exact .refl s
  | cons x l ih => exact (hf s x).trans (ih (f s x))

theorem setLine_same (s : State) (a : Nat) (l : Line) : sameButLines s (s.setLine a l) := rfl

theorem evictLine_same (s : State) (a : Nat) : sameButLines s (s.evictLine a) := by
  unfold State.evictLine
  dsimp only
  split
  · exact .refl s
  · split
    · rfl
    · split <;> rfl

theorem countError_same (s : State) (st : Storage) : sameButLines s (s.countError st) := rfl

theorem noteLine_same (s : State) (l : Line) (k : Option Nat) (a : Nat) : sameButLines s (s.noteLine l k a) := by
  unfold State.noteLine
  split
  · exact .refl s
  · split
    · rfl
    · split
      · exact .refl s
      · exact sameButLines.foldl (fun st _ => countError_same st _) _ _

theorem fixNodes_same (s : State) (a n : Nat) : sameButLines s (s.fixNodes a n) := rfl

theorem pinLine_same (s : State) (home : BitVec 2) (a : Nat) : sameButLines s (s.pinLine home a) := by
  unfold State.pinLine
  split
  · exact .refl s
  · split <;> rfl

theorem fetchOne_same (s : State) (c : Nat) (home : BitVec 2) (a : Nat) : sameButLines s (s.fetchOne c home a) := by
  unfold State.fetchOne
  have h : sameButLines s (if s.tagClash c a then s.evictLine a else s) := by
    split
    · exact evictLine_same s a
    · exact .refl s
  generalize (if s.tagClash c a then s.evictLine a else s) = st at h
  have g := h.trans ((noteLine_same _ (st.line a) (some (st.comp c).key) a).trans (setLine_same _ a (st.fetched (st.line a) c a)))
  dsimp only
  split
  · exact g.trans (pinLine_same _ home a)
  · exact g

theorem fetchLines_same (s : State) (c a n : Nat) (home : BitVec 2) : sameButLines s (s.fetchLines c a n home) := by
  unfold State.fetchLines
  split
  · exact sameButLines.foldl (fun st x => fetchOne_same st c home x) _ _
  · exact .refl s

theorem passLines_same (s s0 : State) (c a n : Nat) (home : BitVec 2) : sameButLines s (s.passLines s0 c a n home) := by
  unfold State.passLines
  split
  · exact .refl s
  · refine sameButLines.foldl (fun st x => ?_) _ _
    split
    · exact .refl st
    · exact evictLine_same st x

theorem readMem_same (s : State) (c a n : Nat) (home : BitVec 2) : sameButLines s (s.readMem c a n home).2.2 :=
  (fetchLines_same s c a n home).trans (passLines_same _ s c a n home)

theorem dirtySector_same (s : State) (c a n x : Nat) : sameButLines s (s.dirtySector c a n x) := setLine_same s x _

section
variable {s t : State}
theorem sameButLines.mem (h : sameButLines s t) : t.mem = s.mem := by have e := congrArg State.mem h; exact e
theorem sameButLines.teams (h : sameButLines s t) : t.teams = s.teams := by have e := congrArg State.teams h; exact e
theorem sameButLines.parts (h : sameButLines s t) : t.parts = s.parts := by have e := congrArg State.parts h; exact e
theorem sameButLines.cores (h : sameButLines s t) : t.cores = s.cores := by have e := congrArg State.cores h; exact e
theorem sameButLines.worlds (h : sameButLines s t) : t.worlds = s.worlds := by have e := congrArg State.worlds h; exact e
theorem sameButLines.comps (h : sameButLines s t) : t.comps = s.comps := by have e := congrArg State.comps h; exact e
theorem sameButLines.reqs (h : sameButLines s t) : t.reqs = s.reqs := by have e := congrArg State.reqs h; exact e
theorem sameButLines.byte (h : sameButLines s t) (a : Nat) : t.byte a = s.byte a := by unfold State.byte; rw [h.mem]

theorem sameButLines.putBytes (h : sameButLines s t) (a : Nat) (bs : List Byte) :
    sameButLines { s with mem := Machine.putBytes s.mem a bs } { t with mem := Machine.putBytes t.mem a bs } := by
  rw [h.mem]
  exact congrArg (fun x : State => ({ x with mem := Machine.putBytes s.mem a bs } : State)) h
end

/-- A write at the home slice: the bytes, and otherwise lines only. -/
theorem writeMem_same (s : State) (c a : Nat) (bs : List Byte) (home : BitVec 2) :
    sameButLines { s with mem := putBytes s.mem a bs } (s.writeMem c a bs home) := by
  unfold State.writeMem
  by_cases hn : bs.length = 0
  · rw [List.eq_nil_of_length_eq_zero hn]; exact .refl s
  · dsimp only
    rw [if_neg hn]
    exact (((fetchLines_same s c a bs.length home).trans
      (sameButLines.foldl (fun st x => dirtySector_same st c a bs.length x) _ _)).putBytes a bs).trans (passLines_same _ s c a _ home)

theorem noteSys_same (s : State) (a n : Nat) : sameButLines s (s.noteSys a n) := by
  unfold State.noteSys
  split
  · exact sameButLines.foldl (fun st x => noteLine_same st _ none x) _ _
  · exact .refl s

theorem sysSector_same (s : State) (a n x : Nat) : sameButLines s (s.sysSector a n x) := by
  unfold State.sysSector
  dsimp only
  split
  · exact setLine_same s x _
  · exact (fixNodes_same s x 1).trans (setLine_same _ x _)

/-- A write by an agent without a compartment id: the bytes, and otherwise lines only. -/
theorem writeSys_same (s : State) (a : Nat) (bs : List Byte) :
    sameButLines { s with mem := putBytes s.mem a bs } (s.writeSys a bs) := by
  unfold State.writeSys
  by_cases hn : bs.length = 0
  · rw [List.eq_nil_of_length_eq_zero hn]; exact .refl s
  · dsimp only
    rw [if_neg hn]
    exact ((noteSys_same s a bs.length).trans (sameButLines.foldl (fun st x => sysSector_same st a bs.length x) _ _)).putBytes a bs

/-- Every write at a home slice keeps memory in its canonical form. -/
theorem writeMem_wf {s : State} (h : Memory.wf s.mem = true) (c a : Nat) (bs : List Byte) (home : BitVec 2) :
    Memory.wf (s.writeMem c a bs home).mem = true := by rw [(writeMem_same s c a bs home).mem]; exact putBytes_wf h a bs
theorem writeSys_wf {s : State} (h : Memory.wf s.mem = true) (a : Nat) (bs : List Byte) :
    Memory.wf (s.writeSys a bs).mem = true := by rw [(writeSys_same s a bs).mem]; exact putBytes_wf h a bs

/-- Read after write. -/
theorem writeMem_byte (s : State) (c a : Nat) (bs : List Byte) (home : BitVec 2) (k : Nat) :
    (s.writeMem c a bs home).byte k = if a ≤ k ∧ k < a + bs.length then bs.getD (k - a) 0#8 else s.byte k :=
  byte_write (s := s) (writeMem_same s c a bs home).mem k
theorem writeSys_byte (s : State) (a : Nat) (bs : List Byte) (k : Nat) :
    (s.writeSys a bs).byte k = if a ≤ k ∧ k < a + bs.length then bs.getD (k - a) 0#8 else s.byte k :=
  byte_write (s := s) (writeSys_same s a bs).mem k

/-- The memory of the state after reset is in its canonical form. -/
theorem reset_mem_wf : Memory.wf State.reset.mem = true := rfl

end Sys2Proof.Machine

namespace Sys2Proof.Safety

open Sys2Proof Sys2Proof.Machine

/-! ### The tables of a state -/

/-- A state with the tables of another keeps their form. -/
theorem Tables.of_eq {s t : State} (h : Tables s) (hm : t.mem = s.mem) (hl : t.lines = s.lines) (hp : t.parts = s.parts)
    (hw : t.worlds = s.worlds) (hc : t.comps = s.comps) (hk : t.cores = s.cores) : Tables t :=
  ⟨hm ▸ h.mem, hl ▸ h.lines, hp ▸ h.parts, hw ▸ h.worlds, hc ▸ h.comps, hk ▸ h.cores⟩

theorem Tables.modTeam {s : State} (h : Tables s) (t : Nat) (f : Team → Team) : Tables (s.modTeam t f) :=
  .of_eq h rfl rfl rfl rfl rfl rfl
theorem Tables.modGroup {s : State} (h : Tables s) (t g : Nat) (f : Group → Group) : Tables (s.modGroup t g f) :=
  .of_eq h rfl rfl rfl rfl rfl rfl
theorem Tables.modPart {s : State} (h : Tables s) (p : Nat) (f : Partition → Partition) : Tables (s.modPart p f) :=
  { h with parts := Tbl.sorted_set h.parts _ _ }
theorem Tables.modWorld {s : State} (h : Tables s) (w : Nat) (f : World → World) : Tables (s.modWorld w f) :=
  { h with worlds := Tbl.sorted_set h.worlds _ _ }
theorem Tables.modComp {s : State} (h : Tables s) (c : Nat) (f : Compart → Compart) : Tables (s.modComp c f) :=
  { h with comps := Tbl.sorted_set h.comps _ _ }
theorem Tables.modCore {s : State} (h : Tables s) (c : Nat) (f : Core → Core) : Tables (s.modCore c f) :=
  { h with cores := Tbl.sorted_set h.cores _ _ }
theorem Tables.modNode {s : State} (h : Tables s) (n : Nat) (f : Node → Node) : Tables (s.modNode n f) :=
  { h with parts := Tbl.sorted_map h.parts _ }
theorem Tables.modLaunch {s : State} (h : Tables s) (l : Nat) (f : Launch → Launch) : Tables (s.modLaunch l f) :=
  { h with parts := Tbl.sorted_map h.parts _ }
theorem Tables.setLine {s : State} (h : Tables s) (a : Nat) (l : Line) : Tables (s.setLine a l) :=
  { h with lines := Tbl.sorted_set h.lines _ _ }
theorem Tables.logError {s : State} (h : Tables s) (k l i : Nat) : Tables (s.logError k l i) :=
  .of_eq h rfl rfl rfl rfl rfl rfl
theorem Tables.putBytes {s : State} (h : Tables s) (a : Nat) (bs : List Byte) :
    Tables { s with mem := Machine.putBytes s.mem a bs } := { h with mem := putBytes_wf h.mem a bs }

theorem Tables.foldl {β : Type} {f : State → β → State} (hf : ∀ s x, Tables s → Tables (f s x)) (l : List β) {s : State}
    (h : Tables s) : Tables (l.foldl f s) := by
  induction l generalizing s with
  | nil => exact h
  | cons x l ih => exact ih (hf s x h)

theorem Tables.fixNodes {s : State} (h : Tables s) (a n : Nat) : Tables (s.fixNodes a n) := .of_eq h rfl rfl rfl rfl rfl rfl

theorem Tables.evictLine {s : State} (h : Tables s) (a : Nat) : Tables (s.evictLine a) := by
  unfold State.evictLine
  dsimp only
  split
  · exact h
  · split
    · exact h.setLine _ _
    · split
      · exact (h.setLine _ _).logError _ _ _
      · exact (Tables.fixNodes h _ _).setLine _ _

/-- What differs in lines and counters only keeps the form, if the lines do. -/
theorem Tables.sameButLines {s t : State} (h : Tables s) (e : Machine.sameButLines s t) (hl : Tbl.sorted t.lines = true) : Tables t :=
  ⟨e.mem ▸ h.mem, hl, e.parts ▸ h.parts, e.worlds ▸ h.worlds, e.comps ▸ h.comps, e.cores ▸ h.cores⟩

theorem Tables.noteLine {s : State} (h : Tables s) (l : Line) (k : Option Nat) (a : Nat) : Tables (s.noteLine l k a) := by
  refine h.sameButLines (noteLine_same s l k a) ?_
  unfold State.noteLine
  split
  · exact h.lines
  · split
    · exact h.lines
    · split
      · exact h.lines
      · exact (Tables.foldl (f := fun st _ => st.countError (.channel (channelAt a)))
        (fun st _ hs => hs.of_eq rfl rfl rfl rfl rfl rfl) _ h).lines

theorem Tables.pinLine {s : State} (h : Tables s) (home : BitVec 2) (a : Nat) : Tables (s.pinLine home a) := by
  unfold State.pinLine
  split
  · exact h
  · split
    · exact h.setLine _ _
    · exact .of_eq h rfl rfl rfl rfl rfl rfl

theorem Tables.fetchOne {s : State} (h : Tables s) (c : Nat) (home : BitVec 2) (a : Nat) : Tables (s.fetchOne c home a) := by
  unfold State.fetchOne
  have g : Tables (if s.tagClash c a then s.evictLine a else s) := by
    split
    · exact h.evictLine a
    · exact h
  generalize (if s.tagClash c a then s.evictLine a else s) = st at g
  dsimp only
  split
  · exact ((g.noteLine _ _ a).setLine a _).pinLine home a
  · exact (g.noteLine _ _ a).setLine a _

theorem Tables.fetchLines {s : State} (h : Tables s) (c a n : Nat) (home : BitVec 2) : Tables (s.fetchLines c a n home) := by
  unfold State.fetchLines
  split
  · exact Tables.foldl (fun st x hs => hs.fetchOne c home x) _ h
  · exact h

theorem Tables.passLines {s : State} (h : Tables s) (s0 : State) (c a n : Nat) (home : BitVec 2) : Tables (s.passLines s0 c a n home) := by
  unfold State.passLines
  split
  · exact h
  · refine Tables.foldl (fun st x hs => ?_) _ h
    split
    · exact hs
    · exact hs.evictLine x

theorem Tables.readMem {s : State} (h : Tables s) (c a n : Nat) (home : BitVec 2) : Tables (s.readMem c a n home).2.2 :=
  (h.fetchLines c a n home).passLines s c a n home

theorem Tables.writeMem {s : State} (h : Tables s) (c a : Nat) (bs : List Byte) (home : BitVec 2) : Tables (s.writeMem c a bs home) := by
  unfold State.writeMem
  dsimp only
  split
  · exact h
  · exact (Tables.putBytes (Tables.foldl (fun st x hs => hs.setLine x _) _ (h.fetchLines c a _ home)) a bs).passLines s c a _ home

theorem Tables.noteSys {s : State} (h : Tables s) (a n : Nat) : Tables (s.noteSys a n) := by
  unfold State.noteSys
  split
  · exact Tables.foldl (fun st x hs => hs.noteLine _ none x) _ h
  · exact h

theorem Tables.sysSector {s : State} (h : Tables s) (a n x : Nat) : Tables (s.sysSector a n x) := by
  unfold State.sysSector
  dsimp only
  split
  · exact h.setLine x _
  · exact (h.fixNodes x 1).setLine x _

theorem Tables.writeSys {s : State} (h : Tables s) (a : Nat) (bs : List Byte) : Tables (s.writeSys a bs) := by
  unfold State.writeSys
  dsimp only
  split
  · exact h
  · exact Tables.putBytes (Tables.foldl (fun st x hs => hs.sysSector _ _ x) _ (h.noteSys a _)) _ _


end Sys2Proof.Safety
end

