-- ==== Sys2Proof/Laws/Order.lean ====
section
/-! SUPPORT. What the store of values that a core does not see yet can do: a note of a store or a release changes nothing else, and with
no such store every load returns the latest bytes. -/

namespace Sys2Proof.Machine

open Sys2Proof

@[simp] theorem State.noteStore_plain (s : State) (cs : List Nat) (c a n : Nat) (home : BitVec 2) :
    (s.noteStore cs c a n home).plain = s.plain := by unfold State.noteStore; split <;> rfl

@[simp] theorem State.putHeads_plain (s : State) (hs : List Head) (a n : Nat) : (s.putHeads hs a n).plain = s.plain := by
  unfold State.putHeads; split <;> rfl

@[simp] theorem State.noteWrite_plain (s : State) (r : Req) : (s.noteWrite r).plain = s.plain := by simp [State.noteWrite]

@[simp] theorem State.nowSees_plain (s : State) (core : Nat) (p : Late → Bool) : (s.nowSees core p).plain = s.plain := rfl

@[simp] theorem State.forgetLate_plain (s : State) (a n : Nat) : (s.forgetLate a n).plain = s.plain := rfl

theorem State.mem_of_plain {s t : State} (h : t.plain = s.plain) : t.mem = s.mem := by
  show t.plain.mem = s.plain.mem; rw [h]

theorem State.lines_of_plain {s t : State} (h : t.plain = s.plain) : t.lines = s.lines := by
  show t.plain.lines = s.plain.lines; rw [h]

theorem State.parts_of_plain {s t : State} (h : t.plain = s.plain) : t.parts = s.parts := by
  show t.plain.parts = s.plain.parts; rw [h]

/-- No store is hidden: no release needs to be kept. -/
@[simp] theorem State.mergeHeads_nil {s : State} (h : s.late = []) (new old : List Head) : s.mergeHeads new old = [] := by
  have k : ∀ l : List Head, l.filter s.keeps = [] := fun l => by simp [State.keeps, h]
  unfold State.mergeHeads; rw [k, k]; rfl

/-- No store is hidden: a load returns the latest value of each unit. -/
theorem State.oldUnit_nil {s : State} (h : s.late = []) (core comp u : Nat) : s.oldUnit core comp u = none := by
  simp [State.oldUnit, State.older, h]

/-- The value before a store that a load returns is that of a store to the unit, of its compartment, less than 4,096 clocks ago, which the
core does not see (R244, R259, R260). -/
theorem State.oldUnit_some {s : State} {core comp u : Nat} {l : Late} (h : s.oldUnit core comp u = some l) :
    l ∈ s.late ∧ l.unit = u ∧ l.comp = comp ∧ s.young core l = true ∧ s.sees core l = false := by
  have m : l ∈ s.older core comp u := by
    unfold State.oldUnit at h
    split at h
    · simp at h
    · exact List.mem_of_getElem? h
  have f := List.mem_filter.1 ((List.takeWhile_sublist _).subset m)
  have p := List.mem_takeWhile_imp m
  simp only [Bool.and_eq_true, decide_eq_true_eq, Bool.not_eq_true'] at p f
  exact ⟨f.1, f.2, p.1.1, p.1.2, p.2⟩

/-- A core that sees every store reads the latest bytes. -/
theorem State.lateBytes_of_none {s : State} {core comp a : Nat} (h : ∀ u, s.oldUnit core comp u = none) (bs : List Byte) :
    s.lateBytes core comp a bs = bs := by
  simp only [State.lateBytes, h, indexed]
  exact List.map_snd_zip (by simp)

end Sys2Proof.Machine
end

