-- ==== Sys2Proof/Laws/PerInstr.lean ====
section
/-! SUPPORT. Statements made per instruction: one lemma per constructor. -/

namespace Sys2Proof.Laws.CommonField

open Sys2Proof

/-- The word of an instruction carries its scope, destination mask and predicate in the common fields (R33, Table 3.2); an
event has no word. -/
def Statement (i : Instr) : Prop := ∀ w, encode i = some w → ∃ c, i.scopeOf = some c ∧ Decode.commonOf w = some c

theorem nop : ∀ c f, Statement (.nop c f) := fun c _ _ h => ⟨c, rfl, by cases h; exact commonOf_word _ _ _⟩
theorem br : ∀ c f, Statement (.br c f) := fun c _ _ h => ⟨c, rfl, by cases h; exact commonOf_word _ _ _⟩
theorem brc : ∀ c f, Statement (.brc c f) := fun c _ _ h => ⟨c, rfl, by cases h; exact commonOf_word _ _ _⟩
theorem brx : ∀ c f, Statement (.brx c f) := fun c _ _ h => ⟨c, rfl, by cases h; exact commonOf_word _ _ _⟩
theorem call : ∀ c f, Statement (.call c f) := fun c _ _ h => ⟨c, rfl, by cases h; exact commonOf_word _ _ _⟩
theorem ret : ∀ c f, Statement (.ret c f) := fun c _ _ h => ⟨c, rfl, by cases h; exact commonOf_word _ _ _⟩
theorem join : ∀ c f, Statement (.join c f) := fun c _ _ h => ⟨c, rfl, by cases h; exact commonOf_word _ _ _⟩
theorem loop : ∀ c f, Statement (.loop c f) := fun c _ _ h => ⟨c, rfl, by cases h; exact commonOf_word _ _ _⟩
theorem exit : ∀ c f, Statement (.exit c f) := fun c _ _ h => ⟨c, rfl, by cases h; exact commonOf_word _ _ _⟩
theorem tjoin : ∀ c f, Statement (.tjoin c f) := fun c _ _ h => ⟨c, rfl, by cases h; exact commonOf_word _ _ _⟩
theorem region : ∀ c f, Statement (.region c f) := fun c _ _ h => ⟨c, rfl, by cases h; exact commonOf_word _ _ _⟩
theorem yield : ∀ c f, Statement (.yield c f) := fun c _ _ h => ⟨c, rfl, by cases h; exact commonOf_word _ _ _⟩
theorem trap : ∀ c f, Statement (.trap c f) := fun c _ _ h => ⟨c, rfl, by cases h; exact commonOf_word _ _ _⟩
theorem bkpt : ∀ c f, Statement (.bkpt c f) := fun c _ _ h => ⟨c, rfl, by cases h; exact commonOf_word _ _ _⟩
theorem mov : ∀ c f, Statement (.mov c f) := fun c _ _ h => ⟨c, rfl, by cases h; exact commonOf_word _ _ _⟩
theorem movi : ∀ c f, Statement (.movi c f) := fun c _ _ h => ⟨c, rfl, by cases h; exact commonOf_word _ _ _⟩
theorem sel : ∀ c f, Statement (.sel c f) := fun c _ _ h => ⟨c, rfl, by cases h; exact commonOf_word _ _ _⟩
theorem kset : ∀ c f, Statement (.kset c f) := fun c _ _ h => ⟨c, rfl, by cases h; exact commonOf_word _ _ _⟩
theorem kop : ∀ c f, Statement (.kop c f) := fun c _ _ h => ⟨c, rfl, by cases h; exact commonOf_word _ _ _⟩
theorem kmov : ∀ c f, Statement (.kmov c f) := fun c _ _ h => ⟨c, rfl, by cases h; exact commonOf_word _ _ _⟩
theorem xset : ∀ c f, Statement (.xset c f) := fun c _ _ h => ⟨c, rfl, by cases h; exact commonOf_word _ _ _⟩
theorem shfl : ∀ c f, Statement (.shfl c f) := fun c _ _ h => ⟨c, rfl, by cases h; exact commonOf_word _ _ _⟩
theorem vote : ∀ c f, Statement (.vote c f) := fun c _ _ h => ⟨c, rfl, by cases h; exact commonOf_word _ _ _⟩
theorem gred : ∀ c f, Statement (.gred c f) := fun c _ _ h => ⟨c, rfl, by cases h; exact commonOf_word _ _ _⟩
theorem gscan : ∀ c f, Statement (.gscan c f) := fun c _ _ h => ⟨c, rfl, by cases h; exact commonOf_word _ _ _⟩
theorem add : ∀ c f, Statement (.add c f) := fun c _ _ h => ⟨c, rfl, by cases h; exact commonOf_word _ _ _⟩
theorem sub : ∀ c f, Statement (.sub c f) := fun c _ _ h => ⟨c, rfl, by cases h; exact commonOf_word _ _ _⟩
theorem mul : ∀ c f, Statement (.mul c f) := fun c _ _ h => ⟨c, rfl, by cases h; exact commonOf_word _ _ _⟩
theorem mulhi : ∀ c f, Statement (.mulhi c f) := fun c _ _ h => ⟨c, rfl, by cases h; exact commonOf_word _ _ _⟩
theorem mad : ∀ c f, Statement (.mad c f) := fun c _ _ h => ⟨c, rfl, by cases h; exact commonOf_word _ _ _⟩
theorem madhi : ∀ c f, Statement (.madhi c f) := fun c _ _ h => ⟨c, rfl, by cases h; exact commonOf_word _ _ _⟩
theorem min : ∀ c f, Statement (.min c f) := fun c _ _ h => ⟨c, rfl, by cases h; exact commonOf_word _ _ _⟩
theorem max : ∀ c f, Statement (.max c f) := fun c _ _ h => ⟨c, rfl, by cases h; exact commonOf_word _ _ _⟩
theorem abs : ∀ c f, Statement (.abs c f) := fun c _ _ h => ⟨c, rfl, by cases h; exact commonOf_word _ _ _⟩
theorem neg : ∀ c f, Statement (.neg c f) := fun c _ _ h => ⟨c, rfl, by cases h; exact commonOf_word _ _ _⟩
theorem and : ∀ c f, Statement (.and c f) := fun c _ _ h => ⟨c, rfl, by cases h; exact commonOf_word _ _ _⟩
theorem or : ∀ c f, Statement (.or c f) := fun c _ _ h => ⟨c, rfl, by cases h; exact commonOf_word _ _ _⟩
theorem xor : ∀ c f, Statement (.xor c f) := fun c _ _ h => ⟨c, rfl, by cases h; exact commonOf_word _ _ _⟩
theorem not : ∀ c f, Statement (.not c f) := fun c _ _ h => ⟨c, rfl, by cases h; exact commonOf_word _ _ _⟩
theorem shl : ∀ c f, Statement (.shl c f) := fun c _ _ h => ⟨c, rfl, by cases h; exact commonOf_word _ _ _⟩
theorem shr : ∀ c f, Statement (.shr c f) := fun c _ _ h => ⟨c, rfl, by cases h; exact commonOf_word _ _ _⟩
theorem sar : ∀ c f, Statement (.sar c f) := fun c _ _ h => ⟨c, rfl, by cases h; exact commonOf_word _ _ _⟩
theorem rot : ∀ c f, Statement (.rot c f) := fun c _ _ h => ⟨c, rfl, by cases h; exact commonOf_word _ _ _⟩
theorem clz : ∀ c f, Statement (.clz c f) := fun c _ _ h => ⟨c, rfl, by cases h; exact commonOf_word _ _ _⟩
theorem popc : ∀ c f, Statement (.popc c f) := fun c _ _ h => ⟨c, rfl, by cases h; exact commonOf_word _ _ _⟩
theorem brev : ∀ c f, Statement (.brev c f) := fun c _ _ h => ⟨c, rfl, by cases h; exact commonOf_word _ _ _⟩
theorem bfx : ∀ c f, Statement (.bfx c f) := fun c _ _ h => ⟨c, rfl, by cases h; exact commonOf_word _ _ _⟩
theorem bfi : ∀ c f, Statement (.bfi c f) := fun c _ _ h => ⟨c, rfl, by cases h; exact commonOf_word _ _ _⟩
theorem lea : ∀ c f, Statement (.lea c f) := fun c _ _ h => ⟨c, rfl, by cases h; exact commonOf_word _ _ _⟩
theorem addImm : ∀ c f, Statement (.addImm c f) := fun c _ _ h => ⟨c, rfl, by cases h; exact commonOf_word _ _ _⟩
theorem subImm : ∀ c f, Statement (.subImm c f) := fun c _ _ h => ⟨c, rfl, by cases h; exact commonOf_word _ _ _⟩
theorem mulImm : ∀ c f, Statement (.mulImm c f) := fun c _ _ h => ⟨c, rfl, by cases h; exact commonOf_word _ _ _⟩
theorem mulhiImm : ∀ c f, Statement (.mulhiImm c f) := fun c _ _ h => ⟨c, rfl, by cases h; exact commonOf_word _ _ _⟩
theorem madImm : ∀ c f, Statement (.madImm c f) := fun c _ _ h => ⟨c, rfl, by cases h; exact commonOf_word _ _ _⟩
theorem madhiImm : ∀ c f, Statement (.madhiImm c f) := fun c _ _ h => ⟨c, rfl, by cases h; exact commonOf_word _ _ _⟩
theorem minImm : ∀ c f, Statement (.minImm c f) := fun c _ _ h => ⟨c, rfl, by cases h; exact commonOf_word _ _ _⟩
theorem maxImm : ∀ c f, Statement (.maxImm c f) := fun c _ _ h => ⟨c, rfl, by cases h; exact commonOf_word _ _ _⟩
theorem absImm : ∀ c f, Statement (.absImm c f) := fun c _ _ h => ⟨c, rfl, by cases h; exact commonOf_word _ _ _⟩
theorem negImm : ∀ c f, Statement (.negImm c f) := fun c _ _ h => ⟨c, rfl, by cases h; exact commonOf_word _ _ _⟩
theorem andImm : ∀ c f, Statement (.andImm c f) := fun c _ _ h => ⟨c, rfl, by cases h; exact commonOf_word _ _ _⟩
theorem orImm : ∀ c f, Statement (.orImm c f) := fun c _ _ h => ⟨c, rfl, by cases h; exact commonOf_word _ _ _⟩
theorem xorImm : ∀ c f, Statement (.xorImm c f) := fun c _ _ h => ⟨c, rfl, by cases h; exact commonOf_word _ _ _⟩
theorem notImm : ∀ c f, Statement (.notImm c f) := fun c _ _ h => ⟨c, rfl, by cases h; exact commonOf_word _ _ _⟩
theorem shlImm : ∀ c f, Statement (.shlImm c f) := fun c _ _ h => ⟨c, rfl, by cases h; exact commonOf_word _ _ _⟩
theorem shrImm : ∀ c f, Statement (.shrImm c f) := fun c _ _ h => ⟨c, rfl, by cases h; exact commonOf_word _ _ _⟩
theorem sarImm : ∀ c f, Statement (.sarImm c f) := fun c _ _ h => ⟨c, rfl, by cases h; exact commonOf_word _ _ _⟩
theorem rotImm : ∀ c f, Statement (.rotImm c f) := fun c _ _ h => ⟨c, rfl, by cases h; exact commonOf_word _ _ _⟩
theorem clzImm : ∀ c f, Statement (.clzImm c f) := fun c _ _ h => ⟨c, rfl, by cases h; exact commonOf_word _ _ _⟩
theorem popcImm : ∀ c f, Statement (.popcImm c f) := fun c _ _ h => ⟨c, rfl, by cases h; exact commonOf_word _ _ _⟩
theorem brevImm : ∀ c f, Statement (.brevImm c f) := fun c _ _ h => ⟨c, rfl, by cases h; exact commonOf_word _ _ _⟩
theorem bfxImm : ∀ c f, Statement (.bfxImm c f) := fun c _ _ h => ⟨c, rfl, by cases h; exact commonOf_word _ _ _⟩
theorem bfiImm : ∀ c f, Statement (.bfiImm c f) := fun c _ _ h => ⟨c, rfl, by cases h; exact commonOf_word _ _ _⟩
theorem leaImm : ∀ c f, Statement (.leaImm c f) := fun c _ _ h => ⟨c, rfl, by cases h; exact commonOf_word _ _ _⟩
theorem div : ∀ c f, Statement (.div c f) := fun c _ _ h => ⟨c, rfl, by cases h; exact commonOf_word _ _ _⟩
theorem rem : ∀ c f, Statement (.rem c f) := fun c _ _ h => ⟨c, rfl, by cases h; exact commonOf_word _ _ _⟩
theorem fadd : ∀ c f, Statement (.fadd c f) := fun c _ _ h => ⟨c, rfl, by cases h; exact commonOf_word _ _ _⟩
theorem fsub : ∀ c f, Statement (.fsub c f) := fun c _ _ h => ⟨c, rfl, by cases h; exact commonOf_word _ _ _⟩
theorem fmul : ∀ c f, Statement (.fmul c f) := fun c _ _ h => ⟨c, rfl, by cases h; exact commonOf_word _ _ _⟩
theorem ffma : ∀ c f, Statement (.ffma c f) := fun c _ _ h => ⟨c, rfl, by cases h; exact commonOf_word _ _ _⟩
theorem fmin : ∀ c f, Statement (.fmin c f) := fun c _ _ h => ⟨c, rfl, by cases h; exact commonOf_word _ _ _⟩
theorem fmax : ∀ c f, Statement (.fmax c f) := fun c _ _ h => ⟨c, rfl, by cases h; exact commonOf_word _ _ _⟩
theorem faddImm : ∀ c f, Statement (.faddImm c f) := fun c _ _ h => ⟨c, rfl, by cases h; exact commonOf_word _ _ _⟩
theorem fsubImm : ∀ c f, Statement (.fsubImm c f) := fun c _ _ h => ⟨c, rfl, by cases h; exact commonOf_word _ _ _⟩
theorem fmulImm : ∀ c f, Statement (.fmulImm c f) := fun c _ _ h => ⟨c, rfl, by cases h; exact commonOf_word _ _ _⟩
theorem ffmaImm : ∀ c f, Statement (.ffmaImm c f) := fun c _ _ h => ⟨c, rfl, by cases h; exact commonOf_word _ _ _⟩
theorem fminImm : ∀ c f, Statement (.fminImm c f) := fun c _ _ h => ⟨c, rfl, by cases h; exact commonOf_word _ _ _⟩
theorem fmaxImm : ∀ c f, Statement (.fmaxImm c f) := fun c _ _ h => ⟨c, rfl, by cases h; exact commonOf_word _ _ _⟩
theorem frcp : ∀ c f, Statement (.frcp c f) := fun c _ _ h => ⟨c, rfl, by cases h; exact commonOf_word _ _ _⟩
theorem frsq : ∀ c f, Statement (.frsq c f) := fun c _ _ h => ⟨c, rfl, by cases h; exact commonOf_word _ _ _⟩
theorem fsqrt : ∀ c f, Statement (.fsqrt c f) := fun c _ _ h => ⟨c, rfl, by cases h; exact commonOf_word _ _ _⟩
theorem fdiv : ∀ c f, Statement (.fdiv c f) := fun c _ _ h => ⟨c, rfl, by cases h; exact commonOf_word _ _ _⟩
theorem fexp2 : ∀ c f, Statement (.fexp2 c f) := fun c _ _ h => ⟨c, rfl, by cases h; exact commonOf_word _ _ _⟩
theorem flog2 : ∀ c f, Statement (.flog2 c f) := fun c _ _ h => ⟨c, rfl, by cases h; exact commonOf_word _ _ _⟩
theorem fsin : ∀ c f, Statement (.fsin c f) := fun c _ _ h => ⟨c, rfl, by cases h; exact commonOf_word _ _ _⟩
theorem fcos : ∀ c f, Statement (.fcos c f) := fun c _ _ h => ⟨c, rfl, by cases h; exact commonOf_word _ _ _⟩
theorem fredpi : ∀ c f, Statement (.fredpi c f) := fun c _ _ h => ⟨c, rfl, by cases h; exact commonOf_word _ _ _⟩
theorem frint : ∀ c f, Statement (.frint c f) := fun c _ _ h => ⟨c, rfl, by cases h; exact commonOf_word _ _ _⟩
theorem fclass : ∀ c f, Statement (.fclass c f) := fun c _ _ h => ⟨c, rfl, by cases h; exact commonOf_word _ _ _⟩
theorem fscale : ∀ c f, Statement (.fscale c f) := fun c _ _ h => ⟨c, rfl, by cases h; exact commonOf_word _ _ _⟩
theorem fgetexp : ∀ c f, Statement (.fgetexp c f) := fun c _ _ h => ⟨c, rfl, by cases h; exact commonOf_word _ _ _⟩
theorem hadd2 : ∀ c f, Statement (.hadd2 c f) := fun c _ _ h => ⟨c, rfl, by cases h; exact commonOf_word _ _ _⟩
theorem hmul2 : ∀ c f, Statement (.hmul2 c f) := fun c _ _ h => ⟨c, rfl, by cases h; exact commonOf_word _ _ _⟩
theorem hfma2 : ∀ c f, Statement (.hfma2 c f) := fun c _ _ h => ⟨c, rfl, by cases h; exact commonOf_word _ _ _⟩
theorem dot4 : ∀ c f, Statement (.dot4 c f) := fun c _ _ h => ⟨c, rfl, by cases h; exact commonOf_word _ _ _⟩
theorem dot8 : ∀ c f, Statement (.dot8 c f) := fun c _ _ h => ⟨c, rfl, by cases h; exact commonOf_word _ _ _⟩
theorem pack : ∀ c f, Statement (.pack c f) := fun c _ _ h => ⟨c, rfl, by cases h; exact commonOf_word _ _ _⟩
theorem unpack : ∀ c f, Statement (.unpack c f) := fun c _ _ h => ⟨c, rfl, by cases h; exact commonOf_word _ _ _⟩
theorem cvt : ∀ c f, Statement (.cvt c f) := fun c _ _ h => ⟨c, rfl, by cases h; exact commonOf_word _ _ _⟩
theorem bscale : ∀ c f, Statement (.bscale c f) := fun c _ _ h => ⟨c, rfl, by cases h; exact commonOf_word _ _ _⟩
theorem bmax : ∀ c f, Statement (.bmax c f) := fun c _ _ h => ⟨c, rfl, by cases h; exact commonOf_word _ _ _⟩
theorem ld : ∀ c f, Statement (.ld c f) := fun c _ _ h => ⟨c, rfl, by cases h; exact commonOf_word _ _ _⟩
theorem st : ∀ c f, Statement (.st c f) := fun c _ _ h => ⟨c, rfl, by cases h; exact commonOf_word _ _ _⟩
theorem atom : ∀ c f, Statement (.atom c f) := fun c _ _ h => ⟨c, rfl, by cases h; exact commonOf_word _ _ _⟩
theorem red : ∀ c f, Statement (.red c f) := fun c _ _ h => ⟨c, rfl, by cases h; exact commonOf_word _ _ _⟩
theorem lds : ∀ c f, Statement (.lds c f) := fun c _ _ h => ⟨c, rfl, by cases h; exact commonOf_word _ _ _⟩
theorem sts : ∀ c f, Statement (.sts c f) := fun c _ _ h => ⟨c, rfl, by cases h; exact commonOf_word _ _ _⟩
theorem atoms : ∀ c f, Statement (.atoms c f) := fun c _ _ h => ⟨c, rfl, by cases h; exact commonOf_word _ _ _⟩
theorem fence : ∀ c f, Statement (.fence c f) := fun c _ _ h => ⟨c, rfl, by cases h; exact commonOf_word _ _ _⟩
theorem obres : ∀ c f, Statement (.obres c f) := fun c _ _ h => ⟨c, rfl, by cases h; exact commonOf_word _ _ _⟩
theorem obrel : ∀ c f, Statement (.obrel c f) := fun c _ _ h => ⟨c, rfl, by cases h; exact commonOf_word _ _ _⟩
theorem aalloc : ∀ c f, Statement (.aalloc c f) := fun c _ _ h => ⟨c, rfl, by cases h; exact commonOf_word _ _ _⟩
theorem afree : ∀ c f, Statement (.afree c f) := fun c _ _ h => ⟨c, rfl, by cases h; exact commonOf_word _ _ _⟩
theorem mma : ∀ c f, Statement (.mma c f) := fun c _ _ h => ⟨c, rfl, by cases h; exact commonOf_word _ _ _⟩
theorem ald : ∀ c f, Statement (.ald c f) := fun c _ _ h => ⟨c, rfl, by cases h; exact commonOf_word _ _ _⟩
theorem ast : ∀ c f, Statement (.ast c f) := fun c _ _ h => ⟨c, rfl, by cases h; exact commonOf_word _ _ _⟩
theorem aget : ∀ c f, Statement (.aget c f) := fun c _ _ h => ⟨c, rfl, by cases h; exact commonOf_word _ _ _⟩
theorem mwait : ∀ c f, Statement (.mwait c f) := fun c _ _ h => ⟨c, rfl, by cases h; exact commonOf_word _ _ _⟩
theorem mperturb : ∀ c f, Statement (.mperturb c f) := fun c _ _ h => ⟨c, rfl, by cases h; exact commonOf_word _ _ _⟩
theorem matrixOpStart : ∀ x y, Statement (.matrixOpStart x y) := fun _ _ _ h => nomatch h
theorem operandsConsumed : ∀ x y, Statement (.operandsConsumed x y) := fun _ _ _ h => nomatch h
theorem matrixOpCompletion : ∀ x y z, Statement (.matrixOpCompletion x y z) := fun _ _ _ _ h => nomatch h
theorem broadcastDelivery : ∀ x y, Statement (.broadcastDelivery x y) := fun _ _ _ h => nomatch h
theorem claim : ∀ c f, Statement (.claim c f) := fun c _ _ h => ⟨c, rfl, by cases h; exact commonOf_word _ _ _⟩
theorem claimWalkEnd : ∀ x y, Statement (.claimWalkEnd x y) := fun _ _ _ h => nomatch h
theorem flow : ∀ c f, Statement (.flow c f) := fun c _ _ h => ⟨c, rfl, by cases h; exact commonOf_word _ _ _⟩
theorem flowCompletion : ∀ x, Statement (.flowCompletion x) := fun _ _ h => nomatch h
theorem cwait : ∀ c f, Statement (.cwait c f) := fun c _ _ h => ⟨c, rfl, by cases h; exact commonOf_word _ _ _⟩
theorem crel : ∀ c f, Statement (.crel c f) := fun c _ _ h => ⟨c, rfl, by cases h; exact commonOf_word _ _ _⟩
theorem cstat : ∀ c f, Statement (.cstat c f) := fun c _ _ h => ⟨c, rfl, by cases h; exact commonOf_word _ _ _⟩
theorem cbset : ∀ c f, Statement (.cbset c f) := fun c _ _ h => ⟨c, rfl, by cases h; exact commonOf_word _ _ _⟩
theorem cbtake : ∀ c f, Statement (.cbtake c f) := fun c _ _ h => ⟨c, rfl, by cases h; exact commonOf_word _ _ _⟩
theorem cbgive : ∀ c f, Statement (.cbgive c f) := fun c _ _ h => ⟨c, rfl, by cases h; exact commonOf_word _ _ _⟩
theorem qbind : ∀ c f, Statement (.qbind c f) := fun c _ _ h => ⟨c, rfl, by cases h; exact commonOf_word _ _ _⟩
theorem qunbind : ∀ c f, Statement (.qunbind c f) := fun c _ _ h => ⟨c, rfl, by cases h; exact commonOf_word _ _ _⟩
theorem qstat : ∀ c f, Statement (.qstat c f) := fun c _ _ h => ⟨c, rfl, by cases h; exact commonOf_word _ _ _⟩
theorem creditRequest : ∀ x, Statement (.creditRequest x) := fun _ _ h => nomatch h
theorem creditGrant : ∀ x, Statement (.creditGrant x) := fun _ _ h => nomatch h
theorem messageArrival : ∀ x, Statement (.messageArrival x) := fun _ _ h => nomatch h
theorem barinit : ∀ c f, Statement (.barinit c f) := fun c _ _ h => ⟨c, rfl, by cases h; exact commonOf_word _ _ _⟩
theorem barArrive : ∀ c f, Statement (.barArrive c f) := fun c _ _ h => ⟨c, rfl, by cases h; exact commonOf_word _ _ _⟩
theorem barWait : ∀ c f, Statement (.barWait c f) := fun c _ _ h => ⟨c, rfl, by cases h; exact commonOf_word _ _ _⟩
theorem barTest : ∀ c f, Statement (.barTest c f) := fun c _ _ h => ⟨c, rfl, by cases h; exact commonOf_word _ _ _⟩
theorem barDrop : ∀ c f, Statement (.barDrop c f) := fun c _ _ h => ⟨c, rfl, by cases h; exact commonOf_word _ _ _⟩
theorem nlaunch : ∀ c f, Statement (.nlaunch c f) := fun c _ _ h => ⟨c, rfl, by cases h; exact commonOf_word _ _ _⟩
theorem nwait : ∀ c f, Statement (.nwait c f) := fun c _ _ h => ⟨c, rfl, by cases h; exact commonOf_word _ _ _⟩
theorem nstat : ∀ c f, Statement (.nstat c f) := fun c _ _ h => ⟨c, rfl, by cases h; exact commonOf_word _ _ _⟩
theorem csrr : ∀ c f, Statement (.csrr c f) := fun c _ _ h => ⟨c, rfl, by cases h; exact commonOf_word _ _ _⟩
theorem csrw : ∀ c f, Statement (.csrw c f) := fun c _ _ h => ⟨c, rfl, by cases h; exact commonOf_word _ _ _⟩
theorem tret : ∀ c f, Statement (.tret c f) := fun c _ _ h => ⟨c, rfl, by cases h; exact commonOf_word _ _ _⟩
theorem registerFill : ∀ x, Statement (.registerFill x) := fun _ _ h => nomatch h
theorem strandAging : ∀ x y z, Statement (.strandAging x y z) := fun _ _ _ _ h => nomatch h
theorem scopeMismatchDetect : ∀ x, Statement (.scopeMismatchDetect x) := fun _ _ h => nomatch h
theorem icacheRefetch : ∀ x y, Statement (.icacheRefetch x y) := fun _ _ _ h => nomatch h
theorem memoryRequest : ∀ x, Statement (.memoryRequest x) := fun _ _ h => nomatch h
theorem peerAccessRelay : ∀ x, Statement (.peerAccessRelay x) := fun _ _ h => nomatch h
theorem translationWalk : ∀ x, Statement (.translationWalk x) := fun _ _ h => nomatch h
theorem s2qAnswerRetry : ∀ x y, Statement (.s2qAnswerRetry x y) := fun _ _ _ h => nomatch h
theorem s2qAnswerInvalid : ∀ x y, Statement (.s2qAnswerInvalid x y) := fun _ _ _ h => nomatch h
theorem fqAnswerRetry : ∀ x y, Statement (.fqAnswerRetry x y) := fun _ _ _ h => nomatch h
theorem fqAnswerInvalid : ∀ x y, Statement (.fqAnswerInvalid x y) := fun _ _ _ h => nomatch h
theorem s2qTailWrite : ∀ x y, Statement (.s2qTailWrite x y) := fun _ _ _ h => nomatch h
theorem fqtailWrite : ∀ x y, Statement (.fqtailWrite x y) := fun _ _ _ h => nomatch h
theorem fqbaseWrite : ∀ x y, Statement (.fqbaseWrite x y) := fun _ _ _ h => nomatch h
theorem shootCommand : ∀ x y z u, Statement (.shootCommand x y z u) := fun _ _ _ _ _ h => nomatch h
theorem s1shootCommand : ∀ x y z, Statement (.s1shootCommand x y z) := fun _ _ _ _ h => nomatch h
theorem shootdownComplete : ∀ x, Statement (.shootdownComplete x) := fun _ _ h => nomatch h
theorem pageReset : ∀ x y, Statement (.pageReset x y) := fun _ _ _ h => nomatch h
theorem migration : ∀ x y z, Statement (.migration x y z) := fun _ _ _ _ h => nomatch h
theorem preemptWorld : ∀ x, Statement (.preemptWorld x) := fun _ _ h => nomatch h
theorem preemptNode : ∀ x, Statement (.preemptNode x) := fun _ _ h => nomatch h
theorem teamPreemptStart : ∀ x, Statement (.teamPreemptStart x) := fun _ _ h => nomatch h
theorem teamStateSave : ∀ x, Statement (.teamStateSave x) := fun _ _ h => nomatch h
theorem teamPlacement : ∀ x y, Statement (.teamPlacement x y) := fun _ _ _ h => nomatch h
theorem teamRestart : ∀ x y, Statement (.teamRestart x y) := fun _ _ _ h => nomatch h
theorem bankWaitDeadlock : ∀ x, Statement (.bankWaitDeadlock x) := fun _ _ h => nomatch h
theorem timeSliceEnd : ∀ x y, Statement (.timeSliceEnd x y) := fun _ _ _ h => nomatch h
theorem notify : ∀ x y, Statement (.notify x y) := fun _ _ _ h => nomatch h
theorem queueSlotRotation : ∀ x, Statement (.queueSlotRotation x) := fun _ _ h => nomatch h
theorem launchAccept : ∀ x y, Statement (.launchAccept x y) := fun _ _ _ h => nomatch h
theorem readyPoolAdmit : ∀ x y, Statement (.readyPoolAdmit x y) := fun _ _ _ h => nomatch h
theorem priorityAging : ∀ x y, Statement (.priorityAging x y) := fun _ _ _ h => nomatch h
theorem nodeDispatch : ∀ x y, Statement (.nodeDispatch x y) := fun _ _ _ h => nomatch h
theorem dispatchWalkEnd : ∀ x, Statement (.dispatchWalkEnd x) := fun _ _ h => nomatch h
theorem spillReturn : ∀ x, Statement (.spillReturn x) := fun _ _ h => nomatch h
theorem nodeCommit : ∀ x, Statement (.nodeCommit x) := fun _ _ h => nomatch h
theorem nodeEndByTrap : ∀ x, Statement (.nodeEndByTrap x) := fun _ _ h => nomatch h
theorem launchEnd : ∀ x, Statement (.launchEnd x) := fun _ _ h => nomatch h
theorem nodeReplay : ∀ x, Statement (.nodeReplay x) := fun _ _ h => nomatch h
theorem launchReplay : ∀ x, Statement (.launchReplay x) := fun _ _ h => nomatch h
theorem patrolScrub : ∀ x, Statement (.patrolScrub x) := fun _ _ h => nomatch h
theorem multicastReceive : ∀ x y z u, Statement (.multicastReceive x y z u) := fun _ _ _ _ _ h => nomatch h
theorem partitionRecordWrite : ∀ x y, Statement (.partitionRecordWrite x y) := fun _ _ _ h => nomatch h
theorem drmaskWrite : ∀ x y z, Statement (.drmaskWrite x y z) := fun _ _ _ _ h => nomatch h
theorem mcastEntryWrite : ∀ x y, Statement (.mcastEntryWrite x y) := fun _ _ _ h => nomatch h
theorem worldHalt : ∀ x, Statement (.worldHalt x) := fun _ _ h => nomatch h
theorem worldResume : ∀ x, Statement (.worldResume x) := fun _ _ h => nomatch h
theorem waymaskWrite : ∀ x y, Statement (.waymaskWrite x y) := fun _ _ _ h => nomatch h
theorem waymaskSweepComplete : ∀ x, Statement (.waymaskSweepComplete x) := fun _ _ h => nomatch h
theorem compartmentCreate : ∀ x, Statement (.compartmentCreate x) := fun _ _ h => nomatch h
theorem revokeKey : ∀ x, Statement (.revokeKey x) := fun _ _ h => nomatch h
theorem revocationDrainEnd : ∀ x, Statement (.revocationDrainEnd x) := fun _ _ h => nomatch h
theorem installGate : ∀ x, Statement (.installGate x) := fun _ _ h => nomatch h
theorem closeGate : ∀ x, Statement (.closeGate x) := fun _ _ h => nomatch h
theorem functionLevelReset : ∀ x, Statement (.functionLevelReset x) := fun _ _ h => nomatch h
theorem flrDrainEnd : ∀ x, Statement (.flrDrainEnd x) := fun _ _ h => nomatch h
theorem getVersion : ∀ x, Statement (.getVersion x) := fun _ _ h => nomatch h
theorem getCapabilities : ∀ x, Statement (.getCapabilities x) := fun _ _ h => nomatch h
theorem negotiateAlgorithms : ∀ x y z, Statement (.negotiateAlgorithms x y z) := fun _ _ _ _ h => nomatch h
theorem getDigests : ∀ x, Statement (.getDigests x) := fun _ _ h => nomatch h
theorem getCertificate : ∀ x y z, Statement (.getCertificate x y z) := fun _ _ _ _ h => nomatch h
theorem challenge : ∀ x y, Statement (.challenge x y) := fun _ _ _ h => nomatch h
theorem getMeasurements : ∀ x y z, Statement (.getMeasurements x y z) := fun _ _ _ _ h => nomatch h
theorem keyExchange : ∀ x y, Statement (.keyExchange x y) := fun _ _ _ h => nomatch h
theorem finish : ∀ x y, Statement (.finish x y) := fun _ _ _ h => nomatch h
theorem endSession : ∀ x, Statement (.endSession x) := fun _ _ h => nomatch h
theorem readErrorLog : ∀ x, Statement (.readErrorLog x) := fun _ _ h => nomatch h
theorem readTelemetry : Statement (.readTelemetry) := fun _ h => nomatch h
theorem setPackageId : ∀ x, Statement (.setPackageId x) := fun _ _ h => nomatch h
theorem powerOn : Statement (.powerOn) := fun _ h => nomatch h
theorem warmReset : Statement (.warmReset) := fun _ h => nomatch h
theorem pcieConventionalReset : Statement (.pcieConventionalReset) := fun _ h => nomatch h
theorem standbyEntry : ∀ x, Statement (.standbyEntry x) := fun _ _ h => nomatch h
theorem standbyPowerLoss : Statement (.standbyPowerLoss) := fun _ h => nomatch h
theorem throttleStepDown : Statement (.throttleStepDown) := fun _ h => nomatch h
theorem throttleStepUp : Statement (.throttleStepUp) := fun _ h => nomatch h
theorem criticalTemperature : ∀ x, Statement (.criticalTemperature x) := fun _ _ h => nomatch h
theorem linkRetry : ∀ x, Statement (.linkRetry x) := fun _ _ h => nomatch h
theorem laneFailover : ∀ x, Statement (.laneFailover x) := fun _ _ h => nomatch h
theorem linkRekey : ∀ x, Statement (.linkRekey x) := fun _ _ h => nomatch h
theorem pathLost : ∀ x y, Statement (.pathLost x y) := fun _ _ _ h => nomatch h
theorem registerWrite : ∀ x y z, Statement (.registerWrite x y z) := fun _ _ _ _ h => nomatch h
theorem hostCancellation : ∀ x y z, Statement (.hostCancellation x y z) := fun _ _ _ _ h => nomatch h
theorem worldCreation : ∀ x y, Statement (.worldCreation x y) := fun _ _ _ h => nomatch h
theorem pcieConfigurationRequest : ∀ x, Statement (.pcieConfigurationRequest x) := fun _ _ h => nomatch h

end Sys2Proof.Laws.CommonField
end

