-- ==== Sys2Proof/Tests/Fixture.lean ====
section
/-! SUPPORT. The small states of the tests and witnesses, and readiness as a computation, so that a witness is found by
evaluation. -/

namespace Sys2Proof.Tests

open Sys2Proof Sys2Proof.Machine Sys2Proof.Claims

/-- One team of four groups (number 1, of node 0), placed at slot 0 of the line at 0x10000, with strand 0 of group 0 about to
issue. -/
def base : State := { State.reset.boot 0#96 with cur := .strand 1 0 0 }

theorem of_any {α : Type} {o : Option α} {p : α → Bool} (h : o.any p = true) : ∃ a, o = some a ∧ p a = true := by
  match o, h with
  | some a, h => exact ⟨a, rfl, h⟩

/-- The state with every group of the team changed. -/
def groupsOf (s : State) (f : Group → Group) : State := s.modTeam 1 (fun t => { t with groups := t.groups.map f })

/-- Where the strand that `cur` names stands, and the members of its instruction, when it issues. -/
def found (c : Common) (fuse : Bool) (s : State) : Option (Stand × Ctx × State) :=
  match s.cur with
  | .strand t g k =>
    match s.stand c t g k with
    | some d =>
      if s.halted || badScope d.node d.team d.gr c.scope g || d.gr.guardUndef c d.at_ then none
      else match (if fuse = false ∧ c.scope = .lane then (some (d.own c g), s) else s.meet c t g k d) with
        | (some x, s1) => if x.members.any (fun m => decide (m.act ≠ 0#32)) then some (d, x, s1) else none
        | (none, _) => none
    | none => none
  | _ => none

theorem issues_of {c : Common} {fuse : Bool} {s : State} {d : Stand} {x : Ctx} {s1 : State}
    (h : found c fuse s = some (d, x, s1)) : Issues s c fuse d x s1 := by
  unfold found at h
  split at h
  · rename_i t g k hc
    split at h
    · rename_i d' hd
      split at h
      · cases h
      · rename_i hb
        simp only [Bool.or_eq_true, not_or, Bool.not_eq_true] at hb
        split at h
        · rename_i x' s' hm
          split at h
          · rename_i ha
            injection h with h
            injection h with h1 h2
            injection h2 with h2 h3
            subst h1 h2 h3
            refine ⟨hb.1.1, ⟨t, g, k, hc, hd, hb.1.2, hb.2, ?_⟩, ?_⟩
            · split at hm
              · rename_i hf
                rw [if_pos hf]
                injection hm with h1 h2
                injection h1 with h1
                exact ⟨h1.symm, h2.symm⟩
              · rename_i hf
                rw [if_neg hf]
                exact hm
            · obtain ⟨m, hm, ha⟩ := List.any_eq_true.1 ha
              exact ⟨m, hm, of_decide_eq_true ha⟩
          · cases h
        · cases h
    · cases h
  · cases h

/-- A witness by evaluation: the strand issues, and `P` holds of where it stands and of its members. -/
theorem witness {c : Common} {fuse : Bool} {s : State} {P : Stand → Ctx → State → Bool}
    (h : (found c fuse s).any (fun p => P p.1 p.2.1 p.2.2) = true) :
    ∃ d x s1, Issues s c fuse d x s1 ∧ P d x s1 = true := by
  match hf : found c fuse s, h with
  | some (d, x, s1), h => exact ⟨d, x, s1, issues_of hf, h⟩

/-- The same with a decidable proposition. -/
theorem wit {c : Common} {fuse : Bool} {s : State} (P : Stand → Ctx → State → Prop) [∀ d x s, Decidable (P d x s)]
    (h : (found c fuse s).any (fun p => decide (P p.1 p.2.1 p.2.2)) = true) : ∃ d x s1, Issues s c fuse d x s1 ∧ P d x s1 := by
  obtain ⟨d, x, s1, hi, hp⟩ := witness (P := fun d x s1 => decide (P d x s1)) h
  exact ⟨d, x, s1, hi, of_decide_eq_true hp⟩

/-- A line with every slot a target. -/
def openLine : ILine := { line := 0x1F#512, bad := false, node := 0, who := .dispatch 0 0 }

/-- The state with the lines at 0x10000 and 0x10040 in the instruction cache of core 0, every slot of both a target. -/
def opened (s : State) : State := s.modCore 0 (fun c =>
  { c with icache := Tbl.put (Tbl.put c.icache (lineKey (bootNode 0) 0x10000) openLine) (lineKey (bootNode 0) 0x10040) openLine })

/-- Register `r` of every lane of group 0 with the value `v`. -/
def reged (s : State) (r : Nat) (v : Word) : State := s.modGroup 1 0 (fun g => laneList.foldl (fun g l => g.setReg r l v) g)

/-! ### Readiness as a computation -/

def vready (o : VOp) (d : Stand) (x : Ctx) (s : State) : Bool :=
  decide (o.static d.node = none) && !o.undef d.team d.gr d.act && !o.regIndex x && !o.emptyRead x && !o.formWrite x s &&
  !(o.sends.any (fun q => (Tbl.find? x.team.sendq q.1).isNone)) && (!o.blocked x && !o.dstEmpty x) &&
  (!o.c.l || !s.latchBusy x o.lslot) &&
  (o.sends.all (fun q => s.credited x q.1 q.2) && (decide (o.sends = []) || x.quiet s))

theorem vready_iff {o : VOp} {d : Stand} {x : Ctx} {s : State} (h : vready o d x s = true) : VReady o d x s := by
  simp only [vready, Bool.and_eq_true, Bool.or_eq_true, Bool.not_eq_true', decide_eq_true_eq] at h
  obtain ⟨⟨⟨⟨⟨⟨⟨⟨h1, h2⟩, h3⟩, h4⟩, h5⟩, h6⟩, h7, h8⟩, h9⟩, h10, h11⟩ := h
  refine ⟨h1, h2, h3, h4, h5, h6, ⟨h7, h8⟩, fun h => ?_, h10, fun hn => ?_⟩
  · rcases h9 with h9 | h9
    · rw [h] at h9; cases h9
    · exact h9
  · rcases h11 with h11 | h11
    · exact absurd h11 hn
    · exact h11

def eready (o : VOp) (d : Stand) (x : Ctx) (s : State) : Bool :=
  decide (o.static d.node = none) && !o.undef d.team d.gr d.act && !o.regIndex x && !o.emptyRead x && !o.formWrite x s &&
  !(o.sends.any (fun q => (Tbl.find? x.team.sendq q.1).isNone)) && (!o.blocked x && !o.dstEmpty x) &&
  (o.sends.all (fun q => s.credited x q.1 q.2) && (decide (o.sends = []) || x.quiet s))

theorem eready_iff {o : VOp} {d : Stand} {x : Ctx} {s : State} (h : eready o d x s = true) : EReady o d x s := by
  simp only [eready, Bool.and_eq_true, Bool.or_eq_true, Bool.not_eq_true', decide_eq_true_eq] at h
  obtain ⟨⟨⟨⟨⟨⟨⟨h1, h2⟩, h3⟩, h4⟩, h5⟩, h6⟩, h7, h8⟩, h10, h11⟩ := h
  refine ⟨h1, h2, h3, h4, h5, h6, ⟨h7, h8⟩, h10, fun hn => ?_⟩
  rcases h11 with h11 | h11
  · exact absurd h11 hn
  · exact h11

def reads (o : VOp) (d : Stand) (x : Ctx) : Bool :=
  decide (o.static d.node = none) && !o.undef d.team d.gr d.act && !o.regIndex x && !o.emptyRead x && !o.blocked x

theorem reads_iff {o : VOp} {d : Stand} {x : Ctx} (h : reads o d x = true) : Reads o d x := by
  simp only [reads, Bool.and_eq_true, Bool.not_eq_true', decide_eq_true_eq] at h
  obtain ⟨⟨⟨⟨h1, h2⟩, h3⟩, h4⟩, h5⟩ := h
  exact ⟨h1, h2, h3, h4, h5⟩

def mreads (o : MOp) (d : Stand) (x : Ctx) (s : State) : Bool :=
  decide (o.static d.node = none) && !o.regs.undef d.team d.gr d.act && !o.regs.regIndex x && !o.regs.emptyRead x &&
  (!o.regs.blocked x && !o.regs.dstEmpty x) && !(o.regs.sends.any (fun q => (Tbl.find? x.team.sendq q.1).isNone)) &&
  (o.regs.sends.all (fun q => s.credited x q.1 q.2) && (decide (o.regs.sends = []) || x.quiet s)) && decide (o.regs.formDst = none)

theorem mreads_iff {o : MOp} {d : Stand} {x : Ctx} {s : State} (h : mreads o d x s = true) : MReads o d x s := by
  simp only [mreads, Bool.and_eq_true, Bool.or_eq_true, Bool.not_eq_true', decide_eq_true_eq] at h
  obtain ⟨⟨⟨⟨⟨⟨⟨h1, h2⟩, h3⟩, h4⟩, h7, h8⟩, h6⟩, h10, h11⟩, h12⟩ := h
  refine ⟨h1, h2, h3, h4, ⟨h7, h8⟩, h6, ⟨h10, fun hn => ?_⟩, h12⟩
  rcases h11 with h11 | h11
  · exact absurd h11 hn
  · exact h11

def mready (o : MOp) (d : Stand) (x : Ctx) (s : State) : Bool :=
  mreads o d x s && !((laneAccs o x s).any (s.sideOverlap x o.bytes)) && !s.acquirePending x && (!releases o.f.order || x.quiet s)

theorem mready_iff {o : MOp} {d : Stand} {x : Ctx} {s : State} (h : mready o d x s = true) : MReady o d x s := by
  simp only [mready, Bool.and_eq_true, Bool.or_eq_true, Bool.not_eq_true'] at h
  obtain ⟨⟨⟨h1, h2⟩, h3⟩, h4⟩ := h
  refine ⟨mreads_iff h1, h2, h3, fun hr => ?_⟩
  rcases h4 with h4 | h4
  · rw [hr] at h4; cases h4
  · exact h4

/-- The line of `a` is in the instruction cache, and `a` is a target. -/
def atHand (s : State) (n : Node) (core : Nat) (a : Addr) : Bool :=
  decide (slotOf a < 5) && (Tbl.find? (s.core core).icache (lineKey n a)).any (fun l => !l.bad && lineTarget l.line (slotOf a))

theorem atHand_iff {s : State} {n : Node} {core : Nat} {a : Addr} (h : atHand s n core a = true) : AtHand s n core a := by
  simp only [atHand, Bool.and_eq_true, decide_eq_true_eq] at h
  obtain ⟨h1, h2⟩ := h
  match hf : Tbl.find? (s.core core).icache (lineKey n a), h2 with
  | some l, h2 =>
    simp only [Option.any_some, Bool.and_eq_true, Bool.not_eq_true'] at h2
    exact ⟨h1, l, hf, h2.1, h2.2⟩

def canEnter (x : Ctx) (s : State) : Bool :=
  decide (x.node.desc.handler ≠ 0#64) && atHand s x.node x.team.core x.node.desc.handler &&
  x.members.all (fun m => (groupAt s x.team.id m.g).any (fun gr => decide (gr.trap = none)))

theorem canEnter_iff {x : Ctx} {s : State} (h : canEnter x s = true) : CanEnter x s := by
  simp only [canEnter, Bool.and_eq_true, decide_eq_true_eq, List.all_eq_true] at h
  obtain ⟨⟨h1, h2⟩, h3⟩ := h
  refine ⟨h1, atHand_iff h2, fun m hm => ?_⟩
  match hf : groupAt s x.team.id m.g, h3 m hm with
  | some gr, h => exact ⟨gr, rfl, by simpa using h⟩

end Sys2Proof.Tests
end

