-- ==== Sys2Proof/Tests/Slice0.lean ====
section
/-! SUPPORT. Tests on fixed values. Expected values come from the spec's worked examples and tables, or are worked by hand
from them. -/

set_option Elab.async false

namespace Sys2Proof.Tests

open Sys2Proof Sys2Proof.Machine Sys2Proof.Claims

/-! ### Ill-formed instructions (R33 to R36, R48) -/

/-- Every instruction of the list is refused by the checks. -/
def refused (is : List Instr) : Bool := is.all (fun i => !i.wf)

theorem test_wf_plain : [Instr.add (writes .lane) plainV, .not (writes .lane) plainV, .addImm (writes .lane)
    { dst := 1, a := 2, imm := 3, ea := false, rnd := .rne, sat := false, ty := .i32, isel := .none, ireg := 0, qsel := 0, sub := 0 },
    .ld (writes .lane) plainM, .br (silent .lane) plainC, .crel (silent .group) plainE].all Instr.wf = true := by decide

/-- An unused operand field, an empty bit on a constant or an unused field, ISEL on a field it may not name, IREG without
ISEL, a type, a rounding mode, SAT and modifiers that the row lacks, Q, L, QSEL and LSLOT out of place, SUBOP. -/
theorem test_wf_vector : refused
    [.xset (silent .group) { plainV with dst := 1 }, .not (writes .lane) { plainV with b := 1 }, .add (writes .lane) { plainV with c := 1 },
     .add (writes .lane) { plainV with ea := true, a := 1536 }, .add (writes .lane) { plainV with eb := true, b := 1600 },
     .not (writes .lane) { plainV with eb := true }, .add (writes .lane) { plainV with ec := true },
     .not (writes .lane) { plainV with isel := .b }, .add (writes .lane) { plainV with ireg := 1 },
     .add (writes .lane) { plainV with ty := .f32 }, .fadd (writes .lane) { plainV with ty := .i32 },
     .add (writes .lane) { plainV with rnd := .rz }, .fadd (writes .lane) { plainV with ty := .f32, rnd := .rdi },
     .mulhi (writes .lane) { plainV with sat := true }, .and (writes .lane) { plainV with na := true },
     .not (writes .lane) { plainV with nb := true }, .add (writes .lane) { plainV with nc := true },
     .kop { writes .lane with q := true } plainV, .vote { writes .group with l := true } plainV,
     .add (writes .lane) { plainV with qsel := 1 }, .add { writes .lane with l := true } { plainV with lslot := 2 },
     .add (writes .lane) { plainV with lslot := 1 }, .add (writes .lane) { plainV with sub := 1 }] = true := by decide

theorem test_wf_immediate : refused
    (let f : FmtI := { dst := 1, a := 0, imm := 3, ea := false, rnd := .rne, sat := false, ty := .i32, isel := .none, ireg := 0, qsel := 0, sub := 0 }
     [.movi (writes .lane) { f with a := 2 }, .addImm (writes .lane) { f with ea := true, a := 1536 },
      .movi (writes .lane) { f with isel := .a }, .addImm (writes .lane) { f with ireg := 1 }, .addImm (writes .lane) { f with ty := .bf16 },
      .addImm (writes .lane) { f with rnd := .rz }, .mulhiImm (writes .lane) { f with sat := true },
      .addImm { writes .lane with l := true } f, .addImm (writes .lane) { f with qsel := 1 }, .addImm (writes .lane) { f with sub := 1 }]) = true := by
  decide

/-- kset without W, .un on an integer and .tst on a float; reductions with .and on f32, or SUBOP out of range; cvt of a type
to itself; bscale.one with a byte selector; bmax with SUBOP 2. -/
theorem test_wf_rows : refused
    [.kset (silent .lane) plainV, .kset (writes .lane) { plainV with sub := 6 }, .kset (writes .lane) { plainV with sub := 7, ty := .f32 },
     .kop (writes .lane) { plainV with sub := 5 }, .kop (writes .lane) { plainV with sub := 4, b := 1 },
     .kmov (writes .lane) { plainV with sub := 4 }, .sel (writes .lane) { plainV with sub := 16 },
     .gred (writes .group) { plainV with ty := .f32, sub := 3 }, .gred (writes .group) { plainV with sub := 6 },
     .gscan (writes .group) { plainV with sub := 16 }, .cvt (writes .lane) { plainV with ty := .i32, sub := 0 },
     .bscale (writes .lane) { plainV with ty := .f32, sub := 20 }, .bmax (writes .lane) { plainV with ty := .f32, sub := 2 },
     .dot8 (writes .lane) { plainV with ty := .e2m1, sub := 1 }] = true := by decide

/-- Memory: W of a load and of a store, an order or SUBOP a load lacks, sign extension of a word, an empty bit on a store's
address constant, SRCD without .cas, an atomic of one byte, an f32 atomic of 8 bytes, unsigned add, the scopes and hints of
the scratchpad, a fence without an order or with an operand. -/
theorem test_wf_memory : refused
    [.ld (silent .lane) plainM, .st (writes .lane) plainM, .ld (writes .lane) { plainM with order := .release },
     .ld (writes .lane) { plainM with sub := 2 }, .ld (writes .lane) { plainM with width := .b4, sub := 1 },
     .st (silent .lane) { plainM with ea := true, addr := 1600 }, .st (silent .lane) { plainM with second := 1 },
     .atom (writes .lane) plainM, .atom (writes .lane) { plainM with width := .b8, sub := 16 },
     .atom (writes .lane) { plainM with width := .b4, sub := 8 }, .red (silent .lane) { plainM with width := .b4, sub := 6 },
     .lds (writes .lane) { plainM with mscope := .pkg }, .sts (silent .lane) { plainM with hint := .stream },
     .atoms (writes .lane) { plainM with width := .b4, sub := 8 }, .fence (silent .lane) plainM,
     .fence (silent .lane) { plainM with order := .acquire, data := 1 }, .fence (silent .lane) { plainM with order := .acquire, sub := 1 }] = true := by
  decide

/-- Control, engine, matrix, region and system instructions. -/
theorem test_wf_others : refused
    [.br (writes .lane) plainC, .br { silent .lane with pred := 0 } plainC, .br (silent .lane) { plainC with srca := 1 },
     .brx (silent .lane) { plainC with tdisp := 1 }, .br (silent .lane) { plainC with jslot := 1 }, .brc (silent .lane) { plainC with sub := 2 },
     .obrel { silent .team with q := true } plainE, .obrel (writes .team) plainE, .cstat (silent .group) plainE,
     .claim (silent .group) { plainE with sdst := 1 }, .crel (silent .group) { plainE with opa := 1 }, .crel (silent .group) { plainE with opb := 1 },
     .crel (silent .group) { plainE with opc := 1 }, .nstat (writes .group) { plainE with obj := 1 }, .crel (silent .group) { plainE with flags := 1 },
     .obres (silent .team) { plainE with flags := 4 }, .ast (silent .team) { plainE with flags := 0xA4 }, .barinit (silent .team) plainE,
     .barArrive (silent .team) { plainE with flags := 1 },
     .mma (silent .team) { acc := 0, abase := 0, ascale := 0, bres := 0, boff := 0, afmt := .f32, mode := .acc, reuse := false, bcast := false,
                            arrive := false, bar := 0 },
     .mma (silent .team) { acc := 0, abase := 0, ascale := 0, bres := 0, boff := 0, afmt := .i8, mode := .acc, reuse := false, bcast := false,
                            arrive := false, bar := 1 },
     .region (silent .lane) { n := 5, r0 := 0, r1 := 0, r2 := 0, r3 := 0 }, .region (silent .lane) { n := 0, r0 := 1, r1 := 0, r2 := 0, r3 := 0 },
     .csrr (silent .lane) { reg := 0, csr := 4 }, .csrw (writes .lane) { reg := 0, csr := 4 }, .tret (silent .lane) { reg := 1, csr := 0 }] = true := by
  decide

/-- A target slot above 4 (R44), and scopes that an instruction does not accept (R80). -/
theorem test_wf_targets_scopes : refused
    [.br (silent .lane) { plainC with tslot := 5 }, .brc (silent .lane) { plainC with sub := 1, jslot := 7 },
     .br (silent .group) plainC, .tjoin (silent .group) plainC, .xset (silent .lane) plainV, .vote (writes .lane) plainV,
     .claim (writes .lane) plainE, .region (silent .group) { n := 0, r0 := 0, r1 := 0, r2 := 0, r3 := 0 },
     .nwait (writes .group) plainE, .kmov (writes .lane) { plainV with sub := 2 }] = true := by decide

/-! ### Decoding: words that the spec writes out -/

theorem test_decode_words : Obligations.DecodedWords := by
  unfold Obligations.DecodedWords
  decide

theorem test_decode_mma_bc : decode (word3 0x82603980 0x00202030 0x01632000) = .ok (.mma (silent .team)
    { acc := 3, abase := 0, ascale := 16, bres := 1, boff := 384, afmt := .e4m3, mode := .acc, reuse := false, bcast := true,
      arrive := true, bar := 2 }) := by decide
theorem test_decode_region : decode (word3 0x05003803 0x00000C9F 0x040F000F) = .ok (.region (silent .lane)
    { n := 3, r0 := 0x000F, r1 := 0x040F, r2 := 0x0C9F, r3 := 0 }) := by decide
theorem test_decode_brc_div : decode (word3 0x01003802 0x00000011 0x00002801) = .ok (.brc (silent .lane)
    { srca := 2, tdisp := 2, tslot := 1, jdisp := 5, jslot := 0, sub := 1 }) := by decide
theorem test_decode_fence_sc : decode (word3 0x73003800 0 0x0000B801) = .ok (.fence (silent .lane)
    { plainM with mscope := .pkg, order := .acqRel, sub := 1 }) := by decide
theorem test_decode_ld_a64 : decode (word3 0x7002380A 0x00400000 0x0083A820) = .ok (.ld (writes .lane)
    { plainM with data := 10, addr := 2, offset := 8, width := .b8, mscope := .pkg, order := .acquire, sub := 0x20 }) := by decide
theorem test_decode_lds : decode (word3 0x71023808 0x00400000 0x04020000) = .ok (.lds (writes .lane)
    { plainM with data := 8, addr := 2, offset := 64, width := .b4 }) := by decide
theorem test_decode_flow : decode (word3 0x90A23809 0xC8F92000 0x10000000) = .ok (.flow (writes .group)
    { plainE with sdst := 9, opa := 1607, opb := 1608, obj := 2 }) := by decide
theorem test_decode_cwait : decode (word3 0x91203800 0 0x10000000) = .ok (.cwait (silent .group) { plainE with obj := 2 }) := by decide
theorem test_decode_bar_wait : decode (word3 0xA0E03800 0 0x08000001) = .ok (.barWait (silent .team) { plainE with obj := 1, flags := 1 }) := by
  decide
theorem test_decode_mwait : decode (word3 0x83E03800 0 0x18000001) = .ok (.mwait (silent .team) { plainE with obj := 3, flags := 1 }) := by decide
theorem test_decode_aalloc : decode (word3 0x81603800 0 0x18000000) = .ok (.aalloc (silent .team) { plainE with obj := 3 }) := by decide
theorem test_decode_nlaunch : decode (word3 0xA1223809 0xC8C00000 0) = .ok (.nlaunch (writes .group) { plainE with sdst := 9, opa := 1606 }) := by
  decide
theorem test_decode_nwait : decode (word3 0xA1E2380A 0x00800000 0) = .ok (.nwait (writes .team) { plainE with sdst := 10, opa := 4 }) := by decide
theorem test_decode_csrw : decode (word3 0xA8803806 0x00040000 0) = .ok (.csrw (silent .lane) { reg := 6, csr := 4 }) := by decide
theorem test_decode_tret : decode (word3 0xA9003800 0 0) = .ok (.tret (silent .lane) { reg := 0, csr := 0 }) := by decide
theorem test_decode_bkpt : decode (word3 0x06803800 0 0) = .ok (.bkpt (silent .lane) plainC) := by decide
theorem test_decode_yield : decode (word3 0x05E03800 0 0) = .ok (.yield (silent .team) plainC) := by decide
theorem test_decode_zero : decode 0#96 = .ok (.nop { scope := .lane, w := false, q := false, l := false, pneg := false, pred := 0 } plainC) := by
  decide

/-! ### A fetch line (the spec's worked line, R26 to R31) -/

/-- The line of the spec's example: `add` in slot 0, `ld` in slot 1, paired; slot 0 a target. -/
def exampleLine : BitVec 512 := packLine 0x0B000021#32 [word3 0x20023804 0x00400C00 0, word3 0x70023808 0xC8A00000 0x00020000, 0, 0, 0]

theorem test_line_parity : lineParityOk exampleLine = true ∧ lineReservedOk exampleLine = true ∧ lineTarget exampleLine 0 = true ∧
    lineTarget exampleLine 1 = false ∧ lineSlot exampleLine 1 = word3 0x70023808 0xC8A00000 0x00020000 := by decide +kernel
theorem test_line_parity_wrong : lineParityOk (packLine 0x0A000021#32
    [word3 0x20023804 0x00400C00 0, word3 0x70023808 0xC8A00000 0x00020000, 0, 0, 0]) = false := by decide +kernel

/-! ### Instructions on one small state -/

/-- The state with registers set alike in every lane of group 0. -/
def regs (vs : List (Nat × Nat)) : State :=
  base.modGroup 1 0 (fun g => vs.foldl (fun g v => laneList.foldl (fun g l => g.setReg v.1 l (BitVec.ofNat 32 v.2)) g) g)

/-- The state with a register of group 0 set to the lane number. -/
def lanes (r : Nat) : State := base.modGroup 1 0 (fun g => laneList.foldl (fun g l => g.setReg r l (BitVec.ofNat 32 l)) g)

/-- What `f` finds in group `g` of the team after the instruction. -/
def seen {α : Type} (i : Instr) (s : State) (g : Nat) (f : Group → α) : Option α :=
  match exec i s with
  | .next t => (groupAt t 1 g).map f
  | _ => none

/-- The word on its way to a lane of a register after a long-latency instruction. -/
def landing (i : Instr) (s : State) (r l : Nat) : Option Word :=
  match exec i s with
  | .next t => (t.fills.flatMap (fun f => f.vals)).findSome? (fun v => if v.2.1 = r ∧ v.2.2.1 = l then some v.2.2.2 else none)
  | _ => none

def imm (d a n : Nat) (ty : ElemTy) : FmtI :=
  { dst := BitVec.ofNat 11 d, a := BitVec.ofNat 11 a, imm := BitVec.ofNat 32 n, ea := false, rnd := .rne, sat := false, ty := ty, isel := .none,
    ireg := 0, qsel := 0, sub := 0 }

/-- `add.i32` wraps, and clamps with SAT (R159). -/
theorem test_add_wraps : seen (.add (writes .lane) { plainV with dst := 4, a := 2, b := 3 }) (regs [(2, 0x7FFFFFFF), (3, 2)]) 0
    (fun g => g.reg 4 5) = some 0x80000001#32 := by decide +kernel
theorem test_add_sat : seen (.add (writes .lane) { plainV with dst := 4, a := 2, b := 3, sat := true }) (regs [(2, 0x7FFFFFFF), (3, 2)]) 0
    (fun g => g.reg 4 5) = some 0x7FFFFFFF#32 := by decide +kernel
/-- The spec's examples of `mulhi` (R159). -/
theorem test_mulhi : seen (.mulhi (writes .lane) { plainV with dst := 4, a := 2, b := 3 }) (regs [(2, 0xFFFFFFFF), (3, 1)]) 0
    (fun g => g.reg 4 0) = some 0xFFFFFFFF#32 := by decide +kernel
theorem test_mulhi_n32 : seen (.mulhi (writes .lane) { plainV with dst := 4, a := 2, b := 3, ty := .n32 }) (regs [(2, 0xFFFFFFFF), (3, 1)]) 0
    (fun g => g.reg 4 0) = some 0#32 := by decide +kernel
/-- `bfi.n32 v9, v3, 0x0804` inserts the low 8 bits of v3 into v9 at bit 4 (R162). -/
theorem test_bfi : seen (.bfiImm (writes .lane) (imm 9 3 0x0804 .n32)) (regs [(9, 0xFFFFFFFF), (3, 0x12)]) 0
    (fun g => g.reg 9 0) = some 0xFFFFF12F#32 := by decide +kernel
/-- The spec's examples of division (R164). -/
theorem test_div : landing (.div (writes .lane) { plainV with dst := 4, a := 2, b := 3 }) (regs [(2, 0xFFFFFFF9), (3, 2)]) 4 0 =
    some 0xFFFFFFFD#32 := by decide +kernel
theorem test_rem : landing (.rem (writes .lane) { plainV with dst := 4, a := 2, b := 3 }) (regs [(2, 0xFFFFFFF9), (3, 2)]) 4 0 =
    some 0xFFFFFFFF#32 := by decide +kernel
/-- Division of 7 by 0 gives all ones, and the destination is empty until it lands (R164, R118). -/
theorem test_div_zero : landing (.div (writes .lane) { plainV with dst := 4, a := 2, b := 3, ty := .n32 }) (regs [(2, 7), (3, 0)]) 4 0 =
    some 0xFFFFFFFF#32 ∧
    seen (.div (writes .lane) { plainV with dst := 4, a := 2, b := 3, ty := .n32 }) (regs [(2, 7), (3, 0)]) 0
      (fun g => (g.isEmpty 4, decide (Tbl.get 0#6 g.lflags 0 = fDIVZERO))) = some (true, true) := by decide +kernel
/-- `shfl.xor.g v21, v20, 16, -1` with v20 = %lane: lane 0 receives 16, lane 16 receives 0 (R137). -/
theorem test_shfl : seen (.shfl (writes .group) { plainV with dst := 21, a := 20, b := 1560, c := 1552, sub := 3 }) (lanes 20) 0
    (fun g => (g.reg 21 0, g.reg 21 16)) = some (16#32, 0#32) := by decide +kernel
/-- `gred.add.i32` over a group whose source is the lane number gives 496 (R98's example). -/
theorem test_gred : landing (.gred (writes .group) { plainV with dst := 10, a := 11 }) (lanes 11) 10 7 = some 496#32 := by decide +kernel
/-- A ballot of the odd lanes' bits: lanes whose number is not zero are true (R96). -/
theorem test_vote_ballot : seen (.vote (writes .group) { plainV with dst := 10, a := 11, sub := 2 }) (lanes 11) 0
    (fun g => g.reg 10 3) = some 0xFFFFFFFE#32 := by decide +kernel
/-- 1.5 + 2.25 = 3.75 in f32; 1 / 0 raises DIVZERO and gives +infinity (R165, R167). -/
theorem test_fadd : seen (.fadd (writes .lane) { plainV with dst := 4, a := 2, b := 3, ty := .f32 }) (regs [(2, 0x3FC00000), (3, 0x40100000)]) 0
    (fun g => g.reg 4 0) = some 0x40700000#32 := by decide +kernel
theorem test_frcp : landing (.frcp (writes .lane) { plainV with dst := 4, a := 2, ty := .f32 }) (regs [(2, 0)]) 4 0 = some 0x7F800000#32 := by
  decide +kernel
/-- `kset.ge.i32` of the lane number against 4 (R133). -/
theorem test_kset : seen (.kset (writes .lane) { plainV with dst := 1, a := 11, b := 1540, sub := 5 }) (lanes 11) 0
    (fun g => (g.pred 1 3, g.pred 1 4, g.predDef 1 3)) = some (false, true, true) := by decide +kernel
/-- `sel` by a predicate that only lane 0 holds false: k7 not negated picks A (R132). -/
theorem test_sel : seen (.sel (writes .lane) { plainV with dst := 4, a := 2, b := 3, sub := 15 }) (regs [(2, 5), (3, 6)]) 0
    (fun g => g.reg 4 0) = some 6#32 := by decide +kernel
/-- The form address of R110's example: f5 is 0x2814 at item (5, 3). -/
theorem test_form_address :
    (affResult .mad [.aff 0 0 1 0, .uni 2048, .uni 0x1000]).bind (fun v => match v with
      | .aff b x y z => (affResult .lea [.aff b x y z, .aff 0 1 0 0, .uni 2]).bind (fun w => w.at_ (5, 3, 0))
      | _ => none) = some 0x2814#32 := by decide +kernel
/-- `trap 3` enters the handler with CODE 3 and the next instruction's address in epc (R351, Tables 18.1, 18.2). -/
theorem test_trap : seen (.trap (silent .lane) { plainC with srca := 1539 })
    (base.modNode 0 (fun n => { n with desc := { n.desc with handler := 0x10000 } })) 0
    (fun g => g.trap.map (fun r => (r.ecause.toNat / 65536, r.epc, r.eaddr))) = some (some (3, 0x10001#64, 0#64)) := by decide +kernel
/-- The first step runs the word placed where it fetches: `movi.i32 v4, 200` (R131). -/
theorem test_step : (match encode (.movi (writes .lane) (imm 4 0 200 .i32)) with
    | some w => match step (State.reset.withFetchWord 96 w.toNat) with
      | .next t => (groupAt t 1 0).map (fun g => (g.reg 4 31, g.pcOf 0))
      | _ => none
    | none => none) = some (200#32, 0x10001#64) := by decide +kernel

end Sys2Proof.Tests
end

