-- ==== Sys2Proof/Tests/WitnessControl.lean ====
section
/-! SUPPORT. Witnesses: for each statement about branches, loops, traps and control registers, a state and operands that meet its
hypotheses together. -/

set_option Elab.async false

namespace Sys2Proof.Tests

open Sys2Proof Sys2Proof.Machine Sys2Proof.Claims

/-! ### Transfers -/

theorem wit_NopGoesOn : ∃ c f s d x s1, (Instr.nop c f).wf = true ∧ Issues s { c with pred := 7#3, pneg := false } false d x s1 := by
  obtain ⟨d, x, s1, h, -⟩ := wit (c := { silent .lane with pred := 7#3, pneg := false }) (fuse := false) (s := base)
    (fun _ _ _ => True) (by decide +kernel)
  exact ⟨{ silent .lane with pred := 3, pneg := true }, plainC, base, d, x, s1, by decide, h⟩

theorem wit_BranchGoes : ∃ c f s d x s1 m, (Instr.br c f).wf = true ∧ Issues s c false d x s1 ∧ x.members = [m] ∧
    AtHand s1 x.node x.team.core (fmtTarget f x.addr) := by
  obtain ⟨d, x, s1, h, ⟨m, -, h1⟩, h2⟩ := wit (c := silent .lane) (fuse := false) (s := opened base)
    (fun _ x s1 => (∃ m ∈ x.members, x.members = [m]) ∧ atHand s1 x.node x.team.core (fmtTarget { plainC with tslot := 4 } x.addr) = true)
    (by decide +kernel)
  exact ⟨silent .lane, { plainC with tslot := 4 }, _, d, x, s1, m, by decide, h, h1, atHand_iff h2⟩

/-- v8 and v9 of every lane name the instruction at slot 4 of the line at 0x10000, bits [63:57] set. -/
def paired : State := reged (reged (opened base) 8 0x10004) 9 0xFE000000

theorem wit_PairGoes (mk : Common → FmtC → Instr) (hm : mk = .brx ∨ mk = .ret) : ∃ c f s d x s1 m, (mk c f).wf = true ∧ Issues s c false d x s1 ∧
    x.members = [m] ∧ pairOk f d.node = true ∧ (∀ gr, (pairSrc f).undef d.team.form gr d.act = false) ∧ Reads (readOp c (pairSrc f)) d x ∧
    ∀ l ∈ lanesOf m.act, AtHand s1 x.node x.team.core (pairAddr f x s1 m l) := by
  obtain ⟨d, x, s1, h, ⟨m, -, h1, h2⟩, h3, h4⟩ := wit (c := silent .lane) (fuse := false) (s := paired)
    (fun d x s1 => (∃ m ∈ x.members, x.members = [m] ∧ ∀ l ∈ lanesOf m.act, atHand s1 x.node x.team.core (pairAddr { plainC with srca := 8 } x s1 m l) = true) ∧
      pairOk { plainC with srca := 8 } d.node = true ∧ reads (readOp (silent .lane) (pairSrc { plainC with srca := 8 })) d x = true)
    (by decide +kernel)
  refine ⟨silent .lane, { plainC with srca := 8 }, _, d, x, s1, m, ?_, h, h1, h3, fun _ => rfl, reads_iff h4, fun l hl => atHand_iff (h2 l hl)⟩
  rcases hm with rfl | rfl <;> decide

theorem wit_CallGoes : ∃ c f s d x s1 m r, (Instr.call c f).wf = true ∧ Issues s c false d x s1 ∧ x.members = [m] ∧ opndOf f.srca = .lane r ∧
    pairOk f d.node = true ∧ (x.group m).isEmpty r = false ∧ (x.group m).isEmpty (r + 1) = false ∧
    AtHand s1 x.node x.team.core (nextAddr x.addr) ∧ AtHand s1 x.node x.team.core (fmtTarget f x.addr) := by
  obtain ⟨d, x, s1, h, ⟨m, -, h1, h2, h3⟩, h4, h5, h6⟩ := wit (c := silent .lane) (fuse := false) (s := opened base)
    (fun d x s1 => (∃ m ∈ x.members, x.members = [m] ∧ (x.group m).isEmpty 510 = false ∧ (x.group m).isEmpty 511 = false) ∧
      pairOk { plainC with srca := 510, tdisp := 1 } d.node = true ∧ atHand s1 x.node x.team.core (nextAddr x.addr) = true ∧
      atHand s1 x.node x.team.core (fmtTarget { plainC with srca := 510, tdisp := 1 } x.addr) = true)
    (by decide +kernel)
  exact ⟨silent .lane, { plainC with srca := 510, tdisp := 1 }, _, d, x, s1, m, 510, by decide, h, h1, by decide, h4, h2, h3, atHand_iff h5, atHand_iff h6⟩

/-- The lower four quads of group 0 under a divergence record whose join target is slot 2 of the line at 0x10000. -/
def halfDiverged : State := (opened base).modGroup 1 0 (fun g => { g with divs := [{ join := 0x10002, quads := 0x0F#8, lanes := 0x0000_FFFF#32, parked := 0#32, handler := false }] })

theorem wit_JoinGoes_record : ∃ c f s d x s1 m, (Instr.join c f).wf = true ∧ Issues s c false d x s1 ∧ x.members = [m] ∧
    (∃ l ∈ lanesOf m.act, (x.group m).recordOf l ≠ none) ∧ (x.group m).loops = [] ∧ x.addr.toNat % 64 < 5 ∧
    ∃ l ∈ lanesOf m.at_, (x.group m).recordOf l = none := by
  obtain ⟨d, x, s1, h, m, -, h1, h2⟩ := wit (c := silent .lane) (fuse := false) (s := halfDiverged)
    (fun _ x _ => ∃ m ∈ x.members, x.members = [m] ∧ (∃ l ∈ lanesOf m.act, (x.group m).recordOf l ≠ none) ∧ (x.group m).loops = [] ∧
      x.addr.toNat % 64 < 5 ∧ ∃ l ∈ lanesOf m.at_, (x.group m).recordOf l = none) (by decide +kernel)
  exact ⟨silent .lane, plainC, _, d, x, s1, m, by decide, h, h1, h2⟩
theorem wit_JoinGoes_none : ∃ c f s d x s1 m, (Instr.join c f).wf = true ∧ Issues s c false d x s1 ∧ x.members = [m] ∧
    ∀ l ∈ lanesOf m.act, (x.group m).recordOf l = none := by
  obtain ⟨d, x, s1, h, m, -, h1, h2⟩ := wit (c := silent .lane) (fuse := false) (s := base)
    (fun _ x _ => ∃ m ∈ x.members, x.members = [m] ∧ ∀ l ∈ lanesOf m.act, (x.group m).recordOf l = none) (by decide +kernel)
  exact ⟨silent .lane, plainC, _, d, x, s1, m, by decide, h, h1, h2⟩

/-- k3 of group 0 defined, and true in the even lanes. -/
def oddEven : State := (opened base).modGroup 1 0 (fun g => g.setPred 3 0xFFFFFFFF#32 0x55555555#32)

def plainBrc : FmtC := { plainC with srca := 3 }
def divBrc : FmtC := { plainC with srca := 11, sub := 1, jslot := 3 }

theorem owes_none {g : Group} {a : Addr} (h : g.placement.all (fun p => decide (p.due = none)) = true) : ∀ k e, ¬ Owes g a k e := by
  rintro k e ⟨p, hp, -, hd, -⟩
  rw [hp, Option.all_some, decide_eq_true_eq] at h
  rw [h] at hd
  cases hd

/-- Some lanes take the branch, and it is `brc.div` or `brc`. -/
theorem wit_ConditionalGoes (f : FmtC) (hf : f = plainBrc ∨ f = divBrc) :
    ∃ c s d x s1 m, (Instr.brc c f).wf = true ∧ Issues s c false d x s1 ∧ x.members = [m] ∧ f.srca.toNat < 16 ∧
    (∀ k e, ¬ Owes (x.group m) x.addr k e) ∧
    (∀ l ∈ lanesOf d.act, d.gr.predDef (f.srca.toNat % 8) l = true) ∧ AtHand s1 x.node x.team.core (fmtTarget f x.addr) ∧
    (f.sub.getLsbD 0 = true → AtHand s1 x.node x.team.core (fmtJoin f x.addr)) ∧ (∃ l ∈ lanesOf m.act, takes f (x.group m) l = true) ∧
    (∃ l ∈ lanesOf m.act, takes f (x.group m) l = false) ∧ (x.group m).loops = [] ∧ (x.group m).divs = [] ∧ x.addr = 0x10000 := by
  obtain ⟨d, x, s1, h, ⟨m, -, h1, h0, h2⟩, h3, h4, h5⟩ := wit (c := silent .lane) (fuse := false) (s := oddEven)
    (fun d x s1 => (∃ m ∈ x.members, x.members = [m] ∧ (x.group m).placement.all (fun p => decide (p.due = none)) = true ∧ ∀ f ∈ [plainBrc, divBrc],
        (∃ l ∈ lanesOf m.act, takes f (x.group m) l = true) ∧ (∃ l ∈ lanesOf m.act, takes f (x.group m) l = false) ∧ (x.group m).loops = [] ∧
        (x.group m).divs = [] ∧ x.addr = 0x10000) ∧
      (∀ l ∈ lanesOf d.act, d.gr.predDef 3 l = true) ∧ atHand s1 x.node x.team.core (fmtTarget plainBrc x.addr) = true ∧
      atHand s1 x.node x.team.core (fmtJoin divBrc x.addr) = true) (by decide +kernel)
  rcases hf with rfl | rfl
  · exact ⟨silent .lane, _, d, x, s1, m, by decide, h, h1, by decide, owes_none h0, h3, atHand_iff h4, fun h => absurd h (by decide), h2 _ (by simp)⟩
  · exact ⟨silent .lane, _, d, x, s1, m, by decide, h, h1, by decide, owes_none h0, h3, atHand_iff h4, fun _ => atHand_iff h5, h2 _ (by simp)⟩

/-- `brc.div` that the odd lanes take and the even lanes do not. -/
theorem wit_DivergenceSplits : ∃ c f s d x s1 m, (Instr.brc c f).wf = true ∧ Issues s c false d x s1 ∧ x.members = [m] ∧ f.srca.toNat < 16 ∧
    (∀ k e, ¬ Owes (x.group m) x.addr k e) ∧ (∀ l ∈ lanesOf d.act, d.gr.predDef (f.srca.toNat % 8) l = true) ∧ f.sub.getLsbD 0 = true ∧
    AtHand s1 x.node x.team.core (fmtTarget f x.addr) ∧ AtHand s1 x.node x.team.core (fmtJoin f x.addr) ∧
    (x.group m).loops = [] ∧ (x.group m).divs = [] ∧ x.addr.toNat % 64 < 5 ∧ fmtJoin f x.addr ≠ fmtTarget f x.addr ∧
    fmtJoin f x.addr ≠ following x.addr ∧ (∃ l ∈ lanesOf m.act, takes f (x.group m) l = true) ∧
    ∃ l ∈ lanesOf m.act, takes f (x.group m) l = false := by
  obtain ⟨c, s, d, x, s1, m, h, h1, h2, h3, h4, h5, h6, h7, h8, h9, ha, hb, hc⟩ := wit_ConditionalGoes divBrc (.inr rfl)
  refine ⟨c, divBrc, s, d, x, s1, m, h, h1, h2, h3, h4, h5, by decide, h6, h7 (by decide), ha, hb, ?_, ?_, ?_, h8, h9⟩ <;> rw [hc] <;> decide

/-- The node's handler is at slot 1 of the line at 0x10000. -/
def handling : State := (opened base).modNode 0 (fun n => { n with desc := { n.desc with handler := 0x10001 } })

/-- The parcel of group 0 met a bad target at the instruction: the group owes the trap. k3 is defined, and false in every lane. -/
def owing : State := handling.modGroup 1 0 (fun g => { g.setPred 3 0xFFFFFFFF#32 0#32 with
  placement := some { pc := 0x10000, kval := [], kdef := [], loops := [], form := [], entry := false, due := some (.illegalTarget, 0x20000#64) } })

theorem wit_OwedTraps : ∃ c f s d x s1 m k e, (Instr.brc c f).wf = true ∧ Issues s c false d x s1 ∧ x.members = [m] ∧ f.srca.toNat < 16 ∧
    (∀ l ∈ lanesOf d.act, d.gr.predDef (f.srca.toNat % 8) l = true) ∧ Owes (x.group m) x.addr k e ∧ CanEnter x s1 := by
  obtain ⟨d, x, s1, h, ⟨m, -, h1, p, h2, h3, h4, h5⟩, h6, h7⟩ := wit (c := silent .lane) (fuse := false) (s := owing)
    (fun d x s1 => (∃ m ∈ x.members, x.members = [m] ∧ ∃ p ∈ (x.group m).placement, p.pc = x.addr ∧ p.due = some (.illegalTarget, 0x20000#64) ∧
        ∀ l ∈ lanesOf (~~~(x.group m).exited), Tbl.find? (x.group m).resume l = none) ∧
      (∀ l ∈ lanesOf d.act, d.gr.predDef 3 l = true) ∧ canEnter x s1 = true) (by decide +kernel)
  exact ⟨silent .lane, plainBrc, _, d, x, s1, m, _, _, by decide, h, h1, by decide, h6, ⟨p, h2, h3, h4, h5⟩, canEnter_iff h7⟩

/-! ### Loops and ends -/

/-- `loop` up to slot 0 of the next line, with a count of 3, and with a count of 0. -/
def loopTo (srca : BitVec 11) (tslot : BitVec 3) (tdisp : BitVec 29) : FmtC := { plainC with srca := srca, tdisp := tdisp, tslot := tslot, sub := 1 }

theorem wit_loop (f : FmtC) (hf : f = loopTo 1539 0 1 ∨ f = loopTo 1536 0 1 ∨ f = loopTo 1539 1 0) :
    ∃ c s d x s1 m, (Instr.loop c f).wf = true ∧ Issues s c true d x s1 ∧ LoopAllowed f s d x s1 m ∧ Reads (readOp c (countSrc f)) d x ∧
    (f = loopTo 1539 0 1 → loopCount f x s1 = 3#32 ∧ nextAddr x.addr ≠ fmtTarget f x.addr) ∧
    (f = loopTo 1536 0 1 → loopCount f x s1 = 0#32 ∧ ∀ lp ∈ (x.group m).loops, lp.fin ≠ fmtTarget f x.addr ∧ lp.waiting = 0#32) ∧
    (f = loopTo 1539 1 0 → nextAddr x.addr = fmtTarget f x.addr) := by
  obtain ⟨d, x, s1, h, ⟨m, -, h1, h0, h2⟩, h3, h4, h5, h6⟩ := wit (c := silent .lane) (fuse := true) (s := opened base)
    (fun d x s1 => (∃ m ∈ x.members, x.members = [m] ∧ (x.group m).loops = [] ∧ ∀ f ∈ [loopTo 1539 0 1, loopTo 1536 0 1, loopTo 1539 1 0],
        loopOverflow (x.group m).loops (f.sub.toNat % 4) (nextAddr x.addr) (fmtTarget f x.addr) = false) ∧
      (∀ f ∈ [loopTo 1539 0 1, loopTo 1536 0 1, loopTo 1539 1 0], wordOk f d.node = true ∧ (countSrc f).undef d.team.form d.gr d.act = false ∧
        reads (readOp (silent .lane) (countSrc f)) d x = true ∧ atHand s1 x.node x.team.core (fmtTarget f x.addr) = true) ∧
      (loopCount (loopTo 1539 0 1) x s1 = 3#32 ∧ nextAddr x.addr ≠ fmtTarget (loopTo 1539 0 1) x.addr) ∧
      loopCount (loopTo 1536 0 1) x s1 = 0#32 ∧ nextAddr x.addr = fmtTarget (loopTo 1539 1 0) x.addr) (by decide +kernel)
  have hm : f ∈ [loopTo 1539 0 1, loopTo 1536 0 1, loopTo 1539 1 0] := by simpa using hf
  obtain ⟨a, b, e, g⟩ := h3 f hm
  refine ⟨silent .lane, _, d, x, s1, m, ?_, h, ⟨h1, a, ?_, b, h2 f hm, atHand_iff g⟩, reads_iff e, ?_, ?_, ?_⟩
  · rcases hf with rfl | rfl | rfl <;> decide
  · rcases hf with rfl | rfl | rfl <;> decide +kernel
  · rintro rfl; exact h4
  · rintro rfl; exact ⟨h5, fun lp hl => by rw [h0] at hl; cases hl⟩
  · rintro rfl; exact h6

/-- `loop` with a count and a body. -/
theorem wit_LoopOpens : ∃ c f s d x s1 m, (Instr.loop c f).wf = true ∧ Issues s c true d x s1 ∧ LoopAllowed f s d x s1 m ∧
    Reads (readOp c (countSrc f)) d x ∧ loopCount f x s1 ≠ 0#32 ∧ nextAddr x.addr ≠ fmtTarget f x.addr := by
  obtain ⟨c, s, d, x, s1, m, h, h1, h2, h3, h4, -, -⟩ := wit_loop _ (.inl rfl)
  exact ⟨c, _, s, d, x, s1, m, h, h1, h2, h3, by rw [(h4 rfl).1]; decide, (h4 rfl).2⟩

/-- `loop` with a count of 0, no loop around it; and with an empty body. -/
theorem wit_LoopSkips : ∃ c f s d x s1 m, (Instr.loop c f).wf = true ∧ Issues s c true d x s1 ∧ LoopAllowed f s d x s1 m ∧
    Reads (readOp c (countSrc f)) d x ∧ loopCount f x s1 = 0#32 ∧ ∀ lp ∈ (x.group m).loops, lp.fin ≠ fmtTarget f x.addr ∧ lp.waiting = 0#32 := by
  obtain ⟨c, s, d, x, s1, m, h, h1, h2, h3, -, h4, -⟩ := wit_loop _ (.inr (.inl rfl))
  exact ⟨c, _, s, d, x, s1, m, h, h1, h2, h3, (h4 rfl).1, (h4 rfl).2⟩
theorem wit_LoopSkips_empty : ∃ c f s d x s1 m, (Instr.loop c f).wf = true ∧ Issues s c true d x s1 ∧ LoopAllowed f s d x s1 m ∧
    Reads (readOp c (countSrc f)) d x ∧ nextAddr x.addr = fmtTarget f x.addr := by
  obtain ⟨c, s, d, x, s1, m, h, h1, h2, h3, -, -, h4⟩ := wit_loop _ (.inr (.inr rfl))
  exact ⟨c, _, s, d, x, s1, m, h, h1, h2, h3, h4 rfl⟩

/-- A body of more than 256 slots; its counter taken by a loop of the group. -/
def longLoop : FmtC := loopTo 1539 0 60
def looping : State := handling.modGroup 1 0 (fun g => { g with
  loops := [{ n := 1, count := 2, top := 0x10000, fin := 0x10040, depth := 0, waiting := 0 }] })

theorem wit_LoopTraps_long : ∃ c f s d x s1 m, (Instr.loop c f).wf = true ∧ Issues s c true d x s1 ∧ x.members = [m] ∧ wordOk f d.node = true ∧
    s.curAddr.toNat < (fmtTarget f s.curAddr).toNat ∧ (countSrc f).undef d.team.form d.gr d.act = false ∧
    256 < slotsBetween (nextAddr x.addr) (fmtTarget f x.addr) ∧ CanEnter x s1 := by
  obtain ⟨d, x, s1, h, ⟨m, -, h1⟩, h2, h3, h4, h5⟩ := wit (c := silent .lane) (fuse := true) (s := handling)
    (fun d x s1 => (∃ m ∈ x.members, x.members = [m]) ∧ wordOk longLoop d.node = true ∧ (countSrc longLoop).undef d.team.form d.gr d.act = false ∧
      256 < slotsBetween (nextAddr x.addr) (fmtTarget longLoop x.addr) ∧ canEnter x s1 = true) (by decide +kernel)
  exact ⟨silent .lane, longLoop, _, d, x, s1, m, by decide, h, h1, h2, by decide +kernel, h3, h4, canEnter_iff h5⟩
theorem wit_LoopTraps_taken : ∃ c f s d x s1 m, (Instr.loop c f).wf = true ∧ Issues s c true d x s1 ∧ x.members = [m] ∧ wordOk f d.node = true ∧
    s.curAddr.toNat < (fmtTarget f s.curAddr).toNat ∧ (countSrc f).undef d.team.form d.gr d.act = false ∧
    (∃ l ∈ (x.group m).loops, l.n = f.sub.toNat % 4) ∧ CanEnter x s1 := by
  obtain ⟨d, x, s1, h, ⟨m, -, h1, h4⟩, h2, h3, h5⟩ := wit (c := silent .lane) (fuse := true) (s := looping)
    (fun d x s1 => (∃ m ∈ x.members, x.members = [m] ∧ ∃ l ∈ (x.group m).loops, l.n = 1) ∧ wordOk (loopTo 1539 0 1) d.node = true ∧
      (countSrc (loopTo 1539 0 1)).undef d.team.form d.gr d.act = false ∧ canEnter x s1 = true) (by decide +kernel)
  exact ⟨silent .lane, loopTo 1539 0 1, _, d, x, s1, m, by decide, h, h1, h2, by decide +kernel, h3, h4, canEnter_iff h5⟩

/-- Groups 1 to 3 have exited. -/
def lastGroup : State := base.modTeam 1 (fun t => { t with groups := (indexed t.groups).map (fun e =>
  if e.1 = 0 then e.2 else { e.2 with exited := 0xFFFF_FFFF#32, strands := [] }) })

theorem wit_ExitCompletes : ∃ c f s d x s1 m, (Instr.exit c f).wf = true ∧ Issues s c false d x s1 ∧ x.members = [m] := by
  obtain ⟨d, x, s1, h, m, -, h1⟩ := wit (c := silent .lane) (fuse := false) (s := base)
    (fun _ x _ => ∃ m ∈ x.members, x.members = [m]) (by decide +kernel)
  exact ⟨silent .lane, plainC, _, d, x, s1, m, by decide, h, h1⟩

theorem handlerStays_none {g : Group} {m : LaneMask} (h : g.trap = none) : handlerStays g m := fun r hr => by rw [h] at hr; cases hr

theorem wit_ExitLeaves : ∃ c f s d x s1 m, (Instr.exit c f).wf = true ∧ Issues s c false d x s1 ∧ x.members = [m] ∧
    handlerStays (x.group m) m.act ∧ allGone (exited x m s1) x.team.id = false := by
  obtain ⟨d, x, s1, h, m, -, h1, h2, h3⟩ := wit (c := silent .lane) (fuse := false) (s := base)
    (fun _ x s1 => ∃ m ∈ x.members, x.members = [m] ∧ (x.group m).trap = none ∧ allGone (exited x m s1) x.team.id = false) (by decide +kernel)
  exact ⟨silent .lane, plainC, _, d, x, s1, m, by decide, h, h1, handlerStays_none h2, h3⟩
/-- The last lanes leave while a flow of the team is in flight. -/
theorem wit_ExitLeaves_busy : ∃ c f s d x s1 m, (Instr.exit c f).wf = true ∧ Issues s c false d x s1 ∧ x.members = [m] ∧
    handlerStays (x.group m) m.act ∧ s1.teamBusy x.team.id = true := by
  obtain ⟨d, x, s1, h, m, -, h1, h2, h3⟩ := wit (c := silent .lane) (fuse := false)
    (s := { lastGroup with fills := [{ id := 7, team := 1, parcel := none, waiting := [], vals := [], regs := [], sends := [], form := false }] })
    (fun _ x s1 => ∃ m ∈ x.members, x.members = [m] ∧ (x.group m).trap = none ∧ s1.teamBusy x.team.id = true) (by decide +kernel)
  exact ⟨silent .lane, plainC, _, d, x, s1, m, by decide, h, h1, handlerStays_none h2, h3⟩

theorem wit_ExitEnds : ∃ c f s d x s1 m, (Instr.exit c f).wf = true ∧ Issues s c false d x s1 ∧ x.members = [m] ∧
    handlerStays (x.group m) m.act ∧ allGone (exited x m s1) x.team.id = true ∧ s1.teamBusy x.team.id = false := by
  obtain ⟨d, x, s1, h, m, -, h1, h2, h3, h4⟩ := wit (c := silent .lane) (fuse := false) (s := lastGroup)
    (fun _ x s1 => ∃ m ∈ x.members, x.members = [m] ∧ (x.group m).trap = none ∧ allGone (exited x m s1) x.team.id = true ∧
      s1.teamBusy x.team.id = false) (by decide +kernel)
  exact ⟨silent .lane, plainC, _, d, x, s1, m, by decide, h, h1, handlerStays_none h2, h3, h4⟩

theorem loopsAgree_of {t : Team} (h : ∀ g ∈ t.groups, ∀ h ∈ t.groups, loopKey g.loops = loopKey h.loops) : LoopsAgree t :=
  fun g hg k hk _ _ => h g hg k hk

theorem wit_TjoinParks : ∃ c f s d x s1, (Instr.tjoin c f).wf = true ∧ Issues s c false d x s1 ∧ LoopsAgree x.team ∧
    s1.teamBusy x.team.id = false := by
  obtain ⟨d, x, s1, h, h1, h2⟩ := wit (c := silent .team) (fuse := false) (s := base)
    (fun _ x s1 => (∀ g ∈ x.team.groups, ∀ h ∈ x.team.groups, loopKey g.loops = loopKey h.loops) ∧ s1.teamBusy x.team.id = false) (by decide +kernel)
  exact ⟨silent .team, plainC, _, d, x, s1, by decide, h, loopsAgree_of h1, h2⟩

theorem wit_TjoinTraps : ∃ c f s d x s1, (Instr.tjoin c f).wf = true ∧ Issues s c false d x s1 ∧ ¬ LoopsAgree x.team ∧ CanEnter x s1 := by
  obtain ⟨d, x, s1, h, h0, h4⟩ := wit (c := silent .team) (fuse := false) (s := looping)
    (fun _ x s1 => x.team.groups.any (fun g => x.team.groups.any (fun k => decide (g.exited ≠ 0xFFFF_FFFF#32) &&
      decide (k.exited ≠ 0xFFFF_FFFF#32) && decide (loopKey g.loops ≠ loopKey k.loops))) = true ∧ canEnter x s1 = true) (by decide +kernel)
  obtain ⟨g, hg, h0⟩ := List.any_eq_true.1 h0
  obtain ⟨k, hk, h0⟩ := List.any_eq_true.1 h0
  simp only [Bool.and_eq_true, decide_eq_true_eq] at h0
  obtain ⟨⟨h1, h2⟩, h3⟩ := h0
  exact ⟨silent .team, plainC, _, d, x, s1, by decide, h, fun a => h3 (a g hg k hk h1 h2), canEnter_iff h4⟩

def regionF : FmtR := { n := 1, r0 := 0, r1 := 0, r2 := 0, r3 := 0 }

theorem wit_RegionNames : ∃ c f s d x s1 m, (Instr.region c f).wf = true ∧ Issues s c true d x s1 ∧ x.members = [m] ∧
    regionOperandsOk f d.node = true := by
  obtain ⟨d, x, s1, h, ⟨m, -, h1⟩, h2⟩ := wit (c := silent .lane) (fuse := true) (s := base)
    (fun d x _ => (∃ m ∈ x.members, x.members = [m]) ∧ regionOperandsOk regionF d.node = true) (by decide +kernel)
  exact ⟨silent .lane, regionF, _, d, x, s1, m, by decide, h, h1, h2⟩

/-- The cause of pre-emption as a computation. -/
def cause (s : State) (n : Node) (u : Team) : Bool :=
  u.preempt || u.nwait.isSome || s.outranked n u || (s.deadlocked u.core).any (fun v => decide (v.id = u.id))

theorem cause_iff {s : State} {n : Node} {u : Team} : cause s n u = true ↔ Cause s n u := by
  simp only [cause, Cause, Bool.or_eq_true, Option.isSome_iff_ne_none, Option.any_eq_true, decide_eq_true_eq, or_assoc]

theorem wit_YieldOffers : ∃ c f s d x s1, (Instr.yield c f).wf = true ∧ Issues s c false d x s1 ∧
    ∀ u ∈ s1.preemptSet x.node x.team, ¬ Cause s1 x.node u := by
  obtain ⟨d, x, s1, h, h1⟩ := wit (c := silent .team) (fuse := false) (s := base)
    (fun _ x s1 => ∀ u ∈ s1.preemptSet x.node x.team, cause s1 x.node u = false) (by decide +kernel)
  exact ⟨silent .team, plainC, _, d, x, s1, by decide, h, fun u hu hc => by have := h1 u hu; rw [cause_iff.2 hc] at this; cases this⟩

/-- The yielding team itself was told to go. -/
theorem wit_YieldLeaves : ∃ c f s d x s1, (Instr.yield c f).wf = true ∧ Issues s c false d x s1 ∧
    ∃ u ∈ s1.preemptSet x.node x.team, u.id = x.team.id ∧ Cause s1 x.node u := by
  obtain ⟨d, x, s1, h, u, hu, h1, h2⟩ := wit (c := silent .team) (fuse := false) (s := base.modTeam 1 (fun t => { t with preempt := true }))
    (fun _ x s1 => ∃ u ∈ s1.preemptSet x.node x.team, u.id = x.team.id ∧ cause s1 x.node u = true) (by decide +kernel)
  exact ⟨silent .team, plainC, _, d, x, s1, by decide, h, u, hu, h1, cause_iff.1 h2⟩

/-- A Ready node of a higher priority that no core has room for: its teams have more registers than the register file. -/
def crowded : State := base.modPart 0 (fun p => { p with nodes := p.nodes ++ [{ bootNode 2 with
  state := .ready, handle := 2, effPrio := 1, dispatched := false, desc := { (bootNode 2).desc with regs := 65536 } }] })

theorem wit_YieldLeaves_outranked : ∃ c f s d x s1, (Instr.yield c f).wf = true ∧ Issues s c false d x s1 ∧
    ∃ u ∈ s1.preemptSet x.node x.team, u.preempt = false ∧ s1.outranked x.node u = true := by
  obtain ⟨d, x, s1, h, h1⟩ := wit (c := silent .team) (fuse := false) (s := (crowded.modComp 0 (fun k => { k with state := .active })))
    (fun _ x s1 => ∃ u ∈ s1.preemptSet x.node x.team, u.preempt = false ∧ s1.outranked x.node u = true) (by decide +kernel)
  exact ⟨silent .team, plainC, _, d, x, s1, by decide, h, h1⟩

/-- The node is `.coresident`, and its second team on the core holds every bank and waits for another: a sibling of the yielding team is
the one that goes. -/
def bankBound : State :=
  let s := base.modNode 0 (fun n => { n with desc := { n.desc with cores := true } })
  let t := bootTeam (bootNode 0) 9
  { s with teams := s.teams ++ [{ t with
      banks := (List.range 16).map (fun b => (b, { data := [], perturb := none }))
      groups := t.groups.map (fun g => { g with strands := g.strands.map (fun st => { st with hold := .resource true }) }) }] }

theorem wit_YieldLeaves_deadlocked : ∃ c f s d x s1, (Instr.yield c f).wf = true ∧ Issues s c false d x s1 ∧
    ∃ u ∈ s1.preemptSet x.node x.team, u.id ≠ x.team.id ∧ Cause s1 x.node u := by
  obtain ⟨d, x, s1, h, u, h1, h2, h3⟩ := wit (c := silent .team) (fuse := false) (s := bankBound)
    (fun _ x s1 => ∃ u ∈ s1.preemptSet x.node x.team, u.id ≠ x.team.id ∧ cause s1 x.node u = true) (by decide +kernel)
  exact ⟨silent .team, plainC, _, d, x, s1, by decide, h, u, h1, h2, cause_iff.1 h3⟩

/-! ### Traps and handlers -/

theorem wit_TrapTaken : ∃ c f s d x s1, (Instr.trap c f).wf = true ∧ Issues s c false d x s1 ∧ wordOk f d.node = true ∧
    (countSrc f).undef d.team.form d.gr d.act = false ∧ Reads (readOp c (countSrc f)) d x ∧ CanEnter x s1 := by
  obtain ⟨d, x, s1, h, h1, h2, h3, h4⟩ := wit (c := silent .team) (fuse := false) (s := handling)
    (fun d x s1 => wordOk { plainC with srca := 8 } d.node = true ∧ (countSrc { plainC with srca := 8 }).undef d.team.form d.gr d.act = false ∧
      reads (readOp (silent .team) (countSrc { plainC with srca := 8 })) d x = true ∧ canEnter x s1 = true) (by decide +kernel)
  exact ⟨silent .team, { plainC with srca := 8 }, _, d, x, s1, by decide, h, h1, h2, reads_iff h3, canEnter_iff h4⟩

theorem wit_BreakpointTaken : ∃ c f s d x s1, (Instr.bkpt c f).wf = true ∧ Issues s c false d x s1 ∧ CanEnter x s1 := by
  obtain ⟨d, x, s1, h, h4⟩ := wit (c := silent .lane) (fuse := false) (s := handling) (fun _ x s1 => canEnter x s1 = true) (by decide +kernel)
  exact ⟨silent .lane, plainC, _, d, x, s1, by decide, h, canEnter_iff h4⟩

/-- Group 0 in its handler, after a breakpoint at lane scope. -/
def inHandler : State := handling.modGroup 1 0 (fun g => { g with
  trap := some { ecause := 0, epc := 0x10001, eaddr := 0, scope := .lane, members := [0], done := false, quads := 0xFF, outside := 0, loops := [] } })

theorem wit_TretReturns : ∃ c f s d x s1 m r, (Instr.tret c f).wf = true ∧ Issues s c false d x s1 ∧ x.members = [m] ∧
    (x.group m).trap = some r ∧ r.members = [m.g] ∧ (x.group m).divs = [] ∧ (∀ lp ∈ r.loops, lp.waiting = 0#32) ∧
    ∀ lp ∈ r.loops.head?, lp.fin ≠ va57 r.epc := by
  obtain ⟨d, x, s1, h, m, -, h1, r, h2, h3⟩ := wit (c := silent .lane) (fuse := false) (s := inHandler)
    (fun _ x _ => ∃ m ∈ x.members, x.members = [m] ∧ ∃ r ∈ (x.group m).trap, r.members = [m.g] ∧ (x.group m).divs = [] ∧ r.loops = [])
    (by decide +kernel)
  obtain ⟨h3, h4, h5⟩ := h3
  exact ⟨silent .lane, { reg := 0, csr := 0 }, _, d, x, s1, m, r, by decide, h, h1, h2, h3, h4, (fun lp hl => by rw [h5] at hl; cases hl),
    (fun lp hl => by rw [h5] at hl; cases hl)⟩

/-- The last lanes of the handler strand leave. -/
theorem wit_ExitReturns : ∃ c f s d x s1 m r, (Instr.exit c f).wf = true ∧ Issues s c false d x s1 ∧ x.members = [m] ∧
    (x.group m).trap = some r ∧ r.members = [m.g] ∧ (x.group m).divs = [] ∧ (∀ lp ∈ r.loops, lp.waiting = 0#32) ∧
    quadLanes r.quads &&& ~~~r.outside &&& ~~~((x.group m).exited ||| m.act) = 0#32 := by
  obtain ⟨d, x, s1, h, m, -, h1, r, h2, h3, h4, h5, h6⟩ := wit (c := silent .lane) (fuse := false) (s := inHandler)
    (fun _ x _ => ∃ m ∈ x.members, x.members = [m] ∧ ∃ r ∈ (x.group m).trap, r.members = [m.g] ∧ (x.group m).divs = [] ∧ r.loops = [] ∧
      quadLanes r.quads &&& ~~~r.outside &&& ~~~((x.group m).exited ||| m.act) = 0#32) (by decide +kernel)
  exact ⟨silent .lane, plainC, _, d, x, s1, m, r, by decide, h, h1, h2, h3, h4, (fun lp hl => by rw [h5] at hl; cases hl), h6⟩

/-- The trap was taken last in the body of a loop, with two passes to go. -/
def atBodyEnd : State := inHandler.modGroup 1 0 (fun g => { g with trap := g.trap.map (fun r => { r with
  loops := [{ n := 1, count := 2, top := 0x10000, fin := 0x10001, depth := 0, waiting := 0 }] }) })

theorem wit_TretEndsPass : ∃ c f s d x s1 m r lp rest, (Instr.tret c f).wf = true ∧ Issues s c false d x s1 ∧ x.members = [m] ∧
    (x.group m).trap = some r ∧ r.members = [m.g] ∧ (x.group m).divs = [] ∧ r.loops = lp :: rest ∧ lp.waiting = 0#32 ∧ lp.fin = va57 r.epc ∧
    quadLanes r.quads &&& ~~~r.outside &&& ~~~(x.group m).exited ≠ 0#32 ∧
    (∀ l ∈ lanesOf (~~~(quadLanes r.quads &&& ~~~r.outside &&& ~~~(x.group m).exited) &&& ~~~(x.group m).exited),
      inBody lp.top lp.fin ((x.group m).pcOf l) = false) ∧ lp.count ≠ 1#32 := by
  obtain ⟨d, x, s1, h, m, -, h1, r, h2, h3, h4, lp, hl, h5, h6, h7, h8, h9, h10⟩ := wit (c := silent .lane) (fuse := false) (s := atBodyEnd)
    (fun _ x _ => ∃ m ∈ x.members, x.members = [m] ∧ ∃ r ∈ (x.group m).trap, r.members = [m.g] ∧ (x.group m).divs = [] ∧
      ∃ lp ∈ r.loops, r.loops = [lp] ∧ lp.waiting = 0#32 ∧ lp.fin = va57 r.epc ∧
        quadLanes r.quads &&& ~~~r.outside &&& ~~~(x.group m).exited ≠ 0#32 ∧
        (∀ l ∈ lanesOf (~~~(quadLanes r.quads &&& ~~~r.outside &&& ~~~(x.group m).exited) &&& ~~~(x.group m).exited),
          inBody lp.top lp.fin ((x.group m).pcOf l) = false) ∧ lp.count ≠ 1#32) (by decide +kernel)
  exact ⟨silent .lane, { reg := 0, csr := 0 }, _, d, x, s1, m, r, lp, [], by decide, h, h1, h2, h3, h4, h5, h6, h7, h8, h9, h10⟩

/-! ### Control registers -/

theorem wit_CsrrReads (n : BitVec 16) (hn : n ∈ [1#16, 2, 3, 4, 5, 6, 7]) : ∃ c f s d x s1, f.csr = n ∧ (Instr.csrr c f).wf = true ∧
    Issues s c false d x s1 ∧ (1 ≤ f.csr.toNat ∧ f.csr.toNat ≤ 7) ∧ VReady (csrrClaim c f s) d x s1 := by
  obtain ⟨d, x, s1, h, h1⟩ := wit (c := writes .lane) (fuse := false) (s := inHandler)
    (fun d x s1 => [1#16, 2, 3, 4, 5, 6, 7].all (fun n => vready (csrrClaim (writes .lane) { reg := 4, csr := n } inHandler) d x s1) = true)
    (by decide +kernel)
  have hw : ∀ n ∈ [1#16, 2, 3, 4, 5, 6, 7], (Instr.csrr (writes .lane) { reg := 4, csr := n }).wf = true ∧ 1 ≤ n.toNat ∧ n.toNat ≤ 7 := by
    simp only [List.forall_mem_cons]; exact ⟨by decide, by decide, by decide, by decide, by decide, by decide, by decide, by simp⟩
  exact ⟨writes .lane, { reg := 4, csr := n }, _, d, x, s1, rfl, (hw n hn).1, h, (hw n hn).2, vready_iff (List.all_eq_true.1 h1 n hn)⟩

/-- The node runs in firmware mode. -/
def firmware : State := base.modNode 0 (fun n => { n with firmware := true })

theorem wit_CsrrReads_firmware (n : BitVec 16) (hn : n = 0x8000 ∨ n = 0x8004) : ∃ c f s d x s1, f.csr = n ∧ (Instr.csrr c f).wf = true ∧
    Issues s c false d x s1 ∧ (0x8000 ≤ f.csr.toNat ∧ f.csr.toNat ≤ 0x8004 ∧ d.node.firmware = true) ∧ VReady (csrrClaim c f s) d x s1 := by
  obtain ⟨d, x, s1, h, h1, h2⟩ := wit (c := writes .lane) (fuse := false) (s := firmware)
    (fun d x s1 => [0x8000#16, 0x8004].all (fun n => vready (csrrClaim (writes .lane) { reg := 4, csr := n } firmware) d x s1) = true ∧
      d.node.firmware = true) (by decide +kernel)
  have hn' : n ∈ [0x8000#16, 0x8004] := by simpa using hn
  have hw : ∀ n ∈ [0x8000#16, 0x8004], (Instr.csrr (writes .lane) { reg := 4, csr := n }).wf = true ∧ 0x8000 ≤ n.toNat ∧ n.toNat ≤ 0x8004 := by
    simp only [List.forall_mem_cons]; exact ⟨by decide +kernel, by decide +kernel, by simp⟩
  exact ⟨writes .lane, { reg := 4, csr := n }, _, d, x, s1, rfl, (hw n hn').1, h, ⟨(hw n hn').2.1, (hw n hn').2.2, h2⟩,
    vready_iff (List.all_eq_true.1 h1 n hn')⟩

theorem wit_CsrrProtects (n : BitVec 16) (hn : n = 0x8000 ∨ n = 0x8004) : ∃ c f s d x s1, f.csr = n ∧ (Instr.csrr c f).wf = true ∧
    Issues s c false d x s1 ∧ 0x8000 ≤ f.csr.toNat ∧ f.csr.toNat ≤ 0x8004 ∧ d.node.firmware = false ∧
    (csrrClaim c f s).static d.node = none ∧ CanEnter x s1 := by
  obtain ⟨d, x, s1, h, h1, h3, h2⟩ := wit (c := writes .lane) (fuse := false) (s := handling)
    (fun d x s1 => [0x8000#16, 0x8004].all (fun n => decide ((csrrClaim (writes .lane) { reg := 4, csr := n } handling).static d.node = none)) = true ∧
      d.node.firmware = false ∧ canEnter x s1 = true) (by decide +kernel)
  have hn' : n ∈ [0x8000#16, 0x8004] := by simpa using hn
  have hw : ∀ n ∈ [0x8000#16, 0x8004], (Instr.csrr (writes .lane) { reg := 4, csr := n }).wf = true ∧ 0x8000 ≤ n.toNat ∧ n.toNat ≤ 0x8004 := by
    simp only [List.forall_mem_cons]; exact ⟨by decide +kernel, by decide +kernel, by simp⟩
  exact ⟨writes .lane, { reg := 4, csr := n }, _, d, x, s1, rfl, (hw n hn').1, h, (hw n hn').2.1, (hw n hn').2.2, h3,
    of_decide_eq_true (List.all_eq_true.1 h1 n hn'), canEnter_iff h2⟩

/-- `csrw` of lflags and of epc at lane scope in the handler. -/
theorem wit_CsrwWrites (n : BitVec 16) (hn : n = 4 ∨ n = 2) : ∃ c f s d x s1, f.csr = n ∧ (Instr.csrw c f).wf = true ∧ Issues s c false d x s1 ∧
    (csrwSrc f).ok d.node.desc.regs = true ∧ (csrwSrc f).undef d.team.form d.gr d.act = false ∧ Reads (readOp c (csrwSrc f)) d x ∧
    d.gr.trap.isSome = true ∧
    ∀ m ∈ x.members, ∀ l, lowestLane m.act = some l → slotOf (BitVec.ofNat 64 (x.read s1 (csrwSrc f) m l)) < 5 := by
  obtain ⟨d, x, s1, h, h1, h2⟩ := wit (c := silent .lane) (fuse := false) (s := inHandler)
    (fun d x s1 => [4#16, 2].all (fun n => decide ((csrwSrc { reg := 8, csr := n }).ok d.node.desc.regs = true ∧
      (csrwSrc { reg := 8, csr := n }).undef d.team.form d.gr d.act = false ∧ reads (readOp (silent .lane) (csrwSrc { reg := 8, csr := n })) d x = true ∧
      ∀ m ∈ x.members, ∀ l ∈ lowestLane m.act, slotOf (BitVec.ofNat 64 (x.read s1 (csrwSrc { reg := 8, csr := n }) m l)) < 5)) = true ∧
      d.gr.trap.isSome = true) (by decide +kernel)
  have hn' : n ∈ [4#16, 2] := by simpa using hn
  have hw : ∀ n ∈ [4#16, 2], (Instr.csrw (silent .lane) { reg := 8, csr := n }).wf = true := by
    simp only [List.forall_mem_cons]; exact ⟨by decide, by decide, by simp⟩
  obtain ⟨a, b, e, g⟩ := of_decide_eq_true (List.all_eq_true.1 h1 n hn')
  exact ⟨silent .lane, { reg := 8, csr := n }, _, d, x, s1, rfl, hw n hn', h, a, b, reads_iff e, h2, g⟩

/-- `csrw` of mwin at team scope: the register window of v8:v9 has no bit that must be zero. -/
theorem wit_CsrwWrites_mwin : ∃ c f s d x s1, f.csr = 5 ∧ c.scope = .team ∧ (Instr.csrw c f).wf = true ∧ Issues s c false d x s1 ∧
    (csrwSrc f).ok d.node.desc.regs = true ∧ (csrwSrc f).undef d.team.form d.gr d.act = false ∧ Reads (readOp c (csrwSrc f)) d x ∧
    BitVec.ofNat 64 (x.readFirst s1 (csrwSrc f)) &&& 0xFE00_0000_0000_FFFF#64 = 0 := by
  obtain ⟨d, x, s1, h, h1, h2, h3, h4⟩ := wit (c := silent .team) (fuse := false) (s := reged base 8 0x70000)
    (fun d x s1 => (csrwSrc { reg := 8, csr := 5 }).ok d.node.desc.regs = true ∧
      (csrwSrc { reg := 8, csr := 5 }).undef d.team.form d.gr d.act = false ∧ reads (readOp (silent .team) (csrwSrc { reg := 8, csr := 5 })) d x = true ∧
      BitVec.ofNat 64 (x.readFirst s1 (csrwSrc { reg := 8, csr := 5 })) &&& 0xFE00_0000_0000_FFFF#64 = 0) (by decide +kernel)
  exact ⟨silent .team, { reg := 8, csr := 5 }, _, d, x, s1, rfl, rfl, by decide, h, h1, h2, reads_iff h3, h4⟩

/-- `csrw` of shsize and of the error counters in firmware mode. -/
theorem wit_CsrwWrites_firmware (n : BitVec 16) (hn : n = 0x8001 ∨ n = 0x8004) : ∃ c f s d x s1, f.csr = n ∧ (Instr.csrw c f).wf = true ∧
    Issues s c false d x s1 ∧ (csrwSrc f).ok d.node.desc.regs = true ∧ (csrwSrc f).undef d.team.form d.gr d.act = false ∧
    Reads (readOp c (csrwSrc f)) d x ∧ 0x8001 ≤ f.csr.toNat ∧ f.csr.toNat ≤ 0x8004 ∧ d.node.firmware = true := by
  obtain ⟨d, x, s1, h, h1, h2⟩ := wit (c := silent .team) (fuse := false) (s := firmware)
    (fun d x _ => [0x8001#16, 0x8004].all (fun n => decide ((csrwSrc { reg := 8, csr := n }).ok d.node.desc.regs = true ∧
      (csrwSrc { reg := 8, csr := n }).undef d.team.form d.gr d.act = false ∧
      reads (readOp (silent .team) (csrwSrc { reg := 8, csr := n })) d x = true)) = true ∧ d.node.firmware = true) (by decide +kernel)
  have hn' : n ∈ [0x8001#16, 0x8004] := by simpa using hn
  have hw : ∀ n ∈ [0x8001#16, 0x8004], (Instr.csrw (silent .team) { reg := 8, csr := n }).wf = true ∧ 0x8001 ≤ n.toNat ∧ n.toNat ≤ 0x8004 := by
    simp only [List.forall_mem_cons]; exact ⟨by decide +kernel, by decide +kernel, by simp⟩
  obtain ⟨a, b, e⟩ := of_decide_eq_true (List.all_eq_true.1 h1 n hn')
  exact ⟨silent .team, { reg := 8, csr := n }, _, d, x, s1, rfl, (hw n hn').1, h, a, b, reads_iff e, (hw n hn').2.1, (hw n hn').2.2, h2⟩

end Sys2Proof.Tests
end

