-- ==== Sys2Proof/Tests/WitnessEngine.lean ====
section
/-! SUPPORT. Witnesses: for each barrier, matrix, claim, queue and launch instruction, a state and operands in which its statement says
that it completes. -/

set_option Elab.async false

namespace Sys2Proof.Tests

open Sys2Proof Sys2Proof.Machine Sys2Proof.Claims

theorem any_get {α : Type} {o : Option α} {p : α → Bool} {a : α} (h : o.any p = true) (ha : o = some a) : p a = true := by
  subst ha; exact h

theorem none_isSome {α : Type} {o : Option α} (h : o = none) (hs : o.isSome = true) : False := by
  subst h; cases hs

/-- `Completing table` has a state and operands for `i`. -/
def Meets (table : Instr → Option Eng) (i : Instr) : Prop := ∃ e s d x s1, table i = some e ∧ i.wf = true ∧ Issues s e.regs.c false d x s1 ∧
  e.legal d.node = true ∧ EReady e.regs d x s1 ∧ e.ready x (firstValues e.regs x s1) s1

theorem meets {table : Instr → Option Eng} {i : Instr} {e : Eng} (s : State) (R : Ctx → List Nat → State → Prop) [∀ x v s, Decidable (R x v s)]
    (ht : table i = some e) (hw : i.wf = true) (hr : ∀ x v s, R x v s → e.ready x v s)
    (h : (found e.regs.c false s).any (fun p => decide ((fun (d : Stand) (x : Ctx) (s1 : State) => e.legal d.node = true ∧
      eready e.regs d x s1 = true ∧ R x (firstValues e.regs x s1) s1) p.1 p.2.1 p.2.2)) = true) : Meets table i := by
  obtain ⟨d, x, s1, hi, h1, h2, h3⟩ := wit (fun (d : Stand) (x : Ctx) (s1 : State) => e.legal d.node = true ∧
      eready e.regs d x s1 = true ∧ R x (firstValues e.regs x s1) s1) h
  exact ⟨e, s, d, x, s1, ht, hw, hi, h1, eready_iff h2, hr _ _ _ h3⟩

/-- The team with its state changed. -/
def teamed (f : Team → Team) : State := base.modTeam 1 f

/-- Barrier object `o` initialised with COUNT 4, one arrival outstanding, and one phase complete. -/
def bar (o : Nat) : State :=
  teamed (fun t => { t with bars := [(o, { init := true, scope := .sys, grid := false, count := 4, pending := 1, phase := 1, heldArrivals := 0, heads := [] })] })

/-- Bank 3 and reservation 1 held. -/
def held : State := teamed (fun t =>
  { t with banks := [(3, { data := [], perturb := none })],
           obs := [(1, { base := 0, len := 65536, fmt := .e4m3, scaleOff := 0, nk := false, bcast := true })] })

/-- A descriptor of a copy from 0 to 0x1000 into a circular buffer. -/
def copyDesc (cbuf : Bool) : ClaimDesc :=
  { kind := .copy, scope := .sys, cbuf := cbuf, comp := 0, bark := 0, bar := 0, rop := 0, peer := 0, route := 0,
    src := { base := 0, esz := 16, ext := [256], stride := [16] }, dst := { base := 0x1000, esz := 16, ext := [256], stride := [16] } }

/-- Page 0, writable. -/
def pageZero : Extent := { vpage := 0, pages := 1, ppage := 0, attr := ⟨true, false, false, 0, 0, 0⟩, lo := 0, hi := 0x2000, dst := false, dir := 0 }

/-- Claim 2 in the state given, with a circular buffer of 4 slots at 0x200 of which one is filled and one taken. -/
def claiming (st : ClaimState) (f : Claim → Claim) : State := teamed (fun t =>
  { t with claims := [(2, f { Claim.free with
      state := st
      desc := some (copyDesc true)
      descAddr := 0x40
      extents := [pageZero]
      buf := some { base := 0x200, size := 256, count := 4, free := 2, inflight := 0, filled := 1, taken := 1, head := 2, tail := 1 } })] })

/-- The instruction `k` on object `o` recorded for every group. -/
def recordedIn (s : State) (k : RecKind) (o : Nat) : State := groupsOf s (fun g => { g with replay := [{ lanes := 0xFFFFFFFF#32, kind := k, obj := o, addr := 0x10000, slot := 0x220 }] })

/-! ### Barrier objects -/

theorem wit_barArrive : Meets barrierEng (.barArrive (silent .group) { plainE with obj := 1 }) :=
  meets (bar 1) (fun x vs s => (barGet x.node x.team 1).init = true ∧ x.quiet s = true)
    rfl (by decide) (fun _ _ _ h => h) (by decide +kernel)
theorem wit_barDrop : Meets barrierEng (.barDrop (silent .group) { plainE with obj := 1, flags := 3 }) :=
  meets (bar 1) (fun x vs s => (barGet x.node x.team 1).init = true ∧ (barGet x.node x.team 1).count ≠ 1 ∧ x.quiet s = true)
    rfl (by decide) (fun _ _ _ h => h) (by decide +kernel)
theorem wit_barWait : Meets barrierEng (.barWait (silent .team) { plainE with obj := 1, flags := 1 }) :=
  meets (bar 1) (fun x vs s => x.recorded .barWait 1 = none ∧ (barGet x.node x.team 1).init = true ∧ ∀ m ∈ x.members, 1 ≤ ((barGet x.node x.team 1).phase - waitOf x m 1).toNat ∧ ((barGet x.node x.team 1).phase - waitOf x m 1).toNat < 2 ^ 31)
    rfl (by decide) (fun _ _ _ h => h) (by decide +kernel)
theorem wit_barTest_team : Meets barrierEng (.barTest (writes .group) { plainE with sdst := 4, obj := 1, flags := 2 }) :=
  meets (bar 1) (fun x vs s => (barGet x.node x.team 1).init = true ∨ 16 ≤ 1)
    rfl (by decide) (fun _ _ _ h => h) (by decide +kernel)
theorem wit_barTest_cluster : Meets barrierEng (.barTest (writes .group) { plainE with sdst := 4, obj := 7, flags := 10 }) :=
  meets (base) (fun x vs s => (barGet x.node x.team 23).init = true ∨ 16 ≤ 23)
    rfl (by decide) (fun _ _ _ h => h) (by decide +kernel)
theorem wit_barinit_team : Meets barrierEng (.barinit (silent .team) { plainE with opa := 8, obj := 15, flags := 0x20 }) :=
  meets (reged base 8 65535) (fun x vs s => x.recorded .barinit 15 = none ∧ 1 ≤ vs.headD 0 ∧ vs.headD 0 ≤ 65535 ∧ x.team.waitsOn 15 = false ∧ s.arrivalPending x.team 15 = false)
    rfl (by decide) (fun _ _ _ h => ⟨h.1, h.2.1, h.2.2.1, fun hf => absurd hf (by decide), h.2.2.2⟩) (by decide +kernel)
theorem wit_barinit_grid : Meets barrierEng (.barinit (silent .team) { plainE with opa := 1537, obj := 7, flags := 0xB8 }) :=
  meets (base.modNode 0 (fun n => { n with desc := { n.desc with cores := true } })) (fun x vs s => x.recorded .barinit 23 = none ∧ (1 ≤ vs.headD 0 ∧ vs.headD 0 ≤ 65535) ∧ (x.team.tx = 0 ∧ x.team.ty = 0 ∧ x.team.tz = 0 ∧ x.node.desc.cores = true) ∧ x.team.rank = x.team.lead ∧ (barGet x.node x.team 23).init = false)
    rfl (by decide) (fun _ _ _ h => ⟨h.1, h.2.1.1, h.2.1.2, fun _ => h.2.2.1, h.2.2.2⟩) (by decide +kernel)

theorem wit_TeamObjectFresh : ∃ (s : State) (x : Ctx) (f : FmtE) (t : Team), f.flags.getLsbD 3 = false ∧ f.flags.getLsbD 4 = false ∧
    s.team? x.team.id = some t := by
  obtain ⟨d, x, s1, -, h⟩ := wit (c := silent .team) (fuse := false) (s := base) (fun _ x s1 => (s1.team? x.team.id).isSome = true) (by decide +kernel)
  obtain ⟨t, h⟩ := Option.isSome_iff_exists.1 h
  exact ⟨s1, x, plainE, t, by decide, by decide, h⟩

theorem wit_PhasesCount : ∃ b : BarObj, 1 ≤ b.count ∧ b.pending = b.count :=
  ⟨{ init := true, scope := .team, grid := false, count := 1, pending := 1, phase := 0xFFFFFFFF, heldArrivals := 0, heads := [] }, by decide, rfl⟩

/-! ### Reservations, banks and the matrix unit -/

theorem wit_aalloc : Meets matrixEng (.aalloc (silent .team) { plainE with obj := 15 }) :=
  meets (held) (fun x vs s => x.recorded .aalloc 15 = none ∧ Tbl.find? x.team.banks 15 = none ∧ s.banksUsed x.team.core < 16 ∧ s.olderWaits x.team true = false)
    rfl (by decide) (fun _ _ _ h => h) (by decide +kernel)
theorem wit_afree : Meets matrixEng (.afree (silent .team) { plainE with obj := 3 }) :=
  meets (held) (fun x vs s => (Tbl.find? x.team.banks 3).isSome = true ∧ s.bankOps x.team 3 = [])
    rfl (by decide) (fun _ _ _ h => h) (by decide +kernel)
theorem wit_obres : Meets matrixEng (.obres (silent .team) { plainE with opa := 1536, opb := 8, opc := 1536, obj := 2, flags := 11 }) :=
  meets (reged base 8 65536) (fun x vs s => x.recorded .obres 2 = none ∧ Tbl.find? x.team.obs 2 = none ∧
      (let r := reservation { plainE with opa := 1536, opb := 8, opc := 1536, obj := 2, flags := 11 } vs
       r.base % 65536 = 0 ∧ r.len % 128 = 0 ∧ 128 ≤ r.len ∧ r.base + r.len ≤ x.node.desc.scratch ∧ r.scaleOff % 32 = 0 ∧
       r.scaleOff < r.len ∧ (∀ e ∈ x.team.obs, e.2.base + e.2.len ≤ r.base ∨ r.base + r.len ≤ e.2.base) ∧
       (r.bcast = true → x.node.desc.bcast = true ∧ x.team.rank = x.team.lead)) ∧ s.obsUsed x.team.core < 16 ∧ s.olderWaits x.team false = false)
    rfl (by decide) (fun _ _ _ h => h) (by decide +kernel)
theorem wit_obrel : Meets matrixEng (.obrel (silent .team) { plainE with obj := 1 }) :=
  meets (held) (fun x vs s => (Tbl.find? x.team.obs 1).isSome = true ∧ s.obBusy x.team.id 1 = false)
    rfl (by decide) (fun _ _ _ h => h) (by decide +kernel)
theorem wit_ald_zero : Meets matrixEng (.ald (silent .team) { plainE with obj := 3, flags := 1 }) :=
  meets (held) (fun x vs s => ((Tbl.find? x.team.banks 3).isSome = true ∧ ((s.core x.team.core).matq.filter (fun o => !o.started)).length < 4))
    rfl (by decide) (fun _ _ _ h => ⟨h, fun hf => absurd hf (by decide)⟩) (by decide +kernel)
theorem wit_ald_rows : Meets matrixEng (.ald (silent .team) { plainE with opa := 8, opb := 9, obj := 3 }) :=
  meets (reged (reged (held.modNode 0 (fun n => { n with desc := { n.desc with scratch := 1048576 } })) 8 950272) 9 768) (fun x vs s => ((Tbl.find? x.team.banks 3).isSome = true ∧ ((s.core x.team.core).matq.filter (fun o => !o.started)).length < 4) ∧ (vs.getD 0 0 % 32 = 0 ∧ vs.getD 1 0 % 32 = 0 ∧ 768 ≤ vs.getD 1 0 ∧ vs.getD 0 0 < 2 ^ 31 ∧ vs.getD 0 0 + 127 * vs.getD 1 0 + 768 ≤ x.node.desc.scratch))
    rfl (by decide) (fun _ _ _ h => ⟨h.1, fun _ => h.2⟩) (by decide +kernel)
theorem wit_ast : Meets matrixEng (.ast (silent .team) { plainE with opa := 8, opb := 9, opc := 10, obj := 3, flags := 11 }) :=
  meets (reged (reged (reged (held.modNode 0 (fun n => { n with desc := { n.desc with scratch := 1048576 } })) 8 0) 9 192) 10 1047552) (fun x vs s => ((Tbl.find? x.team.banks 3).isSome = true ∧ ((s.core x.team.core).matq.filter (fun o => !o.started)).length < 4) ∧ (vs.getD 0 0 % 32 = 0 ∧ vs.getD 1 0 % 32 = 0 ∧ (24 * tyBits .e4m3) ≤ vs.getD 1 0 ∧ vs.getD 0 0 < 2 ^ 31 ∧ vs.getD 0 0 + 127 * vs.getD 1 0 + (24 * tyBits .e4m3) ≤ x.node.desc.scratch) ∧ (vs.getD 2 0 < 2 ^ 31 ∧ vs.getD 2 0 + 1021 < x.node.desc.scratch))
    rfl (by decide) (fun _ _ _ h => ⟨h.1, h.2.1, fun _ => h.2.2⟩) (by decide +kernel)
theorem wit_aget : Meets matrixEng (.aget (writes .team) { plainE with sdst := 448, opa := 8, obj := 3, flags := 63 }) :=
  meets (reged held 8 128) (fun x vs s => ((Tbl.find? x.team.banks 3).isSome = true ∧ ((s.core x.team.core).matq.filter (fun o => !o.started)).length < 4) ∧ vs.getD 0 0 + 64 ≤ 192 ∧ ∀ m ∈ x.members, m.act ≠ 0#32 → ∀ i < 64, (x.group m).isEmpty (448 + i) = false)
    rfl (by decide) (fun _ _ _ h => h) (by decide +kernel)
theorem wit_mwait : Meets matrixEng (.mwait (silent .team) { plainE with obj := 3, flags := 1 }) :=
  meets (held) (fun x vs s => (Tbl.find? x.team.banks 3).isSome = true ∧ s.bankOps x.team 3 = [])
    rfl (by decide) (fun _ _ _ h => ⟨h.1, fun o ho => (List.eq_nil_iff_forall_not_mem.1 h.2 o ho).elim⟩) (by decide +kernel)
theorem wit_mperturb : Meets matrixEng (.mperturb (silent .team) { plainE with opa := 8, opb := 9, opc := 10, obj := 3 }) :=
  meets (reged (reged held 8 127) 9 191) (fun x vs s => (Tbl.find? x.team.banks 3).isSome = true ∧ vs.getD 0 0 < 128 ∧ vs.getD 1 0 < 192 ∧ s.bankOps x.team 3 = [])
    rfl (by decide) (fun _ _ _ h => h) (by decide +kernel)

def mmaF : FmtX := { acc := 3, abase := 0, ascale := 16, bres := 1, boff := 0, afmt := .e4m3, mode := .acc, reuse := true, bcast := false,
                     arrive := false, bar := 0 }

theorem wit_MmaIssues : ∃ c f s d x s1 r, (Instr.mma c f).wf = true ∧ Issues s c false d x s1 ∧ f.bcast = false ∧
    mmaStatic c f d.node = none ∧ mmaCheck x f none = some r ∧ mmaEmpty c f x = false ∧ (s1.core x.team.core).queued < 4 := by
  obtain ⟨d, x, s1, h, h1, h2, h3, h4⟩ := wit (c := silent .team) (fuse := false) (s := held) (fun d x s1 =>
    mmaStatic (silent .team) mmaF d.node = none ∧ (mmaCheck x mmaF none).isSome = true ∧ mmaEmpty (silent .team) mmaF x = false ∧
    (s1.core x.team.core).queued < 4) (by decide +kernel)
  obtain ⟨r, h2⟩ := Option.isSome_iff_exists.1 h2
  exact ⟨silent .team, mmaF, held, d, x, s1, r, by decide, h, rfl, h1, h2, h3, h4⟩

theorem wit_FragmentTaken : ∃ (c : Common) (f : FmtX) (x : Ctx) (s : State) (d : Delivery) (o : MatOp), (x.team.latch (slotOfA f.abase.toNat)).held = none ∧
    ((mmaIssue c f x d s).core x.team.core).matq.getLast? = some o := by
  obtain ⟨d, x, s1, -, h1, h2⟩ := wit (c := silent .team) (fuse := false) (s := held) (fun _ x s1 =>
    (x.team.latch (slotOfA mmaF.abase.toNat)).held = none ∧
    (((mmaIssue (silent .team) mmaF x { id := 9, src := x.team.id, res := none, tile := 0 } s1).core x.team.core).matq.getLast?).isSome = true) (by decide +kernel)
  obtain ⟨o, h2⟩ := Option.isSome_iff_exists.1 h2
  exact ⟨silent .team, mmaF, x, s1, _, o, h1, h2⟩

/-! ### Claims -/

theorem wit_claim : Meets claimEng (.claim (writes .group) { plainE with sdst := 9, opa := 8, obj := 2 }) :=
  meets (claiming .held (fun y => { y with walker := some (0, 0x10000), outcome := .done 0 })) (fun x vs s => (x.team.claim 2).walker = some ((x.members.head?.map (fun m => m.g)).getD 0, x.addr) ∧ (x.team.claim 2).outcome = .done 0)
    rfl (by decide) (fun _ _ _ h => ⟨h.1, 0, h.2⟩) (by decide +kernel)
theorem wit_flow : Meets claimEng (.flow (writes .group) { plainE with sdst := 9, opa := 1536, opb := 8, obj := 2 }) :=
  meets (reged (claiming .flowing (fun y => { y with flows := 63 })) 8 256) (fun x vs s => ((x.team.claim 2).state = .held ∨ (x.team.claim 2).state = .flowing ∨ (x.team.claim 2).state = .dormant) ∧ (x.team.claim 2).flows < 64 ∧ (x.team.claim 2).deferred = 0 ∧
      (x.team.claim 2).desc = some (copyDesc true) ∧ flowOk (copyDesc true) (x.team.claim 2).buf (vs.getD 0 0) (vs.getD 1 0) = true ∧ (x.team.claim 2).buf.any (fun b => decide (b.free ≠ 0)) = true)
    rfl (by decide) (fun _ _ _ h => ⟨h.1, h.2.1, h.2.2.1, copyDesc true, h.2.2.2.1, h.2.2.2.2.1, fun hb => absurd hb (by decide), fun _ b hb => of_decide_eq_true (any_get (p := fun (b : CBuf) => decide (b.free ≠ 0)) h.2.2.2.2.2 hb)⟩) (by decide +kernel)
theorem wit_cwait : Meets claimEng (.cwait (silent .group) { plainE with obj := 2 }) :=
  meets (claiming .held id) (fun x vs s => flowsOf s x 2 = [])
    rfl (by decide) (fun _ _ _ h => .inr (fun w hw => (List.eq_nil_iff_forall_not_mem.1 h w hw).elim)) (by decide +kernel)
theorem wit_crel_held : Meets claimEng (.crel (silent .group) { plainE with obj := 2 }) :=
  meets (claiming .held id) (fun x vs s => (x.team.claim 2).state = .free ∨ flowsOf s x 2 = [])
    rfl (by decide) (fun _ _ _ h => h) (by decide +kernel)
theorem wit_crel_free : Meets claimEng (.crel (silent .group) { plainE with obj := 15 }) :=
  meets (base) (fun x vs s => (x.team.claim 15).state = .free)
    rfl (by decide) (fun _ _ _ h => .inl h) (by decide +kernel)
theorem wit_cstat : Meets claimEng (.cstat (writes .group) { plainE with sdst := 9, obj := 2, flags := 1 }) :=
  meets (claiming .held id) (fun x vs s => True)
    rfl (by decide) (fun _ _ _ _ => trivial) (by decide +kernel)
theorem wit_cbset : Meets claimEng (.cbset (silent .group) { plainE with opa := 8, opb := 9, opc := 10, obj := 2 }) :=
  meets (reged (reged (reged (claiming .free id) 8 63488) 9 32) 10 64) (fun x vs s => x.recorded .cbset 2 = none ∧ ((x.team.claim 2).state = .free ∨ (x.team.claim 2).state = .revoked ∨ (x.team.claim 2).state = .faulted) ∧
      vs.getD 0 0 % 32 = 0 ∧ vs.getD 1 0 % 32 = 0 ∧ 32 ≤ vs.getD 1 0 ∧ vs.getD 1 0 ≤ 2 ^ 20 ∧ vs.getD 2 0 ≤ 64 ∧
      vs.getD 0 0 + vs.getD 1 0 * vs.getD 2 0 ≤ x.node.desc.scratch)
    rfl (by decide) (fun _ _ _ h => h) (by decide +kernel)
theorem wit_cbtake : Meets claimEng (.cbtake (writes .group) { plainE with sdst := 9, obj := 2 }) :=
  meets (claiming .held id) (fun x vs s => x.recorded .cbtake 2 = none ∧ (x.team.claim 2).buf.any (fun b => decide (1 ≤ b.filled)) = true)
    rfl (by decide) (fun _ _ _ h => ⟨h.1, (of_any h.2).imp (fun _ h => ⟨h.1, of_decide_eq_true h.2⟩)⟩) (by decide +kernel)
theorem wit_cbgive : Meets claimEng (.cbgive (silent .group) { plainE with obj := 2 }) :=
  meets (claiming .held id) (fun x vs s => x.recorded .cbgive 2 = none ∧ (x.team.claim 2).buf.any (fun b => decide (1 ≤ b.taken)) = true)
    rfl (by decide) (fun _ _ _ h => ⟨h.1, (of_any h.2).imp (fun _ h => ⟨h.1, of_decide_eq_true h.2⟩)⟩) (by decide +kernel)

/-- The descriptor's address 0x40 stands in the form pair f6:f7. -/
def walkable : State := (teamed (fun t => { t with form := [(6, .uni 0x40#32), (7, .uni 0#32)] }))

theorem wit_ClaimBegins : ∃ c f s d x s1, (Instr.claim c f).wf = true ∧ Issues s c false d x s1 ∧ d.node.isClaim f.obj.toNat = false ∧
    EReady (engRegs c f [engAddrSrc f]) d x s1 ∧ (x.team.claim f.obj.toNat).walker = none ∧
    (x.team.claim f.obj.toNat).state ≠ .walking ∧ (x.team.claim f.obj.toNat).state ≠ .flowing ∧
    (engAddr f x.team ((firstValues (engRegs c f [engAddrSrc f]) x s1).headD 0)) % 64 = 0 ∧
    (engAddr f x.team ((firstValues (engRegs c f [engAddrSrc f]) x s1).headD 0)) < 2 ^ 57 := by
  obtain ⟨d, x, s1, h, h1, h2, h3⟩ := wit (c := writes .group) (fuse := false) (s := walkable) (fun d x s1 =>
    d.node.isClaim 2 = false ∧ eready (engRegs (writes .group) { plainE with sdst := 9, opa := 1606, obj := 2 }
      [engAddrSrc { plainE with sdst := 9, opa := 1606, obj := 2 }]) d x s1 = true ∧ (x.team.claim 2).walker = none ∧
    (x.team.claim 2).state ≠ .walking ∧ (x.team.claim 2).state ≠ .flowing ∧
    (engAddr { plainE with sdst := 9, opa := 1606, obj := 2 } x.team ((firstValues (engRegs (writes .group) { plainE with sdst := 9, opa := 1606, obj := 2 }
      [engAddrSrc { plainE with sdst := 9, opa := 1606, obj := 2 }]) x s1).headD 0)) % 64 = 0 ∧
    (engAddr { plainE with sdst := 9, opa := 1606, obj := 2 } x.team ((firstValues (engRegs (writes .group) { plainE with sdst := 9, opa := 1606, obj := 2 }
      [engAddrSrc { plainE with sdst := 9, opa := 1606, obj := 2 }]) x s1).headD 0)) < 2 ^ 57) (by decide +kernel)
  exact ⟨writes .group, { plainE with sdst := 9, opa := 1606, obj := 2 }, walkable, d, x, s1, by decide, h, h1, eready_iff h2, h3⟩

/-- The node's handler is at hand. -/
def handlerAt (s : State) : State := (opened s).modNode 0 (fun n => { n with desc := { n.desc with handler := 0x10001 } })

theorem wit_FlowTraps (st : ClaimState) (hst : st = .free ∨ st = .revoked ∨ st = .faulted) : ∃ c f s d x s1, (Instr.flow c f).wf = true ∧
    Issues s c false d x s1 ∧ d.node.isClaim f.obj.toNat = false ∧ EReady (engRegs c f [engSrc f.opa, engSrc f.opb]) d x s1 ∧ CanEnter x s1 ∧
    (x.team.claim f.obj.toNat).state = st := by
  have h : ∀ st ∈ [ClaimState.free, .revoked, .faulted], (found (writes .group) false (handlerAt (claiming st id))).any (fun p =>
      decide ((fun (d : Stand) (x : Ctx) (s1 : State) => d.node.isClaim 2 = false ∧
        eready (engRegs (writes .group) { plainE with sdst := 9, obj := 2 } [engSrc 0, engSrc 0]) d x s1 = true ∧ canEnter x s1 = true ∧
        (x.team.claim 2).state = st) p.1 p.2.1 p.2.2)) = true := by decide +kernel
  obtain ⟨d, x, s1, h, h1, h2, h3, h4⟩ := wit (fun (d : Stand) (x : Ctx) (s1 : State) => d.node.isClaim 2 = false ∧
        eready (engRegs (writes .group) { plainE with sdst := 9, obj := 2 } [engSrc 0, engSrc 0]) d x s1 = true ∧ canEnter x s1 = true ∧
        (x.team.claim 2).state = st) (h st (by simpa using hst))
  exact ⟨writes .group, { plainE with sdst := 9, obj := 2 }, _, d, x, s1, by decide, h, h1, eready_iff h2, canEnter_iff h3, h4⟩

/-! ### Queues and launches -/

/-- Core 0 is partition 0's. -/
def parted (s : State) : State := s.modPart 0 (fun p => { p with record := 0x1000000000000 })

theorem wit_qbind : Meets queueEng (.qbind (silent .group) { plainE with opa := 8, obj := 7 }) :=
  meets (parted (reged base 8 0x700)) (fun x vs s => x.recorded .qbind 7 = none ∧ (s.bindTarget x.node x.team (vs.headD 0)).isLeft = true ∧ Tbl.find? x.team.sendq 7 = none)
    rfl (by decide) (fun _ _ _ h => ⟨h.1, Sum.isLeft_iff.1 h.2.1, fun hs => (none_isSome h.2.2 hs).elim⟩) (by decide +kernel)
theorem wit_qunbind : Meets queueEng (.qunbind (silent .group) { plainE with obj := 7 }) :=
  meets (teamed (fun t => { t with sendq := [(7, { id := 5, core := 0, rq := 0, team := 1, discards := 0 })] })) (fun x vs s => s.openSends x.team.id 7 = false)
    rfl (by decide) (fun _ _ _ h _ => h) (by decide +kernel)
theorem wit_qstat : Meets queueEng (.qstat (writes .group) { plainE with sdst := 10, obj := 7, flags := 2 }) :=
  meets (base) (fun x vs s => True)
    rfl (by decide) (fun _ _ _ _ => trivial) (by decide +kernel)

/-- The bytes of a node entry at 0x1000 and of its descriptor at 0x1080 (Table 17.2, Table 17.3): a grid of one team of 32 lanes. -/
def childBytes : Tbl Byte :=
  [(0x1000, 0x80), (0x1001, 0x10), (0x1018, 1), (0x101C, 1), (0x1020, 1), (0x1028, 0xFF), (0x1029, 0xFF), (0x102A, 0xFF), (0x102B, 0xFF),
   (0x102C, 0xFF), (0x102D, 0xFF), (0x102E, 0xFF), (0x102F, 0xFF), (0x1082, 1), (0x1090, 0x20), (0x1091, 8), (0x1092, 0x40), (0x1094, 0x12), (0x1098, 1)]

/-- A node entry at 0x1000 and its descriptor in DRAM; the partition has room; page 0 is
mapped; v8 is 0x1000. -/
def launchable : State :=
  let s := (reged (parted base) 8 0x1000).modWorld 0 (fun w => { w with session := true })
  { s with tlb := [{ die := 0, world := 0, vpage := 0, ppage := 0, gpage := 0, attr := ⟨true, false, false, 0, 0, 0⟩, dirty := true }],
           mem := childBytes }

theorem wit_nlaunch : Meets queueEng (.nlaunch (writes .group) { plainE with sdst := 9, opa := 8 }) :=
  meets (launchable) (fun x vs s => x.quiet s = true ∧ (x.readChild s (engAddr { plainE with sdst := 9, opa := 8 } x.team (vs.getD 0 0))).isRight = true)
    rfl (by decide) (fun _ _ _ h => ⟨h.1, Sum.isRight_iff.1 h.2, fun hf => absurd hf (by decide)⟩) (by decide +kernel)
theorem wit_nwait : Meets queueEng (.nwait (writes .team) { plainE with sdst := 9, opa := 8 }) :=
  meets (reged base 8 2) (fun x vs s => BitVec.ofNat 32 (vs.headD 0) ≠ x.node.handle ∧ 4 ≤ statusWord s x (BitVec.ofNat 32 (vs.headD 0)) % 8)
    rfl (by decide) (fun _ _ _ h => h) (by decide +kernel)
theorem wit_nstat : Meets queueEng (.nstat (writes .group) { plainE with sdst := 9, opa := 8 }) :=
  meets (reged base 8 1) (fun x vs s => True)
    rfl (by decide) (fun _ _ _ _ => trivial) (by decide +kernel)

theorem wit_StatusWordGiven : ∃ (s : State) (part : Nat) (h : Word) (n : Node),
    (s.part part).nodes.find? (fun n => decide (n.handle = h)) = some n := by
  obtain ⟨n, h⟩ := Option.isSome_iff_exists.1 (by decide +kernel : ((base.part 0).nodes.find? (fun (n : Node) => decide (n.handle = 1#32))).isSome = true)
  exact ⟨base, 0, 1, n, h⟩

/-! ### Instructions performed before -/

theorem wit_recorded_aalloc : Meets recordedEng (.aalloc (silent .team) { plainE with obj := 3 }) :=
  meets (recordedIn (held) .aalloc 3) (fun x vs s => (x.recorded .aalloc 3).isSome = true)
    rfl (by decide) (fun _ _ _ h => h) (by decide +kernel)
theorem wit_recorded_obres : Meets recordedEng (.obres (silent .team) { plainE with obj := 1, flags := 11 }) :=
  meets (recordedIn (held) .obres 1) (fun x vs s => (x.recorded .obres 1).isSome = true)
    rfl (by decide) (fun _ _ _ h => h) (by decide +kernel)
theorem wit_recorded_barinit : Meets recordedEng (.barinit (silent .team) { plainE with obj := 7, flags := 0x68 }) :=
  meets (recordedIn (base) .barinit 23) (fun x vs s => (x.recorded .barinit 23).isSome = true)
    rfl (by decide) (fun _ _ _ h => h) (by decide +kernel)
theorem wit_recorded_cbset : Meets recordedEng (.cbset (silent .group) { plainE with obj := 2 }) :=
  meets (recordedIn (base) .cbset 2) (fun x vs s => (x.recorded .cbset 2).isSome = true)
    rfl (by decide) (fun _ _ _ h => h) (by decide +kernel)
theorem wit_recorded_qbind : Meets recordedEng (.qbind (silent .group) { plainE with obj := 7 }) :=
  meets (recordedIn (base) .qbind 7) (fun x vs s => (x.recorded .qbind 7).isSome = true)
    rfl (by decide) (fun _ _ _ h => h) (by decide +kernel)
theorem wit_recorded_cbgive : Meets recordedEng (.cbgive (silent .group) { plainE with obj := 2 }) :=
  meets (recordedIn (base) .cbgive 2) (fun x vs s => (x.recorded .cbgive 2).isSome = true)
    rfl (by decide) (fun _ _ _ h => h) (by decide +kernel)
theorem wit_recorded_barWait : Meets recordedEng (.barWait (silent .group) { plainE with obj := 1, flags := 1 }) :=
  meets (recordedIn (bar 1) .barWait 1) (fun x vs s => (x.recorded .barWait 1).isSome = true)
    rfl (by decide) (fun _ _ _ h => h) (by decide +kernel)
theorem wit_recorded_cbtake : Meets recordedEng (.cbtake (writes .group) { plainE with sdst := 9, obj := 2 }) :=
  meets (recordedIn (claiming .held id) .cbtake 2) (fun x vs s => (x.recorded .cbtake 2).isSome = true)
    rfl (by decide) (fun _ _ _ h => h) (by decide +kernel)

end Sys2Proof.Tests
end

