-- ==== Sys2Proof/Tests/WitnessEvents.lean ====
section
/-! SUPPORT. Witnesses: for each statement about the events of the machine's own units, a state that meets its hypotheses together. -/

set_option Elab.async false

namespace Sys2Proof.Tests

open Sys2Proof Sys2Proof.Machine Sys2Proof.Claims

/-- Page 0 is frame 0 of the package's DRAM, which is partition 0's; the translation is in the TLB of die 0 and of the agents. -/
def paged (s : State) : State :=
  { (s.modPart 0 (fun p => { p with record := 0x0001100000000000 })) with
    tlb := [{ die := 0, world := 0, vpage := 0, ppage := 0, gpage := 0, attr := ⟨true, true, false, 0, 0, 0⟩, dirty := true },
            { die := 0, world := 0, vpage := 2, ppage := 2, gpage := 2, attr := ⟨true, true, false, 0, 0, 0⟩, dirty := true },
            { die := 0, world := 0, vpage := 1, ppage := 1, gpage := 1, attr := ⟨true, true, false, 0, 0, 0⟩, dirty := true }] }

/-- Page tables at 0x10000 (stage 2) and 0x12000 (stage 1) that map the first GiB to itself, and guest page 2^14 to frame 2. -/
def tables : Tbl Byte :=
  [(0x10000, 0xC1), (0x10001, 0x10), (0x10002, 1), (0x11000, 0x87), (0x11008, 0xC1), (0x11009, 0x50), (0x1100A, 1), (0x12000, 0xC1), (0x12001, 0x30),
   (0x12002, 1), (0x13000, 0xC1), (0x13001, 0x40), (0x13002, 1), (0x14000, 0x87), (0x15000, 0xC1), (0x15001, 0x60), (0x15002, 1), (0x16000, 7), (0x16002, 2)]

/-- World 0 has those tables. -/
def translated : State := { (paged base).modWorld 0 (fun w => { w with s1root := 0x12000, s2root := 0x10000 }) with mem := tables }

/-! ### Issue slots and caches -/

theorem wit_StrandsAge : ∃ (s : State) (t g k : Nat) (gr : Group) (st : Strand), groupAt s t g = some gr ∧ gr.strands[k]? = some st ∧
    gr.readyStrand st = true ∧ 2048 ≤ st.wait := by
  let s := groupsOf base (fun g => { g with strands := g.strands.map (fun st => { st with wait := 2048 }) })
  obtain ⟨gr, h, h'⟩ := of_any (by decide +kernel : (groupAt s 1 0).any (fun gr => (gr.strands[0]?).any (fun st => gr.readyStrand st && Nat.ble 2048 st.wait)) = true)
  obtain ⟨st, h1, h2⟩ := of_any h'
  simp only [Bool.and_eq_true, Nat.ble_eq] at h2
  exact ⟨s, 1, 0, 0, gr, st, h, h1, h2⟩

/-- Group 0 in two strands, parked at group-scope instructions at different addresses; the handler as given. -/
def mismatched (handler : Addr) : State :=
  ((opened base).modNode 0 (fun n => { n with desc := { n.desc with handler := handler } })).modGroup 1 0 (fun g =>
    let g1 := (List.range 16).foldl (fun g l => { g with pc := Tbl.set 0x10000 g.pc l 0x10003 }) g
    { g1 with strands := [{ quads := 0x0F, arrived := some 0x10003, ascope := .group, hold := .none, stopped := false, held := none, aged := false, wait := 0 },
        { quads := 0xF0, arrived := some 0x10000, ascope := .group, hold := .none, stopped := false, held := none, aged := false, wait := 0 }] })

theorem wit_MismatchFound (handler : Addr) (hh : handler = 0 ∨ handler = 0x10001) : ∃ s team t n g gr st a, Watched s team t n ∧
    (indexed t.groups).findSome? (fun e => if e.2.ended then none else e.2.mismatch.map (fun p => (e.1, p.1, p.2))) = some (g, st, a) ∧
    groupAt s team g = some gr ∧ gr.trap = none ∧ n.desc.handler = handler ∧ (handler ≠ 0#64 → AtHand s n t.core n.desc.handler) := by
  have h : ∀ handler ∈ [(0 : Addr), 0x10001], ((mismatched handler).team? 1).any (fun t => ((mismatched handler).node? t.node).any (fun n =>
      decide (t.phase = .placed ∧ (n.ending = none ∧ (mismatched handler).stopsNode n = false) ∧ n.desc.handler = handler) &&
      (decide (handler = 0#64) || atHand (mismatched handler) n t.core n.desc.handler) &&
      ((indexed t.groups).findSome? (fun e => if e.2.ended then none else e.2.mismatch.map (fun p => (e.1, p.1, p.2)))).any (fun q =>
        (groupAt (mismatched handler) 1 q.1).any (fun gr => decide (gr.trap = none))))) = true := by
    simp only [List.forall_mem_cons]; exact ⟨by decide +kernel, by decide +kernel, by simp⟩
  obtain ⟨t, ht, h⟩ := of_any (h handler (by simpa using hh))
  obtain ⟨n, hn, h⟩ := of_any h
  simp only [Bool.and_eq_true, Bool.or_eq_true, decide_eq_true_eq] at h
  obtain ⟨⟨⟨h1, h2, h3⟩, h4⟩, h5⟩ := h
  obtain ⟨⟨g, st, a⟩, h5, h6⟩ := of_any h5
  obtain ⟨gr, h6, h7⟩ := of_any h6
  refine ⟨_, 1, t, n, g, gr, st, a, ⟨ht, hn, h1, h2⟩, h5, h6, of_decide_eq_true h7, h3, fun h0 => ?_⟩
  rcases h4 with h4 | h4
  · exact absurd h4 h0
  · exact atHand_iff h4

/-- Group 0 of that state: its strands stand at 0x10003 and at 0x10000. -/
theorem wit_LowestTakes : ∃ gr : Group, gr.deferred = none ∧ (∀ y ∈ gr.counted, y.held = none ∧ gr.parkedPlace y ≠ none) ∧
    ∃ y ∈ gr.counted, ∃ z ∈ gr.counted, gr.parkedPlace y ≠ gr.parkedPlace z := by
  obtain ⟨gr, _, h⟩ := of_any (by decide +kernel : (groupAt (mismatched 0) 1 0).any (fun gr => decide (gr.deferred = none ∧
    (∀ y ∈ gr.counted, y.held = none ∧ gr.parkedPlace y ≠ none) ∧ ∃ y ∈ gr.counted, ∃ z ∈ gr.counted, gr.parkedPlace y ≠ gr.parkedPlace z)) = true)
  exact ⟨gr, of_decide_eq_true h⟩

/-- Group 0 is parked at a team-scope instruction at 0x10003, the others at one at 0x10000. -/
def stalledTeam (handler : Addr) : State :=
  ((opened base).modNode 0 (fun n => { n with desc := { n.desc with handler := handler } })).modGroup 1 0 (fun g =>
    { g with pc := [], strands := g.strands.map (fun st => { st with arrived := some 0x10003, ascope := .team }) })

theorem mem_indexed {α : Type} {l : List α} {i : Nat} {x : α} (h : l[i]? = some x) : (i, x) ∈ indexed l := by
  obtain ⟨hi, h⟩ := List.getElem?_eq_some_iff.1 h
  refine List.mem_iff_getElem.2 ⟨i, by simpa [indexed] using hi, ?_⟩
  simp [indexed, h]

theorem wit_StallFound (handler : Addr) (hh : handler = 0 ∨ handler = 0x10001) : ∃ s team t n, Watched s team t n ∧ Stalled t n ∧
    (∀ g ∈ t.groups, g.trap = none) ∧ n.desc.handler = handler ∧ (handler ≠ 0#64 → AtHand s n t.core n.desc.handler) := by
  have h : ∀ handler ∈ [(0 : Addr), 0x10001], ((stalledTeam handler).team? 1).any (fun t => ((stalledTeam handler).node? t.node).any (fun n =>
      decide (t.phase = .placed ∧ (n.ending = none ∧ (stalledTeam handler).stopsNode n = false) ∧ n.desc.handler = handler ∧
        (∃ g ∈ t.groups, g.ended = false) ∧ (∀ g ∈ t.groups, g.trap = none)) &&
      ((decide (handler = 0#64) || atHand (stalledTeam handler) n t.core n.desc.handler) &&
        (indexed t.groups).all (fun e => e.2.wideAt.any (fun p => !t.allMet n e.1 p))))) = true := by
    simp only [List.forall_mem_cons]; exact ⟨by decide +kernel, by decide +kernel, by simp⟩
  obtain ⟨t, ht, h⟩ := of_any (h handler (by simpa using hh))
  obtain ⟨n, hn, h⟩ := of_any h
  simp only [Bool.and_eq_true, Bool.or_eq_true, decide_eq_true_eq, List.all_eq_true] at h
  obtain ⟨⟨h1, h2, h3, h4, h5⟩, h6, h7⟩ := h
  refine ⟨_, 1, t, n, ⟨ht, hn, h1, h2⟩, ⟨h4, fun i g hi _ => ?_⟩, h5, h3, fun h0 => ?_⟩
  · obtain ⟨p, hp, hm⟩ := of_any (h7 (i, g) (mem_indexed hi))
    exact ⟨p, hp, by simpa using hm⟩
  · rcases h6 with h6 | h6
    · exact absurd h6 h0
    · exact atHand_iff h6

/-- The line at 0x10000 was discarded; the frame's bytes are zeros, whose parity holds or not as bit 24 says. -/
def discarded (m : List (Nat × Byte)) : State :=
  { (paged base).modCore 0 (fun c => { c with icache := [(lineKey (bootNode 0) 0x10000, { openLine with bad := true })] }) with mem := m }

theorem wit_LineRefetched (m : List (Nat × Byte)) (hm : m = [] ∨ m = [(0x10003, 1)]) : ∃ s core key l n who hpa attr, Refetchable s core key l n who hpa attr ∧
    (let r := s.readCode n core attr hpa (BitVec.ofNat 64 (key % 2 ^ 57) : Addr).toNat
     r.2.1 = false ∧ lineParityOk (BitVec.ofNat 512 (bytesToNat r.1)) = decide (m = [])) := by
  have h : ∀ m ∈ [([] : List (Nat × Byte)), [(0x10003, 1)]], (Tbl.find? ((discarded m).core 0).icache (lineKey (bootNode 0) 0x10000)).any (fun l => l.bad &&
      ((discarded m).refetchFor 0 (lineKey (bootNode 0) 0x10000) l).any (fun p =>
        decide ((discarded m).lookNode p.1 0 p.2 (BitVec.ofNat 64 (lineKey (bootNode 0) 0x10000 % 2 ^ 57) : Addr).toNat 64 .fetch =
          .ok 0x10000 ⟨true, true, false, 0, 0, 0⟩ none ∧ (discarded m).reach p.1.part p.1.world 0 0x10000 = none ∧
          (discarded m).tagClash p.1.gcomp 0x10000 = false ∧
          ((discarded m).readCode p.1 0 ⟨true, true, false, 0, 0, 0⟩ 0x10000 (BitVec.ofNat 64 (lineKey (bootNode 0) 0x10000 % 2 ^ 57) : Addr).toNat).2.1 = false ∧
          lineParityOk (BitVec.ofNat 512 (bytesToNat ((discarded m).readCode p.1 0 ⟨true, true, false, 0, 0, 0⟩ 0x10000
            (BitVec.ofNat 64 (lineKey (bootNode 0) 0x10000 % 2 ^ 57) : Addr).toNat).1)) = decide (m = [])))) = true := by
    simp only [List.forall_mem_cons]; exact ⟨by decide +kernel, by decide +kernel, by simp⟩
  obtain ⟨l, hl, h⟩ := of_any (h m (by simpa using hm))
  simp only [Bool.and_eq_true] at h
  obtain ⟨h1, h⟩ := h
  obtain ⟨⟨n, who⟩, hr, h⟩ := of_any h
  obtain ⟨h2, h3, h4, h5, h6⟩ := of_decide_eq_true h
  exact ⟨discarded m, 0, _, l, n, who, 0x10000, _, ⟨hl, h1, hr, ⟨_, h2⟩, ⟨h3, by decide⟩, by decide, h4⟩, h5, h6⟩

theorem wit_LinesScrubbed : ∃ (s : State) (channel : Nat), channel < 384 ∧ (s.lines.map (fun e => e.1)).Nodup ∧ s.lines ≠ [] :=
  ⟨{ base with lines := [(0, { Line.reset with version := 0xFFFF_FFFF_FFFF_FFFF }), (1, { Line.reset with version := 1 })] }, 383, by decide, by decide +kernel,
    by decide +kernel⟩

/-! ### The matrix unit -/

/-- Bank 3 and reservation 1, which is broadcast, held in a node with BCAST. -/
def bcasting : State := (base.modNode 0 (fun n => { n with desc := { n.desc with bcast := true } })).modTeam 1 (fun t =>
  { t with banks := [(3, { data := [], perturb := none })],
           obs := [(1, { base := 0, len := 65536, fmt := .e4m3, scaleOff := 0, nk := false, bcast := true })] })

def mmaBc : FmtX := { acc := 3, abase := 0, ascale := 16, bres := 1, boff := 0, afmt := .e4m3, mode := .acc, reuse := false, bcast := true,
                      arrive := false, bar := 0 }

theorem wit_BroadcastWaits : ∃ c f s d x s1 r m t, (Instr.mma c f).wf = true ∧ Issues s c false d x s1 ∧ f.bcast = true ∧
    mmaStatic c f d.node = none ∧ mmaCheck x f none = some r ∧ mmaEmpty c f x = false ∧ x.members.head? = some m ∧ s1.team? x.team.id = some t := by
  obtain ⟨d, x, s1, h, h1, h2, h3, h4, h5⟩ := wit (c := silent .team) (fuse := false) (s := bcasting) (fun d x s1 =>
    mmaStatic (silent .team) mmaBc d.node = none ∧ (mmaCheck x mmaBc none).isSome = true ∧ mmaEmpty (silent .team) mmaBc x = false ∧
    x.members.head?.isSome = true ∧ (s1.team? x.team.id).isSome = true) (by decide +kernel)
  obtain ⟨r, h2⟩ := Option.isSome_iff_exists.1 h2
  obtain ⟨m, h4⟩ := Option.isSome_iff_exists.1 h4
  obtain ⟨t, h5⟩ := Option.isSome_iff_exists.1 h5
  exact ⟨silent .team, mmaBc, bcasting, d, x, s1, r, m, t, by decide, h, rfl, h1, h2, h3, h4, h5⟩

/-- The team waits at its broadcast `mma`. -/
def delivering : State :=
  match exec (.mma (silent .team) mmaBc) bcasting with
  | .next t => t
  | _ => base

/-- The readiness that `BroadcastDelivered` assumes. -/
def deliverable (s : State) (t0 : Team) (rest : List Team) (lead : Team) : Bool :=
  let d : Delivery :=
    { id := s.nextId, src := lead.id, res := lead.bwait.bind (fun w => Tbl.find? lead.obs w.2.1.bres.toNat),
      tile := (lead.bwait.map (fun w => w.2.1.boff.toNat / 384)).getD 0 }
  let s2 := (t0 :: rest).foldl (fun st t => st.goBroadcast t d) ({ s with nextId := s.nextId + 1 } : State)
  (t0 :: rest).all (fun t => s2.advanced t) &&
  (t0 :: rest).all (fun t => (s2.core t.core).matq.all (fun o => decide (o.id ≠ s.nextId) || s2.canStart t.core o))

theorem wit_BroadcastDelivered : ∃ s node team n t0 rest lead, s.node? node = some n ∧ s.stream team = t0 :: rest ∧
    s.leadTeam n t0 = some lead ∧ (∀ t ∈ t0 :: rest, t.phase = .placed ∧ t.bwait.isSome = true ∧ s.unitFree t = true) ∧
    deliverable s t0 rest lead = true ∧ (t0 :: rest).Pairwise (fun a b => a.core ≠ b.core) := by
  obtain ⟨n, hn, h⟩ := of_any (by decide +kernel : (delivering.node? 0).any (fun n => match delivering.stream 1 with
    | t0 :: rest => (delivering.leadTeam n t0).any (fun lead =>
      decide (∀ t ∈ t0 :: rest, t.phase = .placed ∧ t.bwait.isSome = true ∧ delivering.unitFree t = true) &&
      (deliverable delivering t0 rest lead && decide ((t0 :: rest).Pairwise (fun a b => a.core ≠ b.core))))
    | [] => false) = true)
  split at h
  · rename_i t0 rest hs
    obtain ⟨lead, hl, h⟩ := of_any h
    simp only [Bool.and_eq_true, decide_eq_true_eq] at h
    exact ⟨delivering, 0, 1, n, t0, rest, lead, hn, hs, hl, h⟩
  · cases h

/-- An operation of the team on bank 3. -/
def opOf3 (kind : MatKind) (started consumed : Bool) (res : Option Reservation) : MatOp :=
  { id := 7, team := 1, groups := [(0, 0xFFFFFFFF#32)], bank := 3, kind := kind, a := [], sa := [], arrive := none, latch := none, started := started,
    consumed := consumed, b := [], torn := 0, res := res, perturb := none, fill := none }

def unit (o : MatOp) : State := bcasting.modCore 0 (fun k => { k with matq := [o] })

/-- An `mma` and a load of rows may start. -/
theorem wit_OperationStarts : ∃ s core op o, opAt s core op = some o ∧ s.canStart core o = true :=
  ⟨unit (opOf3 (.ald false 0 768) false false none), 0, 7, opOf3 (.ald false 0 768) false false none, by decide +kernel, by decide +kernel⟩
theorem wit_OperandsTaken (k : MatKind) (hk : k = .ald false 0 768 ∨ k = .ast .f32 false .rne 0 768 0 0) : ∃ s core op o t, o.kind = k ∧
    opAt s core op = some o ∧ o.started = true ∧ o.consumed = false ∧ s.bankSettled core o = true ∧ s.team? o.team = some t := by
  have h : ∀ k ∈ [MatKind.ald false 0 768, .ast .f32 false .rne 0 768 0 0], opAt (unit (opOf3 k true false none)) 0 7 = some (opOf3 k true false none) ∧
      (unit (opOf3 k true false none)).bankSettled 0 (opOf3 k true false none) = true ∧ ((unit (opOf3 k true false none)).team? 1).isSome = true := by
    simp only [List.forall_mem_cons]; exact ⟨by decide +kernel, by decide +kernel, by simp⟩
  obtain ⟨h1, h3, h2⟩ := h k (by simpa using hk)
  obtain ⟨t, h2⟩ := Option.isSome_iff_exists.1 h2
  exact ⟨_, 0, 7, _, t, rfl, h1, rfl, rfl, h3, h2⟩

/-- An `mma` in a format without scales, and `ald.zero`. -/
theorem wit_OperationCompletes (k : MatKind) (hk : k = .mma .f16 .zo 1 1 0 false ∨ k = .ald true 0 0) : ∃ s core op o t, o.kind = k ∧ opAt s core op = some o ∧
    s.canComplete op = true ∧ s.team? o.team = some t ∧
    s.cores.flatMap (fun c => (c.2.matq.filter (fun y => decide (y.id = op))).map (fun y => (c.1, y))) = [(core, o)] ∧
    o.arrive = none ∧ (Tbl.find? t.banks o.bank).isSome = true := by
  have h : ∀ k ∈ [MatKind.mma .f16 .zo 1 1 0 false, .ald true 0 0],
      (let o := opOf3 k true true (some { base := 0, len := 65536, fmt := .f16, scaleOff := 0, nk := false, bcast := false })
       opAt (unit o) 0 7 = some o ∧ (unit o).canComplete 7 = true ∧ ((unit o).team? 1).any (fun t => (Tbl.find? t.banks 3).isSome) = true ∧
       (unit o).cores.flatMap (fun c => (c.2.matq.filter (fun y => decide (y.id = 7))).map (fun y => (c.1, y))) = [(0, o)]) := by
    simp only [List.forall_mem_cons]; exact ⟨by decide +kernel, by decide +kernel, by simp⟩
  obtain ⟨h1, h2, h3, h4⟩ := h k (by simpa using hk)
  obtain ⟨t, h3, h5⟩ := of_any h3
  exact ⟨_, 0, 7, _, t, rfl, h1, h2, h3, h4, rfl, h5⟩

/-! ### Claims, flows and messages -/

/-- A descriptor at 0x40, its traverse records at 0x80 and 0xC0, both of `n` times two elements of 16 bytes, in pages 0 and 2. -/
def descBytes (first n : Byte) : Tbl Byte :=
  [(0x40, first), (0x48, 0x80), (0x50, 0xC0), (0x87, 0x18), (0x88, 1), (0x8A, n), (0x92, 2), (0xC7, 0x18), (0xC8, 1), (0xCA, n), (0xD2, 2)]

def walkingOver (m : Tbl Byte) (known : Bool) : State :=
  let s := (paged base).modTeam 1 (fun t => { t with claims := [(2, { Claim.free with state := .walking, descAddr := 0x40, walker := some (0, 0x10000) })] })
  { s with mem := m, tlb := if known then s.tlb else [] }

/-- The ways in which a walk may stand: held; with 258 extents; with a descriptor whose SCOPE is reserved; and at a page whose
translation is not at hand. -/
def walkEnd (w : WalkAt) : Nat :=
  match w with
  | .go _ => 1
  | .limit _ => 2
  | .trap .. => 3
  | .wait .. => 4
  | .poison => 5

/-- The state of each of them. -/
def walkState (e : Nat) : State := walkingOver (descBytes (if e = 3 then 0 else 0x60) (if e = 2 then 128 else 0)) (decide (e ≠ 4))

theorem wit_WalkEnds (e : Nat) (he : 1 ≤ e ∧ e ≤ 4) : ∃ s team c t n, Watched s team t n ∧ (t.claim c).state = .walking ∧
    walkEnd (s.walkClaim { n := n, core := t.core, who := .claim t.id c } (t.claim c).descAddr (t.claim c).buf.isSome (t.claim c).walk).2 = e := by
  have h : ∀ e ∈ [1, 2, 3, 4], ((walkState e).team? 1).any (fun t => ((walkState e).node? t.node).any (fun n =>
      decide (t.phase = .placed ∧ (n.ending = none ∧ (walkState e).stopsNode n = false) ∧ (t.claim 2).state = .walking ∧
        walkEnd ((walkState e).walkClaim { n := n, core := t.core, who := .claim t.id 2 }
          (t.claim 2).descAddr (t.claim 2).buf.isSome (t.claim 2).walk).2 = e))) = true := by
    simp only [List.forall_mem_cons]; exact ⟨by decide +kernel, by decide +kernel, by decide +kernel, by decide +kernel, by simp⟩
  obtain ⟨t, ht, h⟩ := of_any (h e (by simp; omega))
  obtain ⟨n, hn, h⟩ := of_any h
  obtain ⟨h1, h2, h3, h4⟩ := of_decide_eq_true h
  exact ⟨_, 1, 2, t, n, ⟨ht, hn, h1, h2⟩, h3, h4⟩

/-- A copy of 256 bytes from 0 to 0x1000. -/
def copied : ClaimDesc :=
  { kind := .copy, scope := .sys, cbuf := false, comp := 0, bark := 0, bar := 0, rop := 0, peer := 0, route := 0,
    src := { base := 0, esz := 16, ext := [256], stride := [16] }, dst := { base := 0x1000, esz := 16, ext := [256], stride := [16] } }

def copyFlow : Flow :=
  { id := 7, team := 1, core := 0, claim := 2, desc := copied
    extents := [{ vpage := 0, pages := 1, ppage := 0, attr := ⟨true, false, false, 0, 0, 0⟩, lo := 0, hi := 0x1000, dst := false, dir := 0 },
                { vpage := 0, pages := 1, ppage := 0, attr := ⟨true, false, false, 0, 0, 0⟩, lo := 0x1000, hi := 0x2000, dst := true, dir := 0 }]
    off := 0, len := 256, slot := 0, cb := none, descAddr := 0, severed := none, groups := [0] }

/-- The flow with claim 2 Flowing, `deferred` the cause of a revocation that waits. -/
def flowing (deferred : Nat) : State :=
  { (paged base).modTeam 1 (fun t => { t with claims := [(2, { Claim.free with state := .flowing, flows := 1, deferred := deferred })] }) with
    flows := [copyFlow] }

theorem wit_FlowEnds (d : Nat) (hd : d = 0 ∨ d = 3) : ∃ (s : State) (flow : Nat) (f : Flow) (t : Team) (n : Node), s.flows.find? (fun y => decide (y.id = flow)) = some f ∧ s.team? f.team = some t ∧
    s.node? t.node = some n ∧ s.flowReady f = true ∧ f.severed = none ∧ f.desc.kind = .copy ∧ f.desc.bark = 0 ∧ s.lost = [] ∧
    (t.claim f.claim).flows ≤ 1 ∧ (t.claim f.claim).deferred = d := by
  have h : ∀ d ∈ [0, 3], ((flowing d).team? 1).any (fun t => ((flowing d).node? t.node).any (fun n => decide ((flowing d).flowReady copyFlow = true ∧
      (flowing d).lost = [] ∧ (t.claim 2).flows ≤ 1 ∧ (t.claim 2).deferred = d))) = true := by
    simp only [List.forall_mem_cons]; exact ⟨by decide +kernel, by decide +kernel, by simp⟩
  obtain ⟨t, ht, h⟩ := of_any (h d (by simpa using hd))
  obtain ⟨n, hn, h⟩ := of_any h
  obtain ⟨h1, h2, h3, h4⟩ := of_decide_eq_true h
  exact ⟨flowing d, 7, copyFlow, t, n, rfl, ht, hn, h1, rfl, rfl, rfl, h2, h3, h4⟩

theorem wit_CopyMoves : ∃ (s : State) (n : Node) (f : Flow) (src dst : Placed), s.node? n.id = some n ∧ f.desc.kind = .copy ∧ f.severed = none ∧
    f.cb = none ∧ f.desc.cbuf = false ∧ placeRuns f.extents false (f.desc.src.runs f.off f.len) = [src] ∧
    placeRuns f.extents true (f.desc.dst.runs f.off f.len) = [dst] ∧ src.len = dst.len ∧
    (∀ r, r = src ∨ r = dst → s.enginePlace r.attr r.hpa = .home ∧ n.shadowed r.va r.len = false) ∧
    (s.readMem (16 * n.world + src.attr.comp) src.hpa src.len src.attr.home).2.1 = false := by
  obtain ⟨n, hn, h⟩ := of_any (by decide +kernel : ((flowing 0).node? 0).any (fun n =>
    match placeRuns copyFlow.extents false (copied.src.runs 0 256), placeRuns copyFlow.extents true (copied.dst.runs 0 256) with
    | [src], [dst] => decide (n.id = 0 ∧ src.len = dst.len ∧ ((flowing 0).enginePlace src.attr src.hpa = .home ∧ n.shadowed src.va src.len = false) ∧
        ((flowing 0).enginePlace dst.attr dst.hpa = .home ∧ n.shadowed dst.va dst.len = false) ∧
        ((flowing 0).readMem (16 * n.world + src.attr.comp) src.hpa src.len src.attr.home).2.1 = false)
    | _, _ => false) = true)
  split at h
  · rename_i src dst h1 h2
    obtain ⟨h0, h3, h4, h5, h6⟩ := of_decide_eq_true h
    refine ⟨flowing 0, n, copyFlow, src, dst, by rw [h0]; exact hn, rfl, rfl, rfl, rfl, h1, h2, h3, ?_, h6⟩
    rintro r (rfl | rfl)
    · exact h4
    · exact h5
  · cases h

/-- Group 5 is a VALID entry of partition 0 for world 0, compartment 0. -/
def receiving : State :=
  ({ translated with mcast := [(5, { head := 1, peers := 1, staged := 1, resv := 0 })] } : State).modComp 0 (fun c => { c with state := .active })

theorem wit_MulticastReceived : (∃ s group trav off bytes t s1, parseTrav trav = some t ∧ State.receive s group t off bytes = some s1) ∧
    ∃ trav, parseTrav trav = none := by
  refine ⟨?_, [0x8000000000000000], by decide +kernel⟩
  obtain ⟨s1, h⟩ := Option.isSome_iff_exists.1 (by decide +kernel :
    (receiving.receive 5 { base := 0, esz := 16, ext := [1], stride := [0] } 0 (List.replicate 16 9)).isSome = true)
  exact ⟨receiving, 5, [0x0800000000000000, 0, 0, 0], 0, List.replicate 16 9, _, s1, by decide +kernel, h⟩

theorem wit_PeersApart : ∃ p a : Nat, p < 512 ∧ pkgOf a ≠ p := ⟨511, 0, by decide⟩

theorem wit_MulticastChecked : ∃ (s : State) (group : Nat), (s.mcastEntry group).valid = false := ⟨base, 5, by decide +kernel⟩

/-- A send from queue 0 of the team to its own receive queue 3. -/
def sending (p : SendPhase) : Send :=
  { id := 7, team := 1, group := 0, quads := 0xFF, queue := 0, ix := 0, addr := 0x10000, phase := p, route := (0, 0), bind := 5, dstTeam := 1, rq := 3,
    msg := some { seq := 0, words := [], mask := 0xFFFFFFFF, srcRank := 0, srcQueue := 0, srcGroup := 0 }, discarded := false }

/-- The send in a phase, the team in a phase, and the receive queue's waiting requests. -/
def sent1 (p : SendPhase) (ph : TeamPhase) (w : List Nat) : State :=
  ({ base with sends := [sending p] } : State).modTeam 1 (fun t =>
    { t with phase := ph, recvq := [(3, { msgs := [], granted := 15, waiting := w, last := none })] })

theorem wit_MessagesTravel_gone : ∃ (s : State) (i : Nat) (x : Send) (t : Team), sendAt s i = some x ∧ x.phase = .requested ∧
    s.team? x.dstTeam = some t ∧ t.recvGone = true ∧ s.earlierRequest x = false := by
  obtain ⟨t, ht, h⟩ := of_any (by decide +kernel : ((sent1 .requested .ended []).team? 1).any (fun t => t.recvGone &&
    !(sent1 .requested .ended []).earlierRequest (sending .requested)) = true)
  simp only [Bool.and_eq_true, Bool.not_eq_true'] at h
  exact ⟨_, 7, sending .requested, t, rfl, rfl, ht, h⟩
theorem wit_MessagesTravel_waits : ∃ (s : State) (i : Nat) (x : Send) (t : Team), sendAt s i = some x ∧ x.phase = .requested ∧
    s.team? x.dstTeam = some t ∧ t.recvGone = false ∧ s.earlierRequest x = false ∧ i ∉ (t.recv x.rq).waiting := by
  obtain ⟨t, ht, h⟩ := of_any (by decide +kernel : ((sent1 .requested .placed []).team? 1).any (fun t => decide (t.recvGone = false ∧ (sent1 .requested .placed []).earlierRequest (sending .requested) = false ∧ 7 ∉ (t.recv 3).waiting)) = true)
  exact ⟨_, 7, sending .requested, t, rfl, rfl, ht, of_decide_eq_true h⟩
theorem wit_MessagesTravel_grant : ∃ (s : State) (i : Nat) (x : Send) (t : Team) (w : List Nat), sendAt s i = some x ∧ x.phase = .requested ∧
    s.team? x.dstTeam = some t ∧ (t.recv x.rq).waiting = i :: w ∧ (t.recv x.rq).msgs.length + (t.recv x.rq).granted < 16 := by
  obtain ⟨t, ht, h⟩ := of_any (by decide +kernel : ((sent1 .requested .placed [7]).team? 1).any (fun t => decide ((t.recv 3).waiting = 7 :: [] ∧
    (t.recv 3).msgs.length + (t.recv 3).granted < 16)) = true)
  exact ⟨_, 7, sending .requested, t, [], rfl, rfl, ht, of_decide_eq_true h⟩
theorem wit_MessagesTravel_arrival : ∃ (s : State) (i : Nat) (x : Send) (t : Team) (m : Message), sendAt s i = some x ∧ x.phase = .travelling ∧
    x.msg = some m ∧ earlierSend x s.sends = false ∧ s.team? x.dstTeam = some t := by
  obtain ⟨t, ht, h⟩ := of_any (by decide +kernel : ((sent1 .travelling .placed []).team? 1).any (fun t =>
    decide (earlierSend (sending .travelling) (sent1 .travelling .placed []).sends = false)) = true)
  exact ⟨_, 7, sending .travelling, t, _, rfl, rfl, rfl, of_decide_eq_true h, ht⟩

/-! ### Walks, fault queues and shootdowns -/

def walkOf : Walk := { id := 7, who := .strand 1 0 0xFF, world := 0, comp := 0, core := 0, va := 0x1234, access := .write, waitOn := none, want := none, fault := none }

theorem wit_TranslationFound : ∃ (s : State) (i : Nat) (w : Walk) (s1 : State) (e : TlbEntry), s.walks.find? (fun y => decide (y.id = i)) = some w ∧
    w.waitOn = none ∧ s.walkFor w = .done s1 e ∧ ∀ q, w.who ≠ .side q ∧ w.who ≠ .faultWriter q := by
  have h : (match ({ translated with walks := [walkOf] } : State).walkFor walkOf with
    | .done _ _ => true
    | _ => false) = true := by decide +kernel
  split at h
  · rename_i s1 e hw
    exact ⟨_, 7, walkOf, s1, e, rfl, rfl, hw, fun q => ⟨(fun h => by cases h), fun h => by cases h⟩⟩
  · cases h

theorem wit_AnswersIgnored : ∃ (s : State) (n : Nat) (id : BitVec 32), (∀ e ∈ (s.world n).fq.outstanding, e.1 ≠ id) ∧
    ∀ e ∈ (s.part n).s2q.outstanding, e.1 ≠ id := ⟨base, 0, 5, by decide +kernel, by decide +kernel⟩

def mergeOf : Merge :=
  { id := 9, die := 0, world := 0, stage2 := false, page := 0, waiters := [7]
    record := { agent := 0, core := 0, kind := 1, access := 0, world := 0, comp := 0, stage := 1, level := 0, id := 5, gpa := 0, va := 0 } }

/-- Record 5 of world 0's queue, and record 6 of partition 0's, are outstanding for a walk of the strand. -/
def outstanding : State :=
  (({ base with walks := [{ walkOf with waitOn := some 9 }], merges := [mergeOf] } : State).modWorld 0
    (fun w => { w with fq := { w.fq with outstanding := [(5, 9)] } })).modPart 0 (fun p => { p with s2q := { p.s2q with outstanding := [(6, 9)] } })

theorem wit_AnswersTaken : ∃ (s : State) (n : Nat) (id id2 : BitVec 32) (m : Merge) (w : Walk) (tm g : Nat) (q : BitVec 8),
    s.merges.find? (fun y => decide (y.id = m.id)) = some m ∧ m.waiters = [w.id] ∧ s.walks.find? (fun y => decide (y.id = w.id)) = some w ∧
    w.who = .strand tm g q ∧ (s.world n).fq.outstanding.find? (fun e => decide (e.1 = id)) = some (id, m.id) ∧
    (s.part n).s2q.outstanding.find? (fun e => decide (e.1 = id2)) = some (id2, m.id) ∧ ∀ l, w.fault ≠ some (kStage2InWalk, l) :=
  ⟨outstanding, 0, 5, 6, mergeOf, { walkOf with waitOn := some 9 }, 1, 0, 0xFF, rfl, rfl, by decide +kernel, rfl, by decide +kernel, by decide +kernel, fun _ h => by cases h⟩

/-- A tail at the head and one above it; a base that is a multiple of 128 KiB and one that is not. -/
theorem wit_QueueRegisters : ∃ (s : State) (n : Nat), (0 : DWord).toNat ≤ (s.world n).fq.head.toNat ∧ (s.world n).fq.head.toNat < (1 : DWord).toNat ∧
    (s.world n).fq.held = [] ∧ (0 : DWord).toNat ≤ (s.part n).s2q.head.toNat ∧ (s.part n).s2q.head.toNat < (1 : DWord).toNat ∧ (s.part n).s2q.held = [] ∧
    (0x20000 : DWord).toNat % 131072 = 0 ∧ (0x10000 : DWord).toNat % 131072 ≠ 0 :=
  ⟨base, 0, by decide +kernel⟩

theorem wit_Shootdowns (b : Bool) : ∃ s : State, (s.shoot.2.2.2 ≠ 1#64 ↔ b = true) ∧ (s.world 0).s1shoot.2.2 ≠ 1#64 := by
  cases b
  · exact ⟨{ base with shoot := (0, 0, 0, 1) }, by decide +kernel, by decide +kernel⟩
  · exact ⟨base, by decide +kernel, by decide +kernel⟩
def shootOf : Shootdown := { id := 7, world := 1, stage2 := false, page := 0, count := 1, by_ := .shoot }
theorem wit_Shootdowns_end : ∃ (s : State) (d : Shootdown), s.shoots.find? (fun y => decide (y.id = d.id)) = some d ∧ s.shootDrained d = true :=
  ⟨{ base with shoots := [shootOf] }, shootOf, rfl, by decide +kernel⟩

theorem wit_PagesReset : ∃ (s : State) (addr pages : DWord), pkgOf (addr.toNat / 65536 * 65536) = s.pkgid.toNat ∧
    localOf (addr.toNat / 65536 * 65536) + 65536 * pages.toNat ≤ 0x2A000000000 ∧ isDram (addr.toNat / 65536 * 65536) = true :=
  ⟨base, 0x29FFFFF0000, 1, by decide +kernel, by decide +kernel, by decide +kernel⟩

theorem wit_PageMoves : ∃ (s : State) (world : Nat) (gpa frame : DWord) (e old : Nat) (x1 x2 x3 : Bool) (x4 : BitVec 2), Memory.wf s.mem = true ∧
    s.stage2 world gpa.toNat = .leaf e old x1 x2 x3 x4 0 ∧ x4 ≠ 1#2 ∧ frame.toNat / 65536 ≠ old ∧
    isDram (old * 65536) = true ∧ isDram (frame.toNat / 65536 * 65536) = true ∧ pkgOf (old * 65536) = s.pkgid.toNat ∧
    pkgOf (frame.toNat / 65536 * 65536) = s.pkgid.toNat ∧ (∀ t ∈ s.teams, ∀ c ∈ t.claims, c.2.state ≠ .flowing) ∧
    ∀ b, e ≤ b → b < e + 8 → b / 65536 ≠ frame.toNat / 65536 :=
  ⟨translated, 0, 0x40000000, 0x50000, 0x16000, 2, true, true, false, 0, by decide +kernel, by decide +kernel, by decide, by decide, by decide, by decide, by decide +kernel,
    by decide +kernel, by decide +kernel, fun b h1 h2 => by
      rw [show (0x50000 : DWord).toNat / 65536 = 5 by decide]; omega⟩

/-! ### Pre-emption and placement -/

theorem wit_PreemptCommands : (∃ s : State, s.preemptReg.2 = 1#64) ∧ ∃ s : State, s.preemptReg.2 ≠ 1#64 ∧ (63 : DWord).toNat < 64 ∧ (64 : DWord).toNat < 65536 ∧
    65536 ≤ (0x10001 : DWord).toNat ∧ ∃ n ∈ s.nodes, n.handle.toNat = (0x10001 : DWord).toNat :=
  ⟨⟨{ base with preemptReg := (0, 1) }, rfl⟩, base.modNode 0 (fun n => { n with handle := 0x10001 }), by decide +kernel, by decide, by decide, by decide,
    List.any_eq_true.1 (by decide +kernel : (base.modNode 0 (fun n => { n with handle := 0x10001 })).nodes.any (fun n =>
      decide (n.handle.toNat = (0x10001 : DWord).toNat)) = true) |>.imp (fun _ h => ⟨h.1, of_decide_eq_true h.2⟩)⟩

theorem wit_PreemptionStarts : ∃ (s : State) (team : Nat) (t : Team) (n : Node), s.team? team = some t ∧ s.node? t.node = some n ∧ t.phase = .placed ∧
    (t.preempt = true ∨ t.nwait.isSome = true ∨ s.outranked n t = true) ∧ n.desc.cores = false := by
  let s := base.modTeam 1 (fun t => { t with preempt := true })
  obtain ⟨t, ht, h⟩ := of_any (by decide +kernel : (s.team? 1).any (fun t => (s.node? t.node).any (fun n =>
    decide (t.phase = .placed ∧ t.preempt = true ∧ n.desc.cores = false))) = true)
  obtain ⟨n, hn, h⟩ := of_any h
  obtain ⟨h1, h2, h3⟩ := of_decide_eq_true h
  exact ⟨s, 1, t, n, ht, hn, h1, .inl h2, h3⟩

/-- The team holds so many banks and records, and its strands wait for another bank, or record. -/
def stuck (banks recs : Nat) (bank : Bool) : State := base.modTeam 1 (fun t =>
  { t with banks := (List.range banks).map (fun k => (k, { data := [], perturb := none }))
           obs := (List.range recs).map (fun k => (k, { base := 0, len := 64, fmt := .e4m3, scaleOff := 0, nk := false, bcast := false }))
           groups := t.groups.map (fun g => { g with strands := g.strands.map (fun st => { st with hold := .resource bank }) }) })

/-- Each team that holds anything waits, for a bank with all 16 banks held, or for a record with all 16 records held. -/
theorem wit_DeadlockBroken (bank : Bool) : ∃ (s : State) (core : Nat) (t : Team) (n : Node),
    youngest ((s.teamsOn core).filter (fun u => decide (u.banks ≠ []) || decide (u.obs ≠ []))) = some t ∧
    (∀ u ∈ s.teamsOn core, (u.banks ≠ [] ∨ u.obs ≠ []) → u.phase = .placed ∧
      (u.waitsRes true = true ∧ 16 ≤ s.banksUsed core ∨ u.waitsRes false = true ∧ 16 ≤ s.obsUsed core)) ∧
    (∀ u ∈ s.teamsOn core, s.nodeIs (s.givingBack u) u = false) ∧ s.node? t.node = some n ∧ n.desc.cores = false ∧ t.waitsRes bank = true := by
  have h : ∀ bank : Bool, (let s := stuck (if bank then 16 else 1) (if bank then 0 else 16) bank
      (youngest ((s.teamsOn 0).filter (fun u => decide (u.banks ≠ []) || decide (u.obs ≠ [])))).any (fun t =>
        (s.node? t.node).any (fun n => decide (n.desc.cores = false ∧ t.waitsRes bank = true))) = true ∧
      (∀ u ∈ s.teamsOn 0, (u.banks ≠ [] ∨ u.obs ≠ []) → u.phase = .placed ∧
        (u.waitsRes true = true ∧ 16 ≤ s.banksUsed 0 ∨ u.waitsRes false = true ∧ 16 ≤ s.obsUsed 0)) ∧
      (∀ u ∈ s.teamsOn 0, s.nodeIs (s.givingBack u) u = false)) := by
    intro bank; cases bank <;> decide +kernel
  obtain ⟨h1, h2, h3⟩ := h bank
  obtain ⟨t, ht, h1⟩ := of_any h1
  obtain ⟨n, hn, h1⟩ := of_any h1
  exact ⟨_, 0, t, n, ht, h2, h3, hn, of_decide_eq_true h1⟩

/-- With 15 banks held one is free for the waiter. -/
theorem wit_FreeServes : ∃ (s : State) (core : Nat) (u : Team), u ∈ s.teamsOn core ∧ (u.banks ≠ [] ∨ u.obs ≠ []) ∧ u.waitsRes true = true ∧
    s.banksUsed core < 16 ∧ (u.waitsRes false = true → s.obsUsed core < 16) := by
  obtain ⟨u, hu, h⟩ := List.any_eq_true.1 (by decide +kernel : ((stuck 15 0 true).teamsOn 0).any (fun u => decide ((u.banks ≠ [] ∨ u.obs ≠ []) ∧
    u.waitsRes true = true ∧ (stuck 15 0 true).banksUsed 0 < 16 ∧ (u.waitsRes false = true → (stuck 15 0 true).obsUsed 0 < 16))) = true)
  exact ⟨_, 0, u, hu, of_decide_eq_true h⟩

theorem wit_TeamsSaved : ∃ (s : State) (team : Nat) (t : Team) (c : Nat), s.team? team = some t ∧ t.phase = .stopping ∧ s.savePending team = false ∧
    (t.claim c).state = .held := by
  let s := base.modTeam 1 (fun t => { t with phase := .stopping, claims := [(2, { Claim.free with state := .held })] })
  obtain ⟨t, ht, h⟩ := of_any (by decide +kernel : (s.team? 1).any (fun t =>
    decide (t.phase = .stopping ∧ s.savePending 1 = false ∧ (t.claim 2).state = .held)) = true)
  exact ⟨s, 1, t, 2, ht, of_decide_eq_true h⟩

/-- Work of world 0 may start: its compartment 0 is Active; the team is in the phase given. -/
def phased (ph : TeamPhase) : State := ((paged base).modComp 0 (fun c => { c with state := .active })).modTeam 1 (fun t => { t with phase := ph })

theorem wit_ClustersPlaced : ∃ (s : State) (team core : Nat) (t : Team) (n : Node) (u : State), s.team? team = some t ∧ s.node? t.node = some n ∧ t.phase = .toPlace ∧
    (∀ v ∈ s.teamsOf n.id, v.phase = .toPlace → t.cluster ≤ v.cluster) ∧ s.mayStart n = true ∧
    n.coreAt (n.leadOf core t.rank) t.rank = core ∧ s.fanRect n t.cluster (n.leadOf core t.rank) = true ∧
    s.placeCluster n t (n.leadOf core t.rank) = some u := by
  obtain ⟨t, ht, h⟩ := of_any (by decide +kernel : ((phased .toPlace).team? 1).any (fun t => ((phased .toPlace).node? t.node).any (fun n =>
    decide (t.phase = .toPlace ∧ (∀ v ∈ (phased .toPlace).teamsOf n.id, v.phase = .toPlace → t.cluster ≤ v.cluster) ∧ (phased .toPlace).mayStart n = true ∧
      n.coreAt (n.leadOf 0 t.rank) t.rank = 0 ∧ (phased .toPlace).fanRect n t.cluster (n.leadOf 0 t.rank) = true ∧
      ((phased .toPlace).placeCluster n t (n.leadOf 0 t.rank)).isSome = true))) = true)
  obtain ⟨n, hn, h⟩ := of_any h
  obtain ⟨h1, h2, h3, h4, h5, h6⟩ := of_decide_eq_true h
  obtain ⟨u, h6⟩ := Option.isSome_iff_exists.1 h6
  exact ⟨_, 1, 0, t, n, u, ht, hn, h1, h2, h3, h4, h5, h6⟩

theorem wit_TeamsRestart : ∃ (s : State) (team core : Nat) (t : Team) (n : Node) (s1 : State) (n1 : Node) (b : Nat), s.team? team = some t ∧
    s.node? t.node = some n ∧ t.phase = .saved ∧ s.mayStart n = true ∧ s.nwaitDone n t = true ∧ n.coreAt (n.leadOf core t.rank) t.rank = core ∧
    s.rectFor n t.cluster (n.leadOf core t.rank) = true ∧ s.restoreRoom t core = true ∧
    s.rectsAgain n t (n.leadOf core t.rank) = some s1 ∧ s1.node? n.id = some n1 ∧
    (if n1.desc.cores then (Tbl.find? n1.clusters t.cluster).map (fun c => Tbl.get 0 c.bases t.rank)
      else roomFor (s.part n.part) n t.banks.length (s.slotsOn core)) = some b ∧ t.sidelog = [] := by
  obtain ⟨t, ht, h⟩ := of_any (by decide +kernel : ((phased .saved).team? 1).any (fun t => ((phased .saved).node? t.node).any (fun n =>
    decide (t.phase = .saved ∧ (phased .saved).mayStart n = true ∧ (phased .saved).nwaitDone n t = true ∧
      n.coreAt (n.leadOf 0 t.rank) t.rank = 0 ∧ (phased .saved).rectFor n t.cluster (n.leadOf 0 t.rank) = true ∧
      (phased .saved).restoreRoom t 0 = true ∧ t.sidelog = []) &&
    ((phased .saved).rectsAgain n t (n.leadOf 0 t.rank)).any (fun s1 => (s1.node? n.id).any (fun n1 =>
      (if n1.desc.cores then (Tbl.find? n1.clusters t.cluster).map (fun c => Tbl.get 0 c.bases t.rank)
        else roomFor ((phased .saved).part n.part) n t.banks.length ((phased .saved).slotsOn 0)).isSome)))) = true)
  obtain ⟨n, hn, h⟩ := of_any h
  simp only [Bool.and_eq_true, decide_eq_true_eq] at h
  obtain ⟨⟨h1, h2, h3, h4, h5, h6, h7⟩, h⟩ := h
  obtain ⟨s1, hs1, h⟩ := of_any h
  obtain ⟨n1, hn1, h⟩ := of_any h
  obtain ⟨b, hb⟩ := Option.isSome_iff_exists.1 h
  exact ⟨_, 1, 0, t, n, s1, n1, b, ht, hn, h1, h2, h3, h4, h5, h6, hs1, hn1, hb, h7⟩

/-- Worlds 0 and 1 are partition 0's; world 0's slice is over, and a node of world 1 is Ready. -/
def sliced : State := { (((base.modWorld 0 (fun w => { w with slice := 0 })).modWorld 1 (fun w => { w with running := true })).modPart 0 (fun p =>
  { p with nodes := p.nodes ++ [{ bootNode 5 with world := 1, state := .ready }] })) with clock := 7 }

theorem wit_SlicesPass : ∃ (s : State) (part next : Nat), (s.world next).partId = part ∧ (s.world next).running = true ∧ s.worldHasWork next = true ∧
    (s.part part).running ≠ some next ∧
    ∀ w, (s.part part).running = some w → (s.world w).running = false ∨ (s.part part).sliceStart + (s.world w).slice.toNat * 65536 ≤ s.clock := by
  refine ⟨sliced, 0, 1, by decide +kernel, by decide +kernel, by decide +kernel, by decide +kernel, fun w hw => ?_⟩
  rw [show (sliced.part 0).running = some 0 by decide +kernel] at hw
  injection hw with hw
  subst hw
  exact .inr (by decide +kernel)

/-! ### Launches and nodes -/

/-- A queue of world 0 with 16 entries at 0x20000, mapped, one notify, no vector. -/
def queueOf : UQueue :=
  { ring := 0x20000, ctl := 0xFFFF0004, ncount := 0, taken := 0, dropped := 0, nodone := 0, resv := (0, 0), slot := some (1, 0), since := 0, cut := false }

/-- A record at 0x20000 whose graph at 0x20040 is one node with its descriptor at 0x20080, DONE 0x20100, or one of no nodes. -/
def launchBytes (nodes rsv : Byte) : Tbl Byte :=
  [(0x20000, 0x40), (0x20002, 2), (0x20008, nodes), (0x2000C, 0x55), (0x20011, 1), (0x20012, 2), (0x20020, rsv),
   (0x20040, 0x80), (0x20042, 2), (0x20058, 1), (0x2005C, 1), (0x20060, 1), (0x20068, 0xFF), (0x20069, 0xFF), (0x2006A, 0xFF), (0x2006B, 0xFF),
   (0x2006C, 0xFF), (0x2006D, 0xFF), (0x2006E, 0xFF), (0x2006F, 0xFF), (0x20082, 1), (0x20090, 0x20), (0x20091, 8), (0x20092, 0x40), (0x20094, 0x12), (0x20098, 1)]

/-- The queue with that record, in a world with a session or without one. -/
def accepting (nodes rsv : Byte) (session : Bool) : State :=
  { (phased .placed).modWorld 0 (fun w => { w with queues := [(3, queueOf)], session := session }) with mem := launchBytes nodes rsv }

def took (r : AgentRead) : Option (List Byte × State) :=
  match r with
  | .ok bs s => some (bs, s)
  | _ => none
def tookNodes (r : NodeRead) : Option (List RawNode × State) :=
  match r with
  | .ok ns s => some (ns, s)
  | _ => none

theorem took_eq {r : AgentRead} {bs : List Byte} {s : State} (h : took r = some (bs, s)) : r = .ok bs s := by
  unfold took at h; split at h
  · injection h with h; injection h with h1 h2; subst h1 h2; rfl
  · cases h
theorem tookNodes_eq {r : NodeRead} {ns : List RawNode} {s : State} (h : tookNodes r = some (ns, s)) : r = .ok ns s := by
  unfold tookNodes at h; split at h
  · injection h with h; injection h with h1 h2; subst h1 h2; rfl
  · cases h

theorem takeable (nodes rsv : Byte) (b : Bool) (h : ((accepting nodes rsv b).uqueue 0 3) = queueOf ∧ (accepting nodes rsv b).up = true ∧
    queueOf.valid 0 = true ∧ ((accepting nodes rsv b).partOfWorld 0).inUse = true ∧ ((accepting nodes rsv b).world 0).flr = false) :
    Takeable (accepting nodes rsv b) 0 3 := by
  obtain ⟨h1, h2, h3, h4, h5⟩ := h
  exact ⟨⟨(1, 0), by rw [h1]; rfl, by rw [h1]; decide⟩, h2, by rw [h1]; exact h3, h4, h5⟩

/-- A record of no nodes. -/
theorem wit_LaunchesAccepted_empty : ∃ s w q bs s1, Ordered s ∧ Takeable s w q ∧
    s.agentRead (.scheduler w q) w ((s.uqueue w q).ring.toNat + 64 * ((s.uqueue w q).taken.toNat % 2 ^ (s.uqueue w q).log2n)) 64 = .ok bs s1 ∧
    (rawLaunch (dwordsOf bs)).counts = false := by
  obtain ⟨⟨bs, s1⟩, h1, h2⟩ := of_any (by decide +kernel : (took ((accepting 0 0 true).agentRead (.scheduler 0 3) 0
    (((accepting 0 0 true).uqueue 0 3).ring.toNat + 64 * (((accepting 0 0 true).uqueue 0 3).taken.toNat % 2 ^ ((accepting 0 0 true).uqueue 0 3).log2n)) 64)).any
      (fun p => !(rawLaunch (dwordsOf p.1)).counts) = true)
  exact ⟨accepting 0 0 true, 0, 3, bs, s1, by unfold Ordered; decide +kernel, takeable 0 0 true (by decide +kernel), took_eq h1, by simpa using h2⟩

/-- How the checks of a record whose node could be read end: 0 with a reserved bit in the record, 1 with a node that may not run, 2 with a
launch. -/
def checked (bs : List Byte) (rs : List RawNode) (s : State) : Nat :=
  if (parseLaunch (dwordsOf bs)).isNone then 0 else if (s.checkNodes 0 0 rs).isLeft then 1 else 2

theorem wit_LaunchesAccepted (k : Nat) (hk : k < 3) : ∃ s w q bs s1 rs s2, Ordered s ∧ Takeable s w q ∧
    s.agentRead (.scheduler w q) w ((s.uqueue w q).ring.toNat + 64 * ((s.uqueue w q).taken.toNat % 2 ^ (s.uqueue w q).log2n)) 64 = .ok bs s1 ∧
    (let r := rawLaunch (dwordsOf bs)
     r.counts = true ∧ (s.part (s.world w).partId).nodes.length + r.nnodes ≤ Config.nodeTable ∧
     State.readNodes (.scheduler w q) w r.graph r.nnodes 0 [] s1 = .ok rs s2) ∧ checked bs rs s2 = k := by
  have h : ∀ k ∈ [0, 1, 2], (let s := accepting 1 (if k = 0 then 1 else 0) (decide (k ≠ 1))
      Tbl.sorted s.parts = true ∧ (s.uqueue 0 3 = queueOf ∧ s.up = true ∧ queueOf.valid 0 = true ∧ (s.partOfWorld 0).inUse = true ∧ (s.world 0).flr = false) ∧
      (took (s.agentRead (.scheduler 0 3) 0 ((s.uqueue 0 3).ring.toNat + 64 * ((s.uqueue 0 3).taken.toNat % 2 ^ (s.uqueue 0 3).log2n)) 64)).any (fun p =>
        let r := rawLaunch (dwordsOf p.1)
        r.counts && Nat.ble ((s.part (s.world 0).partId).nodes.length + r.nnodes) Config.nodeTable &&
        (tookNodes (State.readNodes (.scheduler 0 3) 0 r.graph r.nnodes 0 [] p.2)).any (fun q => Nat.beq (checked p.1 q.1 q.2) k)) = true) := by
    simp only [List.forall_mem_cons]; exact ⟨by decide +kernel, by decide +kernel, by decide +kernel, by simp⟩
  obtain ⟨h1, h2, h3⟩ := h k (by simp; omega)
  obtain ⟨⟨bs, s1⟩, h3, h4⟩ := of_any h3
  simp only [Bool.and_eq_true, Nat.ble_eq] at h4
  obtain ⟨⟨h4, h5⟩, h6⟩ := h4
  obtain ⟨⟨rs, s2⟩, h6, h7⟩ := of_any h6
  exact ⟨_, 0, 3, bs, s1, rs, s2, h1, takeable _ _ _ h2, took_eq h3, ⟨h4, h5, tookNodes_eq h6⟩, Nat.eq_of_beq_eq_true h7⟩

theorem wit_QueuesMapped : ∃ (s : State) (part w q : Nat) (uq : UQueue), ((s.partQueues part).filter (fun e => e.2.2.slot.isSome)).length < 64 ∧
    leastBy (fun (e : Nat × Nat × UQueue) => e.2.2.since) ((s.partQueues part).filter (fun e =>
      e.2.2.slot.isNone && e.2.2.isWaiting && !(s.world e.1).flr && !e.2.2.cut)) = some (w, q, uq) :=
  ⟨base.modWorld 0 (fun w => { w with queues := [(3, { queueOf with slot := none, ncount := 1 })] }), 0, 0, 3, { queueOf with slot := none, ncount := 1 },
    by decide +kernel, by decide +kernel⟩

/-- The partition's nodes, with no teams, in a state whose compartment 0 is Active. -/
def noding (ns : List Node) : State := { (phased .placed).modPart 0 (fun p => { p with nodes := ns }) with teams := [], clock := 0x200000 }

theorem node_of {s : State} {p : Node → Bool} (i : Nat) (h : (s.node? i).any p = true) : ∃ n, s.node? i = some n ∧ p n = true := of_any h

theorem wit_NodesReady : (∃ (s : State) (node : Nat) (n : Node), s.node? node = some n ∧ s.admissible n = true ∧ (s.part n.part).poolSize < Config.readyPool ∧
      (n.device = true ∨ ∀ m ∈ (s.part n.part).nodes, m.device = true → s.admissible m = false)) ∧
    (∃ (s : State) (node : Nat) (n : Node), s.node? node = some n ∧ n.state = .ready ∧ n.effPrio < 7 ∧ n.readyAt + 2 ^ 20 * (n.effPrio - n.prio + 1) ≤ s.clock) ∧
    ∃ (s : State) (node : Nat) (n : Node) (rest : List Node), s.node? node = some n ∧ (s.part n.part).spilledNodes = n :: rest ∧
      (s.part n.part).devQueue.length < Config.launchQueue := by
  let a := noding [{ bootNode 0 with state := .pending, device := true }]
  let b := noding [{ bootNode 0 with state := .ready, effPrio := 1 }]
  let c := noding [{ bootNode 0 with state := .pending, device := true, spilled := true }]
  obtain ⟨n1, h1, p1⟩ := node_of 0 (by decide +kernel : (a.node? 0).any (fun n => decide (a.admissible n = true ∧ (a.part n.part).poolSize < Config.readyPool ∧
    n.device = true)) = true)
  obtain ⟨n2, h2, p2⟩ := node_of 0 (by decide +kernel : (b.node? 0).any (fun n => decide (n.state = .ready ∧ n.effPrio < 7 ∧
    n.readyAt + 2 ^ 20 * (n.effPrio - n.prio + 1) ≤ b.clock)) = true)
  obtain ⟨n3, h3, p3⟩ := node_of 0 (by decide +kernel : (c.node? 0).any (fun n => decide ((c.part n.part).spilledNodes = n :: [] ∧
    (c.part n.part).devQueue.length < Config.launchQueue)) = true)
  obtain ⟨q1, q2, q3⟩ := of_decide_eq_true p1
  exact ⟨⟨a, 0, n1, h1, q1, q2, .inl q3⟩, ⟨b, 0, n2, h2, of_decide_eq_true p2⟩, c, 0, n3, [], h3, of_decide_eq_true p3⟩

theorem wit_NodesDispatched : ∃ (s : State) (part lead : Nat) (n m : Node), Ordered s ∧ (s.dispatchOrder part).find? s.canPlace = some n ∧
    s.canLead n lead = true ∧ s.node? n.id = some m := by
  let a := noding [{ bootNode 0 with state := .ready, dispatched := false, clusters := [] }]
  obtain ⟨n, h1, h2⟩ := of_any (by decide +kernel : ((a.dispatchOrder 0).find? a.canPlace).any (fun n => a.canLead n 0 && (a.node? n.id).isSome) = true)
  simp only [Bool.and_eq_true] at h2
  obtain ⟨m, h3⟩ := Option.isSome_iff_exists.1 h2.2
  exact ⟨a, 0, 0, n, m, by unfold Ordered; decide +kernel, h1, h2.1, h3⟩

/-- A node whose dispatch walks: without operands, and with one whose traverse record of zeros is at 0. -/
def dispatching (ops : List (Nat × Nat)) : State := noding [{ bootNode 0 with state := .dispatching, walking := true, desc := { (bootNode 0).desc with operands := ops } }]

theorem wit_TractStarts : (∃ (s : State) (node : Nat) (n : Node), s.node? node = some n ∧ n.walking = true ∧ s.mayStart n = true ∧ n.nextOperand = none) ∧
    ∃ (s : State) (node : Nat) (n : Node) (k : Nat) (a : Walked), s.node? node = some n ∧ n.walking = true ∧ s.mayStart n = true ∧
      n.nextOperand = some k ∧ (s.walkOperand n k).2 = .go a := by
  obtain ⟨n1, h1, p1⟩ := node_of 0 (by decide +kernel : ((dispatching []).node? 0).any (fun n => decide (n.walking = true ∧
    (dispatching []).mayStart n = true ∧ n.nextOperand = none)) = true)
  obtain ⟨n2, h2, p2⟩ := node_of 0 (by decide +kernel : ((dispatching [(0x1000, 3)]).node? 0).any (fun n => decide (n.walking = true ∧
    (dispatching [(0x1000, 3)]).mayStart n = true ∧ n.nextOperand = some 0) && decide (walkEnd ((dispatching [(0x1000, 3)]).walkOperand n 0).2 = 1)) = true)
  simp only [Bool.and_eq_true, decide_eq_true_eq] at p2
  match ha : ((dispatching [(0x1000, 3)]).walkOperand n2 0).2, p2.2 with
  | .go a, _ => exact ⟨⟨_, 0, n1, h1, of_decide_eq_true p1⟩, _, 0, n2, 0, a, h2, p2.1.1, p2.1.2.1, p2.1.2.2, ha⟩

/-- The launch of the probe's node. -/
def launchOf : Launch :=
  { id := 0, world := 0, part := 0, queue := 3, tag := 0x55, done := none, ndev := 0, ncommit := 0, first := none, refused := false, cancelled := false,
    poisoned := false, noReplay := false, nonReplayable := false, targets := [], shadow := [], replays := 0 }

def launched (l : Launch) (ns : List Node) : State := (noding ns).modPart 0 (fun p => { p with launches := [l] })

theorem wit_NodesCommit : ∃ (s : State) (node : Nat) (n : Node) (l : Launch), Ordered s ∧ s.node? node = some n ∧ s.committable n = true ∧
    s.launch? n.launch = some l ∧ n.shadow ≠ [] := by
  let a := launched launchOf [{ bootNode 0 with shadow := [(5, 9)], shadowPages := [(0, { bytes := [], lines := [], tag := none })] }]
  obtain ⟨n, h1, h2⟩ := node_of 0 (by decide +kernel : (a.node? 0).any (fun n => decide (a.committable n = true ∧ n.shadow ≠ []) && (a.launch? n.launch).isSome) = true)
  simp only [Bool.and_eq_true, decide_eq_true_eq] at h2
  obtain ⟨l, h3⟩ := Option.isSome_iff_exists.1 h2.2
  exact ⟨a, 0, n, l, by unfold Ordered; decide +kernel, h1, h2.1.1, h3, h2.1.2⟩

theorem wit_NodesEnd : ∃ (s : State) (node : Nat) (n : Node) (k : TrapKind) (e : DWord) (l : Launch), Ordered s ∧ s.node? node = some n ∧ n.ending = some (k, e) ∧
    s.drained node = true ∧ n.cancelling = false ∧ k ≠ .keyRevoked ∧ s.launch? n.launch = some l := by
  let a := launched launchOf [{ bootNode 0 with ending := some (.protection, 0x1000) }]
  obtain ⟨n, h1, h2⟩ := node_of 0 (by decide +kernel : (a.node? 0).any (fun n => decide (n.ending = some (.protection, 0x1000) ∧ a.drained 0 = true ∧
    n.cancelling = false) && (a.launch? n.launch).isSome) = true)
  simp only [Bool.and_eq_true, decide_eq_true_eq] at h2
  obtain ⟨l, h3⟩ := Option.isSome_iff_exists.1 h2.2
  exact ⟨a, 0, n, .protection, 0x1000, l, by unfold Ordered; decide +kernel, h1, h2.1.1, h2.1.2.1, h2.1.2.2, by decide, h3⟩

/-- A node that waits, one that runs, and one that a cancellation stops. -/
theorem wit_NodesCancelled (m : Node) (hm : m = { bootNode 0 with state := .pending } ∨ m = bootNode 0 ∨
    m = { bootNode 0 with cancelling := true, ending := some (.breakpoint, 0) }) : ∃ (s : State) (world : Nat) (h : DWord) (n : Node),
    s.nodes.find? (fun y => decide (y.world = world) && decide (y.handle.toNat = h.toNat)) = some n ∧ n.final = false ∧
    s.node? n.id = some n ∧ Ordered s ∧ (∀ y ∈ s.nodes, y.id = n.id → y = n) ∧ n = m ∧ (n.ending.isSome = true → s.drained n.id = true) := by
  have h : ∀ m ∈ [{ bootNode 0 with state := .pending }, bootNode 0, { bootNode 0 with cancelling := true, ending := some (.breakpoint, 0) }],
      (noding [m]).nodes = [m] ∧ (noding [m]).node? m.id = some m ∧ Tbl.sorted (noding [m]).parts = true ∧ m.final = false ∧ m.world = 0 ∧ m.handle = 1 ∧
      (noding [m]).drained m.id = true := by
    simp only [List.forall_mem_cons]; exact ⟨by decide +kernel, by decide +kernel, by decide +kernel, by simp⟩
  obtain ⟨h1, h2, h3, h4, h5, h6, h7⟩ := h m (by simpa using hm)
  refine ⟨noding [m], 0, 1, m, ?_, h4, h2, h3, ?_, rfl, fun _ => h7⟩
  · rw [h1]; simp [h5, h6]
  · intro y hy _; rw [h1] at hy; simpa using hy

/-- A launch of two nodes, of which the first runs and the second waits. -/
theorem wit_LaunchCancelled : ∃ (s : State) (world : Nat) (h : DWord) (n : Node),
    s.nodes.find? (fun y => decide (y.world = world) && decide (y.handle.toNat = h.toNat)) = some n ∧ n.final = false ∧ Ordered s ∧
    (∀ m ∈ s.nodes, ∀ k ∈ s.nodes, m.id = k.id → m = k) ∧ (∃ m ∈ s.nodes, m.launch = n.launch ∧ m.state = .pending) ∧ (s.launch? n.launch).isSome = true := by
  let s := launched launchOf [bootNode 0, { bootNode 1 with handle := 2, state := .pending }]
  obtain ⟨n, hn, h⟩ := of_any (by decide +kernel : (s.nodes.find? (fun y => decide (y.world = 0) && decide (y.handle.toNat = (1 : DWord).toNat))).any (fun n =>
    decide (n.final = false ∧ Tbl.sorted s.parts = true ∧ (∀ m ∈ s.nodes, ∀ k ∈ s.nodes, m.id = k.id → m = k) ∧
      (∃ m ∈ s.nodes, m.launch = n.launch ∧ m.state = .pending) ∧ (s.launch? n.launch).isSome = true)) = true)
  obtain ⟨h1, h2, h3⟩ := of_decide_eq_true h
  exact ⟨s, 0, 1, n, hn, h1, h2, h3⟩

theorem wit_LaunchesEnd (d : Option Nat) (hd : d = none ∨ d = some 0x1000) : ∃ (s : State) (launch : Nat) (l : Launch), s.launch? launch = some l ∧
    (∀ n ∈ s.nodes, n.launch = launch → n.final = true) ∧ s.up = true ∧ l.done = d ∧
    (d = some 0x1000 → s.agentPage (.completion launch) l.world 0x1000 .write = .ok 0x1000 ⟨true, true, false, 0, 0, 0⟩ none ∧
      s.enginePlace ⟨true, true, false, 0, 0, 0⟩ 0x1000 = .home) := by
  have h : ∀ d ∈ [none, some 0x1000], (let s := launched { launchOf with done := d } [{ bootNode 0 with state := .committed }]
      s.launch? 0 = some { launchOf with done := d } ∧ (∀ n ∈ s.nodes, n.launch = 0 → n.final = true) ∧ s.up = true ∧
      s.agentPage (.completion 0) 0 0x1000 .write = .ok 0x1000 ⟨true, true, false, 0, 0, 0⟩ none ∧
      s.enginePlace ⟨true, true, false, 0, 0, 0⟩ 0x1000 = .home) := by
    simp only [List.forall_mem_cons]; exact ⟨by decide +kernel, by decide +kernel, by simp⟩
  obtain ⟨h1, h2, h3, h4, h5⟩ := h d (by simpa using hd)
  exact ⟨_, 0, _, h1, h2, h3, rfl, fun _ => ⟨h4, h5⟩⟩

/-- One node that consumed an uncorrectable error, whose effects escaped or did not. -/
def replaying (e : Bool) (r : Nat) : State :=
  launched { launchOf with nonReplayable := e } [{ bootNode 0 with consumed := some .uncorrectable, escaped := e, replays := r }]

theorem wit_NodesReplay (e : Bool) (r : Nat) (he : (e, r) ∈ [(false, 2), (false, 3), (true, 0)]) : ∃ (s : State) (node : Nat) (n : Node) (k : TrapKind) (l : Launch), Ordered s ∧
    s.node? node = some n ∧ n.consumed = some k ∧ n.ending = none ∧ s.drained node = true ∧ s.launchDue n.launch = false ∧
    s.launch? n.launch = some l ∧ n.parent ≠ some n.id ∧ n.escaped = e ∧ n.replays = r ∧ n.noReplay = false ∧ l.noReplay = false ∧
    (e = true → (l.nonReplayable = true ∨ 2 ≤ l.replays) ∧ (s.world l.world).errring = 0#64) := by
  have h : ∀ er ∈ [(false, 2), (false, 3), (true, 0)], ((replaying er.1 er.2).node? 0).any (fun n =>
      decide (Tbl.sorted (replaying er.1 er.2).parts = true ∧ n.consumed = some .uncorrectable ∧ n.ending = none ∧
        (replaying er.1 er.2).drained 0 = true ∧ (replaying er.1 er.2).launchDue n.launch = false ∧
        (replaying er.1 er.2).launch? n.launch = some { launchOf with nonReplayable := er.1 } ∧ n.parent ≠ some n.id ∧ n.escaped = er.1 ∧
        n.replays = er.2 ∧ n.noReplay = false ∧ ((replaying er.1 er.2).world 0).errring = 0#64)) = true := by
    simp only [List.forall_mem_cons]; exact ⟨by decide +kernel, by decide +kernel, by decide +kernel, by simp⟩
  obtain ⟨n, hn, h⟩ := of_any (h (e, r) he)
  obtain ⟨h1, h2, h3, h4, h5, h6, h7, h8, h9, h10, h11⟩ := of_decide_eq_true h
  exact ⟨_, 0, n, _, _, h1, hn, h2, h3, h4, h5, h6, h7, h8, h9, h10, rfl, fun he => ⟨.inl he, h11⟩⟩

theorem wit_LaunchesReplay : ∃ (s : State) (launch : Nat) (l : Launch), Ordered s ∧ s.launch? launch = some l ∧ s.launchDue launch = true ∧
    ∀ n ∈ s.nodes, n.launch = launch → (n.final = true ∨ n.dispatched = false ∨ n.consumed.isSome = true ∨ n.ending.isSome = true) ∧ s.drained n.id = true :=
  ⟨launched launchOf [{ bootNode 0 with consumed := some .uncorrectable, escaped := true }], 0, launchOf, by unfold Ordered; decide +kernel,
    by decide +kernel, by decide +kernel, by decide +kernel⟩

end Sys2Proof.Tests
end

