-- ==== Sys2Proof/Tests/WitnessMemory.lean ====
section
/-! SUPPORT. Witnesses: for each statement about memory and scratchpad instructions and accesses, a state and operands that meet its
hypotheses together. -/

set_option Elab.async false

namespace Sys2Proof.Tests

open Sys2Proof Sys2Proof.Machine Sys2Proof.Claims

/-- Page 0 of world 0 is frame 0 of the package's DRAM, writable and not stable, in the TLB of die 0; plat 0 is partition 0's;
v8 of every lane is the address given, and v9 is 0. -/
def mapped (a : Word) : State :=
  reged ({ (base.modPart 0 (fun p => { p with record := 0x1000000000000 })) with
    tlb := [{ die := 0, world := 0, vpage := 0, ppage := 0, gpage := 0, attr := ⟨true, false, false, 0, 0, 0⟩, dirty := true }] } : State) 8 a

/-- Where the accesses of `mapped 0x1000` go. -/
def foundAt : Found := ⟨0x1000, ⟨true, false, false, 0, 0, 0⟩, none, false⟩

/-- `AccessesGo` has a state and operands for `i`. -/
def Access (i : Instr) : Prop := ∃ o s d x s1, ∃ f : Member → Nat → Found, globalOp i = some o ∧ i.wf = true ∧ Issues s o.c false d x s1 ∧
    MReady o d x s1 ∧ ∀ a ∈ laneAccs o x s1, a.va % o.bytes = 0 ∧ a.va < 2 ^ 57 ∧
      s1.resolve x.node x.team.core (x.who a.m) o.acc a.va o.bytes = .ok (f a.m a.l) ∧ s1.step4 x.node o.bytes (f a.m a.l) = none

theorem wit_accesses {i : Instr} {o : MOp} {s : State} (ho : globalOp i = some o) (hw : i.wf = true)
    (h : (found o.c false s).any (fun p => decide ((fun d x s1 => mready o d x s1 = true ∧ laneAccs o x s1 ≠ [] ∧
      ∀ a ∈ laneAccs o x s1, a.va % o.bytes = 0 ∧ a.va < 2 ^ 57 ∧
        s1.resolve x.node x.team.core (x.who a.m) o.acc a.va o.bytes = .ok foundAt ∧ s1.step4 x.node o.bytes foundAt = none) p.1 p.2.1 p.2.2)) = true) :
    Access i := by
  obtain ⟨d, x, s1, hi, h1, -, h2⟩ := wit (fun d x s1 => mready o d x s1 = true ∧ laneAccs o x s1 ≠ [] ∧
      ∀ a ∈ laneAccs o x s1, a.va % o.bytes = 0 ∧ a.va < 2 ^ 57 ∧
        s1.resolve x.node x.team.core (x.who a.m) o.acc a.va o.bytes = .ok foundAt ∧ s1.step4 x.node o.bytes foundAt = none) h
  exact ⟨o, s, d, x, s1, fun _ _ => foundAt, ho, hw, hi, mready_iff h1, h2⟩

/-- `ld` of 16 bytes with a 64-bit address, `st`, `atom.cas` and `red`. -/
theorem wit_AccessesGo_ld : Access (.ld (writes .lane) { plainM with data := 12, addr := 8, width := .b16, sub := 0x20 }) :=
  wit_accesses (s := mapped 0x1000) rfl (by decide) (by decide +kernel)
theorem wit_AccessesGo_st : Access (.st (silent .lane) { plainM with data := 4, addr := 8, order := .release, mscope := .sys }) :=
  wit_accesses (s := mapped 0x1000) rfl (by decide) (by decide +kernel)
theorem wit_AccessesGo_atom : Access (.atom (writes .lane) { plainM with data := 4, addr := 8, second := 5, offset := 4, width := .b4, sub := 7 }) :=
  wit_accesses (s := mapped 0xFFC) rfl (by decide) (by decide +kernel)
theorem wit_AccessesGo_red : Access (.red (silent .lane) { plainM with data := 4, addr := 8, width := .b8 }) :=
  wit_accesses (s := mapped 0x1000) rfl (by decide) (by decide +kernel)

/-- `ScratchGoes` has a state and operands for `i`. -/
def ScratchAccess (i : Instr) : Prop := ∃ o s d x s1, localOp i = some o ∧ i.wf = true ∧ Issues s o.c false d x s1 ∧ MReady o d x s1 ∧
    ∀ a ∈ laneAccs o x s1, a.va % o.bytes = 0 ∧ ∃ p, s1.scratchPlace x.node x.team o.bytes a.va = some p ∧
      ∀ j, p.1 = .peer j → s1.peer x.node.id j ≠ .waits

theorem wit_scratch {i : Instr} {o : MOp} {s : State} (ho : localOp i = some o) (hw : i.wf = true)
    (h : (found o.c false s).any (fun p => decide ((fun d x s1 => mready o d x s1 = true ∧ laneAccs o x s1 ≠ [] ∧
      ∀ a ∈ laneAccs o x s1, a.va % o.bytes = 0 ∧ (s1.scratchPlace x.node x.team o.bytes a.va).any (fun q => (match q.1 with
        | .peer j => decide (s1.peer x.node.id j ≠ .waits)
        | _ => true)) = true) p.1 p.2.1 p.2.2)) = true) :
    ScratchAccess i := by
  obtain ⟨d, x, s1, hi, h1, -, h2⟩ := wit (fun d x s1 => mready o d x s1 = true ∧ laneAccs o x s1 ≠ [] ∧
      ∀ a ∈ laneAccs o x s1, a.va % o.bytes = 0 ∧ (s1.scratchPlace x.node x.team o.bytes a.va).any (fun q => (match q.1 with
        | .peer j => decide (s1.peer x.node.id j ≠ .waits)
        | _ => true)) = true) h
  refine ⟨o, s, d, x, s1, ho, hw, hi, mready_iff h1, fun a ha => ⟨(h2 a ha).1, ?_⟩⟩
  obtain ⟨p, hp, h3⟩ := of_any (h2 a ha).2
  refine ⟨p, hp, fun j hj => ?_⟩
  rw [hj] at h3
  simpa using h3

/-- `lds` and `atoms` of the team's last word, and `sts` to the first byte of the peer of rank 0 (Table 10.1). -/
theorem wit_ScratchGoes_lds : ScratchAccess (.lds (writes .lane) { plainM with data := 12, addr := 8, width := .b4 }) :=
  wit_scratch (s := mapped 0xFFFC) rfl (by decide) (by decide +kernel)
theorem wit_ScratchGoes_sts : ScratchAccess (.sts (silent .lane) { plainM with data := 4, addr := 8, width := .b1 }) :=
  wit_scratch (s := mapped 0x80000000) rfl (by decide) (by decide +kernel)
theorem wit_ScratchGoes_atoms : ScratchAccess (.atoms (writes .lane) { plainM with data := 12, addr := 8, width := .b4 }) :=
  wit_scratch (s := mapped 0xFFFC) rfl (by decide) (by decide +kernel)

/-! ### Traps -/

/-- As `mapped`, with a handler at hand. -/
def trapping (a : Word) : State := (opened (mapped a)).modNode 0 (fun n => { n with desc := { n.desc with handler := 0x10001 } })

/-- v8 as given in lane 3, and 0x1000 in every other lane. -/
def oneBad (a : Word) : State := (trapping 0x1000).modGroup 1 0 (fun g => g.setReg 8 3 a)

def lowest (vs : List Nat) (p : Nat → Bool) (a : Nat) : Bool := vs.contains a && p a && vs.all (fun b => !p b || decide (a ≤ b))

theorem lowest_iff {vs : List Nat} {p : Nat → Bool} {q : Nat → Prop} {a : Nat} (hq : ∀ v, p v = true ↔ q v) (h : lowest vs p a = true) :
    lowestFailing vs q a := by
  simp only [lowest, Bool.and_eq_true, List.contains_iff_mem, List.all_eq_true, Bool.or_eq_true, Bool.not_eq_true', decide_eq_true_eq] at h
  obtain ⟨⟨h1, h2⟩, h3⟩ := h
  refine ⟨h1, (hq _).1 h2, fun b hb hf => ?_⟩
  rcases h3 b hb with h | h
  · rw [(hq b).2 hf] at h; cases h
  · exact h

/-- `MisalignedTraps` has a state and operands for `i`. -/
def MisalignedAccess (i : Instr) : Prop := ∃ o s d x s1 a, memoryOp i = some o ∧ i.wf = true ∧ Issues s o.c false d x s1 ∧ MReads o d x s1 ∧
    lowestFailing ((laneAccs o x s1).map (fun e => e.va)) (fun v => v % o.bytes ≠ 0) a ∧ CanEnter x s1

theorem wit_misaligned {i : Instr} {o : MOp} {s : State} {a : Nat} (ho : memoryOp i = some o) (hw : i.wf = true)
    (h : (found o.c false s).any (fun p => mreads o p.1 p.2.1 p.2.2 &&
      (lowest ((laneAccs o p.2.1 p.2.2).map (fun e => e.va)) (fun v => decide (v % o.bytes ≠ 0)) a && canEnter p.2.1 p.2.2)) = true) :
    MisalignedAccess i := by
  obtain ⟨d, x, s1, hi, hv⟩ := witness (P := fun d x s1 => mreads o d x s1 &&
      (lowest ((laneAccs o x s1).map (fun e => e.va)) (fun v => decide (v % o.bytes ≠ 0)) a && canEnter x s1)) h
  simp only [Bool.and_eq_true] at hv
  exact ⟨o, s, d, x, s1, a, ho, hw, hi, mreads_iff hv.1, lowest_iff (fun v => decide_eq_true_iff) hv.2.1, canEnter_iff hv.2.2⟩

theorem wit_MisalignedTraps_global : MisalignedAccess (.ld (writes .lane) { plainM with data := 12, addr := 8, width := .b2 }) :=
  wit_misaligned (s := oneBad 0x1001) (a := 0x1001) rfl (by decide) (by decide +kernel)
theorem wit_MisalignedTraps_local : MisalignedAccess (.sts (silent .lane) { plainM with data := 4, addr := 8, width := .b8 }) :=
  wit_misaligned (s := oneBad 0x1004) (a := 0x1004) rfl (by decide) (by decide +kernel)

/-- Lane 3's pair v8:v9 is 2^57, just beyond the addresses. -/
def oneHigh : State := (trapping 0).modGroup 1 0 (fun g => g.setReg 9 3 0x2000000#32)

theorem wit_HighAddressTraps : ∃ i o s d x s1 a, globalOp i = some o ∧ i.wf = true ∧ Issues s o.c false d x s1 ∧ MReads o d x s1 ∧
    (∀ e ∈ laneAccs o x s1, e.va % o.bytes = 0) ∧ lowestFailing ((laneAccs o x s1).map (fun e => e.va)) (fun v => 2 ^ 57 ≤ v) a ∧ CanEnter x s1 := by
  let f : FmtM := { plainM with data := 4, addr := 8, width := .b4, sub := 0x20 }
  let o : MOp :=
    { c := silent .lane, f := f, kind := .store, acc := .write, ret := false,
      reads := true, cas := false, a64 := f.sub.getLsbD 5, loc := false, logs := !releases f.order, commit := releases f.order }
  obtain ⟨d, x, s1, hi, h1, h2, h3, h4⟩ := wit (c := silent .lane) (fuse := false) (s := oneHigh) (fun d x s1 => mreads o d x s1 = true ∧
    (∀ e ∈ laneAccs o x s1, e.va % o.bytes = 0) ∧ lowest ((laneAccs o x s1).map (fun e => e.va)) (fun v => decide (2 ^ 57 ≤ v)) (2 ^ 57) = true ∧
    canEnter x s1 = true) (by decide +kernel)
  exact ⟨.st (silent .lane) f, o, _, d, x, s1, 2 ^ 57, rfl, by decide, hi, mreads_iff h1, h2, lowest_iff (fun v => decide_eq_true_iff) h3, canEnter_iff h4⟩

theorem wit_ScratchBoundTraps : ∃ i o s d x s1 a, localOp i = some o ∧ i.wf = true ∧ Issues s o.c false d x s1 ∧ MReads o d x s1 ∧
    (∀ e ∈ laneAccs o x s1, e.va % o.bytes = 0) ∧
    lowestFailing ((laneAccs o x s1).map (fun e => e.va)) (fun v => s1.scratchPlace x.node x.team o.bytes v = none) a ∧ CanEnter x s1 := by
  let f : FmtM := { plainM with data := 4, addr := 8, width := .b4 }
  let o : MOp :=
    { c := writes .lane, f := f, kind := .load (f.sub.getLsbD 0), acc := .read, ret := true,
      reads := false, cas := false, a64 := false, loc := true, logs := false, commit := false }
  obtain ⟨d, x, s1, hi, h1, h2, h3, h4⟩ := wit (c := writes .lane) (fuse := false) (s := oneBad 0x10000) (fun d x s1 => mreads o d x s1 = true ∧
    (∀ e ∈ laneAccs o x s1, e.va % o.bytes = 0) ∧
    lowest ((laneAccs o x s1).map (fun e => e.va)) (fun v => decide (s1.scratchPlace x.node x.team o.bytes v = none)) 0x10000 = true ∧
    canEnter x s1 = true) (by decide +kernel)
  exact ⟨.lds (writes .lane) f, o, _, d, x, s1, 0x10000, rfl, by decide, hi, mreads_iff h1, h2, lowest_iff (fun v => decide_eq_true_iff) h3, canEnter_iff h4⟩

/-! ### Loads into the form file, accesses, fills and fences -/

/-- f5 is uniform, and a fill for f4 has landed. -/
def formLanded : State :=
  ({ base with fills := [{ id := 7, team := 1, parcel := none, form := true, regs := [], vals := [(0, 0, 0, 0x55#32)], waiting := [], sends := [] }] } : State).modTeam 1
    (fun t => { t with form := [(5, .uni 0x1000#32)] })

theorem wit_FormLoadLands : ∃ c f s d x s1 o r fl, globalOp (.ld c f) = some o ∧ o.regs.formDst = some r ∧
    (Instr.ld c f).wf = true ∧ Issues s c false d x s1 ∧ o.static d.node = none ∧ o.regs.undef d.team d.gr d.act = false ∧
    o.regs.regIndex x = false ∧ o.regs.emptyRead x = false ∧ o.regs.blocked x = false ∧ o.regs.dstEmpty x = false ∧
    o.regs.sends.any (fun q => (Tbl.find? x.team.sendq q.1).isNone) = false ∧ o.badForm x = false ∧ s1.formFill x.team.id = some fl ∧ fl.waiting = [] := by
  let f : FmtM := { plainM with data := 1604, addr := 1605, width := .b4 }
  let o : MOp :=
    { c := writes .team, f := f, kind := .load (f.sub.getLsbD 0), acc := .read, ret := true,
      reads := false, cas := false, a64 := f.sub.getLsbD 5, loc := false, logs := false, commit := false }
  obtain ⟨d, x, s1, hi, h1, h2, h3, h4, h5, h6, h7, h8, fl, h9, h10⟩ := wit (c := writes .team) (fuse := false) (s := formLanded) (fun d x s1 =>
    o.static d.node = none ∧ o.regs.undef d.team d.gr d.act = false ∧
    o.regs.regIndex x = false ∧ o.regs.emptyRead x = false ∧ o.regs.blocked x = false ∧ o.regs.dstEmpty x = false ∧
    o.regs.sends.any (fun q => (Tbl.find? x.team.sendq q.1).isNone) = false ∧ o.badForm x = false ∧
    ∃ fl ∈ s1.formFill x.team.id, fl.waiting = []) (by decide +kernel)
  exact ⟨writes .team, f, _, d, x, s1, o, 4, fl, rfl, by decide, by decide, hi, h1, h2, h3, h4, h5, h6, h7, h8, h9, h10⟩

/-- An access of lane 5 at the last word of the frame 0, for the fill 7. -/
def accessOf (k : ReqKind) (p : Place) : Req :=
  { id := 8, team := 1, group := 0, lane := 5, parcel := none, node := 0, core := 0, comp := 0, va := 0xFFFC, pa := 0xFFFC, kind := k, width := .b4,
    mscope := .sys, order := .relaxed, hint := .normal, home := 0, stable := false, shadow := false, place := p, data := 0x80000001,
    cmp := 0, fill := some 7, part := 0, instr := 0x10000, batch := 0, side := false }

def accessing (k : ReqKind) (p : Place) : State :=
  { base with reqs := [accessOf k p], mem := [(0xFFFC, 0xFF#8)],
              fills := [{ id := 7, team := 1, parcel := none, form := false, regs := [(0, 4)], vals := [], waiting := [8], sends := [] }] }

theorem at_place (k : ReqKind) (p : Place) (h : (accessing k p).reqReady (accessOf k p) = true ∧ ((accessing k p).node? 0).isSome = true ∧
    ∀ c ∈ (accessing k p).cores, c.2.sidelog = []) : ∃ n, AtPlace (accessing k p) 8 (accessOf k p) n := by
  obtain ⟨n, hn⟩ := Option.isSome_iff_exists.1 h.2.1
  exact ⟨n, rfl, hn, h.1, h.2.2⟩

theorem wit_HomeAccess : ∃ s req r n, AtPlace s req r n ∧ r.place = .home ∧ r.shadow = false ∧ r.stable = false ∧
    (ReqKind.reads r.kind = true → served s r = false → ((s.fetchLines r.comp r.pa r.bytes r.home).poisoned r.pa r.bytes) = false) := by
  obtain ⟨n, h⟩ := at_place (.atom 2 false true true) .home (by decide +kernel)
  exact ⟨_, 8, _, n, h, rfl, rfl, rfl, by decide +kernel⟩

/-- Any access may be performed. -/
theorem wit_RequestCompletes : ∃ s req r n, AtPlace s req r n ∧ ∀ i, r.place ≠ .peer i := by
  obtain ⟨n, h⟩ := at_place (.red 0 false false) .home (by decide +kernel)
  exact ⟨_, 8, _, n, h, fun i hi => by cases hi⟩

theorem wit_CarveAccess : ∃ s req r n, AtPlace s req r n ∧ r.place = .port ∧ r.shadow = false ∧ s.carveClash r.comp r.pa = false := by
  obtain ⟨n, h⟩ := at_place (.atom 6 false true true) .port (by decide +kernel)
  exact ⟨_, 8, _, n, h, rfl, rfl, by decide +kernel⟩

theorem wit_HostAccess : ∃ s req r n, AtPlace s req r n ∧ r.place = .host ∧ r.shadow = false := by
  obtain ⟨n, h⟩ := at_place .store .host (by decide +kernel)
  exact ⟨_, 8, _, n, h, rfl, rfl⟩

/-- The access `r` alone is on its way, with its fill, in a machine whose Frekuide link 0 has its keys. -/
def sole (r : Req) : State :=
  { accessing r.kind r.place with reqs := [r], spdm := [(.peer 0, .session)] }

theorem at_sole {r : Req} (hr : r.id = 8 ∧ r.node = 0) (h : (sole r).reqReady r = true) : ∃ n, AtPlace (sole r) 8 r n := by
  obtain ⟨n, hn⟩ := Option.isSome_iff_exists.1 (by decide +kernel : (base.node? 0).isSome = true)
  refine ⟨n, ?_, ?_, h, ?_⟩
  · show List.find? _ [r] = some r
    simp [hr.1]
  · rw [hr.2]; exact hn
  · exact (by decide +kernel : ∀ c ∈ base.cores, c.2.sidelog = [])

theorem wit_OtherAccess : ∃ s req r n, AtPlace s req r n ∧ r.place = .other ∧ r.shadow = false := by
  obtain ⟨n, h⟩ := at_sole (r := { accessOf (.load false) .other with pa := 2 ^ 42 }) ⟨rfl, rfl⟩ (by decide +kernel)
  exact ⟨_, 8, _, n, h, rfl, rfl⟩

/-- A register of the world's window, loaded and stored. -/
theorem wit_RegisterAccess (k : ReqKind) (hk : k = .load false ∨ k = .store) : ∃ s req r n, AtPlace s req r n ∧ r.place = .register ∧
    r.width = .b8 ∧ r.kind = k := by
  obtain ⟨n, h⟩ := at_sole (r := { accessOf k .register with pa := 0x3F000000010, width := .b8 }) ⟨rfl, rfl⟩ (by rcases hk with rfl | rfl <;> decide +kernel)
  exact ⟨_, 8, _, n, h, rfl, rfl, rfl⟩

theorem wit_ParamAccess : ∃ s req r n b, AtPlace s req r n ∧ r.place = .param ∧ r.shadow = false ∧ r.kind = .load b := by
  obtain ⟨n, h⟩ := at_place (.load true) .param (by decide +kernel)
  exact ⟨_, 8, _, n, true, h, rfl, rfl, rfl⟩

/-- The node has its own version of frame 0. -/
theorem wit_ShadowStore : ∃ s req r n, AtPlace s req r n ∧ r.place = .home ∧ r.shadow = true ∧ r.kind = .store ∧
    (Tbl.find? n.shadowPages (pageKey .home r.pa)).isSome = true := by
  let s := (sole { accessOf .store .home with shadow := true }).modNode 0 (fun n => { n with shadowPages := [(0, { bytes := [], lines := [], tag := none })] })
  obtain ⟨n, hn, h⟩ := of_any (by decide +kernel : (s.node? 0).any (fun n => (Tbl.find? n.shadowPages (pageKey .home 0xFFFC)).isSome) = true)
  exact ⟨s, 8, { accessOf .store .home with shadow := true }, n, ⟨by decide +kernel, hn, by decide +kernel, by decide +kernel⟩, rfl, rfl, rfl, h⟩

theorem wit_PortAccess : ∃ s req r n t, AtPlace s req r n ∧ r.place = .scratch ∧ s.team? r.team = some t := by
  obtain ⟨n, h⟩ := at_place (.load true) .scratch (by decide +kernel)
  obtain ⟨t, ht⟩ := Option.isSome_iff_exists.1 (by decide +kernel : ((accessing (.load true) .scratch).team? 1).isSome = true)
  exact ⟨_, 8, _, n, t, h, rfl, ht⟩

theorem wit_PeerAccess_placed : ∃ s req r n i t, AtPlace s req r n ∧ r.place = .peer i ∧ s.peer n.id i = .placed t ∧ s.team? t.id = some t := by
  have h : ∃ n t, (accessing .store (.peer 0)).reqReady (accessOf .store (.peer 0)) = true ∧ (accessing .store (.peer 0)).node? 0 = some n ∧
      (∀ c ∈ (accessing .store (.peer 0)).cores, c.2.sidelog = []) ∧ (accessing .store (.peer 0)).peer n.id 0 = .placed t ∧
      (accessing .store (.peer 0)).team? t.id = some t := by
    obtain ⟨n, hn, h⟩ := of_any (by decide +kernel : ((accessing .store (.peer 0)).node? 0).any (fun n => decide (n.id = 0)) = true)
    obtain ⟨t, ht, h'⟩ := of_any (by decide +kernel : ((accessing .store (.peer 0)).team? 1).any (fun t =>
      decide ((accessing .store (.peer 0)).peer 0 0 = .placed t ∧ t.id = 1)) = true)
    obtain ⟨h1, h2⟩ := of_decide_eq_true h'
    refine ⟨n, t, by decide +kernel, hn, by decide +kernel, ?_, ?_⟩
    · rw [of_decide_eq_true h]; exact h1
    · rw [h2]; exact ht
  obtain ⟨n, t, h1, h2, h3, h4, h5⟩ := h
  exact ⟨_, 8, _, n, 0, t, ⟨rfl, h2, h1, h3⟩, rfl, h4, h5⟩

theorem wit_PeerAccess_gone : ∃ s req r n i, AtPlace s req r n ∧ r.place = .peer i ∧ s.peer n.id i = .gone := by
  obtain ⟨n, h⟩ := at_place (.load false) (.peer 1) (by decide +kernel)
  refine ⟨_, 8, _, n, 1, h, rfl, ?_⟩
  obtain ⟨n', hn, hp⟩ := of_any (by decide +kernel : ((accessing (.load false) (.peer 1)).node? 0).any (fun n =>
    decide ((accessing (.load false) (.peer 1)).peer n.id 1 = .gone)) = true)
  have := h.node
  rw [show (accessOf (.load false) (.peer 1)).node = 0 from rfl, hn] at this
  injection this with this
  exact this ▸ of_decide_eq_true hp

/-- A relay that goes on, and one to a peer that is pre-empted. -/
theorem wit_RelayCompletes : ∃ s req r n i, AtPlace s req r n ∧ r.place = .peer i ∧ s.peer n.id i ≠ .waits := by
  obtain ⟨s, q, r, n, i, h, h1, h2⟩ := wit_PeerAccess_gone
  exact ⟨s, q, r, n, i, h, h1, by rw [h2]; decide⟩
theorem wit_RelayCompletes_waits : ∃ s req r n i, AtPlace s req r n ∧ r.place = .peer i ∧ s.peer n.id i = .waits := by
  let s := (sole (accessOf .store (.peer 0))).modTeam 1 (fun t => { t with phase := .saved })
  obtain ⟨n, hn, h⟩ := of_any (by decide +kernel : (s.node? 0).any (fun n => decide (s.peer n.id 0 = .waits)) = true)
  exact ⟨s, 8, accessOf .store (.peer 0), n, 0, ⟨by decide +kernel, hn, by decide +kernel, by decide +kernel⟩, rfl, of_decide_eq_true h⟩

theorem wit_FillDelivers : ∃ s fill f gn gr, s.fills.find? (fun x => decide (x.id = fill)) = some f ∧ f.waiting = [] ∧ f.form = false ∧
    f.sends = [] ∧ (∀ v ∈ f.vals, v.2.2.1 < 32) ∧ groupAt s f.team gn = some gr ∧ f.regs ≠ [] := by
  obtain ⟨gr, h⟩ := Option.isSome_iff_exists.1 (by decide +kernel : (groupAt base 1 0).isSome = true)
  exact ⟨{ base with fills := [{ id := 7, team := 1, parcel := none, form := false, regs := [(0, 4)], vals := [(0, 4, 31, 9#32)], waiting := [], sends := [] }] },
    7, _, 0, gr, rfl, rfl, rfl, rfl, by decide, h, by decide⟩

/-- `fence` with both parts at .sys. -/
theorem wit_FenceOrders : ∃ c f s d x s1, (Instr.fence c f).wf = true ∧ Issues s c false d x s1 ∧ x.sideQuiet s1 = true ∧ (releases f.order = true → x.quiet s1 = true) ∧
    (acquires f.order = true → s1.readsOut x = false) ∧ acquires f.order = true ∧ scopeWide f.mscope = true := by
  obtain ⟨d, x, s1, h, h0, h1, h2⟩ := wit (c := silent .lane) (fuse := false) (s := base) (fun _ x s1 => x.sideQuiet s1 = true ∧ x.quiet s1 = true ∧ s1.readsOut x = false)
    (by decide +kernel)
  exact ⟨silent .lane, { plainM with mscope := .sys, order := .acqRel }, _, d, x, s1, by decide, h, h0, fun _ => h1, fun _ => h2, rfl, rfl⟩

/-- A release of scope .sys by a group of another core, in step 3. -/
def headOf : Head := { agent := { core := 5, node := 9, team := 9, group := 0, clu := none }, scope := .sys, step := 3 }

/-- Group 0 has read the value of that release, and it was an sc fence too. -/
def fencing : State := { base with fences := [headOf], reads := [(1, 0, headOf)] }

/-- A sequentially consistent `fence` at .sys that meets both. -/
theorem wit_FenceOrders_sc : ∃ c f s d x s1, (Instr.fence c f).wf = true ∧ Issues s c false d x s1 ∧ x.sideQuiet s1 = true ∧
    (releases f.order = true → x.quiet s1 = true) ∧ (acquires f.order = true → s1.readsOut x = false) ∧ acquires f.order = true ∧
    releases f.order = true ∧ f.sub.getLsbD 0 = true ∧ ∃ m ∈ x.members, x.members.filter (fun m => decide (m.act ≠ 0#32)) = [m] ∧
      (∃ h ∈ s1.readsOf x.team.id m.g, h.meets (x.team.agent m.g) f.mscope = true) ∧ ∃ h ∈ s1.fences, h.meets (x.team.agent m.g) f.mscope = true := by
  obtain ⟨d, x, s1, h, h0, h1, h2, h3⟩ := wit (c := silent .lane) (fuse := false) (s := fencing) (fun _ x s1 => x.sideQuiet s1 = true ∧ x.quiet s1 = true ∧
    s1.readsOut x = false ∧ ∃ m ∈ x.members, x.members.filter (fun m => decide (m.act ≠ 0#32)) = [m] ∧
      (∃ h ∈ s1.readsOf x.team.id m.g, h.meets (x.team.agent m.g) .sys = true) ∧ ∃ h ∈ s1.fences, h.meets (x.team.agent m.g) .sys = true)
    (by decide +kernel)
  exact ⟨silent .lane, { plainM with mscope := .sys, order := .acqRel, sub := 1 }, _, d, x, s1, by decide, h, h0, fun _ => h1, fun _ => h2, rfl, rfl, by decide, h3⟩

/-- At .team the fence meets none of them: the releases are another team's. -/
theorem wit_FenceOrders_alone : ∃ c f s d x s1, (Instr.fence c f).wf = true ∧ Issues s c false d x s1 ∧ x.sideQuiet s1 = true ∧
    (releases f.order = true → x.quiet s1 = true) ∧ (acquires f.order = true → s1.readsOut x = false) ∧
    ∃ m ∈ x.members, x.members.filter (fun m => decide (m.act ≠ 0#32)) = [m] ∧
      (∀ h ∈ s1.readsOf x.team.id m.g, h.meets (x.team.agent m.g) f.mscope = false) ∧ ∀ h ∈ s1.fences, h.meets (x.team.agent m.g) f.mscope = false := by
  obtain ⟨d, x, s1, h, h0, h1, h2, h3⟩ := wit (c := silent .lane) (fuse := false) (s := fencing) (fun _ x s1 => x.sideQuiet s1 = true ∧ x.quiet s1 = true ∧
    s1.readsOut x = false ∧ ∃ m ∈ x.members, x.members.filter (fun m => decide (m.act ≠ 0#32)) = [m] ∧
      (∀ h ∈ s1.readsOf x.team.id m.g, h.meets (x.team.agent m.g) .team = false) ∧ ∀ h ∈ s1.fences, h.meets (x.team.agent m.g) .team = false)
    (by decide +kernel)
  exact ⟨silent .lane, { plainM with mscope := .team, order := .acqRel, sub := 1 }, _, d, x, s1, by decide, h, h0, fun _ => h1, fun _ => h2, h3⟩

/-! ### Which stores a core sees -/

/-- A store of step 1 to unit 0xFFF8 that core 0 does not see, made now by its clock. -/
def unseen : Late := { unit := 0xFFF8, old := [], comp := 0, step := 1, cycs := [base.cyc 0], aware := [] }

/-- As many such stores as it takes for the free choice to name one of them. -/
theorem wit_OldValues : ∃ s, ∃ core comp u l, State.oldUnit s core comp u = some l := by
  let k := Config.lateRead base.fresh 0xFFF8 + 1
  let s : State := { base with late := List.replicate k unseen }
  have hy : s.young 0 unseen = true := by
    have : s.cyc 0 - unseen.cycs.getD 0 0 = 0 := by
      show base.cyc 0 - base.cyc 0 = 0
      simp
    unfold State.young
    rw [this]
    rfl
  have hs : s.sees 0 unseen = false := by
    have : (s.core 0).aware = 0 := by
      show (base.core 0).aware = 0
      decide +kernel
    simp [State.sees, this, unseen]
  have ho : s.older 0 0 0xFFF8 = List.replicate k unseen := by
    show ((List.replicate k unseen).filter _).takeWhile _ = _
    rw [List.filter_replicate_of_pos (by decide), List.takeWhile_replicate, hy, hs]
    rfl
  refine ⟨s, 0, 0, 0xFFF8, unseen, ?_⟩
  unfold State.oldUnit
  rw [ho]
  show (match List.replicate k unseen with | [] => none | ls => ls[Config.lateRead base.fresh 0xFFF8 % (ls.length + 1)]?) = _
  have : List.replicate k unseen = unseen :: List.replicate (k - 1) unseen := rfl
  rw [this]
  dsimp only
  rw [← this, List.length_replicate, Nat.mod_eq_of_lt (by omega)]
  simp [k]

/-- The load of a word at home, relaxed or an acquire at .sys or .team. -/
def loadAs (o : MOrder) (m : MScope) : Req := { accessOf (.load false) .home with order := o, mscope := m }

theorem wit_homeLoad (r : Req) (s : State) (hr : r.node = 0 ∧ r.place = .home ∧ r.shadow = false ∧ r.stable = false ∧ r.kind = .load false ∧ r.width = .b4 ∧ r.pa = 0xFFFC)
    (h : s.reqs.find? (fun q => decide (q.id = 8)) = some r ∧ (s.node? 0).isSome = true ∧ s.reqReady r = true ∧ (∀ c ∈ s.cores, c.2.sidelog = []) ∧
      served s r = false ∧ ((s.fetchLines r.comp r.pa r.bytes r.home).poisoned r.pa r.bytes) = false) : ∃ n, HomeLoad s 8 r n := by
  obtain ⟨h1, h2, h3, h4, h5, h6⟩ := h
  obtain ⟨r1, r2, r3, r4, r5, r6, r7⟩ := hr
  obtain ⟨n, hn⟩ := Option.isSome_iff_exists.1 h2
  refine ⟨n, ⟨h1, by rw [r1]; exact hn, h3, h4⟩, ⟨r2, r3, r4⟩, ⟨false, r5⟩, ?_, h5, h6⟩
  rw [r7]
  unfold Req.bytes
  rw [r6]
  decide

theorem wit_ReadsKeepOrder : ∃ s req r n, HomeLoad s req r n ∧ relaxedLoad r = true ∧ ∃ l ∈ s.late, l.unit ∈ unitsOf r.pa r.bytes := by
  let s : State := { sole (loadAs .relaxed .pkg) with late := [{ unseen with cycs := [] }] }
  obtain ⟨n, h⟩ := wit_homeLoad (loadAs .relaxed .pkg) s ⟨rfl, rfl, rfl, rfl, rfl, rfl, rfl⟩ (by decide +kernel)
  exact ⟨s, 8, _, n, h, by decide, _, List.mem_singleton.2 rfl, by decide⟩

/-- An acquire of the bytes of that release: at .sys it meets it, and at .team not. -/
theorem wit_AcquiresMeet (m : MScope) (hm : m = .sys ∨ m = .team) : ∃ s req r n, HomeLoad s req r n ∧ acquires r.order = true ∧
    ∃ h ∈ s.headsAt r.pa r.bytes, (s.agentOf r).inScope h.agent h.scope = true ∧ (m = .sys → h.agent.inScope (s.agentOf r) r.mscope = true) ∧
      (m = .team → ∀ h ∈ s.headsAt r.pa r.bytes, h.agent.inScope (s.agentOf r) r.mscope = false) := by
  let s : State := { sole (loadAs .acquire m) with heads := [(0xFFFD, [headOf])] }
  obtain ⟨n, h⟩ := wit_homeLoad (loadAs .acquire m) s ⟨rfl, rfl, rfl, rfl, rfl, rfl, rfl⟩ (by rcases hm with rfl | rfl <;> decide +kernel)
  refine ⟨s, 8, _, n, h, rfl, headOf, ?_, rfl, ?_, ?_⟩
  · rcases hm with rfl | rfl <;> decide +kernel
  · rintro rfl; rfl
  · rintro rfl; decide +kernel

theorem wit_ReleasesMark : ∃ s req r n, AtPlace s req r n ∧ r.place = .home ∧ r.shadow = false ∧ (r.home = 0#2 ∨ r.home = 2#2) ∧
    r.kind = .store ∧ releases r.order = true ∧ (∀ l ∈ s.late, l.step ≤ s.fresh) ∧
    (s.readMem r.comp (r.pa / 8 * 8) (8 * (unitsOf r.pa r.bytes).length) r.home).2.1 = false := by
  obtain ⟨n, h⟩ := at_sole (r := { accessOf .store .home with order := .release }) ⟨rfl, rfl⟩ (by decide +kernel)
  exact ⟨_, 8, _, n, h, rfl, rfl, .inl rfl, rfl, rfl, by decide +kernel, by decide +kernel⟩

end Sys2Proof.Tests
end

