-- ==== Sys2Proof/Tests/WitnessForm.lean ====
section
/-! SUPPORT. Witnesses: for each statement about control, predicates and loads in form and about instructions without an active lane, a
state and operands that meet its hypotheses together. -/

set_option Elab.async false

namespace Sys2Proof.Tests

open Sys2Proof Sys2Proof.Machine Sys2Proof.Claims

/-! ### Parcels -/

/-- Parcel 0 of node 0 is `p`, and its turn is next; both lines at 0x10000 and 0x10040 are in the cache of its lead core. -/
def formAt (s : State) (p : Parcel) : State := { (opened s).modNode 0 (fun n => { n with parcels := [p] }) with cur := .parcel 0 0 }

theorem wit_form {c : Common} {s : State} (P : Node → Parcel → Prop) [∀ n p, Decidable (P n p)] (hc : s.cur = .parcel 0 0)
    (hs : ∀ k, c.scope ≠ .set k) (h : (s.node? 0).any (fun n => (n.parcel? 0).any (fun p => decide (s.halted = false ∧ n.id = 0 ∧ p.id = 0 ∧
      n.ending = none ∧ n.consumed = none ∧ p.guard n c = some true) && decide (P n p))) = true) :
    ∃ n p, FormIssues s c n p true ∧ P n p := by
  obtain ⟨n, hn, h⟩ := of_any h
  obtain ⟨p, hp, h⟩ := of_any h
  simp only [Bool.and_eq_true, decide_eq_true_eq] at h
  obtain ⟨⟨h1, h2, h3, h4, h5, h6⟩, h7⟩ := h
  exact ⟨n, p, ⟨h1, by rw [h2, h3]; exact hc, by rw [h2]; exact hn, by rw [h3]; exact hp, ⟨h4, h5⟩, fun k hk => absurd hk (hs k), h6⟩, h7⟩

/-- f0 is uniform 7 and f1 the item's x; k1 is true from x = 200 on, k2 everywhere; the parcel has three teams in x. -/
def threeTeams : Parcel := { bootParcel with
  hi := (3, 1, 1), form := [(0, .uni 7#32), (1, .aff 0 1 0 0)], preds := [(1, .range .x 200 true), (2, .uni true), (3, .range .x 128 true)] }
def tract3 : State := formAt base threeTeams

/-- `kset.ge.i32 k1, f1, f0` (a range predicate), `kset.ge.i32 k1, f0, 3` (uniform) and `kset.eq.i32 k1, f1, f0` (not representable). -/
def ksetF (cond : BitVec 5) (a b : BitVec 11) : FmtV := { plainV with dst := 1, a := a, b := b, sub := cond }

def ksetO (f : FmtV) : VOp :=
  vop (Machine.Common.noW (writes .lane)) f 1 [srcA f (tyWords f.ty) f.ty, srcB f (tyWords f.ty) f.ty] .none (compared f.ty f.sub.toNat)

theorem wit_kset (f : FmtV) (ks : List Kind) (hw : (Instr.kset (writes .lane) f).wf = true) (hk : f.dst = 1)
    (h : (tract3.node? 0).any (fun n => (n.parcel? 0).any (fun p => decide (tract3.halted = false ∧ n.id = 0 ∧ p.id = 0 ∧
      n.ending = none ∧ n.consumed = none ∧ p.guard n (writes .lane) = some true) && decide ((ksetO f).static n = none ∧
      kindsOf (ksetO f).srcs p.form (p.uniPred n) n (tract3.cyc n.leadCore) = some ks ∧ p.bounds n .x = (0, 384) ∧
      p.bounds n .y = (0, 1) ∧ p.bounds n .z = (0, 1)))) = true) :
    ∃ c o k s n p, predOp (.kset c f) = some (o, k) ∧ (Instr.kset c f).wf = true ∧ k ≤ 6 ∧ FormIssues s c n p true ∧ o.static n = none ∧
      kindsOf o.srcs p.form (p.uniPred n) n (s.cyc n.leadCore) = some ks ∧ p.bounds n .x = (0, 384) ∧ p.bounds n .y = (0, 1) ∧ p.bounds n .z = (0, 1) := by
  obtain ⟨n, p, hf, h1, h2, h3, h4, h5⟩ := wit_form (c := writes .lane) (s := tract3) (fun n p => (ksetO f).static n = none ∧
      kindsOf (ksetO f).srcs p.form (p.uniPred n) n (tract3.cyc n.leadCore) = some ks ∧ p.bounds n .x = (0, 384) ∧
      p.bounds n .y = (0, 1) ∧ p.bounds n .z = (0, 1)) rfl (fun k h => by cases h) h
  exact ⟨writes .lane, ksetO f, f.dst.toNat, tract3, n, p, rfl, hw, by rw [hk]; decide, hf, h1, h2, h3, h4, h5⟩

theorem wit_KsetInForm_uniform : ∃ c f o k s n p ks, predOp (.kset c f) = some (o, k) ∧ (Instr.kset c f).wf = true ∧ k ≤ 6 ∧ FormIssues s c n p true ∧
    o.static n = none ∧ kindsOf o.srcs p.form (p.uniPred n) n (s.cyc n.leadCore) = some ks ∧ ∀ y ∈ ks, y.isUni = true := by
  obtain ⟨c, o, k, s, n, p, h1, h2, h3, h4, h5, h6, -⟩ := wit_kset (ksetF 5 1600 1539) [.uni 7, .uni 3] (by decide) rfl (by decide +kernel)
  exact ⟨c, _, o, k, s, n, p, _, h1, h2, h3, h4, h5, h6, by decide⟩

theorem wit_KsetInForm_range : ∃ c f o k s n p ks, predOp (.kset c f) = some (o, k) ∧ (Instr.kset c f).wf = true ∧ k ≤ 6 ∧ FormIssues s c n p true ∧
    o.static n = none ∧ kindsOf o.srcs p.form (p.uniPred n) n (s.cyc n.leadCore) = some ks ∧ Representable f.ty f.sub.toNat n p ks ∧
    (∀ y ∈ ks, ∀ u, y = Kind.uni u → u < 2 ^ 32) ∧ ∀ d, (p.bounds n d).1 < (p.bounds n d).2 := by
  obtain ⟨c, o, k, s, n, p, h1, h2, h3, h4, h5, h6, hx, hy, hz⟩ := wit_kset (ksetF 5 1601 1600) [.aff 0 1 0 0, .uni 7] (by decide) rfl
    (by decide +kernel)
  refine ⟨c, _, o, k, s, n, p, _, h1, h2, h3, h4, h5, h6, ⟨0, 1, 0, 0, 7, .x, .inl rfl, .inl rfl, by decide, by decide, by decide, ?_, ?_⟩, ?_, ?_⟩
  · intro e he; cases e <;> simp_all [coefOf]
  · intro i hi
    rw [hx] at hi
    rcases hi with rfl | hi
    · decide
    · obtain rfl : i = 383 := by simpa using hi
      decide
  · intro y hy u hu
    simp only [List.mem_cons, List.not_mem_nil, or_false] at hy
    rcases hy with rfl | rfl
    · cases hu
    · injection hu with hu; omega
  · intro d; cases d <;> simp [hx, hy, hz]

theorem wit_KsetInForm_cut : ∃ c f o k s n p ks, predOp (.kset c f) = some (o, k) ∧ (Instr.kset c f).wf = true ∧ k ≤ 6 ∧ FormIssues s c n p true ∧
    o.static n = none ∧ kindsOf o.srcs p.form (p.uniPred n) n (s.cyc n.leadCore) = some ks ∧ (∃ y ∈ ks, y.isUni = false) ∧
    ¬ Representable f.ty f.sub.toNat n p ks := by
  obtain ⟨c, o, k, s, n, p, h1, h2, h3, h4, h5, h6, -⟩ := wit_kset (ksetF 0 1601 1600) [.aff 0 1 0 0, .uni 7] (by decide) rfl (by decide +kernel)
  refine ⟨c, _, o, k, s, n, p, _, h1, h2, h3, h4, h5, h6, by decide, ?_⟩
  rintro ⟨b, cx, cy, cz, u, d, -, -, h, -⟩
  exact absurd h (by decide)

/-- `br` to slot 4 of the line. -/
theorem wit_BranchInForm : ∃ c f s n p, (Instr.br c f).wf = true ∧ FormIssues s c n p true ∧ AtHand s n n.leadCore (fmtTarget f p.pc) := by
  obtain ⟨n, p, hf, h⟩ := wit_form (c := silent .lane) (s := tract3)
    (fun n p => atHand tract3 n n.leadCore (fmtTarget { plainC with tslot := 4 } p.pc) = true) rfl (fun k h => by cases h) (by decide +kernel)
  exact ⟨silent .lane, _, tract3, n, p, by decide, hf, atHand_iff h⟩

/-- `call` with the link pair f2:f3. -/
theorem wit_CallInForm : ∃ c f s n p r, (Instr.call c f).wf = true ∧ FormIssues s c n p true ∧ opndOf f.srca = .form r ∧ pairOk f n = true ∧
    AtHand s n n.leadCore (nextAddr p.pc) ∧ AtHand s n n.leadCore (fmtTarget f p.pc) := by
  obtain ⟨n, p, hf, h1, h2, h3⟩ := wit_form (c := silent .lane) (s := tract3) (fun n p => pairOk { plainC with srca := 1602, tdisp := 1 } n = true ∧
    atHand tract3 n n.leadCore (nextAddr p.pc) = true ∧ atHand tract3 n n.leadCore (fmtTarget { plainC with srca := 1602, tdisp := 1 } p.pc) = true)
    rfl (fun k h => by cases h) (by decide +kernel)
  exact ⟨silent .lane, _, tract3, n, p, 2, by decide, hf, by decide, h1, atHand_iff h2, atHand_iff h3⟩

/-- `brc.div` on k2, which is uniform true, and on its complement; the target is slot 4, the join slot 3. -/
def brcF (srca : BitVec 11) : FmtC := { plainC with srca := srca, tslot := 4, sub := 1, jslot := 3 }

theorem wit_ConditionalInForm (f : FmtC) (hf : f = brcF 2 ∨ f = brcF 10) : ∃ c s n p b, (Instr.brc c f).wf = true ∧ FormIssues s c n p true ∧
    f.srca.toNat < 16 ∧ p.uniPred n (f.srca.toNat % 8) = some b ∧ (f.sub.getLsbD 0 = true → AtHand s n n.leadCore (fmtJoin f p.pc)) ∧
    AtHand s n n.leadCore (fmtTarget f p.pc) ∧ (f = brcF 2 → b ≠ f.srca.getLsbD 3) ∧ (f = brcF 10 → b = f.srca.getLsbD 3) := by
  obtain ⟨n, p, hi, h1, h2, h3⟩ := wit_form (c := silent .lane) (s := tract3) (fun n p => p.uniPred n 2 = some true ∧
    atHand tract3 n n.leadCore (fmtJoin (brcF 2) p.pc) = true ∧ atHand tract3 n n.leadCore (fmtTarget (brcF 2) p.pc) = true)
    rfl (fun k h => by cases h) (by decide +kernel)
  rcases hf with rfl | rfl
  · exact ⟨silent .lane, tract3, n, p, true, by decide, hi, by decide, h1, fun _ => atHand_iff h2, atHand_iff h3, fun _ => by decide, fun h => by cases h⟩
  · exact ⟨silent .lane, tract3, n, p, true, by decide, hi, by decide, h1, fun _ => atHand_iff h2, atHand_iff h3, (fun h => by cases h), fun _ => by decide⟩

/-- The threshold 200 cuts the second team; 128 falls on a team boundary. -/
theorem wit_BranchCuts (f : FmtC) (hf : f = brcF 1 ∨ f = brcF 3) : ∃ c s n p d t ge, (Instr.brc c f).wf = true ∧ FormIssues s c n p true ∧
    f.srca.toNat < 16 ∧ p.uniPred n (f.srca.toNat % 8) = none ∧ predGet p.preds (f.srca.toNat % 8) = .range d t ge ∧
    AtHand s n n.leadCore (fmtTarget f p.pc) ∧ (f.sub.getLsbD 0 = true → AtHand s n n.leadCore (fmtJoin f p.pc)) ∧
    (f = brcF 1 → t / teamExtent n d ≠ (t + teamExtent n d - 1) / teamExtent n d) ∧
    (f = brcF 3 → t / teamExtent n d = (t + teamExtent n d - 1) / teamExtent n d) := by
  obtain ⟨n, p, hi, h1, h2, h3, h4, h5, h6, h7⟩ := wit_form (c := silent .lane) (s := tract3) (fun n p => p.uniPred n 1 = none ∧ p.uniPred n 3 = none ∧
    predGet p.preds 1 = .range .x 200 true ∧ predGet p.preds 3 = .range .x 128 true ∧ teamExtent n .x = 128 ∧
    atHand tract3 n n.leadCore (fmtJoin (brcF 2) p.pc) = true ∧ atHand tract3 n n.leadCore (fmtTarget (brcF 2) p.pc) = true)
    rfl (fun k h => by cases h) (by decide +kernel)
  rcases hf with rfl | rfl
  · refine ⟨silent .lane, tract3, n, p, .x, 200, true, by decide, hi, by decide, h1, h3, atHand_iff h7, fun _ => atHand_iff h6, fun _ => ?_, fun h => by cases h⟩
    rw [h5]; decide
  · refine ⟨silent .lane, tract3, n, p, .x, 128, true, by decide, hi, by decide, h2, h4, atHand_iff h7, fun _ => atHand_iff h6, (fun h => by cases h), fun _ => ?_⟩
    rw [h5]

def loopF (srca : BitVec 11) : FmtC := { plainC with srca := srca, tdisp := 1, sub := 1 }

/-- `loop` with a count of 3, and of 0; and in a parcel whose counter is taken. -/
theorem wit_LoopInForm (f : FmtC) (hf : f = loopF 1539 ∨ f = loopF 1536) :
    ∃ c s n p v, (Instr.loop c f).wf = true ∧ FormIssues s c n p true ∧ FormLoop s n p f v ∧ (∀ u, opndOf f.srca ≠ .spec u) ∧
    loopOverflow p.loops (f.sub.toNat % 4) (nextAddr p.pc) (fmtTarget f p.pc) = false ∧ nextAddr p.pc ≠ fmtTarget f p.pc ∧
    (f.srca = 1539 → v % 2 ^ 32 ≠ 0) ∧ (f.srca = 1536 → v % 2 ^ 32 = 0) := by
  obtain ⟨n, p, hi, h⟩ := wit_form (c := silent .lane) (s := tract3) (fun n p => ∀ e ∈ ([(1539, 3), (1536, 0)] : List (BitVec 11 × Nat)),
      wordOk (loopF e.1) n = true ∧ p.pc.toNat < (fmtTarget (loopF e.1) p.pc).toNat ∧ (countSrc (loopF e.1)).kind p.form (p.uniPred n) n (tract3.cyc n.leadCore) = some (.uni e.2) ∧
      atHand tract3 n n.leadCore (fmtTarget (loopF e.1) p.pc) = true ∧
      loopOverflow p.loops ((loopF e.1).sub.toNat % 4) (nextAddr p.pc) (fmtTarget (loopF e.1) p.pc) = false ∧ nextAddr p.pc ≠ fmtTarget (loopF e.1) p.pc)
    rfl (fun k h => by cases h) (by decide +kernel)
  rcases hf with rfl | rfl
  · obtain ⟨h1, h2, h3, h4, h5, h6⟩ := h _ (List.mem_cons_self ..)
    exact ⟨silent .lane, tract3, n, p, 3, by decide, hi, ⟨h1, h2, h3, atHand_iff h4⟩, (fun u h => by cases h), h5, h6, fun _ => by decide, fun h => by cases h⟩
  · obtain ⟨h1, h2, h3, h4, h5, h6⟩ := h _ (List.mem_cons_of_mem _ (List.mem_cons_self ..))
    exact ⟨silent .lane, tract3, n, p, 0, by decide, hi, ⟨h1, h2, h3, atHand_iff h4⟩, (fun u h => by cases h), h5, h6, (fun h => by cases h), fun _ => by decide⟩

def looped : State := formAt base { threeTeams with
  loops := [{ n := 1, count := 2, top := 0x10000, fin := 0x10080, depth := 0, waiting := 0 }] }

theorem wit_LoopInForm_over : ∃ c f s n p v, (Instr.loop c f).wf = true ∧ FormIssues s c n p true ∧ FormLoop s n p f v ∧ (∀ u, opndOf f.srca ≠ .spec u) ∧
    loopOverflow p.loops (f.sub.toNat % 4) (nextAddr p.pc) (fmtTarget f p.pc) = true := by
  let f : FmtC := { plainC with srca := 1539, tdisp := 1, sub := 1 }
  obtain ⟨n, p, hi, h1, h2, h3, h4, h5⟩ := wit_form (c := silent .lane) (s := looped) (fun n p => 
      wordOk f n = true ∧ p.pc.toNat < (fmtTarget f p.pc).toNat ∧ (countSrc f).kind p.form (p.uniPred n) n (looped.cyc n.leadCore) = some (.uni 3) ∧
      atHand looped n n.leadCore (fmtTarget f p.pc) = true ∧ loopOverflow p.loops (f.sub.toNat % 4) (nextAddr p.pc) (fmtTarget f p.pc) = true)
    rfl (fun k h => by cases h) (by decide +kernel)
  exact ⟨silent .lane, f, looped, n, p, 3, by decide, hi, ⟨h1, h2, h3, atHand_iff h4⟩, (fun u h => by cases h), h5⟩

/-! ### Loads in form -/

/-- The load of the word at f5 = 0x1000 into f4, or into v12. -/
def formLd (data : BitVec 11) : FmtM := { plainM with data := data, addr := 1605, width := .b4 }
def formLdOp (data : BitVec 11) : MOp :=
  { c := writes .lane, f := formLd data, kind := .load ((formLd data).sub.getLsbD 0), acc := .read, ret := true,
    reads := false, cas := false, a64 := (formLd data).sub.getLsbD 5, loc := false, logs := false, commit := false }
def loading : State := formAt (mapped 0) { bootParcel with form := [(5, .uni 0x1000#32)] }

theorem wit_LoadInForm_goes : ∃ c f s n p o r a w, globalOp (.ld c f) = some o ∧ (Instr.ld c f).wf = true ∧ FormIssues s c n p true ∧
    o.static n = none ∧ o.regs.formDst = some r ∧ o.addrSrc.kind p.form (p.uniPred n) n (s.cyc n.leadCore) = some (.uni a) ∧ o.words ≤ 2 ∧
    s.parcelFill n.id p.id = none ∧ formVa o n a % o.bytes = 0 ∧ formVa o n a < 2 ^ 57 ∧
    s.resolve n n.leadCore (.parcel n.id p.id) .read (formVa o n a) o.bytes = .ok w ∧ s.step4 n o.bytes w = none := by
  obtain ⟨n, p, hi, h1, h2, h3, h4, h5, h6, h7⟩ := wit_form (c := writes .lane) (s := loading) (fun n p => (formLdOp 1604).static n = none ∧
      (formLdOp 1604).addrSrc.kind p.form (p.uniPred n) n (loading.cyc n.leadCore) = some (.uni 0x1000) ∧ loading.parcelFill n.id p.id = none ∧
      formVa (formLdOp 1604) n 0x1000 % (formLdOp 1604).bytes = 0 ∧ formVa (formLdOp 1604) n 0x1000 < 2 ^ 57 ∧
      loading.resolve n n.leadCore (.parcel n.id p.id) .read (formVa (formLdOp 1604) n 0x1000) (formLdOp 1604).bytes = .ok foundAt ∧
      loading.step4 n (formLdOp 1604).bytes foundAt = none) rfl (fun k h => by cases h) (by decide +kernel)
  exact ⟨writes .lane, formLd 1604, loading, n, p, formLdOp 1604, 4, 0x1000, foundAt, rfl, by decide, hi, h1, by decide, h2, by decide, h3, h4, h5, h6, h7⟩

def landed : State := { loading with
  fills := [{ id := 7, team := 0, parcel := some (0, 0), form := true, regs := [], vals := [(0, 0, 0, 0x55#32)], waiting := [], sends := [] }] }

theorem wit_LoadInForm_lands : ∃ c f s n p o r a fl, globalOp (.ld c f) = some o ∧ (Instr.ld c f).wf = true ∧ FormIssues s c n p true ∧
    o.static n = none ∧ o.regs.formDst = some r ∧ o.addrSrc.kind p.form (p.uniPred n) n (s.cyc n.leadCore) = some (.uni a) ∧ o.words ≤ 2 ∧
    s.parcelFill n.id p.id = some fl ∧ fl.waiting = [] := by
  obtain ⟨n, p, hi, h1, h2, fl, h3, h4⟩ := wit_form (c := writes .lane) (s := landed) (fun n p => (formLdOp 1604).static n = none ∧
      (formLdOp 1604).addrSrc.kind p.form (p.uniPred n) n (landed.cyc n.leadCore) = some (.uni 0x1000) ∧
      ∃ fl ∈ landed.parcelFill n.id p.id, fl.waiting = []) rfl (fun k h => by cases h) (by decide +kernel)
  exact ⟨writes .lane, formLd 1604, landed, n, p, formLdOp 1604, 4, 0x1000, fl, rfl, by decide, hi, h1, by decide, h2, by decide, h3, h4⟩

theorem wit_LoadInForm_cut : ∃ c f s n p o, globalOp (.ld c f) = some o ∧ (Instr.ld c f).wf = true ∧ FormIssues s c n p true ∧
    o.static n = none ∧ o.regs.formDst = none := by
  obtain ⟨n, p, hi, h1⟩ := wit_form (c := writes .lane) (s := loading) (fun n _ => (formLdOp 12).static n = none) rfl (fun k h => by cases h)
    (by decide +kernel)
  exact ⟨writes .lane, formLd 12, loading, n, p, formLdOp 12, rfl, by decide, hi, h1, by decide⟩

theorem wit_FanOutTeams : ∃ s, ∃ (n : Node) (p : Parcel) (n' : Node), State.node? s n.id = some n' ∧ inBox p.lo p.hi (0, 0, 0) := by
  obtain ⟨n, hn, h⟩ := of_any (by decide +kernel : (tract3.node? 0).any (fun n => decide (n.id = 0)) = true)
  exact ⟨tract3, n, threeTeams, n, by rw [of_decide_eq_true h]; exact hn, by unfold inBox threeTeams; decide⟩

theorem wit_PartsKeep : threeTeams.loops = [] ∧ threeTeams.pc.toNat % 64 < 5 := by decide

/-! ### No active lane -/

/-- The common fields with the guard `!k7`, which is false in every lane. -/
def never (c : Common) : Common := { c with pneg := true }

def foundIdle (c : Common) (s : State) : Option (Stand × Ctx × State) :=
  match s.cur with
  | .strand t g k =>
    match s.stand c t g k with
    | some d =>
      if s.halted || badScope d.node d.team d.gr c.scope g || d.gr.guardUndef c d.at_ then none
      else match (if c.scope = .lane then (some (d.own c g), s) else s.meet c t g k d) with
        | (some x, s1) => if x.members.all (fun m => decide (m.act = 0#32)) then some (d, x, s1) else none
        | (none, _) => none
    | none => none
  | _ => none

theorem idles_of {c : Common} {s : State} (P : Stand → Prop) [∀ d, Decidable (P d)]
    (h : (foundIdle c s).any (fun p => decide (P p.1)) = true) : ∃ d x s1, Idles s c d x s1 ∧ P d := by
  obtain ⟨⟨d, x, s1⟩, h, hp⟩ := of_any h
  refine ⟨d, x, s1, ?_, of_decide_eq_true hp⟩
  unfold foundIdle at h
  split at h
  · rename_i t g k hc
    split at h
    · rename_i d' hd
      split at h
      · cases h
      · rename_i hb
        simp only [Bool.or_eq_true, not_or, Bool.not_eq_true] at hb
        split at h
        · rename_i x' s' hm
          split at h
          · rename_i ha
            injection h with h
            injection h with h1 h2
            injection h2 with h2 h3
            subst h1 h2 h3
            refine ⟨hb.1.1, ⟨t, g, k, hc, hd, hb.1.2, hb.2, ?_⟩, fun m hm => of_decide_eq_true (List.all_eq_true.1 ha m hm)⟩
            split at hm
            · rename_i hf
              rw [if_pos hf]
              injection hm with h1 h2
              injection h1 with h1
              exact ⟨h1.symm, h2.symm⟩
            · rename_i hf
              rw [if_neg hf]
              exact hm
          · cases h
        · cases h
    · cases h
  · cases h

/-- `IdlePasses` has a state for `i`. -/
def IdleInstr (i : Instr) : Prop := ∃ c s d x s1, i.wf = true ∧ Idles s c d x s1 ∧ Idle i c d

theorem wit_IdlePasses_vector : IdleInstr (.add (never (writes .lane)) { plainV with dst := 4, a := 2, b := 3 }) := by
  obtain ⟨d, x, s1, h, hp⟩ := idles_of (c := never (writes .lane)) (s := base)
    (fun d => (useAB (never (writes .lane)) { plainV with dst := 4, a := 2, b := 3 } .add (ints2 .i32 false (fun a b => a + b))).static d.node = none ∧
      (useAB (never (writes .lane)) { plainV with dst := 4, a := 2, b := 3 } .add (ints2 .i32 false (fun a b => a + b))).undef d.team d.gr d.act = false)
    (by decide +kernel)
  exact ⟨_, base, d, x, s1, by decide, h, .inl ⟨_, rfl, rfl, hp⟩⟩

theorem wit_IdlePasses_predicate : IdleInstr (.kset (never (writes .lane)) { plainV with dst := 1, a := 2, b := 3 }) := by
  let o := vop (Machine.Common.noW (never (writes .lane))) { plainV with dst := 1, a := 2, b := 3 } 1
    [srcA { plainV with dst := 1, a := 2, b := 3 } 1 .i32, srcB { plainV with dst := 1, a := 2, b := 3 } 1 .i32] .none (compared .i32 0)
  obtain ⟨d, x, s1, h, hp⟩ := idles_of (c := never (writes .lane)) (s := base)
    (fun d => o.static d.node = none ∧ o.undef d.team d.gr d.act = false) (by decide +kernel)
  refine ⟨_, base, d, x, s1, by decide, h, .inr (.inl ⟨o, 1, rfl, rfl, by decide, ?_, hp⟩)⟩
  intro y hy k hk
  simp only [o, vop, List.mem_cons, List.not_mem_nil, or_false] at hy
  rcases hy with rfl | rfl <;> cases hk

theorem wit_IdlePasses_index : IdleInstr (.xset (never (silent .group)) { plainV with a := 2, b := 3, c := 4 }) := by
  obtain ⟨d, x, s1, h, hp⟩ := idles_of (c := never (silent .group)) (s := base) (fun d =>
    (xsetOp (never (silent .group)) { plainV with a := 2, b := 3, c := 4 }).static d.node = none ∧
      (xsetOp (never (silent .group)) { plainV with a := 2, b := 3, c := 4 }).undef d.team d.gr d.act = false) (by decide +kernel)
  exact ⟨_, base, d, x, s1, by decide, h, .inr (.inr (.inl ⟨_, rfl, hp⟩))⟩

/-- A store at team scope, which every group has reached. -/
theorem wit_IdlePasses_memory : IdleInstr (.st (never (silent .team)) { plainM with data := 4, addr := 8, width := .b4 }) := by
  let f : FmtM := { plainM with data := 4, addr := 8, width := .b4 }
  let o : MOp :=
    { c := never (silent .team), f := f, kind := .store, acc := .write, ret := false,
      reads := true, cas := false, a64 := f.sub.getLsbD 5, loc := false, logs := !releases f.order, commit := releases f.order }
  obtain ⟨d, x, s1, h, hp⟩ := idles_of (c := never (silent .team)) (s := base)
    (fun d => o.static d.node = none ∧ o.regs.undef d.team d.gr d.act = false) (by decide +kernel)
  exact ⟨_, base, d, x, s1, by decide, h, .inr (.inr (.inr (.inl ⟨o, rfl, rfl, hp⟩)))⟩

/-- `bar.arrive` at team scope. -/
theorem wit_IdlePasses_engine : IdleInstr (.barArrive (never (silent .team)) plainE) := by
  obtain ⟨d, x, s1, h, hp⟩ := idles_of (c := never (silent .team)) (s := base) (fun d =>
    (engRegs (never (silent .team)) plainE []).static d.node = none ∧ (engRegs (never (silent .team)) plainE []).undef d.team d.gr d.act = false)
    (by decide +kernel)
  exact ⟨_, base, d, x, s1, by decide, h, .inr (.inr (.inr (.inr (.inl ⟨_, .inl rfl, rfl, (by decide : objectOk plainE = true), hp⟩))))⟩

theorem wit_IdlePasses_exit : IdleInstr (.exit (never (silent .lane)) plainC) := by
  obtain ⟨d, x, s1, h, -⟩ := idles_of (c := never (silent .lane)) (s := base) (fun _ => True) (by decide +kernel)
  exact ⟨_, base, d, x, s1, by decide, h, .inr (.inr (.inr (.inr (.inr ⟨plainC, .inr (.inr (.inl rfl))⟩))))⟩

end Sys2Proof.Tests
end

