-- ==== Sys2Proof/Tests/WitnessHost.lean ====
section
/-! SUPPORT. Witnesses: for each statement about resets, links, SPDM, host registers and the security engine, a state and operands that
meet its hypotheses together. -/

set_option Elab.async false

namespace Sys2Proof.Tests

open Sys2Proof Sys2Proof.Machine Sys2Proof.Claims

/-! ### Resets, power and the port -/

theorem wit_ResetRuns : ∃ s : State, s.pstate ≠ .off := ⟨base, by decide +kernel⟩

/-- The reset has come as far as its step `k`. -/
def resetting (k : Nat) : State := { base with rstage := BitVec.ofNat 4 k }

/-- Every step of the sequence, and the states in which none is due: standby, a halted package and step 7. -/
theorem wit_ResetSteps : (∀ k < 7, (resetting k).pstate = .run ∧ (resetting k).halted = false ∧ (resetting k).rstage = BitVec.ofNat 4 k) ∧
    (∃ s : State, s.pstate ≠ .run) ∧ (∃ s : State, s.halted = true) ∧ ∃ s : State, 7 ≤ s.rstage.toNat :=
  ⟨by decide +kernel, ⟨{ base with pstate := .s1 }, by decide +kernel⟩, ⟨{ base with halted := true }, rfl⟩,
    resetting 7, by decide +kernel⟩

/-- Step 3 with a good and with a bad firmware signature: which it is, is a free value. -/
theorem wit_ResetSteps_firmware (b : Bool) (h : Config.firmwareGood (resetting 2).fresh = b) : ∃ s : State, s.pstate = .run ∧ s.halted = false ∧
    s.rstage = 2#4 ∧ Config.firmwareGood s.fresh = b :=
  ⟨resetting 2, by decide +kernel, by decide +kernel, rfl, h⟩

/-- Each turn that a statement is about comes when the schedule has it first. -/
theorem turn_comes (s : State) (turn : Turn) (h : (s.tick.settled.nextTurn).1 = some turn) :
    s.tick.settled.nextTurn = (some turn, (s.tick.settled.nextTurn).2) := by
  rw [← h]

theorem wit_TurnLeads (turn : Turn) (ht : turn ∈ [Turn.resetStep, .outsideWrite none 0 [1], .outsideWrite (some 5) 0 [1], .outsideRead none 0 1,
    .hostStore 0 [1], .basder (.worldHalt 0), .basder (.worldResume 0), .basder .warmReset, .basder (.installGate ⟨[], [], []⟩)]) :
    ∃ s t : State, s.tick.settled.nextTurn = (some turn, t) := by
  have h : ∀ turn ∈ [Turn.resetStep, .outsideWrite none 0 [1], .outsideWrite (some 5) 0 [1], .outsideRead none 0 1, .hostStore 0 [1],
      .basder (.worldHalt 0), .basder (.worldResume 0), .basder .warmReset, .basder (.installGate ⟨[], [], []⟩)],
      (({ base with schedule := [turn] } : State).tick.settled.nextTurn).1 = some turn := by
    simp only [List.forall_mem_cons]
    exact ⟨by decide +kernel, by decide +kernel, by decide +kernel, by decide +kernel, by decide +kernel, by decide +kernel, by decide +kernel,
      by decide +kernel, by decide +kernel, by simp⟩
  exact ⟨_, _, turn_comes _ turn (h turn ht)⟩

/-- A strand about to issue `nop` at a line at hand, as `StepRunsDecoded` assumes. -/
theorem wit_StepRunsDecoded : ∃ (s s1 : State) (who : Issuer) (n : Node) (core : Nat) (rq : Requester) (a : Addr) (l : ILine) (i : Instr),
    s.tick.settled.nextTurn = (some (.issue who), s1) ∧ s1.gate who = .go n core rq a ∧ slotOf a < 5 ∧
    Tbl.find? (s1.core core).icache (lineKey n a) = some l ∧ l.bad = false ∧ lineReservedOk l.line = true ∧
    (s1.atEntry who a = true → lineTarget l.line (slotOf a) = true) ∧ decode (lineSlot l.line (slotOf a)) = .ok i := by
  let s : State := State.reset.boot 0#96
  have h : (match (s.tick.settled.nextTurn).2.gate (.strand 1 0 0) with
      | .go n core _ a => decide (slotOf a < 5) && (Tbl.find? ((s.tick.settled.nextTurn).2.core core).icache (lineKey n a)).any (fun l =>
          !l.bad && (lineReservedOk l.line && (lineTarget l.line (slotOf a) && (decode (lineSlot l.line (slotOf a))).toOption.isSome)))
      | _ => false) = true := by decide +kernel
  split at h
  · rename_i n core rq a hg
    simp only [Bool.and_eq_true, decide_eq_true_eq] at h
    obtain ⟨l, hl, h'⟩ := of_any h.2
    simp only [Bool.and_eq_true, Bool.not_eq_true'] at h'
    obtain ⟨h1, h2, h3, h4⟩ := h'
    match hd : decode (lineSlot l.line (slotOf a)), h4 with
    | .ok i, _ => exact ⟨s, _, _, n, core, rq, a, l, i, turn_comes s _ (by decide +kernel), hg, h.1, hl, h1, h2, fun _ => h3, hd⟩
  · cases h

/-- Events that the package takes, in the run and in a reset, and one that it does not take in a reset. -/
theorem wit_StepRunsDecoded_event (b : Bool) : ∃ (s s1 : State) (i : Instr), s.tick.settled.nextTurn = (some (.event i), s1) ∧ i.scopeOf = none ∧
    s1.takes i = b := by
  cases b
  · exact ⟨{ resetting 3 with schedule := [.event (.notify 0 0)] }, _, .notify 0 0, turn_comes _ _ (by decide +kernel), rfl, by decide +kernel⟩
  · exact ⟨{ resetting 4 with schedule := [.event (.linkRetry 16)] }, _, .linkRetry 16, turn_comes _ _ (by decide +kernel), rfl, by decide +kernel⟩

theorem wit_StepRunsDecoded_settled : ∃ s : State, s.mcastJobs = [] ∧ s.secJobs = [] ∧ s.secQueue = [] ∧ s.hotDie = none :=
  ⟨base, by decide +kernel⟩

/-- A session of the endpoint stands. -/
def session (ep : Endpoint) : State := { base with spdm := [(ep, .session)] }

theorem wit_standbyEntry : ∃ s : State, s.pstate = .run ∧ basderSession s :=
  ⟨session .basder, by decide +kernel, by unfold basderSession; decide +kernel⟩
theorem wit_throttle : (∃ s : State, s.up = true ∧ s.throttle.toNat < 8) ∧ ∃ s : State, s.up = true ∧ 0 < s.throttle.toNat :=
  ⟨⟨{ base with throttle := 7 }, by decide +kernel⟩, ⟨{ base with throttle := 8 }, by decide +kernel⟩⟩
theorem wit_criticalTemperature : (∃ s : State, s.up = true ∧ s.throttle = 8#4 ∧ s.hotDie = none) ∧
    ∃ s : State, s.hotDie = some 9 ∧ ∀ u ∈ s.teams, u.onCore = false :=
  ⟨⟨{ base with throttle := 8 }, by decide +kernel⟩, ⟨{ base with hotDie := some 9, teams := [] }, by decide +kernel⟩⟩
theorem wit_PortAnswers : (∃ s : State, s.pstate ≠ .off ∧ basderSession s) ∧ (∃ s : State, s.pstate ≠ .off ∧ ¬ basderSession s) ∧
    (∃ s : State, s.pstate ≠ .off ∧ s.rstage.toNat < 6) ∧ ∃ s : State, s.pstate ≠ .off ∧ 6 ≤ s.rstage.toNat :=
  ⟨⟨session .basder, by unfold basderSession; decide +kernel⟩, ⟨base, by unfold basderSession; decide +kernel⟩,
    ⟨resetting 5, by decide +kernel⟩, ⟨resetting 6, by decide +kernel⟩⟩

/-- An operation of the port in a session, without one, and in standby, where the package takes only a reset. -/
theorem wit_PortOperates : (∃ s t : State, s.tick.settled.nextTurn = (some (.basder .warmReset), t) ∧ t.pstate ≠ .off ∧ basderSession t ∧
      t.takes .warmReset = true) ∧
    (∃ s t : State, s.tick.settled.nextTurn = (some (.basder (.worldHalt 0)), t) ∧ t.pstate ≠ .off ∧ ¬ basderSession t) ∧
    ∃ s t : State, s.tick.settled.nextTurn = (some (.basder (.worldHalt 0)), t) ∧ t.pstate ≠ .off ∧ t.takes (.worldHalt 0) = false := by
  unfold basderSession
  exact ⟨⟨{ session .basder with schedule := [.basder .warmReset] }, _, turn_comes _ _ (by decide +kernel), by decide +kernel⟩,
    ⟨{ base with schedule := [.basder (.worldHalt 0)] }, _, turn_comes _ _ (by decide +kernel), by decide +kernel⟩,
    { session .basder with pstate := .s1, rstage := 0, schedule := [.basder (.worldHalt 0)] }, _, turn_comes _ _ (by decide +kernel), by decide +kernel⟩

/-- The last byte of the package's DRAM and the first of another's; and a line that another compartment's copy covers. -/
theorem wit_OutsideWrites : (∃ (s : State) (a : Nat), dramRange a 1 = true ∧ pkgOf a = s.pkgid.toNat ∧ s.up = true ∧ s.tagClash 5 (128 * (a / 128)) = false) ∧
    (∃ (s : State) (a : Nat), dramRange a 1 = true ∧ pkgOf a ≠ s.pkgid.toNat) ∧
    ∃ (s : State) (a : Nat), pkgOf a = s.pkgid.toNat ∧ (linesOf a 1).any (s.tagClash 5) = true :=
  ⟨⟨base, 0, by decide +kernel⟩, ⟨base, 2 ^ 42, by decide +kernel⟩,
    { base with lines := [(0, { Line.reset with tag := some (6, true) })] }, 0, by decide +kernel⟩

/-! ### Links and SPDM -/

theorem wit_LinkEvents : aLink 13 ∧ 13 < 14 ∧ aLink 16 ∧ aLink 47 ∧ ∃ (s : State) (pkg : Nat), pkg < 512 ∧ pkg ≠ s.pkgid.toNat :=
  ⟨.inl (by decide), by decide, .inr (by decide), .inr (by decide), base, 511, by decide, by decide +kernel⟩

/-- The endpoint after the exchanges up to the phase given. -/
def inPhase (ep : Endpoint) (p : SpdmPhase) : State := { base with spdm := [(ep, p)] }

theorem wit_SpdmAnswers : ∃ ep : Endpoint, reaches (inPhase ep .start) ep ∧ reaches (inPhase ep .version) ep ∧ 1 ≤ ((inPhase ep .version).spdmPhase ep).rank ∧
    reaches (inPhase ep .capabilities) ep ∧ 2 ≤ ((inPhase ep .capabilities).spdmPhase ep).rank ∧
    reaches (inPhase ep .negotiated) ep ∧ 3 ≤ ((inPhase ep .negotiated).spdmPhase ep).rank ∧
    reaches (inPhase ep .exchanged) ep ∧ (inPhase ep .exchanged).spdmPhase ep = .exchanged ∧
    reaches (inPhase ep .session) ep ∧ (inPhase ep .session).spdmPhase ep = .session := by
  refine ⟨.function 64, ?_⟩
  unfold reaches
  decide +kernel

/-- FINISH's two outcomes, which the requester's part decides; whether it verifies is a free value. -/
theorem wit_SpdmAnswers_finish (b : Bool) (h : Config.finishVerifies (inPhase (.function 64) .exchanged).fresh [1#8] = b) :
    ∃ s ep verify, reaches s ep ∧ s.spdmPhase ep = .exchanged ∧ s.finishOk ep verify = b :=
  ⟨inPhase (.function 64) .exchanged, .function 64, [1#8], by unfold reaches; decide +kernel, by decide +kernel, by simp [State.finishOk, h]⟩

theorem wit_SpdmRefuses (need : Nat) (h : 1 ≤ need ∧ need ≤ 5) : ∃ s ep, reaches s ep ∧ (s.spdmPhase ep).rank < need := by
  refine ⟨inPhase (.peer 16) .start, .peer 16, ?_, ?_⟩
  · unfold reaches; decide +kernel
  · have : ((inPhase (.peer 16) .start).spdmPhase (.peer 16)).rank = 0 := by decide +kernel
    omega

theorem wit_Measured : ∃ s ep, reaches s ep ∧ 3 ≤ (s.spdmPhase ep).rank ∧ (ep = .function (63 + 1) ∨ ep = .basder) :=
  ⟨inPhase (.function 64) .negotiated, .function 64, by unfold reaches; decide +kernel, by decide +kernel, .inl rfl⟩

theorem wit_Measured_package : ∃ s ep, reaches s ep ∧ 3 ≤ (s.spdmPhase ep).rank ∧ (ep = .function 0 ∨ ∃ l, ep = .peer l) :=
  ⟨inPhase (.peer 47) .negotiated, .peer 47, by unfold reaches; decide +kernel, by decide +kernel, .inr ⟨47, rfl⟩⟩

/-! ### Registers, worlds and tables -/

/-- An unaligned offset, the last offset below the message vectors and an offset above the queues' registers. -/
theorem wit_RegistersWritten : ∃ s : State, s.up = true ∧ (1 % 8 ≠ 0) ∧ (0x7FFF8 % 8 = 0 ∧ 0x1040 < 0x7FFF8 ∧ 0x7FFF8 < 0x80000) ∧
    0x1048 % 8 = 0 ∧ 0x1040 < 0x1048 :=
  ⟨base, by decide +kernel, by decide, by decide, by decide, by decide⟩

theorem wit_WorldMeasured : ∃ (s : State) (w : Nat), w < 64 ∧ s.up = true := ⟨base, 63, by decide, by decide +kernel⟩

/-- Partition 0 is in use, with one plat. -/
def used : State := base.modPart 0 (fun p => { p with record := 0x0001100000000000 })

theorem wit_WorldsHalt : ∃ (s : State) (w : Nat), (s.part (s.world w).partId).inUse = true := ⟨used, 0, by decide +kernel⟩

/-- Record 0 names a partition of two plats, with partition id 0 and a mask; no world runs. -/
def idle : State := { base with worlds := [], teams := [] }

theorem wit_RecordTaken : (∃ s i v, i < 16 ∧ State.recordOk s i v = true ∧ ∀ p, s.recordPart i = some p → s.partBusy p = false) ∧
    (∃ s i v, i < 16 ∧ State.recordOk s i v = false) ∧ ∃ s i p, i < 16 ∧ State.recordPart s i = some p ∧ s.partBusy p = true := by
  refine ⟨⟨idle, 15, 0x0001100000000100, by decide, by decide +kernel, ?_⟩, ⟨idle, 0, 0x0001100000000008, by decide, by decide +kernel⟩,
    ⟨used, 0, 0, by decide, by decide +kernel, by decide +kernel⟩⟩
  intro p hp
  have h : idle.recordPart 15 = none := by decide +kernel
  rw [h] at hp; cases hp

theorem wit_MaskWritten : ∃ (s : State) (mask dword : Nat), mask < 1024 ∧ dword < 8 ∧ ∀ e ∈ s.parts, e.2.inUse = true → e.2.peersIx ≠ mask :=
  ⟨used, 1023, 7, by decide, by decide, by decide +kernel⟩

theorem wit_EntryWritten : ∃ (s : State) (entry : Nat), entry < 4096 ∧ s.mcastFlowing entry = false ∧ s.mcastJobs = [] ∧ (s.mcastEntry entry).resv = 0#448 ∧ (s.part (0x100 / 256 % 16)).inUse = false ∧
    (0x100 : DWord) &&& 0xFFFFFFFFF0C0F0FE#64 = 0#64 ∧ (0x2 : DWord) &&& 0xFFFFFFFFF0C0F0FE#64 ≠ 0#64 :=
  ⟨base, 4095, by decide, by decide +kernel⟩

/-- A claim of the team on multicast entry 4095 is Flowing. -/
theorem wit_EntryWritten_waits : ∃ (s : State) (entry : Nat), entry < 4096 ∧ s.mcastFlowing entry = true :=
  ⟨base.modTeam 1 (fun t => { t with claims := [(2, { Claim.free with
      state := .flowing
      desc := some { kind := .multicast, scope := .sys, cbuf := false, comp := 0, bark := 0, bar := 0, rop := 0, peer := 0, route := 4095,
                     src := { base := 0, esz := 16, ext := [1], stride := [16] }, dst := { base := 0, esz := 16, ext := [1], stride := [16] } } })] }),
    4095, by decide, by decide +kernel⟩

theorem wit_WaysSwept : ∃ (s : State) (w : Nat), w < 64 ∧ (s.world w).sweeping ≠ none :=
  ⟨base.modWorld 63 (fun x => { x with sweeping := some 1 }), 63, by decide, by decide +kernel⟩

/-! ### The security engine -/

theorem wit_CompartmentMade : (∃ (s : State) (g : Nat), g < 1024 ∧ s.up = true ∧ SecReq.create g ∉ s.secQueue ∧
      ((s.comp g).state = .free ∨ (s.comp g).state = .revoked) ∧ (s.world (g / 16)).flr = false ∧ s.secJobs = [] ∧ s.secQueue = []) ∧
    (∃ (s : State) (g : Nat), g < 1024 ∧ s.up = true ∧ SecReq.create g ∉ s.secQueue ∧ ((s.comp g).state = .free ∨ (s.comp g).state = .revoked) ∧
      (s.world (g / 16)).flr = false ∧ ∃ j rest, s.secJobs = j :: rest ∧ ∀ c, j ≠ .close c) ∧
    ∃ (s : State) (g : Nat), g < 1024 ∧ s.up = true ∧ SecReq.create g ∉ s.secQueue ∧ (s.comp g).state = .active :=
  ⟨⟨base, 1, by decide, by decide +kernel, by decide +kernel, .inl (by decide +kernel), by decide +kernel, by decide +kernel, by decide +kernel⟩,
    ⟨{ base with secJobs := [.reset 5] }, 1, by decide, by decide +kernel, by decide +kernel, .inl (by decide +kernel), by decide +kernel,
      .reset 5, [], rfl, fun _ h => by cases h⟩,
    ⟨base.modComp 1023 (fun c => { c with state := .active }), 1023, by decide, by decide +kernel, by decide +kernel, by decide +kernel⟩⟩

theorem engine_idle : engineFree base := by
  unfold engineFree; decide +kernel

/-- A command of the kind given, of SEQ 5, for compartment 1 of world 0: gate 7, from compartment 1 to compartment 2, with a traverse
of one element of one byte. -/
def command (kind : Byte) : AuthCmd :=
  { header := [kind, 0, 0xFF, 0xFF, 0, 1, 7, 0] ++ List.replicate 8 0 ++ [5, 0, 0, 0, 0, 0, 0, 0] ++
      (List.replicate 32 0 ++ [7, 0, 1, 2, 4] ++ List.replicate 27 0) ++ List.replicate 40 0
    signature := [], pubkey := [] }

/-- Compartment 1 is Active, its authority the key of the commands, and gate 7 is closed. -/
def commanded : State :=
  (base.modComp 1 (fun c => { c with state := .active, auth := shake256 [], lastseq := 4 })).modWorld 0 (fun w =>
    { w with gates := [(7, { parseGate (Auth.grec (command 2)) with flags := 0 })] })

theorem accepted {s : State} {c : AuthCmd} (hm : Auth.malformed c = false) (hp : Auth.pkg c = 0xFFFF)
    (hs : (s.comp (Auth.gcomp c)).state = .active) (hg : s.signed c = true) (hq : (s.comp (Auth.gcomp c)).lastseq.toNat < Auth.seq c)
    (ht : s.gateTaken c = false) : s.authCheck c = 0 := by
  simp [State.authCheck, hm, hp, hs, hg, ht]
  omega

/-- The three kinds of command are accepted where the signature check says so; its outcome is a free value. -/
theorem wit_CommandsObeyed (hv : Config.falconVerify [] = fun _ _ => true) (k : Byte) (hk : k = 1 ∨ k = 2 ∨ k = 3) :
    ∃ s c, engineFree s ∧ Auth.kind c = k.toNat ∧ s.authCheck c = 0 := by
  have hc : (commanded.comp 1).auth = shake256 [] := by decide +kernel
  refine ⟨commanded, command k, engine_idle, by rcases hk with rfl | rfl | rfl <;> decide +kernel, accepted ?_ ?_ ?_ ?_ ?_ ?_⟩
  · rcases hk with rfl | rfl | rfl <;> decide +kernel
  · rcases hk with rfl | rfl | rfl <;> decide +kernel
  · rcases hk with rfl | rfl | rfl <;> decide +kernel
  · have hg : Auth.gcomp (command k) = 1 := by rcases hk with rfl | rfl | rfl <;> decide +kernel
    unfold State.signed
    rw [hg, hc, show (command k).pubkey = [] from rfl, hv]
    rcases hk with rfl | rfl | rfl
    · rw [show Auth.kind (command 1) = 1 by decide +kernel]; simp
    · rw [show Auth.kind (command 2) = 2 by decide +kernel]; simp; decide +kernel
    · rw [show Auth.kind (command 3) = 3 by decide +kernel]; simp; decide +kernel
  · rcases hk with rfl | rfl | rfl <;> decide +kernel
  · rcases hk with rfl | rfl | rfl <;> decide +kernel

/-- Gate 7 of world 0 with and without a claim on it that is Flowing. -/
theorem wit_CommandsObeyed_close (b : Bool) : ∃ s : State, engineFree s ∧ s.gateFlowing 0 7 = b := by
  cases b
  · exact ⟨base, engine_idle, by decide +kernel⟩
  · refine ⟨base.modTeam 1 (fun t => { t with claims := [(2, { Claim.free with
      state := .flowing
      desc := some { kind := .gate, scope := .sys, cbuf := false, comp := 0, bark := 0, bar := 0, rop := 0, peer := 0, route := 7,
                     src := { base := 0, esz := 16, ext := [1], stride := [16] }, dst := { base := 0, esz := 16, ext := [1], stride := [16] } } })] }),
      ?_, by decide +kernel⟩
    unfold engineFree; decide +kernel

theorem wit_CommandsObeyed_refused : ∃ s c, engineFree s ∧ Auth.kind c = 2 ∧ s.authCheck c ≠ 0 :=
  ⟨base, command 2, engine_idle, by decide +kernel, by decide +kernel⟩

theorem wit_RevocationEnds : ∃ (s : State) (g : Nat) (seq : DWord) (digest : List Byte) (rest : List SecJob),
    s.secJobs = .revoke g seq digest :: rest ∧ s.secQueue = [] ∧ s.revokeDrained g = true :=
  ⟨{ base with secJobs := [.revoke 1 5 []] }, 1, 5, [], [], rfl, rfl, by decide +kernel⟩

theorem wit_WorldResets : (∃ (s : State) (w : Nat), w < 64 ∧ engineFree s) ∧
    (∃ (s : State) (w : Nat), w < 64 ∧ s.up = true ∧ ∃ j rest, s.secJobs = j :: rest ∧ ∀ c, j ≠ .close c) ∧
    ∃ (s : State) (w : Nat) (rest : List SecJob), s.secJobs = .reset w :: rest ∧ s.secQueue = [] ∧ s.worldDrained w = true :=
  ⟨⟨base, 63, by decide, engine_idle⟩,
    ⟨{ base with secJobs := [.revoke 1 5 []] }, 63, by decide, by decide +kernel, .revoke 1 5 [], [], rfl, fun _ h => by cases h⟩,
    { base with secJobs := [.reset 0] }, 0, [], rfl, rfl, by decide +kernel⟩

end Sys2Proof.Tests
end

