-- ==== Sys2Proof/Tests/WitnessVector.lean ====
section
/-! SUPPORT. Witnesses: for each statement about vector, predicate, index and form instructions, a state and operands that meet its
hypotheses together. -/

set_option Elab.async false

namespace Sys2Proof.Tests

open Sys2Proof Sys2Proof.Machine Sys2Proof.Claims

/-! ### Delivery -/

theorem wit_table {table : Instr → Option VOp} {i : Instr} {o : VOp} {s : State} (ht : table i = some o) (hw : i.wf = true)
    (h : (found o.c false s).any (fun p => vready o p.1 p.2.1 p.2.2) = true) :
    ∃ i o, table i = some o ∧ i.wf = true ∧ ∃ s d x s1, Issues s o.c false d x s1 ∧ VReady o d x s1 := by
  obtain ⟨d, x, s1, hi, hv⟩ := witness (P := fun d x s1 => vready o d x s1) h
  exact ⟨i, o, ht, hw, s, d, x, s1, hi, vready_iff hv⟩

def v32 : FmtV := { plainV with dst := 4, a := 2, b := 3 }

theorem wit_intOp : ∃ i o, intOp i = some o ∧ i.wf = true ∧ ∃ s d x s1, Issues s o.c false d x s1 ∧ VReady o d x s1 :=
  wit_table (s := base) (i := .add (writes .lane) v32) rfl (by decide) (by decide +kernel)
theorem wit_bitOp : ∃ i o, bitOp i = some o ∧ i.wf = true ∧ ∃ s d x s1, Issues s o.c false d x s1 ∧ VReady o d x s1 :=
  wit_table (s := base) (i := .bfi (writes .team) { v32 with ty := .n32, c := 5 }) rfl (by decide) (by decide +kernel)
theorem wit_immOp : ∃ i o, immOp i = some o ∧ i.wf = true ∧ ∃ s d x s1, Issues s o.c false d x s1 ∧ VReady o d x s1 :=
  wit_table (s := base) (i := .madImm (writes .lane) { dst := 1535 - 1024, a := 2, imm := 0xFFFFFFFF, ea := false, rnd := .rne, sat := true, ty := .i32, isel := .none, ireg := 0, qsel := 0, sub := 0 })
    rfl (by decide) (by decide +kernel)
theorem wit_divOp : ∃ i o, divOp i = some o ∧ i.wf = true ∧ ∃ s d x s1, Issues s o.c false d x s1 ∧ VReady o d x s1 :=
  wit_table (s := base) (i := .div (writes .group) { v32 with b := 1536, ty := .n64, a := 2 }) rfl (by decide) (by decide +kernel)
theorem wit_floatOp : ∃ i o, floatOp i = some o ∧ i.wf = true ∧ ∃ s d x s1, Issues s o.c false d x s1 ∧ VReady o d x s1 :=
  wit_table (s := base) (i := .ffma (writes .lane) { v32 with ty := .f16, nb := true, rnd := .rz, sat := true }) rfl (by decide) (by decide +kernel)
theorem wit_sfuOp : ∃ i o, sfuOp i = some o ∧ i.wf = true ∧ ∃ s d x s1, Issues s o.c false d x s1 ∧ VReady o d x s1 :=
  wit_table (s := base) (i := .fsin (writes .lane) { plainV with dst := 4, a := 2, ty := .f32 }) rfl (by decide) (by decide +kernel)
theorem wit_convertOp : ∃ i o, convertOp i = some o ∧ i.wf = true ∧ ∃ s d x s1, Issues s o.c false d x s1 ∧ VReady o d x s1 :=
  wit_table (s := base) (i := .pack (writes .lane) { plainV with dst := 4, a := 8, ty := .e4m3, rnd := .rdi }) rfl (by decide) (by decide +kernel)
theorem wit_moveOp : ∃ i o, moveOp i = some o ∧ i.wf = true ∧ ∃ s d x s1, Issues s o.c false d x s1 ∧ VReady o d x s1 :=
  wit_table (s := base) (i := .sel (writes .lane) { v32 with sub := 7 }) rfl (by decide) (by decide +kernel)
theorem wit_exchangeOp : ∃ i o, exchangeOp i = some o ∧ i.wf = true ∧ ∃ s d x s1, Issues s o.c false d x s1 ∧ VReady o d x s1 :=
  wit_table (s := base) (i := .gscan (writes .team) { plainV with dst := 4, a := 2, sub := 8 }) rfl (by decide) (by decide +kernel)

/-- Also for `SequentialLanes`: the instruction stands at a slot, and a member is in no loop. -/
theorem wit_SequentialLanes : ∃ i o, vectorOp i = some o ∧ i.wf = true ∧ ∃ s d x s1, Issues s o.c false d x s1 ∧
    (VReady o d x s1 ∧ x.addr.toNat % 64 < 5 ∧ ∃ m ∈ x.members, (x.group m).loops = []) := by
  obtain ⟨d, x, s1, hi, hv⟩ := witness (c := (writes .lane)) (fuse := false) (s := base)
    (P := fun d x s1 => vready (useAB (writes .lane) v32 .add (ints2 .i32 false (fun a b => a + b)))
      d x s1 && (decide (x.addr.toNat % 64 < 5) && x.members.any (fun m => decide ((x.group m).loops = [])))) (by decide +kernel)
  simp only [Bool.and_eq_true, decide_eq_true_eq, List.any_eq_true] at hv
  obtain ⟨h1, h2, m, hm, h3⟩ := hv
  exact ⟨.add (writes .lane) v32, _, rfl, by decide, base, d, x, s1, hi, vready_iff h1, h2, m, hm, h3⟩

/-- A result of one lane for a lane register (`RegistersTake`), and flags of a lane (`FlagsStick`). -/
theorem wit_RegistersTake : ∃ (o : VOp) (d : Nat) (rs : List (Member × Nat × Nat × FlagSet)) (gr : Group), o.dInd = false ∧ opndOf o.dst = .lane d ∧
    (rs.map (fun r => (r.1.g, r.2.1))).Nodup ∧ (∀ r ∈ rs, r.2.1 < 32) ∧ rs ≠ [] ∧ groupAt base 1 0 = some gr := by
  obtain ⟨gr, h⟩ := Option.isSome_iff_exists.1 (by decide +kernel : (groupAt base 1 0).isSome = true)
  exact ⟨useAB (writes .lane) v32 .add takeFn, 4, [({ g := 0, pos := 0, at_ := 1, act := 1, quads := 1 }, 31, 7, 1)], gr, rfl, by decide,
    by decide, by decide, by decide, h⟩

/-! ### Predicates and index registers -/

theorem wit_PredicatesWritten : ∃ i o k s d x s1, predOp i = some (o, k) ∧ i.wf = true ∧ Issues s o.c false d x s1 ∧
    (k ≤ 6 ∧ kSourcesOk o ∧ Reads o d x) := by
  obtain ⟨d, x, s1, hi, hv⟩ := witness (c := (Machine.Common.noW (writes .lane))) (fuse := false) (s := base)
    (P := fun d x s1 =>
      reads (vop (Machine.Common.noW (writes .lane)) { plainV with dst := 6, a := 7, b := 7, sub := 3 } 1 [kSrc 7, kSrc 7] .none (predicateOp 3)) d x) (by decide +kernel)
  refine ⟨.kop (writes .lane) { plainV with dst := 6, a := 7, b := 7, sub := 3 }, _, _, base, d, x, s1, rfl, by decide, hi, by decide, ?_, reads_iff hv⟩
  intro y hy k hk
  rcases List.mem_cons.1 hy with rfl | hy
  · injection hk with hk; subst hk; decide
  · rcases List.mem_cons.1 hy with rfl | hy
    · injection hk with hk; subst hk; decide
    · cases hy

theorem wit_PredicatesRead : ∃ i o s d x s1, fromPredOp i = some o ∧ i.wf = true ∧ Issues s o.c false d x s1 ∧ (kSourcesOk o ∧ VReady o d x s1) := by
  obtain ⟨d, x, s1, hi, hv⟩ := witness (c := (writes .lane)) (fuse := false) (s := base)
    (P := fun d x s1 =>
      vready (vop (writes .lane) { plainV with dst := 4, a := 7, sub := 1 } 1 [kSrc 7] .none (fun _ xs => (xs.headD 0, 0))) d x s1) (by decide +kernel)
  refine ⟨.kmov (writes .lane) { plainV with dst := 4, a := 7, sub := 1 }, _, base, d, x, s1, rfl, by decide, hi, ?_, vready_iff hv⟩
  intro y hy k hk
  rcases List.mem_cons.1 hy with rfl | hy
  · injection hk with hk; subst hk; decide
  · cases hy

/-- Base 480 and limit 32 reach just the last of 512 registers; 33 reach beyond. -/
def xsetF (limit : BitVec 11) : FmtV := { plainV with a := 2, b := limit, c := 3, sub := 3 }
def based : State := base.modGroup 1 0 (fun g => g.setReg 2 0 480#32)

theorem wit_IndexSet : ∃ c f s d x s1 e, (Instr.xset c f).wf = true ∧ Issues s c false d x s1 ∧ Reads (xsetOp c f) d x ∧
    x.activeLanes.head? = some e ∧ operand (xsetOp c f) x s1 0 e + operand (xsetOp c f) x s1 1 e = x.node.desc.regs := by
  obtain ⟨d, x, s1, hi, hv⟩ := witness (c := (silent .group)) (fuse := false) (s := based)
    (P := fun d x s1 => reads (xsetOp (silent .group) (xsetF 1561)) d x &&
      x.activeLanes.head?.any (fun e => decide (operand (xsetOp (silent .group) (xsetF 1561)) x s1 0 e +
        operand (xsetOp (silent .group) (xsetF 1561)) x s1 1 e = x.node.desc.regs))) (by decide +kernel)
  simp only [Bool.and_eq_true] at hv
  obtain ⟨h1, h2⟩ := hv
  match he : x.activeLanes.head?, h2 with
  | some e, h2 =>
    exact ⟨silent .group, xsetF 1561, based, d, x, s1, e, by decide, hi, reads_iff h1, he, of_decide_eq_true h2⟩

/-- A node with a handler at hand. -/
def handled (s : State) : State := s.modNode 0 (fun n => { n with desc := { n.desc with handler := 0x10000 } })

theorem wit_IndexTraps : ∃ c f s d x s1 e, (Instr.xset c f).wf = true ∧ Issues s c false d x s1 ∧ Reads (xsetOp c f) d x ∧
    x.activeLanes.head? = some e ∧ x.node.desc.regs < operand (xsetOp c f) x s1 0 e + operand (xsetOp c f) x s1 1 e ∧ CanEnter x s1 := by
  obtain ⟨d, x, s1, hi, hv⟩ := witness (c := (silent .group)) (fuse := false) (s := (handled based))
    (P := fun d x s1 => reads (xsetOp (silent .group) (xsetF 1562)) d x &&
      (x.activeLanes.head?.any (fun e => decide (x.node.desc.regs < operand (xsetOp (silent .group) (xsetF 1562)) x s1 0 e +
        operand (xsetOp (silent .group) (xsetF 1562)) x s1 1 e)) && canEnter x s1)) (by decide +kernel)
  simp only [Bool.and_eq_true] at hv
  obtain ⟨h1, h2, h3⟩ := hv
  match he : x.activeLanes.head?, h2 with
  | some e, h2 =>
    exact ⟨silent .group, xsetF 1562, handled based, d, x, s1, e, by decide, hi, reads_iff h1, he, of_decide_eq_true h2, canEnter_iff h3⟩

/-- Predicate k1 is undefined in every lane of the group. -/
theorem wit_SelUndefined : ∃ c f o s t g k d, (Instr.sel c f).wf = true ∧ moveOp (.sel c f) = some o ∧ s.halted = false ∧ s.cur = .strand t g k ∧
    s.stand c t g k = some d ∧ badScope d.node d.team d.gr c.scope g = false ∧ o.static d.node = none ∧
    (∃ l ∈ lanesOf d.act, d.gr.predDef (f.sub.toNat % 8) l = false) ∧ CanEnter (d.own c g) s := by
  let f : FmtV := { v32 with sub := 1 }
  obtain ⟨d, hd, h⟩ := of_any (by decide +kernel : ((handled base).stand (writes .lane) 1 0 0).any (fun d =>
    (moveOp (.sel (writes .lane) f)).any (fun o => decide (badScope d.node d.team d.gr .lane 0 = false ∧ o.static d.node = none)) &&
    ((lanesOf d.act).any (fun l => !d.gr.predDef 1 l) && canEnter (d.own (writes .lane) 0) (handled base))) = true)
  simp only [Bool.and_eq_true, List.any_eq_true, Bool.not_eq_true'] at h
  obtain ⟨h1, ⟨l, hl, h2⟩, h3⟩ := h
  obtain ⟨o, ho, h1⟩ := of_any h1
  obtain ⟨h4, h5⟩ := of_decide_eq_true h1
  exact ⟨writes .lane, f, o, handled base, 1, 0, 0, d, by decide, ho, by decide +kernel, rfl, hd, h4, h5, ⟨l, hl, h2⟩, canEnter_iff h3⟩

theorem wit_LimitZero : ∃ i o s d x s1, vectorOp i = some o ∧ i.wf = true ∧ Issues s o.c false d x s1 ∧ o.static d.node = none ∧
    o.undef d.team d.gr d.act = false ∧ (o.dInd = true ∨ ∃ y ∈ o.srcs, y.ind = true) ∧
    (∃ e ∈ x.activeLanes, Tbl.get 0#32 (x.group e.1).xlimit o.ireg = 0#32) ∧ CanEnter x s1 := by
  obtain ⟨d, x, s1, hi, hv⟩ := witness (c := (writes .lane)) (fuse := false) (s := (handled base))
    (P := fun d x s1 =>
      let o := useAB (writes .lane) { v32 with isel := .dst, ireg := 1 } .add (ints2 .i32 false (fun a b => a + b))
      decide (o.static d.node = none) && (!o.undef d.team d.gr d.act &&
        (x.activeLanes.any (fun e => decide (Tbl.get 0#32 (x.group e.1).xlimit o.ireg = 0#32)) && canEnter x s1))) (by decide +kernel)
  simp only [Bool.and_eq_true, decide_eq_true_eq, Bool.not_eq_true', List.any_eq_true] at hv
  obtain ⟨h1, h2, ⟨e, he, h3⟩, h4⟩ := hv
  exact ⟨.add (writes .lane) { v32 with isel := .dst, ireg := 1 }, _, handled base, d, x, s1, rfl, by decide, hi, h1, h2, .inl rfl,
    ⟨e, he, h3⟩, canEnter_iff h4⟩

/-! ### Form -/

theorem wit_FormAffine : ∃ r ks v, (∀ k ∈ ks, ∀ u, k = Kind.uni u → u < 2 ^ 32) ∧ affResult r ks = some v ∧ ∃ k ∈ ks, k.isUni = false := by
  refine ⟨.shl, [.aff 0x1000 4 2048 0, .uni 31], _, ?_, rfl, .aff 0x1000 4 2048 0, by decide, rfl⟩
  intro k hk u hu
  rcases List.mem_cons.1 hk with rfl | hk
  · cases hu
  · rcases List.mem_cons.1 hk with rfl | hk
    · injection hu with hu; omega
    · cases hk

/-- A parcel of node 0 at its instruction, with f0 uniform 7 and f1 affine, whose turn it is. -/
def tract : State :=
  { base.modNode 0 (fun n => { n with parcels := [{ bootParcel with form := [(0, .uni 7#32), (1, .aff 0 1 0 0)] }] }) with cur := .parcel 0 0 }

theorem wit_parcel {c : Common} {b : Bool} (h : (tract.node? 0).any (fun n => (n.parcel? 0).any (fun p =>
      decide (tract.halted = false) && decide (n.id = 0 ∧ p.id = 0) && decide (n.ending = none) && decide (n.consumed = none) &&
      decide (p.guard n c = some b))) = true) (hs : ∀ k, c.scope ≠ .set k) :
    ∃ n p, tract.node? 0 = some n ∧ n.parcel? 0 = some p ∧ FormIssues tract c n p b := by
  obtain ⟨n, hn, h⟩ := of_any h
  obtain ⟨p, hp, h⟩ := of_any h
  simp only [Bool.and_eq_true, decide_eq_true_eq] at h
  obtain ⟨⟨⟨⟨h1, h2, h3⟩, h4⟩, h5⟩, h6⟩ := h
  exact ⟨n, p, hn, hp, h1, by rw [h2, h3]; rfl, by rw [h2]; exact hn, by rw [h3]; exact hp, ⟨h4, h5⟩, fun k hk => absurd hk (hs k), h6⟩

/-- `add f2, f0, 3` (uniform) and `add f2, f1, 3` (affine) in form; `add v4, f0, 3` forces fan-out. -/
def formAdd (dst a : BitVec 11) : FmtV := { plainV with dst := dst, a := a, b := 1539 }

theorem wit_TractComputes (dst a : BitVec 11) (hd : dst = 1602 ∨ dst = 4) (ha : a = 1600 ∨ a = 1601) :
    ∃ i o s n p ks, vectorOp i = some o ∧ i.wf = true ∧ FormIssues s o.c n p true ∧ o.static n = none ∧
      o.dst = dst ∧ o.c.q = false ∧ o.c.l = false ∧ o.noForm = false ∧ o.c.w = true ∧
      kindsOf o.srcs p.form (p.uniPred n) n (s.cyc n.leadCore) = some ks ∧ (a = 1601 → affResult o.aff ks ≠ none) ∧
      (a = 1600 → ∀ k ∈ ks, k.isUni = true) ∧ (a = 1601 → ∃ k ∈ ks, k.isUni = false) := by
  obtain ⟨n, p, hn, hp, hf⟩ := wit_parcel (c := writes .lane) (b := true) (by decide +kernel) (fun k h => by cases h)
  have h : ∀ dst ∈ [(1602 : BitVec 11), 4], ∀ a ∈ [(1600 : BitVec 11), 1601], (tract.node? 0).any (fun n => (n.parcel? 0).any (fun p =>
      let o := useAB (writes .lane) (formAdd dst a) .add (ints2 .i32 false (fun a b => a + b))
      decide (o.static n = none) && (kindsOf o.srcs p.form (p.uniPred n) n (tract.cyc n.leadCore)).any (fun ks =>
        (decide (a ≠ 1601) || (decide (affResult o.aff ks ≠ none) && ks.any (fun k => !k.isUni))) && (decide (a ≠ 1600) || ks.all Kind.isUni)))) = true ∧
      (Instr.add (writes .lane) (formAdd dst a)).wf = true := by decide +kernel
  obtain ⟨h, hw⟩ := h dst (by simpa using hd) a (by simpa using ha)
  rw [hn, Option.any_some, hp, Option.any_some] at h
  simp only [Bool.and_eq_true, decide_eq_true_eq] at h
  obtain ⟨h1, h2⟩ := h
  match hk : kindsOf (useAB (writes .lane) (formAdd dst a) .add (ints2 .i32 false (fun a b => a + b))).srcs p.form (p.uniPred n) n
      (tract.cyc n.leadCore), h2 with
  | some ks, h2 =>
    simp only [Option.any_some, Bool.and_eq_true, Bool.or_eq_true, decide_eq_true_eq, List.any_eq_true, List.all_eq_true,
      Bool.not_eq_true'] at h2
    obtain ⟨h3, h4⟩ := h2
    refine ⟨.add (writes .lane) (formAdd dst a), _, tract, n, p, ks, rfl, hw, hf, h1, rfl, rfl, rfl, rfl, rfl, hk, ?_, ?_, ?_⟩
    · intro h; rcases h3 with h3 | h3
      · exact absurd h h3
      · exact h3.1
    · intro h; rcases h4 with h4 | h4
      · exact absurd h h4
      · exact h4
    · intro h; rcases h3 with h3 | h3
      · exact absurd h h3
      · exact h3.2

/-- A guard of `!k7` is uniform false (`TractPasses`). -/
theorem wit_TractPasses : ∃ i o s n p ks f, vectorOp i = some o ∧ i.wf = true ∧ FormIssues s o.c n p false ∧ o.static n = none ∧
    o.c.q = false ∧ o.c.l = false ∧ o.noForm = false ∧ o.formDst = some f ∧
    kindsOf o.srcs p.form (p.uniPred n) n (s.cyc n.leadCore) = some ks ∧ ∀ k ∈ ks, k.isUni = true := by
  obtain ⟨n, p, hn, hp, hf⟩ := wit_parcel (c := { writes .lane with pneg := true }) (b := false) (by decide +kernel) (fun k h => by cases h)
  have h : (tract.node? 0).any (fun n => (n.parcel? 0).any (fun p =>
      let o := useAB { writes .lane with pneg := true } (formAdd 1602 1600) .add (ints2 .i32 false (fun a b => a + b))
      decide (o.static n = none) && (kindsOf o.srcs p.form (p.uniPred n) n (tract.cyc n.leadCore)).any (fun ks => ks.all Kind.isUni))) = true := by
    decide +kernel
  rw [hn, Option.any_some, hp, Option.any_some] at h
  simp only [Bool.and_eq_true, decide_eq_true_eq] at h
  obtain ⟨h1, h2⟩ := h
  match hk : kindsOf (useAB { writes .lane with pneg := true } (formAdd 1602 1600) .add (ints2 .i32 false (fun a b => a + b))).srcs p.form
      (p.uniPred n) n (tract.cyc n.leadCore), h2 with
  | some ks, h2 =>
    exact ⟨.add { writes .lane with pneg := true } (formAdd 1602 1600), _, tract, n, p, ks, 2, rfl, by decide, hf, h1, rfl, rfl, rfl, by decide, hk,
      fun k hk => (List.all_eq_true.1 h2) k hk⟩

theorem wit_RegionInForm : ∃ c f s n p, (Instr.region c f).wf = true ∧ FormIssues s c n p true ∧ regionOperandsOk f n = true := by
  obtain ⟨n, p, hn, -, hf⟩ := wit_parcel (c := silent .lane) (b := true) (by decide +kernel) (fun k h => by cases h)
  have h : (tract.node? 0).any (fun n => regionOperandsOk { n := 1, r0 := 0, r1 := 0, r2 := 0, r3 := 0 } n) = true := by decide +kernel
  rw [hn] at h
  exact ⟨silent .lane, { n := 1, r0 := 0, r1 := 0, r2 := 0, r3 := 0 }, tract, n, p, by decide, hf, h⟩

theorem wit_ExitInForm : ∃ c f s n p, (Instr.exit c f).wf = true ∧ FormIssues s c n p true := by
  obtain ⟨n, p, -, -, hf⟩ := wit_parcel (c := silent .lane) (b := true) (by decide +kernel) (fun k h => by cases h)
  exact ⟨silent .lane, plainC, tract, n, p, by decide, hf⟩

theorem wit_FanOutGroups : ∃ (p : Parcel) (n : Node) (c : Nat × Nat × Nat) (g : Nat) (gr : Group), (p.makeTeam n 1 c).groups[g]? = some gr := by
  obtain ⟨gr, h⟩ := Option.isSome_iff_exists.1 (by decide +kernel : ((bootParcel.makeTeam (bootNode 0) 1 (0, 0, 0)).groups[3]?).isSome = true)
  exact ⟨bootParcel, bootNode 0, (0, 0, 0), 3, gr, h⟩

end Sys2Proof.Tests
end

namespace Sys2Proof.Claims

open Sys2Proof Sys2Proof.Machine

/-! ### The groups of a state

What a change of one group, of a team's other fields, or of one group after another leaves of each group. -/

theorem getElem?_modNth {α : Type} (f : α → α) (n i : Nat) (l : List α) :
    (modNth f n l)[i]? = if i = n then (l[i]?).map f else l[i]? := by
  induction l generalizing n i with
  | nil => simp [modNth]
  | cons x l ih =>
    cases n with
    | zero => cases i <;> simp [modNth]
    | succ n => cases i <;> simp [modNth, ih]

theorem groupAt_congr {s s' : State} (h : s'.teams = s.teams) (t g : Nat) : groupAt s' t g = groupAt s t g := by
  unfold groupAt; rw [State.team?_congr h]

theorem groupAt_modGroup (s : State) (t g i : Nat) (f : Group → Group) :
    groupAt (s.modGroup t g f) t i = if i = g then (groupAt s t i).map f else groupAt s t i := by
  unfold groupAt State.modGroup
  rw [State.team?_modTeam_self s t (fun x => x.modGroup g f) (fun _ => rfl)]
  cases s.team? t with
  | none => simp
  | some x => exact getElem?_modNth f g i x.groups

/-- A change of a team that keeps its id and its groups keeps every group. -/
theorem groupAt_modTeam (s : State) (u t g : Nat) (f : Team → Team) (hid : ∀ x, (f x).id = x.id)
    (hg : ∀ x, (f x).groups = x.groups) : groupAt (s.modTeam u f) t g = groupAt s t g := by
  unfold groupAt
  rw [State.team?_modTeam _ _ _ _ hid]
  cases s.team? t with
  | none => rfl
  | some x =>
    simp only [Option.map_some, Option.bind_some]
    split
    · rw [hg]
    · rfl

@[simp] theorem groupAt_passSide (s : State) (t g : Nat) (m : LaneMask) (u i : Nat) :
    groupAt (s.passSide t g m) u i = groupAt s u i := groupAt_congr rfl u i

/-- What each step of a fold keeps, the fold keeps. -/
theorem foldl_keeps {α β : Type} (p : State → β) {f : State → α → State} (hf : ∀ s a, p (f s a) = p s) (l : List α) (s : State) :
    p (l.foldl f s) = p s := by
  induction l generalizing s with
  | nil => rfl
  | cons a l ih => rw [List.foldl_cons, ih, hf]

section Fold

variable {α : Type} {t : Nat} {key : α → Nat} {F : α → Group → Group} {step : State → α → State}
  (hstep : ∀ s a i, groupAt (step s a) t i = if i = key a then (groupAt s t i).map (F a) else groupAt s t i)
include hstep

/-- A fold of changes of groups leaves a group that none of them names. -/
theorem groupAt_foldl_of_notMem (l : List α) (s : State) (i : Nat) (hi : i ∉ l.map key) :
    groupAt (l.foldl step s) t i = groupAt s t i := by
  induction l generalizing s with
  | nil => rfl
  | cons a l ih =>
    simp only [List.map_cons, List.mem_cons, not_or] at hi
    rw [List.foldl_cons, ih _ hi.2, hstep, if_neg hi.1]

/-- A fold of changes of different groups changes each group once. -/
theorem groupAt_foldl_of_mem (l : List α) (s : State) (hl : (l.map key).Nodup) {a : α} (ha : a ∈ l) :
    groupAt (l.foldl step s) t (key a) = (groupAt s t (key a)).map (F a) := by
  induction l generalizing s with
  | nil => cases ha
  | cons b l ih =>
    obtain ⟨hb, hl⟩ := List.nodup_cons.1 hl
    rw [List.foldl_cons]
    rcases List.mem_cons.1 ha with rfl | ha
    · rw [groupAt_foldl_of_notMem hstep _ _ _ hb, hstep, if_pos rfl]
    · rw [ih _ hl ha, hstep, if_neg (fun e : key a = key b => hb (e ▸ List.mem_map_of_mem ha))]

end Fold

/-! ### Taking a trap (R341 to R347) -/

theorem dropSends_mem (s : State) (p : Send → Bool) : (s.dropSends p).mem = s.mem :=
  foldl_keeps (f := State.dropSend) State.mem (fun _ _ => rfl) _ _

theorem groupAt_dropSends (s : State) (p : Send → Bool) (t g : Nat) : groupAt (s.dropSends p) t g = groupAt s t g := by
  refine foldl_keeps (f := State.dropSend) (fun u => groupAt u t g) (fun u x => ?_) _ _
  refine (groupAt_modTeam _ x.dstTeam t g _ ?_ ?_).trans (groupAt_congr (s := u) rfl t g) <;> exact fun _ => rfl

theorem markIssued_mem (s : State) (c : Ctx) (fuse pop : Bool) : (s.markIssued c fuse pop).mem = s.mem :=
  State.mem_of_still (s.markIssued_still c fuse pop)

/-- The members of an issued instruction are different groups: each is marked once. -/
theorem groupAt_markIssued (s : State) (c : Ctx) (fuse pop : Bool) (hc : (c.members.map (fun m => m.g)).Nodup) {m : Member}
    (hm : m ∈ c.members) :
    groupAt (s.markIssued c fuse pop) c.team.id m.g = (groupAt s c.team.id m.g).map (fun gr => gr.issued m fuse pop) :=
  groupAt_foldl_of_mem (key := fun m : Member => m.g) (F := fun m gr => gr.issued m fuse pop)
    (fun s m i => groupAt_modGroup s c.team.id m.g i _) _ _ hc hm

/-! Issuing and passing a resume point leave what a trap sets aside or writes. -/

theorem fuseQuads_loops (g : Group) (q : BitVec 8) : (g.fuseQuads q).loops = g.loops := by
  unfold Group.fuseQuads; dsimp only; split <;> rfl

theorem issued_loops (g : Group) (m : Member) (fuse pop : Bool) : (g.issued m fuse pop).loops = g.loops := by
  have h : (if fuse then (g.leaveEnd m.at_).fuseAll else g.leaveEnd m.at_).loops = g.loops := by
    split
    · exact fuseQuads_loops _ _
    · rfl
  unfold Group.issued
  dsimp only
  split <;> exact h

theorem passResume_trap (g : Group) (m : LaneMask) (a : Addr) : (g.passResume m a).trap = g.trap := by
  unfold Group.passResume; split <;> rfl
theorem passResume_loops (g : Group) (m : LaneMask) (a : Addr) : (g.passResume m a).loops = g.loops := by
  unfold Group.passResume; split <;> rfl
theorem passResume_pc (g : Group) (m : LaneMask) (a : Addr) : (g.passResume m a).pc = g.pc := by
  unfold Group.passResume; split <;> rfl

theorem enterHandler_trap (g : Group) (h : Hit) (r : TrapRec) (ms : List Nat) (a hd : Addr) :
    (g.enterHandler h r ms a hd).trap =
      some { ecause := ecauseOf r.kind r.code r.deferred r.scope, epc := trapEpc r.kind a, eaddr := r.eaddr, scope := r.scope,
             members := ms, done := false, quads := h.quads, outside := quadLanes h.quads &&& ~~~h.lanes, loops := g.loops } :=
  passResume_trap _ _ _

theorem enterHandler_loops (g : Group) (h : Hit) (r : TrapRec) (ms : List Nat) (a hd : Addr) :
    (g.enterHandler h r ms a hd).loops = [] := passResume_loops _ _ _

/-- The lanes for which the trap was raised stand at HANDLER (R343). -/
theorem enterHandler_pcOf (g : Group) (h : Hit) (r : TrapRec) (ms : List Nat) (a hd : Addr) {l : Nat} (hl : l ∈ lanesOf h.lanes) :
    (g.enterHandler h r ms a hd).pcOf l = hd := by
  have hpc : (g.enterHandler h r ms a hd).pc = (g.setPcs h.lanes hd).pc := passResume_pc _ _ _
  unfold Group.pcOf
  rw [hpc]
  exact (Group.pcOf_setPcs g h.lanes hd l).trans (if_pos hl)

/-- ecause has CODE, SCOPE, the deferred bit and CAUSE in the fields of Table 18.1. -/
theorem ecauseOf_fields (k : TrapKind) (code : BitVec 16) (sc : TrapScope) :
    ecauseOf k code false sc = (code ++ (0#5 ++ BitVec.ofNat 2 sc.code ++ 0#1 ++ BitVec.ofNat 8 k.code) : BitVec 32) := by
  have hlow : (0#5 ++ BitVec.ofNat 2 sc.code ++ 0#1 ++ BitVec.ofNat 8 k.code : BitVec 16).toNat = sc.code * 512 + k.code := by
    cases sc <;> cases k <;> rfl
  have hlt := (0#5 ++ BitVec.ofNat 2 sc.code ++ 0#1 ++ BitVec.ofNat 8 k.code : BitVec 16).isLt
  apply BitVec.eq_of_toNat_eq
  rw [BitVec.toNat_append, ← Nat.shiftLeft_add_eq_or_of_lt hlt, hlow, Nat.shiftLeft_eq]
  rw [hlow] at hlt
  unfold ecauseOf
  rw [BitVec.toNat_ofNat]
  simp only [Bool.false_eq_true, if_false]
  omega

/-- With its line in the instruction cache and its slot a target, an address passes the check of R29. -/
theorem checkTarget_of_atHand {s : State} {n : Node} {core : Nat} {a : Addr} (h : AtHand s n core a) (who : Requester) :
    s.checkTarget n core who a = .ok s := by
  obtain ⟨hslot, l, hl, hbad, ht⟩ := h
  unfold State.checkTarget State.fetchLine
  rw [if_neg (by omega), hl]
  simp [hbad, ht]

/-- A group of the team that a state holds. -/
theorem groupAt_of_team? {s : State} {t : Nat} {x : Team} (h : s.team? t = some x) (g : Nat) : groupAt s t g = x.groups[g]? := by
  unfold groupAt; rw [h]; rfl

/-- What a trap hits in a member of the context. -/
def hitOf (x : Ctx) (lanes : Member → LaneMask) (m : Member) : Hit := ⟨m.g, x.hitQuads m, lanes m⟩

/-- A member group in handler mode. -/
def entered (x : Ctx) (r : TrapRec) (lanes : Member → LaneMask) (m : Member) (g : Group) : Group :=
  g.enterHandler (hitOf x lanes m) r (x.members.map (fun m => m.g)) x.addr x.node.desc.handler

/-- One member group enters handler mode, and its side-log entries have passed the resume point there. -/
def enterOne (x : Ctx) (r : TrapRec) (lanes : Member → LaneMask) (s : State) (m : Member) : State :=
  (s.modGroup x.team.id m.g (entered x r lanes m)).passSide x.team.id m.g (lanes m)

/-- A send of a member group. -/
def memberSend (x : Ctx) (y : Send) : Bool := decide (y.team = x.team.id) && x.members.any (fun m => decide (m.g = y.group))

/-- The members in handler mode: their walks and their sends that have not retired are dropped, and they are marked issued. -/
def inHandler (x : Ctx) (r : TrapRec) (lanes : Member → LaneMask) (s : State) : State :=
  x.members.foldl (enterOne x r lanes) (((s.dropCtxWalks x).markIssued x x.wide x.wide).dropSends (memberSend x))

/-- A trap whose handler can be entered takes its members there (R343). -/
theorem trapCtx_of_canEnter {s : State} {x : Ctx} (hteam : s.team? x.team.id = some x.team) (henter : CanEnter x s) (r : TrapRec)
    (lanes : Member → LaneMask) : s.trapCtx x r lanes = inHandler x r lanes s := by
  obtain ⟨hhandler, hat, hfree⟩ := henter
  have hout : ¬ (x.node.desc.handler = 0#64 ∨ ((x.members.map (hitOf x lanes)).any (fun h => match x.team.groups[h.g]? with
      | some g => g.trap.isSome
      | none => false)) = true) := by
    rintro (h | h)
    · exact hhandler h
    · obtain ⟨_, hmem, ht⟩ := List.any_eq_true.1 h
      obtain ⟨m, hm, rfl⟩ := List.mem_map.1 hmem
      obtain ⟨gr, hg, htrap⟩ := hfree m hm
      rw [groupAt_of_team? hteam] at hg
      simp [hitOf, hg, htrap] at ht
  unfold State.trapCtx State.takeTrap State.meetHandler
  rw [hteam, Option.getD_some]
  refine (if_neg hout).trans ?_
  simp only [checkTarget_of_atHand hat, List.foldl_map, List.map_map, List.any_map]
  rfl

theorem inHandler_mem (s : State) (x : Ctx) (r : TrapRec) (lanes : Member → LaneMask) : (inHandler x r lanes s).mem = s.mem := by
  unfold inHandler
  rw [foldl_keeps (f := enterOne x r lanes) State.mem (fun _ _ => rfl), dropSends_mem, markIssued_mem]
  rfl

/-- Each member group is in handler mode, once. -/
theorem groupAt_inHandler (s : State) (x : Ctx) (r : TrapRec) (lanes : Member → LaneMask)
    (hnodup : (x.members.map (fun m => m.g)).Nodup) {m : Member} (hm : m ∈ x.members) :
    groupAt (inHandler x r lanes s) x.team.id m.g =
      (groupAt s x.team.id m.g).map (fun g => entered x r lanes m (g.issued m x.wide x.wide)) := by
  have hstep (u : State) (m : Member) (g : Nat) : groupAt (enterOne x r lanes u m) x.team.id g =
      if g = m.g then (groupAt u x.team.id g).map (entered x r lanes m) else groupAt u x.team.id g :=
    (groupAt_passSide ..).trans (groupAt_modGroup ..)
  have hwalks : groupAt (s.dropCtxWalks x) x.team.id m.g = groupAt s x.team.id m.g := groupAt_congr rfl _ _
  unfold inHandler
  rw [groupAt_foldl_of_mem (key := fun m : Member => m.g) hstep _ _ hnodup hm, groupAt_dropSends,
    groupAt_markIssued _ _ _ _ hnodup hm, hwalks, Option.map_map]
  rfl

/-- A trap whose handler can be entered takes its members into handler mode (R341 to R345): each member group has the trap
registers of Tables 18.1 and 18.2, and the lanes for which it was raised stand at HANDLER. -/
theorem traps_of_trapCtx {i : Instr} {s s1 : State} {x : Ctx} {r : TrapRec} {lanes : Member → LaneMask}
    (hexec : exec i s = .next (s1.trapCtx x r lanes)) (hmem : s1.mem = s.mem)
    (hloops : ∀ m ∈ x.members, (groupAt s1 x.team.id m.g).map (fun g => g.loops) = (groupAt s x.team.id m.g).map (fun g => g.loops))
    (hnodup : (x.members.map (fun m => m.g)).Nodup) (hteam : s1.team? x.team.id = some x.team) (henter : CanEnter x s1)
    (hlanes : ∀ m ∈ x.members, ∀ l ∈ lanesOf (hitLanes m), l ∈ lanesOf (lanes m)) (hscope : r.scope = x.scope)
    (hnow : r.deferred = false) : Traps i s x r.kind r.eaddr r.code (trapEpc r.kind x.addr) := by
  rw [trapCtx_of_canEnter hteam henter] at hexec
  refine ⟨_, hexec, fun a => ?_, fun m hm => ?_⟩
  · unfold State.byte
    rw [inHandler_mem, hmem]
  · obtain ⟨gr, hgr, -⟩ := henter.2.2 m hm
    have hafter := groupAt_inHandler s1 x r lanes hnodup hm
    have hkept := hloops m hm
    rw [hgr, Option.map_some] at hafter hkept
    refine ⟨_, _, hafter, enterHandler_trap .., ?_, rfl, rfl, hscope, enterHandler_loops .., ?_, fun l hl => ?_⟩
    · rw [← hscope, ← ecauseOf_fields, ← hnow]
    · rw [← hkept]; exact issued_loops ..
    · exact enterHandler_pcOf _ _ _ _ _ _ (hlanes m hm l hl)

/-! ### Lane masks -/

theorem getLsbD_lane {j : Nat} (hj : j < 32) (l : Nat) : (1#32 <<< l).getLsbD j = decide (j = l) := by
  rw [BitVec.getLsbD_shiftLeft, BitVec.getLsbD_one]
  by_cases h : j = l <;> simp [h] <;> omega

theorem getLsbD_foldl_lanes (p : Nat → Bool) {j : Nat} (hj : j < 32) (ls : List Nat) (m : LaneMask) :
    (ls.foldl (fun m l => if p l then m ||| (1#32 <<< l) else m) m).getLsbD j = (m.getLsbD j || (decide (j ∈ ls) && p j)) := by
  induction ls generalizing m with
  | nil => simp
  | cons l ls ih =>
    rw [List.foldl_cons, ih]
    by_cases hl : j = l
    · subst hl
      cases p j <;> simp [getLsbD_lane hj]
    · cases p l <;> simp [hl, getLsbD_lane hj]

/-- Bit `l` of a mask is its condition at lane `l`. -/
theorem getLsbD_maskOf (p : Nat → Bool) {l : Nat} (hl : l < 32) : (maskOf p).getLsbD l = p l := by
  unfold maskOf
  rw [getLsbD_foldl_lanes p hl]
  simp [laneList, hl]

theorem mem_lanesOf {m : LaneMask} {l : Nat} : l ∈ lanesOf m ↔ l < 32 ∧ m.getLsbD l = true := by
  simp [lanesOf, laneList]

/-- The lanes whose guard is true are among those that stand at the instruction. -/
theorem lanesOf_guardMask_subset (gr : Machine.Group) (c : Common) (m : LaneMask) {l : Nat} (h : l ∈ lanesOf (gr.guardMask c m)) :
    l ∈ lanesOf m := by
  rw [mem_lanesOf] at h ⊢
  obtain ⟨hl, hp⟩ := h
  rw [Machine.Group.guardMask, getLsbD_maskOf _ hl, Bool.and_eq_true] at hp
  exact ⟨hl, hp.1⟩

/-! ### Traps of decode (R56, steps 4 and 5) -/

theorem stand_act {s : State} {c : Common} {t g k : Nat} {d : Stand} (h : s.stand c t g k = some d) :
    d.act = d.gr.guardMask c d.at_ := by
  unfold State.stand at h
  grind

/-- The record of a trap that decode raises at a strand. -/
def decodeRec (c : Common) (kd : TrapKind) : TrapRec :=
  { kind := kd, eaddr := 0, code := 0, deferred := false, scope := trapScopeOf c.scope }

section Decode

variable {s : State} {c : Common} {t g k : Nat} {d : Stand} {md : Mode} {static : Node → Option TrapKind}
  {undef : Team → Node → Machine.Group → Nat → LaneMask → Bool} {body : Ctx → State → Res} {form : Node → Parcel → State → FormRes}
  (hup : s.halted = false) (hcur : s.cur = .strand t g k) (hd : s.stand c t g k = some d)
  (hscope : badScope d.node d.team d.gr c.scope g = false)
include hup hcur hd hscope

/-- Fields that the node does not allow trap at the strand that decodes them (R49, R57). -/
theorem issue_of_static {kd : TrapKind} (hs : static d.node = some kd) :
    issue c md static undef body form s = .next (s.trapCtx (d.own c g) (decodeRec c kd) (fun m => m.at_)) := by
  unfold issue issueStrand
  simp only [hup, hcur, hd, hscope, hs, Bool.false_eq_true, if_false]
  rfl

/-- A read of an undefined value raises IllegalOperand at the strand that decodes it (R101, R105). -/
theorem issue_of_undef (hs : static d.node = none) (hu : undef d.team d.node d.gr g d.act = true) :
    issue c md static undef body form s = .next (s.trapCtx (d.own c g) (decodeRec c .illegalOperand) (fun m => m.at_)) := by
  unfold issue issueStrand
  simp only [hup, hcur, hd, hscope, hs, hu, Bool.false_eq_true, if_false, or_true, if_true]
  rfl

omit hup hcur hscope in
/-- A trap of decode takes the group of its strand into handler mode. -/
theorem traps_of_decode {i : Instr} {kd : TrapKind}
    (hexec : exec i s = .next (s.trapCtx (d.own c g) (decodeRec c kd) (fun m => m.at_))) (henter : CanEnter (d.own c g) s) :
    Traps i s (d.own c g) kd 0 0 (trapEpc kd d.addr) := by
  have hteam : s.team? d.team.id = some d.team := by
    rw [State.stand_id hd]; exact (State.stand_spec hd).1
  refine traps_of_trapCtx (r := decodeRec c kd) hexec rfl (fun _ _ => rfl) (by simp [Stand.own]) hteam henter
    (fun m hm l hl => ?_) rfl rfl
  obtain rfl : m = { g := g, pos := 0, at_ := d.at_, act := d.act, quads := d.st.quads } := by simpa [Stand.own] using hm
  unfold hitLanes at hl
  split at hl
  · exact hl
  · rw [stand_act hd] at hl
    exact lanesOf_guardMask_subset _ _ _ hl

/-- A vector instruction with an illegal field traps at decode. -/
theorem traps_of_vop_static {i : Instr} {o : VOp} {kd : TrapKind} (hexec : exec i s = o.exec s) (hc : o.c = c)
    (hs : o.static d.node = some kd) (henter : CanEnter (d.own c g) s) : Traps i s (d.own c g) kd 0 0 (trapEpc kd d.addr) := by
  subst hc
  exact traps_of_decode hd (hexec.trans (issue_of_static hup hcur hd hscope hs)) henter

/-- A vector instruction that reads an undefined value traps at decode. -/
theorem traps_of_vop_undef {i : Instr} {o : VOp} (hexec : exec i s = o.exec s) (hc : o.c = c) (hs : o.static d.node = none)
    (hu : o.undef d.team d.gr d.act = true) (henter : CanEnter (d.own c g) s) :
    Traps i s (d.own c g) .illegalOperand 0 0 d.addr := by
  subst hc
  exact traps_of_decode hd (hexec.trans (issue_of_undef hup hcur hd hscope hs hu)) henter

end Decode

/-! ### Vector instructions of a table -/

theorem results_eq_laneResults (o : VOp) (x : Ctx) (s : State) : o.results x s = laneResults o x s := by
  unfold VOp.results laneResults
  cases o.cross <;> rfl

/-- A table whose instructions run as it says is delivered. -/
theorem delivers_of_exec {table : Instr → Option VOp} (h : ∀ i o s, table i = some o → exec i s = o.exec s) : Delivers table := by
  intro i o ho _ s d x s1 hi hr
  obtain ⟨s', hs', hstill⟩ := VOp.exec_delivered hi hr
  rw [← h i o s ho] at hs'
  rw [results_eq_laneResults] at hstill
  exact Completes.of_still hs' hstill

/-! ### Moves (R130 to R132) -/

theorem moveFn_eq_takeFn : moveFn = takeFn := by
  funext e xs
  match xs with
  | [] | [_] | _ :: _ :: _ => rfl

theorem selFn_eq_pickFn : selFn = pickFn := by
  funext e xs
  match xs with
  | [k, a, b] => simp only [selFn, pickFn, ite_not]
  | [] | [_] | [_, _] | _ :: _ :: _ :: _ :: _ => rfl

theorem intVal_toNat (x : BitVec 32) : intVal true 32 x.toNat = x.toInt := by
  have hx := x.isLt
  rw [BitVec.toInt_eq_toNat_cond]
  unfold intVal
  simp only [true_and]
  split <;> split <;> omega

/-- `movi` sign-extends its immediate to i64 and zero-extends it to any other type (R131). -/
theorem moviVal_eq (f : FmtI) : moviVal f = if f.ty = .i64 then (f.imm.signExtend 64).toNat else f.imm.toNat := by
  unfold moviVal
  split
  · rename_i h
    rw [if_pos h, intVal_toNat, intBits, BitVec.signExtend, BitVec.toNat_ofInt]
  · rename_i h
    rw [if_neg h]

theorem exec_moveOp {i : Instr} {o : VOp} (s : State) (h : moveOp i = some o) : exec i s = o.exec s := by
  unfold moveOp at h
  split at h
  · cases h; rw [← moveFn_eq_takeFn]; rfl
  · cases h; rw [← moveFn_eq_takeFn, ← moviVal_eq]; rfl
  · cases h; rw [← selFn_eq_pickFn]; rfl
  · cases h

/-- A `sel` whose predicate is undefined in an active lane reads an undefined value. -/
theorem undef_of_sel {c : Common} {f : FmtV} {o : VOp} (ho : moveOp (.sel c f) = some o) {t : Team}
    {gr : Machine.Group} {m : LaneMask} {l : Nat} (hl : l ∈ lanesOf m) (hdef : gr.predDef (f.sub.toNat % 8) l = false) :
    o.undef t gr m = true := by
  cases ho
  have hm : m ≠ 0#32 := by rintro rfl; simp [mem_lanesOf] at hl
  have hk : (lanesOf m).any (fun l => !gr.predDef (f.sub.toNat % 8) l) = true := List.any_eq_true.2 ⟨l, hl, by rw [hdef]; rfl⟩
  simp [VOp.undef, vop, Src.undef, hm, hk]

theorem selUndefined : SelUndefined := by
  intro c f o s t g k d _ ho hup hcur hd hscope hs ⟨l, hl, hdef⟩ henter
  have hc : o.c = c := by cases ho; rfl
  exact traps_of_vop_undef hup hcur hd hscope (exec_moveOp s ho) hc hs (undef_of_sel ho hl hdef) henter

/-- Settles O13: the table's operations are those of the model, and a read of an undefined predicate traps at decode. -/
theorem moves : Obligations.Moves :=
  ⟨delivers_of_exec (fun _ _ s h => exec_moveOp s h), selUndefined⟩

/-! ### Index registers (R136)

A `shfl` at i64 with an odd SRCB, whose destination is indirect by an index register of limit 0. -/

/-- CAUSE of ecause is the trap's kind (Table 18.1). -/
theorem setWidth_ecause (code : BitVec 16) (sc : BitVec 2) (k : BitVec 8) :
    (code ++ (0#5 ++ sc ++ 0#1 ++ k) : BitVec 32).setWidth 8 = k := by
  rw [BitVec.setWidth_append, dif_pos (by decide), BitVec.setWidth_append, dif_pos (by decide), BitVec.setWidth_eq]

/-- An instruction raises one kind of trap in a group. -/
theorem traps_kind_eq {i : Instr} {s : State} {x y : Ctx} {k k' : TrapKind} {e e' : DWord} {code code' : BitVec 16} {p p' : Addr}
    (h : Traps i s x k e code p) (h' : Traps i s y k' e' code' p') (hteam : x.team.id = y.team.id) {m m' : Member}
    (hm : m ∈ x.members) (hm' : m' ∈ y.members) (hg : m.g = m'.g) : BitVec.ofNat 8 k.code = BitVec.ofNat 8 k'.code := by
  obtain ⟨u, hu, -, hx⟩ := h
  obtain ⟨u', hu', -, hy⟩ := h'
  obtain rfl : u = u' := by rw [hu] at hu'; injection hu'
  obtain ⟨gr, r, hgr, hr, hc, -⟩ := hx m hm
  obtain ⟨gr', r', hgr', hr', hc', -⟩ := hy m' hm'
  rw [hteam, hg, hgr'] at hgr
  obtain rfl : gr' = gr := by injection hgr
  obtain rfl : r' = r := by rw [hr'] at hr; injection hr
  rw [hc'] at hc
  have := congrArg (BitVec.setWidth 8) hc
  rw [setWidth_ecause, setWidth_ecause] at this
  exact this.symm

/-- One placed team whose node has a handler, with strand 0 of its group 0 about to issue and every index register zero. -/
def shflState : State :=
  { (State.reset.boot 0#96).modNode 0 (fun n => { n with desc := { n.desc with handler := 0x10000 } }) with cur := .strand 1 0 0 }

/-- `shfl.idx.g x1[4], v2, v3, 0` at i64. -/
def shflFields : FmtV := { plainV with dst := 4, a := 2, b := 3, c := 1536, isel := .dst, ireg := 1, ty := .i64 }

theorem shflState_stands : (shflState.stand (writes .group) 1 0 0).isSome = true := by decide +kernel

/-- Where its strand stands. -/
def shflStand : Stand := (shflState.stand (writes .group) 1 0 0).get shflState_stands

theorem shflState_stand : shflState.stand (writes .group) 1 0 0 = some shflStand := (Option.some_get _).symm

theorem shflState_meets : (shflState.meet (writes .group) 1 0 0 shflStand).1.isSome = true := by decide +kernel

/-- The members that have met for a group-scope instruction, and the state with the arrival noted. -/
def shflCtx : Ctx := (shflState.meet (writes .group) 1 0 0 shflStand).1.get shflState_meets
def shflMet : State := (shflState.meet (writes .group) 1 0 0 shflStand).2

/-- A group-scope instruction issues there. -/
theorem shfl_issues : Issues shflState (writes .group) false shflStand shflCtx shflMet where
  up := by decide +kernel
  stands := ⟨1, 0, 0, rfl, shflState_stand, by decide +kernel, by decide +kernel, Prod.ext (Option.some_get _).symm rfl⟩
  active := by decide +kernel

/-- A context whose handler's line is in the instruction cache, with every member in no trap, can enter the handler. -/
theorem canEnter_of_any {x : Ctx} {s : State} (hh : x.node.desc.handler ≠ 0#64) (hslot : slotOf x.node.desc.handler < 5)
    (hline : (Tbl.find? (s.core x.team.core).icache (lineKey x.node x.node.desc.handler)).any
      (fun l => decide (l.bad = false ∧ lineTarget l.line (slotOf x.node.desc.handler) = true)) = true)
    (hfree : ∀ m ∈ x.members, (groupAt s x.team.id m.g).any (fun gr => gr.trap.isNone) = true) : CanEnter x s := by
  obtain ⟨l, hl, hok⟩ := (Option.any_eq_true _ _).1 hline
  refine ⟨hh, ⟨hslot, l, hl, of_decide_eq_true hok⟩, fun m hm => ?_⟩
  obtain ⟨gr, hgr, ht⟩ := (Option.any_eq_true _ _).1 (hfree m hm)
  exact ⟨gr, hgr, Option.isNone_iff_eq_none.1 ht⟩

/-- The operands that `exchangeOp` gives the instruction. -/
def shflOp : VOp := (exchangeOp (.shfl (writes .group) shflFields)).get rfl

/-- SRCB of a 64-bit `shfl` is v3, an odd register: IllegalOperand at decode (R129), before any use of x1. -/
theorem shfl_decode_traps :
    Traps (.shfl (writes .group) shflFields) shflState (shflStand.own (writes .group) 0) .illegalOperand 0 0 shflStand.addr := by
  refine traps_of_vop_static ?_ (rfl : shflState.cur = .strand 1 0 0) shflState_stand ?_ rfl rfl ?_
    (canEnter_of_any (by decide +kernel) (by decide +kernel) (by decide +kernel) (by decide +kernel)) <;> decide +kernel

/-- RegIndex does not come first: the odd SRCB traps at decode, and an instruction raises one kind of trap in a group. -/
theorem not_limitZero : ¬ LimitZero := by
  intro h
  have htraps := h (.shfl (writes .group) shflFields) shflOp shflState shflStand shflCtx shflMet rfl (by decide +kernel) shfl_issues
    (by decide +kernel) (by decide +kernel) (.inl rfl) (by decide +kernel)
    (canEnter_of_any (by decide +kernel) (by decide +kernel) (by decide +kernel) (by decide +kernel))
  obtain ⟨m, hm, hg⟩ : ∃ m ∈ shflCtx.members, m.g = 0 := by decide +kernel
  have hkind := traps_kind_eq htraps shfl_decode_traps (by decide +kernel) hm (List.mem_singleton.2 rfl) hg
  exact absurd hkind (by decide)

/-- Refutes O18 in its third part, a limit of 0: `shfl` at i64 with SRCB v3 and an indirect destination raises IllegalOperand, because
a 64-bit type needs even registers (R129) and decode comes first (R56). The table's SRCB of `shfl` is one word without that rule,
so the statement takes the fields as legal and asks for RegIndex. -/
theorem not_indexRegisters : ¬ Obligations.IndexRegisters := fun ⟨_, _, h⟩ => not_limitZero h

end Sys2Proof.Claims

namespace Sys2Proof.Claims

open Sys2Proof Sys2Proof.Machine

/-! ### Integers of a type (R143, R159)

The model keeps a pattern as a natural number; the rules speak of words of the type's width. -/

theorem tyBits_pos (ty : ElemTy) : 0 < tyBits ty := by
  cases ty <;> decide

/-- The half of a type's range. -/
theorem two_pow_tyBits (ty : ElemTy) : (2 : Int) ^ tyBits ty = 2 * 2 ^ (tyBits ty - 1) := by
  rw [← pow_succ', Nat.sub_add_cancel (tyBits_pos ty)]

theorem intVal_unsigned (w c : Nat) : intVal false w c = ((BitVec.ofNat w c).toNat : Int) := by
  simp [intVal, BitVec.toNat_ofNat]

theorem intVal_signed {w : Nat} (hw : 0 < w) (c : Nat) : intVal true w c = (BitVec.ofNat w c).toInt := by
  have hhalf : 2 ^ w = 2 * 2 ^ (w - 1) := by rw [← pow_succ', Nat.sub_add_cancel hw]
  rw [BitVec.toInt_eq_toNat_cond, BitVec.toNat_ofNat, Nat.cast_pow, Nat.cast_ofNat]
  unfold intVal
  simp only [true_and]
  split <;> split <;> omega

theorem asInt_eq_tyInt (ty : ElemTy) (v : Nat) : asInt ty v = tyInt ty v := by
  unfold asInt tyInt
  cases tySigned ty
  · exact (intVal_unsigned _ v).symm
  · exact (intVal_signed (tyBits_pos ty) v).symm

theorem lowest_eq_intMin (ty : ElemTy) : lowest ty = intMin (tySigned ty) (tyBits ty) := by
  simp [lowest, intMin]

theorem highest_eq_intMax (ty : ElemTy) : highest ty = intMax (tySigned ty) (tyBits ty) := by
  simp [highest, intMax]

theorem lowest_le_highest (ty : ElemTy) : lowest ty ≤ highest ty := by
  have hhalf : (0 : Int) < 2 ^ (tyBits ty - 1) := by positivity
  have hfull : (0 : Int) < 2 ^ tyBits ty := by positivity
  unfold lowest highest
  split <;> omega

theorem clamp_eq_clampInt (ty : ElemTy) (t : Int) :
    max (lowest ty) (min (highest ty) t) = clampInt (tySigned ty) (tyBits ty) t := by
  have hle := lowest_le_highest ty
  unfold clampInt
  rw [← lowest_eq_intMin, ← highest_eq_intMax]
  split
  · omega
  · split <;> omega

theorem toNat_ofInt_eq_intBits (w : Nat) (t : Int) : (BitVec.ofInt w t).toNat = intBits w t := BitVec.toNat_ofInt t

theorem reduced_eq_tyReduce (ty : ElemTy) (sat : Bool) (t : Int) : reduced ty sat t = tyReduce ty sat t := by
  unfold reduced tyReduce
  rw [toNat_ofInt_eq_intBits, clamp_eq_clampInt]

theorem ints1_eq_intFn1 (ty : ElemTy) (sat : Bool) (g : Int → Int) : ints1 ty sat g = intFn1 ty sat g := by
  funext e xs
  match xs with
  | [a] => simp only [ints1, intFn1, reduced_eq_tyReduce, asInt_eq_tyInt]
  | [] | _ :: _ :: _ => rfl

theorem ints2_eq_intFn2 (ty : ElemTy) (sat : Bool) (g : Int → Int → Int) : ints2 ty sat g = intFn2 ty sat g := by
  funext e xs
  match xs with
  | [a, b] => simp only [ints2, intFn2, reduced_eq_tyReduce, asInt_eq_tyInt]
  | [] | [_] | _ :: _ :: _ :: _ => rfl

theorem ints3_eq_intFn3 (ty : ElemTy) (sat : Bool) (g : Int → Int → Int → Int) : ints3 ty sat g = intFn3 ty sat g := by
  funext e xs
  match xs with
  | [a, b, c] => simp only [ints3, intFn3, reduced_eq_tyReduce, asInt_eq_tyInt]
  | [] | [_] | [_, _] | _ :: _ :: _ :: _ :: _ => rfl

/-! The exact results that the model writes in its own way (R159, R160). -/

theorem highProduct_eq (ty : ElemTy) (a b : Int) : highProduct ty a b = a * b / (2 ^ tyBits ty : Nat) := by
  rw [highProduct, Nat.cast_pow, Nat.cast_ofNat]

theorem smaller_eq_min (a b : Int) : (if b < a then b else a) = min a b := by
  split <;> omega

theorem larger_eq_max (a b : Int) : (if a < b then b else a) = max a b := by
  split <;> omega

theorem absolute_eq_natAbs (a : Int) : (if a < 0 then -a else a) = a.natAbs := by
  split <;> omega

/-! ### Types of one width, and the most negative value (R159, R160) -/

theorem reduced_wraps (ty : ElemTy) (t : Int) : reduced ty false t = (t % 2 ^ tyBits ty).toNat := by
  simp [reduced, BitVec.toNat_ofInt]

/-- A pattern stands for integers of one residue at every type of its width. -/
theorem asInt_modEq (ty : ElemTy) (v : Nat) : asInt ty v ≡ v [ZMOD 2 ^ tyBits ty] := by
  have hv : (((BitVec.ofNat (tyBits ty) v).toNat : Nat) : Int) ≡ v [ZMOD 2 ^ tyBits ty] := by
    rw [BitVec.toNat_ofNat, Int.natCast_mod, Nat.cast_pow, Nat.cast_ofNat]
    exact Int.mod_modEq _ _
  unfold asInt
  split
  · rw [BitVec.toInt_eq_toNat_bmod]
    have hwrap := Int.bmod_emod (x := (BitVec.ofNat (tyBits ty) v).toNat) (m := 2 ^ tyBits ty)
    rw [Nat.cast_pow, Nat.cast_ofNat] at hwrap
    exact Int.ModEq.trans hwrap hv
  · exact hv

theorem reduced_eq_of_modEq {ty ty' : ElemTy} (hw : tyBits ty = tyBits ty') {t t' : Int} (h : t ≡ t' [ZMOD 2 ^ tyBits ty]) :
    reduced ty false t = reduced ty' false t' := by
  rw [reduced_wraps, reduced_wraps, ← hw, h]

theorem sameBits : SameBits := by
  intro ty ty' a b c hw
  have hsame (v : Nat) : asInt ty v ≡ asInt ty' v [ZMOD 2 ^ tyBits ty] :=
    (asInt_modEq ty v).trans (hw ▸ (asInt_modEq ty' v).symm)
  exact ⟨reduced_eq_of_modEq hw ((hsame a).add (hsame b)), reduced_eq_of_modEq hw ((hsame a).sub (hsame b)),
    reduced_eq_of_modEq hw ((hsame a).mul (hsame b)), reduced_eq_of_modEq hw (((hsame a).mul (hsame b)).add (hsame c))⟩

/-- An integer in the range of a signed type is read back from its pattern. -/
theorem asInt_reduced {ty : ElemTy} (hs : tySigned ty = true) {t : Int} (hlo : lowest ty ≤ t) (hhi : t ≤ highest ty) :
    asInt ty (reduced ty false t) = t := by
  have hfull := two_pow_tyBits ty
  rw [lowest, if_pos hs] at hlo
  rw [highest, if_pos hs] at hhi
  rw [asInt, if_pos hs, reduced, BitVec.ofNat_toNat, BitVec.setWidth_eq, BitVec.toInt_ofInt]
  refine Int.bmod_eq_of_le ?_ ?_ <;> push_cast <;> omega

theorem mostNegative : MostNegative := by
  intro ty hs
  have hle := lowest_le_highest ty
  have hfull := two_pow_tyBits ty
  have hlo : lowest ty = -(2 ^ (tyBits ty - 1)) := if_pos hs
  have hhi : highest ty = 2 ^ (tyBits ty - 1) - 1 := if_pos hs
  have hclamp : reduced ty true (-(lowest ty)) = reduced ty false (highest ty) := by
    unfold reduced
    rw [if_pos rfl, if_neg Bool.false_ne_true, min_eq_left (by omega), max_eq_right hle]
  have hwrap : -(lowest ty) ≡ lowest ty [ZMOD 2 ^ tyBits ty] :=
    Int.modEq_iff_dvd.2 ⟨-1, by omega⟩
  rw [hclamp, reduced_eq_of_modEq rfl hwrap]
  exact ⟨asInt_reduced hs hle le_rfl, asInt_reduced hs le_rfl hle⟩

/-! ### Operations on bits (R161 to R163)

Each operation on a word of w bits has the value of the model's operation on natural numbers, reduced to w bits. -/

theorem bits1_eq_bitFn1 {ty : ElemTy} {g : BitVec (tyBits ty) → BitVec (tyBits ty)} {f : Nat → Nat → Nat}
    (h : ∀ x, (g x).toNat = f (tyBits ty) x.toNat % 2 ^ tyBits ty) : bits1 ty g = bitFn1 ty f := by
  funext e xs
  match xs with
  | [a] => simp only [bits1, bitFn1, h, BitVec.toNat_ofNat]
  | [] | _ :: _ :: _ => rfl

theorem bits2_eq_bitFn2 {ty : ElemTy} {g : BitVec (tyBits ty) → BitVec (tyBits ty) → BitVec (tyBits ty)} {f : Nat → Nat → Nat → Nat}
    (h : ∀ x b, (g x (BitVec.ofNat _ b)).toNat = f (tyBits ty) x.toNat b % 2 ^ tyBits ty) : bits2 ty g = bitFn2 ty f := by
  funext e xs
  match xs with
  | [a, b] => simp only [bits2, bitFn2, h, BitVec.toNat_ofNat]
  | [] | [_] | _ :: _ :: _ :: _ => rfl

theorem bitsN_eq_bitFn2 {ty : ElemTy} {g : BitVec (tyBits ty) → BitVec 32 → BitVec (tyBits ty)} {f : Nat → Nat → Nat → Nat}
    (h : ∀ x b, (g x (BitVec.ofNat 32 b)).toNat = f (tyBits ty) x.toNat b % 2 ^ tyBits ty) : bitsN ty g = bitFn2 ty f := by
  funext e xs
  match xs with
  | [a, b] => simp only [bitsN, bitFn2, h, BitVec.toNat_ofNat]
  | [] | [_] | _ :: _ :: _ :: _ => rfl

theorem bitsNC_eq_bitFn3 {ty : ElemTy} {g : BitVec (tyBits ty) → BitVec 32 → BitVec (tyBits ty) → BitVec (tyBits ty)}
    {f : Nat → Nat → Nat → Nat → Nat}
    (h : ∀ x b c, (g x (BitVec.ofNat 32 b) (BitVec.ofNat _ c)).toNat = f (tyBits ty) x.toNat b c % 2 ^ tyBits ty) :
    bitsNC ty g = bitFn3 ty f := by
  funext e xs
  match xs with
  | [a, b, c] => simp only [bitsNC, bitFn3, h, BitVec.toNat_ofNat]
  | [] | [_] | [_, _] | _ :: _ :: _ :: _ :: _ => rfl

theorem bitsBN_eq_bitFn3 {ty : ElemTy} {g : BitVec (tyBits ty) → BitVec (tyBits ty) → BitVec 32 → BitVec (tyBits ty)}
    {f : Nat → Nat → Nat → Nat → Nat}
    (h : ∀ x b c, (g x (BitVec.ofNat _ b) (BitVec.ofNat 32 c)).toNat = f (tyBits ty) x.toNat b c % 2 ^ tyBits ty) :
    bitsBN ty g = bitFn3 ty f := by
  funext e xs
  match xs with
  | [a, b, c] => simp only [bitsBN, bitFn3, h, BitVec.toNat_ofNat]
  | [] | [_] | [_, _] | _ :: _ :: _ :: _ :: _ => rfl

/-! Bitwise operations and shifts. -/

section Shifts

variable {w : Nat} (x : BitVec w) (b : Nat)

theorem toNat_and_ofNat : (x &&& BitVec.ofNat w b).toNat = bAnd w x.toNat b % 2 ^ w := by
  rw [bAnd, Nat.and_mod_two_pow, Nat.mod_eq_of_lt x.isLt, BitVec.toNat_and, BitVec.toNat_ofNat]

theorem toNat_or_ofNat : (x ||| BitVec.ofNat w b).toNat = bOr w x.toNat b % 2 ^ w := by
  rw [bOr, Nat.or_mod_two_pow, Nat.mod_eq_of_lt x.isLt, BitVec.toNat_or, BitVec.toNat_ofNat]

theorem toNat_xor_ofNat : (x ^^^ BitVec.ofNat w b).toNat = bXor w x.toNat b % 2 ^ w := by
  rw [bXor, Nat.xor_mod_two_pow, Nat.mod_eq_of_lt x.isLt, BitVec.toNat_xor, BitVec.toNat_ofNat]

theorem toNat_complement : (~~~x).toNat = bNot w x.toNat % 2 ^ w := by
  rw [bNot, Nat.mod_eq_of_lt x.isLt, ← BitVec.toNat_not, Nat.mod_eq_of_lt (~~~x).isLt]

theorem toNat_shlBits : (shlBits x (BitVec.ofNat 32 b)).toNat = bShl w x.toNat b % 2 ^ w := by
  unfold shlBits bShl
  rw [BitVec.toNat_shiftLeft, BitVec.toNat_ofNat, Nat.shiftLeft_eq]
  dsimp only
  split
  · next hn => rw [Nat.zero_mod, Nat.mod_eq_zero_of_dvd ((pow_dvd_pow 2 hn).mul_left _)]
  · rfl

theorem toNat_shrBits : (shrBits x (BitVec.ofNat 32 b)).toNat = bShr w x.toNat b % 2 ^ w := by
  unfold shrBits bShr
  rw [BitVec.toNat_ushiftRight, BitVec.toNat_ofNat, Nat.shiftRight_eq_div_pow]
  dsimp only
  split
  · next hn => rw [Nat.zero_mod, Nat.div_eq_of_lt (x.isLt.trans_le (Nat.pow_le_pow_right Nat.two_pos hn))]
  · rw [Nat.mod_eq_of_lt ((Nat.div_le_self _ _).trans_lt x.isLt)]

/-- The bits that an arithmetic shift of a negative word lets in are ones. -/
theorem ones_sub_div {n a : Nat} (hn : n ≤ w) (ha : a < 2 ^ w) :
    2 ^ w - 1 - (2 ^ w - 1 - a) / 2 ^ n = a / 2 ^ n + (2 ^ w - 2 ^ (w - n)) := by
  have hsplit : 2 ^ w = 2 ^ n * 2 ^ (w - n) := by rw [← pow_add, Nat.add_sub_cancel' hn]
  have hq : a / 2 ^ n < 2 ^ (w - n) := Nat.div_lt_of_lt_mul (hsplit ▸ ha)
  have hle : 2 ^ (w - n) ≤ 2 ^ w := Nat.pow_le_pow_right Nat.two_pos (Nat.sub_le w n)
  have hdiv := Nat.mul_sub_div a (2 ^ n) (2 ^ (w - n)) (hsplit ▸ ha)
  rw [← hsplit] at hdiv
  rw [Nat.sub_sub (2 ^ w) 1 a, Nat.add_comm 1 a, hdiv]
  generalize a / 2 ^ n = q at hq ⊢
  omega

theorem toNat_sarBits : (sarBits x (BitVec.ofNat 32 b)).toNat = bSar w x.toNat b % 2 ^ w := by
  rw [← Nat.mod_eq_of_lt (sarBits x (BitVec.ofNat 32 b)).isLt]
  refine congrArg (· % 2 ^ w) ?_
  unfold sarBits bSar
  rw [BitVec.toNat_sshiftRight, BitVec.toNat_ofNat, Nat.mod_eq_of_lt x.isLt, Nat.shiftRight_eq_div_pow,
    Nat.shiftRight_eq_div_pow, BitVec.msb_eq_decide]
  have hover (hn : w ≤ b % 2 ^ 32) {a : Nat} (ha : a < 2 ^ w) : a / 2 ^ (b % 2 ^ 32) = 0 :=
    Nat.div_eq_of_lt (ha.trans_le (Nat.pow_le_pow_right Nat.two_pos hn))
  have hx := x.isLt
  by_cases hn : w ≤ b % 2 ^ 32
  · simp only [hover hn hx, hover hn (show 2 ^ w - 1 - x.toNat < 2 ^ w by omega), hn, if_true, Nat.sub_zero]
  · simp only [ones_sub_div (Nat.le_of_not_le hn) hx, hn, if_false]
    split <;> rfl

theorem toNat_leaBits (c : Nat) :
    (leaBits x (BitVec.ofNat w b) (BitVec.ofNat 32 c)).toNat = bLea w x.toNat b c % 2 ^ w := by
  have hshift := toNat_shlBits (BitVec.ofNat w b) c
  rw [shlBits] at hshift
  rw [leaBits, BitVec.toNat_add, hshift, Nat.add_mod_mod, BitVec.toNat_ofNat]
  rfl

end Shifts

/-! Words written bit by bit. -/

theorem foldl_range_eq_sum (f : Nat → Nat) (w : Nat) :
    (List.range w).foldl (fun n i => n + f i) 0 = ∑ i ∈ Finset.range w, f i := by
  induction w with
  | zero => rfl
  | succ w ih => rw [List.range_succ, List.foldl_append, ih, Finset.sum_range_succ]; rfl

theorem countP_range_eq_sum (p : Nat → Bool) (w : Nat) :
    (List.range w).countP p = ∑ i ∈ Finset.range w, (p i).toNat := by
  induction w with
  | zero => rfl
  | succ w ih =>
    rw [List.range_succ, List.countP_append, ih, Finset.sum_range_succ]
    cases h : p w <;> simp [h]

/-- A number's low bits, each at its weight, are the number reduced. -/
theorem sum_testBit (a w : Nat) : ∑ i ∈ Finset.range w, a / 2 ^ i % 2 * 2 ^ i = a % 2 ^ w := by
  induction w with
  | zero => simp [Nat.mod_one]
  | succ w ih => rw [Finset.sum_range_succ, ih, Nat.mod_pow_succ, Nat.mul_comm]

/-- The two parts of a rotated word share no bit. -/
theorem rotated_parts {w r a : Nat} (hr : r ≤ w) (ha : a < 2 ^ w) :
    a <<< r % 2 ^ w ||| a >>> (w - r) = a * 2 ^ r % 2 ^ w + a / 2 ^ (w - r) := by
  have hsplit : 2 ^ w = 2 ^ (w - r) * 2 ^ r := by rw [← pow_add, Nat.sub_add_cancel hr]
  have hlow : a / 2 ^ (w - r) < 2 ^ r := Nat.div_lt_of_lt_mul (hsplit ▸ ha)
  rw [Nat.shiftLeft_eq, Nat.shiftRight_eq_div_pow, hsplit, Nat.mul_mod_mul_right, Nat.mul_comm (a % _)]
  exact (Nat.two_pow_add_eq_or_of_lt hlow _).symm

theorem bitLen_le {a w : Nat} (h : a < 2 ^ w) : bitLen a ≤ w := by
  unfold bitLen
  split
  · exact Nat.zero_le w
  · next ha => exact (Nat.log2_lt ha).2 h

theorem bitLen_eq {a w : Nat} (hlo : 2 ^ w ≤ a) (hhi : a < 2 ^ (w + 1)) : bitLen a = w + 1 := by
  have ha : a ≠ 0 := (Nat.two_pow_pos w |>.trans_le hlo).ne'
  rw [bitLen, if_neg ha, (Nat.log2_eq_iff ha).2 ⟨hlo, hhi⟩]

/-- The zeros above the highest one of a number below 2^w. -/
theorem length_takeWhile_zeros (w : Nat) {a : Nat} (ha : a < 2 ^ w) :
    ((List.range w).takeWhile (fun i => !a.testBit (w - 1 - i))).length = w - bitLen a := by
  induction w with
  | zero => simp
  | succ w ih =>
    rw [List.range_succ_eq_map, List.takeWhile_cons, Nat.add_sub_cancel, Nat.sub_zero]
    by_cases hlo : 2 ^ w ≤ a
    · have htop : a.testBit w = true := Nat.testBit_of_two_pow_le_and_two_pow_add_one_gt hlo ha
      simp [htop, bitLen_eq hlo ha]
    · have hlt : a < 2 ^ w := Nat.lt_of_not_le hlo
      have hrest : (fun i => !a.testBit (w - i)) ∘ Nat.succ = fun i => !a.testBit (w - 1 - i) := by
        funext i; rw [Function.comp_apply, Nat.succ_eq_add_one, Nat.sub_sub, Nat.add_comm i 1]
      rw [Nat.testBit_lt_two_pow hlt, Bool.not_false, if_pos rfl, List.takeWhile_map, hrest, List.length_cons,
        List.length_map, ih hlt]
      have hlen := bitLen_le hlt
      omega

section Words

variable {w : Nat} (x : BitVec w) (b : Nat)

theorem getLsbD_toNat (i : Nat) : (x.getLsbD i).toNat = x.toNat / 2 ^ i % 2 := Nat.toNat_testBit _ _

theorem toNat_word (p : Nat → Bool) : (word w p).toNat = (∑ i ∈ Finset.range w, (p i).toNat * 2 ^ i) % 2 ^ w := by
  have hterm (i : Nat) : (if p i then 2 ^ i else 0) = (p i).toNat * 2 ^ i := by cases p i <;> simp
  simp only [word, BitVec.toNat_ofNat, hterm, foldl_range_eq_sum]

/-- A word is known by its bits. -/
theorem word_eq_of_getLsbD {p : Nat → Bool} (h : ∀ i < w, p i = x.getLsbD i) : word w p = x := by
  apply BitVec.eq_of_toNat_eq
  rw [toNat_word, Finset.sum_congr rfl (fun i hi => by rw [h i (Finset.mem_range.1 hi), getLsbD_toNat]), sum_testBit,
    Nat.mod_mod, Nat.mod_eq_of_lt x.isLt]

theorem toNat_brevBits : (brevBits x).toNat = bBrev w x.toNat % 2 ^ w := by
  rw [brevBits, toNat_word, bBrev, foldl_range_eq_sum, ← Finset.sum_range_reflect]
  refine congrArg (· % 2 ^ w) (Finset.sum_congr rfl fun i hi => ?_)
  rw [Finset.mem_range] at hi
  rw [getLsbD_toNat, show w - 1 - (w - 1 - i) = i by omega]

theorem toNat_popcBits : (popcBits x).toNat = bPopc w x.toNat % 2 ^ w := by
  simp only [popcBits, bPopc, BitVec.toNat_ofNat, countP_range_eq_sum, foldl_range_eq_sum, getLsbD_toNat]

theorem rotBits_eq_rotateLeft (n : BitVec 32) : rotBits x n = x.rotateLeft n.toNat := by
  refine word_eq_of_getLsbD _ fun i hi => ?_
  have hn : n.toNat % w < w := Nat.mod_lt _ (by omega)
  rw [BitVec.getLsbD_rotateLeft]
  by_cases h : i < n.toNat % w
  · rw [Nat.mod_eq_of_lt (by omega), Nat.add_comm]
    simp [h]
  · rw [show i + (w - n.toNat % w) = i - n.toNat % w + w by omega, Nat.add_mod_right, Nat.mod_eq_of_lt (by omega)]
    simp [h, hi]

theorem toNat_rotBits (hw : 0 < w) : (rotBits x (BitVec.ofNat 32 b)).toNat = bRot w x.toNat b % 2 ^ w := by
  have hr : b % 2 ^ 32 % w ≤ w := (Nat.mod_lt _ hw).le
  rw [← Nat.mod_eq_of_lt (rotBits x (BitVec.ofNat 32 b)).isLt, rotBits_eq_rotateLeft, BitVec.toNat_rotateLeft,
    BitVec.toNat_ofNat, rotated_parts hr x.isLt]
  rfl

theorem toNat_clzBits : (clzBits x).toNat = bClz w x.toNat % 2 ^ w := by
  rw [clzBits, BitVec.toNat_ofNat, bClz, Nat.mod_eq_of_lt x.isLt, ← length_takeWhile_zeros w x.isLt]
  rfl

/-! Bit fields. -/

theorem posOf_ofNat : posOf (BitVec.ofNat 32 b) = b % 256 := by
  rw [posOf, BitVec.extractLsb'_toNat, BitVec.toNat_ofNat]
  omega

theorem lenOf_ofNat : lenOf w (BitVec.ofNat 32 b) = min (b / 256 % 256) w := by
  rw [lenOf, BitVec.extractLsb'_toNat, BitVec.toNat_ofNat, Nat.shiftRight_eq_div_pow]
  omega

theorem toNat_bfiBits (c : Nat) :
    (bfiBits x (BitVec.ofNat 32 b) (BitVec.ofNat w c)).toNat = bBfi w x.toNat b c % 2 ^ w := by
  unfold bBfi
  rw [bfiBits, toNat_word, posOf_ofNat, lenOf_ofNat]
  dsimp only
  rw [foldl_range_eq_sum]
  refine congrArg (· % 2 ^ w) (Finset.sum_congr rfl fun i hi => congrArg (· * 2 ^ i) ?_)
  rw [Finset.mem_range] at hi
  split
  · exact getLsbD_toNat _ _
  · rw [BitVec.getLsbD_ofNat]; simp [hi, Nat.toNat_testBit]

/-- A word taken to another width: an i type's with its sign, an n type's with zeros. -/
def widen (signed : Bool) (v : Nat) : BitVec v := if signed then x.signExtend v else x.setWidth v

theorem getLsbD_widen (signed : Bool) (v i : Nat) : (widen x signed v).getLsbD i =
    (decide (i < v) && if i < w then x.getLsbD i else signed && x.getLsbD (w - 1)) := by
  cases signed
  · rw [widen, if_neg Bool.false_ne_true, BitVec.getLsbD_setWidth, Bool.false_and]
    split
    · rfl
    · next hi => rw [BitVec.getLsbD_of_ge x i (Nat.le_of_not_lt hi)]
  · rw [widen, if_pos rfl, BitVec.getLsbD_signExtend, Bool.true_and, BitVec.msb_eq_getLsbD_last]

theorem toNat_widen (hw : 0 < w) (signed : Bool) (v : Nat) : (widen x signed v).toNat = intBits v (intVal signed w x.toNat) := by
  cases signed
  · rw [widen, if_neg Bool.false_ne_true, intVal_unsigned, BitVec.ofNat_toNat, BitVec.setWidth_eq, BitVec.toNat_setWidth]
    rfl
  · rw [widen, if_pos rfl, intVal_signed hw, BitVec.ofNat_toNat, BitVec.setWidth_eq, BitVec.signExtend, toNat_ofInt_eq_intBits]

/-- The field of `len` bits at `pos` of a word extended beyond its width. -/
def bitField (signed : Bool) (pos len : Nat) : BitVec len := (widen x signed (pos + len)).extractLsb' pos len

theorem getLsbD_bitField (signed : Bool) {pos len i : Nat} (hi : i < len) : (bitField x signed pos len).getLsbD i =
    if pos + i < w then x.getLsbD (pos + i) else signed && x.getLsbD (w - 1) := by
  rw [bitField, BitVec.getLsbD_extractLsb', getLsbD_widen]
  simp [hi]

/-- The bits of an integer from bit p are those of its floor quotient by 2^p. -/
theorem intBits_div_mod (t : Int) (p l : Nat) : intBits (p + l) t / 2 ^ p % 2 ^ l = (t / (2 ^ p : Nat) % (2 ^ l : Nat)).toNat := by
  have hp : ((2 ^ p : Nat) : Int) ≠ 0 := by positivity
  have hl : ((2 ^ l : Nat) : Int) ≠ 0 := by positivity
  have hpl : ((2 ^ (p + l) : Nat) : Int) = (2 ^ p : Nat) * (2 ^ l : Nat) := by rw [pow_add, Nat.cast_mul]
  apply Int.ofNat_inj.1
  rw [Int.toNat_of_nonneg (Int.emod_nonneg _ hl), Int.natCast_mod, Int.natCast_div, intBits,
    Int.toNat_of_nonneg (Int.emod_nonneg _ (hpl ▸ mul_ne_zero hp hl)), hpl, Int.emod_def t, Int.mul_assoc,
    Int.sub_mul_ediv_left _ _ hp, Int.sub_mul_emod_self_left]

theorem toNat_bitField (hw : 0 < w) (signed : Bool) (pos len : Nat) : (bitField x signed pos len).toNat =
    (intVal signed w x.toNat / (2 ^ pos : Nat) % (2 ^ len : Nat)).toNat := by
  rw [bitField, BitVec.extractLsb'_toNat, toNat_widen x hw, Nat.shiftRight_eq_div_pow, intBits_div_mod]

theorem toNat_bfxBits (hw : 0 < w) (signed : Bool) :
    (bfxBits signed x (BitVec.ofNat 32 b)).toNat = bBfx signed w x.toNat b % 2 ^ w := by
  rw [← Nat.mod_eq_of_lt (bfxBits signed x (BitVec.ofNat 32 b)).isLt]
  refine congrArg (· % 2 ^ w) ?_
  unfold bfxBits bBfx
  rw [posOf_ofNat, lenOf_ofNat]
  dsimp only
  split
  · rfl
  · next hlen =>
    rw [← toNat_bitField x hw, ← toNat_widen _ (Nat.pos_of_ne_zero hlen)]
    refine congrArg BitVec.toNat (word_eq_of_getLsbD _ fun i hi => ?_)
    rw [getLsbD_widen, getLsbD_bitField x signed (Nat.sub_one_lt hlen), decide_eq_true hi, Bool.true_and]
    split
    · next hi => rw [getLsbD_bitField x signed hi]
    · rfl

end Words

/-! The lane functions of R161 to R163, of the rules and of the model. -/

section BitFunctions

variable (ty : ElemTy)

theorem bits2_and : bits2 ty (fun a b => a &&& b) = bitFn2 ty bAnd := bits2_eq_bitFn2 toNat_and_ofNat
theorem bits2_or : bits2 ty (fun a b => a ||| b) = bitFn2 ty bOr := bits2_eq_bitFn2 toNat_or_ofNat
theorem bits2_xor : bits2 ty (fun a b => a ^^^ b) = bitFn2 ty bXor := bits2_eq_bitFn2 toNat_xor_ofNat
theorem bits1_not : bits1 ty (fun a => ~~~a) = bitFn1 ty bNot := bits1_eq_bitFn1 toNat_complement
theorem bitsN_shl : bitsN ty shlBits = bitFn2 ty bShl := bitsN_eq_bitFn2 toNat_shlBits
theorem bitsN_shr : bitsN ty shrBits = bitFn2 ty bShr := bitsN_eq_bitFn2 toNat_shrBits
theorem bitsN_sar : bitsN ty sarBits = bitFn2 ty bSar := bitsN_eq_bitFn2 toNat_sarBits
theorem bitsN_rot : bitsN ty rotBits = bitFn2 ty bRot := bitsN_eq_bitFn2 (fun x b => toNat_rotBits x b (tyBits_pos ty))
theorem bits1_clz : bits1 ty clzBits = bitFn1 ty bClz := bits1_eq_bitFn1 toNat_clzBits
theorem bits1_popc : bits1 ty popcBits = bitFn1 ty bPopc := bits1_eq_bitFn1 toNat_popcBits
theorem bits1_brev : bits1 ty brevBits = bitFn1 ty bBrev := bits1_eq_bitFn1 toNat_brevBits
theorem bitsN_bfx (signed : Bool) : bitsN ty (bfxBits signed) = bitFn2 ty (bBfx signed) :=
  bitsN_eq_bitFn2 (fun x b => toNat_bfxBits x b (tyBits_pos ty) signed)
theorem bitsNC_bfi : bitsNC ty bfiBits = bitFn3 ty bBfi := bitsNC_eq_bitFn3 toNat_bfiBits
theorem bitsBN_lea : bitsBN ty leaBits = bitFn3 ty bLea := bitsBN_eq_bitFn3 toNat_leaBits

end BitFunctions

/-! ### The instructions of the tables

Each row names the operands that the model reads, so it runs as the model does once its lane function is the model's. -/

theorem exec_intOp {i : Instr} {o : VOp} (s : State) (h : intOp i = some o) : exec i s = o.exec s := by
  unfold intOp at h
  simp only [ints1_eq_intFn1, ints2_eq_intFn2, ints3_eq_intFn3, highProduct_eq, smaller_eq_min, larger_eq_max,
    absolute_eq_natAbs] at h
  split at h <;> cases h <;> rfl

theorem exec_bitOp {i : Instr} {o : VOp} (s : State) (h : bitOp i = some o) : exec i s = o.exec s := by
  unfold bitOp at h
  simp only [bits2_and, bits2_or, bits2_xor, bits1_not, bitsN_shl, bitsN_shr, bitsN_sar, bitsN_rot, bits1_clz, bits1_popc,
    bits1_brev, bitsN_bfx, bitsNC_bfi, bitsBN_lea] at h
  split at h <;> cases h <;> rfl

theorem exec_immOp {i : Instr} {o : VOp} (s : State) (h : immOp i = some o) : exec i s = o.exec s := by
  unfold immOp at h
  simp only [ints1_eq_intFn1, ints2_eq_intFn2, ints3_eq_intFn3, highProduct_eq, smaller_eq_min, larger_eq_max,
    absolute_eq_natAbs, bits2_and, bits2_or, bits2_xor, bits1_not, bitsN_shl, bitsN_shr, bitsN_sar, bitsN_rot, bits1_clz,
    bits1_popc, bits1_brev, bitsN_bfx, bitsNC_bfi, bitsBN_lea] at h
  split at h <;> cases h <;> rfl

/-- Settles O8: the functions of the three tables are the model's, each a fact about integers reduced to w bits or about words of w
bits, and the types' patterns are congruent modulo 2^w. -/
theorem integerInstructions : Obligations.IntegerInstructions :=
  ⟨delivers_of_exec (fun _ _ s h => exec_intOp s h), delivers_of_exec (fun _ _ s h => exec_bitOp s h),
    delivers_of_exec (fun _ _ s h => exec_immOp s h), sameBits, mostNegative⟩

end Sys2Proof.Claims
